-- ==== Sys2Proof/Word.lean ====
section
/-! DEFINITION. The word types of the Olias package (00 R3, 04 R131, 02 R57). -/

namespace Sys2Proof

/-- A scalar register (04 R131). -/
abbrev Word := BitVec 64

/-- One byte of memory (00 R4). -/
abbrev Byte := BitVec 8

/-- A vector register of 2,048 bytes (05 R167). -/
abbrev VReg := BitVec 16384

/-- A mask register of 2,048 bits (05 R167). -/
abbrev MReg := BitVec 2048

/-- The image of an accumulator, 64 × 64 elements of 32 bits, element 64i + j at bits [32e+31:32e] (09 R292). -/
abbrev AccImg := BitVec 131072

end Sys2Proof
end

