-- ==== Sys2Proof/Machine/Bits.lean ====
section
/-! DEFINITION. Bit fields, bytes, counts and the mixing function (00 R4, R9, 03 R123, R125). -/

namespace Sys2Proof.Machine

/-- A bit of a word as a truth value. -/
def bit {n : Nat} (w : BitVec n) (i : Nat) : Bool := w.getLsbD i

/-- Bits [hi:lo] of a word as a number. -/
def bits {n : Nat} (w : BitVec n) (hi lo : Nat) : Nat := (w.extractLsb' lo (hi + 1 - lo)).toNat

/-- One bit for a truth value. -/
def b2n (b : Bool) : Nat := if b then 1 else 0

/-- `w` with bits [lo+len-1:lo] replaced by the low bits of `v`. -/
def setBits {n : Nat} (w : BitVec n) (lo len : Nat) (v : BitVec n) : BitVec n :=
  let m : BitVec n := (BitVec.allOnes n >>> (n - len)) <<< lo
  (w &&& ~~~m) ||| ((v <<< lo) &&& m)

/-- The value of bytes in ascending address order (00 R4). -/
def leNat : List Byte → Nat
  | [] => 0
  | b :: bs => b.toNat + 256 * leNat bs

/-- The `n` low bytes of a number in ascending address order (00 R4). -/
def natLe : Nat → Nat → List Byte
  | 0, _ => []
  | n + 1, v => BitVec.ofNat 8 v :: natLe n (v / 256)

/-- The `n` bytes of a word in ascending address order. -/
def wordLe (n : Nat) (w : Word) : List Byte := natLe n w.toNat

/-- Number of one bits. -/
def popcount {n : Nat} (w : BitVec n) : Nat :=
  (List.range n).foldl (fun c i => c + b2n (w.getLsbD i)) 0

/-- Number of trailing zero bits among the first `k` bits tried. -/
def ctzFrom {n : Nat} (w : BitVec n) : Nat → Nat → Nat
  | 0, i => i
  | k + 1, i => if w.getLsbD i then i else ctzFrom w k (i + 1)

/-- Trailing zero bits; the width for zero. -/
def ctz {n : Nat} (w : BitVec n) : Nat := ctzFrom w n 0

/-- Leading zero bits; the width for zero. -/
def clz {n : Nat} (w : BitVec n) : Nat := if w = 0 then n else n - 1 - Nat.log2 w.toNat

/-- A number read as signed in `w` bits (03 R101). -/
def sval (w : Nat) (v : Nat) : Int :=
  let v := v % 2 ^ w
  if v < 2 ^ (w - 1) then (v : Int) else (v : Int) - (2 ^ w : Nat)

/-- The low `w` bits of an integer (03 R102). -/
def wrapTo (w : Nat) (v : Int) : Nat := (v % (2 ^ w : Nat)).toNat

/-- An integer clamped to the range of a `w`-bit type (03 R118). -/
def clampTo (sgn : Bool) (w : Nat) (v : Int) : Nat :=
  let lo : Int := if sgn then -((2 ^ (w - 1) : Nat) : Int) else 0
  let hi : Int := if sgn then ((2 ^ (w - 1) : Nat) : Int) - 1 else ((2 ^ w : Nat) : Int) - 1
  wrapTo w (max lo (min hi v))

/-- `a` rounded up to a multiple of `b`, divided by it. -/
def ceilDiv (a b : Nat) : Nat := (a + b - 1) / b

/-- The 32-bit words of the mixing function (03 R123). -/
abbrev Mix := BitVec 32 × BitVec 32 × BitVec 32 × BitVec 32

/-- The rounds of the mixing function. -/
def mixRounds : Nat → BitVec 32 → BitVec 32 → Mix → Mix
  | 0, _, _, c => c
  | n + 1, k0, k1, (c0, c1, c2, c3) =>
    let p0 : BitVec 64 := 0xE817FB2D#64 * c0.setWidth 64
    let p1 : BitVec 64 := 0xC45A9E93#64 * c2.setWidth 64
    mixRounds n (k0 + 0x8F1B6A35#32) (k1 + 0x5C3D7E91#32)
      ((p1 >>> 32).setWidth 32 ^^^ c1 ^^^ k0, p1.setWidth 32, (p0 >>> 32).setWidth 32 ^^^ c3 ^^^ k1, p0.setWidth 32)

/-- mix(key, ctr) (03 R123). -/
def mix (key : Word) (c : Mix) : Mix := mixRounds 8 (key.setWidth 32) ((key >>> 32).setWidth 32) c

/-- c1:c0 of a mix result. -/
def mixLow (c : Mix) : Word := c.2.1 ++ c.1

/-- draw(domain, e) of a stream of kind `kind` (03 R125). -/
def drawMix (key : Word) (kind : Nat) (task : Nat) (dc : BitVec 56) (domain e : Nat) : Mix :=
  mix key (BitVec.ofNat 32 (e % 2 ^ 16 + (kind % 8) * 2 ^ 16), BitVec.ofNat 32 task, dc.setWidth 32,
    (((dc >>> 32).setWidth 32) <<< 8) ||| BitVec.ofNat 32 domain)

/-- The key a task draws with at its start: bits c1:c0 of mix under domain 7 (03 R124, R126). -/
def taskKey (seed : Word) (rank : Nat) : Word := mixLow (mix seed (BitVec.ofNat 32 rank, 0, 0, 7))

/-- The step key of a transaction (13 R421). -/
def stepKey (seed step : Word) : Word :=
  mixLow (mix seed (step.setWidth 32, (step >>> 32).setWidth 32, 0, 5))

/-- The step task key (13 R421). -/
def stepTaskKey (seed step : Word) (task rank : Nat) : Word :=
  mixLow (mix (stepKey seed step) (BitVec.ofNat 32 task, BitVec.ofNat 32 rank, 1, 5))

end Sys2Proof.Machine
end

