-- ==== Sys2Proof/Machine/Fp.lean ====
section
/-! DEFINITION. Floating formats, exact values, the one rounding function and conversions (03 R103 to R122). -/

namespace Sys2Proof.Machine

/-- An exact value (03 R112): NaN, an infinity, or (-1)^s × m × 2^e; with `st` the magnitude lies strictly between
m × 2^e and (m + 1) × 2^e. -/
inductive Exact where
  | nan
  | inf (s : Bool)
  | fin (s : Bool) (m : Nat) (e : Int) (st : Bool)
  deriving DecidableEq, Repr

/-- A floating format (03 R103, R106): precision with the leading bit, width, bias, signedness, whether it is a narrow
format, magnitude code of the largest finite value, code of +∞ where it has one, canonical NaN. -/
structure Fmt where
  prec   : Nat
  width  : Nat
  bias   : Nat
  signed : Bool
  narrow : Bool
  maxc   : Nat
  infc   : Option Nat
  nanc   : Nat
  deriving DecidableEq, Repr

/-- binary64. -/
def fmt64 : Fmt := { prec := 53, width := 64, bias := 1023, signed := true, narrow := false, maxc := 0x7FEFFFFFFFFFFFFF, infc := some 0x7FF0000000000000, nanc := 0x7FF8000000000000 }
/-- binary32. -/
def fmt32 : Fmt := { prec := 24, width := 32, bias := 127, signed := true, narrow := false, maxc := 0x7F7FFFFF, infc := some 0x7F800000, nanc := 0x7FC00000 }
/-- binary16. -/
def fmt16 : Fmt := { prec := 11, width := 16, bias := 15, signed := true, narrow := false, maxc := 0x7BFF, infc := some 0x7C00, nanc := 0x7E00 }
/-- BF16. -/
def fmtBf : Fmt := { prec := 8, width := 16, bias := 127, signed := true, narrow := false, maxc := 0x7F7F, infc := some 0x7F80, nanc := 0x7FC0 }

/-- The narrow format of a descriptor `NFD` (03 R106, R107, R109). -/
def fmtNarrow (nfd : BitVec 5) : Fmt :=
  let p := bits nfd 2 0
  let sgn := bit nfd 3
  let ext := bit nfd 4
  if sgn then
    { prec := p, width := 8, bias := 2 ^ (7 - p), signed := true, narrow := true,
      maxc := if ext then 0x7E else 0x7F, infc := if ext then some 0x7F else none, nanc := 0x80 }
  else
    { prec := p, width := 8, bias := 2 ^ (8 - p), signed := false, narrow := true,
      maxc := if ext then 0xFD else 0xFE, infc := if ext then some 0xFE else none, nanc := 0xFF }

/-- Exponent of the quantum of the binade of a magnitude code. -/
def Fmt.quantum (F : Fmt) (c : Nat) : Int :=
  let e := c >>> (F.prec - 1)
  (max e 1 : Nat) - (F.bias : Int) - (F.prec - 1 : Nat)

/-- The significand of a magnitude code in units of its quantum. -/
def Fmt.signif (F : Fmt) (c : Nat) : Nat :=
  let t := c % 2 ^ (F.prec - 1)
  if c >>> (F.prec - 1) = 0 then t else 2 ^ (F.prec - 1) + t

/-- Magnitude code and sign of a code. -/
def Fmt.split (F : Fmt) (c : Nat) : Bool × Nat :=
  if F.signed then (c.testBit (F.width - 1), c % 2 ^ (F.width - 1)) else (false, c % 2 ^ F.width)

/-- The value of a code (03 R103, R106). -/
def Fmt.decode (F : Fmt) (c : Nat) : Exact :=
  let (s, b) := F.split c
  if F.narrow && c % 256 = F.nanc then .nan
  else if F.infc = some b then .inf s
  else if b > F.maxc then .nan
  else .fin s (F.signif b) (F.quantum b) false

/-- A finite value that is a zero. -/
def Exact.isZero : Exact → Bool
  | .fin _ m _ st => m = 0 && !st
  | _ => false

/-- NaN. -/
def Exact.isNan : Exact → Bool
  | .nan => true
  | _ => false

/-- Sign bit of a value. -/
def Exact.sign : Exact → Bool
  | .fin s _ _ _ => s
  | .inf s => s
  | .nan => false

/-- A zero of a sign. -/
def Exact.zero (s : Bool) : Exact := .fin s 0 0 false

/-- An integer as an exact value. -/
def Exact.ofInt (v : Int) : Exact := .fin (v < 0) v.natAbs 0 false

/-- The formats that `FLUSH` touches (03 R114). -/
def Fmt.flushes (F : Fmt) : Bool := !F.narrow && F.width ≠ 64

/-- An operand under `FLUSH` (03 R114): a subnormal is read as a zero of its sign. -/
def Fmt.operand (F : Fmt) (flush : Bool) (c : Nat) : Exact :=
  let (s, b) := F.split c
  if flush && F.flushes && b < 2 ^ (F.prec - 1) then .zero s else F.decode c

/-- The code of a magnitude code with a sign (03 R112 `encode`). -/
def Fmt.encode (F : Fmt) (s : Bool) (b : Nat) : Nat :=
  if s && !(F.narrow && b = 0) && F.signed then b + 2 ^ (F.width - 1) else b

/-- What a rounding needs to know of the fraction f between two lattice points: floor(16 f), floor(8 f), f against 1/2,
whether f is above 0. -/
structure Frac where
  f16 : Nat
  f8  : Nat
  gtHalf : Bool
  geHalf : Bool
  pos : Bool

/-- The magnitude m × 2^e in units of 2^q: the floor, and the fraction above it. -/
def splitAt (m : Nat) (e : Int) (st : Bool) (q : Int) : Nat × Frac :=
  if e ≥ q then
    (m <<< (e - q).toNat, { f16 := 0, f8 := 0, gtHalf := false, geHalf := false, pos := st })
  else
    let sh := (q - e).toNat
    let k := m >>> sh
    let r := m - (k <<< sh)
    let h := 1 <<< (sh - 1)
    (k, { f16 := (r <<< 4) >>> sh, f8 := (r <<< 3) >>> sh, gtHalf := r > h || (r = h && st), geHalf := r ≥ h,
          pos := r ≠ 0 || st })

/-- Whether a rounding goes to the upper neighbour (03 R112). -/
def roundUp (mode : Nat) (s : Bool) (odd : Bool) (rb : Nat) (f : Frac) : Bool :=
  match mode with
  | 0 => f.gtHalf || (f.geHalf && odd)
  | 1 => false
  | 2 => f.pos && !s
  | 3 => f.pos && s
  | 4 => f.geHalf
  | 5 => rb % 16 < f.f16
  | _ => rb % 8 < f.f8

/-- The lower neighbour of a magnitude in the lattice of F as a magnitude code, and the fraction above it; a code above
`maxc` stands for any lattice point above the largest finite value (03 R112 `neighbours`). -/
def Fmt.neighbours (F : Fmt) (m : Nat) (e : Int) (st : Bool) : Nat × Frac :=
  let minq : Int := 1 - (F.bias : Int) - (F.prec - 1 : Nat)
  let top : Int := e + (Nat.log2 m : Nat)
  let q : Int := if m = 0 then minq else max minq (top - (F.prec - 1 : Nat))
  let (k, f) := splitAt m e st q
  let c := if k < 2 ^ (F.prec - 1) then k
    else ((q - minq).toNat + 1) * 2 ^ (F.prec - 1) + (k - 2 ^ (F.prec - 1))
  if c < F.maxc || F.maxc % 2 ^ (F.prec - 1) ≠ 0 then (c, f)
  else
    -- the largest finite value opens its binade: above it the spacing is that of the binade below
    let q := F.quantum F.maxc - 1
    let (k, f) := splitAt m e st q
    if k > 2 * F.signif F.maxc then (F.maxc + 1, f) else (F.maxc, f)

/-- round_full(F, mode, sat, flush, x, rb) (03 R112). -/
def roundFull (F : Fmt) (mode : Nat) (sat flush : Bool) (x : Exact) (rb : Nat) : Nat :=
  match x with
  | .nan => F.nanc
  | .inf s =>
    if !F.signed && s then (if sat then 0 else F.nanc)
    else if sat then F.encode s F.maxc
    else match F.infc with
      | some c => F.encode s c
      | none => F.nanc
  | .fin s m e st =>
    if !F.signed && s && !(m = 0 && !st) then (if sat then 0 else F.nanc)
    else
      let (c, f) := F.neighbours m e st
      let y := if roundUp mode s (c % 2 = 1) rb f then c + 1 else c
      if y > F.maxc then
        if sat || mode = 1 || (mode = 2 && s) || (mode = 3 && !s) then F.encode s F.maxc
        else match F.infc with
          | some i => F.encode s i
          | none => F.nanc
      else if flush && F.flushes && 0 < y && y < 2 ^ (F.prec - 1) then F.encode s 0
      else F.encode s y

/-- -x. -/
def Exact.neg : Exact → Exact
  | .nan => .nan
  | .inf s => .inf (!s)
  | .fin s m e st => .fin (!s) m e st

/-- x × y, exact (03 R185: 0 × ∞ is NaN). -/
def Exact.mul (a b : Exact) : Exact :=
  match a, b with
  | .nan, _ => .nan
  | _, .nan => .nan
  | .inf s, .inf t => .inf (s != t)
  | .inf s, .fin t m _ _ => if m = 0 then .nan else .inf (s != t)
  | .fin s m _ _, .inf t => if m = 0 then .nan else .inf (s != t)
  | .fin s m e _, .fin t n f _ => .fin (s != t) (m * n) (e + f) false

/-- The least exponent of the finite terms. -/
def minExp (l : List Exact) : Int :=
  l.foldl (fun a x => match x with | .fin _ m e _ => if m = 0 then a else min a e | _ => a) 0

/-- The finite part of a sum in units of 2^q. -/
def sumAt (q : Int) (l : List Exact) : Int :=
  l.foldl (fun a x => match x with
    | .fin s m e _ => let v : Int := (m <<< (e - q).toNat : Nat); if s then a - v else a + v
    | _ => a) 0

/-- The exact sum of terms (03 R119): specials, and the sign of a zero under `RDN` or another mode. -/
def exactSum (rdn : Bool) (l : List Exact) : Exact :=
  if l.any Exact.isNan then .nan
  else
    let p := l.any (fun x => x = .inf false)
    let n := l.any (fun x => x = .inf true)
    if p && n then .nan
    else if p then .inf false
    else if n then .inf true
    else
      let q := minExp l
      let v := sumAt q l
      if v ≠ 0 then .fin (v < 0) v.natAbs q false
      else if l = [] then .zero false
      else if l.all (fun x => x.isZero && x.sign) then .zero true
      else if l.all (fun x => x.isZero && !x.sign) then .zero false
      else .zero rdn

/-- x + y, exact (03 R104). -/
def Exact.add (rdn : Bool) (a b : Exact) : Exact := exactSum rdn [a, b]

/-- x < y for values that are not NaN, with −0 equal to +0. -/
def Exact.lt (a b : Exact) : Bool :=
  match a, b with
  | .nan, _ => false
  | _, .nan => false
  | .inf s, .inf t => s && !t
  | .inf s, _ => s
  | _, .inf t => !t
  | _, _ => sumAt (minExp [a, b]) [a] < sumAt (minExp [a, b]) [b]

/-- x = y for values that are not NaN, with −0 equal to +0. -/
def Exact.eq (a b : Exact) : Bool :=
  match a, b with
  | .nan, _ => false
  | _, .nan => false
  | a, b => !a.lt b && !b.lt a

/-- A value rounded to an integer under a mode (03 R116): magnitude lattice of the integers. -/
def roundInt (mode : Nat) (x : Exact) (rb : Nat) : Int :=
  match x with
  | .fin s m e st =>
    let (k, f) := splitAt m e st 0
    let y := if roundUp mode s (k % 2 = 1) rb f then k + 1 else k
    if s then -(y : Int) else y
  | _ => 0

/-- A floating value converted to an integer type (03 R116). -/
def floatToInt (sgn : Bool) (w : Nat) (mode : Nat) (x : Exact) (rb : Nat) : Nat :=
  match x with
  | .nan => 0
  | .inf s => clampTo sgn w (if s then -((2 ^ 64 : Nat) : Int) else ((2 ^ 64 : Nat) : Int))
  | x => clampTo sgn w (roundInt mode x rb)

/-- An integer converted to an integer type (03 R116). -/
def intToInt (sat sgn : Bool) (w : Nat) (v : Int) : Nat := if sat then clampTo sgn w v else wrapTo w v

/-- A type of R116: a floating format, or an integer of a width and signedness. -/
inductive Ty where
  | flt (F : Fmt)
  | int (sgn : Bool) (w : Nat)
  deriving DecidableEq, Repr

/-- Width of a type in bits. -/
def Ty.width : Ty → Nat
  | .flt F => F.width
  | .int _ w => w

/-- The conversion of R116 on raw codes. -/
def convert (dst src : Ty) (mode : Nat) (sat flush : Bool) (c rb : Nat) : Nat :=
  match src, dst with
  | .int s w, .int t v => intToInt sat t v (if s then sval w c else (c % 2 ^ w : Nat))
  | .int s w, .flt F => roundFull F mode sat flush (Exact.ofInt (if s then sval w c else (c % 2 ^ w : Nat))) rb
  | .flt G, .flt F =>
    -- a narrow value into binary32, BF16 or binary64 is exact and never flushed
    let fl := flush && !(G.narrow && (F = fmt32 || F = fmtBf || F = fmt64))
    roundFull F mode sat fl (G.operand flush c) rb
  | .flt G, .int t v => floatToInt t v mode (G.operand flush c) rb

/-- chunk_dot (03 R120): a product of unscaled operands, in chunks of `n`, in order of k. The operands are values as
`FLUSH` leaves them; `c` is a binary32 code. -/
def chunkDot (n : Nat) (sat flush : Bool) : Nat → Nat → List Exact → List Exact → Nat
  | 0, c, _, _ => c
  | k + 1, c, a, b =>
    let ps := List.zipWith Exact.mul (a.take n) (b.take n)
    chunkDot n sat flush k (roundFull fmt32 0 sat flush (exactSum false (fmt32.operand flush c :: ps)) 0)
      (a.drop n) (b.drop n)

/-- scale_product (03 R121) of two finite BF16 values. -/
def scaleProduct (x y : Exact) (sat flush : Bool) : Exact :=
  let p := Exact.mul x y
  match p with
  | .fin s m e st =>
    let big := (Exact.fin false 0xFFFFFF 104 false).lt (.fin false m e st)
    if big then (if sat then .fin s 0xFFFFFF 104 false else .inf s)
    else if m ≠ 0 && (Exact.fin false m e st).lt (.fin false 1 (-126) false) then
      if flush then .zero s else fmt32.decode (roundFull fmt32 0 false false p 0)
    else p
  | _ => p

/-- scaled_dot (03 R121): blocks of 32 in order of k, two roundings a block, the first of which gives a zero block sum its
sign (R119); `rb m` is the draw of block m. -/
def scaledDot (mode : Nat) (sat flush : Bool) (rb : Nat → Nat) : Nat → Nat → Nat → List Exact → List Exact →
    List Nat → List Nat → Nat
  | 0, _, c, _, _, _, _ => c
  | k + 1, j, c, a, b, sa, sb =>
    let x := fmtBf.decode (sa.headD 0)
    let y := fmtBf.decode (sb.headD 0)
    let finite (v : Exact) : Bool := match v with | .fin _ _ _ _ => true | _ => false
    let blk :=
      if finite x && finite y then
        let dot := exactSum (mode = 3) (List.zipWith Exact.mul (a.take 32) (b.take 32))
        roundFull fmt32 mode sat flush (Exact.mul dot (scaleProduct x y sat flush)) (rb j)
      else fmt32.nanc
    let c := roundFull fmt32 0 sat flush (Exact.add false (fmt32.operand flush c) (fmt32.operand false blk)) 0
    scaledDot mode sat flush rb k (j + 1) c (a.drop 32) (b.drop 32) (sa.drop 1) (sb.drop 1)

end Sys2Proof.Machine
end

