-- ==== Sys2Proof/Machine/FpFun.lean ====
section
/-! DEFINITION. Division, square root, 2^x, log2, sine and cosine as exact values with a sticky bit (03 R129,
05 R185, 08 R280; log 10). -/

namespace Sys2Proof.Machine

/-- a / b (05 R185 `VDIV`): quotient to more than 128 bits with a sticky bit. -/
def Exact.div (a b : Exact) : Exact :=
  match a, b with
  | .nan, _ => .nan
  | _, .nan => .nan
  | .inf _, .inf _ => .nan
  | .inf s, .fin t _ _ _ => .inf (s != t)
  | .fin s _ _ _, .inf t => .zero (s != t)
  | .fin s m e _, .fin t n f _ =>
    if n = 0 then (if m = 0 then .nan else .inf (s != t))
    else if m = 0 then .zero (s != t)
    else
      let k := 128 + Nat.log2 n
      .fin (s != t) ((m <<< k) / n) (e - f - (k : Int)) ((m <<< k) % n ≠ 0)

/-- Bits of the integer square root of `x`, from bit `i` down. -/
def isqrtFrom (x : Nat) : Nat → Nat → Nat
  | 0, r => r
  | i + 1, r => let t := r + 2 ^ i; isqrtFrom x i (if t * t ≤ x then t else r)

/-- The integer square root. -/
def isqrt (x : Nat) : Nat := isqrtFrom x (Nat.log2 x / 2 + 1) 0

/-- √a (05 R185 `VSQRT`). -/
def Exact.sqrt (a : Exact) : Exact :=
  match a with
  | .nan => .nan
  | .inf s => if s then .nan else .inf false
  | .fin s m e st =>
    if m = 0 then .fin s m e st
    else if s then .nan
    else
      let m' := if e % 2 = 0 then m else 2 * m
      let e' := if e % 2 = 0 then e else e - 1
      let x := m' <<< 256
      let r := isqrt x
      .fin false r (e' / 2 - 128) (r * r ≠ x)

/-- 1 / a (05 R185 `VRCP`). -/
def Exact.rcp (a : Exact) : Exact := Exact.div (.fin false 1 0 false) a

/-- ln 2 in units of 2^−320. -/
def ln2Fix : Nat := 0xb17217f7d1cf79abc9e3b39803f2f6af40f343267298b62d8a0d175b8baafa2be7b876206debac98

/-- π in units of 2^−640. -/
def piFix : Nat := 0x3243f6a8885a308d313198a2e03707344a4093822299f31d0082efa98ec4e6c89452821e638d01377be5466cf34e90c6cc0ac29b7c97c50dd3f84d5b5b54709179216d5d98979fb1bd1310ba698dfb5ac

/-- Sum of the terms y^n / n! of exp from term `n` on, in units of 2^−320. -/
def expSeries (y : Nat) : Nat → Nat → Nat → Nat → Nat
  | 0, _, _, s => s
  | k + 1, n, t, s => let t := ((t * y) >>> 320) / n; expSeries y k (n + 1) t (s + t)

/-- 2^a (05 R185 `VEXP2`): exact for an integer a, else 2^f by the exponential series to 320 bits, of which the low 64
are dropped into the sticky bit. -/
def Exact.exp2 (a : Exact) : Exact :=
  match a with
  | .nan => .nan
  | .inf s => if s then .zero false else .inf false
  | .fin s m e st =>
    if m = 0 then .fin false 1 0 false
    else if e + (Nat.log2 m : Nat) ≥ 12 then .fin false 1 (if s then -4096 else 4096) true
    else
      -- a = n + f / 2^k with 0 ≤ f < 2^k
      let k := (-e).toNat
      let v : Int := if e ≥ 0 then ((m <<< e.toNat : Nat) : Int) else m
      let v := if s then -v else v
      let n := v / (2 ^ k : Nat)
      let f := (v % (2 ^ k : Nat)).toNat
      if f = 0 then .fin false 1 n st
      else
        let y := (f * ln2Fix) >>> k
        let x := expSeries y 90 1 (1 <<< 320) (1 <<< 320)
        .fin false (x >>> 64) (n - 256) true

/-- Sum of t^(2n+1) / (2n+1) from term `n` on, in units of 2^−320. -/
def atanhSeries (t2 : Nat) : Nat → Nat → Nat → Nat → Nat
  | 0, _, _, s => s
  | k + 1, n, p, s => let p := (p * t2) >>> 320; atanhSeries t2 k (n + 2) p (s + p / n)

/-- log2 a (05 R185 `VLOG2`): exact for a power of two, else by the series of atanh to 320 bits, of which the low 64 are
dropped into the sticky bit. -/
def Exact.log2 (a : Exact) : Exact :=
  match a with
  | .nan => .nan
  | .inf s => if s then .nan else .inf false
  | .fin s m e _ =>
    if m = 0 then .inf true
    else if s then .nan
    else
      let l := Nat.log2 m
      let n : Int := e + (l : Nat)
      if m = 2 ^ l then .fin (n < 0) n.natAbs 0 false
      else
        -- m / 2^l = z with 1 < z < 2; ln z = 2 atanh((z - 1) / (z + 1))
        let t := ((m - 2 ^ l) <<< 320) / (m + 2 ^ l)
        let t2 := (t * t) >>> 320
        let ln := 2 * atanhSeries t2 110 3 t t
        let fr := ((ln <<< 320) / ln2Fix) >>> 64
        let v : Int := n * (2 ^ 256 : Nat) + fr
        if v < 0 then .fin true (v.natAbs - 1) (-256) true else .fin false v.toNat (-256) true

/-- Sum of the alternating series r^n / n! in steps of two from term `n`, in units of 2^−512. -/
def trigSeries (r2 : Nat) : Nat → Nat → Int → Int → Int
  | 0, _, _, s => s
  | k + 1, n, t, s =>
    let t := -((t * (r2 : Int)) / (2 ^ 512 : Nat)) / ((n * (n + 1) : Nat) : Int)
    trigSeries r2 k (n + 2) t (s + t)

/-- |sin| or |cos| of an angle in the first quadrant, given in units of 2^−512. -/
def sinFix (r : Nat) : Int := trigSeries ((r * r) >>> 512) 70 2 r r
/-- The cosine beside it. -/
def cosFix (r : Nat) : Int := trigSeries ((r * r) >>> 512) 70 1 (2 ^ 512 : Nat) (2 ^ 512 : Nat)

/-- A value in units of 2^−512 as an exact value of 480 fraction bits and a sticky bit. -/
def fixVal (s : Bool) (v : Int) : Exact := .fin s (v.toNat >>> 32) (-480) true

/-- sin g, or cos g when `cos` is set (08 R280 `ROTARY`): the angle reduced by multiples of π/2. -/
def Exact.trig (cos : Bool) (g : Exact) : Exact :=
  match g with
  | .nan => .nan
  | .inf _ => .nan
  | .fin s m e _ =>
    if m = 0 then (if cos then .fin false 1 0 false else .zero s)
    else
      -- |g| in units of 2^-640, exact for a binary32 value
      let v := if e + 640 ≥ 0 then m <<< (e + 640).toNat else m >>> (-(e + 640)).toNat
      let half := piFix / 2
      let k := v / half
      let r := (v - k * half) >>> 128
      match cos, k % 4 with
      | false, 0 => fixVal s (sinFix r)
      | false, 1 => fixVal s (cosFix r)
      | false, 2 => fixVal (!s) (sinFix r)
      | false, _ => fixVal (!s) (cosFix r)
      | true, 0 => fixVal false (cosFix r)
      | true, 1 => fixVal true (sinFix r)
      | true, 2 => fixVal true (cosFix r)
      | true, _ => fixVal false (sinFix r)

end Sys2Proof.Machine
end

