-- ==== Sys2Proof/Syntax.lean ====
section
/-! DEFINITION. The instructions and events of the Olias package: one constructor of `Instr` for each row of
spec/opcode_table.json. First stand the rows that a decoder answers with, in the table's order, then the rows that share a
word with one of them, and the events. (Compiled code can build only the first 245 constructors of a type.)

The fields of a 32-bit row are the fields the table gives it, under their letters. The 64-bit words carry the
fields of their encoding tables (05 R186 to R201, 06 R238 to R243, 09 R304 to R317, 10 R342 and R343).
A row without an encoding is an event; its fields say which unit it concerns and what reaches the device from
outside with it (a host's data, another package's packet, the operator's message).
The word `NMC` serves thirteen rows, which differ in `CTL` (11 R373), and the word `COLL` serves three, which
differ in the descriptor's `KIND` (06 R234). -/

namespace Sys2Proof

/-- The streams: the four engines of a core and the die's Astrolabe stream (01 R14). -/
inductive Strm where
  | ctl | vec | mtx | cpy | ast
  deriving DecidableEq, Repr

/-- The engines whose 64-bit words carry flag instructions (06 R242, 09 R318). -/
inductive Eng64 where
  | mtx | cpy
  deriving DecidableEq, Repr

/-- The streams with the 64-bit scalar subset (06 R243, 09 R318, 10 R343). -/
inductive Strm64 where
  | mtx | cpy | ast
  deriving DecidableEq, Repr

/-- Operand of `ADDF` and `WAITF` in 64-bit words (06 R242): a register, or the unsigned `IMM32[31:7]`. -/
inductive FlagSrc where
  | reg (a : BitVec 5)
  | imm (v : BitVec 25)
  deriving DecidableEq, Repr

/-- The range of `GIVE` in 64-bit words (06 R242): scratchpad EA and length registers, or accumulators. -/
inductive GiveSrc where
  | pad (a b : BitVec 5)
  | acc (n c : BitVec 4)
  deriving DecidableEq, Repr

/-- Second operand of the 64-bit scalar words (06 R243): a register or a signed 16-bit immediate. -/
inductive Opd16 where
  | reg (b : BitVec 5)
  | imm (i : BitVec 16)
  deriving DecidableEq, Repr

/-- `INIT` of a product (09 R304): keep, zero, or fade by the binary32 value in `x[RF]`. -/
inductive Init where
  | keep
  | zero
  | fade (rf : BitVec 5)
  deriving DecidableEq, Repr

/-- What a participant of a copy collective in another package contributes (06 R236): its rank, whether its
`OP`, `KIND`, `TY4`, `NPART` and `COUNT` agree with the others, its source elements as raw bits, and the
positions of its elements whose source sector failed. -/
structure RemotePart where
  rank  : BitVec 16
  agree : Bool
  elems : List (BitVec 64)
  lost  : List Nat
  deriving DecidableEq, Repr

/-- What a participant of a state group in another package brings to a collective (10 R333, R337, R340):
its rank, whether it agrees, the raw amplitudes it sends, the exact partial sums it contributes (in units of
R119), whether one of its terms was a NaN or an infinity, and the `QSEQ` value it takes. -/
structure RemoteShare where
  rank  : BitVec 14
  agree : Bool
  amps  : List (BitVec 128)
  sums  : List Int
  nan   : Bool
  inf   : Bool
  qseq  : BitVec 32
  deriving DecidableEq, Repr

/-- What the root of a `.pod` or `.sys` barrier found in the other packages (01 R27, R29): whether every
arrival agrees with this package's, and how many lines in conflict the other packages report (01 R30). -/
structure RemoteArrivals where
  agree     : Bool
  conflicts : BitVec 32
  lowestVa  : BitVec 64
  deriving DecidableEq, Repr

/-- What a flit of 256 bytes carries, by priority class (14 R446). -/
inductive FlitBody where
  | vote (p : BitVec 128)
  | decision (p : BitVec 128)
  | align (stamp : BitVec 64)
  | data (ga : BitVec 54) (mask : BitVec 64) (bytes : BitVec 512)
  | red (ga : BitVec 54) (group : BitVec 16) (key : BitVec 8) (op : BitVec 3) (ty : BitVec 4) (val : BitVec 64)
  deriving DecidableEq, Repr

/-- Where an uncorrectable SRAM error lies (14 R453, R454). -/
inductive SramPlace where
  | cleanLine (core : BitVec 8)
  | codeLine (core : BitVec 8) (k : BitVec 16)
  | versionCache (stack : BitVec 4)
  | tlbEntry (core : BitVec 8) (k : BitVec 16)
  | dieTlbEntry (die : BitVec 2) (k : BitVec 16)
  | dirtyLine (ga : BitVec 55)
  | registers (core : BitVec 8)
  | accumulator (core : BitVec 8)
  | scratchpad (core : BitVec 8)
  | flagState (core : BitVec 8)
  | queueState (core : BitVec 8)
  | directory (die : BitVec 2)
  | hub
  deriving DecidableEq, Repr

/-- One constructor for each row of spec/opcode_table.json. -/
inductive Instr where
  /-- ADD (R137). Writes a + b, wrapping, to xd. -/
  | add (d a b : BitVec 6)
  /-- SUB (R137). Writes a − b to xd. -/
  | sub (d a b : BitVec 6)
  /-- MUL (R137). Writes the low 64 bits of a × b to xd. -/
  | mul (d a b : BitVec 6)
  /-- MULH_I64 (R137). Writes the high 64 bits of the signed 128-bit product. -/
  | mulhI64 (d a b : BitVec 6)
  /-- MULH_N64 (R137). Writes the high 64 bits of the unsigned 128-bit product. -/
  | mulhN64 (d a b : BitVec 6)
  /-- DIV_I64 (R137). Signed truncating division; division by zero gives all ones. -/
  | divI64 (d a b : BitVec 6)
  /-- DIV_N64 (R137). Unsigned division; division by zero gives all ones. -/
  | divN64 (d a b : BitVec 6)
  /-- REM_I64 (R137). Signed remainder; division by zero gives the dividend. -/
  | remI64 (d a b : BitVec 6)
  /-- REM_N64 (R137). Unsigned remainder; division by zero gives the dividend. -/
  | remN64 (d a b : BitVec 6)
  /-- AND (R137). Writes the bitwise and of a and b. -/
  | and (d a b : BitVec 6)
  /-- OR (R137). Writes the bitwise or of a and b. -/
  | or (d a b : BitVec 6)
  /-- XOR (R137). Writes the bitwise xor of a and b. -/
  | xor (d a b : BitVec 6)
  /-- ANDN (R137). Writes a and not b. -/
  | andn (d a b : BitVec 6)
  /-- SHL (R137). Shifts a left by b[5:0]. -/
  | shl (d a b : BitVec 6)
  /-- SHR (R137). Shifts a right by b[5:0] with zeros in. -/
  | shr (d a b : BitVec 6)
  /-- SAR (R137). Shifts a right by b[5:0] with copies of the sign bit in. -/
  | sar (d a b : BitVec 6)
  /-- ROL (R137). Rotates a left by b[5:0]. -/
  | rol (d a b : BitVec 6)
  /-- MIN_I64 (R137). Writes the signed minimum of a and b. -/
  | minI64 (d a b : BitVec 6)
  /-- MIN_N64 (R137). Writes the unsigned minimum of a and b. -/
  | minN64 (d a b : BitVec 6)
  /-- MAX_I64 (R137). Writes the signed maximum of a and b. -/
  | maxI64 (d a b : BitVec 6)
  /-- MAX_N64 (R137). Writes the unsigned maximum of a and b. -/
  | maxN64 (d a b : BitVec 6)
  /-- CLZ (R137). Counts leading zero bits of a. -/
  | clz (d a : BitVec 6)
  /-- CTZ (R137). Counts trailing zero bits of a. -/
  | ctz (d a : BitVec 6)
  /-- POPC (R137). Counts one bits of a. -/
  | popc (d a : BitVec 6)
  /-- MOV_X_P (R137). Copies a predicate into a scalar register, zero-extended. -/
  | movXP (d : BitVec 6) (n : BitVec 3)
  /-- MOV_P_X (R137). Sets a predicate to whether a scalar register is nonzero. -/
  | movPX (p : BitVec 3) (a : BitVec 6)
  /-- ADD_IMM (R138). Adds a sign-extended 13-bit immediate. -/
  | addImm (d a : BitVec 6) (i : BitVec 13)
  /-- MUL_IMM (R138). Multiplies by a sign-extended immediate, low 64 bits. -/
  | mulImm (d a : BitVec 6) (i : BitVec 13)
  /-- AND_IMM (R138). Ands with a sign-extended immediate. -/
  | andImm (d a : BitVec 6) (i : BitVec 13)
  /-- OR_IMM (R138). Ors with a sign-extended immediate. -/
  | orImm (d a : BitVec 6) (i : BitVec 13)
  /-- XOR_IMM (R138). Xors with a sign-extended immediate. -/
  | xorImm (d a : BitVec 6) (i : BitVec 13)
  /-- SHL_IMM (R139). Shifts left by an immediate count. -/
  | shlImm (d a h : BitVec 6)
  /-- SHR_IMM (R139). Shifts right logically by an immediate count. -/
  | shrImm (d a h : BitVec 6)
  /-- SAR_IMM (R139). Shifts right arithmetically by an immediate count. -/
  | sarImm (d a h : BitVec 6)
  /-- ROL_IMM (R139). Rotates left by an immediate count. -/
  | rolImm (d a h : BitVec 6)
  /-- CMP (R141). Compares two registers under COND and U and writes a predicate. -/
  | cmp (p c : BitVec 3) (a b : BitVec 6) (u : BitVec 1)
  /-- CMP_IMM (R141). Compares a register with a sign-extended immediate and writes a predicate. -/
  | cmpImm (p c : BitVec 3) (a : BitVec 6) (u : BitVec 1) (i : BitVec 12)
  /-- SEL (R142). Selects one of two registers by a predicate. -/
  | sel (d a b : BitVec 6) (p : BitVec 3)
  /-- LI (R140). Loads a sign-extended 19-bit immediate. -/
  | li (d : BitVec 6) (i : BitVec 19)
  /-- LIH (R140). Replaces one 16-bit quarter of a register with an immediate. -/
  | lih (d : BitVec 6) (h : BitVec 2) (i : BitVec 16)
  /-- BFX (R143). Extracts a bit field, signed or unsigned. -/
  | bfx (d a b c : BitVec 6) (s : BitVec 1)
  /-- BFI (R143). Inserts a clamped value into a bit field. -/
  | bfi (d a b c : BitVec 6) (s : BitVec 1)
  /-- FSH (R143). Extracts a field from the 128-bit concatenation of two registers. -/
  | fsh (d a b c : BitVec 6) (s : BitVec 1)
  /-- BR (R145). Branches unconditionally within the code section. -/
  | br (o : BitVec 25)
  /-- CALL (R145). Branches and writes the return address. -/
  | call (d : BitVec 6) (o : BitVec 19)
  /-- BC (R145). Branches when a predicate, optionally negated, holds. -/
  | bc (p : BitVec 3) (n : BitVec 1) (o : BitVec 21)
  /-- LOOP (R145). Decrements a counter and branches while it is nonzero. -/
  | loop (a : BitVec 6) (o : BitVec 19)
  /-- RET (R145). Jumps to the address in a register. -/
  | ret (a : BitVec 6)
  /-- LD (R148). Loads an integer from memory at register plus scaled offset. -/
  | ld (d a : BitVec 6) (t : BitVec 3) (u : BitVec 2) (o : BitVec 8)
  /-- LD_INDEX (R148). Loads an integer from memory at register plus scaled index. -/
  | ldIndex (d a b : BitVec 6) (t : BitVec 3) (u : BitVec 2)
  /-- ST (R148). Stores an integer at register plus scaled offset. -/
  | st (s a : BitVec 6) (t : BitVec 3) (u : BitVec 2) (o : BitVec 8)
  /-- ST_INDEX (R148). Stores an integer at register plus scaled index. -/
  | stIndex (s a b : BitVec 6) (t : BitVec 3) (u : BitVec 2)
  /-- RED_ADD (R150). Sends an add contribution to the home of a memory word. -/
  | redAdd (v a : BitVec 6) (t : BitVec 4) (s : BitVec 3)
  /-- RED_MIN (R150). Sends a min contribution to the home of a word. -/
  | redMin (v a : BitVec 6) (t : BitVec 4) (s : BitVec 3)
  /-- RED_MAX (R150). Sends a max contribution to the home of a word. -/
  | redMax (v a : BitVec 6) (t : BitVec 4) (s : BitVec 3)
  /-- RED_AND (R150). Sends a bitwise and contribution to the home of a word. -/
  | redAnd (v a : BitVec 6) (t : BitVec 4) (s : BitVec 3)
  /-- RED_OR (R150). Sends a bitwise or contribution to the home of a word. -/
  | redOr (v a : BitVec 6) (t : BitVec 4) (s : BitVec 3)
  /-- RED_XOR (R150). Sends a bitwise xor contribution to the home of a word. -/
  | redXor (v a : BitVec 6) (t : BitVec 4) (s : BitVec 3)
  /-- FORK (R24). Starts the named streams of the task at their entries. -/
  | fork (k : BitVec 4)
  /-- ADDF (R66). Adds a register value to a flag, or hands the pending range to a holding flag. -/
  | addf (f a : BitVec 6)
  /-- ADDF_IMM (R66). Adds an immediate to a flag. -/
  | addfImm (f : BitVec 6) (i : BitVec 18)
  /-- GIVE (R66). Gives up a scratchpad range to a holding flag. -/
  | give (f a b : BitVec 6)
  /-- GIVE_ACC (R66). Gives up a run of accumulators to a holding flag. -/
  | giveAcc (f : BitVec 6) (c n : BitVec 4)
  /-- WAITF (R66). Stalls until a flag reaches a register value, then takes it and any ranges. -/
  | waitf (f a : BitVec 6)
  /-- WAITF_IMM (R66). Stalls until a flag reaches an immediate, then takes it. -/
  | waitfImm (f : BitVec 6) (i : BitVec 18)
  /-- FLAGCFG (R65). Sets a flag's consumer, kind and carrier. -/
  | flagcfg (f : BitVec 6) (k : BitVec 1) (c r : BitVec 2)
  /-- FSTAT (R154). Reads a flag's configuration. -/
  | fstat (d f : BitVec 6)
  /-- SSYNC (R26). Arrives at the barrier of a scope after the join wait, switching tasks as needed. -/
  | ssync (d a : BitVec 6) (s : BitVec 3)
  /-- TOKPASS (R80). Passes a shared object's write token to a task at the next release. -/
  | tokpass (a b : BitVec 6) (s : BitVec 3)
  /-- MFENCE (R88). Pushes markers into named engines and waits, then writes the fence status word. -/
  | mfence (d : BitVec 6) (s e : BitVec 3)
  /-- CHRON (R157). Reads the Chronograph. -/
  | chron (d : BitVec 6)
  /-- IPF (R159). Prefetches code lines to the code cache or L2. -/
  | ipf (a b : BitVec 6) (l : BitVec 1)
  /-- IPIN (R159). Pins code lines in the code cache and counts lines added. -/
  | ipin (d a b : BitVec 6)
  /-- IUNPIN (R159). Removes code lines from the pin table. -/
  | iunpin (a b : BitVec 6)
  /-- CSRR (R160). Reads a CSR. -/
  | csrr (d : BitVec 6) (c : BitVec 12)
  /-- CSRW (R160). Writes a CSR after earlier commands complete. -/
  | csrw (a : BitVec 6) (c : BitVec 12)
  /-- TRAP (R162). Stops the core for a service in job mode, or jumps to TVEC in firmware mode. -/
  | trap (a : BitVec 6) (c : BitVec 13)
  /-- LAUNCH (R164). Validates a record and enqueues a child job with a completion flag. -/
  | launch (f a : BitVec 6)
  /-- WINCFG (R289). Configures a window from a descriptor. -/
  | wincfg (w : BitVec 4) (a : BitVec 6)
  /-- WINOFF (R289). Disables a window and frees its angle store. -/
  | winoff (w : BitVec 4)
  /-- WINQ (R290). Reports which window would serve an address. -/
  | winq (d a : BitVec 6)
  /-- TLBINV (R268). Shoots down one 4 KiB page. -/
  | tlbinv (a b : BitVec 6) (s : BitVec 3)
  /-- TLBINVR (R268). Shoots down a range of VAs. -/
  | tlbinvr (c a b : BitVec 6) (s : BitVec 3)
  /-- PGSPLIT (R269). Replaces a leaf by smaller leaves and demotes old entries. -/
  | pgsplit (c a b : BitVec 6) (z : BitVec 3)
  /-- PGDUP (R270). Makes a local read-duplicate replica of a page. -/
  | pgdup (c a b : BitVec 6)
  /-- PGCOLL (R271). Collapses a duplicated page to one owner frame. -/
  | pgcoll (c a b : BitVec 6) (w : BitVec 1)
  /-- PGMOVE (R262). Moves a page to a new frame, carrying reduction accumulators. -/
  | pgmove (c a b : BitVec 6) (f : BitVec 1)
  /-- PGPROT (R273). Rewrites a leaf's permission bits and shoots down the page. -/
  | pgprot (c a b : BitVec 6)
  /-- WALKSTAT (R274). Walks a page table without faulting and reports the result. -/
  | walkstat (d a b : BitVec 6)
  /-- KEYRET (R275). Retires a memory-encryption key identifier. -/
  | keyret (a : BitVec 6)
  /-- PUBLISH (R392). Fences and starts a reach walk from a root object. -/
  | publish (a : BitVec 6) (s : BitVec 3)
  /-- PUBWAIT (R403). Waits for the task's walks and returns the objects marked. -/
  | pubwait (d : BitVec 6)
  /-- REFTAG (R402). Tags an existing word as a reference. -/
  | reftag (a : BitVec 6) (o : BitVec 13)
  /-- STREF (R402). Stores a tagged reference. -/
  | stref (s a : BitVec 6) (o : BitVec 13)
  /-- REFCLR (R402). Clears the reference tag of a word. -/
  | refclr (a : BitVec 6) (o : BitVec 13)
  /-- OBJINIT (R401). Makes a private object with a header. -/
  | objinit (a b : BitVec 6) (c : BitVec 2)
  /-- RETRACT (R399). Returns a published object to its owner at the next release. -/
  | retract (a : BitVec 6)
  /-- TXVOTE (R430). Casts the task's vote with flags and maximum. -/
  | txvote (a b : BitVec 6)
  /-- TXWAIT (R431). Waits for the applied decision and updates the task. -/
  | txwait (d : BitVec 6)
  /-- TXSTAT (R433). Reads the transaction state word. -/
  | txstat (d : BitVec 6)
  /-- TXKEY (R433). Reads the step key. -/
  | txkey (d : BitVec 6)
  /-- TXSEQ_STEP (R433). Reads TXSTEP. -/
  | txseqStep (d : BitVec 6)
  /-- TXSEQ_CBASE (R433). Reads CBASE. -/
  | txseqCbase (d : BitVec 6)
  /-- TXSEQ_QBASE (R433). Reads QBASE. -/
  | txseqQbase (d : BitVec 6)
  /-- TXSEQ_COUNT (R433). Reads the DCOUNT of the last decision. -/
  | txseqCount (d : BitVec 6)
  /-- NM_SGDF (R374). Near-memory SGD with weight fade. -/
  | nmSgdf (d a b c : BitVec 6)
  /-- NMFENCE (R383). Waits for near-memory commands and a scope, then writes the status word. -/
  | nmfence (d : BitVec 6) (s : BitVec 3)
  /-- NMFENCE_ARRAY (R383). As NMFENCE at .sys, also waiting until writes reach the DRAM array. -/
  | nmfenceArray (d : BitVec 6) (s : BitVec 3)
  /-- PFX_RND (R177). Prefix word giving rounding mode, SAT, FLUSH and key select. -/
  | pfxRnd (k f s : BitVec 1) (m : BitVec 3) (t : BitVec 1)
  /-- PFX_MSK (R177). Prefix word naming a mask and merge or zero. -/
  | pfxMsk (z : BitVec 1) (k : BitVec 3) (t : BitVec 1)
  /-- VADD (R185). Element-wise floating add, rounded once. -/
  | vadd (d : BitVec 5) (a b : BitVec 6) (y : BitVec 3) (t : BitVec 1)
  /-- VSUB (R185). Element-wise floating subtract. -/
  | vsub (d : BitVec 5) (a b : BitVec 6) (y : BitVec 3) (t : BitVec 1)
  /-- VMUL (R185). Element-wise floating multiply. -/
  | vmul (d : BitVec 5) (a b : BitVec 6) (y : BitVec 3) (t : BitVec 1)
  /-- VDIV (R185). Element-wise correctly rounded divide. -/
  | vdiv (d : BitVec 5) (a b : BitVec 6) (y : BitVec 3) (t : BitVec 1)
  /-- VMIN (R187). Element-wise floating minimum. -/
  | vmin (d : BitVec 5) (a b : BitVec 6) (y : BitVec 3) (t : BitVec 1)
  /-- VMAX (R187). Element-wise floating maximum. -/
  | vmax (d : BitVec 5) (a b : BitVec 6) (y : BitVec 3) (t : BitVec 1)
  /-- VCPS (R187). Copies the sign of b onto a. -/
  | vcps (d : BitVec 5) (a b : BitVec 6) (y : BitVec 3) (t : BitVec 1)
  /-- VSQRT (R185). Element-wise correctly rounded square root. -/
  | vsqrt (d : BitVec 5) (a : BitVec 6) (y : BitVec 3) (t : BitVec 1)
  /-- VRCP (R185). Element-wise reciprocal. -/
  | vrcp (d : BitVec 5) (a : BitVec 6) (y : BitVec 3) (t : BitVec 1)
  /-- VEXP2 (R185). Element-wise 2^a. -/
  | vexp2 (d : BitVec 5) (a : BitVec 6) (y : BitVec 3) (t : BitVec 1)
  /-- VLOG2 (R185). Element-wise log2. -/
  | vlog2 (d : BitVec 5) (a : BitVec 6) (y : BitVec 3) (t : BitVec 1)
  /-- VABS (R187). Clears the sign bit of each element. -/
  | vabs (d : BitVec 5) (a : BitVec 6) (y : BitVec 3) (t : BitVec 1)
  /-- VNEG (R187). Inverts the sign bit of each element. -/
  | vneg (d : BitVec 5) (a : BitVec 6) (y : BitVec 3) (t : BitVec 1)
  /-- VCMP (R188). Floating compare writing a mask. -/
  | vcmp (m : BitVec 3) (a b : BitVec 6) (y : BitVec 3) (c : BitVec 4) (t : BitVec 1)
  /-- VSEL (R189). Selects elements of two registers by a mask. -/
  | vsel (d : BitVec 5) (a b : BitVec 6) (k : BitVec 3) (t : BitVec 1)
  /-- VIADD (R190). Integer add, wrapping or saturating. -/
  | viadd (d : BitVec 5) (a b : BitVec 6) (y : BitVec 3) (t : BitVec 1)
  /-- VISUB (R190). Integer subtract. -/
  | visub (d : BitVec 5) (a b : BitVec 6) (y : BitVec 3) (t : BitVec 1)
  /-- VIMUL (R190). Integer multiply. -/
  | vimul (d : BitVec 5) (a b : BitVec 6) (y : BitVec 3) (t : BitVec 1)
  /-- VSHL (R190). Element shift left. -/
  | vshl (d : BitVec 5) (a b : BitVec 6) (y : BitVec 3) (t : BitVec 1)
  /-- VSHR (R190). Element logical shift right. -/
  | vshr (d : BitVec 5) (a b : BitVec 6) (y : BitVec 3) (t : BitVec 1)
  /-- VSAR (R190). Element arithmetic shift right. -/
  | vsar (d : BitVec 5) (a b : BitVec 6) (y : BitVec 3) (t : BitVec 1)
  /-- VAND (R190). Element bitwise and. -/
  | vand (d : BitVec 5) (a b : BitVec 6) (y : BitVec 3) (t : BitVec 1)
  /-- VOR (R190). Element bitwise or. -/
  | vor (d : BitVec 5) (a b : BitVec 6) (y : BitVec 3) (t : BitVec 1)
  /-- VXOR (R190). Element bitwise xor. -/
  | vxor (d : BitVec 5) (a b : BitVec 6) (y : BitVec 3) (t : BitVec 1)
  /-- VPOPC (R190). Element population count. -/
  | vpopc (d : BitVec 5) (a : BitVec 6) (y : BitVec 3) (t : BitVec 1)
  /-- VCLZ (R190). Element leading zero count. -/
  | vclz (d : BitVec 5) (a : BitVec 6) (y : BitVec 3) (t : BitVec 1)
  /-- VCMP_INT (R188). Integer compare writing a mask. -/
  | vcmpInt (m : BitVec 3) (a b : BitVec 6) (y : BitVec 3) (c : BitVec 4) (t : BitVec 1)
  /-- VFMA (R186). Fused a × b + c, rounded once. -/
  | vfma (d : BitVec 5) (a b c : BitVec 6) (y : BitVec 3) (t : BitVec 1)
  /-- VFMS (R186). Fused a × b − c. -/
  | vfms (d : BitVec 5) (a b c : BitVec 6) (y : BitVec 3) (t : BitVec 1)
  /-- VNFMA (R186). Fused −(a × b) + c. -/
  | vnfma (d : BitVec 5) (a b c : BitVec 6) (y : BitVec 3) (t : BitVec 1)
  /-- VIMAD (R191). Integer multiply-add. -/
  | vimad (d : BitVec 5) (a b c : BitVec 6) (y : BitVec 3) (t : BitVec 1)
  /-- VBFX (R192). Element bit-field extract. -/
  | vbfx (d : BitVec 5) (a : BitVec 6) (y : BitVec 3) (o : BitVec 6) (k : BitVec 7) (t : BitVec 1)
  /-- VBFI (R192). Element bit-field insert. -/
  | vbfi (d : BitVec 5) (a : BitVec 6) (y : BitVec 3) (o : BitVec 6) (k : BitVec 7) (t : BitVec 1)
  /-- VFSH (R192). Element funnel-shift field extract. -/
  | vfsh (d : BitVec 5) (a b : BitVec 6) (y : BitVec 3) (o : BitVec 6) (k : BitVec 7) (t : BitVec 1)
  /-- VCVT (R193). Converts elements between types. -/
  | vcvt (d : BitVec 5) (a : BitVec 6) (dt st : BitVec 5) (t : BitVec 1)
  /-- VREDSUM (R195). Exact sum along rows or columns. -/
  | vredsum (d : BitVec 5) (a : BitVec 6) (y : BitVec 3) (g r t : BitVec 1)
  /-- VREDMAX (R195). Maximum along rows or columns. -/
  | vredmax (d : BitVec 5) (a : BitVec 6) (y : BitVec 3) (g r t : BitVec 1)
  /-- VREDMIN (R195). Minimum along rows or columns. -/
  | vredmin (d : BitVec 5) (a : BitVec 6) (y : BitVec 3) (g r t : BitVec 1)
  /-- VMOV (R196). Copies elements. -/
  | vmov (d : BitVec 5) (a : BitVec 6) (t : BitVec 1)
  /-- VBCAST (R196). Broadcasts a scalar register to every element. -/
  | vbcast (d s : BitVec 5) (t : BitVec 1)
  /-- VTRANS (R196). Transposes a square shape. -/
  | vtrans (d : BitVec 5) (a : BitVec 6) (t : BitVec 1)
  /-- VROT_ROW (R196). Rotates each row by a scalar count. -/
  | vrotRow (d : BitVec 5) (a : BitVec 6) (s : BitVec 5) (t : BitVec 1)
  /-- VROT_COL (R196). Rotates each column by a scalar count. -/
  | vrotCol (d : BitVec 5) (a : BitVec 6) (s : BitVec 5) (t : BitVec 1)
  /-- VPERM (R196). Permutes elements by an index register. -/
  | vperm (d : BitVec 5) (a b : BitVec 6) (t : BitVec 1)
  /-- VBCAST_IMM (R197). Broadcasts a 32-bit immediate. -/
  | vbcastImm (d : BitVec 5) (i : BitVec 32) (h : BitVec 1) (t : BitVec 1)
  /-- VSHAPESET (R198). Writes VSHAPE. -/
  | vshapeset (r : BitVec 7) (c : BitVec 12) (w : BitVec 2) (t : BitVec 1)
  /-- BNET (R199). Permutes bits of each 64-bit chunk through a pattern. -/
  | bnet (d : BitVec 5) (a b : BitVec 6) (p : BitVec 3) (t : BitVec 1)
  /-- BNLOAD (R200). Loads a bit-network pattern from a register. -/
  | bnload (a : BitVec 6) (p : BitVec 3) (t : BitVec 1)
  /-- VLD (R202). Loads a shaped register from memory row by row. -/
  | vld (d a s : BitVec 5) (w u : BitVec 2) (o : BitVec 20) (t : BitVec 1)
  /-- VST (R202). Stores a shaped register row by row. -/
  | vst (d a s : BitVec 5) (w u : BitVec 2) (o : BitVec 20) (t : BitVec 1)
  /-- VLDA (R203). Reads accumulator elements into a vector register. -/
  | vlda (d : BitVec 5) (c : BitVec 4) (r k : BitVec 6) (t : BitVec 1)
  /-- VSTA (R203). Writes vector elements into an accumulator. -/
  | vsta (d : BitVec 5) (c : BitVec 4) (r k : BitVec 6) (t : BitVec 1)
  /-- VRAND (R204). Draws raw random bits per element. -/
  | vrand (d : BitVec 5) (y : BitVec 3) (t : BitVec 1)
  /-- VRAND_F (R204). Draws uniform floating values per element. -/
  | vrandF (d : BitVec 5) (y : BitVec 3) (t : BitVec 1)
  /-- VMASKP (R204). Draws a Bernoulli mask. -/
  | vmaskp (m : BitVec 3) (s : BitVec 5) (t : BitVec 1)
  /-- MAND (R205). Mask and. -/
  | mand (d a b : BitVec 3) (t : BitVec 1)
  /-- MOR (R205). Mask or. -/
  | mor (d a b : BitVec 3) (t : BitVec 1)
  /-- MXOR (R205). Mask xor. -/
  | mxor (d a b : BitVec 3) (t : BitVec 1)
  /-- MNOT (R205). Mask not. -/
  | mnot (d a : BitVec 3) (t : BitVec 1)
  /-- MPOPC (R205). Counts set mask bits into a scalar. -/
  | mpopc (d : BitVec 5) (a : BitVec 3) (t : BitVec 1)
  /-- MFIRST (R205). Finds the first set mask bit. -/
  | mfirst (d : BitVec 5) (a : BitVec 3) (t : BitVec 1)
  /-- VQSKIP (R206). Pops and discards stream-register entries. -/
  | vqskip (q : BitVec 3) (c : BitVec 6) (t : BitVec 1)
  /-- VEC_ADDF (R207). Vector-engine flag add from a register. -/
  | vecAddf (f : BitVec 6) (a : BitVec 5) (t : BitVec 1)
  /-- VEC_ADDF_IMM (R207). Vector-engine flag add of an immediate. -/
  | vecAddfImm (f : BitVec 6) (i : BitVec 17) (t : BitVec 1)
  /-- VEC_WAITF (R207). Vector-engine flag wait on a register value. -/
  | vecWaitf (f : BitVec 6) (a : BitVec 5) (t : BitVec 1)
  /-- VEC_WAITF_IMM (R207). Vector-engine flag wait on an immediate. -/
  | vecWaitfImm (f : BitVec 6) (i : BitVec 17) (t : BitVec 1)
  /-- VEC_GIVE (R207). Vector engine gives a scratchpad range. -/
  | vecGive (f : BitVec 6) (a b : BitVec 5) (t : BitVec 1)
  /-- VEC_GIVE_ACC (R207). Vector engine gives accumulators. -/
  | vecGiveAcc (f : BitVec 6) (c n : BitVec 4) (t : BitVec 1)
  /-- VSCAL_LI (R209). Vector scalar load of a 19-bit immediate. -/
  | vscalLi (d : BitVec 5) (i : BitVec 19) (t : BitVec 1)
  /-- VSCAL_LI64 (R209). Vector scalar load of a 49-bit immediate. -/
  | vscalLi64 (d : BitVec 5) (i : BitVec 49) (t : BitVec 1)
  /-- VSCAL_ADD (R209). Vector scalar register add. -/
  | vscalAdd (d a b : BitVec 5) (t : BitVec 1)
  /-- VSCAL_ADD_IMM (R209). Vector scalar immediate add. -/
  | vscalAddImm (d a : BitVec 5) (i : BitVec 11) (t : BitVec 1)
  /-- VSCAL_SUB (R209). Vector scalar register subtract. -/
  | vscalSub (d a b : BitVec 5) (t : BitVec 1)
  /-- VSCAL_SUB_IMM (R209). Vector scalar immediate subtract. -/
  | vscalSubImm (d a : BitVec 5) (i : BitVec 11) (t : BitVec 1)
  /-- VSCAL_SHL (R209). Vector scalar register shift left. -/
  | vscalShl (d a b : BitVec 5) (t : BitVec 1)
  /-- VSCAL_SHL_IMM (R209). Vector scalar immediate shift left. -/
  | vscalShlImm (d a : BitVec 5) (i : BitVec 6) (t : BitVec 1)
  /-- VSCAL_AND (R209). Vector scalar register and. -/
  | vscalAnd (d a b : BitVec 5) (t : BitVec 1)
  /-- VSCAL_AND_IMM (R209). Vector scalar immediate and. -/
  | vscalAndImm (d a : BitVec 5) (i : BitVec 11) (t : BitVec 1)
  /-- VSCAL_CMP (R209). Vector scalar register compare. -/
  | vscalCmp (p c : BitVec 3) (u : BitVec 1) (a b : BitVec 5) (t : BitVec 1)
  /-- VSCAL_CMP_IMM (R209). Vector scalar immediate compare. -/
  | vscalCmpImm (p c : BitVec 3) (u : BitVec 1) (a : BitVec 5) (i : BitVec 11) (t : BitVec 1)
  /-- VSCAL_BR (R209). Vector branch to a T word. -/
  | vscalBr (o : BitVec 24) (t : BitVec 1)
  /-- VSCAL_BC (R209). Vector conditional branch. -/
  | vscalBc (p : BitVec 3) (n : BitVec 1) (o : BitVec 20) (t : BitVec 1)
  /-- VSCAL_LOOP (R209). Vector counted loop branch. -/
  | vscalLoop (a : BitVec 5) (o : BitVec 19) (t : BitVec 1)
  /-- VSCAL_REND (R209). Ends the vector stream. -/
  | vscalRend (t : BitVec 1)
  /-- VSCAL_NOP (R209). Does nothing. -/
  | vscalNop (t : BitVec 1)
  /-- CPY (R241). Direct copy between memory ranges with release and delivery flags. -/
  | cpy (sc : BitVec 3) (u : BitVec 2) (d a b : BitVec 5) (ev : BitVec 14) (k : BitVec 1)
  /-- CPYS (R229). Queues a stamped scratchpad copy to a peer for the exchange phase. -/
  | cpys (sc : BitVec 3) (u : BitVec 2) (d a b c : BitVec 5) (s : BitVec 20)
  /-- CHAIN (R219). Walks a chain of transfer records on a channel. -/
  | chain (n : BitVec 3) (a : BitVec 5)
  /-- CHSTOP (R222). Stops a channel at the end of the running record. -/
  | chstop (n : BitVec 3)
  /-- GATHER (R233). Gathers rows through an index list. -/
  | gather (sc : BitVec 3) (u : BitVec 2) (d a b c : BitVec 5) (w : BitVec 11) (ev : BitVec 14)
  /-- SCATTER (R233). Scatters rows through an index list. -/
  | scatter (sc : BitVec 3) (u : BitVec 2) (d a b c : BitVec 5) (w : BitVec 11) (ev : BitVec 14)
  /-- BIND (R232). Delivers a byte stream into a vector stream register. -/
  | bind (sc : BitVec 3) (u : BitVec 2) (n : BitVec 3) (a b : BitVec 5) (w : BitVec 11) (ev : BitVec 14)
  /-- COLL_ALL_REDUCE (R236). Issues an exact all-reduce collective. -/
  | collAllReduce (sc : BitVec 3) (u : BitVec 2) (a : BitVec 5) (ev : BitVec 14)
  /-- NMIRROR (R237). Copies a range to a primary and a mirror as checkpoint reads. -/
  | nmirror (sc : BitVec 3) (u : BitVec 2) (d a b c : BitVec 5) (ev : BitVec 14)
  /-- ADDF_64 (R242). Copy- or matrix-engine flag add. -/
  | addf64 (e : Eng64) (f : BitVec 6) (o : FlagSrc)
  /-- WAITF_64 (R242). Copy- or matrix-engine flag wait. -/
  | waitf64 (e : Eng64) (f : BitVec 6) (o : FlagSrc)
  /-- GIVE_64 (R242). Copy- or matrix-engine give of a range or accumulators. -/
  | give64 (e : Eng64) (f : BitVec 6) (r : GiveSrc)
  /-- SCAL_LI (R243). 64-bit-word scalar load immediate (copy, matrix, Astrolabe). -/
  | scalLi (e : Strm64) (d : BitVec 5) (i : BitVec 32)
  /-- SCAL_ADD (R243). 64-bit-word scalar add. -/
  | scalAdd (e : Strm64) (d a : BitVec 5) (o : Opd16)
  /-- SCAL_SUB (R243). 64-bit-word scalar subtract. -/
  | scalSub (e : Strm64) (d a : BitVec 5) (o : Opd16)
  /-- SCAL_SHL (R243). 64-bit-word scalar shift left. -/
  | scalShl (e : Strm64) (d a : BitVec 5) (o : Opd16)
  /-- SCAL_AND (R243). 64-bit-word scalar and. -/
  | scalAnd (e : Strm64) (d a : BitVec 5) (o : Opd16)
  /-- SCAL_CMP (R243). 64-bit-word scalar compare. -/
  | scalCmp (e : Strm64) (p : BitVec 3) (c : BitVec 3) (u : BitVec 1) (a : BitVec 5) (o : Opd16)
  /-- SCAL_BR (R243). 64-bit-word branch. -/
  | scalBr (e : Strm64) (o : BitVec 32)
  /-- SCAL_BC (R243). 64-bit-word conditional branch. -/
  | scalBc (e : Strm64) (p : BitVec 3) (n : BitVec 1) (o : BitVec 32)
  /-- SCAL_LOOP (R243). 64-bit-word counted loop. -/
  | scalLoop (e : Strm64) (a : BitVec 5) (o : BitVec 32)
  /-- SCAL_REND (R243). Ends a copy, matrix or Astrolabe stream. -/
  | scalRend (e : Strm64)
  /-- SCAL_NOP (R243). Does nothing. -/
  | scalNop (e : Strm64)
  /-- MMA (R308). Dense matrix product into an accumulator. -/
  | mma (acc da db : BitVec 4) (init : Init) (sat flush rel : BitVec 1) (stamp : Option (BitVec 20))
  /-- MMAS (R308). Block-scaled narrow matrix product. -/
  | mmas (acc da db sa sb : BitVec 4) (init : Init) (mode : BitVec 3) (sat flush ksel rel : BitVec 1) (stamp : Option (BitVec 20))
  /-- MMAI (R300). Integer 8-bit matrix product. -/
  | mmai (acc da db : BitVec 4) (init : Init) (sat rel : BitVec 1) (stamp : Option (BitVec 20))
  /-- MMAJ (R309). Joint stamped product across a quad. -/
  | mmaj (scl : BitVec 1) (acc da db sa sb : BitVec 4) (init : Init) (mode : BitVec 3) (sat flush ksel rel : BitVec 1) (stamp : Option (BitVec 20))
  /-- MTILE (R311). Writes a descriptor from two registers. -/
  | mtile (d : BitVec 4) (a b : BitVec 5)
  /-- MTILE_ADDR (R311). Writes a descriptor's ADDR. -/
  | mtileAddr (d : BitVec 4) (a : BitVec 5)
  /-- MTILE_ADD (R311). Adds to a descriptor's ADDR. -/
  | mtileAdd (d : BitVec 4) (a : BitVec 5)
  /-- MTILE_LD (R311). Loads a descriptor from memory. -/
  | mtileLd (d : BitVec 4) (a : BitVec 5) (o : BitVec 16)
  /-- AZERO (R313). Zeroes a run of accumulators. -/
  | azero (n c : BitVec 4)
  /-- AFADE (R314). Scales every element of an accumulator. -/
  | afade (n : BitVec 4) (a : BitVec 5) (sat flush : BitVec 1)
  /-- ALD (R315). Loads a tile into an accumulator region. -/
  | ald (n ds : BitVec 4) (flush ia : BitVec 1)
  /-- AST (R316). Stores an accumulator region into a tile with conversion. -/
  | ast (n ds : BitVec 4) (mode : BitVec 3) (sat flush ksel ia : BitVec 1)
  /-- ASPILL (R317). Writes an accumulator image to memory. -/
  | aspill (n : BitVec 4) (a : BitVec 5)
  /-- AFILL (R317). Reads an accumulator image from memory. -/
  | afill (n : BitVec 4) (a : BitVec 5)
  /-- QINIT (R345). Opens a state share and gathers the state group. -/
  | qinit (a b c : BitVec 5) (n : BitVec 6) (ndb : BitVec 2) (npb : BitVec 4) (ty z : BitVec 1)
  /-- QMAP (R346). Loads a qubit map image. -/
  | qmap (a : BitVec 5)
  /-- QMAP_ST (R346). Stores the qubit map image. -/
  | qmapSt (a : BitVec 5)
  /-- QLDG (R347). Loads a gate register. -/
  | qldg (g : BitVec 3) (a : BitVec 5) (k : BitVec 2) (ty : BitVec 1)
  /-- QGATE (R329). Applies a controlled unitary, remapping non-local targets. -/
  | qgate (g : BitVec 3) (a b : BitVec 5)
  /-- QDIAG (R331). Applies a diagonal gate without remapping. -/
  | qdiag (g : BitVec 3) (a b : BitVec 5)
  /-- QSWAP (R346). Exchanges two map entries. -/
  | qswap (a b : BitVec 5)
  /-- QPERM (R335). Moves amplitudes to a target map. -/
  | qperm (a : BitVec 5)
  /-- QPROB (R340). Computes an exact probability. -/
  | qprob (d a b c : BitVec 5)
  /-- QNORM (R340). Computes the squared norm. -/
  | qnorm (d c : BitVec 5)
  /-- QSAMPLE (R341). Draws a measurement outcome under the step key. -/
  | qsample (d a c : BitVec 5)
  /-- QSCALE (R332). Scales every amplitude of the share. -/
  | qscale (a : BitVec 5)
  /-- JOIN (R24). Waits for forked streams and their commands, then takes back their holdings. -/
  | join
  /-- REND (R24). Ends the task after the join wait and the ends of its child jobs. -/
  | rend
  /-- ERET (R163). Returns from a firmware trap to EPC. -/
  | eret
  /-- TXOPEN (R429). Opens a step transaction and sets the step keys. -/
  | txopen
  /-- TXCLOSE (R432). Closes the step and restores the task key. -/
  | txclose
  /-- QSYNC (R348). Waits for all participants' earlier operations. -/
  | qsync
  /-- RKEY_WRITE (R126). A CSR write of RKEY sets the key and zeroes every stream's draw counter. -/
  | rkeyWrite (a : BitVec 6)
  /-- NFD_WRITE (R109). A CSR write of a narrow-format descriptor, dropping generated lines of windows that use it. -/
  | nfdWrite (k : BitVec 3) (a : BitVec 6)
  /-- PAGE_WALK (R250). A waiting walk request runs at the translation engine and fills the TLBs. -/
  | pageWalk (die : BitVec 2) (asid : BitVec 16) (va : BitVec 48)
  /-- REACH_WALK_COMPLETE (R393). A reach walk ends, marking its set pending or failing. -/
  | reachWalkComplete
  /-- NM_MOM (R374). Near-memory momentum update. -/
  | nmMom (d a b c : BitVec 6)
  /-- NM_ADAMW (R374). Near-memory AdamW update. -/
  | nmAdamw (d a b c : BitVec 6)
  /-- NM_AXPY (R374). Near-memory w := w + αx. -/
  | nmAxpy (d a b c : BitVec 6)
  /-- NM_SCALE (R374). Near-memory w := αw. -/
  | nmScale (d a b c : BitVec 6)
  /-- NM_FILL (R374). Near-memory fill with α. -/
  | nmFill (d a b c : BitVec 6)
  /-- NM_COPY (R376). Near-memory sector copy with reference tags. -/
  | nmCopy (d a b c : BitVec 6)
  /-- NM_CAST (R374). Near-memory conversion from binary32. -/
  | nmCast (d a b c : BitVec 6)
  /-- NM_CLAMP (R374). Near-memory clamp between lo and hi. -/
  | nmClamp (d a b c : BitVec 6)
  /-- NM_RECODE (R376). Rewrites sectors recoded or raw. -/
  | nmRecode (d a b c : BitVec 6)
  /-- NM_SCRUB (R376). Reads and corrects each sector of a range. -/
  | nmScrub (d a b c : BitVec 6)
  /-- NM_FOLD (R376). Folds the version blocks of a range. -/
  | nmFold (d a b c : BitVec 6)
  /-- NM_CKPT (R376). Sector copy whose reads are checkpoint reads. -/
  | nmCkpt (d a b c : BitVec 6)
  /-- NM_COMPLETE (R377). A near-memory command's pieces have all written, and its flag is added. -/
  | nmComplete
  /-- COLL_ALL_GATHER (R236). Issues an all-gather collective. -/
  | collAllGather (sc : BitVec 3) (u : BitVec 2) (a : BitVec 5) (ev : BitVec 14)
  /-- COLL_REDUCE_SCATTER (R236). Issues a reduce-scatter collective. -/
  | collReduceScatter (sc : BitVec 3) (u : BitVec 2) (a : BitVec 5) (ev : BitVec 14)
  /-- CHAIN_RECORD_RUN (R218). A channel runs the next record of its chain and clears its OWN. -/
  | chainRecordRun (c : BitVec 3)
  /-- COPY_RELEASE (R223). Every source byte of a transfer has been read; the release flag is added. -/
  | copyRelease (k : BitVec 4)
  /-- COPY_DELIVERY (R223). Every destination byte has completed at scope; the delivery flag is added. -/
  | copyDelivery (k : BitVec 4)
  /-- STREAM_ENTRY_ARRIVAL (R232). A bound transfer delivers an entry into a stream register when room exists. -/
  | streamEntryArrival (k : BitVec 4)
  /-- STAMPED_ISSUE (R28). A stamped copy or matrix command issues in cycle STAMPBASE + s, checking schedule faults. -/
  | stampedIssue (e : Eng64) (k : BitVec 8)
  /-- COLLECTIVE_RUN (R236). A collective whose participants have all issued runs and completes in each. -/
  | collectiveRun (k : BitVec 8) (remote : List RemotePart) (dead : Bool)
  /-- MATRIX_COMMAND_RUN (R319). A queued matrix command starts its array time and completes, possibly relocated. -/
  | matrixCommandRun (sib : Bool)
  /-- ASTRO_COLLECTIVE_RUN (R338). An Astrolabe collective gathered from all participants executes. -/
  | astroCollectiveRun (die : BitVec 2) (remote : List RemoteShare) (dead : Bool)
  /-- HOST_SUBMIT (R441). The host writes RECVA to submit a launch record. -/
  | hostSubmit (recva : BitVec 42) (sasid : BitVec 16)
  /-- JOB_ADMISSION (R21). The hub chooses a job, validates, places and starts its tasks or refuses it. -/
  | jobAdmission
  /-- BARRIER_RELEASE (R27). A barrier node releases its participants and sets STAMPBASE. -/
  | barrierRelease (sc : BitVec 3) (job : BitVec 16) (remote : RemoteArrivals)
  /-- EXCHANGE_END (R26). At B + X the core restores its lowest task and SSYNC retires. -/
  | exchangeEnd
  /-- PREEMPT_REQUEST (R50). The hub requests pre-emption of a job, votes PREEMPT, and takes it at a boundary. -/
  | preemptRequest (job : BitVec 16)
  /-- PREEMPT_TIMEOUT (R50). After 2^16 cycles without a release, cores stop and the context is spilled. -/
  | preemptTimeout (job : BitVec 16)
  /-- SPILLED_JOB_RESUME (R52). A spilled job resumes on its same cores when they are free. -/
  | spilledJobResume (job : BitVec 16)
  /-- TIME_LIMIT (R38). TLIMIT cycles expire and the job ends with STATE 5. -/
  | timeLimit (job : BitVec 16)
  /-- DEADLOCK (R46). 64 cycles with every stream blocked and nothing in flight raise DEADLOCK. -/
  | deadlock
  /-- FAULT_FRAME_WRITE (R41). After the drain, a stopped core writes its fault frame and signals the hub. -/
  | faultFrameWrite
  /-- RESUME (R48). A write of RESUME restarts a stopped core from its frame. -/
  | resume (core : BitVec 8)
  /-- ARESUME (R350). A write of ARESUME restarts an Astrolabe stream from its frame. -/
  | aresume (die : BitVec 2)
  /-- AREA_LIMIT_WRITE (R49). Extending the conflict table or a spill area ends a stall for room. -/
  | areaLimitWrite (off : BitVec 12) (v : BitVec 64)
  /-- FIRMWARE_START (R133). A write of FWGO starts a firmware context on a core or refuses it. -/
  | firmwareStart (core : BitVec 8)
  /-- RED_APPLY (R83). A reduction contribution is applied at its home, spilling accumulators as needed. -/
  | redApply
  /-- CHRON_ALIGN (R33). A Chronograph alignment message arrives on a pod port. -/
  | chronAlign (port : BitVec 4) (stamp : BitVec 64)
  /-- CARAFE_READ (R359). A Carafe reads a sector, corrects or poisons it. -/
  | carafeRead (pa : BitVec 41) (src : BitVec 16) (kind : BitVec 4) (key : BitVec 8)
  /-- CARAFE_WRITE (R355). A Carafe merges or writes a sector, recoding and versioning it. -/
  | carafeWrite (pa : BitVec 41) (src : BitVec 16) (key : BitVec 8) (mask : BitVec 64) (data : BitVec 512) (tags : BitVec 8)
  /-- WRITE_REACHES_ARRAY (R364). A queued write reaches the DRAM array. -/
  | writeReachesArray (stack : BitVec 4)
  /-- SCRUB_PERIOD_END (R366). A scrub period ends and unread regions are scheduled for patrol. -/
  | scrubPeriodEnd
  /-- PATROL_READ (R366). A scheduled patrol read of a sector corrects or poisons it. -/
  | patrolRead (stack : BitVec 4)
  /-- KEY_SLOT_WRITE (R369). A write of a key slot's last byte sets its KEYV bit. -/
  | keySlotWrite (off : BitVec 16) (v : BitVec 64)
  /-- REGION_DECLARE (R407). A write of VV = 1 declares a version region. -/
  | regionDeclare (v : BitVec 4) (w : BitVec 64)
  /-- REGION_RETIRE (R407). A write of VV = 0 resolves, copies back and retires a region. -/
  | regionRetire (v : BitVec 4)
  /-- VERSION_PASS_END (R416). A pass over a region's blocks ends and the aborted set is pruned. -/
  | versionPassEnd (v : BitVec 4) (stack : BitVec 4)
  /-- FORCED_PASS (R417). The generation or abort limit forces the Carafe to finish the pass itself. -/
  | forcedPass (v : BitVec 4) (stack : BitVec 4)
  /-- PACKAGE_VOTE (R424). 64 cycles after all tasks voted, the package vote is sent up the tree. -/
  | packageVote (job : BitVec 16)
  /-- VOTE_PACKET (R423). A vote packet arrives at a tree node and is combined. -/
  | votePacket (p : BitVec 128)
  /-- ROOT_TIMEOUT (R425). TXTMO expires and the root decides abort with TIMEOUT. -/
  | rootTimeout (job : BitVec 16)
  /-- DECISION_PACKET (R425). A decision packet arrives at a package. -/
  | decisionPacket (p : BitVec 128)
  /-- DECISION_APPLY (R426). The Carafes apply a decision to the job's regions. -/
  | decisionApply (job : BitVec 16)
  /-- HOST_READ (R440). The host reads device memory over CXL as a checkpoint read. -/
  | hostRead (pa : BitVec 40)
  /-- HOST_WRITE (R440). The host writes device memory over CXL. -/
  | hostWrite (pa : BitVec 40) (mask : BitVec 64) (data : BitVec 512)
  /-- MAILBOX_ATTEST (R442). A write of MBGO = 1 submits a mailbox attestation request. -/
  | mailboxAttest (op : BitVec 8)
  /-- MAILBOX_RESPONSE (R442). The mailbox response is written, MBGO cleared and MSI-X 0 sent. -/
  | mailboxResponse
  /-- HOST_BARRIER_ARRIVE (R443). The host writes SJARR to arrive at a system barrier. -/
  | hostBarrierArrive (slot : BitVec 4)
  /-- IMAGE_CHUNK (R445). Management message with a chunk of a firmware image. -/
  | imageChunk (q : BitVec 32) (off : BitVec 64) (bytes : List (BitVec 8))
  /-- IMAGE_COMMIT (R445). Management message that verifies and writes the gathered image. -/
  | imageCommit (q : BitVec 32)
  /-- ATTESTATION_REQUEST (R449). Management message asking for a signed attestation report. -/
  | attestationRequest (q : BitVec 32) (nonce : BitVec 512)
  /-- TELEMETRY_REQUEST (R445). Management message asking for Carafe and port status. -/
  | telemetryRequest (q : BitVec 32)
  /-- POD_MEMBERSHIP (R445). Management message configuring pod groups. -/
  | podMembership (q : BitVec 32) (group : BitVec 16) (members : List (BitVec 12))
  /-- STATUS_REQUEST (R445). Management message asking for firmware version, reset step and fence map. -/
  | statusRequest (q : BitVec 32)
  /-- FLIT_RECEIVE (R446). A pod-port flit arrives, checked by CRC and replayed on failure; `fec` codewords of it were corrected. -/
  | flitReceive (port : BitVec 4) (body : FlitBody) (crcOk : Bool) (fec : BitVec 32)
  /-- PORT_DEAD (R447). A lane failure, replay limit or slow retrain makes a pod port dead. -/
  | portDead (port : BitVec 4)
  /-- COLD_RESET (R450). Power-on reset runs the full start-up sequence. -/
  | coldReset (failed : BitVec 256)
  /-- WARM_RESET (R450). A requested reset ends jobs, drains and restarts from step 3. -/
  | warmReset (failed : BitVec 256)
  /-- SRAM_ERROR (R453). An uncorrectable SRAM error is dropped, poisoned or raised as MACHINE_CHECK. -/
  | sramError (place : SramPlace)
  /-- THERMAL_THROTTLE (R455). Inlet temperature or power above limit gates sequencer issue. -/
  | thermalThrottle
  /-- THERMAL_SHUTDOWN (R455). A junction above 105 °C ends jobs and removes power. -/
  | thermalShutdown
  /-- REGISTER_WRITE (R6). A write to a device register with no behaviour of its own. -/
  | registerWrite (off : BitVec 41) (v : BitVec 64)
  /-- CODE_FETCH (R247). A sequencer fetches and decodes its next bundle, raising ILLEGAL_WORD for an unassigned encoding, RANGE at CODEBASE + CODELEN, or a fetch translation fault. -/
  | codeFetch (k : Strm)
  /-- LOAD_DATA_RETURN (R165). The data of an outstanding load returns and is written to its register, releasing words that wait on it. -/
  | loadDataReturn
  /-- WRITE_COMPLETES_AT_HOME (R77). A store, copy write or reduction reaches the home of its lines and the invalidation of cached copies finishes, so the write completes. -/
  | writeCompletesAtHome
  /-- VECTOR_COMPLETION (R211). A vector instruction completes ceil(N / rate) + 6 cycles after it issues and writes its results. -/
  | vectorCompletion
  /-- COMMAND_CYCLE (R357). In each command cycle, the arbiter of a pseudo-channel pair's bus assigns the slot and updates its DENIED counts. -/
  | commandCycle (stack : BitVec 4) (pair : BitVec 5) (col : Bool)
  /-- ENDED_BY_THE_OS (R456). The resident OS ends a job or a part of a job, for instance with STATE 2 after a fault that cannot be resumed or with STATE 3, and its completion area is written. -/
  | endedByTheOs (job : BitVec 16) (st : BitVec 8) (cause : BitVec 8) (src : BitVec 16) (va : BitVec 64)
  /-- FENCING_OFF_OF_A_CORE (R454). The resident OS fences a core, for instance after a MACHINE_CHECK, and ends a spilled job that needs that core. -/
  | fencingOffOfACore (core : BitVec 8)
  /-- PORT_TRAINED (R447). A pod port finishes training and sets UP, so it can carry flits. -/
  | portTrained (port : BitVec 4) (peer : BitVec 12)
  /-- POWER_LOSS (R448). Power is lost; an interrupted flash write leaves an image that fails verification, and only the write queue guarantee short of power loss is void. -/
  | powerLoss (flashWrite : Bool)
  /-- FALL_BELOW_LIMITS (R455). The inlet temperature and the averaged power fall below their limits, and the gating of sequencer issue ends. -/
  | fallBelowLimits
  deriving DecidableEq, Repr

end Sys2Proof
end

