-- ==== Sys2Proof/WellFormed.lean ====
section
/-! DEFINITION. Which instruction terms are words of the hardware: the checks of 00 R7, 01 R12 and the encoding
rules that reach inside a field (a scope code 7, a `COND` that is not assigned, a type that a form does not list). -/

namespace Sys2Proof

/-- A vector source field names `v0`-`v31` or `q0`-`q7` (05 R180). -/
def srcOk (s : BitVec 6) : Bool := s.toNat < 40

/-- A floating `TY` (05 R181). -/
def fltTy (y : BitVec 3) : Bool := y.toNat < 4

/-- `COND` and `U` of a scalar compare are assigned (04 R141). -/
def condOk (c : BitVec 3) (u : BitVec 1) : Bool := c.toNat < 6 && (u == 0 || 2 ≤ c.toNat)

/-- A conversion type code is assigned (05 R193). -/
def cvtTyOk (t : BitVec 5) : Bool := t.toNat < 12 || (16 ≤ t.toNat && t.toNat < 24)

/-- The term stands for an encoding that no opcode map assigns: an unlisted pair of operation and type
(04 R149, 05 R184, R204); of floating `VRAND` the type codes 4 to 7 too, which 05 R181 calls reserved (log 16). -/
def illegalForm : Instr → Bool
  | .redAdd _ _ t _ => 8 ≤ t.toNat
  | .redMin _ _ t _ | .redMax _ _ t _ => 4 ≤ t.toNat
  | .redAnd _ _ t _ | .redOr _ _ t _ | .redXor _ _ t _ => !(t == 2 || t == 3)
  | .vdiv _ _ _ y _ => y == 1 || y == 2
  | .vsqrt _ _ y _ => y == 1 || y == 2
  | .vrcp _ _ y _ | .vexp2 _ _ y _ | .vlog2 _ _ y _ => y == 1 || y == 2 || y == 3
  | .vrandF _ y _ => !(y == 0 || y == 3)
  | _ => false

/-- A field of the term holds a reserved code (00 R7, 01 R12, 04 R141, R153, 05 R177, R180, R181, R188, R193, R209,
06 R242, R243, 07 R249, 09 R304, R307, R309, R311, R312, 12 R400). -/
def reservedForm : Instr → Bool
  | .cmp _ c _ _ u => !condOk c u
  | .cmpImm _ c _ u _ => !condOk c u
  | .redAdd _ _ _ s | .redMin _ _ _ s | .redMax _ _ _ s | .redAnd _ _ _ s | .redOr _ _ _ s | .redXor _ _ _ s => s == 7
  | .flagcfg _ k _ r => k == 0 && r != 0
  | .ssync _ _ s => s == 7
  | .tokpass _ _ s => s == 7
  | .mfence _ s _ => s == 7
  | .tlbinv _ _ s => s == 7
  | .tlbinvr _ _ _ s => s == 7
  | .pgsplit _ _ _ z => z == 7
  | .publish _ s => s == 7
  | .objinit _ _ c => c == 0
  | .nmfence _ s => s == 7
  | .nmfenceArray _ s => s == 7
  | .pfxRnd _ _ _ m _ => m == 7
  | .vadd _ a b y _ | .vsub _ a b y _ | .vmul _ a b y _ | .vdiv _ a b y _
  | .vmin _ a b y _ | .vmax _ a b y _ | .vcps _ a b y _ => !(srcOk a && srcOk b && fltTy y)
  | .vsqrt _ a y _ | .vrcp _ a y _ | .vexp2 _ a y _ | .vlog2 _ a y _ | .vabs _ a y _ | .vneg _ a y _ =>
    !(srcOk a && fltTy y)
  | .vcmp _ a b y c _ => !(srcOk a && srcOk b && fltTy y && c.toNat < 8)
  | .vcmpInt _ a b _ c _ => !(srcOk a && srcOk b && c.toNat < 6)
  | .vsel _ a b _ _ => !(srcOk a && srcOk b)
  | .viadd _ a b _ _ | .visub _ a b _ _ | .vimul _ a b _ _ | .vshl _ a b _ _ | .vshr _ a b _ _
  | .vsar _ a b _ _ | .vand _ a b _ _ | .vor _ a b _ _ | .vxor _ a b _ _ => !(srcOk a && srcOk b)
  | .vpopc _ a _ _ | .vclz _ a _ _ => !srcOk a
  | .vfma _ a b c y _ | .vfms _ a b c y _ | .vnfma _ a b c y _ => !(srcOk a && srcOk b && srcOk c && fltTy y)
  | .vimad _ a b c _ _ => !(srcOk a && srcOk b && srcOk c)
  | .vbfx _ a _ _ _ _ | .vbfi _ a _ _ _ _ => !srcOk a
  | .vfsh _ a b _ _ _ _ => !(srcOk a && srcOk b)
  | .vcvt _ a dt st _ => !(srcOk a && cvtTyOk dt && cvtTyOk st)
  | .vredsum _ a y g _ _ | .vredmax _ a y g _ _ | .vredmin _ a y g _ _ => !(srcOk a && (g == 1 || fltTy y))
  | .vmov _ a _ | .vtrans _ a _ | .vrotRow _ a _ _ | .vrotCol _ a _ _ => !srcOk a
  | .vperm _ a b _ => !(srcOk a && srcOk b)
  | .bnet _ a b _ _ => !(srcOk a && srcOk b)
  | .bnload a _ _ => !srcOk a
  | .vscalCmp _ c u _ _ _ => !condOk c u
  | .vscalCmpImm _ c u _ _ _ => !condOk c u
  | .cpy sc _ _ _ _ _ _ => sc == 7
  | .cpys sc _ _ _ _ _ _ => sc == 7
  | .gather sc _ _ _ _ _ _ _ | .scatter sc _ _ _ _ _ _ _ => sc == 7
  | .bind sc _ _ _ _ _ _ => sc == 7
  | .collAllReduce sc _ _ _ | .collAllGather sc _ _ _ | .collReduceScatter sc _ _ _ => sc == 7
  | .nmirror sc _ _ _ _ _ _ => sc == 7
  | .scalCmp _ _ c u _ _ => !condOk c u
  | .mmas _ _ _ _ _ _ mode _ _ _ _ _ => mode == 7
  | .mmaj scl _ _ _ sa sb _ mode _ _ ksel _ _ =>
    mode == 7 || (scl == 0 && !(sa == 0 && sb == 0 && mode == 0 && ksel == 0))
  | .ast _ _ mode _ _ _ _ => mode == 7
  | .mtileLd _ _ o => o.toNat % 16 != 0
  | _ => false

/-- A term that stands for a word the opcode maps assign with every reserved field zero. Events always are. -/
def WellFormed (i : Instr) : Bool := !illegalForm i && !reservedForm i

end Sys2Proof
end

