-- ==== Sys2Proof/Decode.lean ====
section
/-! DEFINITION. The decoder and the encoder: every word of the control, vector, matrix, copy and Astrolabe streams
(04 R134, R135, 05 R173 to R209, 06 R238 to R243, 07 R266, 08 R288, 09 R303 to R318, 10 R342 and R343, 11 R381,
12 R400, 13 R428). A word that is not an instruction is rejected by the cause it raises. -/

namespace Sys2Proof

/-- Why a word is rejected (00 R7, 13 R433): an encoding no map assigns, a reserved field or code that is not zero,
or `TXSEQ` with a `SEL` of 4 to 7, which raises `RANGE` in every state. -/
inductive DecodeErr where
  | illegal
  | reserved
  | range
  deriving DecidableEq, Repr

/-- The answer of a decoder. -/
abbrev Dec := Except DecodeErr Instr

/-- An instruction word as the encoder gives it: 32 or 64 bits, stored little-endian (00 R4). -/
inductive Code where
  | w32 (w : BitVec 32)
  | w64 (w : BitVec 64)
  deriving DecidableEq, Repr

/-- The `len` bits of a word from bit `lo`. -/
abbrev fld {n : Nat} (w : BitVec n) (lo len : Nat) : BitVec len := w.extractLsb' lo len

/-- The order of the checks on a word whose opcode is assigned: an unassigned pair first, then the reserved bits
(`z`: they are zero) and reserved codes (04 R136, 05 R176, 09 R306, 10 R344). -/
def finish (z : Bool) (i : Instr) : Dec :=
  if illegalForm i then .error .illegal
  else if !z || reservedForm i then .error .reserved
  else .ok i

/-- A control word (04 R134, R135). A `CSRW` decodes to that row whatever its index: `RKEY_WRITE` and `NFD_WRITE`
are rows that step runs for the indices of `RKEY` and `NFD0`-`NFD7` (03 R126, R109). The word `NMC` decodes to its
first row; `CTL` selects the command (11 R373). -/
def decodeCtl (w : BitVec 32) : Dec :=
  match (fld w 25 7).toNat with
  | 0x1 =>
    match (fld w 0 7).toNat with
    | 0x0 => finish true (.add (fld w 19 6) (fld w 13 6) (fld w 7 6))
    | 0x1 => finish true (.sub (fld w 19 6) (fld w 13 6) (fld w 7 6))
    | 0x2 => finish true (.mul (fld w 19 6) (fld w 13 6) (fld w 7 6))
    | 0x3 => finish true (.mulhI64 (fld w 19 6) (fld w 13 6) (fld w 7 6))
    | 0x4 => finish true (.mulhN64 (fld w 19 6) (fld w 13 6) (fld w 7 6))
    | 0x5 => finish true (.divI64 (fld w 19 6) (fld w 13 6) (fld w 7 6))
    | 0x6 => finish true (.divN64 (fld w 19 6) (fld w 13 6) (fld w 7 6))
    | 0x7 => finish true (.remI64 (fld w 19 6) (fld w 13 6) (fld w 7 6))
    | 0x8 => finish true (.remN64 (fld w 19 6) (fld w 13 6) (fld w 7 6))
    | 0x9 => finish true (.and (fld w 19 6) (fld w 13 6) (fld w 7 6))
    | 0xa => finish true (.or (fld w 19 6) (fld w 13 6) (fld w 7 6))
    | 0xb => finish true (.xor (fld w 19 6) (fld w 13 6) (fld w 7 6))
    | 0xc => finish true (.andn (fld w 19 6) (fld w 13 6) (fld w 7 6))
    | 0xd => finish true (.shl (fld w 19 6) (fld w 13 6) (fld w 7 6))
    | 0xe => finish true (.shr (fld w 19 6) (fld w 13 6) (fld w 7 6))
    | 0xf => finish true (.sar (fld w 19 6) (fld w 13 6) (fld w 7 6))
    | 0x10 => finish true (.rol (fld w 19 6) (fld w 13 6) (fld w 7 6))
    | 0x11 => finish true (.minI64 (fld w 19 6) (fld w 13 6) (fld w 7 6))
    | 0x12 => finish true (.minN64 (fld w 19 6) (fld w 13 6) (fld w 7 6))
    | 0x13 => finish true (.maxI64 (fld w 19 6) (fld w 13 6) (fld w 7 6))
    | 0x14 => finish true (.maxN64 (fld w 19 6) (fld w 13 6) (fld w 7 6))
    | 0x15 => finish (fld w 7 6 == 0) (.clz (fld w 19 6) (fld w 13 6))
    | 0x16 => finish (fld w 7 6 == 0) (.ctz (fld w 19 6) (fld w 13 6))
    | 0x17 => finish (fld w 7 6 == 0) (.popc (fld w 19 6) (fld w 13 6))
    | 0x18 => finish (fld w 7 6 == 0 && fld w 16 3 == 0) (.movXP (fld w 19 6) (fld w 13 3))
    | 0x19 => finish (fld w 7 6 == 0 && fld w 22 3 == 0) (.movPX (fld w 19 3) (fld w 13 6))
    | _ => .error .illegal
  | 0x2 => finish true (.addImm (fld w 19 6) (fld w 13 6) (fld w 0 13))
  | 0x3 => finish true (.mulImm (fld w 19 6) (fld w 13 6) (fld w 0 13))
  | 0x4 => finish true (.andImm (fld w 19 6) (fld w 13 6) (fld w 0 13))
  | 0x5 => finish true (.orImm (fld w 19 6) (fld w 13 6) (fld w 0 13))
  | 0x6 => finish true (.xorImm (fld w 19 6) (fld w 13 6) (fld w 0 13))
  | 0x7 =>
    match (fld w 11 2).toNat with
    | 0x0 => finish (fld w 6 5 == 0) (.shlImm (fld w 19 6) (fld w 13 6) (fld w 0 6))
    | 0x1 => finish (fld w 6 5 == 0) (.shrImm (fld w 19 6) (fld w 13 6) (fld w 0 6))
    | 0x2 => finish (fld w 6 5 == 0) (.sarImm (fld w 19 6) (fld w 13 6) (fld w 0 6))
    | 0x3 => finish (fld w 6 5 == 0) (.rolImm (fld w 19 6) (fld w 13 6) (fld w 0 6))
    | _ => .error .illegal
  | 0x8 => finish (fld w 0 6 == 0) (.cmp (fld w 22 3) (fld w 19 3) (fld w 13 6) (fld w 7 6) (fld w 6 1))
  | 0x9 => finish true (.cmpImm (fld w 22 3) (fld w 19 3) (fld w 13 6) (fld w 12 1) (fld w 0 12))
  | 0xa => finish (fld w 0 4 == 0) (.sel (fld w 19 6) (fld w 13 6) (fld w 7 6) (fld w 4 3))
  | 0xb => finish true (.li (fld w 19 6) (fld w 0 19))
  | 0xc => finish (fld w 16 1 == 0) (.lih (fld w 19 6) (fld w 17 2) (fld w 0 16))
  | 0xd => finish true (.bfx (fld w 19 6) (fld w 13 6) (fld w 7 6) (fld w 1 6) (fld w 0 1))
  | 0xe => finish true (.bfi (fld w 19 6) (fld w 13 6) (fld w 7 6) (fld w 1 6) (fld w 0 1))
  | 0xf => finish true (.fsh (fld w 19 6) (fld w 13 6) (fld w 7 6) (fld w 1 6) (fld w 0 1))
  | 0x10 => finish true (.br (fld w 0 25))
  | 0x11 => finish true (.call (fld w 19 6) (fld w 0 19))
  | 0x12 => finish true (.bc (fld w 22 3) (fld w 21 1) (fld w 0 21))
  | 0x13 => finish true (.loop (fld w 19 6) (fld w 0 19))
  | 0x14 => finish (fld w 0 13 == 0 && fld w 19 6 == 0) (.ret (fld w 13 6))
  | 0x18 => finish true (.ld (fld w 19 6) (fld w 13 6) (fld w 10 3) (fld w 8 2) (fld w 0 8))
  | 0x19 => finish (fld w 0 2 == 0) (.ldIndex (fld w 19 6) (fld w 13 6) (fld w 7 6) (fld w 4 3) (fld w 2 2))
  | 0x1a => finish true (.st (fld w 19 6) (fld w 13 6) (fld w 10 3) (fld w 8 2) (fld w 0 8))
  | 0x1b => finish (fld w 0 2 == 0) (.stIndex (fld w 19 6) (fld w 13 6) (fld w 7 6) (fld w 4 3) (fld w 2 2))
  | 0x1c =>
    match (fld w 10 3).toNat with
    | 0x0 => finish (fld w 0 3 == 0) (.redAdd (fld w 19 6) (fld w 13 6) (fld w 6 4) (fld w 3 3))
    | 0x1 => finish (fld w 0 3 == 0) (.redMin (fld w 19 6) (fld w 13 6) (fld w 6 4) (fld w 3 3))
    | 0x2 => finish (fld w 0 3 == 0) (.redMax (fld w 19 6) (fld w 13 6) (fld w 6 4) (fld w 3 3))
    | 0x3 => finish (fld w 0 3 == 0) (.redAnd (fld w 19 6) (fld w 13 6) (fld w 6 4) (fld w 3 3))
    | 0x4 => finish (fld w 0 3 == 0) (.redOr (fld w 19 6) (fld w 13 6) (fld w 6 4) (fld w 3 3))
    | 0x5 => finish (fld w 0 3 == 0) (.redXor (fld w 19 6) (fld w 13 6) (fld w 6 4) (fld w 3 3))
    | _ => .error .illegal
  | 0x20 => finish (fld w 4 21 == 0) (.fork (fld w 0 4))
  | 0x21 => finish (fld w 0 25 == 0) .join
  | 0x22 => finish (fld w 0 25 == 0) .rend
  | 0x23 =>
    match (fld w 18 1).toNat with
    | 0x0 => finish (fld w 0 12 == 0) (.addf (fld w 19 6) (fld w 12 6))
    | 0x1 => finish true (.addfImm (fld w 19 6) (fld w 0 18))
    | _ => .error .illegal
  | 0x24 =>
    match (fld w 18 1).toNat with
    | 0x0 => finish (fld w 0 6 == 0) (.give (fld w 19 6) (fld w 12 6) (fld w 6 6))
    | 0x1 => finish (fld w 0 10 == 0) (.giveAcc (fld w 19 6) (fld w 14 4) (fld w 10 4))
    | _ => .error .illegal
  | 0x25 =>
    match (fld w 18 1).toNat with
    | 0x0 => finish (fld w 0 12 == 0) (.waitf (fld w 19 6) (fld w 12 6))
    | 0x1 => finish true (.waitfImm (fld w 19 6) (fld w 0 18))
    | _ => .error .illegal
  | 0x26 => finish (fld w 0 14 == 0) (.flagcfg (fld w 19 6) (fld w 18 1) (fld w 16 2) (fld w 14 2))
  | 0x27 => finish (fld w 0 13 == 0) (.fstat (fld w 19 6) (fld w 13 6))
  | 0x28 => finish (fld w 0 10 == 0) (.ssync (fld w 19 6) (fld w 13 6) (fld w 10 3))
  | 0x29 => finish (fld w 0 4 == 0 && fld w 19 6 == 0) (.tokpass (fld w 13 6) (fld w 7 6) (fld w 4 3))
  | 0x2a => finish (fld w 0 7 == 0 && fld w 13 6 == 0) (.mfence (fld w 19 6) (fld w 10 3) (fld w 7 3))
  | 0x2b => finish (fld w 0 19 == 0) (.chron (fld w 19 6))
  | 0x2c => finish (fld w 0 6 == 0 && fld w 19 6 == 0) (.ipf (fld w 13 6) (fld w 7 6) (fld w 6 1))
  | 0x2d => finish (fld w 0 7 == 0) (.ipin (fld w 19 6) (fld w 13 6) (fld w 7 6))
  | 0x2e => finish (fld w 0 7 == 0 && fld w 19 6 == 0) (.iunpin (fld w 13 6) (fld w 7 6))
  | 0x30 => finish (fld w 12 7 == 0) (.csrr (fld w 19 6) (fld w 0 12))
  | 0x31 => finish (fld w 12 1 == 0 && fld w 19 6 == 0) (.csrw (fld w 13 6) (fld w 0 12))
  | 0x32 => finish (fld w 19 6 == 0) (.trap (fld w 13 6) (fld w 0 13))
  | 0x33 => finish (fld w 0 25 == 0) .eret
  | 0x34 => finish (fld w 0 13 == 0) (.launch (fld w 19 6) (fld w 13 6))
  | 0x40 => finish (fld w 0 13 == 0 && fld w 19 2 == 0) (.wincfg (fld w 21 4) (fld w 13 6))
  | 0x41 => finish (fld w 0 21 == 0) (.winoff (fld w 21 4))
  | 0x42 => finish (fld w 0 13 == 0) (.winq (fld w 19 6) (fld w 13 6))
  | 0x48 =>
    match (fld w 3 1).toNat with
    | 0x0 => finish (fld w 0 3 == 0 && fld w 19 6 == 0) (.tlbinv (fld w 13 6) (fld w 7 6) (fld w 4 3))
    | 0x1 => finish (fld w 0 3 == 0) (.tlbinvr (fld w 19 6) (fld w 13 6) (fld w 7 6) (fld w 4 3))
    | _ => .error .illegal
  | 0x49 => finish (fld w 0 4 == 0) (.pgsplit (fld w 19 6) (fld w 13 6) (fld w 7 6) (fld w 4 3))
  | 0x4a => finish (fld w 0 7 == 0) (.pgdup (fld w 19 6) (fld w 13 6) (fld w 7 6))
  | 0x4b => finish (fld w 0 3 == 0 && fld w 4 3 == 0) (.pgcoll (fld w 19 6) (fld w 13 6) (fld w 7 6) (fld w 3 1))
  | 0x4c => finish (fld w 0 3 == 0 && fld w 4 3 == 0) (.pgmove (fld w 19 6) (fld w 13 6) (fld w 7 6) (fld w 3 1))
  | 0x4d => finish (fld w 0 7 == 0) (.pgprot (fld w 19 6) (fld w 13 6) (fld w 7 6))
  | 0x4e => finish (fld w 0 7 == 0) (.walkstat (fld w 19 6) (fld w 13 6) (fld w 7 6))
  | 0x4f => finish (fld w 0 13 == 0 && fld w 19 6 == 0) (.keyret (fld w 13 6))
  | 0x50 => finish (fld w 0 10 == 0 && fld w 19 6 == 0) (.publish (fld w 13 6) (fld w 10 3))
  | 0x51 => finish (fld w 0 19 == 0) (.pubwait (fld w 19 6))
  | 0x52 => finish (fld w 19 6 == 0) (.reftag (fld w 13 6) (fld w 0 13))
  | 0x53 => finish true (.stref (fld w 19 6) (fld w 13 6) (fld w 0 13))
  | 0x54 => finish (fld w 19 6 == 0) (.refclr (fld w 13 6) (fld w 0 13))
  | 0x55 => finish (fld w 0 5 == 0 && fld w 19 6 == 0) (.objinit (fld w 13 6) (fld w 7 6) (fld w 5 2))
  | 0x56 => finish (fld w 0 13 == 0 && fld w 19 6 == 0) (.retract (fld w 13 6))
  | 0x58 => finish (fld w 0 25 == 0) .txopen
  | 0x59 => finish (fld w 0 7 == 0 && fld w 19 6 == 0) (.txvote (fld w 13 6) (fld w 7 6))
  | 0x5a => finish (fld w 0 19 == 0) (.txwait (fld w 19 6))
  | 0x5b => finish (fld w 0 19 == 0) (.txstat (fld w 19 6))
  | 0x5c => finish (fld w 0 19 == 0) (.txkey (fld w 19 6))
  | 0x5d =>
    match (fld w 0 3).toNat with
    | 0x0 => finish (fld w 3 16 == 0) (.txseqStep (fld w 19 6))
    | 0x1 => finish (fld w 3 16 == 0) (.txseqCbase (fld w 19 6))
    | 0x2 => finish (fld w 3 16 == 0) (.txseqQbase (fld w 19 6))
    | 0x3 => finish (fld w 3 16 == 0) (.txseqCount (fld w 19 6))
    | _ => .error (if fld w 3 16 == 0 then .range else .reserved)
  | 0x5e => finish (fld w 0 25 == 0) .txclose
  | 0x60 => finish (fld w 0 1 == 0) (.nmSgdf (fld w 19 6) (fld w 13 6) (fld w 7 6) (fld w 1 6))
  | 0x61 =>
    match (fld w 9 1).toNat with
    | 0x0 => finish (fld w 0 9 == 0 && fld w 13 6 == 0) (.nmfence (fld w 19 6) (fld w 10 3))
    | 0x1 => finish (fld w 0 9 == 0 && fld w 13 6 == 0) (.nmfenceArray (fld w 19 6) (fld w 10 3))
    | _ => .error .illegal
  | _ => .error .illegal

/-- A vector word of 32 bits (05 R173, R179). -/
def decodeVec32 (w : BitVec 32) : Dec :=
  if fld w 0 1 == 1 then .error .illegal else
  match (fld w 2 6).toNat with
  | 0x1 =>
    match (fld w 8 4).toNat with
    | 0x0 => finish (fld w 0 1 == 0) (.vadd (fld w 27 5) (fld w 21 6) (fld w 15 6) (fld w 12 3) (fld w 1 1))
    | 0x1 => finish (fld w 0 1 == 0) (.vsub (fld w 27 5) (fld w 21 6) (fld w 15 6) (fld w 12 3) (fld w 1 1))
    | 0x2 => finish (fld w 0 1 == 0) (.vmul (fld w 27 5) (fld w 21 6) (fld w 15 6) (fld w 12 3) (fld w 1 1))
    | 0x3 => finish (fld w 0 1 == 0) (.vdiv (fld w 27 5) (fld w 21 6) (fld w 15 6) (fld w 12 3) (fld w 1 1))
    | 0x4 => finish (fld w 0 1 == 0) (.vmin (fld w 27 5) (fld w 21 6) (fld w 15 6) (fld w 12 3) (fld w 1 1))
    | 0x5 => finish (fld w 0 1 == 0) (.vmax (fld w 27 5) (fld w 21 6) (fld w 15 6) (fld w 12 3) (fld w 1 1))
    | 0x6 => finish (fld w 0 1 == 0) (.vcps (fld w 27 5) (fld w 21 6) (fld w 15 6) (fld w 12 3) (fld w 1 1))
    | _ => .error .illegal
  | 0x2 =>
    match (fld w 8 4).toNat with
    | 0x0 => finish (fld w 0 1 == 0 && fld w 15 6 == 0) (.vsqrt (fld w 27 5) (fld w 21 6) (fld w 12 3) (fld w 1 1))
    | 0x1 => finish (fld w 0 1 == 0 && fld w 15 6 == 0) (.vrcp (fld w 27 5) (fld w 21 6) (fld w 12 3) (fld w 1 1))
    | 0x2 => finish (fld w 0 1 == 0 && fld w 15 6 == 0) (.vexp2 (fld w 27 5) (fld w 21 6) (fld w 12 3) (fld w 1 1))
    | 0x3 => finish (fld w 0 1 == 0 && fld w 15 6 == 0) (.vlog2 (fld w 27 5) (fld w 21 6) (fld w 12 3) (fld w 1 1))
    | 0x4 => finish (fld w 0 1 == 0 && fld w 15 6 == 0) (.vabs (fld w 27 5) (fld w 21 6) (fld w 12 3) (fld w 1 1))
    | 0x5 => finish (fld w 0 1 == 0 && fld w 15 6 == 0) (.vneg (fld w 27 5) (fld w 21 6) (fld w 12 3) (fld w 1 1))
    | _ => .error .illegal
  | 0x3 => finish (fld w 0 1 == 0 && fld w 27 2 == 0) (.vcmp (fld w 29 3) (fld w 21 6) (fld w 15 6) (fld w 12 3) (fld w 8 4) (fld w 1 1))
  | 0x4 =>
    match (fld w 8 4).toNat with
    | 0x0 => finish (fld w 0 1 == 0) (.vsel (fld w 27 5) (fld w 21 6) (fld w 15 6) (fld w 12 3) (fld w 1 1))
    | _ => .error .illegal
  | 0x5 =>
    match (fld w 8 4).toNat with
    | 0x0 => finish (fld w 0 1 == 0) (.viadd (fld w 27 5) (fld w 21 6) (fld w 15 6) (fld w 12 3) (fld w 1 1))
    | 0x1 => finish (fld w 0 1 == 0) (.visub (fld w 27 5) (fld w 21 6) (fld w 15 6) (fld w 12 3) (fld w 1 1))
    | 0x2 => finish (fld w 0 1 == 0) (.vimul (fld w 27 5) (fld w 21 6) (fld w 15 6) (fld w 12 3) (fld w 1 1))
    | 0x3 => finish (fld w 0 1 == 0) (.vshl (fld w 27 5) (fld w 21 6) (fld w 15 6) (fld w 12 3) (fld w 1 1))
    | 0x4 => finish (fld w 0 1 == 0) (.vshr (fld w 27 5) (fld w 21 6) (fld w 15 6) (fld w 12 3) (fld w 1 1))
    | 0x5 => finish (fld w 0 1 == 0) (.vsar (fld w 27 5) (fld w 21 6) (fld w 15 6) (fld w 12 3) (fld w 1 1))
    | 0x6 => finish (fld w 0 1 == 0) (.vand (fld w 27 5) (fld w 21 6) (fld w 15 6) (fld w 12 3) (fld w 1 1))
    | 0x7 => finish (fld w 0 1 == 0) (.vor (fld w 27 5) (fld w 21 6) (fld w 15 6) (fld w 12 3) (fld w 1 1))
    | 0x8 => finish (fld w 0 1 == 0) (.vxor (fld w 27 5) (fld w 21 6) (fld w 15 6) (fld w 12 3) (fld w 1 1))
    | _ => .error .illegal
  | 0x6 =>
    match (fld w 8 4).toNat with
    | 0x0 => finish (fld w 0 1 == 0 && fld w 15 6 == 0) (.vpopc (fld w 27 5) (fld w 21 6) (fld w 12 3) (fld w 1 1))
    | 0x1 => finish (fld w 0 1 == 0 && fld w 15 6 == 0) (.vclz (fld w 27 5) (fld w 21 6) (fld w 12 3) (fld w 1 1))
    | _ => .error .illegal
  | 0x7 => finish (fld w 0 1 == 0 && fld w 27 2 == 0) (.vcmpInt (fld w 29 3) (fld w 21 6) (fld w 15 6) (fld w 12 3) (fld w 8 4) (fld w 1 1))
  | 0xc =>
    match (fld w 9 2).toNat with
    | 0x0 => finish (fld w 0 1 == 0 && fld w 15 6 == 0) (.vredsum (fld w 27 5) (fld w 21 6) (fld w 12 3) (fld w 11 1) (fld w 8 1) (fld w 1 1))
    | 0x1 => finish (fld w 0 1 == 0 && fld w 15 6 == 0) (.vredmax (fld w 27 5) (fld w 21 6) (fld w 12 3) (fld w 11 1) (fld w 8 1) (fld w 1 1))
    | 0x2 => finish (fld w 0 1 == 0 && fld w 15 6 == 0) (.vredmin (fld w 27 5) (fld w 21 6) (fld w 12 3) (fld w 11 1) (fld w 8 1) (fld w 1 1))
    | _ => .error .illegal
  | 0xd =>
    match (fld w 8 4).toNat with
    | 0x0 => finish (fld w 0 1 == 0 && fld w 12 9 == 0) (.vmov (fld w 27 5) (fld w 21 6) (fld w 1 1))
    | 0x1 => finish (fld w 0 1 == 0 && fld w 12 4 == 0 && fld w 21 6 == 0) (.vbcast (fld w 27 5) (fld w 16 5) (fld w 1 1))
    | 0x2 => finish (fld w 0 1 == 0 && fld w 12 9 == 0) (.vtrans (fld w 27 5) (fld w 21 6) (fld w 1 1))
    | 0x3 => finish (fld w 0 1 == 0 && fld w 12 4 == 0) (.vrotRow (fld w 27 5) (fld w 21 6) (fld w 16 5) (fld w 1 1))
    | 0x4 => finish (fld w 0 1 == 0 && fld w 12 4 == 0) (.vrotCol (fld w 27 5) (fld w 21 6) (fld w 16 5) (fld w 1 1))
    | 0x5 => finish (fld w 0 1 == 0 && fld w 12 3 == 0) (.vperm (fld w 27 5) (fld w 21 6) (fld w 15 6) (fld w 1 1))
    | _ => .error .illegal
  | 0xf => finish (fld w 0 1 == 0 && fld w 8 3 == 0) (.vshapeset (fld w 25 7) (fld w 13 12) (fld w 11 2) (fld w 1 1))
  | 0x10 =>
    match (fld w 8 4).toNat with
    | 0x0 => finish (fld w 0 1 == 0) (.bnet (fld w 27 5) (fld w 21 6) (fld w 15 6) (fld w 12 3) (fld w 1 1))
    | _ => .error .illegal
  | 0x11 =>
    match (fld w 8 4).toNat with
    | 0x0 => finish (fld w 0 1 == 0 && fld w 15 6 == 0 && fld w 27 5 == 0) (.bnload (fld w 21 6) (fld w 12 3) (fld w 1 1))
    | _ => .error .illegal
  | 0x14 =>
    match (fld w 10 1).toNat with
    | 0x0 => finish (fld w 0 1 == 0 && fld w 8 2 == 0) (.vlda (fld w 27 5) (fld w 23 4) (fld w 17 6) (fld w 11 6) (fld w 1 1))
    | 0x1 => finish (fld w 0 1 == 0 && fld w 8 2 == 0) (.vsta (fld w 27 5) (fld w 23 4) (fld w 17 6) (fld w 11 6) (fld w 1 1))
    | _ => .error .illegal
  | 0x15 =>
    match (fld w 8 4).toNat with
    | 0x0 => finish (fld w 0 1 == 0 && fld w 15 12 == 0) (.vrand (fld w 27 5) (fld w 12 3) (fld w 1 1))
    | 0x1 => finish (fld w 0 1 == 0 && fld w 15 12 == 0) (.vrandF (fld w 27 5) (fld w 12 3) (fld w 1 1))
    | 0x2 => finish (fld w 0 1 == 0 && fld w 12 10 == 0 && fld w 27 2 == 0) (.vmaskp (fld w 29 3) (fld w 22 5) (fld w 1 1))
    | _ => .error .illegal
  | 0x16 =>
    match (fld w 8 4).toNat with
    | 0x0 => finish (fld w 0 1 == 0 && fld w 12 9 == 0 && fld w 27 2 == 0) (.mand (fld w 29 3) (fld w 24 3) (fld w 21 3) (fld w 1 1))
    | 0x1 => finish (fld w 0 1 == 0 && fld w 12 9 == 0 && fld w 27 2 == 0) (.mor (fld w 29 3) (fld w 24 3) (fld w 21 3) (fld w 1 1))
    | 0x2 => finish (fld w 0 1 == 0 && fld w 12 9 == 0 && fld w 27 2 == 0) (.mxor (fld w 29 3) (fld w 24 3) (fld w 21 3) (fld w 1 1))
    | 0x3 => finish (fld w 0 1 == 0 && fld w 12 12 == 0 && fld w 27 2 == 0) (.mnot (fld w 29 3) (fld w 24 3) (fld w 1 1))
    | 0x4 => finish (fld w 0 1 == 0 && fld w 12 12 == 0) (.mpopc (fld w 27 5) (fld w 24 3) (fld w 1 1))
    | 0x5 => finish (fld w 0 1 == 0 && fld w 12 12 == 0) (.mfirst (fld w 27 5) (fld w 24 3) (fld w 1 1))
    | _ => .error .illegal
  | 0x17 => finish (fld w 0 1 == 0 && fld w 14 15 == 0) (.vqskip (fld w 29 3) (fld w 8 6) (fld w 1 1))
  | 0x19 =>
    match (fld w 25 1).toNat with
    | 0x0 => finish (fld w 0 1 == 0 && fld w 8 12 == 0) (.vecAddf (fld w 26 6) (fld w 20 5) (fld w 1 1))
    | 0x1 => finish (fld w 0 1 == 0) (.vecAddfImm (fld w 26 6) (fld w 8 17) (fld w 1 1))
    | _ => .error .illegal
  | 0x1a =>
    match (fld w 25 1).toNat with
    | 0x0 => finish (fld w 0 1 == 0 && fld w 8 12 == 0) (.vecWaitf (fld w 26 6) (fld w 20 5) (fld w 1 1))
    | 0x1 => finish (fld w 0 1 == 0) (.vecWaitfImm (fld w 26 6) (fld w 8 17) (fld w 1 1))
    | _ => .error .illegal
  | 0x1b =>
    match (fld w 25 1).toNat with
    | 0x0 => finish (fld w 0 1 == 0 && fld w 8 7 == 0) (.vecGive (fld w 26 6) (fld w 20 5) (fld w 15 5) (fld w 1 1))
    | 0x1 => finish (fld w 0 1 == 0 && fld w 8 9 == 0) (.vecGiveAcc (fld w 26 6) (fld w 21 4) (fld w 17 4) (fld w 1 1))
    | _ => .error .illegal
  | 0x20 => finish (fld w 0 1 == 0) (.vscalLi (fld w 27 5) (fld w 8 19) (fld w 1 1))
  | 0x21 =>
    match (fld w 19 3).toNat with
    | 0x0 => finish (fld w 0 1 == 0 && fld w 8 6 == 0) (.vscalAdd (fld w 27 5) (fld w 22 5) (fld w 14 5) (fld w 1 1))
    | 0x1 => finish (fld w 0 1 == 0 && fld w 8 6 == 0) (.vscalSub (fld w 27 5) (fld w 22 5) (fld w 14 5) (fld w 1 1))
    | 0x2 => finish (fld w 0 1 == 0 && fld w 8 6 == 0) (.vscalShl (fld w 27 5) (fld w 22 5) (fld w 14 5) (fld w 1 1))
    | 0x3 => finish (fld w 0 1 == 0 && fld w 8 6 == 0) (.vscalAnd (fld w 27 5) (fld w 22 5) (fld w 14 5) (fld w 1 1))
    | 0x4 => finish (fld w 0 1 == 0) (.vscalAddImm (fld w 27 5) (fld w 22 5) (fld w 8 11) (fld w 1 1))
    | 0x5 => finish (fld w 0 1 == 0) (.vscalSubImm (fld w 27 5) (fld w 22 5) (fld w 8 11) (fld w 1 1))
    | 0x6 => finish (fld w 0 1 == 0 && fld w 14 5 == 0) (.vscalShlImm (fld w 27 5) (fld w 22 5) (fld w 8 6) (fld w 1 1))
    | 0x7 => finish (fld w 0 1 == 0) (.vscalAndImm (fld w 27 5) (fld w 22 5) (fld w 8 11) (fld w 1 1))
    | _ => .error .illegal
  | 0x22 =>
    match (fld w 19 1).toNat with
    | 0x0 => finish (fld w 0 1 == 0 && fld w 8 6 == 0) (.vscalCmp (fld w 29 3) (fld w 26 3) (fld w 25 1) (fld w 20 5) (fld w 14 5) (fld w 1 1))
    | 0x1 => finish (fld w 0 1 == 0) (.vscalCmpImm (fld w 29 3) (fld w 26 3) (fld w 25 1) (fld w 20 5) (fld w 8 11) (fld w 1 1))
    | _ => .error .illegal
  | 0x23 => finish (fld w 0 1 == 0) (.vscalBr (fld w 8 24) (fld w 1 1))
  | 0x24 => finish (fld w 0 1 == 0) (.vscalBc (fld w 29 3) (fld w 28 1) (fld w 8 20) (fld w 1 1))
  | 0x25 => finish (fld w 0 1 == 0) (.vscalLoop (fld w 27 5) (fld w 8 19) (fld w 1 1))
  | 0x26 => finish (fld w 0 1 == 0 && fld w 8 24 == 0) (.vscalRend (fld w 1 1))
  | 0x27 => finish (fld w 0 1 == 0 && fld w 8 24 == 0) (.vscalNop (fld w 1 1))
  | 0x3f =>
    match (fld w 8 1).toNat with
    | 0x0 => finish (fld w 0 1 == 0 && fld w 15 17 == 0) (.pfxRnd (fld w 14 1) (fld w 13 1) (fld w 12 1) (fld w 9 3) (fld w 1 1))
    | 0x1 => finish (fld w 0 1 == 0 && fld w 13 19 == 0) (.pfxMsk (fld w 12 1) (fld w 9 3) (fld w 1 1))
    | _ => .error .illegal
  | _ => .error .illegal

/-- A vector word of 64 bits (05 R173, R179, R186 to R201, R208). Bits [33:32] are reserved in every one. -/
def decodeVec64 (w : BitVec 64) : Dec :=
  let t := fld w 1 1
  let z := fld w 32 2 == 0
  let d := fld w 27 5
  let a := fld w 21 6
  let b := fld w 15 6
  let y := fld w 12 3
  if fld w 0 1 == 0 then .error .illegal else
  match (fld w 2 6).toNat with
  | 0x8 =>
    let z := z && fld w 34 24 == 0
    match (fld w 8 4).toNat with
    | 0 => finish z (.vfma d a b (fld w 58 6) y t)
    | 1 => finish z (.vfms d a b (fld w 58 6) y t)
    | 2 => finish z (.vnfma d a b (fld w 58 6) y t)
    | _ => .error .illegal
  | 0x9 =>
    match (fld w 8 4).toNat with
    | 0 => finish (z && fld w 34 24 == 0) (.vimad d a b (fld w 58 6) y t)
    | _ => .error .illegal
  | 0xa =>
    let z := z && fld w 34 17 == 0
    match (fld w 8 4).toNat with
    | 0 => finish (z && b == 0) (.vbfx d a y (fld w 58 6) (fld w 51 7) t)
    | 1 => finish (z && b == 0) (.vbfi d a y (fld w 58 6) (fld w 51 7) t)
    | 2 => finish z (.vfsh d a b y (fld w 58 6) (fld w 51 7) t)
    | _ => .error .illegal
  | 0xb => finish (z && fld w 34 20 == 0 && fld w 8 13 == 0) (.vcvt d a (fld w 59 5) (fld w 54 5) t)
  | 0xe => finish (z && fld w 34 16 == 0) (.vbcastImm d (fld w 51 13 ++ fld w 8 19 : BitVec 32) (fld w 50 1) t)
  | 0x12 => finish (z && fld w 34 10 == 0 && fld w 8 5 == 0)
      (.vld d (fld w 22 5) (fld w 17 5) (fld w 15 2) (fld w 13 2) (fld w 44 20) t)
  | 0x13 => finish (z && fld w 34 10 == 0 && fld w 8 5 == 0)
      (.vst d (fld w 22 5) (fld w 17 5) (fld w 15 2) (fld w 13 2) (fld w 44 20) t)
  | 0x20 => finish z (.vscalLi64 d (fld w 34 30 ++ fld w 8 19 : BitVec 49) t)
  | _ => .error .illegal

/-- The flag words of the copy and matrix streams (06 R242). -/
def decodeFlag64 (e : Eng64) (w : BitVec 64) : Dec :=
  let f := fld w 32 6
  let src : FlagSrc := if fld w 38 1 == 1 then .imm (fld w 39 25) else .reg (fld w 12 5)
  let z := fld w 27 5 == 0 && fld w 22 5 == 0 && fld w 7 5 == 0
  let zs := z && fld w 17 5 == 0 && (if fld w 38 1 == 1 then fld w 12 5 == 0 else fld w 39 25 == 0)
  match (fld w 0 7).toNat with
  | 0x10 => finish zs (.addf64 e f src)
  | 0x11 => finish zs (.waitf64 e f src)
  | 0x12 =>
    if fld w 38 1 == 1 then finish (z && fld w 17 5 == 0 && fld w 12 5 == 0 && fld w 47 17 == 0)
      (.give64 e f (.acc (fld w 39 4) (fld w 43 4)))
    else finish (z && fld w 39 25 == 0) (.give64 e f (.pad (fld w 12 5) (fld w 17 5)))
  | _ => .error .illegal

/-- The scalar subset in 64-bit words (06 R243, 09 R318, 10 R343). -/
def decodeScal64 (e : Strm64) (w : BitVec 64) : Dec :=
  let z := fld w 27 5 == 0 && fld w 22 5 == 0
  let rd := fld w 7 5
  let ra := fld w 12 5
  let rb := fld w 17 5
  let imm := fld w 32 32
  match (fld w 0 7).toNat with
  | 0x18 => finish (z && ra == 0 && rb == 0) (.scalLi e rd imm)
  | 0x19 =>
    let o : Opd16 := if fld w 34 1 == 1 then .imm (fld w 48 16) else .reg rb
    let z := z && fld w 35 13 == 0 && (if fld w 34 1 == 1 then rb == 0 else fld w 48 16 == 0)
    match (fld w 32 2).toNat with
    | 0 => finish z (.scalAdd e rd ra o)
    | 1 => finish z (.scalSub e rd ra o)
    | 2 => finish z (.scalShl e rd ra o)
    | _ => finish z (.scalAnd e rd ra o)
  | 0x1a =>
    let o : Opd16 := if fld w 36 1 == 1 then .imm (fld w 48 16) else .reg rb
    finish (z && fld w 10 2 == 0 && fld w 37 11 == 0 && (if fld w 36 1 == 1 then rb == 0 else fld w 48 16 == 0))
      (.scalCmp e (fld w 7 3) (fld w 32 3) (fld w 35 1) ra o)
  | 0x1b => finish (z && rd == 0 && ra == 0 && rb == 0) (.scalBr e imm)
  | 0x1c => finish (z && fld w 11 1 == 0 && ra == 0 && rb == 0) (.scalBc e (fld w 7 3) (fld w 10 1) imm)
  | 0x1d => finish (z && rd == 0 && rb == 0) (.scalLoop e ra imm)
  | 0x1e => finish (z && rd == 0 && ra == 0 && rb == 0 && imm == 0) (.scalRend e)
  | 0x1f => finish (z && rd == 0 && ra == 0 && rb == 0 && imm == 0) (.scalNop e)
  | _ => .error .illegal

/-- A copy word (06 R238 to R243). The word `COLL` decodes to its first row; the descriptor's `KIND` selects the
collective (06 R234). -/
def decodeCpy (w : BitVec 64) : Dec :=
  let sc := fld w 27 3
  let u := fld w 30 2
  let d := fld w 7 5
  let a := fld w 12 5
  let b := fld w 17 5
  let c := fld w 22 5
  match (fld w 0 7).toNat with
  | 0x1 => finish (c == 0 && fld w 47 17 == 0) (.cpy sc u d a b (fld w 32 14) (fld w 46 1))
  | 0x2 => finish (fld w 52 12 == 0) (.cpys sc u d a b c (fld w 32 20))
  | 0x3 => finish (fld w 10 2 == 0 && b == 0 && c == 0 && sc == 0 && u == 0 && fld w 32 32 == 0) (.chain (fld w 7 3) a)
  | 0x4 => finish (fld w 10 2 == 0 && a == 0 && b == 0 && c == 0 && sc == 0 && u == 0 && fld w 32 32 == 0)
      (.chstop (fld w 7 3))
  | 0x5 => finish (fld w 57 7 == 0) (.gather sc u d a b c (fld w 32 11) (fld w 43 14))
  | 0x6 => finish (fld w 57 7 == 0) (.scatter sc u d a b c (fld w 32 11) (fld w 43 14))
  | 0x7 => finish (fld w 10 2 == 0 && c == 0 && fld w 57 7 == 0)
      (.bind sc u (fld w 7 3) a b (fld w 32 11) (fld w 43 14))
  | 0x8 => finish (d == 0 && b == 0 && c == 0 && fld w 46 18 == 0) (.collAllReduce sc u a (fld w 32 14))
  | 0x9 => finish (fld w 46 18 == 0) (.nmirror sc u d a b c (fld w 32 14))
  | n => if n < 0x18 then decodeFlag64 .cpy w else decodeScal64 .cpy w

/-- `INIT` and `RF` of a product (09 R304); none for the reserved code. -/
def decodeInit (w : BitVec 64) : Option Init :=
  match (fld w 28 2).toNat with
  | 0 => some .keep
  | 1 => some .zero
  | 2 => some (.fade (fld w 38 5))
  | _ => none

/-- A matrix word (09 R303 to R318). -/
def decodeMtx (w : BitVec 64) : Dec :=
  let acc := fld w 8 4
  let da := fld w 12 4
  let db := fld w 16 4
  let sa := fld w 20 4
  let sb := fld w 24 4
  let rel := fld w 30 1
  let mode := fld w 32 3
  let sat := fld w 35 1
  let flush := fld w 36 1
  let ksel := fld w 37 1
  let stamp : Option (BitVec 20) := if fld w 31 1 == 1 then some (fld w 44 20) else none
  let init := (decodeInit w).getD .keep
  let zi := fld w 43 1 == 0 && fld w 28 2 != 3 && (fld w 28 2 == 2 || fld w 38 5 == 0)
    && (fld w 31 1 == 1 || fld w 44 20 == 0)
  let za := sa == 0 && sb == 0
  let n := fld w 7 4
  let a := fld w 12 5
  let zs := fld w 27 5 == 0 && fld w 22 5 == 0
  let z1 := zs && fld w 11 1 == 0
  let zb := z1 && fld w 17 5 == 0
  match (fld w 0 7).toNat with
  | 0x1 => finish (zi && za && fld w 7 1 == 0 && mode == 0 && ksel == 0) (.mma acc da db init sat flush rel stamp)
  | 0x2 => finish (zi && fld w 7 1 == 0) (.mmas acc da db sa sb init mode sat flush ksel rel stamp)
  | 0x3 => finish (zi && za && fld w 7 1 == 0 && mode == 0 && ksel == 0 && flush == 0) (.mmai acc da db init sat rel stamp)
  | 0x4 => finish zi (.mmaj (fld w 7 1) acc da db sa sb init mode sat flush ksel rel stamp)
  | 0x5 =>
    let z := z1 && fld w 34 14 == 0
    match (fld w 32 2).toNat with
    | 0 => finish (z && fld w 48 16 == 0) (.mtile n a (fld w 17 5))
    | 1 => finish (z && fld w 17 5 == 0 && fld w 48 16 == 0) (.mtileAddr n a)
    | 2 => finish (z && fld w 17 5 == 0 && fld w 48 16 == 0) (.mtileAdd n a)
    | _ => finish (z && fld w 17 5 == 0) (.mtileLd n a (fld w 48 16))
  | 0x6 => finish (zb && a == 0 && fld w 36 28 == 0) (.azero n (fld w 32 4))
  | 0x7 => finish (zb && fld w 32 7 == 0 && fld w 41 23 == 0) (.afade n a (fld w 39 1) (fld w 40 1))
  | 0x8 => finish (zb && a == 0 && fld w 36 4 == 0 && fld w 41 1 == 0 && fld w 43 21 == 0)
      (.ald n (fld w 32 4) (fld w 40 1) (fld w 42 1))
  | 0x9 => finish (zb && a == 0 && fld w 43 21 == 0)
      (.ast n (fld w 32 4) (fld w 36 3) (fld w 39 1) (fld w 40 1) (fld w 41 1) (fld w 42 1))
  | 0xa => finish (zb && fld w 32 32 == 0) (.aspill n a)
  | 0xb => finish (zb && fld w 32 32 == 0) (.afill n a)
  | k => if k < 0x18 then decodeFlag64 .mtx w else decodeScal64 .mtx w

/-- An Astrolabe word (10 R342, R343). -/
def decodeAst (w : BitVec 64) : Dec :=
  let d := fld w 7 5
  let a := fld w 12 5
  let b := fld w 17 5
  let c := fld w 22 5
  let g := fld w 27 3
  let zu := fld w 30 2 == 0
  let zi := fld w 32 32 == 0
  match (fld w 0 7).toNat with
  | 0x1 => finish (zu && g == 0 && d == 0 && fld w 46 18 == 0)
      (.qinit a b c (fld w 32 6) (fld w 38 2) (fld w 40 4) (fld w 44 1) (fld w 45 1))
  | 0x2 =>
    let z := zu && g == 0 && d == 0 && b == 0 && c == 0 && fld w 33 31 == 0
    if fld w 32 1 == 1 then finish z (.qmapSt a) else finish z (.qmap a)
  | 0x3 => finish (zu && d == 0 && b == 0 && c == 0 && fld w 35 29 == 0) (.qldg g a (fld w 32 2) (fld w 34 1))
  | 0x4 => finish (zu && zi && d == 0 && c == 0) (.qgate g a b)
  | 0x5 => finish (zu && zi && d == 0 && c == 0) (.qdiag g a b)
  | 0x6 => finish (zu && zi && g == 0 && d == 0 && c == 0) (.qswap a b)
  | 0x7 => finish (zu && zi && g == 0 && d == 0 && b == 0 && c == 0) (.qperm a)
  | 0x8 => finish (zu && zi && g == 0) (.qprob d a b c)
  | 0x9 => finish (zu && zi && g == 0 && a == 0 && b == 0) (.qnorm d c)
  | 0xa => finish (zu && zi && g == 0 && b == 0) (.qsample d a c)
  | 0xb => finish (zu && zi && g == 0 && d == 0 && b == 0 && c == 0) (.qscale a)
  | 0xc => finish (zu && zi && g == 0 && d == 0 && a == 0 && b == 0 && c == 0) .qsync
  | k => if k < 0x18 then .error .illegal else decodeScal64 .ast w

/-- The stream whose words an instruction belongs to; none for an event. -/
def streamOf (i : Instr) : Option Strm :=
  match i with
  | .add _ _ _ | .sub _ _ _ | .mul _ _ _ | .mulhI64 _ _ _ | .mulhN64 _ _ _ | .divI64 _ _ _ | .divN64 _ _ _
  | .remI64 _ _ _ | .remN64 _ _ _ | .and _ _ _ | .or _ _ _ | .xor _ _ _ | .andn _ _ _ | .shl _ _ _ | .shr _ _ _
  | .sar _ _ _ | .rol _ _ _ | .minI64 _ _ _ | .minN64 _ _ _ | .maxI64 _ _ _ | .maxN64 _ _ _ | .clz _ _ | .ctz _ _
  | .popc _ _ | .movXP _ _ | .movPX _ _ | .addImm _ _ _ | .mulImm _ _ _ | .andImm _ _ _ | .orImm _ _ _
  | .xorImm _ _ _ | .shlImm _ _ _ | .shrImm _ _ _ | .sarImm _ _ _ | .rolImm _ _ _ | .cmp _ _ _ _ _
  | .cmpImm _ _ _ _ _ | .sel _ _ _ _ | .li _ _ | .lih _ _ _ | .bfx _ _ _ _ _ | .bfi _ _ _ _ _ | .fsh _ _ _ _ _
  | .br _ | .call _ _ | .bc _ _ _ | .loop _ _ | .ret _ | .ld _ _ _ _ _ | .ldIndex _ _ _ _ _ | .st _ _ _ _ _
  | .stIndex _ _ _ _ _ | .redAdd _ _ _ _ | .redMin _ _ _ _ | .redMax _ _ _ _ | .redAnd _ _ _ _ | .redOr _ _ _ _
  | .redXor _ _ _ _ | .fork _ | .join | .rend | .addf _ _ | .addfImm _ _ | .give _ _ _ | .giveAcc _ _ _ | .waitf _ _
  | .waitfImm _ _ | .flagcfg _ _ _ _ | .fstat _ _ | .ssync _ _ _ | .tokpass _ _ _ | .mfence _ _ _ | .chron _
  | .ipf _ _ _ | .ipin _ _ _ | .iunpin _ _ | .csrr _ _ | .csrw _ _ | .trap _ _ | .eret | .launch _ _ | .wincfg _ _
  | .winoff _ | .winq _ _ | .tlbinv _ _ _ | .tlbinvr _ _ _ _ | .pgsplit _ _ _ _ | .pgdup _ _ _ | .pgcoll _ _ _ _
  | .pgmove _ _ _ _ | .pgprot _ _ _ | .walkstat _ _ _ | .keyret _ | .publish _ _ | .pubwait _ | .reftag _ _
  | .stref _ _ _ | .refclr _ _ | .objinit _ _ _ | .retract _ | .txopen | .txvote _ _ | .txwait _ | .txstat _
  | .txkey _ | .txseqStep _ | .txseqCbase _ | .txseqQbase _ | .txseqCount _ | .txclose | .nmSgdf _ _ _ _
  | .nmMom _ _ _ _ | .nmAdamw _ _ _ _ | .nmAxpy _ _ _ _ | .nmScale _ _ _ _ | .nmFill _ _ _ _ | .nmCopy _ _ _ _
  | .nmCast _ _ _ _ | .nmClamp _ _ _ _ | .nmRecode _ _ _ _ | .nmScrub _ _ _ _ | .nmFold _ _ _ _ | .nmCkpt _ _ _ _
  | .nmfence _ _ | .nmfenceArray _ _ | .rkeyWrite _ | .nfdWrite _ _ => some .ctl
  | .pfxRnd _ _ _ _ _ | .pfxMsk _ _ _ | .vadd _ _ _ _ _ | .vsub _ _ _ _ _ | .vmul _ _ _ _ _ | .vdiv _ _ _ _ _
  | .vmin _ _ _ _ _ | .vmax _ _ _ _ _ | .vcps _ _ _ _ _ | .vsqrt _ _ _ _ | .vrcp _ _ _ _ | .vexp2 _ _ _ _
  | .vlog2 _ _ _ _ | .vabs _ _ _ _ | .vneg _ _ _ _ | .vcmp _ _ _ _ _ _ | .vsel _ _ _ _ _ | .viadd _ _ _ _ _
  | .visub _ _ _ _ _ | .vimul _ _ _ _ _ | .vshl _ _ _ _ _ | .vshr _ _ _ _ _ | .vsar _ _ _ _ _ | .vand _ _ _ _ _
  | .vor _ _ _ _ _ | .vxor _ _ _ _ _ | .vpopc _ _ _ _ | .vclz _ _ _ _ | .vcmpInt _ _ _ _ _ _ | .vredsum _ _ _ _ _ _
  | .vredmax _ _ _ _ _ _ | .vredmin _ _ _ _ _ _ | .vmov _ _ _ | .vbcast _ _ _ | .vtrans _ _ _ | .vrotRow _ _ _ _
  | .vrotCol _ _ _ _ | .vperm _ _ _ _ | .vshapeset _ _ _ _ | .bnet _ _ _ _ _ | .bnload _ _ _ | .vlda _ _ _ _ _
  | .vsta _ _ _ _ _ | .vrand _ _ _ | .vrandF _ _ _ | .vmaskp _ _ _ | .mand _ _ _ _ | .mor _ _ _ _ | .mxor _ _ _ _
  | .mnot _ _ _ | .mpopc _ _ _ | .mfirst _ _ _ | .vqskip _ _ _ | .vecAddf _ _ _ | .vecAddfImm _ _ _
  | .vecWaitf _ _ _ | .vecWaitfImm _ _ _ | .vecGive _ _ _ _ | .vecGiveAcc _ _ _ _ | .vscalLi _ _ _
  | .vscalAdd _ _ _ _ | .vscalAddImm _ _ _ _ | .vscalSub _ _ _ _ | .vscalSubImm _ _ _ _ | .vscalShl _ _ _ _
  | .vscalShlImm _ _ _ _ | .vscalAnd _ _ _ _ | .vscalAndImm _ _ _ _ | .vscalCmp _ _ _ _ _ _
  | .vscalCmpImm _ _ _ _ _ _ | .vscalBr _ _ | .vscalBc _ _ _ _ | .vscalLoop _ _ _ | .vscalRend _ | .vscalNop _
  | .vfma _ _ _ _ _ _ | .vfms _ _ _ _ _ _ | .vnfma _ _ _ _ _ _ | .vimad _ _ _ _ _ _ | .vbfx _ _ _ _ _ _
  | .vbfi _ _ _ _ _ _ | .vfsh _ _ _ _ _ _ _ | .vcvt _ _ _ _ _ | .vbcastImm _ _ _ _ | .vld _ _ _ _ _ _ _
  | .vst _ _ _ _ _ _ _ | .vscalLi64 _ _ _ => some .vec
  | .cpy _ _ _ _ _ _ _ | .cpys _ _ _ _ _ _ _ | .chain _ _ | .chstop _ | .gather _ _ _ _ _ _ _ _
  | .scatter _ _ _ _ _ _ _ _ | .bind _ _ _ _ _ _ _ | .collAllReduce _ _ _ _ | .collAllGather _ _ _ _
  | .collReduceScatter _ _ _ _ | .nmirror _ _ _ _ _ _ _ => some .cpy
  | .mma _ _ _ _ _ _ _ _ | .mmas _ _ _ _ _ _ _ _ _ _ _ _ | .mmai _ _ _ _ _ _ _ | .mmaj _ _ _ _ _ _ _ _ _ _ _ _ _
  | .mtile _ _ _ | .mtileAddr _ _ | .mtileAdd _ _ | .mtileLd _ _ _ | .azero _ _ | .afade _ _ _ _ | .ald _ _ _ _
  | .ast _ _ _ _ _ _ _ | .aspill _ _ | .afill _ _ => some .mtx
  | .qinit _ _ _ _ _ _ _ _ | .qmap _ | .qmapSt _ | .qldg _ _ _ _ | .qgate _ _ _ | .qdiag _ _ _ | .qswap _ _
  | .qperm _ | .qprob _ _ _ _ | .qnorm _ _ | .qsample _ _ _ | .qscale _ | .qsync => some .ast
  | .addf64 e _ _ | .waitf64 e _ _ | .give64 e _ _ => some (match e with | .mtx => .mtx | .cpy => .cpy)
  | .scalLi e _ _ | .scalAdd e _ _ _ | .scalSub e _ _ _ | .scalShl e _ _ _ | .scalAnd e _ _ _ | .scalCmp e _ _ _ _ _
  | .scalBr e _ | .scalBc e _ _ _ | .scalLoop e _ _ | .scalRend e | .scalNop e =>
    some (match e with | .mtx => .mtx | .cpy => .cpy | .ast => .ast)
  | _ => none

/-- Operand bits of a flag word: `I` and `IMM32[31:7]` above it, and the register `RA` (06 R242). -/
def encFlagSrc : FlagSrc → BitVec 26 × BitVec 5
  | .reg a => (0x0#25 ++ 0x0#1, a)
  | .imm v => (v ++ 0x1#1, 0)

/-- A flag word (06 R242). -/
def encFlag64 (maj : BitVec 7) (f : BitVec 6) (o : FlagSrc) : BitVec 64 :=
  (encFlagSrc o).1 ++ f ++ 0x0#15 ++ (encFlagSrc o).2 ++ 0x0#5 ++ maj

/-- Second operand of a scalar word: `IMM32[31:16]`, the bit `I` and `RB` (06 R243). -/
def encOpd16 : Opd16 → BitVec 16 × BitVec 1 × BitVec 5
  | .reg b => (0, 0, b)
  | .imm i => (i, 1, 0)

/-- A word of major 0x19 (06 R243). -/
def encArith64 (fn : BitVec 2) (d a : BitVec 5) (o : Opd16) : BitVec 64 :=
  (encOpd16 o).1 ++ 0x0#13 ++ (encOpd16 o).2.1 ++ fn ++ 0x0#10 ++ (encOpd16 o).2.2 ++ a ++ d ++ 0x19#7

/-- `RF` and `INIT` (09 R304). -/
def encInit : Init → BitVec 5 × BitVec 2
  | .keep => (0, 0)
  | .zero => (0, 1)
  | .fade r => (r, 2)

/-- `STAMP` and `STV` (09 R304). -/
def encStamp : Option (BitVec 20) → BitVec 20 × BitVec 1
  | none => (0, 0)
  | some s => (s, 1)

/-- A word of format MC (09 R304). -/
def encMc (maj : BitVec 7) (scl : BitVec 1) (acc da db sa sb : BitVec 4) (init : Init) (mode : BitVec 3)
    (sat flush ksel rel : BitVec 1) (stamp : Option (BitVec 20)) : BitVec 64 :=
  (encStamp stamp).1 ++ 0x0#1 ++ (encInit init).1 ++ ksel ++ flush ++ sat ++ mode ++ (encStamp stamp).2 ++ rel
    ++ (encInit init).2 ++ sb ++ sa ++ db ++ da ++ acc ++ scl ++ maj

/-- The word of an instruction, from the same encoding tables; none for an event. The thirteen near-memory rows
share the word `NMC` (11 R381), the three collectives the word `COLL` (06 R240), and `RKEY_WRITE` and `NFD_WRITE`
are words `CSRW` (04 R160). -/
def encode (i : Instr) : Option Code :=
  match i with
  | .add d a b => some (.w32 (0x1#7 ++ d ++ a ++ b ++ 0x0#7))
  | .sub d a b => some (.w32 (0x1#7 ++ d ++ a ++ b ++ 0x1#7))
  | .mul d a b => some (.w32 (0x1#7 ++ d ++ a ++ b ++ 0x2#7))
  | .mulhI64 d a b => some (.w32 (0x1#7 ++ d ++ a ++ b ++ 0x3#7))
  | .mulhN64 d a b => some (.w32 (0x1#7 ++ d ++ a ++ b ++ 0x4#7))
  | .divI64 d a b => some (.w32 (0x1#7 ++ d ++ a ++ b ++ 0x5#7))
  | .divN64 d a b => some (.w32 (0x1#7 ++ d ++ a ++ b ++ 0x6#7))
  | .remI64 d a b => some (.w32 (0x1#7 ++ d ++ a ++ b ++ 0x7#7))
  | .remN64 d a b => some (.w32 (0x1#7 ++ d ++ a ++ b ++ 0x8#7))
  | .and d a b => some (.w32 (0x1#7 ++ d ++ a ++ b ++ 0x9#7))
  | .or d a b => some (.w32 (0x1#7 ++ d ++ a ++ b ++ 0xa#7))
  | .xor d a b => some (.w32 (0x1#7 ++ d ++ a ++ b ++ 0xb#7))
  | .andn d a b => some (.w32 (0x1#7 ++ d ++ a ++ b ++ 0xc#7))
  | .shl d a b => some (.w32 (0x1#7 ++ d ++ a ++ b ++ 0xd#7))
  | .shr d a b => some (.w32 (0x1#7 ++ d ++ a ++ b ++ 0xe#7))
  | .sar d a b => some (.w32 (0x1#7 ++ d ++ a ++ b ++ 0xf#7))
  | .rol d a b => some (.w32 (0x1#7 ++ d ++ a ++ b ++ 0x10#7))
  | .minI64 d a b => some (.w32 (0x1#7 ++ d ++ a ++ b ++ 0x11#7))
  | .minN64 d a b => some (.w32 (0x1#7 ++ d ++ a ++ b ++ 0x12#7))
  | .maxI64 d a b => some (.w32 (0x1#7 ++ d ++ a ++ b ++ 0x13#7))
  | .maxN64 d a b => some (.w32 (0x1#7 ++ d ++ a ++ b ++ 0x14#7))
  | .clz d a => some (.w32 (0x1#7 ++ d ++ a ++ 0x15#13))
  | .ctz d a => some (.w32 (0x1#7 ++ d ++ a ++ 0x16#13))
  | .popc d a => some (.w32 (0x1#7 ++ d ++ a ++ 0x17#13))
  | .movXP d n => some (.w32 (0x1#7 ++ d ++ 0x0#3 ++ n ++ 0x18#13))
  | .movPX p a => some (.w32 (0x8#10 ++ p ++ a ++ 0x19#13))
  | .addImm d a i => some (.w32 (0x2#7 ++ d ++ a ++ i))
  | .mulImm d a i => some (.w32 (0x3#7 ++ d ++ a ++ i))
  | .andImm d a i => some (.w32 (0x4#7 ++ d ++ a ++ i))
  | .orImm d a i => some (.w32 (0x5#7 ++ d ++ a ++ i))
  | .xorImm d a i => some (.w32 (0x6#7 ++ d ++ a ++ i))
  | .shlImm d a h => some (.w32 (0x7#7 ++ d ++ a ++ 0x0#7 ++ h))
  | .shrImm d a h => some (.w32 (0x7#7 ++ d ++ a ++ 0x20#7 ++ h))
  | .sarImm d a h => some (.w32 (0x7#7 ++ d ++ a ++ 0x40#7 ++ h))
  | .rolImm d a h => some (.w32 (0x7#7 ++ d ++ a ++ 0x60#7 ++ h))
  | .cmp p c a b u => some (.w32 (0x8#7 ++ p ++ c ++ a ++ b ++ u ++ 0x0#6))
  | .cmpImm p c a u i => some (.w32 (0x9#7 ++ p ++ c ++ a ++ u ++ i))
  | .sel d a b p => some (.w32 (0xa#7 ++ d ++ a ++ b ++ p ++ 0x0#4))
  | .li d i => some (.w32 (0xb#7 ++ d ++ i))
  | .lih d h i => some (.w32 (0xc#7 ++ d ++ h ++ 0x0#1 ++ i))
  | .bfx d a b c s => some (.w32 (0xd#7 ++ d ++ a ++ b ++ c ++ s))
  | .bfi d a b c s => some (.w32 (0xe#7 ++ d ++ a ++ b ++ c ++ s))
  | .fsh d a b c s => some (.w32 (0xf#7 ++ d ++ a ++ b ++ c ++ s))
  | .br o => some (.w32 (0x10#7 ++ o))
  | .call d o => some (.w32 (0x11#7 ++ d ++ o))
  | .bc p n o => some (.w32 (0x12#7 ++ p ++ n ++ o))
  | .loop a o => some (.w32 (0x13#7 ++ a ++ o))
  | .ret a => some (.w32 (0x500#13 ++ a ++ 0x0#13))
  | .ld d a t u o => some (.w32 (0x18#7 ++ d ++ a ++ t ++ u ++ o))
  | .ldIndex d a b t u => some (.w32 (0x19#7 ++ d ++ a ++ b ++ t ++ u ++ 0x0#2))
  | .st s a t u o => some (.w32 (0x1a#7 ++ s ++ a ++ t ++ u ++ o))
  | .stIndex s a b t u => some (.w32 (0x1b#7 ++ s ++ a ++ b ++ t ++ u ++ 0x0#2))
  | .redAdd v a t s => some (.w32 (0x1c#7 ++ v ++ a ++ 0x0#3 ++ t ++ s ++ 0x0#3))
  | .redMin v a t s => some (.w32 (0x1c#7 ++ v ++ a ++ 0x1#3 ++ t ++ s ++ 0x0#3))
  | .redMax v a t s => some (.w32 (0x1c#7 ++ v ++ a ++ 0x2#3 ++ t ++ s ++ 0x0#3))
  | .redAnd v a t s => some (.w32 (0x1c#7 ++ v ++ a ++ 0x3#3 ++ t ++ s ++ 0x0#3))
  | .redOr v a t s => some (.w32 (0x1c#7 ++ v ++ a ++ 0x4#3 ++ t ++ s ++ 0x0#3))
  | .redXor v a t s => some (.w32 (0x1c#7 ++ v ++ a ++ 0x5#3 ++ t ++ s ++ 0x0#3))
  | .fork k => some (.w32 (0x4000000#28 ++ k))
  | .join => some (.w32 (0x42000000#32))
  | .rend => some (.w32 (0x44000000#32))
  | .addf f a => some (.w32 (0x23#7 ++ f ++ 0x0#1 ++ a ++ 0x0#12))
  | .addfImm f i => some (.w32 (0x23#7 ++ f ++ 0x1#1 ++ i))
  | .give f a b => some (.w32 (0x24#7 ++ f ++ 0x0#1 ++ a ++ b ++ 0x0#6))
  | .giveAcc f c n => some (.w32 (0x24#7 ++ f ++ 0x1#1 ++ c ++ n ++ 0x0#10))
  | .waitf f a => some (.w32 (0x25#7 ++ f ++ 0x0#1 ++ a ++ 0x0#12))
  | .waitfImm f i => some (.w32 (0x25#7 ++ f ++ 0x1#1 ++ i))
  | .flagcfg f k c r => some (.w32 (0x26#7 ++ f ++ k ++ c ++ r ++ 0x0#14))
  | .fstat d f => some (.w32 (0x27#7 ++ d ++ f ++ 0x0#13))
  | .ssync d a s => some (.w32 (0x28#7 ++ d ++ a ++ s ++ 0x0#10))
  | .tokpass a b s => some (.w32 (0xa40#13 ++ a ++ b ++ s ++ 0x0#4))
  | .mfence d s e => some (.w32 (0x2a#7 ++ d ++ 0x0#6 ++ s ++ e ++ 0x0#7))
  | .chron d => some (.w32 (0x2b#7 ++ d ++ 0x0#19))
  | .ipf a b l => some (.w32 (0xb00#13 ++ a ++ b ++ l ++ 0x0#6))
  | .ipin d a b => some (.w32 (0x2d#7 ++ d ++ a ++ b ++ 0x0#7))
  | .iunpin a b => some (.w32 (0xb80#13 ++ a ++ b ++ 0x0#7))
  | .csrr d c => some (.w32 (0x30#7 ++ d ++ 0x0#7 ++ c))
  | .csrw a c => some (.w32 (0xc40#13 ++ a ++ 0x0#1 ++ c))
  | .trap a c => some (.w32 (0xc80#13 ++ a ++ c))
  | .eret => some (.w32 (0x66000000#32))
  | .launch f a => some (.w32 (0x34#7 ++ f ++ a ++ 0x0#13))
  | .wincfg w a => some (.w32 (0x40#7 ++ w ++ 0x0#2 ++ a ++ 0x0#13))
  | .winoff w => some (.w32 (0x41#7 ++ w ++ 0x0#21))
  | .winq d a => some (.w32 (0x42#7 ++ d ++ a ++ 0x0#13))
  | .tlbinv a b s => some (.w32 (0x1200#13 ++ a ++ b ++ s ++ 0x0#4))
  | .tlbinvr c a b s => some (.w32 (0x48#7 ++ c ++ a ++ b ++ s ++ 0x8#4))
  | .pgsplit c a b z => some (.w32 (0x49#7 ++ c ++ a ++ b ++ z ++ 0x0#4))
  | .pgdup c a b => some (.w32 (0x4a#7 ++ c ++ a ++ b ++ 0x0#7))
  | .pgcoll c a b w => some (.w32 (0x4b#7 ++ c ++ a ++ b ++ 0x0#3 ++ w ++ 0x0#3))
  | .pgmove c a b f => some (.w32 (0x4c#7 ++ c ++ a ++ b ++ 0x0#3 ++ f ++ 0x0#3))
  | .pgprot c a b => some (.w32 (0x4d#7 ++ c ++ a ++ b ++ 0x0#7))
  | .walkstat d a b => some (.w32 (0x4e#7 ++ d ++ a ++ b ++ 0x0#7))
  | .keyret a => some (.w32 (0x13c0#13 ++ a ++ 0x0#13))
  | .publish a s => some (.w32 (0x1400#13 ++ a ++ s ++ 0x0#10))
  | .pubwait d => some (.w32 (0x51#7 ++ d ++ 0x0#19))
  | .reftag a o => some (.w32 (0x1480#13 ++ a ++ o))
  | .stref s a o => some (.w32 (0x53#7 ++ s ++ a ++ o))
  | .refclr a o => some (.w32 (0x1500#13 ++ a ++ o))
  | .objinit a b c => some (.w32 (0x1540#13 ++ a ++ b ++ c ++ 0x0#5))
  | .retract a => some (.w32 (0x1580#13 ++ a ++ 0x0#13))
  | .txopen => some (.w32 (0xb0000000#32))
  | .txvote a b => some (.w32 (0x1640#13 ++ a ++ b ++ 0x0#7))
  | .txwait d => some (.w32 (0x5a#7 ++ d ++ 0x0#19))
  | .txstat d => some (.w32 (0x5b#7 ++ d ++ 0x0#19))
  | .txkey d => some (.w32 (0x5c#7 ++ d ++ 0x0#19))
  | .txseqStep d => some (.w32 (0x5d#7 ++ d ++ 0x0#19))
  | .txseqCbase d => some (.w32 (0x5d#7 ++ d ++ 0x1#19))
  | .txseqQbase d => some (.w32 (0x5d#7 ++ d ++ 0x2#19))
  | .txseqCount d => some (.w32 (0x5d#7 ++ d ++ 0x3#19))
  | .txclose => some (.w32 (0xbc000000#32))
  | .nmSgdf d a b c => some (.w32 (0x60#7 ++ d ++ a ++ b ++ c ++ 0x0#1))
  | .nmfence d s => some (.w32 (0x61#7 ++ d ++ 0x0#6 ++ s ++ 0x0#10))
  | .nmfenceArray d s => some (.w32 (0x61#7 ++ d ++ 0x0#6 ++ s ++ 0x200#10))
  | .nmMom d a b c => some (.w32 (0x60#7 ++ d ++ a ++ b ++ c ++ 0x0#1))
  | .nmAdamw d a b c => some (.w32 (0x60#7 ++ d ++ a ++ b ++ c ++ 0x0#1))
  | .nmAxpy d a b c => some (.w32 (0x60#7 ++ d ++ a ++ b ++ c ++ 0x0#1))
  | .nmScale d a b c => some (.w32 (0x60#7 ++ d ++ a ++ b ++ c ++ 0x0#1))
  | .nmFill d a b c => some (.w32 (0x60#7 ++ d ++ a ++ b ++ c ++ 0x0#1))
  | .nmCopy d a b c => some (.w32 (0x60#7 ++ d ++ a ++ b ++ c ++ 0x0#1))
  | .nmCast d a b c => some (.w32 (0x60#7 ++ d ++ a ++ b ++ c ++ 0x0#1))
  | .nmClamp d a b c => some (.w32 (0x60#7 ++ d ++ a ++ b ++ c ++ 0x0#1))
  | .nmRecode d a b c => some (.w32 (0x60#7 ++ d ++ a ++ b ++ c ++ 0x0#1))
  | .nmScrub d a b c => some (.w32 (0x60#7 ++ d ++ a ++ b ++ c ++ 0x0#1))
  | .nmFold d a b c => some (.w32 (0x60#7 ++ d ++ a ++ b ++ c ++ 0x0#1))
  | .nmCkpt d a b c => some (.w32 (0x60#7 ++ d ++ a ++ b ++ c ++ 0x0#1))
  | .rkeyWrite a => some (.w32 (0x31#7 ++ 0x0#6 ++ a ++ 0x0#1 ++ 0x048#12))
  | .nfdWrite k a => some (.w32 (0x31#7 ++ 0x0#6 ++ a ++ 0x0#1 ++ 0x008#9 ++ k))
  | .pfxRnd k f s m t => some (.w32 (0x0#17 ++ k ++ f ++ s ++ m ++ 0x3f#7 ++ t ++ 0x0#1))
  | .pfxMsk z k t => some (.w32 (0x0#19 ++ z ++ k ++ 0x7f#7 ++ t ++ 0x0#1))
  | .vadd d a b y t => some (.w32 (d ++ a ++ b ++ y ++ 0x1#10 ++ t ++ 0x0#1))
  | .vsub d a b y t => some (.w32 (d ++ a ++ b ++ y ++ 0x41#10 ++ t ++ 0x0#1))
  | .vmul d a b y t => some (.w32 (d ++ a ++ b ++ y ++ 0x81#10 ++ t ++ 0x0#1))
  | .vdiv d a b y t => some (.w32 (d ++ a ++ b ++ y ++ 0xc1#10 ++ t ++ 0x0#1))
  | .vmin d a b y t => some (.w32 (d ++ a ++ b ++ y ++ 0x101#10 ++ t ++ 0x0#1))
  | .vmax d a b y t => some (.w32 (d ++ a ++ b ++ y ++ 0x141#10 ++ t ++ 0x0#1))
  | .vcps d a b y t => some (.w32 (d ++ a ++ b ++ y ++ 0x181#10 ++ t ++ 0x0#1))
  | .vsqrt d a y t => some (.w32 (d ++ a ++ 0x0#6 ++ y ++ 0x2#10 ++ t ++ 0x0#1))
  | .vrcp d a y t => some (.w32 (d ++ a ++ 0x0#6 ++ y ++ 0x42#10 ++ t ++ 0x0#1))
  | .vexp2 d a y t => some (.w32 (d ++ a ++ 0x0#6 ++ y ++ 0x82#10 ++ t ++ 0x0#1))
  | .vlog2 d a y t => some (.w32 (d ++ a ++ 0x0#6 ++ y ++ 0xc2#10 ++ t ++ 0x0#1))
  | .vabs d a y t => some (.w32 (d ++ a ++ 0x0#6 ++ y ++ 0x102#10 ++ t ++ 0x0#1))
  | .vneg d a y t => some (.w32 (d ++ a ++ 0x0#6 ++ y ++ 0x142#10 ++ t ++ 0x0#1))
  | .vcmp m a b y c t => some (.w32 (m ++ 0x0#2 ++ a ++ b ++ y ++ c ++ 0x3#6 ++ t ++ 0x0#1))
  | .vsel d a b k t => some (.w32 (d ++ a ++ b ++ k ++ 0x4#10 ++ t ++ 0x0#1))
  | .viadd d a b y t => some (.w32 (d ++ a ++ b ++ y ++ 0x5#10 ++ t ++ 0x0#1))
  | .visub d a b y t => some (.w32 (d ++ a ++ b ++ y ++ 0x45#10 ++ t ++ 0x0#1))
  | .vimul d a b y t => some (.w32 (d ++ a ++ b ++ y ++ 0x85#10 ++ t ++ 0x0#1))
  | .vshl d a b y t => some (.w32 (d ++ a ++ b ++ y ++ 0xc5#10 ++ t ++ 0x0#1))
  | .vshr d a b y t => some (.w32 (d ++ a ++ b ++ y ++ 0x105#10 ++ t ++ 0x0#1))
  | .vsar d a b y t => some (.w32 (d ++ a ++ b ++ y ++ 0x145#10 ++ t ++ 0x0#1))
  | .vand d a b y t => some (.w32 (d ++ a ++ b ++ y ++ 0x185#10 ++ t ++ 0x0#1))
  | .vor d a b y t => some (.w32 (d ++ a ++ b ++ y ++ 0x1c5#10 ++ t ++ 0x0#1))
  | .vxor d a b y t => some (.w32 (d ++ a ++ b ++ y ++ 0x205#10 ++ t ++ 0x0#1))
  | .vpopc d a y t => some (.w32 (d ++ a ++ 0x0#6 ++ y ++ 0x6#10 ++ t ++ 0x0#1))
  | .vclz d a y t => some (.w32 (d ++ a ++ 0x0#6 ++ y ++ 0x46#10 ++ t ++ 0x0#1))
  | .vcmpInt m a b y c t => some (.w32 (m ++ 0x0#2 ++ a ++ b ++ y ++ c ++ 0x7#6 ++ t ++ 0x0#1))
  | .vredsum d a y g r t => some (.w32 (d ++ a ++ 0x0#6 ++ y ++ g ++ 0x0#2 ++ r ++ 0xc#6 ++ t ++ 0x0#1))
  | .vredmax d a y g r t => some (.w32 (d ++ a ++ 0x0#6 ++ y ++ g ++ 0x1#2 ++ r ++ 0xc#6 ++ t ++ 0x0#1))
  | .vredmin d a y g r t => some (.w32 (d ++ a ++ 0x0#6 ++ y ++ g ++ 0x2#2 ++ r ++ 0xc#6 ++ t ++ 0x0#1))
  | .vmov d a t => some (.w32 (d ++ a ++ 0xd#19 ++ t ++ 0x0#1))
  | .vbcast d s t => some (.w32 (d ++ 0x0#6 ++ s ++ 0x4d#14 ++ t ++ 0x0#1))
  | .vtrans d a t => some (.w32 (d ++ a ++ 0x8d#19 ++ t ++ 0x0#1))
  | .vrotRow d a s t => some (.w32 (d ++ a ++ s ++ 0xcd#14 ++ t ++ 0x0#1))
  | .vrotCol d a s t => some (.w32 (d ++ a ++ s ++ 0x10d#14 ++ t ++ 0x0#1))
  | .vperm d a b t => some (.w32 (d ++ a ++ b ++ 0x14d#13 ++ t ++ 0x0#1))
  | .vshapeset r c w t => some (.w32 (r ++ c ++ w ++ 0xf#9 ++ t ++ 0x0#1))
  | .bnet d a b p t => some (.w32 (d ++ a ++ b ++ p ++ 0x10#10 ++ t ++ 0x0#1))
  | .bnload a p t => some (.w32 (0x0#5 ++ a ++ 0x0#6 ++ p ++ 0x11#10 ++ t ++ 0x0#1))
  | .vlda d c r k t => some (.w32 (d ++ c ++ r ++ k ++ 0x14#9 ++ t ++ 0x0#1))
  | .vsta d c r k t => some (.w32 (d ++ c ++ r ++ k ++ 0x114#9 ++ t ++ 0x0#1))
  | .vrand d y t => some (.w32 (d ++ 0x0#12 ++ y ++ 0x15#10 ++ t ++ 0x0#1))
  | .vrandF d y t => some (.w32 (d ++ 0x0#12 ++ y ++ 0x55#10 ++ t ++ 0x0#1))
  | .vmaskp m s t => some (.w32 (m ++ 0x0#2 ++ s ++ 0x95#20 ++ t ++ 0x0#1))
  | .mand d a b t => some (.w32 (d ++ 0x0#2 ++ a ++ b ++ 0x16#19 ++ t ++ 0x0#1))
  | .mor d a b t => some (.w32 (d ++ 0x0#2 ++ a ++ b ++ 0x56#19 ++ t ++ 0x0#1))
  | .mxor d a b t => some (.w32 (d ++ 0x0#2 ++ a ++ b ++ 0x96#19 ++ t ++ 0x0#1))
  | .mnot d a t => some (.w32 (d ++ 0x0#2 ++ a ++ 0xd6#22 ++ t ++ 0x0#1))
  | .mpopc d a t => some (.w32 (d ++ a ++ 0x116#22 ++ t ++ 0x0#1))
  | .mfirst d a t => some (.w32 (d ++ a ++ 0x156#22 ++ t ++ 0x0#1))
  | .vqskip q c t => some (.w32 (q ++ 0x0#15 ++ c ++ 0x17#6 ++ t ++ 0x0#1))
  | .vecAddf f a t => some (.w32 (f ++ 0x0#1 ++ a ++ 0x19#18 ++ t ++ 0x0#1))
  | .vecAddfImm f i t => some (.w32 (f ++ 0x1#1 ++ i ++ 0x19#6 ++ t ++ 0x0#1))
  | .vecWaitf f a t => some (.w32 (f ++ 0x0#1 ++ a ++ 0x1a#18 ++ t ++ 0x0#1))
  | .vecWaitfImm f i t => some (.w32 (f ++ 0x1#1 ++ i ++ 0x1a#6 ++ t ++ 0x0#1))
  | .vecGive f a b t => some (.w32 (f ++ 0x0#1 ++ a ++ b ++ 0x1b#13 ++ t ++ 0x0#1))
  | .vecGiveAcc f c n t => some (.w32 (f ++ 0x1#1 ++ c ++ n ++ 0x1b#15 ++ t ++ 0x0#1))
  | .vscalLi d i t => some (.w32 (d ++ i ++ 0x20#6 ++ t ++ 0x0#1))
  | .vscalAdd d a b t => some (.w32 (d ++ a ++ 0x0#3 ++ b ++ 0x21#12 ++ t ++ 0x0#1))
  | .vscalAddImm d a i t => some (.w32 (d ++ a ++ 0x4#3 ++ i ++ 0x21#6 ++ t ++ 0x0#1))
  | .vscalSub d a b t => some (.w32 (d ++ a ++ 0x1#3 ++ b ++ 0x21#12 ++ t ++ 0x0#1))
  | .vscalSubImm d a i t => some (.w32 (d ++ a ++ 0x5#3 ++ i ++ 0x21#6 ++ t ++ 0x0#1))
  | .vscalShl d a b t => some (.w32 (d ++ a ++ 0x2#3 ++ b ++ 0x21#12 ++ t ++ 0x0#1))
  | .vscalShlImm d a i t => some (.w32 (d ++ a ++ 0xc0#8 ++ i ++ 0x21#6 ++ t ++ 0x0#1))
  | .vscalAnd d a b t => some (.w32 (d ++ a ++ 0x3#3 ++ b ++ 0x21#12 ++ t ++ 0x0#1))
  | .vscalAndImm d a i t => some (.w32 (d ++ a ++ 0x7#3 ++ i ++ 0x21#6 ++ t ++ 0x0#1))
  | .vscalCmp p c u a b t => some (.w32 (p ++ c ++ u ++ a ++ 0x0#1 ++ b ++ 0x22#12 ++ t ++ 0x0#1))
  | .vscalCmpImm p c u a i t => some (.w32 (p ++ c ++ u ++ a ++ 0x1#1 ++ i ++ 0x22#6 ++ t ++ 0x0#1))
  | .vscalBr o t => some (.w32 (o ++ 0x23#6 ++ t ++ 0x0#1))
  | .vscalBc p n o t => some (.w32 (p ++ n ++ o ++ 0x24#6 ++ t ++ 0x0#1))
  | .vscalLoop a o t => some (.w32 (a ++ o ++ 0x25#6 ++ t ++ 0x0#1))
  | .vscalRend t => some (.w32 (0x26#30 ++ t ++ 0x0#1))
  | .vscalNop t => some (.w32 (0x27#30 ++ t ++ 0x0#1))
  | .vfma d a b c y t => some (.w64 (c ++ 0x0#26 ++ d ++ a ++ b ++ y ++ 0x0#4 ++ 0x8#6 ++ t ++ 0x1#1))
  | .vfms d a b c y t => some (.w64 (c ++ 0x0#26 ++ d ++ a ++ b ++ y ++ 0x1#4 ++ 0x8#6 ++ t ++ 0x1#1))
  | .vnfma d a b c y t => some (.w64 (c ++ 0x0#26 ++ d ++ a ++ b ++ y ++ 0x2#4 ++ 0x8#6 ++ t ++ 0x1#1))
  | .vimad d a b c y t => some (.w64 (c ++ 0x0#26 ++ d ++ a ++ b ++ y ++ 0x0#4 ++ 0x9#6 ++ t ++ 0x1#1))
  | .vbfx d a y o k t => some (.w64 (o ++ k ++ 0x0#19 ++ d ++ a ++ 0x0#6 ++ y ++ 0x0#4 ++ 0xa#6 ++ t ++ 0x1#1))
  | .vbfi d a y o k t => some (.w64 (o ++ k ++ 0x0#19 ++ d ++ a ++ 0x0#6 ++ y ++ 0x1#4 ++ 0xa#6 ++ t ++ 0x1#1))
  | .vfsh d a b y o k t => some (.w64 (o ++ k ++ 0x0#19 ++ d ++ a ++ b ++ y ++ 0x2#4 ++ 0xa#6 ++ t ++ 0x1#1))
  | .vcvt d a dt s t => some (.w64 (dt ++ s ++ 0x0#22 ++ d ++ a ++ 0x0#13 ++ 0xb#6 ++ t ++ 0x1#1))
  | .vbcastImm d i h t => some (.w64 (fld i 19 13 ++ h ++ 0x0#18 ++ d ++ fld i 0 19 ++ 0xe#6 ++ t ++ 0x1#1))
  | .vld d a s w u o t => some (.w64 (o ++ 0x0#12 ++ d ++ a ++ s ++ w ++ u ++ 0x0#5 ++ 0x12#6 ++ t ++ 0x1#1))
  | .vst d a s w u o t => some (.w64 (o ++ 0x0#12 ++ d ++ a ++ s ++ w ++ u ++ 0x0#5 ++ 0x13#6 ++ t ++ 0x1#1))
  | .vscalLi64 d i t => some (.w64 (fld i 19 30 ++ 0x0#2 ++ d ++ fld i 0 19 ++ 0x20#6 ++ t ++ 0x1#1))
  | .cpy sc u d a b ev k => some (.w64 (0x0#17 ++ k ++ ev ++ u ++ sc ++ 0x0#5 ++ b ++ a ++ d ++ 0x1#7))
  | .cpys sc u d a b c s => some (.w64 (0x0#12 ++ s ++ u ++ sc ++ c ++ b ++ a ++ d ++ 0x2#7))
  | .chain n a => some (.w64 (0x0#47 ++ a ++ 0x0#2 ++ n ++ 0x3#7))
  | .chstop n => some (.w64 (0x0#52 ++ 0x0#2 ++ n ++ 0x4#7))
  | .gather sc u d a b c w ev => some (.w64 (0x0#7 ++ ev ++ w ++ u ++ sc ++ c ++ b ++ a ++ d ++ 0x5#7))
  | .scatter sc u d a b c w ev => some (.w64 (0x0#7 ++ ev ++ w ++ u ++ sc ++ c ++ b ++ a ++ d ++ 0x6#7))
  | .bind sc u n a b w ev => some (.w64 (0x0#7 ++ ev ++ w ++ u ++ sc ++ 0x0#5 ++ b ++ a ++ 0x0#2 ++ n ++ 0x7#7))
  | .collAllReduce sc u a ev | .collAllGather sc u a ev | .collReduceScatter sc u a ev =>
    some (.w64 (0x0#18 ++ ev ++ u ++ sc ++ 0x0#10 ++ a ++ 0x0#5 ++ 0x8#7))
  | .nmirror sc u d a b c ev => some (.w64 (0x0#18 ++ ev ++ u ++ sc ++ c ++ b ++ a ++ d ++ 0x9#7))
  | .addf64 _ f o => some (.w64 (encFlag64 0x10 f o))
  | .waitf64 _ f o => some (.w64 (encFlag64 0x11 f o))
  | .give64 _ f (.pad a b) => some (.w64 (0x0#25 ++ 0x0#1 ++ f ++ 0x0#10 ++ b ++ a ++ 0x0#5 ++ 0x12#7))
  | .give64 _ f (.acc n c) => some (.w64 (0x0#17 ++ c ++ n ++ 0x1#1 ++ f ++ 0x0#25 ++ 0x12#7))
  | .scalLi _ d i => some (.w64 (i ++ 0x0#20 ++ d ++ 0x18#7))
  | .scalAdd _ d a o => some (.w64 (encArith64 0 d a o))
  | .scalSub _ d a o => some (.w64 (encArith64 1 d a o))
  | .scalShl _ d a o => some (.w64 (encArith64 2 d a o))
  | .scalAnd _ d a o => some (.w64 (encArith64 3 d a o))
  | .scalCmp _ p c u a o => some (.w64 ((encOpd16 o).1 ++ 0x0#11 ++ (encOpd16 o).2.1 ++ u ++ c ++ 0x0#10
      ++ (encOpd16 o).2.2 ++ a ++ 0x0#2 ++ p ++ 0x1a#7))
  | .scalBr _ o => some (.w64 (o ++ 0x0#25 ++ 0x1b#7))
  | .scalBc _ p n o => some (.w64 (o ++ 0x0#20 ++ 0x0#1 ++ n ++ p ++ 0x1c#7))
  | .scalLoop _ a o => some (.w64 (o ++ 0x0#15 ++ a ++ 0x0#5 ++ 0x1d#7))
  | .scalRend _ => some (.w64 (0x0#57 ++ 0x1e#7))
  | .scalNop _ => some (.w64 (0x0#57 ++ 0x1f#7))
  | .mma acc da db init sat flush rel stamp => some (.w64 (encMc 0x1 0 acc da db 0 0 init 0 sat flush 0 rel stamp))
  | .mmas acc da db sa sb init mode sat flush ksel rel stamp =>
    some (.w64 (encMc 0x2 0 acc da db sa sb init mode sat flush ksel rel stamp))
  | .mmai acc da db init sat rel stamp => some (.w64 (encMc 0x3 0 acc da db 0 0 init 0 sat 0 0 rel stamp))
  | .mmaj scl acc da db sa sb init mode sat flush ksel rel stamp =>
    some (.w64 (encMc 0x4 scl acc da db sa sb init mode sat flush ksel rel stamp))
  | .mtile d a b => some (.w64 (0x0#42 ++ b ++ a ++ 0x0#1 ++ d ++ 0x5#7))
  | .mtileAddr d a => some (.w64 (0x0#30 ++ 0x1#2 ++ 0x0#15 ++ a ++ 0x0#1 ++ d ++ 0x5#7))
  | .mtileAdd d a => some (.w64 (0x0#30 ++ 0x2#2 ++ 0x0#15 ++ a ++ 0x0#1 ++ d ++ 0x5#7))
  | .mtileLd d a o => some (.w64 (o ++ 0x0#14 ++ 0x3#2 ++ 0x0#15 ++ a ++ 0x0#1 ++ d ++ 0x5#7))
  | .azero n c => some (.w64 (0x0#28 ++ c ++ 0x0#20 ++ 0x0#1 ++ n ++ 0x6#7))
  | .afade n a sat flush => some (.w64 (0x0#23 ++ flush ++ sat ++ 0x0#7 ++ 0x0#15 ++ a ++ 0x0#1 ++ n ++ 0x7#7))
  | .ald n ds flush ia => some (.w64 (0x0#21 ++ ia ++ 0x0#1 ++ flush ++ 0x0#4 ++ ds ++ 0x0#21 ++ n ++ 0x8#7))
  | .ast n ds mode sat flush ksel ia =>
    some (.w64 (0x0#21 ++ ia ++ ksel ++ flush ++ sat ++ mode ++ ds ++ 0x0#21 ++ n ++ 0x9#7))
  | .aspill n a => some (.w64 (0x0#47 ++ a ++ 0x0#1 ++ n ++ 0xa#7))
  | .afill n a => some (.w64 (0x0#47 ++ a ++ 0x0#1 ++ n ++ 0xb#7))
  | .qinit a b c n ndb npb ty z =>
    some (.w64 (0x0#18 ++ z ++ ty ++ npb ++ ndb ++ n ++ 0x0#5 ++ c ++ b ++ a ++ 0x0#5 ++ 0x1#7))
  | .qmap a => some (.w64 (0x0#47 ++ a ++ 0x0#5 ++ 0x2#7))
  | .qmapSt a => some (.w64 (0x0#31 ++ 0x1#1 ++ 0x0#15 ++ a ++ 0x0#5 ++ 0x2#7))
  | .qldg g a k ty => some (.w64 (0x0#29 ++ ty ++ k ++ 0x0#2 ++ g ++ 0x0#10 ++ a ++ 0x0#5 ++ 0x3#7))
  | .qgate g a b => some (.w64 (0x0#34 ++ g ++ 0x0#5 ++ b ++ a ++ 0x0#5 ++ 0x4#7))
  | .qdiag g a b => some (.w64 (0x0#34 ++ g ++ 0x0#5 ++ b ++ a ++ 0x0#5 ++ 0x5#7))
  | .qswap a b => some (.w64 (0x0#42 ++ b ++ a ++ 0x0#5 ++ 0x6#7))
  | .qperm a => some (.w64 (0x0#47 ++ a ++ 0x0#5 ++ 0x7#7))
  | .qprob d a b c => some (.w64 (0x0#37 ++ c ++ b ++ a ++ d ++ 0x8#7))
  | .qnorm d c => some (.w64 (0x0#37 ++ c ++ 0x0#10 ++ d ++ 0x9#7))
  | .qsample d a c => some (.w64 (0x0#37 ++ c ++ 0x0#5 ++ a ++ d ++ 0xa#7))
  | .qscale a => some (.w64 (0x0#47 ++ a ++ 0x0#5 ++ 0xb#7))
  | .qsync => some (.w64 0xc#64)
  | .pageWalk _ _ _ | .reachWalkComplete | .nmComplete | .chainRecordRun _ | .copyRelease _ | .copyDelivery _
  | .streamEntryArrival _ | .stampedIssue _ _ | .collectiveRun _ _ _ | .matrixCommandRun _
  | .astroCollectiveRun _ _ _ | .hostSubmit _ _ | .jobAdmission | .barrierRelease _ _ _ | .exchangeEnd
  | .preemptRequest _ | .preemptTimeout _ | .spilledJobResume _ | .timeLimit _ | .deadlock | .faultFrameWrite
  | .resume _ | .aresume _ | .areaLimitWrite _ _ | .firmwareStart _ | .redApply | .chronAlign _ _
  | .carafeRead _ _ _ _ | .carafeWrite _ _ _ _ _ _ | .writeReachesArray _ | .scrubPeriodEnd | .patrolRead _
  | .keySlotWrite _ _ | .regionDeclare _ _ | .regionRetire _ | .versionPassEnd _ _ | .forcedPass _ _
  | .packageVote _ | .votePacket _ | .rootTimeout _ | .decisionPacket _ | .decisionApply _ | .hostRead _
  | .hostWrite _ _ _ | .mailboxAttest _ | .mailboxResponse | .hostBarrierArrive _ | .imageChunk _ _ _
  | .imageCommit _ | .attestationRequest _ _ | .telemetryRequest _ | .podMembership _ _ _ | .statusRequest _
  | .flitReceive _ _ _ _ | .portDead _ | .coldReset _ | .warmReset _ | .sramError _ | .thermalThrottle
  | .thermalShutdown | .registerWrite _ _ | .codeFetch _ | .loadDataReturn | .writeCompletesAtHome
  | .vectorCompletion | .commandCycle _ _ _ | .endedByTheOs _ _ _ _ _ | .fencingOffOfACore _ | .portTrained _ _
  | .powerLoss _ | .fallBelowLimits => none

/-- The 64 bits at the program counter where an instruction stands; behind one of 32 bits follow any others. -/
def Code.bits (c : Code) (hi : BitVec 32) : BitVec 64 :=
  match c with
  | .w32 w => hi ++ w
  | .w64 w => w

/-- The row that a row's word decodes to: itself, but for the rows that share a word (`NMC`, 11 R381; `COLL`, 06 R240;
`CSRW`, 03 R109, R126). -/
def rowOf : Instr → Instr
  | .nmMom d a b c | .nmAdamw d a b c | .nmAxpy d a b c | .nmScale d a b c | .nmFill d a b c | .nmCopy d a b c
  | .nmCast d a b c | .nmClamp d a b c | .nmRecode d a b c | .nmScrub d a b c | .nmFold d a b c | .nmCkpt d a b c =>
    .nmSgdf d a b c
  | .collAllGather sc u a ev | .collReduceScatter sc u a ev => .collAllReduce sc u a ev
  | .rkeyWrite a => .csrw a 0x48
  | .nfdWrite k a => .csrw a (0x008#9 ++ k)
  | i => i

/-- The decoder of a stream, on the first 32 bits and on the 64 bits at the program counter. -/
def decodeWord (k : Strm) (w : BitVec 64) : Dec :=
  match k with
  | .ctl => decodeCtl (fld w 0 32)
  | .vec => if fld w 0 1 == 1 then decodeVec64 w else decodeVec32 (fld w 0 32)
  | .mtx => decodeMtx w
  | .cpy => decodeCpy w
  | .ast => decodeAst w

/-- The instruction that a decoder reads, if it reads one. -/
def Dec.instr? : Dec → Option Instr
  | .ok i => some i
  | .error _ => none

/-- The first of two answers that is an instruction. -/
def orElse (a b : Option Instr) : Option Instr :=
  match a with
  | some i => some i
  | none => b

/-- The instruction read from the bits of an opcode-table row. The table does not say which stream a row belongs to:
a 32-bit word is read as a control word, and as a vector word where it is no control word; a 64-bit word is read as a
vector, copy, matrix and Astrolabe word in turn. Every word the table gives has 32 bits. -/
def decodeTableWord (nbits w : Nat) : Option Instr :=
  if nbits ≤ 32 then
    orElse (decodeCtl (BitVec.ofNat 32 w)).instr?
      (orElse (decodeVec32 (BitVec.ofNat 32 w)).instr? (decodeVec64 (BitVec.ofNat 64 w)).instr?)
  else
    orElse (decodeVec64 (BitVec.ofNat 64 w)).instr? (orElse (decodeCpy (BitVec.ofNat 64 w)).instr?
      (orElse (decodeMtx (BitVec.ofNat 64 w)).instr? (decodeAst (BitVec.ofNat 64 w)).instr?))

end Sys2Proof
end

