-- ==== Sys2Proof/Machine/Aes.lean ====
section
/-! DEFINITION. AES-256-XTS (11 R362), the cipher of FIPS 197 in the mode of IEEE 1619, over bytes in memory order, and the
exponent-sharing form of a sector (11 R363). -/

namespace Sys2Proof.Machine

/-- A product in the field of 256 elements with x^8 = x^4 + x^3 + x + 1, over the bits of the first factor. -/
def gfMul (a b : Byte) : Byte :=
  ((List.range 8).foldl (fun (acc : Byte × Byte) i =>
    (if a.getLsbD i then acc.1 ^^^ acc.2 else acc.1, (acc.2 <<< 1) ^^^ (if acc.2.getLsbD 7 then 0x1B else 0))) (0, b)).1

/-- The inverse of a byte in that field, its power 254; zero for zero. -/
def gfInv (a : Byte) : Byte :=
  ((List.range 7).foldl (fun (p : Byte × Byte) _ => let s := gfMul p.2 p.2; (gfMul p.1 s, s)) (1, a)).1

/-- The substitution of a byte. -/
def aesSub (a : Byte) : Byte :=
  let b := gfInv a
  b ^^^ b.rotateLeft 1 ^^^ b.rotateLeft 2 ^^^ b.rotateLeft 3 ^^^ b.rotateLeft 4 ^^^ 0x63

/-- Its inverse. -/
def aesUnsub (a : Byte) : Byte := gfInv (a.rotateLeft 1 ^^^ a.rotateLeft 3 ^^^ a.rotateLeft 6 ^^^ 0x05)

/-- Byte `i` of a block. -/
def blkAt (b : List Byte) (i : Nat) : Byte := b.getD i 0

/-- Bytes of equal position added. -/
def blkAdd (a b : List Byte) : List Byte := List.zipWith (· ^^^ ·) a b

/-- Every byte of a block from the block: byte `4c + r` is row `r` of column `c`. -/
def blkMap (f : Nat → Byte) : List Byte := (List.range 16).map f

/-- The columns of a block multiplied by the circulant of `m`. -/
def blkMix (m : List Byte) (b : List Byte) : List Byte :=
  blkMap fun i => (List.range 4).foldl (fun x k => x ^^^ gfMul (m.getD ((k + 4 - i % 4) % 4) 0) (blkAt b (i - i % 4 + k))) 0

/-- The sixty words of the key schedule, last first: `n` more words behind those of the list, the constant of the next
eighth. -/
def aesWords : Nat → Byte → List (List Byte) → List (List Byte)
  | 0, _, ws => ws
  | n + 1, rc, ws =>
    let i := ws.length
    let t := ws.headD []
    let u := if i % 8 = 0 then blkAdd ((t.drop 1 ++ t.take 1).map aesSub) [rc, 0, 0, 0] else if i % 8 = 4 then t.map aesSub else t
    aesWords n (if i % 8 = 0 then gfMul 2 rc else rc) (blkAdd u (ws.getD 7 []) :: ws)

/-- The fifteen round keys of a key of 32 bytes. -/
def aesKeys (key : List Byte) : List (List Byte) :=
  let ws := (aesWords 52 1 (((List.range 8).map fun i => (key.drop (4 * i)).take 4).reverse)).reverse
  (List.range 15).map fun r => ((ws.drop (4 * r)).take 4).flatten

/-- A block enciphered under its round keys. -/
def aesEnc (ks : List (List Byte)) (b : List Byte) : List Byte :=
  let round (b : List Byte) (r : Nat) : List Byte :=
    let s := blkMap fun i => aesSub (blkAt b ((i + 4 * (i % 4)) % 16))
    blkAdd (if r = 14 then s else blkMix [2, 3, 1, 1] s) (ks.getD r [])
  ((List.range 14).map (· + 1)).foldl round (blkAdd b (ks.headD []))

/-- A block deciphered. -/
def aesDec (ks : List (List Byte)) (b : List Byte) : List Byte :=
  let round (b : List Byte) (r : Nat) : List Byte :=
    let k := blkAdd b (ks.getD r [])
    let s := if r = 14 then k else blkMix [14, 11, 13, 9] k
    blkMap fun i => aesUnsub (blkAt s ((i + 12 * (i % 4)) % 16))
  blkAdd (((List.range 14).map (14 - ·)).foldl round b) (ks.headD [])

/-- Blocks of 16 bytes, each between two additions of its mask; the first mask, then each the one before it times x. -/
def xtsBlocks (f : List Byte → List Byte) : Nat → BitVec 128 → List Byte → List Byte
  | 0, _, _ => []
  | n + 1, t, d =>
    let m := natLe 16 t.toNat
    blkAdd (f (blkAdd (d.take 16) m)) m ++ xtsBlocks f n ((t <<< 1) ^^^ (if t.getLsbD 127 then 0x87 else 0)) (d.drop 16)

/-- The bytes of a sector's stored form under a data key (high half) and a tweak key, with the sector's PA[39:6] as the
tweak (11 R362): enciphered, or with `back` deciphered. -/
def xts (back : Bool) (key : BitVec 512) (pa : Nat) (d : List Byte) : List Byte :=
  let bytes (lo : Nat) : List Byte := natLe 32 (key.extractLsb' lo 256).toNat
  let ks := aesKeys (bytes 256)
  let t := aesEnc (aesKeys (bytes 0)) (natLe 16 (pa / 64 % 2 ^ 34))
  xtsBlocks (if back then aesDec ks else aesEnc ks) (d.length / 16) (BitVec.ofNat 128 (leNat t)) d

/-- The 32 halfwords of a sector. -/
def halfwords (d : List Byte) : List Nat := (List.range 32).map fun k => leNat ((d.drop (2 * k)).take 2)

/-- The least nonzero exponent field of a sector, or 1 (11 R363). -/
def expBase (d : List Byte) : Nat := ((((halfwords d).map fun h => h / 128 % 256).filter fun e => e != 0).min?).getD 1

/-- The halfwords of a sector fit the recoded form (11 R363). -/
def recodable (d : List Byte) : Bool :=
  (halfwords d).all fun h =>
    let e := h / 128 % 256
    e = 0 || (e ≠ 255 && expBase d ≤ e && e ≤ expBase d + 6)

/-- The 48 bytes in which a recoded sector is stored (11 R363). -/
def recodeSector (d : List Byte) : List Byte :=
  let b := expBase d
  natLe 48 (b % 256 + ((halfwords d).zipIdx.foldl (fun n (h, k) =>
    let e := h / 128 % 256
    n + (h % 128 + (if e = 0 then 0 else e - b + 1) % 8 * 2 ^ 7 + h / 2 ^ 15 * 2 ^ 10) * 2 ^ (8 + 11 * k)) 0))

/-- The 64 bytes that a read decodes from a recoded form (11 R363). -/
def unrecodeSector (p : List Byte) : List Byte :=
  let v := leNat p
  let b := v % 256
  natLe 64 ((List.range 32).foldl (fun n k =>
    let f := v / 2 ^ (8 + 11 * k) % 2 ^ 11
    let o := f / 2 ^ 7 % 8
    n + (f % 128 + (if o = 0 then 0 else b + o - 1) % 256 * 2 ^ 7 + f / 2 ^ 10 * 2 ^ 15) * 2 ^ (16 * k)) 0)

end Sys2Proof.Machine
end

