-- ==== Sys2Proof/Config.lean ====
section
/-! DEFINITION. What the implementation fixes and what the manual leaves open: opaque constants that nothing can
evaluate, so that a claim about them holds whatever they are. -/

namespace Sys2Proof.Config

/-- The free value number `k` of 64 bits: a value the manual does not give after an operation that goes on
(log 6). -/
opaque freeWord (k : Nat) : BitVec 64

/-- The sector that a read gives when three or more of its symbols are in error, a pattern that may be miscorrected
or go undetected (11 R359): `none` when it is detected, else the data and the metadata bits [57:48]. -/
opaque freeSector (k : Nat) : Option (BitVec 512 × BitVec 10)

/-- The signature of 4,627 bytes under the device key over the digest of a report (14 R449; log 11). -/
opaque signature (digest : BitVec 512) : BitVec 37016

/-- Whether a signature of a firmware image verifies over its digest (14 R448; log 11). -/
opaque imageVerifies (digest : BitVec 512) (sig : List (BitVec 8)) : Bool

/-- Device serial number (14 R449). -/
opaque serial : BitVec 64

/-- Stepping of the device (14 R452). -/
opaque stepping : BitVec 8

/-- For how many cycles behind a change of the format descriptors an L2 keeps a line of a key identifier that it holds, before the
line is filled again (02 R97, R99, R100; log 8). -/
opaque l2Keeps (line : Nat) (key : BitVec 8) (change : BitVec 64) : Nat

/-- Whether the tags and a conflict table of `bytes` bytes have no room for another access record (02 R74, 01 R49): the
size of a record is the device's own. -/
opaque recordsFull (records bytes : Nat) : Bool

/-- Whether a reduction spill area of `bytes` bytes has no room for another accumulator (02 R85, 01 R49): the layout is
the device's own. -/
opaque spillFull (spilled bytes : Nat) : Bool

/-- Which of its loose lines a full code cache gives up, by a counter (04 R158; log 9). -/
opaque codeVictim (k : Nat) : Nat

/-- Whether step 3 or 4 of a reset fails, the training of links and stacks, by a counter (14 R450; log 6). -/
opaque trainingFails (k : Nat) : Bool

end Sys2Proof.Config
end

