-- ==== Sys2Proof/Machine/State.lean ====
section
/-! DEFINITION. The state of the package, as plain data: every core with its engines, the four die units, the twelve
Carafes, the hub. One package is modelled; the resident OS, the host, the operator and the other packages act through
the events in `inbox` (log 1). Machine after reset: `State.reset`. -/

namespace Sys2Proof.Machine

/-- Bytes by address in canonical form: addresses strictly rising, no entry of the value an unlisted one reads as. -/
abbrev Mem := List Host.Cell

/-- The engines of a core, codes 0 to 3 (01 R34, R43). -/
inductive Eng where
  | ctl | vec | mtx | cpy
  deriving DecidableEq, Repr

/-- Job mode and firmware mode (04 R132). -/
inductive Mode where
  | job | firmware
  deriving DecidableEq, Repr

/-- Fault causes (01 R45); `preempt` stands for code 0x00, a stop without a fault (01 R43, 04 R162). -/
inductive Cause where
  | preempt | illegalWord | reservedField | orphanPrefix | badPrefix | privilege | align | flagOwner | scheduleMiss
  | scheduleCollision | shape | range | segmentHolder | deadlock | pageAbsent | writeProtect | execProtect | heapLimit
  | xltConflict | ephemerisStore | sealedStore | escape | scopeVisibility | superstepConflict | nmUncorrectable
  | memUncorrectable | linkDead | accessRefused | txState | qmap | launch | machineCheck
  deriving DecidableEq, Repr

/-- Why the model has no next state. -/
inductive Fault where
  /-- A register write names an offset of device register space that the spec gives no register (00 R6, 14 R439);
  raised by `REGISTER_WRITE`. Safe: the model stops where the hardware may go on. -/
  | noSuchRegister
  deriving DecidableEq, Repr

/-- Why the model refuses an instruction. -/
inductive Refusal where
  /-- The instruction has no meaning in the model yet; only arms of `exec` answer it. Safe. -/
  | notModelled (mnemonic : String)
  deriving DecidableEq, Repr

/-- A counting flag (02 R64): value, consumer, kind (`hold`: holding flag) and carrier. -/
structure Flag where
  value : BitVec 40
  cons  : Eng
  hold  : Bool
  carr  : Eng
  deriving DecidableEq, Repr

/-- A range given and not yet taken (01 R43 `TRANSIT`, 02 R66): flag, first holder-table entry, count of entries. -/
structure Transit where
  flag  : BitVec 6
  first : Nat
  count : Nat
  deriving DecidableEq, Repr

/-- Whether a stream runs (01 R24): not forked, running, or ended by `REND` and not yet joined. -/
inductive Run where
  | off | running | ended
  deriving DecidableEq, Repr

/-- The control stream's registers (04 R131). -/
structure Ctl where
  x   : Vector Word 64
  p   : BitVec 8
  pc  : Word
  run : Run
  deriving DecidableEq, Repr

/-- The registers every other stream has (05 R167, 06 R238, 09 R318, 10 R323). -/
structure Strm32 where
  x    : Vector Word 32
  p    : BitVec 8
  pc   : Word
  draw : BitVec 56
  run  : Run
  deriving DecidableEq, Repr

/-- An ephemeris window (08 R276, R277): enabled, its 128-byte descriptor, its entries of the angle store. -/
structure Window where
  en    : Bool
  img   : BitVec 1024
  theta : List (BitVec 32)
  deriving DecidableEq, Repr

/-- The transaction context of a task (13 R420), and the vote it has cast (13 R424). -/
structure Tx where
  st    : BitVec 2
  gen   : BitVec 64
  cbase : BitVec 32
  qbase : BitVec 32
  step  : Word
  retry : BitVec 16
  dec   : Option (BitVec 128)
  vote  : Option (BitVec 16 × BitVec 32)
  deriving DecidableEq, Repr

/-- Barrier releases a task has observed: of scope L or wider for each level (02 R71), and of every scope
(12 R386). -/
structure Counts where
  core : Nat
  quad : Nat
  die  : Nat
  pkg  : Nat
  pod  : Nat
  all  : Nat
  deriving DecidableEq, Repr

/-- An outstanding child job (04 R164): its completion flag, its job, the guarded area, whether its add has applied. -/
structure Child where
  flag : BitVec 6
  job  : Nat
  va   : Nat
  done : Bool
  deriving DecidableEq, Repr

/-- How an access failed after it issued (02 R90, 11 R379). -/
inductive FailKind where
  | lost | refused | nm
  deriving DecidableEq, Repr

/-- A failure that a fence reports (02 R90, 11 R379): engine, place in program order, kind, destination level (3 die,
4 package, 5 pod, 6 host), address, count. -/
structure Failure where
  eng   : Eng
  seq   : Nat
  kind  : FailKind
  level : Nat
  va    : Nat
  count : Nat
  deriving DecidableEq, Repr

/-- An arrival at a barrier (01 R26, R29): scope, exchange length, destination register. -/
structure Sync where
  sc : Nat
  x  : Nat
  rd : BitVec 6
  deriving DecidableEq, Repr

/-- Where a task of a core stands: not started, its context resident, saved at its `SSYNC`, or ended (01 R26). -/
inductive TaskSt where
  | fresh | resident | saved | ended
  deriving DecidableEq, Repr

/-- A task (01 R15, R31): its boundary context and what the device records of it; `owed`: its control engine has still to raise the
`RANGE` of a child's add (04 R164). -/
structure Task where
  idx      : Nat
  st       : TaskSt
  ctl      : Ctl
  flags    : Vector Flag 64
  wins     : Vector Window 16
  nfd      : Vector (BitVec 5) 8
  rkey     : Word
  vshape   : BitVec 22
  bnpat    : Vector (BitVec 448) 8
  collseq  : BitVec 32
  qseq     : BitVec 32
  qmapbase : Word
  tx       : Tx
  pins     : List Nat
  stampbase : Word
  sync     : Option Sync
  counts   : Counts
  redLines : List Nat
  children : List Child
  failures : List Failure
  marked   : Nat
  walkFail : List (Cause × Nat)
  guards   : List Nat
  owed     : Bool
  seq      : Nat
  deriving DecidableEq, Repr

/-- An entry of a stream register (05 R172): its bytes and their number. -/
structure QEntry where
  len  : Nat
  data : VReg
  deriving DecidableEq, Repr

/-- A register result on its way (04 R165, 05 R210). -/
inductive RegWrite where
  | x (d : BitVec 6) (v : Word)
  | v (d : BitVec 5) (v : VReg)
  | m (d : BitVec 3) (v : MReg)
  deriving DecidableEq, Repr

/-- The prefix words of the bundle under decode (05 R174, R177): address of its first word, `PFX.RND` as (`KSEL`,
`FLUSH`, `SAT`, `MODE`) and `PFX.MSK` as (`ZERO`, `MK`). -/
structure Pfx where
  base : Word
  rnd  : Option (Bool × Bool × Bool × BitVec 3)
  msk  : Option (Bool × BitVec 3)
  deriving DecidableEq, Repr

/-- The vector engine (05 R167); `entry`: the entry word of its `FORK` has not issued; `skip`: entries that a `VQSKIP`
under way has popped. -/
structure Vec where
  s    : Strm32
  entry : Bool
  skip : Nat
  v    : Vector VReg 32
  m    : Vector MReg 8
  q    : Vector (List QEntry) 8
  pfx  : Option Pfx
  out  : List (Nat × List RegWrite)
  deriving DecidableEq, Repr

/-- A piece of a range as the issuing unit translated it (07 R247): VA or scratchpad offset, global physical address
(or scratchpad offset) and length in bytes. -/
structure Seg where
  va  : Nat
  pa  : Nat
  len : Nat
  deriving DecidableEq, Repr

/-- A stretch of bytes that a command reads or writes: scratchpad, translated memory (with the stretches of VAs whose home
refuses writes, 02 R81), or an ephemeris window of the task under the step key of the command's issue (08 R284). -/
inductive Span where
  | pad (off len : Nat)
  | mem (segs : List Seg) (refused : List (Nat × Nat))
  | win (w va len : Nat) (key : Word)
  deriving DecidableEq, Repr

/-- A tile as a matrix command finds it when it issues (09 R295): its stored rows, element format code with the narrow
descriptor, transpose, stored shape, element width. -/
structure Tile where
  src  : List Span
  fmt  : Nat
  nfd  : BitVec 5
  tr   : Bool
  rows : Nat
  cols : Nat
  size : Nat
  deriving DecidableEq, Repr

/-- A matrix command in the queue (09 R308, R319): the word and its address, what it read when it issued; for a stamped one that
has issued and not completed the accumulator it will write, and whether it is past or never issues (01 R28). -/
structure MCmd where
  i    : Instr
  pc   : Word
  ta   : Option Tile
  tb   : Option Tile
  sa   : Option Tile
  sb   : Option Tile
  f    : BitVec 32
  dc   : BitVec 56
  key  : Word
  span : Option Span
  seq  : Nat
  res  : Option AccImg
  void : Bool
  deriving DecidableEq, Repr

/-- The matrix engine (09 R294, R318). -/
structure Mtx where
  s       : Strm32
  d       : Vector (BitVec 128) 16
  queue   : List MCmd
  stamped : List MCmd
  deriving DecidableEq, Repr

/-- A transfer in the copy queue (06 R213, R223): what it reads and writes, its events (release and delivery flag, with their
counts), scope, checkpoint bit, whether its source has been read, bytes delivered, of the entry under way of a chained binding the bytes
read (R226), the record or descriptor it follows, its channel, the record whose `OWN` it clears, the failures it will report (writes; failing source sectors with their VA), and
for a stamped one the peer's core and offset, the stamp, and whether it is past or never issues (01 R28). -/
structure Xfer where
  i     : Instr
  src   : List Span
  dst   : List Span
  dst2  : List Span
  rel   : Option (BitVec 6)
  del   : Option (BitVec 6)
  len   : Nat
  dlen  : Nat
  sc    : Nat
  ckpt  : Bool
  moved : Bool
  done  : Nat
  part  : List Byte
  desc  : BitVec 512
  chan  : Option Nat
  own   : Option Nat
  fails : List Failure
  bad   : List (Nat × Nat)
  peer  : Option (Nat × Nat)
  stamp : Nat
  void  : Bool
  seq   : Nat
  deriving DecidableEq, Repr

/-- A copy channel with its chain (06 R217 to R222): whether it has been walked, whether it halted at a fault or is to stop,
the record it works on and its progress in sectors, the records left, place in program order, the ranges of its records,
the failing source sectors of the record under way, the segments that the engine held at the `CHAIN` (R219), whether its record is
a stamped transfer that has not run (R213, R221), the step key of the `CHAIN` (`none` outside a step; 08 R284). -/
structure Chan where
  active : Bool
  walked : Bool
  halted : Bool
  stop   : Bool
  record : BitVec 48
  prog   : Nat
  count  : Nat
  seq    : Nat
  reads  : List Span
  writes : List Span
  bad    : List (Nat × Nat)
  held   : List Nat
  tail   : Bool
  key    : Option Word
  deriving DecidableEq, Repr

/-- The copy engine (06 R213, R238). -/
structure Cpy where
  s       : Strm32
  ch      : Vector Chan 8
  queue   : List Xfer
  stamped : List Xfer
  deriving DecidableEq, Repr

/-- A TLB entry (07 R253, R258): address space, first VA, size code, leaf, line of the table it came from, demoted. -/
structure TlbEntry where
  asid    : BitVec 16
  va      : Nat
  size    : Nat
  leaf    : BitVec 64
  line    : Nat
  demoted : Bool
  deriving DecidableEq, Repr

/-- A store, copy write or reduction that has not completed (02 R77): engine, place in program order, destination
level, address, length, and the failure a fence will report. -/
structure PendWrite where
  eng   : Eng
  seq   : Nat
  level : Nat
  va    : Nat
  pa    : Nat
  len   : Nat
  fail  : Option FailKind
  deriving DecidableEq, Repr

/-- An `ADDF` in its engine's queue (02 R66): engine, place in program order, flag, amount. -/
structure PendAdd where
  eng  : Eng
  seq  : Nat
  flag : BitVec 6
  n    : Word
  deriving DecidableEq, Repr

/-- Who makes an access, as its home sees it: source number, key identifier, address space (none for the host), whether
it runs in job mode inside an open step (13 R410), its core and the releases it has observed when it is a task (02 R71). -/
structure Agent where
  src  : Nat
  key  : BitVec 8
  asid : Option (BitVec 16)
  step : Bool
  at_  : Option (Nat × Counts) := none
  deriving DecidableEq, Repr

/-- A near-memory command under way (11 R372 to R377): its `CTL`, destination, source and m and v ranges, the stretches of the
destination and of m and v whose home refuses its writes (02 R81), its `PRM`, its optimizer record, place in program order, for
whom it runs once its job has ended (R378). -/
structure NmCmd where
  ctl  : Word
  dst  : List Seg
  src  : List Seg
  aux  : List Seg
  dref : List (Nat × Nat)
  aref : List (Nat × Nat)
  prm  : Word
  opt  : BitVec 256
  seq  : Nat
  who  : Option Agent := none
  deriving DecidableEq, Repr

/-- A reach walk under way (12 R392, R393): root, scope. -/
structure Walk where
  root : Nat
  sc   : Nat
  deriving DecidableEq, Repr

/-- A line of a code cache (04 R158): address space, key identifier and VA under which it was fetched, its 128 bytes, whether
it is kept from eviction. -/
structure CodeLine where
  asid   : BitVec 16
  key    : BitVec 8
  va     : Nat
  data   : BitVec 1024
  pinned : Bool
  deriving DecidableEq, Repr

/-- The record of a stop (01 R43): what the fault frame will hold of the fault, and whether the frame is written. -/
structure StopRec where
  cause  : Cause
  eng    : Eng
  pend   : Bool
  multi  : Bool
  src    : BitVec 16
  finfo  : BitVec 32
  finfox : BitVec 16
  faddr  : Word
  fchron : Word
  wstart : Nat
  framed : Bool
  deriving DecidableEq, Repr

/-- A core at its barrier node (01 R26, R32): `ARR` and `EARLY` with the cycle of the arrival, the scope of a release not
yet observed (`REL`), the cycle at which its exchange phase ends, the conflicts reported with it (number of lines, lowest
VA; 02 R75). -/
structure Bar where
  arr   : Option Nat
  early : Option Nat
  rel   : Option Nat
  till  : Option Nat
  conf  : Option (Nat × Nat)
  deriving DecidableEq, Repr

/-- The firmware start block of a core (04 R133). -/
structure FwBlock where
  recp : BitVec 41
  asid : BitVec 16
  root : BitVec 41
  go   : Bool
  fail : Bool
  deriving DecidableEq, Repr

/-- An operation of the translation engines that the control word at hand has issued (07 R257, R262, R267): the range, how many of
its shootdowns it has made (0: it waits for its turn), its cycle of issue, the old frame of a page that moves, and its new one when
nothing is copied, as global addresses. -/
structure XltWait where
  asid  : BitVec 16
  va    : Nat
  len   : Nat
  stage : Nat
  since : Nat
  src   : Option Nat
  dst   : Option Nat
  deriving DecidableEq, Repr

/-- A core (00, 01 R13, R14): its job, the tasks placed on it, the engines, scratchpad, accumulators and caches; `ready`: by stream
the word that has been fetched and waits at issue, with its address (07 R264); `repin`: the lines of a restored pin table that are
still to be made resident (04 R158). -/
structure Core where
  num     : Nat
  mode    : Mode
  job     : Option Nat
  spsize  : BitVec 3
  task    : Task
  others  : List Task
  vec     : Vec
  mtx     : Mtx
  cpy     : Cpy
  acc     : Vector AccImg 16
  pad     : Mem
  hold    : Vector Eng 240
  transit : List Transit
  loads   : List (Nat × RegWrite)
  adds    : List PendAdd
  marker  : Option Nat
  writes  : List PendWrite
  nms     : List NmCmd
  walks   : List Walk
  stop    : Option StopRec
  wstart  : Nat
  ready   : List (Strm × Word × Instr)
  blocked : Nat
  stalled : Vector Bool 4
  bar     : Bar
  tlb     : List TlbEntry
  code    : List CodeLine
  repin   : List Nat
  xlt     : Option XltWait
  fw      : FwBlock
  tvec    : Word
  epc     : Word
  ecause  : BitVec 13
  deriving DecidableEq, Repr

/-- A gate register (10 R328): `K`, `TY`, the matrix row by row, each element as its raw real and imaginary part. -/
structure Gate where
  k  : BitVec 2
  ty : BitVec 1
  m  : List (BitVec 64 × BitVec 64)
  deriving DecidableEq, Repr

/-- The open state of an Astrolabe stream (10 R324, R326): number of qubits, die and package bits, type, share VA,
rank, group, the qubit map, the dies of this package whose streams formed the group (R337). -/
structure QState where
  n     : Nat
  ndb   : Nat
  npb   : Nat
  ty    : BitVec 1
  share : Nat
  rank  : Nat
  group : Word
  map   : Vector (BitVec 8) 64
  dies  : List Nat
  deriving DecidableEq, Repr

/-- The Astrolabe frame's fault fields (10 R352). -/
structure AStop where
  cause  : Cause
  finfo  : BitVec 32
  faddr  : Word
  fchron : Word
  pend   : Bool
  framed : Bool
  deriving DecidableEq, Repr

/-- An Astrolabe operation that waits for the other participants (10 R337, R338): the word, its operands, what its
participants compare, the generation when issued in an open step, whether the home refuses writes to the share (02 R81), where
its result is stored, whether an abort ends it (13 R437), whether its participants differed. -/
structure AWait where
  i    : Instr
  ops  : List Word
  key  : List Nat
  gen  : Option (BitVec 64)
  refused : List (Nat × Nat)
  store : Option Span
  cut  : Bool
  bad  : Bool
  deriving DecidableEq, Repr

/-- The Astrolabe engine of a die and its stream (10 R323, R325). -/
structure Astro where
  s    : Strm32
  core : Option Nat
  task : Nat
  g    : Vector Gate 8
  st   : Option QState
  kop  : BitVec 32
  qseq : BitVec 32
  wait : Option AWait
  stop : Option AStop
  deriving DecidableEq, Repr

/-- A page-table line in a translation engine's directory (07 R256): address space, PA, the bitmap of the die's cores, the ranges
of VAs that its sixteen entries map, each by its first VA and bytes. -/
structure DirEntry where
  asid  : BitVec 16
  pa    : Nat
  cores : BitVec 64
  spans : List (Nat × Nat)
  deriving DecidableEq, Repr

/-- A walk request that waits at a translation engine (07 R255): core, address space, page. -/
structure WalkReq where
  core : Nat
  asid : BitVec 16
  va   : Nat
  deriving DecidableEq, Repr

/-- The units of a C-die (00, 01 R34). -/
structure Die where
  tlb   : List TlbEntry
  dir   : List DirEntry
  reqs  : List WalkReq
  astro : Astro
  deriving DecidableEq, Repr

/-- Where a job stands: waiting in a launch queue, running, stopped at a boundary by a pre-emption, spilled, or ended with
a step transaction that the commit node has not yet applied (01 R21, R36, R50, 13 R436). -/
inductive JobSt where
  | waiting | running | boundary | spilled | closing
  deriving DecidableEq, Repr

/-- A job or a firmware context (01 R16, R19, R36, 04 R133); while it is spilled, its cores, its Astrolabe streams by die, and its
fault frames by address, length and content (01 R51). -/
structure Job where
  id     : Nat
  fw     : Bool
  lrec   : BitVec 4608
  recva  : Nat
  asid   : BitVec 16
  root   : BitVec 41
  key    : BitVec 8
  clsmap : Word
  prio   : Nat
  st     : JobSt
  enq    : Nat
  cores  : List Nat
  admitted  : Option Nat
  since  : Nat
  used   : Nat
  preempts : Nat
  ended  : List Nat
  steps  : Nat
  parent : Option (Nat × Nat × Nat × BitVec 6)
  preq   : Option Nat
  gen    : BitVec 64
  voted  : Option Nat
  corr   : Bool
  sent   : Bool
  decided : List (BitVec 128 × Nat)
  applied : Option (BitVec 128)
  votes  : List (BitVec 128)
  first  : Option Nat
  fences : BitVec 256
  spill  : List Core
  aspill : List (Nat × Astro)
  frames : List (Nat × Nat × Nat)
  deriving DecidableEq, Repr

/-- An object of a heap as the class map records it (12 R386, R387), with what its home keeps of it: token, the
initialiser's release counts, a pass waiting for its release (receiver, scope, releases that its task had observed) or a
retraction (02 R80, 12 R399). -/
structure Obj where
  job     : Nat
  va      : Nat
  size    : Nat
  owner   : BitVec 16
  otask   : Nat
  cls     : BitVec 2
  pcls    : BitVec 2
  scope   : Nat
  pend    : Bool
  epoch   : BitVec 32
  token   : Nat
  made    : Counts
  pass    : Option (Nat × Nat × Nat)
  retract : Bool
  deriving DecidableEq, Repr

/-- The kind of a recorded access (02 R74): read, write, or reduction with its operation and type. -/
inductive AccKind where
  | rd | wr
  | red (op ty : Nat)
  deriving DecidableEq, Repr

/-- An access recorded for the superstep rule (02 R74): line, its VA, job, task, core, stream, kind, counts. -/
structure AccRec where
  line : Nat
  va   : Nat
  job  : Nat
  task : Nat
  core : Nat
  strm : Strm
  kind : AccKind
  cnt  : Counts
  deriving DecidableEq, Repr

/-- Who contributed to an accumulator, with the releases observed at the last contribution (02 R71, R84); no core for a task of
another package. -/
structure Contrib where
  core : Option Nat
  task : Nat
  cnt  : Counts
  deriving DecidableEq, Repr

/-- An exact accumulator of a floating reduction target (02 R83): address, type, N, flags, count, negative-zero
flag, whether it is spilled (02 R85), key identifier of its line (02 R96), the job that allocated it, its contributors. -/
structure RedAcc where
  pa      : Nat
  job     : Nat
  key     : BitVec 8
  ty      : Nat
  n       : Int
  pinf    : Bool
  ninf    : Bool
  nan     : Bool
  count   : Nat
  negz    : Bool
  spilled : Bool
  who     : List Contrib
  deriving DecidableEq, Repr

/-- A reduction on its way to the home of its word (02 R82), with the address space that translated it; `away`: it came in over a
pod port (02 R86). -/
structure RedMsg where
  core : Nat
  away : Bool
  job  : Nat
  asid : BitVec 16
  seq  : Nat
  task : Nat
  cnt  : Counts
  pa   : Nat
  va   : Nat
  key  : BitVec 8
  op   : Nat
  ty   : Nat
  val  : Word
  fail : Option FailKind
  deriving DecidableEq, Repr

/-- Metadata of a sector that differs from a sector after reset (11 R358, R359, R362): address of the sector, `RTAG`,
`RAW`, `POISON`, the symbols in error with the bits that differ, the data and tweak key it is stored under (`none`: not encrypted). -/
structure Sector where
  pa     : Nat
  rtag   : BitVec 8
  raw    : Bool
  poison : Bool
  err    : List (Nat × BitVec 16)
  ckey   : Option (BitVec 512)
  deriving DecidableEq, Repr

/-- The OS area block (01 R49). -/
structure OsArea where
  framebase  : BitVec 28
  aframebase : BitVec 28
  ctbase     : BitVec 28
  ctlim      : BitVec 28
  rspbase    : Vector (BitVec 28) 4
  rsplim     : Vector (BitVec 28) 4
  ctfull     : Bool
  rspfull    : BitVec 4
  deriving DecidableEq, Repr

/-- A format-region descriptor (02 R98). -/
structure Frd where
  v     : Bool
  base  : BitVec 28
  limit : BitVec 28
  fmt   : BitVec 4
  scale : BitVec 34
  deriving DecidableEq, Repr

/-- The format descriptors until a change of one of them, with the cycle of that change (02 R100). -/
structure FrdEra where
  frd  : Vector Frd 16
  till : Word
  deriving DecidableEq, Repr

/-- A key slot (11 R369): identifier, the bytes written, `KEYV`. -/
structure KeySlot where
  id   : BitVec 8
  dkey : BitVec 256
  tkey : BitVec 256
  v    : Bool
  deriving DecidableEq, Repr

/-- An entry of a stack's row table (11 R367, R370). -/
structure RowEntry where
  count : BitVec 16
  row   : BitVec 16
  bank  : BitVec 4
  pch   : BitVec 6
  deriving DecidableEq, Repr

/-- One command bus of a pseudo-channel pair (11 R357): `DENIED` of its two members, their ready commands by age, the commands whose
bank's timing allows them and that wait for one of the four places. -/
structure Bus where
  denied : Vector (BitVec 2) 2
  ready  : Vector (List Nat) 2
  wait   : Vector (List Nat) 2
  deriving DecidableEq, Repr

/-- The command buses of a pseudo-channel pair: pair number, row bus, column bus. -/
structure BusPair where
  pair : Nat
  row  : Bus
  col  : Bus
  deriving DecidableEq, Repr

/-- The Carafe engine of a stack (11 R364 to R370); `elogNow`: the log records of the last cycle that had any. -/
structure Stack where
  elogHead : BitVec 32
  elogNow  : List (BitVec 256)
  rowdrop  : BitVec 32
  periodNo : BitVec 32
  unread   : BitVec 16
  uecount  : BitVec 32
  bankce   : List (Nat × BitVec 32)
  rows     : List RowEntry
  progs    : List (Nat × Nat)
  readBits : List Nat
  patrol   : List Nat
  pptr     : Nat
  wqueue   : List Nat
  buses    : List BusPair
  deriving DecidableEq, Repr

/-- The Carafe common block (11 R369), the start of the scrub period, the descriptors before each change, last first: lines in an
L2 keep the tags that those gave them (02 R100), and the cycles in which key identifiers were retired, whose lines are then in no
cache (02 R96). -/
structure Carafe where
  rcen     : Bool
  period   : BitVec 5
  nextPeriod : BitVec 5
  elogsz   : BitVec 5
  elogbase : BitVec 28
  frd      : Vector Frd 16
  frdOld   : List FrdEra
  retired  : List (BitVec 8 × Word)
  keys     : List KeySlot
  stks   : Vector Stack 12
  start    : Word
  deriving DecidableEq, Repr

/-- The metadata word of a version block (13 R409): its slot-0 address, `TGEN`, `CS`. -/
structure VBlock where
  pa   : Nat
  tgen : BitVec 16
  cs   : Bool
  deriving DecidableEq, Repr

/-- What a Carafe keeps of a version region (13 R411, R416, R418): S, the pass, the aborted generations; `stamp`: `TGEN` of its
blocks that have no entry. -/
structure VStack where
  s       : BitVec 16
  vpass   : BitVec 16
  vptr    : BitVec 32
  aborted : List (BitVec 16)
  forced  : BitVec 32
  passes  : BitVec 32
  stamp   : BitVec 16
  deriving DecidableEq, Repr

/-- A version region (13 R407). -/
structure Region where
  vv     : Bool
  base   : BitVec 28
  limit  : BitVec 28
  asid   : BitVec 16
  rdy    : Bool
  st     : Vector VStack 12
  deriving DecidableEq, Repr

/-- The commit node (13 R427) and the packets it is to send up and down the tree (13 R422). -/
structure Node where
  txtmo : BitVec 32
  ndec  : BitVec 32
  nabt  : BitVec 32
  sent  : List (BitVec 128)
  deriving DecidableEq, Repr

/-- A collective that gathers its participants in this package (06 R236): job, scope instance, sequence number, generation
when issued in an open step, the transfers by core, whether its participants differ, whether an abort ends it (13 R437), whether
it has run. -/
structure Coll where
  job  : Nat
  sc   : Nat
  unit : Nat
  seq  : BitVec 32
  gen  : Option (BitVec 64)
  who  : List (Nat × Nat)
  broken : Bool
  cut  : Bool
  ran  : Bool
  deriving DecidableEq, Repr

/-- A pod group (01 R18, R21): number and member packages in rank order. -/
structure Group where
  num  : BitVec 16
  pkgs : List (BitVec 12)
  deriving DecidableEq, Repr

/-- A system barrier slot (14 R443); `SJARR` with the cycle of the host's arrival. -/
structure SysSlot where
  job   : Option Nat
  compl : BitVec 48
  gen   : Word
  arr   : Option Nat
  x     : BitVec 20
  deriving DecidableEq, Repr

/-- The host interface (14 R441, R442, R443): refused submissions, mailbox, barrier slots, MSI-X vectors sent. -/
structure HostIf where
  hrefused : BitVec 32
  mbop     : BitVec 8
  mbgo     : Bool
  mbstat   : BitVec 8
  mbrlen   : BitVec 32
  mbnonce  : BitVec 512
  mbresp   : List (BitVec 8)
  slots    : Vector SysSlot 16
  msix     : List Nat
  deriving DecidableEq, Repr

/-- A message frame that the management port has sent (14 R445). -/
structure MFrame where
  mtype : BitVec 8
  mstat : BitVec 8
  mseq  : BitVec 32
  moff  : BitVec 64
  body  : List (BitVec 8)
  deriving DecidableEq, Repr

/-- The management port (14 R445): chunks gathered since the last commit, answers by sequence number. -/
structure Mgmt where
  chunks  : List (Nat × List (BitVec 8))
  answers : List MFrame
  deriving DecidableEq, Repr

/-- A pod port (14 R446, R447): its status, failed replays of the flit at its head, data flits delivered. -/
structure Port where
  up      : Bool
  dead    : Bool
  peer    : BitVec 12
  replays : BitVec 32
  fecfix  : BitVec 32
  tries   : Nat
  deriving DecidableEq, Repr

/-- What the hub reports to the resident OS (01 R18, R19, R41, R49). -/
inductive Signal where
  | stopped (core : Nat)
  | astroStopped (die : Nat)
  | lostCompletion (job : Nat)
  | dropped
  | ctFull
  | rspFull (die : Nat)
  | jobEnded (job : Nat) (st : BitVec 8)
  deriving DecidableEq, Repr

/-- An address space that the resident OS has opened (07 R248, R267, 14 R441): identifier, level-3 table, open for host
submission, and what a context submitted in it gets from the resident OS: key identifier and `CLSMAP` (02 R96,
12 R387). -/
structure Space where
  asid : BitVec 16
  root : BitVec 41
  host : Bool
  key  : BitVec 8
  clsmap : Word
  deriving DecidableEq, Repr

/-- The package. -/
structure State where
  chron   : Word
  pkg     : BitVec 12
  rstep   : Nat
  powered : Bool
  gated   : Bool
  core    : Core
  others  : List Core
  turn    : Option Strm
  inbox   : List Instr
  free    : Nat
  mem     : Mem
  sectors : List Sector
  rpoison : List Nat
  dies    : Vector Die 4
  jobs    : List Job
  nextJob : Nat
  chosen  : Option Nat
  spaces  : List Space
  objs    : List Obj
  recs    : List AccRec
  accs    : List RedAcc
  reds    : List RedMsg
  colls   : List Coll
  orphans : List NmCmd
  os      : OsArea
  carafe  : Carafe
  regions : Vector Region 16
  blocks  : List VBlock
  node    : Node
  groups  : List Group
  host    : HostIf
  mgmt    : Mgmt
  flash   : List (BitVec 8)
  fwver   : Word
  fwdigest : BitVec 512
  ports   : Vector Port 16
  fences  : BitVec 256
  signals : List Signal
  deriving DecidableEq, Repr

/-- A flag at task start (02 R64) with control as its consumer. -/
def Flag.reset : Flag :=
  { value := 0, cons := .ctl, hold := false, carr := .ctl }

/-- The control registers before a task starts: zero (log 4). -/
def Ctl.reset : Ctl :=
  { x := Vector.replicate 64 0, p := 0, pc := 0, run := .off }

/-- The registers of a stream before its first `FORK`: zero (log 4). -/
def Strm32.reset : Strm32 :=
  { x := Vector.replicate 32 0, p := 0, pc := 0, draw := 0, run := .off }

/-- A disabled window (08 R277). -/
def Window.reset : Window :=
  { en := false, img := 0, theta := [] }

/-- A task outside a transaction (13 R419). -/
def Tx.reset : Tx :=
  { st := 0, gen := 0, cbase := 0, qbase := 0, step := 0, retry := 0, dec := none, vote := none }

/-- No release observed. -/
def Counts.zero : Counts :=
  { core := 0, quad := 0, die := 0, pkg := 0, pod := 0, all := 0 }

/-- The identity pattern: destination bit j takes source bit j (05 R170). -/
def bnIdentity : BitVec 448 :=
  (List.range 64).foldl (fun p j => p ||| (BitVec.ofNat 448 j <<< (7 * j))) 0

/-- `VSHAPE` at reset: 16 rows of 32 elements of 32 bits (05 R168). -/
def vshapeReset : BitVec 22 := 0x202010

/-- The context of no task: the context CSRs at their reset values (03 R109, 05 R168, R170, 04 R161). -/
def Task.reset : Task :=
  { idx := 0, st := .resident, ctl := Ctl.reset, flags := Vector.replicate 64 Flag.reset,
    wins := Vector.replicate 16 Window.reset, nfd := Vector.replicate 8 0, rkey := 0, vshape := vshapeReset,
    bnpat := Vector.replicate 8 bnIdentity, collseq := 0, qseq := 0, qmapbase := 0, tx := Tx.reset, pins := [],
    stampbase := 0, sync := none, counts := Counts.zero, redLines := [], children := [],
    failures := [], marked := 0, walkFail := [], guards := [], owed := false, seq := 0 }

/-- The vector engine before its first `FORK` (log 4). -/
def Vec.reset : Vec :=
  { s := Strm32.reset, entry := false, skip := 0, v := Vector.replicate 32 0, m := Vector.replicate 8 0,
    q := Vector.replicate 8 [], pfx := none, out := [] }

/-- The matrix engine before its first `FORK` (log 4). -/
def Mtx.reset : Mtx :=
  { s := Strm32.reset, d := Vector.replicate 16 0, queue := [], stamped := [] }

/-- An idle channel. -/
def Chan.reset : Chan :=
  { active := false, walked := false, halted := false, stop := false, record := 0, prog := 0, count := 0, seq := 0, reads := [],
    writes := [], bad := [], held := [], tail := false, key := none }

/-- The copy engine before its first `FORK` (log 4). -/
def Cpy.reset : Cpy :=
  { s := Strm32.reset, ch := Vector.replicate 8 Chan.reset, queue := [], stamped := [] }

/-- No arrival and no release (01 R32). -/
def Bar.reset : Bar :=
  { arr := none, early := none, rel := none, till := none, conf := none }

/-- The firmware start block at reset (04 R133). -/
def FwBlock.reset : FwBlock :=
  { recp := 0, asid := 0, root := 0, go := false, fail := false }

/-- Core `n` after reset: no task, every holding with control (log 4). -/
def Core.reset (n : Nat) : Core :=
  { num := n, mode := .job, job := none, spsize := 0, task := Task.reset, others := [],
    vec := Vec.reset, mtx := Mtx.reset, cpy := Cpy.reset, acc := Vector.replicate 16 0, pad := [],
    hold := Vector.replicate 240 .ctl, transit := [], loads := [], adds := [], marker := none, writes := [], nms := [], walks := [], stop := none,
    wstart := 16, ready := [], blocked := 0, stalled := Vector.replicate 4 false, bar := Bar.reset, tlb := [], code := [], repin := [], xlt := none,
    fw := FwBlock.reset, tvec := 0, epc := 0, ecause := 0 }

/-- A gate register at `FORK` (01 R24). -/
def Gate.reset : Gate :=
  { k := 0, ty := 0, m := [] }

/-- An Astrolabe engine with no stream (10 R323; log 4). -/
def Astro.reset : Astro :=
  { s := Strm32.reset, core := none, task := 0, g := Vector.replicate 8 Gate.reset, st := none,
    kop := 0, qseq := 0, wait := none, stop := none }

/-- The units of a die after reset. -/
def Die.reset : Die :=
  { tlb := [], dir := [], reqs := [], astro := Astro.reset }

/-- The OS area block after reset (01 R49). -/
def OsArea.reset : OsArea :=
  { framebase := 0, aframebase := 0, ctbase := 0, ctlim := 0,
    rspbase := Vector.replicate 4 0, rsplim := Vector.replicate 4 0, ctfull := false, rspfull := 0 }

/-- A disabled format region (02 R98). -/
def Frd.reset : Frd :=
  { v := false, base := 0, limit := 0, fmt := 0, scale := 0 }

/-- A Carafe after a cold reset (11 R365, R370). -/
def Stack.reset : Stack :=
  { elogHead := 0, elogNow := [], rowdrop := 0, periodNo := 0, unread := 0, uecount := 0, bankce := [],
    rows := [], progs := [], readBits := [], patrol := [], pptr := 0, wqueue := [], buses := [] }

/-- The Carafe common block after reset (11 R369). -/
def Carafe.reset : Carafe :=
  { rcen := false, period := 8, nextPeriod := 8, elogsz := 0, elogbase := 0,
    frd := Vector.replicate 16 Frd.reset, frdOld := [], retired := [], keys := [], stks := Vector.replicate 12 Stack.reset, start := 0 }

/-- A region's state at a Carafe at declaration (13 R407). -/
def VStack.reset : VStack :=
  { s := 0, vpass := 0, vptr := 0, aborted := [], forced := 0, passes := 0, stamp := 0xC000 }

/-- A region not declared (13 R407). -/
def Region.reset : Region :=
  { vv := false, base := 0, limit := 0, asid := 0, rdy := false,
    st := Vector.replicate 12 VStack.reset }

/-- The commit node after reset (13 R427). -/
def Node.reset : Node :=
  { txtmo := 0, ndec := 0, nabt := 0, sent := [] }

/-- A free barrier slot (14 R443). -/
def SysSlot.reset : SysSlot :=
  { job := none, compl := 0, gen := 0, arr := none, x := 0 }

/-- The host interface after reset (14 R441 to R443). -/
def HostIf.reset : HostIf :=
  { hrefused := 0, mbop := 0, mbgo := false, mbstat := 0, mbrlen := 0, mbnonce := 0,
    mbresp := [], slots := Vector.replicate 16 SysSlot.reset, msix := [] }

/-- The management port after reset. -/
def Mgmt.reset : Mgmt :=
  { chunks := [], answers := [] }

/-- A pod port that has not trained (14 R447). -/
def Port.reset : Port :=
  { up := false, dead := false, peer := 0, replays := 0, fecfix := 0, tries := 0 }

/-- The package right after a cold reset (14 R450, step 7), the Chronograph at zero (01 R33), memory with nothing
listed. What the spec gives no reset value is at the value log 4 names. -/
def State.reset : State :=
  { chron := 0, pkg := 0, rstep := 7, powered := true, gated := false, core := Core.reset 0,
    others := [], turn := some .ctl, inbox := [], free := 0, mem := [], sectors := [], rpoison := [], dies := Vector.replicate 4 Die.reset,
    jobs := [], nextJob := 0, chosen := none, spaces := [], objs := [], recs := [], accs := [], reds := [], colls := [], orphans := [],
    os := OsArea.reset, carafe := Carafe.reset, regions := Vector.replicate 16 Region.reset, blocks := [],
    node := Node.reset, groups := [], host := HostIf.reset, mgmt := Mgmt.reset, flash := [], fwver := 0, fwdigest := 0,
    ports := Vector.replicate 16 Port.reset, fences := 0, signals := [] }

end Sys2Proof.Machine
end

