-- ==== Sys2Proof/Machine/Mem.lean ====
section
/-! DEFINITION. Bytes by address in canonical form (00 R4, 02 R57): a byte that nothing has written reads as zero
(11 R358; log 5), and writing zero removes the entry. -/

namespace Sys2Proof.Machine

/-- The byte at an address. -/
def Mem.get : Mem → Nat → Byte
  | [], _ => 0
  | (k, v) :: m, a => if k = a then v else Mem.get m a

/-- Writes one byte. -/
def Mem.set : Mem → Nat → Byte → Mem
  | [], a, b => if b = 0 then [] else [(a, b)]
  | (k, v) :: m, a, b =>
    if a < k then (if b = 0 then (k, v) :: m else (a, b) :: (k, v) :: m)
    else if a = k then (if b = 0 then m else (a, b) :: m)
    else (k, v) :: Mem.set m a b

/-- The `n` bytes from an address on. -/
def Mem.read (m : Mem) (a : Nat) : Nat → List Byte
  | 0 => []
  | n + 1 => m.get a :: Mem.read m (a + 1) n

/-- Writes bytes from an address on. -/
def Mem.write (m : Mem) (a : Nat) : List Byte → Mem
  | [] => m
  | b :: bs => Mem.write (m.set a b) (a + 1) bs

/-- Every entry above `lo`, in rising order, none zero. -/
def Mem.wfFrom : Nat → Mem → Bool
  | _, [] => true
  | lo, (k, v) :: m => lo ≤ k && v != 0 && Mem.wfFrom (k + 1) m

/-- The canonical form. -/
def Mem.wf (m : Mem) : Bool := Mem.wfFrom 0 m

/-- The entries of [a, a + n). -/
def Mem.slice (m : Mem) (a n : Nat) : Mem := m.filter fun c => a ≤ c.1 && c.1 < a + n

/-- The entries outside [a, a + n). -/
def Mem.erase (m : Mem) (a n : Nat) : Mem := m.filter fun c => !(a ≤ c.1 && c.1 < a + n)

end Sys2Proof.Machine
end

