-- ==== Sys2Proof/Machine/Phys.lean ====
section
/-! DEFINITION. Memory behind the translation: stks and sectors, ECC, poison, tags, keys, recoding, version blocks,
reduction accumulators (02 R83, R84, R93, R96, 11 R354 to R368, 13 R407 to R416). -/

namespace Sys2Proof.Machine

/-- First global address of host memory; package p begins at p × 2^42 (00 R1, 07 R266). -/
def hostBase : Nat := 2 ^ 54

/-- The global address of a package-local PA. -/
def gaOf (pkg : BitVec 12) (pa : Nat) : Nat := pkg.toNat * 2 ^ 42 + pa

/-- A global address in host memory. -/
def gaHost (ga : Nat) : Bool := hostBase ≤ ga

/-- Package of a global address. -/
def gaPkg (ga : Nat) : Nat := ga / 2 ^ 42

/-- Package-local PA of a global address. -/
def gaPa (ga : Nat) : Nat := ga % 2 ^ 42

/-- Size of the DRAM of a package that has storage (07 R252). -/
def dramSize : Nat := 768 * 2 ^ 30

/-- The exclusive or of the six nibbles that spread granule groups over the stks (11 R354). -/
def nibbleFold (q : Nat) : Nat :=
  (q % 16) ^^^ (q / 16 % 16) ^^^ (q / 2 ^ 8 % 16) ^^^ (q / 2 ^ 12 % 16) ^^^ (q / 2 ^ 16 % 16) ^^^ (q / 2 ^ 20 % 16)

/-- stack_of (11 R354): stack and stack-local address. -/
def stackOf (pa : Nat) : Nat × Nat :=
  let g := pa / 4096
  let q := g / 12
  ((g % 12 + nibbleFold q) % 12, q * 4096 + pa % 4096)

/-- PA of a stack-local address: the inverse of stack_of (11 R354). -/
def paOf (k la : Nat) : Nat :=
  let q := la / 4096
  (12 * q + (k + 16 * 12 - nibbleFold q) % 12) * 4096 + la % 4096

/-- slot1 (13 R408): the same stack, 2^35 further on. -/
def slot1 (pa : Nat) : Nat :=
  let (s, la) := stackOf pa
  paOf s (la + 2 ^ 35)

/-- Metadata of a sector after a cold reset (11 R358). -/
def Sector.fresh (pa : Nat) : Sector :=
  { pa := pa, rtag := 0, raw := true, poison := false, err := [], ckey := none }

/-- A sector put into the list, which is sorted and lists no fresh sector. -/
def putIn (x : Sector) : List Sector → List Sector
  | [] => if x = Sector.fresh x.pa then [] else [x]
  | y :: ys =>
    if x.pa < y.pa then (if x = Sector.fresh x.pa then y :: ys else x :: y :: ys)
    else if x.pa = y.pa then (if x = Sector.fresh x.pa then ys else x :: ys)
    else y :: putIn x ys

/-- The metadata of the sector at `pa`. -/
def State.sectorAt (s : State) (pa : Nat) : Sector := (s.sectors.find? (fun x => x.pa = pa)).getD (Sector.fresh pa)

/-- Sets the metadata of a sector. -/
def State.putSector (s : State) (x : Sector) : State := { s with sectors := putIn x s.sectors }

/-- An updated Carafe stack block. -/
def State.mapStack (s : State) (k : Nat) (f : Stack → Stack) : State :=
  match s.carafe.stks[k]? with
  | some x => { s with carafe := { s.carafe with stks := s.carafe.stks.set! k (f x) } }
  | none => s

/-- Pseudo-channel, bank and row of a stack-local address (11 R354). -/
def pchOf (la : Nat) : Nat := la / 64 % 64
/-- The bank. -/
def bankOf (la : Nat) : Nat := la / 2 ^ 16 % 16
/-- The row. -/
def rowOf (la : Nat) : Nat := la / 2 ^ 20 % 2 ^ 16

/-- The key material that identifier `k` selects (11 R362, R369): none for identifier 0. -/
def State.keyMat (s : State) (k : BitVec 8) : Option (BitVec 512) :=
  if k = 0 then none
  else match s.carafe.keys.find? (fun x => x.id = k && x.v) with
    | some x => some (x.dkey ++ x.tkey)
    | none => some 0

/-- One corrected read in the counters of its bank and row (11 R367). -/
def Stack.corrected (la : Nat) (x : Stack) : Stack :=
  let b := 16 * pchOf la + bankOf la
  let old := ((x.bankce.find? (fun e => e.1 = b)).map Prod.snd).getD 0
  let new := if old = BitVec.allOnes 32 then old else old + 1
  let hit := fun (r : RowEntry) => r.row.toNat = rowOf la && r.bank.toNat = bankOf la && r.pch.toNat = pchOf la
  let bce := (b, new) :: x.bankce.filter (fun e => e.1 ≠ b)
  if x.rows.any hit then
    { x with bankce := bce, rows := x.rows.map fun r =>
        if hit r && r.count != BitVec.allOnes 16 then { r with count := r.count + 1 } else r }
  else
    let e : RowEntry :=
      { count := 1, row := BitVec.ofNat 16 (rowOf la), bank := BitVec.ofNat 4 (bankOf la),
        pch := BitVec.ofNat 6 (pchOf la) }
    if x.rows.length < 4096 then { x with bankce := bce, rows := x.rows ++ [e] }
    else
      let least := x.rows.foldl (fun m r => min m r.count.toNat) (2 ^ 16)
      let i := x.rows.findIdx (fun r => r.count.toNat = least)
      { x with bankce := bce, rows := x.rows.set i e, rowdrop := x.rowdrop + 1 }

/-- The regions that cover a PA of this package and are in service (13 R407). -/
def State.regionAt (s : State) (pa : Nat) : Option Nat :=
  (List.range 16).find? fun v =>
    match s.regions[v]? with
    | some r => r.rdy && r.base.toNat ≤ pa / 4096 && pa / 4096 < r.limit.toNat
    | none => false

/-- The slot-0 address of which a PA is slot 1 (13 R408). -/
def slot0 (pa : Nat) : Option Nat :=
  let (s, la) := stackOf pa
  if la < 2 ^ 35 then none else some (paOf s (la - 2 ^ 35))

/-- The region whose slot 0 or slot 1 holds a sector. -/
def State.slotRegion (s : State) (pa : Nat) : Option Nat :=
  match s.regionAt pa with
  | some v => some v
  | none => (slot0 pa).bind s.regionAt

/-- The state of a region at the stack of a PA. -/
def State.vstack (s : State) (v pa : Nat) : VStack :=
  ((s.regions[v]?).bind (fun r => r.st[(stackOf pa).1]?)).getD VStack.reset

/-- The block of a granule; a block with no entry has slot 0 committed and its stack's stamp (13 R407, R409). -/
def State.blockAt (s : State) (v pa : Nat) : VBlock :=
  (s.blocks.find? (fun b => b.pa = pa / 4096 * 4096)).getD
    { pa := pa / 4096 * 4096, tgen := (s.vstack v pa).stamp, cs := false }

/-- First stack-local address of the metadata words of version blocks (13 R408). -/
def vmetaBase : Nat := 2 ^ 36 - 2 ^ 25

/-- The bytes of a sector as its Carafe holds them: in the range of the metadata words, the word of each block of a region in
service (13 R408, R409). -/
def State.sectorBytes (s : State) (pa : Nat) : List Byte :=
  let d := s.mem.read (gaOf s.pkg pa) 64
  let (k, la) := stackOf pa
  if la < vmetaBase then d
  else (List.range 16).flatMap fun j =>
    let b := paOf k ((la - vmetaBase + 4 * j) / 4 * 4096)
    match s.regionAt b with
    | some v => let x := s.blockAt v b; natLe 4 (x.tgen.toNat + (if x.cs then 2 ^ 16 else 0))
    | none => (d.drop (4 * j)).take 4

/-- The bytes in which a sector is stored (11 R362, R363): recoded when `RAW` is 0, encrypted under its key. -/
def Sector.stored (x : Sector) (d : List Byte) : List Byte :=
  let p := if x.raw then d else recodeSector d
  match x.ckey with
  | some k => xts false k x.pa p
  | none => p

/-- What stored bytes read as under a key (11 R362, R363). -/
def servedAs (key : Option (BitVec 512)) (raw : Bool) (pa : Nat) (p : List Byte) : List Byte :=
  let p := if raw then p else p.take 48
  let q := match key with
    | some k => xts true k pa p
    | none => p
  if raw then q else unrecodeSector q

/-- The bytes of a sector, held as its own key reads them, under a reader's key (02 R96, 11 R362). -/
def Sector.under (x : Sector) (key : Option (BitVec 512)) (d : List Byte) : List Byte :=
  if x.ckey = key then d else servedAs key x.raw x.pa (x.stored d)

/-- A sector with the symbols in error as they are read (11 R359): symbols 0 to 31 are its stored bytes, symbol 32 its tags,
`RAW` and `POISON`, the others check symbols. -/
def Sector.asRead (x : Sector) (d : List Byte) : Sector × List Byte :=
  let flips := natLe 64 (x.err.foldl (fun n e => if e.1 < 32 then n ^^^ e.2.toNat * 2 ^ (16 * e.1) else n) 0)
  let m := x.err.foldl (fun m e => if e.1 = 32 then m ^^^ e.2 else m) 0#16
  let raw := x.raw != bit m 8
  let p := x.stored d
  ({ x with rtag := x.rtag ^^^ m.setWidth 8, raw := raw, poison := true, err := [] },
    servedAs x.ckey raw x.pa (List.zipWith (· ^^^ ·) (p ++ List.replicate (64 - p.length) 0) flips))

/-- What a read of a sector gives: its 64 bytes, its tags, whether it is served as poisoned. -/
structure SectorRead where
  data   : List Byte
  tags   : BitVec 8
  poison : Bool
  deriving DecidableEq, Repr

/-- The check that every read by the Carafe makes of a sector (11 R359, R360): what the reader's key reads, and whether the
sector was found uncorrectable and written back as read with `POISON` = 1. `wb` writes a corrected sector back. -/
def State.sense (s : State) (pa : Nat) (wb : Bool) (key : Option (BitVec 512)) : State × SectorRead × Bool :=
  let x := s.sectorAt pa
  let d := s.sectorBytes pa
  if x.poison then (s, { data := x.under key d, tags := x.rtag, poison := true }, false)
  else if x.err.length = 0 then (s, { data := x.under key d, tags := x.rtag, poison := false }, false)
  else if x.err.length = 1 then
    let (k, la) := stackOf pa
    let s := s.mapStack k (Stack.corrected la)
    (if wb then s.putSector { x with err := [] } else s, { data := x.under key d, tags := x.rtag, poison := false }, false)
  else
    let miss := if x.err.length = 2 then none else Config.freeSector s.free
    let s := if x.err.length = 2 then s else { s with free := s.free + 1 }
    match miss with
    | none =>
      let (y, e) := x.asRead d
      (State.putSector { s with mem := s.mem.write (gaOf s.pkg pa) e } y,
        { data := y.under key e, tags := y.rtag, poison := true }, true)
    | some (v, m) => (s, { data := natLe 64 v.toNat, tags := m.setWidth 8, poison := bit m 9 }, false)

/-- The lowest-numbered enabled format region of a set of descriptors that covers a PA (02 R99). -/
def formatRegion (frd : Vector Frd 16) (pa : Nat) : Option Nat :=
  (List.range 16).find? fun n =>
    match frd[n]? with
    | some f => f.v && f.base.toNat ≤ pa % 2 ^ 40 / 4096 && pa % 2 ^ 40 / 4096 < f.limit.toNat
    | none => false

/-- Whether a write of these bytes stores the sector recoded (11 R363). -/
def State.recodes (s : State) (pa : Nat) (d : List Byte) : Bool :=
  s.carafe.rcen && recodable d &&
    (List.range 16).any fun n => match s.carafe.frd[n]? with
      | some f => f.v && f.fmt = 1 && f.base.toNat ≤ pa / 4096 && pa / 4096 < f.limit.toNat
      | none => false

/-- A write of a sector by the Carafe (11 R355, R360, R361, R363): bytes where `b` has one, the tag bits of the words
written, poisoned when `poison`; `raw` fixes how it is stored (`NM.RECODE`). The sector joins the write queue (11 R364). With
it, whether the read of a merge found the sector uncorrectable. -/
def State.mergeSector (s : State) (pa : Nat) (b : List (Option Byte)) (tags : BitVec 8) (poison : Bool)
    (key : Option (BitVec 512)) (raw : Option Bool) : State × Bool :=
  let whole := b.length = 64 && b.all Option.isSome
  let (s, old, hit) :=
    if whole then (s, { data := [], tags := (s.sectorAt pa).rtag, poison := false }, false) else s.sense pa true key
  let d := (List.range 64).map fun i => match b[i]? with
    | some (some v) => v
    | _ => old.data.getD i 0
  let wm := (List.range 8).foldl (fun (m : BitVec 8) k =>
    if (List.range 8).any (fun j => match b[8 * k + j]? with | some (some _) => true | _ => false)
    then m ||| (1#8 <<< k) else m) 0
  let y : Sector :=
    { pa := pa, rtag := (old.tags &&& ~~~wm) ||| (tags &&& wm), raw := raw.getD (!s.recodes pa d),
      poison := poison || old.poison, err := [], ckey := key }
  let (k, _) := stackOf pa
  let s := s.mapStack k fun x => if x.wqueue.contains pa then x else { x with wqueue := x.wqueue ++ [pa] }
  (State.putSector { s with mem := s.mem.write (gaOf s.pkg pa) d } y, hit)

/-- One sector's worth of bytes of a write of `d` at `a`. -/
def sectorPart (sa a : Nat) (d : List Byte) : List (Option Byte) :=
  (List.range 64).map fun i => if a ≤ sa + i && sa + i < a + d.length then d[sa + i - a]? else none

/-- `CORR` for the steps that are open on a version region whose slots hold a sector (13 R438). -/
def State.corrAt (s : State) (pa : Nat) : State :=
  match s.slotRegion pa with
  | none => s
  | some v =>
    let asid := ((s.regions[v]?).map Region.asid).getD 0
    { s with jobs := s.jobs.map fun j => if j.asid = asid && !j.sent then { j with corr := true } else j }

/-- Cycle of a log record. -/
def logChron (r : BitVec 256) : Nat := bits r 63 0
/-- Source of a log record. -/
def logSrc (r : BitVec 256) : Nat := bits r 79 64

/-- A detection of an uncorrectable sector (11 R368): counters, and the log record, in the stack's ring in the order of the
sources among the records of one cycle (01 R35); a version region takes none (13 R410). A record is itself a write of a part of a sector, whose merge may find that
sector uncorrectable: it is poisoned, so no more detections follow than sectors are listed. -/
def State.logDetection : Nat → State → Nat → Nat → Nat → State
  | 0, s, _, _, _ => s
  | f + 1, s, pa, src, kind =>
    let (k, la) := stackOf pa
    let x := (s.carafe.stks[k]?).getD Stack.reset
    let sz := s.carafe.elogsz.toNat
    let rec_ : BitVec 256 := BitVec.ofNat 256 (s.chron.toNat + src % 2 ^ 16 * 2 ^ 64 + kind % 16 * 2 ^ 80 +
      pa / 64 % 2 ^ 34 * 2 ^ 134 + (pchOf la + bankOf la * 2 ^ 6 + rowOf la * 2 ^ 10) * 2 ^ 192)
    let now := x.elogNow.filter fun r => logChron r = s.chron.toNat
    let before := now.filter fun r => logSrc r ≤ logSrc rec_
    let moved := rec_ :: now.filter fun r => logSrc rec_ < logSrc r
    let first := x.elogHead.toNat + 2 ^ 32 + 1 - moved.length
    let s := s.mapStack k fun x =>
      { x with elogHead := x.elogHead + 1, uecount := x.uecount + 1, elogNow := before ++ moved }
    let s := if sz = 0 then s
      else moved.zipIdx.foldl (fun s (r, i) =>
        let at_ := s.carafe.elogbase.toNat * 4096 + k * 32 * 2 ^ sz + ((first + i) % 2 ^ sz) * 32
        if dramSize < at_ + 32 || (s.regionAt at_).isSome then s
        else
          let sa := at_ / 64 * 64
          let (s, hit) := s.mergeSector sa (sectorPart sa at_ (natLe 32 r.toNat)) 0 false none none
          if hit then s.logDetection f sa (0x500 + (stackOf sa).1) 6 else s) s
    s.corrAt pa

/-- A detection of an uncorrectable sector, logged (11 R368). -/
def State.logError (s : State) (pa src kind : Nat) : State := s.logDetection (s.sectors.length + 1) pa src kind

/-- A read of a sector of this package by the Carafe (11 R359, R360, R362): corrected, poisoned and logged as its
errors ask, decrypted under the reader's key. `kind` is the `KIND` of a log record, and a patrol read, `NM.SCRUB` or a
merge (`wb`) writes a corrected sector back. -/
def State.readSector (s : State) (pa src kind : Nat) (wb : Bool) (key : Option (BitVec 512)) : State × SectorRead :=
  let (s, r, hit) := s.sense pa wb key
  (if hit then s.logError pa src kind else s, r)

/-- A write of a sector on behalf of a source, which a log record of its merge names (11 R360). -/
def State.writeSector (s : State) (pa : Nat) (b : List (Option Byte)) (tags : BitVec 8) (poison : Bool)
    (key : Option (BitVec 512)) (src : Nat) (raw : Option Bool) : State :=
  let (s, hit) := s.mergeSector pa b tags poison key raw
  if hit then s.logError pa src 6 else s

/-- Number of the block of slot 0 at `pa` among the blocks of its region in its stack (13 R416). -/
def blockIndex (base pa : Nat) : Nat :=
  ((List.range (pa / 4096 - base)).filter fun k => (stackOf ((base + k) * 4096)).1 = (stackOf pa).1).length

/-- Number of blocks of a region in a stack. -/
def Region.blocksIn (r : Region) (k : Nat) : Nat :=
  ((List.range (r.limit.toNat - r.base.toNat)).filter fun i => (stackOf ((r.base.toNat + i) * 4096)).1 = k).length

/-- resolve (13 R412): the block after resolution and its age. -/
def VBlock.resolve (b : VBlock) (S : BitVec 16) (aborted : List (BitVec 16)) : VBlock :=
  let a := (S - b.tgen).toNat
  if a = 0 then b
  else if a < 16384 then
    if aborted.contains b.tgen then { b with tgen := S - 16384 }
    else { b with cs := !b.cs, tgen := S - 16384 }
  else b

/-- Sets a block's metadata, among the blocks in ascending order. -/
def State.putBlock (s : State) (b : VBlock) : State :=
  { s with blocks := s.blocks.filter (fun c => c.pa < b.pa) ++ [b] ++ s.blocks.filter (fun c => b.pa < c.pa) }

/-- An updated state of a region at a stack. -/
def State.mapVStack (s : State) (v k : Nat) (f : VStack → VStack) : State :=
  match s.regions[v]? with
  | some r => match r.st[k]? with
    | some x => { s with regions := s.regions.set! v { r with st := r.st.set! k (f x) } }
    | none => s
  | none => s

/-- Every access to a block resolves it; an access to the block at `VPTR` is its visit in the pass and
moves `VPTR` past it (13 R412, R416). -/
def State.touchBlock (s : State) (v pa : Nat) : State × VBlock :=
  let t := s.vstack v pa
  let b := (s.blockAt v pa).resolve t.s t.aborted
  let base := ((s.regions[v]?).map (fun r => r.base.toNat)).getD 0
  let here := blockIndex base (pa / 4096 * 4096) = t.vptr.toNat
  let b := if here && 16384 ≤ (t.s - b.tgen).toNat then { b with tgen := t.s - 16384 } else b
  let s := s.putBlock b
  let s := if here
    then s.mapVStack v (stackOf pa).1 (fun x => { x with vptr := x.vptr + 1 }) else s
  (s, b)

/-- PA of a byte in slot `one` of its block. -/
def slotPa (one : Bool) (pa : Nat) : Nat := if one then slot1 pa else pa

/-- A copy of a whole block between its slots inside the base die, metadata and poison included (13 R413). -/
def State.copyBlock (s : State) (src dst source : Nat) : State :=
  (List.range 64).foldl (fun s i =>
    let (s, r) := s.readSector (src + 64 * i) source 4 false (s.sectorAt (src + 64 * i)).ckey
    let s := { s with mem := s.mem.write (gaOf s.pkg (dst + 64 * i)) r.data }
    s.putSector { s.sectorAt (src + 64 * i) with pa := dst + 64 * i, rtag := r.tags, poison := r.poison, err := [] }) s

/-- Where a read at a PA of this package is served (13 R412, R414): `none` when it is refused. -/
def State.routeRead (s : State) (pa : Nat) : State × Option Nat :=
  let p := pa % 2 ^ 40
  match s.regionAt p with
  | none => (s, if pa / 2 ^ 40 % 2 = 1 then none else some p)
  | some v =>
    let (s, b) := s.touchBlock v p
    let S := (s.vstack v p).s
    let tent := if b.tgen = S then !b.cs else b.cs
    (s, some (slotPa (if pa / 2 ^ 40 % 2 = 1 then b.cs else tent) p))

/-- Where a write at a PA of this package goes (13 R410, R413): `none` when it is refused. `whole` marks a near-memory
piece that writes every sector of the block. -/
def State.routeWrite (s : State) (pa : Nat) (g : Agent) (red whole : Bool) : State × Option Nat :=
  let p := pa % 2 ^ 40
  match s.regionAt p with
  | none => (s, if pa / 2 ^ 40 % 2 = 1 then none else some p)
  | some v =>
    let asid := ((s.regions[v]?).map Region.asid).getD 0
    if red || pa / 2 ^ 40 % 2 = 1 || g.asid ≠ some asid || !g.step then (s, none)
    else
      let (s, b) := s.touchBlock v p
      let S := (s.vstack v p).s
      if b.tgen = S then (s, some (slotPa (!b.cs) p))
      else
        let g0 := p / 4096 * 4096
        let s := if whole then s else s.copyBlock (slotPa b.cs g0) (slotPa (!b.cs) g0) g.src
        (s.putBlock { b with tgen := S }, some (slotPa (!b.cs) p))

/-- Addresses of the 64-byte sectors that [a, a + n) touches. -/
def sectorsOf (a n : Nat) : List Nat :=
  if n = 0 then [] else (List.range ((a + n - 1) / 64 - a / 64 + 1)).map (fun i => (a / 64 + i) * 64)

/-- Value of an accumulator's unit as a power of two (02 R83), by `TY4`. -/
def accUnit (ty : Nat) : Int := if ty = 4 then -1074 else if ty = 7 then -24 else -149

/-- The format of a floating `TY4` (04 R149). -/
def redFmt (ty : Nat) : Fmt := if ty = 4 then fmt64 else if ty = 5 then fmt32 else if ty = 6 then fmtBf else fmt16

/-- Bytes of a `TY4` (04 R149). -/
def redSize (ty : Nat) : Nat :=
  match ty with
  | 0 => 4 | 1 => 8 | 2 => 4 | 3 => 8 | 4 => 8 | 5 => 4 | _ => 2

/-- round_acc (02 R84). -/
def RedAcc.round (a : RedAcc) : Nat :=
  let F := redFmt a.ty
  if a.count > 2 ^ 40 || a.nan || (a.pinf && a.ninf) then F.nanc
  else if a.pinf then roundFull F 0 false false (.inf false) 0
  else if a.ninf then roundFull F 0 false false (.inf true) 0
  else if a.n = 0 then roundFull F 0 false false (.zero a.negz) 0
  else roundFull F 0 false false (.fin (a.n < 0) a.n.natAbs (accUnit a.ty) false) 0

/-- Source number of the L2 and directory of the home die of a PA (01 R34). -/
def homeSrc (pa : Nat) : Nat := 0x400 + 16 * ((stackOf (pa % 2 ^ 40)).1 / 3) + 3

/-- Rounds one accumulator into its target word (02 R84). -/
def State.roundOut (s : State) (a : RedAcc) : State :=
  let d := natLe (redSize a.ty) a.round
  let s := { s with accs := s.accs.filter (fun b => b.pa ≠ a.pa || b.ty ≠ a.ty || b.key ≠ a.key) }
  if gaPkg a.pa = s.pkg.toNat then
    let p := gaPa a.pa % 2 ^ 40
    s.writeSector (p / 64 * 64) (sectorPart (p / 64 * 64) p d) 0 false (s.keyMat a.key) (homeSrc p) none
  else { s with mem := s.mem.write a.pa d }

/-- Level of the narrowest unit that contains two cores of this package (02 R71). -/
def commonLevel (a b : Nat) : Nat := if a = b then 1 else if a / 4 = b / 4 then 2 else if a / 64 = b / 64 then 3 else 4

/-- The count n_L of a task (02 R71). -/
def Counts.at (c : Counts) (l : Nat) : Nat :=
  match l with
  | 1 => c.core
  | 2 => c.quad
  | 3 => c.die
  | 4 => c.pkg
  | _ => c.pod

/-- The tasks of a job that cores hold. -/
def State.tasksOf (s : State) (job : Nat) : List Task :=
  (s.core :: s.others).flatMap fun c => if c.job = some job then c.task :: c.others else []

/-- A release separates a contribution from an access (02 R71, R84): one that both tasks have observed; for an access of no task,
any that the contributor has observed since, or its end. -/
def State.parted (s : State) (job : Nat) (w : Contrib) (g : Agent) : Bool :=
  match g.at_ with
  | some (core, cnt) =>
    let l := match w.core with
      | some c => commonLevel c core
      | none => 5
    w.cnt.at l < cnt.at l
  | none => (s.tasksOf job).all fun t => (w.core.isSome && t.idx ≠ w.task) || t.st = .ended || w.cnt.all < t.counts.all

/-- An access rounds an accumulator of its key: releases part it from every contribution (02 R84, R96). -/
def State.rounds (s : State) (g : Agent) (a : RedAcc) : Bool := a.key = g.key && a.who.all fun w => s.parted a.job w g

/-- Rounds every accumulator whose word touches [ga, ga + n) and that an access rounds (02 R84). -/
def State.settle (s : State) (ga n : Nat) (g : Agent) : State :=
  (s.accs.filter fun a => a.pa < ga + n && ga < a.pa + redSize a.ty && s.rounds g a).foldl State.roundOut s

/-- What a read of a stretch of memory gives: its bytes, the tag of each 8-byte word that begins in it, the global
addresses of its poisoned sectors, whether it was refused. -/
structure PhysRead where
  data    : List Byte
  tags    : List (Nat × Bool)
  bad     : List Nat
  refused : Bool
  deriving DecidableEq, Repr

/-- A read of [ga, ga + n): the lines are settled as at a first read (02 R84), then each sector is served (11 R355,
13 R414). Memory of the host and of other packages holds plain bytes (log 5); `rpoison` lists the sectors of other packages
that this one wrote as poisoned (06 R227). -/
def State.physRead (s : State) (ga n : Nat) (g : Agent) (kind : Nat) : State × PhysRead :=
  let s := s.settle (ga / 128 * 128) ((ga + n + 127) / 128 * 128 - ga / 128 * 128) g
  if gaHost ga || gaPkg ga ≠ s.pkg.toNat then
    (s, { data := s.mem.read ga n, tags := [], bad := (sectorsOf ga n).filter s.rpoison.contains, refused := false })
  else
    (sectorsOf (gaPa ga) n).foldl (fun (s, r) sa =>
      match s.routeRead sa with
      | (s, none) => (s, { r with refused := true })
      | (s, some p) =>
        let (s, x) := s.readSector p g.src kind false (s.keyMat g.key)
        let lo := gaPa ga - sa
        let d := (x.data.drop lo).take (min 64 (gaPa ga + n - sa) - lo)
        (s, { data := r.data ++ d,
              tags := r.tags ++ (List.range 8).map (fun k => (gaOf s.pkg (sa + 8 * k), x.tags.getLsbD k)),
              bad := if x.poison then r.bad ++ [gaOf s.pkg sa] else r.bad, refused := r.refused }))
      (s, { data := [], tags := [], bad := [], refused := false })

/-- The poisoned sectors of other packages and the host after a write of [ga, ga + n) with these sectors poisoned (11 R360). -/
def State.poisonAfter (s : State) (ga n : Nat) (bad : List Nat) : List Nat :=
  let kept := s.rpoison.filter fun p => !(ga ≤ p && p + 64 ≤ ga + n) && !bad.contains p
  kept ++ bad

/-- How a write of a stretch of memory ends. -/
inductive PhysWrite where
  | done | refused
  deriving DecidableEq, Repr

/-- A write of bytes at `ga`: the words it reaches are settled (02 R84), and each sector is merged or written at its
Carafe. `tags` names the words whose tag is set, `bad` the sectors written as poisoned. -/
def State.physWrite (s : State) (ga : Nat) (d : List Byte) (g : Agent) (whole : Bool) (tags bad : List Nat) :
    State × PhysWrite :=
  let s := s.settle ga d.length g
  if gaHost ga then ({ s with mem := s.mem.write ga d, rpoison := s.poisonAfter ga d.length [] }, .done)
  else if gaPkg ga ≠ s.pkg.toNat then ({ s with mem := s.mem.write ga d, rpoison := s.poisonAfter ga d.length bad }, .done)
  else
    (sectorsOf (gaPa ga) d.length).foldl (fun (s, r) sa =>
      match s.routeWrite sa g false whole with
      | (s, none) => (s, .refused)
      | (s, some p) =>
        let tg := (List.range 8).foldl (fun (m : BitVec 8) k =>
          if tags.contains (gaOf s.pkg (sa + 8 * k)) then m ||| (1#8 <<< k) else m) 0
        (s.writeSector p (sectorPart sa (gaPa ga) d) tg (bad.contains (gaOf s.pkg sa)) (s.keyMat g.key) g.src none, r))
      (s, .done)

end Sys2Proof.Machine
end

