-- ==== Sys2Proof/Machine/Ops.lean ====
section
/-! DEFINITION. The outcome of an instruction, waiting, taking a fault and returning from one, registers, launch
records, the cores of the package (01 R14 to R25, R41 to R48, 04 R131, R136, R165). -/

namespace Sys2Proof.Machine

/-- The outcome of an instruction or a step. -/
abbrev Out := Host.Outcome State Fault Refusal

/-- A fault about to be taken (01 R43): cause, `FINFO`, its extension, `FADDR`. -/
structure Trap where
  cause  : Cause
  finfo  : BitVec 32
  finfox : BitVec 16
  faddr  : Word
  deriving DecidableEq, Repr

/-- What a word that must wait leaves behind: nothing; that its stream is blocked in the sense of R46; a walk request
(07 R255); a fence's place in program order (02 R88); that the conflict table or a spill area has no room (01 R49); the state
in which a page operation has acted and waits for what it is behind (07 R257, R262). -/
inductive Note where
  | none
  | blocked
  | walk (die : Nat) (r : WalkReq)
  | marker (n : Nat)
  | ctFull
  | acted (s : State)
  deriving DecidableEq, Repr

/-- Why a word does not take effect: it waits, it faults (with the effects its reads had on memory), or the model
stops. -/
inductive Stop where
  | stall (n : Note)
  | trap (t : Trap)
  | trapIn (s : State) (t : Trap)
  | fault (f : Fault)

/-- A computation over the state that may wait or fault. -/
abbrev Op (α : Type) := StateT State (Except Stop) α

/-- The word waits at issue and is tried again (04 R165). -/
def stall {α : Type} : Op α := throw (.stall .none)

/-- The word waits, and its stream is blocked (01 R46). -/
def stallBlocked {α : Type} : Op α := throw (.stall .blocked)

/-- Raises a fault with `FADDR` and `FINFO`. -/
def trapWith {α : Type} (c : Cause) (faddr : Nat) (finfo : Nat) : Op α :=
  throw (.trap { cause := c, finfo := BitVec.ofNat 32 finfo, finfox := 0, faddr := BitVec.ofNat 64 faddr })

/-- Raises a fault with neither. -/
def trap {α : Type} (c : Cause) : Op α := trapWith c 0 0

/-- Raises a fault after reads that left their mark on memory (11 R360). -/
def trapKeep {α : Type} (c : Cause) (faddr : Nat) (finfo : Nat) : Op α := do
  let s ← get
  throw (.trapIn s { cause := c, finfo := BitVec.ofNat 32 finfo, finfox := 0, faddr := BitVec.ofNat 64 faddr })

/-- Raises a fault when a condition holds. -/
def trapIf (b : Bool) (c : Cause) : Op Unit := if b then trap c else pure ()

/-- Waits while a condition holds. -/
def stallIf (b : Bool) : Op Unit := if b then stall else pure ()

/-- Code of an engine (01 R34). -/
def Eng.code : Eng → Nat
  | .ctl => 0 | .vec => 1 | .mtx => 2 | .cpy => 3

/-- The engine of a code. -/
def engOf (c : BitVec 2) : Eng := if c = 0 then .ctl else if c = 1 then .vec else if c = 2 then .mtx else .cpy

/-- Kind of a stream (03 R125). -/
def strmCode : Strm → Nat
  | .ctl => 0 | .vec => 1 | .mtx => 2 | .cpy => 3 | .ast => 4

/-- The engine whose code a core stream has; an Astrolabe stream is no engine of the core. -/
def strmEng : Strm → Eng
  | .ctl => .ctl | .vec => .vec | .mtx => .mtx | .cpy => .cpy | .ast => .ctl

/-- The stream of an engine. -/
def Eng.strm : Eng → Strm
  | .ctl => .ctl | .vec => .vec | .mtx => .mtx | .cpy => .cpy

/-- Code of a fault cause (01 R45). -/
def Cause.code : Cause → Nat
  | .preempt => 0x00 | .illegalWord => 0x01 | .reservedField => 0x02 | .orphanPrefix => 0x03 | .badPrefix => 0x04
  | .privilege => 0x05 | .align => 0x06 | .flagOwner => 0x07 | .scheduleMiss => 0x08 | .scheduleCollision => 0x09
  | .shape => 0x0A | .range => 0x0B | .segmentHolder => 0x0C | .deadlock => 0x0D | .pageAbsent => 0x10
  | .writeProtect => 0x11 | .execProtect => 0x12 | .heapLimit => 0x13 | .xltConflict => 0x14 | .ephemerisStore => 0x15
  | .sealedStore => 0x18 | .escape => 0x19 | .scopeVisibility => 0x1A | .superstepConflict => 0x1B
  | .nmUncorrectable => 0x20 | .memUncorrectable => 0x21 | .linkDead => 0x22 | .accessRefused => 0x23 | .txState => 0x28
  | .qmap => 0x30 | .launch => 0x38 | .machineCheck => 0xFF

/-- Die of a core (01 R13). -/
def Core.die (c : Core) : Nat := c.num / 64

/-- Updates the core at hand. -/
def State.mapCore (s : State) (f : Core → Core) : State := { s with core := f s.core }

/-- Updates the resident task. -/
def State.mapTask (s : State) (f : Task → Task) : State := { s with core := { s.core with task := f s.core.task } }

/-- Updates the control registers. -/
def State.mapCtl (s : State) (f : Ctl → Ctl) : State := s.mapTask fun t => { t with ctl := f t.ctl }

/-- The control registers. -/
def State.ctl (s : State) : Ctl := s.core.task.ctl

/-- A control register; `x0` reads as zero (04 R131). -/
def Ctl.getX (c : Ctl) (r : BitVec 6) : Word := if r = 0 then 0 else c.x[r.toNat]

/-- Writes a control register; a write to `x0` is discarded (04 R131). -/
def Ctl.setX (c : Ctl) (r : BitVec 6) (v : Word) : Ctl := if r = 0 then c else { c with x := c.x.set r.toNat v }

/-- A predicate (04 R131). -/
def Ctl.getP (c : Ctl) (n : BitVec 3) : Bool := c.p.getLsbD n.toNat

/-- The predicates with one of them written. -/
def setPred (p : BitVec 8) (n : BitVec 3) (v : Bool) : BitVec 8 :=
  (p &&& ~~~(1#8 <<< n.toNat)) ||| (if v then 1#8 <<< n.toNat else 0)

/-- Writes a predicate. -/
def Ctl.setP (c : Ctl) (n : BitVec 3) (v : Bool) : Ctl := { c with p := setPred c.p n v }

/-- The program counter past `n` bytes. -/
def Ctl.skip (c : Ctl) (n : Nat) : Ctl := { c with pc := c.pc + BitVec.ofNat 64 n }

/-- The control stream past its word. -/
def State.advance (s : State) : State := s.mapCtl (fun c => c.skip 4)

/-- A register of another stream; `x0` reads as zero (05 R167). -/
def Strm32.getX (c : Strm32) (r : BitVec 5) : Word := if r = 0 then 0 else c.x[r.toNat]

/-- Writes a register of another stream; a write to `x0` is discarded. -/
def Strm32.setX (c : Strm32) (r : BitVec 5) (v : Word) : Strm32 := if r = 0 then c else { c with x := c.x.set r.toNat v }

/-- A predicate of another stream. -/
def Strm32.getP (c : Strm32) (n : BitVec 3) : Bool := c.p.getLsbD n.toNat

/-- Writes a predicate of another stream. -/
def Strm32.setP (c : Strm32) (n : BitVec 3) (v : Bool) : Strm32 := { c with p := setPred c.p n v }

/-- The stream past `n` bytes. -/
def Strm32.skip (c : Strm32) (n : Nat) : Strm32 := { c with pc := c.pc + BitVec.ofNat 64 n }

/-- Updates the vector engine. -/
def State.mapVec (s : State) (f : Vec → Vec) : State := s.mapCore fun c => { c with vec := f c.vec }
/-- Updates the matrix engine. -/
def State.mapMtx (s : State) (f : Mtx → Mtx) : State := s.mapCore fun c => { c with mtx := f c.mtx }
/-- Updates the copy engine. -/
def State.mapCpy (s : State) (f : Cpy → Cpy) : State := s.mapCore fun c => { c with cpy := f c.cpy }

/-- A die's units. -/
def State.dieAt (s : State) (d : Nat) : Die := (s.dies[d]?).getD Die.reset

/-- Updates a die's units. -/
def State.mapDie (s : State) (d : Nat) (f : Die → Die) : State := { s with dies := s.dies.set! d (f (s.dieAt d)) }

/-- The Astrolabe engine of the core's die. -/
def State.astro (s : State) : Astro := (s.dieAt s.core.die).astro

/-- Updates the Astrolabe engine of the core's die. -/
def State.mapAstro (s : State) (f : Astro → Astro) : State :=
  s.mapDie s.core.die fun d => { d with astro := f d.astro }

/-- The registers of a stream other than control. -/
def State.strm32 (s : State) : Strm → Strm32
  | .ctl => Strm32.reset
  | .vec => s.core.vec.s
  | .mtx => s.core.mtx.s
  | .cpy => s.core.cpy.s
  | .ast => s.astro.s

/-- Updates the registers of a stream other than control. -/
def State.mapStrm (s : State) (k : Strm) (f : Strm32 → Strm32) : State :=
  match k with
  | .ctl => s
  | .vec => s.mapVec fun v => { v with s := f v.s }
  | .mtx => s.mapMtx fun v => { v with s := f v.s }
  | .cpy => s.mapCpy fun v => { v with s := f v.s }
  | .ast => s.mapAstro fun v => { v with s := f v.s }

/-- Whether a stream runs, has ended, or is not forked (01 R24). -/
def State.runOf (s : State) : Strm → Run
  | .ctl => s.ctl.run
  | .ast =>
    if s.astro.core = some s.core.num && s.astro.task = s.core.task.idx then s.astro.s.run else .off
  | k => (s.strm32 k).run

/-- A stream of the task is forked and not yet joined (01 R24). -/
def State.forked (s : State) (k : Strm) : Bool := s.runOf k != .off

/-- A vector, matrix or copy stream of the task is forked and not yet joined. -/
def State.anyForked (s : State) : Bool := s.forked .vec || s.forked .mtx || s.forked .cpy

/-- The same, with the Astrolabe stream. -/
def State.anyForkedA (s : State) : Bool := s.anyForked || s.forked .ast

/-- Program counter of a stream. -/
def State.pcOf (s : State) : Strm → Word
  | .ctl => s.ctl.pc
  | k => (s.strm32 k).pc

/-- Source number of a stream (01 R34). -/
def State.srcOf (s : State) : Strm → Nat
  | .ast => 0x400 + 16 * s.core.die + 2
  | k => s.core.num * 4 + (strmEng k).code

/-- The job of an identifier. -/
def State.jobAt (s : State) (n : Nat) : Option Job := s.jobs.find? (fun j => j.id = n)

/-- Updates the job of an identifier. -/
def State.mapJobAt (s : State) (n : Nat) (f : Job → Job) : State :=
  { s with jobs := s.jobs.map fun j => if j.id = n then f j else j }

/-- The job, or firmware context, of the core at hand. -/
def State.job (s : State) : Option Job := s.core.job.bind s.jobAt

/-- Updates the job of the core at hand. -/
def State.mapJob (s : State) (f : Job → Job) : State :=
  match s.core.job with
  | some n => s.mapJobAt n f
  | none => s

/-- The launch record of the core's job; zero when it has none. -/
def State.lrec (s : State) : BitVec 4608 := (s.job.map Job.lrec).getD 0

/-- Bits [hi:lo] of the doubleword at a byte offset of a launch record (01 R16). -/
def lrField (r : BitVec 4608) (off hi lo : Nat) : Nat := bits r (8 * off + hi) (8 * off + lo)

/-- `PRIO`. -/
def lrPrio (r : BitVec 4608) : Nat := lrField r 0 18 16
/-- `SPAN`. -/
def lrSpan (r : BitVec 4608) : Nat := lrField r 0 21 19
/-- `TXN`. -/
def lrTxn (r : BitVec 4608) : Bool := lrField r 0 22 22 = 1
/-- `KMASK`. -/
def lrKmask (r : BitVec 4608) : Nat := lrField r 0 27 23
/-- `SPSIZE`. -/
def lrSpsize (r : BitVec 4608) : Nat := lrField r 0 31 28
/-- `GROUP`. -/
def lrGroup (r : BitVec 4608) : Nat := lrField r 0 47 32
/-- `NCORE`. -/
def lrNcore (r : BitVec 4608) : Nat := lrField r 0 63 48
/-- `TASKS`. -/
def lrTasks (r : BitVec 4608) : Nat := lrField r 8 31 0
/-- `TLIMIT`. -/
def lrTlimit (r : BitVec 4608) : Nat := lrField r 8 63 32
/-- `SEED`. -/
def lrSeed (r : BitVec 4608) : Word := BitVec.ofNat 64 (lrField r 0x10 63 0)
/-- `HEAPBASE`. -/
def lrHeapBase (r : BitVec 4608) : Nat := lrField r 0x18 63 0
/-- `HEAPLIM`. -/
def lrHeapLim (r : BitVec 4608) : Nat := lrField r 0x20 63 0
/-- `HEAPOFF`. -/
def lrHeapOff (r : BitVec 4608) : Nat := lrField r 0x28 63 0
/-- `WINTAB`. -/
def lrWintab (r : BitVec 4608) : Nat := lrField r 0x30 63 0
/-- `COMPL`. -/
def lrCompl (r : BitVec 4608) : Nat := lrField r 0x38 63 0
/-- `TSAVE`. -/
def lrTsave (r : BitVec 4608) : Nat := lrField r 0x40 63 0
/-- `LIVEACC`. -/
def lrLiveAcc (r : BitVec 4608) (n : Nat) : Bool := lrField r 0x48 n n = 1
/-- `LIVESEG`. -/
def lrLiveSeg (r : BitVec 4608) (n : Nat) : Bool := lrField r 0x60 n n = 1
/-- `XINIT` of control register `x(8 + k)`. -/
def lrXinit (r : BitVec 4608) (k : Nat) : Word := BitVec.ofNat 64 (lrField r (0x80 + 8 * k) 63 0)
/-- `FLAGCONS` of a flag. -/
def lrFlagCons (r : BitVec 4608) (f : Nat) : BitVec 2 := BitVec.ofNat 2 (lrField r 0xC0 (2 * f + 1) (2 * f))
/-- `CODEBASE` of a stream kind (01 R17). -/
def lrCodeBase (r : BitVec 4608) (k : Nat) : Nat := lrField r (0x100 + 64 * k) 63 0
/-- `CODELEN` of a stream kind. -/
def lrCodeLen (r : BitVec 4608) (k : Nat) : Nat := lrField r (0x108 + 64 * k) 31 0
/-- `ENTRY` of a stream kind. -/
def lrEntry (r : BitVec 4608) (k : Nat) : Nat := lrField r (0x108 + 64 * k) 63 32
/-- `XINIT8` to `XINITB` of a stream kind. -/
def lrXinitK (r : BitVec 4608) (k i : Nat) : Word := BitVec.ofNat 64 (lrField r (0x110 + 64 * k + 8 * i) 63 0)

/-- A job of a record that waits in its launch queue (01 R16, R36). -/
def Job.new (id : Nat) (fw : Bool) (r : BitVec 4608) (recva : Nat) (asid : BitVec 16) (root : BitVec 41) (key : BitVec 8)
    (clsmap : Word) (prio now : Nat) : Job :=
  { id := id, fw := fw, lrec := r, recva := recva, asid := asid, root := root, key := key, clsmap := clsmap,
    prio := prio, st := .waiting, enq := now, cores := [], admitted := none, since := now, used := 0, preempts := 0,
    ended := [], steps := 0, parent := none, preq := none, gen := 0, voted := none, corr := false, sent := false,
    decided := [], applied := none, votes := [], first := none, fences := 0, spill := [], aspill := [], frames := [] }

/-- Address space of the core's context (07 R254). -/
def State.asid (s : State) : BitVec 16 := (s.job.map Job.asid).getD 0

/-- Key identifier of the core's context (02 R96). -/
def State.key (s : State) : BitVec 8 := (s.job.map Job.key).getD 0

/-- A group's member packages. -/
def State.groupPkgs (s : State) (g : Nat) : List (BitVec 12) :=
  ((s.groups.find? (fun x => x.num.toNat = g)).map Group.pkgs).getD []

/-- Package rank of a job in this package (01 R15): 0 when `SPAN` ≤ `.pkg`. -/
def State.rankOf (s : State) (r : BitVec 4608) : Nat :=
  if lrSpan r ≤ 4 then 0 else (s.groupPkgs (lrGroup r)).findIdx (fun p => p = s.pkg)

/-- place (01 R22): core of a task, from the reserved cores in ascending order. -/
def placeOf (seed : Word) (cores : List Nat) (i : Nat) : Nat :=
  let v := mixLow (mix seed (BitVec.ofNat 32 i, 0, 0, 1))
  cores.getD (v.toNat % cores.length) 0

/-- Core of a task of a job. -/
def Job.place (j : Job) (i : Nat) : Nat := placeOf (lrSeed j.lrec) j.cores i

/-- Tasks of a job on a core, in ascending index (01 R23). -/
def Job.tasksOn (j : Job) (core : Nat) : List Nat := (List.range (lrTasks j.lrec)).filter (fun i => j.place i = core)

/-- The core at hand holds more than one task of its job (01 R23). -/
def State.sharesCore (s : State) : Bool :=
  match s.job with
  | some j => 1 < (j.tasksOn s.core.num).length
  | none => false

/-- The core of a number: the one at hand, a listed one, or one after reset. -/
def State.coreAt (s : State) (n : Nat) : Core :=
  if s.core.num = n then s.core else (s.others.find? (fun c => c.num = n)).getD (Core.reset n)

/-- Puts a core among the others, sorted, with no core listed that is as after reset. -/
def putCore (c : Core) : List Core → List Core
  | [] => if c = Core.reset c.num then [] else [c]
  | d :: ds =>
    if c.num < d.num then (if c = Core.reset c.num then d :: ds else c :: d :: ds)
    else if c.num = d.num then (if c = Core.reset c.num then ds else c :: ds)
    else d :: putCore c ds

/-- The package with core `n` at hand. -/
def State.focus (s : State) (n : Nat) : State :=
  if s.core.num = n then s
  else { s with core := s.coreAt n, others := putCore s.core (s.others.filter fun c => c.num ≠ n) }

/-- Updates the core of a number. -/
def State.mapCoreAt (s : State) (n : Nat) (f : Core → Core) : State :=
  if s.core.num = n then s.mapCore f
  else { s with others := putCore (f (s.coreAt n)) (s.others.filter fun c => c.num ≠ n) }

/-- Updates the core at hand and every listed one. -/
def State.eachCore (s : State) (f : Core → Core) : State :=
  (s.others.map Core.num).foldl (fun s n => s.mapCoreAt n f) (s.mapCore f)

/-- Acts with core `n` at hand and returns to the core before. -/
def State.onCore (s : State) (n : Nat) (f : State → State) : State := (f (s.focus n)).focus s.core.num

/-- The cores of the unit of level `sc` that contains a core. -/
def unitOf (sc core : Nat) : Nat :=
  match sc with
  | 1 => core
  | 2 => core / 4
  | 3 => core / 64
  | _ => 0

/-- A pre-emption of the core's job was requested in this cycle (01 R53). -/
def State.preqNow (s : State) : Bool :=
  match s.job with
  | some j => j.preq == some s.chron.toNat
  | none => false

/-- The record of a stop (01 R43). -/
def State.stopRec (s : State) (e : Eng) (t : Trap) : StopRec :=
  { cause := t.cause, eng := e, pend := s.preqNow, multi := false,
    src := BitVec.ofNat 16 (s.core.num * 4 + e.code), finfo := t.finfo, finfox := t.finfox, faddr := t.faddr,
    fchron := s.chron, wstart := s.core.wstart, framed := false }

/-- Taking a fault in an engine of the core (01 R41, R43, R44): the four sequencers stop and the record is kept. A fault while a
pre-emption's stop drains, in its first cycle too, is recorded in its place with `PEND` (01 R53); a further fault of the same
cycle sets `MULTI`, and the lowest source number is recorded. -/
def State.stopCore (s : State) (e : Eng) (t : Trap) : State :=
  match s.core.stop with
  | none => s.mapCore fun c => { c with stop := some (s.stopRec e t) }
  | some r =>
    let n := s.stopRec e t
    if r.framed then s
    else if r.cause = .preempt && r.finfo = 0 then s.mapCore fun c => { c with stop := some { n with pend := true } }
    else if r.fchron = s.chron then
      s.mapCore fun c => { c with stop := some { (if n.src < r.src then n else r) with multi := true, pend := r.pend || n.pend } }
    else s

/-- Taking a fault in the Astrolabe stream of the die, or its stop: a collective that gathers is abandoned (10 R350, R352). -/
def State.stopAstro (s : State) (t : Trap) : State :=
  s.mapAstro fun a => match a.stop with
    | none => { a with wait := none, stop := some {
        cause := t.cause, finfo := t.finfo, faddr := t.faddr, fchron := s.chron, pend := s.preqNow, framed := false } }
    | some r => { a with stop := some { r with pend := r.pend || t.cause = .preempt } }

/-- Taking a fault in a stream. -/
def State.takeFault (s : State) (k : Strm) (t : Trap) : State :=
  match k with
  | .ast => s.stopAstro t
  | k => s.stopCore (strmEng k) t

/-- Marks a stream blocked (01 R46). -/
def State.block (s : State) (k : Strm) : State :=
  match k with
  | .ast => s
  | k => s.mapCore fun c => { c with stalled := c.stalled.set! (strmEng k).code true }

/-- What a waiting word leaves behind. -/
def State.leave (s : State) (k : Strm) : Note → State
  | .none => s
  | .blocked => s.block k
  | .walk d r => s.mapDie d fun x => if x.reqs.contains r then x else { x with reqs := x.reqs ++ [r] }
  | .marker n => s.mapCore fun c => { c with marker := some (c.marker.getD n) }
  | .acted t => t
  | .ctFull => if s.os.ctfull then s else { s with os := { s.os with ctfull := true }, signals := s.signals ++ [.ctFull] }

/-- Commands that stand in an engine's queue (01 R14; log 19): those that have not started, for the control and the matrix engine
those that have not completed. The transfer of a chain's record is held by its channel (06 R213) and takes no entry. -/
def State.queued (s : State) (e : Eng) : Nat :=
  let c := s.core
  (c.adds.filter fun a => a.eng = e).length +
    match e with
    | .ctl => c.nms.length + (s.reds.filter fun r => !r.away && r.core = c.num).length
    | .vec => 0
    | .mtx => c.mtx.queue.length + (c.mtx.stamped.filter fun m => !m.void).length
    | .cpy => (c.cpy.queue.filter fun x => !x.moved && x.done = 0 && x.chan.isNone).length +
        (c.cpy.stamped.filter fun x => !x.void && !x.moved && x.own.isNone).length

/-- The queue of an engine has room for one more of its sixteen entries (01 R14). -/
def queueRoom (e : Eng) : Op Unit := do
  let s ← get
  stallIf (16 ≤ s.queued e)

/-- Runs a word of a stream: its effect, or the state unchanged but for what a wait or a fault leaves (01 R42,
04 R165). -/
def runOp (k : Strm) (op : Op Unit) (s : State) : Out :=
  match op.run s with
  | .ok ((), t) => .next t
  | .error (.stall n) => .next (s.leave k n)
  | .error (.trap t) => .next (s.takeFault k t)
  | .error (.trapIn u t) => .next (u.takeFault k t)
  | .error (.fault f) => .fault f

/-- Runs a control word and moves past it. -/
def runCtl (op : Op Unit) (s : State) : Out := runOp .ctl (do op; modify State.advance) s

/-- A result for this control register is on its way (04 R165). -/
def Core.awaits (c : Core) (r : BitVec 6) : Bool :=
  c.loads.any fun w => match w.2 with
    | .x d _ => d = r
    | _ => false

/-- Waits until the control registers named have been written (04 R165). -/
def needX (rs : List (BitVec 6)) : Op Unit := do
  let s ← get
  if rs.any s.core.awaits then stall else pure ()

/-- Reads a control register, waiting for it. -/
def rdX (r : BitVec 6) : Op Word := do
  needX [r]
  let s ← get
  return s.ctl.getX r

/-- Writes a control register, behind every earlier result for it. -/
def wrX (r : BitVec 6) (v : Word) : Op Unit := do
  needX [r]
  modify fun s => s.mapCtl fun c => c.setX r v

/-- A word that only computes: waits for its registers, writes `d`, moves on. -/
def aluOp (d : BitVec 6) (srcs : List (BitVec 6)) (f : Ctl → Word) (s : State) : Out :=
  if (d :: srcs).any s.core.awaits then .next s
  else .next (s.mapCtl fun c => (c.setX d (f c)).skip 4)

/-- Whether the core runs in job mode. -/
def State.jobMode (s : State) : Bool := s.core.mode = .job

/-- A scope wider than the `SPAN` of the job raises `RANGE` (01 R12). -/
def scopeOk (sc : BitVec 3) : Op Unit := do
  let s ← get
  trapIf (lrSpan s.lrec < sc.toNat) .range

/-- The next place in program order. -/
def nextSeq : Op Nat := do
  let s ← get
  set (s.mapTask fun t => { t with seq := t.seq + 1 })
  return s.core.task.seq

/-- The agent that an access of a stream of the resident task is (13 R410). -/
def State.agent (s : State) (k : Strm) : Agent :=
  { src := s.srcOf k, key := s.key, asid := some s.asid, step := s.jobMode && s.core.task.tx.st = 1,
    at_ := some (s.core.num, s.core.task.counts) }

end Sys2Proof.Machine
end

