-- ==== Sys2Proof/Machine/Windows.lean ====
section
/-! DEFINITION. Ephemeris windows: descriptors, lookup and the values of elements (08 R276 to R281). -/

namespace Sys2Proof.Machine

/-- Bits [hi:lo] of the doubleword at a byte offset of a window descriptor (08 R277). -/
def wField (d : BitVec 1024) (off hi lo : Nat) : Nat := bits d (8 * off + hi) (8 * off + lo)

/-- `GEN`. -/
def wGen (d : BitVec 1024) : Nat := wField d 0 3 1
/-- `SAT`. -/
def wSat (d : BitVec 1024) : Bool := wField d 0 4 4 = 1
/-- `KS`. -/
def wKs (d : BitVec 1024) : Bool := wField d 0 5 5 = 1
/-- `WFMT`. -/
def wFmt (d : BitVec 1024) : BitVec 5 := BitVec.ofNat 5 (wField d 0 10 6)
/-- First VA. -/
def wBase (d : BitVec 1024) : Nat := wField d 0 47 12 * 4096
/-- Size in bytes. -/
def wSize (d : BitVec 1024) : Nat := wField d 8 28 0 * 4096
/-- `ROWLEN`. -/
def wRowLen (d : BitVec 1024) : Nat := wField d 0x10 40 0
/-- `ROW0`. -/
def wRow0 (d : BitVec 1024) : Int := sval 64 (wField d 0x18 63 0)
/-- `COL0`. -/
def wCol0 (d : BitVec 1024) : Int := sval 64 (wField d 0x20 63 0)
/-- `KEY`. -/
def wKey (d : BitVec 1024) : Word := BitVec.ofNat 64 (wField d 0x28 63 0)
/-- `Pk`. -/
def wP (d : BitVec 1024) (k : Nat) : Nat := wField d (0x30 + 8 * k) 63 0

/-- A vector type code is a floating format (05 R193). -/
def vtFloat (t : BitVec 5) : Bool := t.toNat < 4 || (16 ≤ t.toNat && t.toNat < 24)

/-- The type of a vector type code (05 R193); for a narrow format that of its descriptor (03 R109). -/
def vecTy (nfd : Vector (BitVec 5) 8) (t : BitVec 5) : Ty :=
  match t.toNat with
  | 0 => .flt fmt32
  | 1 => .flt fmtBf
  | 2 => .flt fmt16
  | 3 => .flt fmt64
  | 4 => .int true 8
  | 5 => .int true 16
  | 6 => .int true 32
  | 7 => .int true 64
  | 8 => .int false 8
  | 9 => .int false 16
  | 10 => .int false 32
  | 11 => .int false 64
  | n => .flt (fmtNarrow (nfd.toList.getD (n - 16) 0))

/-- A vector type code names a descriptor that is unset (03 R109). -/
def nfdUnset (nfd : Vector (BitVec 5) 8) (t : BitVec 5) : Bool :=
  16 ≤ t.toNat && t.toNat < 24 && bits (nfd.toList.getD (t.toNat - 16) 0) 2 0 = 0

/-- The enabled window of lowest number that contains a VA (08 R281). -/
def Task.windowAt (t : Task) (va : Nat) : Option Nat :=
  (List.range 16).find? fun n => match t.wins[n]? with
    | some w => w.en && wBase w.img ≤ va && va < wBase w.img + wSize w.img
    | none => false

/-- An enabled window reaches into [va, va + n). -/
def Task.windowTouches (t : Task) (va n : Nat) : Bool :=
  t.wins.toList.any fun w => w.en && wBase w.img < va + n && va < wBase w.img + wSize w.img

/-- Bits of `d` from the most significant set bit down, for pow32. -/
def pow32From (g : Exact) (d : Nat) : Nat → Nat → Nat
  | 0, y => y
  | k + 1, y =>
    let y := roundFull fmt32 0 false false (Exact.mul (fmt32.decode y) (fmt32.decode y)) 0
    let y := if d.testBit k then roundFull fmt32 0 false false (Exact.mul (fmt32.decode y) g) 0 else y
    pow32From g d k y

/-- pow32 (08 R280). -/
def pow32 (g : Exact) (d : Nat) : Nat := pow32From g d (if d = 0 then 0 else Nat.log2 d + 1) 0x3F800000

/-- ctr(r′, c′) of a window (08 R280). -/
def winMix (key : Word) (salt : Nat) (r c : Int) : Mix :=
  mix key (BitVec.ofInt 32 r, BitVec.ofInt 32 c, BitVec.ofNat 32 salt, BitVec.ofNat 32 (salt / 2 ^ 32 % 2 ^ 24 * 256 + 2))

/-- element (08 R280): the raw code of element `i`. -/
def winElement (nfd : Vector (BitVec 5) 8) (stepKey : Word) (w : Window) (i : Nat) : Nat :=
  let d := w.img
  let t := vecTy nfd (wFmt d)
  let r : Int := (i / wRowLen d : Nat) + wRow0 d
  let c : Int := (i % wRowLen d : Nat) + wCol0 d
  let conv (x : Exact) : Nat := match t with
    | .flt F => roundFull F 0 (wSat d) false x 0
    | .int _ _ => 0
  let value (p : Nat) : Nat := match t with
    | .flt _ => conv (fmt64.decode p)
    | .int _ n => p % 2 ^ n
  let number (v : Int) : Nat := match t with
    | .flt _ => conv (Exact.ofInt v)
    | .int _ n => wrapTo n v
  let key := if wKs d then stepKey else wKey d
  match wGen d with
  | 0 => match t with
    | .flt _ => conv (exactSum false [fmt64.decode (wP d 0), Exact.mul (fmt64.decode (wP d 1)) (Exact.ofInt i)])
    | .int _ n => wrapTo n (wrapTo 64 (sval 64 (wP d 0) + sval 64 (wP d 1) * (i : Int)))
  | 1 => if c ≤ r + sval 64 (wP d 0) then value (wP d 1) else value (wP d 2)
  | 2 =>
    if r - c < 0 then conv (.zero false)
    else conv (fmt32.decode (pow32 (fmt32.decode (wP d 0 % 2 ^ 32)) (r - c).toNat))
  | 3 =>
    let th := fmt32.decode ((w.theta.getD (c / 2).toNat 0).toNat)
    let g := roundFull fmt32 0 false false (Exact.mul (Exact.ofInt r) th) 0
    let y := Exact.trig (c % 2 = 0) (fmt32.decode g)
    conv (fmt32.decode (roundFull fmt32 0 false false y 0))
  | 4 =>
    let m := winMix key (wP d 0 % 2 ^ 56) r c
    if wP d 1 = 0 then (mixLow m).toNat % 2 ^ t.width
    else match t with
      | .flt F =>
        if F = fmt64 then conv (.fin false ((mixLow m).toNat / 2 ^ 11) (-53) false)
        else roundFull F 1 false false (.fin false (m.1.toNat / 2 ^ 8) (-24) false) 0
      | .int _ _ => 0
  | 5 =>
    let m := winMix key (wP d 0 % 2 ^ 56) r c
    number (if m.1.toNat % 2 ^ 16 < wP d 1 then 1 else 0)
  | 6 => value (wP d 0)
  | _ => number (if r = c then 1 else 0)

/-- Number of the element that holds a byte of a window (08 R279). -/
def winElem (nfd : Vector (BitVec 5) 8) (d : BitVec 1024) (va : Nat) : Nat :=
  (va - wBase d) / ((vecTy nfd (wFmt d)).width / 8)

/-- A byte of a window (08 R279). -/
def winByte (nfd : Vector (BitVec 5) 8) (stepKey : Word) (w : Window) (va : Nat) : Byte :=
  let sz := (vecTy nfd (wFmt w.img)).width / 8
  BitVec.ofNat 8 (winElement nfd stepKey w (winElem nfd w.img va) / 256 ^ ((va - wBase w.img) % sz))

/-- The step key of the resident task (13 R421). -/
def State.stepKeyOf (s : State) : Word := stepKey (lrSeed s.lrec) s.core.task.tx.step

/-- The step key of the resident task when it has a step open (08 R284). -/
def State.openKey (s : State) : Option Word := if s.core.task.tx.st = 0 then none else some s.stepKeyOf

/-- Bytes of a window from a VA on, under the step key of the reading command (08 R284). -/
def State.winBytes (s : State) (n va len : Nat) (key : Word) : List Byte :=
  let w := (s.core.task.wins[n]?).getD Window.reset
  (List.range len).map fun k => winByte s.core.task.nfd key w (va + k)

end Sys2Proof.Machine
end

