-- ==== Sys2Proof/Machine/Access.lean ====
section
/-! DEFINITION. Effective addresses, translation, class checks, the superstep record, and the reads and writes of a
stream (02 R58 to R81, 07 R247 to R265, 12 R388, R394, R396). -/

namespace Sys2Proof.Machine

/-- `AKIND` of an access (07 R265). -/
inductive AK where
  | load | store | red | fetch | tile | cpyRd | cpyWr | ipin | astRd | astWr | nmRd | nmWr | vld | vst
  deriving DecidableEq, Repr

/-- Code of an access kind. -/
def AK.code : AK → Nat
  | .load => 0 | .store => 1 | .red => 2 | .fetch => 3 | .tile => 4 | .cpyRd => 5 | .cpyWr => 6 | .ipin => 7
  | .astRd => 8 | .astWr => 9 | .nmRd => 10 | .nmWr => 11 | .vld => 12 | .vst => 13

/-- Writes, reductions included. -/
def AK.writes : AK → Bool
  | .store | .red | .cpyWr | .astWr | .nmWr | .vst => true
  | _ => false

/-- Code fetches. -/
def AK.fetches : AK → Bool
  | .fetch | .ipin => true
  | _ => false

/-- Single size of a leaf of a level (07 R249). -/
def pageBytes (lvl : Nat) : Nat := 4096 * 512 ^ lvl

/-- Bytes of a page of a size code (07 R249). -/
def sizeBytes (z : Nat) : Nat := pageBytes (z / 2) * (if z % 2 = 1 then 16 else 1)

/-- `PA` of an entry. -/
def ptePa (e : BitVec 64) : Nat := bits e 40 12 * 4096
/-- `PKG` of an entry. -/
def ptePkg (e : BitVec 64) : Nat := bits e 52 41

/-- An entry is malformed at a level (07 R250). -/
def pteBad (e : BitVec 64) (lvl : Nat) : Bool :=
  bits e 11 9 != 0 || bits e 63 53 != 0
  || (!bit e 1 && lvl = 0)
  || (!bit e 1 && (bits e 8 2 != 0 || ptePkg e != 0 || bit e 40))
  || (bit e 1 && bit e 3 && !bit e 2)
  || (bit e 7 && lvl = 3)
  || (bit e 8 && (bit e 5 || ptePkg e != 0 || bit e 40))
  || (bit e 1 && ptePa e % pageBytes lvl != 0)

/-- A read of a table's doubleword at its home by a walk (07 R250, 11 R355, R359, 13 R414): the Carafe checks its sector, under
no key; what a home refuses reads as absent. -/
def State.readPte (s : State) (pa src : Nat) : State × BitVec 64 :=
  match s.routeRead (pa / 64 * 64) with
  | (s, none) => (s, 0)
  | (s, some p) =>
    let (s, r) := s.readSector p src 0 false none
    (s, BitVec.ofNat 64 (leNat ((r.data.drop (pa % 64)).take 8)))

/-- An entry of a table of this package, read as one unit (07 R250). -/
def State.pte (s : State) (pa : Nat) : BitVec 64 := (s.readPte pa 0).2

/-- The group of an entry agrees (07 R251); `line` is the PA of its 128-byte line. -/
def State.groupAgrees (s : State) (line lvl : Nat) : Bool :=
  let es := (List.range 16).map fun j => s.pte (line + 8 * j)
  let b := ptePa (es.headD 0)
  let e0 := es.headD 0
  es.all (fun e => bit e 0 && bit e 1 && bit e 7 && bits e 8 2 = bits e0 8 2 && ptePkg e = ptePkg e0)
    && (List.range 16).all (fun j => ptePa (es.getD j 0) = b + j * pageBytes lvl)
    && b % (16 * pageBytes lvl) = 0

/-- What a walk gives (07 R250): an entry that stops it, with level, reason and the entry; or a leaf with its size code
and the PA of the entry. -/
inductive WalkRes where
  | absent (lvl why : Nat) (e : BitVec 64)
  | leaf (e : BitVec 64) (size pa : Nat)
  deriving DecidableEq, Repr

/-- walk (07 R250) from a level on. -/
def State.walkFrom (s : State) (va : Nat) : Nat → Nat → WalkRes
  | 0, _ => .absent 0 2 0
  | lvl + 1, t =>
    let pa := t + 8 * (va / (4096 * 512 ^ lvl) % 512)
    let e := s.pte pa
    if !bit e 0 then .absent lvl 0 e
    else if pteBad e lvl then .absent lvl 2 e
    else if bit e 1 then
      .leaf e (2 * lvl + (if bit e 7 && s.groupAgrees (pa / 128 * 128) lvl then 1 else 0)) pa
    else s.walkFrom va lvl (ptePa e)

/-- walk (07 R250). -/
def State.walk (s : State) (root : Nat) (va : Nat) : WalkRes := s.walkFrom va 4 root

/-- The reads of a walk from a level on, at the homes of its entries, in the name of a source (07 R250, 11 R359, R360): of a leaf that
asks for a group, its whole line. -/
def State.walkReads (s : State) (src va : Nat) : Nat → Nat → State
  | 0, _ => s
  | lvl + 1, t =>
    let pa := t + 8 * (va / (4096 * 512 ^ lvl) % 512)
    let e := s.pte pa
    let s := (s.readPte pa src).1
    if !bit e 0 || pteBad e lvl then s
    else if bit e 1 then
      (if bit e 7 then [0, 64].foldl (fun s o => (s.readPte (pa / 128 * 128 + o) src).1) s else s)
    else s.walkReads src va lvl (ptePa e)

/-- Source number of the translation engine of a die (01 R34). -/
def xltSrc (die : Nat) : Nat := 0x400 + 16 * die

/-- What a walk for a VA leaves of the sectors it reads (11 R359, R360). -/
def State.walked (s : State) (root va : Nat) : State := s.walkReads (xltSrc s.core.die) va 4 root

/-- The level-3 table of an address space in use (07 R248, R267): that of the first job of it, where its contexts differ (log 23). -/
def State.rootOf (s : State) (asid : BitVec 16) : Option Nat :=
  match s.jobs.find? (fun j => j.asid = asid) with
  | some j => some j.root.toNat
  | none => (s.spaces.find? (fun x => x.asid = asid)).map (fun x => x.root.toNat)

/-- The TLB entry of a leaf (07 R251, R256). -/
def tlbEntry (asid : BitVec 16) (va : Nat) (e : BitVec 64) (size pa : Nat) : TlbEntry :=
  let single := pageBytes (size / 2)
  let idx := va / single % 16
  let frame := if size % 2 = 1 then ptePa e - idx * single else ptePa e
  { asid := asid, va := va / sizeBytes size * sizeBytes size, size := size,
    leaf := (e &&& 0xFFFFFE0000000FFF#64) ||| BitVec.ofNat 64 frame, line := pa / 128 * 128, demoted := false }

/-- An entry translates a VA of an address space. -/
def TlbEntry.covers (x : TlbEntry) (asid : BitVec 16) (va : Nat) : Bool :=
  x.asid = asid && x.va ≤ va && va < x.va + sizeBytes x.size

/-- The global address that an entry gives a VA (07 R248). -/
def TlbEntry.ga (x : TlbEntry) (va : Nat) : Nat :=
  let off := ptePa x.leaf + (va - x.va)
  if bit x.leaf 8 then hostBase + off else ptePkg x.leaf * 2 ^ 42 + off

/-- Puts an entry into a TLB. -/
def fillTlb (x : TlbEntry) (l : List TlbEntry) : List TlbEntry := if l.contains x then l else l ++ [x]

/-- Sets a core's bit in a die's directory (07 R256). -/
def setSharer (x : TlbEntry) (core : Nat) (l : List DirEntry) : List DirEntry :=
  let b : BitVec 64 := 1#64 <<< (core % 64)
  let w := 16 * pageBytes (x.size / 2)
  let v := (x.va / w * w, w)
  if l.any (fun d => d.asid = x.asid && d.pa = x.line) then
    l.map fun d => if d.asid = x.asid && d.pa = x.line then
        { d with cores := d.cores ||| b, spans := if d.spans.contains v then d.spans else d.spans ++ [v] } else d
  else l ++ [{ asid := x.asid, pa := x.line, cores := b, spans := [v] }]

/-- Fills the TLB of a core of a die and the directory (07 R253, R256). -/
def State.fillCore (s : State) (core : Nat) (x : TlbEntry) : State :=
  let s := s.mapCoreAt core fun c => { c with tlb := fillTlb x c.tlb }
  s.mapDie (core / 64) fun d => { d with dir := setSharer x core d.dir }

/-- The `FINFO` of a translation fault (07 R265). -/
def xltInfo (k : AK) (lvl why small large : Nat) : Nat :=
  k.code + lvl * 16 + why * 64 + small * 256 + large * 2048

/-- The frame that a leaf gives the byte `off` of its page exists (07 R252). -/
def frameExists (leaf : BitVec 64) (off : Nat) : Bool := bit leaf 8 || (ptePa leaf + off) % 2 ^ 40 < dramSize

/-- The checks of R252 on the entry that decides; the moving page is met before. -/
def checkLeaf (k : AK) (va : Nat) (x : TlbEntry) : Op Unit :=
  let lvl := x.size / 2
  if !frameExists x.leaf (va - x.va) then trapWith .pageAbsent va (xltInfo k lvl 3 0 0)
  else if k.fetches then
    (if bit x.leaf 4 then pure () else trapWith .execProtect va (xltInfo k lvl 0 0 0))
  else if k.writes then
    (if bit x.leaf 3 && !bit x.leaf 5 then pure () else trapWith .writeProtect va (xltInfo k lvl 0 0 0))
  else (if bit x.leaf 2 then pure () else trapWith .pageAbsent va (xltInfo k lvl 1 0 0))

/-- Translation of a VA by the entries that match it (07 R259): the smallest decides; larger ones that disagree raise
`XLT_CONFLICT` and are dropped. -/
def decideHit (k : AK) (va : Nat) (hits : List TlbEntry) : Op Nat := do
  let small := hits.foldl (fun m x => min m x.size) 7
  match hits.find? (fun x => x.size = small) with
  | none => stall
  | some x =>
    let bad := hits.filter (fun y => y.ga va ≠ x.ga va)
    if bad = [] then
      checkLeaf k va x
      return x.ga va
    else
      let large := bad.foldl (fun m y => max m y.size) 0
      modify fun s => s.mapCore fun c => { c with tlb := c.tlb.filter (fun y => !bad.contains y) }
      trapKeep .xltConflict va (xltInfo k 0 0 small large)

/-- Raises a translation fault of a walk, whose reads have left their mark on the table's sectors (07 R250, 11 R359, R360). -/
def trapWalked {α : Type} (root va : Nat) (c : Cause) (faddr finfo : Nat) : Op α := do
  let s ← get
  if s.walked root va = s then trapWith c faddr finfo
  else do
    set (s.walked root va)
    trapKeep c faddr finfo

/-- A fault or a wait leaves what an operation of a stream has done before this part of it. -/
def keeping {α : Type} (st : Strm) (m : Op α) : Op α := fun s =>
  match m.run s with
  | .error (.trap k) => .error (.trapIn s k)
  | .error (.stall k) => .error (.stall (.acted (s.leave st k)))
  | r => r

/-- Translation of one VA by the paged TLB (07 R250 to R259): with no entry but demoted ones the die TLB fills the core's, or a
walk is asked for. -/
def translate (k : AK) (va : Nat) : Op Nat := do
  let s ← get
  let asid := s.asid
  let hits := s.core.tlb.filter (fun x => x.covers asid va)
  let root := (s.job.map (fun j => j.root.toNat)).getD 0
  if hits.any (fun x => !x.demoted) then decideHit k va hits
  else
    match (s.dieAt s.core.die).tlb.find? (fun x => x.covers asid va) with
    | some x =>
      set (s.fillCore s.core.num x)
      decideHit k va (if hits = [] then [x] else hits.filter (fun y => y ≠ x) ++ [x])
    | none =>
      match s.walk root va with
      | .absent lvl why _ => trapWalked root va .pageAbsent va (xltInfo k lvl why 0 0)
      | .leaf e size _ =>
        if bit e 6 then stall
        else throw (.stall (.walk s.core.die { core := s.core.num, asid := asid, va := va / sizeBytes size * sizeBytes size }))

/-- Pieces of [va, va + n) that lie in one 4 KiB page each, with fuel. -/
def pagePieces : Nat → Nat → Nat → List (Nat × Nat)
  | 0, _, _ => []
  | f + 1, va, n =>
    if n = 0 then []
    else
      let k := min n (4096 - va % 4096)
      (va, k) :: pagePieces f (va + k) (n - k)

/-- The pages of [va, va + n). -/
def pages (va n : Nat) : List (Nat × Nat) := pagePieces (n / 4096 + 2) va n

/-- Destination level of a global address seen from the core (02 R88): 3 die, 4 package, 5 pod, 6 host. -/
def State.homeLevel (s : State) (ga : Nat) : Nat :=
  if gaHost ga then 6
  else if gaPkg ga ≠ s.pkg.toNat then 5
  else if (stackOf (gaPa ga % 2 ^ 40)).1 / 3 = s.core.die then 3 else 4

/-- The link to another package is dead (14 R447; log 17): a port to it is dead and none is up. -/
def State.linkDead (s : State) (ga : Nat) : Bool :=
  !gaHost ga && gaPkg ga ≠ s.pkg.toNat &&
    s.ports.toList.any (fun p => p.dead && p.peer.toNat = gaPkg ga) &&
    !s.ports.toList.any (fun p => p.up && !p.dead && p.peer.toNat = gaPkg ga)

/-- The tasks of the core's job in this package. -/
def State.jobTasks (s : State) : List Task :=
  (s.core :: s.others).flatMap fun c => if c.job = s.core.job then c.task :: c.others else []

/-- A byte of [va, va + n) lies in a guarded completion area or record line of the job (04 R164, 06 R220; log 28). -/
def State.guarded (s : State) (va n : Nat) : Bool :=
  s.jobTasks.any fun t =>
    t.children.any (fun c => c.va < va + n && va < c.va + 64) ||
    t.guards.any (fun l => l < va + n && va < l + 128)

/-- The core of the owner of an object (12 R386). -/
def Obj.ownerCore (o : Obj) : Nat := o.owner.toNat / 4

/-- The job whose heap an object lies in. -/
def State.myObjs (s : State) : List Obj := s.objs.filter (fun o => some o.job = s.core.job)

/-- The object that covers a VA, as the resident task's checks see it (02 R70): for another task than its owner, only
after a release that separates them. -/
def State.objAt (s : State) (va : Nat) : Option Obj :=
  s.myObjs.find? fun o => o.va ≤ va && va < o.va + o.size &&
    (o.otask = s.core.task.idx ||
      o.made.at (commonLevel o.ownerCore s.core.num) < s.core.task.counts.at (commonLevel o.ownerCore s.core.num))

/-- The class of an object for the resident task: its own pending objects count as of class `PCLASS` (12 R390). -/
def State.classOf (s : State) (o : Obj) : Nat :=
  if o.otask = s.core.task.idx && o.pend then o.pcls.toNat else o.cls.toNat

/-- The core lies in the scope instance of an object (12 R396). -/
def State.inScope (s : State) (o : Obj) : Bool :=
  unitOf o.scope o.ownerCore = unitOf o.scope s.core.num

/-- The task may load an object (02 R69). -/
def State.mayLoad (s : State) (o : Obj) : Bool :=
  if s.classOf o = 0 then o.otask = s.core.task.idx else s.inScope o

/-- The check of one object for an access (02 R69, R81, 12 R388, R394, R396): whether the home refuses it. Outside the scope
instance the object is as it was before its release (02 R70), so that test comes first. -/
def checkObj (k : AK) (va n : Nat) (o : Obj) : Op Bool := do
  let s ← get
  let c := s.classOf o
  if k.writes && va < o.va + 16 && o.va < va + n then trapWith .range va 0
  else if k.writes && o.otask = s.core.task.idx && o.cls = 0 && s.core.walks ≠ [] then stall
  else if c = 0 then
    (if o.otask = s.core.task.idx then return false else trapWith .scopeVisibility va 0)
  else if !s.inScope o then trapWith .scopeVisibility va 0
  else if !k.writes then return false
  else if c = 1 then trapWith .sealedStore va 0
  else if c = 2 then return (o.token ≠ s.core.task.idx)
  else return (k ≠ .red)

/-- The class checks of [va, va + n): the stretches that the home refuses (02 R81). -/
def checkClass (k : AK) (va n : Nat) : Op (List (Nat × Nat)) := do
  let s ← get
  let os := s.myObjs.filter fun o => o.va < va + n && va < o.va + o.size && s.objAt (max o.va va) = some o
  os.foldlM (fun r o => do
    let b ← checkObj k va n o
    return if b then r ++ [(max o.va va, min (o.va + o.size) (va + n))] else r) []

/-- Where an access is served: scratchpad; a window, under the step key of its issue (08 R284); memory, with the stretches of VAs
whose home refuses a write. -/
inductive Place where
  | pad (off : Nat)
  | win (w va : Nat) (key : Word)
  | mem (segs : List Seg) (refused : List (Nat × Nat))
  deriving DecidableEq, Repr

/-- An engine holds a segment or accumulator of the holder table (02 R61, R62, 01 R44): one in transit names its giver. -/
def Core.holds (c : Core) (e : Eng) (i : Nat) : Bool :=
  c.hold[i]? == some e && !c.transit.any (fun t => t.first ≤ i && i < t.first + t.count)

/-- Segments of a scratchpad range. -/
def segsOf (off n : Nat) : List Nat :=
  if n = 0 then [] else (List.range ((off + n - 1) / 4096 - off / 4096 + 1)).map (fun i => off / 4096 + i)

/-- An engine holds every segment of a scratchpad range. -/
def Core.holdsPad (c : Core) (e : Eng) (off n : Nat) : Bool := (segsOf off n).all (c.holds e)

/-- Scratchpad bytes of the core (01 R16, R21). -/
def State.padBytes (s : State) : Nat := s.core.spsize.toNat * 131072

/-- A heap or paged address of the core's job. -/
def State.inHeap (s : State) (va : Nat) : Bool := lrHeapBase s.lrec ≤ va && va < lrHeapLim s.lrec

/-- An access that begins outside the heap reaches into it (02 R59). -/
def State.entersHeap (s : State) (va n : Nat) : Bool :=
  lrHeapBase s.lrec < lrHeapLim s.lrec && va < lrHeapBase s.lrec && lrHeapBase s.lrec < va + n

/-- Fault of a window address in a use that may not read one (08 R282). -/
def windowFault (k : AK) (w va : Nat) : Op Unit :=
  if k.fetches then trapWith .execProtect va (xltInfo k 0 0 0 0)
  else if k = .nmRd || k = .astRd || k = .astWr then trapWith .range va 0
  else if k.writes then trapWith .ephemerisStore va w
  else pure ()

/-- The home of every piece lies within a level, and no load or reduction needs a dead link (02 R82, R91). -/
def checkHomes (k : AK) (lim : Nat) (segs : List Seg) : Op Unit := do
  let s ← get
  match segs.find? (fun g => lim < s.homeLevel g.pa) with
  | some g => trapWith .range g.va 0
  | none =>
    match segs.find? (fun g => s.linkDead g.pa) with
    | some g => if !k.writes && k ≠ .nmRd || k = .red then trapWith .linkDead g.va 0 else pure ()
    | none => pure ()

/-- What serves a stretch of VAs: a window, or memory, as the pieces of each of the rows asked for. -/
inductive Source where
  | win (w : Nat)
  | mem (rows : List (List Seg))
  deriving DecidableEq, Repr

/-- What serves [va, va + n), of which `rows` are accessed, with every check of R58, R59, R220, R252, R281 and R282; `lim` is the
widest home level allowed, `open_` whether the command was issued in an open step (08 R284). -/
def locateIn (open_ : Bool) (k : AK) (lim va n : Nat) (rows : List (Nat × Nat)) : Op Source := do
  let s ← get
  if 2 ^ 48 < va + n || 2 ^ 48 ≤ va then trap .range
  else
    match s.core.task.windowAt va with
    | some w =>
      windowFault k w va
      let d := ((s.core.task.wins[w]?).getD Window.reset).img
      if wBase d + wSize d < va + n then trapWith .range va 0
      else if wKs d && !open_ then trap .txState
      else return .win w
    | none =>
      if s.core.task.windowTouches va n || (!k.fetches && rows.any fun r => s.guarded r.1 r.2) then trapWith .range va 0
      else if s.inHeap va then
        if k.fetches then trapWith .execProtect va (xltInfo k 0 0 0 0)
        else if lrHeapLim s.lrec < va + n then trapWith .heapLimit va (xltInfo k 0 0 0 0)
        else
          let l := rows.map fun r => (pages r.1 r.2).map fun (a, m) =>
            ({ va := a, pa := gaOf s.pkg ((a + lrHeapOff s.lrec) % 2 ^ 64), len := m } : Seg)
          checkHomes k lim l.flatten
          return .mem l
      else if s.entersHeap va n then trapWith .range va 0
      else
        let l ← rows.mapM fun r => (pages r.1 r.2).mapM fun (a, m) => do
          let g ← translate k a
          return ({ va := a, pa := g, len := m } : Seg)
        checkHomes k lim l.flatten
        return .mem l

/-- What serves [va, va + n) for a command that issues now. -/
def locate (k : AK) (lim va n : Nat) (rows : List (Nat × Nat)) : Op Source := do
  locateIn ((← get).core.task.tx.st ≠ 0) k lim va n rows

/-- Where [ea, ea + n) of the scratchpad class lies, with the checks of R58 and R62 against segments held. -/
def padPlace (held : Nat → Bool) (ea : Word) (n : Nat) : Op Place := do
  let s ← get
  let off := bits ea 19 0
  if bits ea 55 20 ≠ 0 || s.padBytes < off + n then trap .range
  else if !(segsOf off n).all held then trap .segmentHolder
  else return .pad off

/-- Where [ea, ea + n) is served for an access of a stream, with the checks of R58, R59, R62 and R69. -/
def place (st : Strm) (k : AK) (lim : Nat) (ea : Word) (n : Nat) : Op Place := do
  let s ← get
  if bits ea 63 56 = 0xFE then padPlace (s.core.holds (strmEng st)) ea n
  else
    match ← locate k lim ea.toNat n [(ea.toNat, n)] with
    | .win w => return .win w ea.toNat s.stepKeyOf
    | .mem l => do
      let r ← checkClass k ea.toNat n
      return .mem l.flatten r

/-- Where a range of virtual memory is served for a command that was issued under a step key, `none` outside an open step (08
R284). -/
def placeUnder (key : Option Word) (k : AK) (lim : Nat) (ea : Word) (n : Nat) : Op Place := do
  match ← locateIn key.isSome k lim ea.toNat n [(ea.toNat, n)] with
  | .win w => return .win w ea.toNat (key.getD 0)
  | .mem l => do
    let r ← checkClass k ea.toNat n
    return .mem l.flatten r

/-- The 128-byte lines of a piece, with the VA of each. -/
def Seg.lines (g : Seg) : List (Nat × Nat) :=
  if g.len = 0 then []
  else (List.range ((g.pa + g.len - 1) / 128 - g.pa / 128 + 1)).map fun i =>
    ((g.pa / 128 + i) * 128, (g.va / 128 + i) * 128)

/-- The global-address pieces of a span. -/
def Span.segs : Span → List Seg
  | .mem segs _ => segs
  | _ => []

/-- Records an access of the superstep rule (02 R73, R74); it waits when the tables have no room (01 R49). -/
def record (st : Strm) (kind : AccKind) (segs : List Seg) : Op Unit := do
  let s ← get
  let news := (segs.flatMap Seg.lines).map fun (l, va) =>
    ({ line := l, va := va, job := s.core.job.getD 0, task := s.core.task.idx, core := s.core.num, strm := st,
       kind := kind, cnt := s.core.task.counts } : AccRec)
  let news := news.filter (fun r => !s.recs.contains r)
  let full := match s.recs, news with
    | [], _ => false
    | _, [] => false
    | rs, _ => Config.recordsFull rs.length ((s.os.ctlim.toNat - s.os.ctbase.toNat) * 4096)
  if full then throw (.stall .ctFull)
  else set { s with recs := s.recs ++ news }

/-- Reads the bytes of pieces (02 R84, 11 R355, 13 R414): with the global and virtual addresses of poisoned sectors. -/
def readSegs (st : Strm) (kind : Nat) (segs : List Seg) : Op (List Byte × List (Nat × Nat) × List Nat) := do
  let mut out : List Byte := []
  let mut bad : List (Nat × Nat) := []
  let mut tags : List Nat := []
  for g in segs do
    let s ← get
    let (t, r) := s.physRead g.pa g.len (s.agent st) kind
    set t
    if r.refused then trapKeep .accessRefused g.va 0
    out := out ++ r.data
    bad := bad ++ r.bad.map (fun b => (b, max g.va (g.va + b - g.pa)))
    tags := tags ++ (r.tags.filter (fun w => w.2)).map Prod.fst
  return (out, bad, tags)

/-- Reads a place for a load of a stream (02 R78, R84, 11 R360): a poisoned sector raises `MEM_UNCORRECTABLE`. -/
def readPlace (st : Strm) (n : Nat) : Place → Op (List Byte)
  | .pad off => do let s ← get; return s.core.pad.read off n
  | .win w va key => do let s ← get; return s.winBytes w va n key
  | .mem segs _ => do
    record st .rd segs
    let (d, bad, _) ← readSegs st 0 segs
    match bad with
    | [] => return d
    | (_, va) :: _ => trapKeep .memUncorrectable va 0

/-- A piece cut at a VA inside it. -/
def Seg.cut (v : Nat) (g : Seg) : List Seg :=
  if g.va < v && v < g.va + g.len then
    [{ g with len := v - g.va }, { va := v, pa := g.pa + (v - g.va), len := g.va + g.len - v }]
  else [g]

/-- Pieces cut at the ends of the stretches that homes refuse (02 R81). -/
def cutRefused (refused : List (Nat × Nat)) (segs : List Seg) : List Seg :=
  refused.foldl (fun l x => (l.flatMap (Seg.cut x.1)).flatMap (Seg.cut x.2)) segs

/-- A piece lies in a refused stretch. -/
def Seg.refusedBy (g : Seg) (refused : List (Nat × Nat)) : Bool := refused.any fun x => x.1 ≤ g.va && g.va < x.2

/-- Writes bytes to pieces: the home refuses or loses a piece (02 R81, R90), or takes it; each piece is then on its way
to completion (02 R77). A write that several pages or objects hold counts one failure for each piece (log 37). -/
def writeSegs (st : Strm) (segs : List Seg) (refused : List (Nat × Nat)) (whole : Bool) (tags bad : List Nat) (d : List Byte) :
    Op Unit := do
  let seq ← nextSeq
  let mut rest := d
  for g in cutRefused refused segs do
    let s ← get
    let part := rest.take g.len
    rest := rest.drop g.len
    let w (f : Option FailKind) : PendWrite :=
      { eng := strmEng st, seq := seq, level := s.homeLevel g.pa, va := g.va, pa := g.pa, len := g.len, fail := f }
    if g.refusedBy refused then set (s.mapCore fun c => { c with writes := c.writes ++ [w (some .refused)] })
    else if s.linkDead g.pa then set (s.mapCore fun c => { c with writes := c.writes ++ [w (some .lost)] })
    else
      let (t, r) := s.physWrite g.pa part (s.agent st) whole tags bad
      set (t.mapCore fun c => { c with writes := c.writes ++ [w (if r = .refused then some .refused else none)] })

/-- Writes a place for a store of a stream. -/
def writePlace (st : Strm) (d : List Byte) : Place → Op Unit
  | .pad off => modify fun s => s.mapCore fun c => { c with pad := c.pad.write off d }
  | .win _ _ _ => pure ()
  | .mem segs refused => do
    record st .wr segs
    writeSegs st segs refused false [] [] d

/-- A load or store of the control stream waits for a near-memory command that it overlaps (02 R92). -/
def Core.nmOverlap (c : Core) (p : Place) : Bool :=
  match p with
  | .mem segs _ => c.nms.any fun m => (m.dst ++ m.src ++ m.aux).any fun a =>
      segs.any fun b => a.pa < b.pa + b.len && b.pa < a.pa + a.len
  | _ => false

end Sys2Proof.Machine
end

