-- ==== Sys2Proof/Machine/Flags.lean ====
section
/-! DEFINITION. Counting flags: values, configuration, ranges in transit, `ADDF`, `GIVE` and `WAITF` for every engine,
and the order behind earlier commands (02 R61 to R68, 01 R44). -/

namespace Sys2Proof.Machine

/-- A flag of the resident task. -/
def Task.flagAt (t : Task) (f : BitVec 6) : Flag := t.flags[f.toNat]

/-- Updates a flag. -/
def State.mapFlag (s : State) (f : BitVec 6) (g : Flag → Flag) : State :=
  s.mapTask fun t => { t with flags := t.flags.set f.toNat (g t.flags[f.toNat]) }

/-- Ranges given to a flag and not yet taken, in order. -/
def Core.given (c : Core) (f : BitVec 6) : List Transit := c.transit.filter (fun t => t.flag = f)

/-- `ADDF`s of a holding flag that wait in the queue. -/
def Core.queuedAdds (c : Core) (f : BitVec 6) : Nat := (c.adds.filter (fun a => a.flag = f)).length

/-- pending[f] (02 R66), in program order: a range of the last `GIVE` that no `ADDF` has followed. -/
def Core.pendingRange (c : Core) (f : BitVec 6) : Bool :=
  (c.task.flagAt f).value.toNat + c.queuedAdds f < (c.given f).length

/-- A scratchpad range touches entries [first, first + count) of the holder table. -/
def padTouches (off n first count : Nat) : Bool :=
  n ≠ 0 && off / 4096 < first + count && first ≤ (off + n - 1) / 4096

/-- A span touches entries of the holder table. -/
def Span.touches (p : Span) (first count : Nat) : Bool :=
  match p with
  | .pad off n => padTouches off n first count
  | _ => false

/-- The accumulators that a matrix command reads or writes (09 R291, R296, R313 to R317). -/
def mAccs : Instr → List Nat
  | .mma acc _ _ _ _ _ _ _ => [acc.toNat]
  | .mmas acc _ _ _ _ _ _ _ _ _ _ _ => [acc.toNat]
  | .mmai acc _ _ _ _ _ _ => [acc.toNat]
  | .mmaj _ acc _ _ _ _ _ _ _ _ _ _ _ => [acc.toNat]
  | .azero n c => (List.range (c.toNat + 1)).map (fun i => n.toNat + i)
  | .afade n _ _ _ => [n.toNat]
  | .ald n _ _ _ => [n.toNat]
  | .ast n _ _ _ _ _ _ => [n.toNat]
  | .aspill n _ => [n.toNat]
  | .afill n _ => [n.toNat]
  | _ => []

/-- A queued matrix command touches entries of the holder table. -/
def MCmd.touches (m : MCmd) (first count : Nat) : Bool :=
  (mAccs m.i).any (fun a => first ≤ 224 + a && 224 + a < first + count) ||
  ([m.ta, m.tb, m.sa, m.sb].any fun t => match t with | some x => x.src.any (fun p => p.touches first count) | none => false) ||
  (match m.span with | some x => x.touches first count | none => false)

/-- A transfer touches entries of the holder table. -/
def Xfer.touches (x : Xfer) (first count : Nat) : Bool := (x.src ++ x.dst ++ x.dst2).any (fun p => p.touches first count)

/-- A stamped transfer is still to complete (06 R230, R231). -/
def Xfer.waits (x : Xfer) : Bool := !x.void && x.done = 0

/-- The scratchpad range of core `n` that a stamped transfer writes (06 R229). -/
def Xfer.landsOn (x : Xfer) (n : Nat) : List Span :=
  match x.peer with
  | some (p, off) => if p = n then [.pad off x.len] else []
  | none => []

/-- A chain has records to run: its last one does not count once it is a stamped transfer that waits (01 R26, 06 R230). -/
def Chan.runs (c : Chan) : Bool := c.active && !(c.tail && (c.stop || c.count ≤ 1))

/-- Bits [hi:lo] of the doubleword at a byte offset of a transfer record (06 R217). -/
def recField (r : BitVec 512) (off hi lo : Nat) : Nat := bits r (8 * off + hi) (8 * off + lo)

/-- `NEXT` of a transfer record (06 R217). -/
def recNext (r : BitVec 512) : Nat := recField r 8 63 0

/-- A channel past a record (06 R213, R219, R221, R222): the next one, or the end of the chain. -/
def Chan.past (c : Chan) (r : BitVec 512) : Chan :=
  if c.stop || c.count ≤ 1 then Chan.reset
  else { c with record := BitVec.ofNat 48 (recNext r), prog := 0, count := c.count - 1, bad := [], tail := false }

/-- An earlier command of an engine, issued before place `n`, touches entries of the holder table and has not
completed. -/
def Core.touchedBefore (c : Core) (e : Eng) (n first count : Nat) : Bool :=
  match e with
  | .mtx => (c.mtx.queue ++ c.mtx.stamped).any (fun m => !m.void && m.seq < n && m.touches first count)
  | .cpy => c.cpy.queue.any (fun x => x.seq < n && x.touches first count) ||
      c.cpy.stamped.any (fun x => x.waits && x.seq < n &&
        (x.touches first count || (x.landsOn c.num).any fun p => p.touches first count)) ||
      c.cpy.ch.toList.any (fun x => x.runs && x.seq < n && (x.reads ++ x.writes).any (fun p => p.touches first count))
  | _ => false

/-- An earlier command of an engine, issued before place `n`, has not completed (02 R77, 04 R165), its `ADDF`s apart. A stamped
command that has not issued counts as complete (01 R26). -/
def State.unfinished (s : State) (e : Eng) (n : Nat) : Bool :=
  let c := s.core
  c.writes.any (fun w => w.eng = e && w.seq < n) ||
  (match e with
  | .ctl => c.loads.any (fun l => l.1 < n) || c.nms.any (fun m => m.seq < n) ||
      s.reds.any (fun r => !r.away && r.core = c.num && r.seq < n)
  | .vec => c.vec.out.any (fun o => o.1 < n)
  | .mtx => c.mtx.queue.any (fun m => m.seq < n)
  | .cpy => c.cpy.queue.any (fun x => x.seq < n) || c.cpy.ch.toList.any (fun x => x.runs && x.seq < n))

/-- An earlier command of an engine, issued before place `n`, has not completed, or an `ADDF` of its has not applied (02 R66). -/
def State.outstanding (s : State) (e : Eng) (n : Nat) : Bool :=
  s.core.adds.any (fun a => a.eng = e && a.seq < n) || s.unfinished e n

/-- add_count (02 R66): beyond 2^40 − 1 the value saturates and the adding engine raises `RANGE`. -/
def State.addCount (s : State) (e : Eng) (f : BitVec 6) (n : Nat) : State :=
  let v := (s.core.task.flagAt f).value.toNat + n
  if 2 ^ 40 ≤ v then
    (s.mapFlag f fun x => { x with value := BitVec.allOnes 40 }).stopCore e
      { cause := .range, finfo := 0, finfox := 0, faddr := 0 }
  else s.mapFlag f fun x => { x with value := BitVec.ofNat 40 v }

/-- A queued `ADDF` may apply (02 R66): on a count flag behind every earlier command of its stream, on a holding flag
behind those that touch its range and the earlier `ADDF`s to the flag. -/
def State.addReady (s : State) (a : PendAdd) : Bool :=
  let fl := s.core.task.flagAt a.flag
  if fl.hold then
    !s.core.adds.any (fun b => b.eng = a.eng && b.flag = a.flag && b.seq < a.seq) &&
    (match (s.core.given a.flag)[fl.value.toNat]? with
    | some t => !s.core.touchedBefore a.eng a.seq t.first t.count
    | none => true)
  else !s.outstanding a.eng a.seq

/-- Applies one `ADDF`. -/
def State.applyAdd (s : State) (a : PendAdd) : State :=
  let s := s.mapCore fun c => { c with adds := c.adds.filter (fun b => b ≠ a) }
  if (s.core.task.flagAt a.flag).hold then s.mapFlag a.flag fun x => { x with value := x.value + 1 }
  else s.addCount a.eng a.flag a.n.toNat

/-- Applies every `ADDF` that may apply, with fuel. -/
def State.applyAddsFrom (s : State) : Nat → State
  | 0 => s
  | k + 1 => match s.core.adds.find? s.addReady with
    | some a => (s.applyAdd a).applyAddsFrom k
    | none => s

/-- Applies every queued `ADDF` that may apply; every completion ends with it. -/
def State.applyAdds (s : State) : State := s.applyAddsFrom s.core.adds.length

/-- addf (02 R66); it waits for room in its engine's queue (01 R14). -/
def addf (e : Eng) (f : BitVec 6) (n : Word) : Op Unit := do
  let s ← get
  let fl := s.core.task.flagAt f
  if fl.hold then
    if e ≠ fl.carr then trap .flagOwner
    trapIf (n ≠ 1 || !s.core.pendingRange f) .range
  else trapIf (2 ^ 32 - 1 < n.toNat) .range
  queueRoom e
  let q ← nextSeq
  let s ← get
  let v := (s.core.task.flagAt f).value.toNat + n.toNat
  if !fl.hold && 2 ^ 40 ≤ v && !s.outstanding e q then do
    set (s.mapFlag f fun x => { x with value := BitVec.allOnes 40 })
    trapKeep .range 0 0
  modify fun s => (s.mapCore fun c => { c with adds := c.adds ++ [{ eng := e, seq := q, flag := f, n := n }] }).applyAdds

/-- The end of give (02 R66), after the checks of the range itself. -/
def giveEntries (e : Eng) (f : BitVec 6) (aligned : Bool) (first count : Nat) : Op Unit := do
  let s ← get
  let fl := s.core.task.flagAt f
  trapIf (!fl.hold || e ≠ fl.carr) .flagOwner
  trapIf (!aligned) .align
  trapIf (count = 0 || s.core.pendingRange f) .range
  trapIf (!(List.range count).all (fun i => s.core.holds e (first + i))) .segmentHolder
  if 4 ≤ s.core.transit.length then stallBlocked
  modify fun s => s.mapCore fun c => { c with transit := c.transit ++ [{ flag := f, first := first, count := count }] }

/-- give of a scratchpad range (02 R66). -/
def givePad (e : Eng) (f : BitVec 6) (ea len : Word) : Op Unit := do
  let s ← get
  trapIf (bits ea 63 56 ≠ 0xFE || bits ea 55 20 ≠ 0) .range
  let off := bits ea 19 0
  trapIf (s.padBytes < off + len.toNat) .range
  giveEntries e f (off % 4096 = 0 && len.toNat % 4096 = 0) (off / 4096) (len.toNat / 4096)

/-- give of a run of accumulators (02 R66). -/
def giveAccs (e : Eng) (f : BitVec 6) (first count : Nat) : Op Unit := do
  trapIf (16 < first + count) .range
  giveEntries e f true (224 + first) count

/-- The holder table with a range held by an engine. -/
def takeRange (h : Vector Eng 240) (t : Transit) (e : Eng) : Vector Eng 240 :=
  h.mapIdx fun i x => if t.first ≤ i && i < t.first + t.count then e else x

/-- waitf (02 R66); a `WAITF` of control on the completion flag of a child whose add has applied lifts the guard of its
area (04 R164). -/
def waitf (e : Eng) (f : BitVec 6) (t : Word) : Op Unit := do
  let s ← get
  let fl := s.core.task.flagAt f
  trapIf (e ≠ fl.cons) .flagOwner
  trapIf (2 ^ 40 - 1 < t.toNat || (fl.hold && 4 < t.toNat)) .range
  if fl.value.toNat < t.toNat then stallBlocked
  let taken := if fl.hold then (s.core.given f).take t.toNat else []
  modify fun s =>
    let s := s.mapFlag f fun x => { x with value := x.value - t.setWidth 40 }
    let s := s.mapCore fun c =>
      { c with hold := taken.foldl (fun h r => takeRange h r e) c.hold,
               transit := c.transit.filter (fun r => !taken.contains r) }
    if e = .ctl then s.mapTask fun k => { k with children := k.children.filter (fun c => !(c.flag = f && c.done)) }
    else s

end Sys2Proof.Machine
end

