-- ==== Sys2Proof/Machine/Alu.lean ====
section
/-! DEFINITION. The control engine's arithmetic, comparisons and bit fields (04 R137 to R143). -/

namespace Sys2Proof.Machine

/-- A sign-extended field. -/
def sext {n : Nat} (v : BitVec n) : Word := v.signExtend 64

/-- An operation of two registers (04 R137). -/
def alu3 (d a b : BitVec 6) (f : Word → Word → Word) (s : State) : Out :=
  aluOp d [a, b] (fun c => f (c.getX a) (c.getX b)) s

/-- An operation of one register (04 R137). -/
def alu2 (d a : BitVec 6) (f : Word → Word) (s : State) : Out := aluOp d [a] (fun c => f (c.getX a)) s

/-- Division and remainder by zero and at the ends of the range (03 R102). -/
def divS (a b : Word) : Word := if b = 0 then BitVec.allOnes 64 else BitVec.sdiv a b
/-- Unsigned quotient. -/
def divU (a b : Word) : Word := if b = 0 then BitVec.allOnes 64 else a / b
/-- Signed remainder. -/
def remS (a b : Word) : Word := if b = 0 then a else BitVec.srem a b
/-- Unsigned remainder. -/
def remU (a b : Word) : Word := if b = 0 then a else a % b

/-- High half of the signed product. -/
def mulHiS (a b : Word) : Word := ((a.signExtend 128 * b.signExtend 128) >>> 64).setWidth 64
/-- High half of the unsigned product. -/
def mulHiU (a b : Word) : Word := ((a.setWidth 128 * b.setWidth 128) >>> 64).setWidth 64

/-- A shift count of a register: its low six bits (04 R137). -/
def shCount (b : Word) : Nat := b.toNat % 64

/-- A comparison (04 R141). -/
def compare64 (cond : BitVec 3) (u : BitVec 1) (a b : Word) : Bool :=
  match cond.toNat with
  | 0 => a = b
  | 1 => a ≠ b
  | 2 => if u = 1 then a.ult b else a.slt b
  | 3 => if u = 1 then !a.ult b else !a.slt b
  | 4 => if u = 1 then a.ule b else a.sle b
  | _ => if u = 1 then !a.ule b else !a.sle b

/-- The limits of a bit field (04 R143). -/
def fieldOk (o w : Word) : Bool := o.toNat ≤ 63 && w.toNat ≠ 0 && w.toNat ≤ 64 && o.toNat + w.toNat ≤ 64

/-- A field of `w` bits, extended (04 R143). -/
def fieldExt (s : BitVec 1) (w v : Nat) : Word := if s = 1 then BitVec.ofInt 64 (sval w v) else BitVec.ofNat 64 (v % 2 ^ w)

/-- BFX of a 64-bit value (04 R143). -/
def bfxVal (s : BitVec 1) (a o w : Word) : Word := fieldExt s w.toNat (a.toNat / 2 ^ o.toNat)

/-- BFI: the saturating insertion (04 R143, 03 R118). -/
def bfiVal (s : BitVec 1) (d a o w : Word) : Word :=
  let v := clampTo (s = 1) w.toNat (if s = 1 then a.toInt else (a.toNat : Int))
  setBits d o.toNat w.toNat (BitVec.ofNat 64 v)

/-- FSH: a field of the 128-bit concatenation (04 R143). -/
def fshVal (s : BitVec 1) (hi lo : Word) (o w : Nat) : Word := fieldExt s w ((hi.toNat * 2 ^ 64 + lo.toNat) / 2 ^ o)

/-- A word whose operands may be out of range (04 R143). -/
def fieldOp (d : BitVec 6) (srcs : List (BitVec 6)) (ok : Ctl → Bool) (f : Ctl → Word) : State → Out :=
  runCtl (do
    needX (d :: srcs)
    let s ← get
    trapIf (!ok s.ctl) .range
    modify fun s => s.mapCtl fun c => c.setX d (f c))

/-- ADD (04 R137). -/
def execAdd (d a b : BitVec 6) (s : State) : Out :=
  alu3 d a b (fun a b => a + b) s

/-- SUB (04 R137). -/
def execSub (d a b : BitVec 6) (s : State) : Out :=
  alu3 d a b (fun a b => a - b) s

/-- MUL (04 R137). -/
def execMul (d a b : BitVec 6) (s : State) : Out :=
  alu3 d a b (fun a b => a * b) s

/-- MULH_I64 (04 R137). -/
def execMulhI64 (d a b : BitVec 6) (s : State) : Out :=
  alu3 d a b (mulHiS) s

/-- MULH_N64 (04 R137). -/
def execMulhN64 (d a b : BitVec 6) (s : State) : Out :=
  alu3 d a b (mulHiU) s

/-- DIV_I64 (04 R137, 03 R102). -/
def execDivI64 (d a b : BitVec 6) (s : State) : Out :=
  alu3 d a b (divS) s

/-- DIV_N64 (04 R137). -/
def execDivN64 (d a b : BitVec 6) (s : State) : Out :=
  alu3 d a b (divU) s

/-- REM_I64 (04 R137, 03 R102). -/
def execRemI64 (d a b : BitVec 6) (s : State) : Out :=
  alu3 d a b (remS) s

/-- REM_N64 (04 R137). -/
def execRemN64 (d a b : BitVec 6) (s : State) : Out :=
  alu3 d a b (remU) s

/-- AND (04 R137). -/
def execAnd (d a b : BitVec 6) (s : State) : Out :=
  alu3 d a b (fun a b => a &&& b) s

/-- OR (04 R137). -/
def execOr (d a b : BitVec 6) (s : State) : Out :=
  alu3 d a b (fun a b => a ||| b) s

/-- XOR (04 R137). -/
def execXor (d a b : BitVec 6) (s : State) : Out :=
  alu3 d a b (fun a b => a ^^^ b) s

/-- ANDN (04 R137). -/
def execAndn (d a b : BitVec 6) (s : State) : Out :=
  alu3 d a b (fun a b => a &&& ~~~b) s

/-- SHL (04 R137). -/
def execShl (d a b : BitVec 6) (s : State) : Out :=
  alu3 d a b (fun a b => a <<< shCount b) s

/-- SHR (04 R137). -/
def execShr (d a b : BitVec 6) (s : State) : Out :=
  alu3 d a b (fun a b => a >>> shCount b) s

/-- SAR (04 R137). -/
def execSar (d a b : BitVec 6) (s : State) : Out :=
  alu3 d a b (fun a b => a.sshiftRight (shCount b)) s

/-- ROL (04 R137). -/
def execRol (d a b : BitVec 6) (s : State) : Out :=
  alu3 d a b (fun a b => a.rotateLeft (shCount b)) s

/-- MIN_I64 (04 R137). -/
def execMinI64 (d a b : BitVec 6) (s : State) : Out :=
  alu3 d a b (fun a b => if a.slt b then a else b) s

/-- MIN_N64 (04 R137). -/
def execMinN64 (d a b : BitVec 6) (s : State) : Out :=
  alu3 d a b (fun a b => if a.ult b then a else b) s

/-- MAX_I64 (04 R137). -/
def execMaxI64 (d a b : BitVec 6) (s : State) : Out :=
  alu3 d a b (fun a b => if a.slt b then b else a) s

/-- MAX_N64 (04 R137). -/
def execMaxN64 (d a b : BitVec 6) (s : State) : Out :=
  alu3 d a b (fun a b => if a.ult b then b else a) s

/-- CLZ (04 R137). -/
def execClz (d a : BitVec 6) (s : State) : Out :=
  alu2 d a (fun a => BitVec.ofNat 64 (clz a)) s

/-- CTZ (04 R137). -/
def execCtz (d a : BitVec 6) (s : State) : Out :=
  alu2 d a (fun a => BitVec.ofNat 64 (ctz a)) s

/-- POPC (04 R137). -/
def execPopc (d a : BitVec 6) (s : State) : Out :=
  alu2 d a (fun a => BitVec.ofNat 64 (popcount a)) s

/-- MOV_X_P (04 R137). -/
def execMovXP (d : BitVec 6) (n : BitVec 3) (s : State) : Out :=
  aluOp d [] (fun c => if c.getP n then 1 else 0) s

/-- MOV_P_X (04 R137): no x register is written. -/
def execMovPX (p : BitVec 3) (a : BitVec 6) (s : State) : Out :=
  if s.core.awaits a then .next s
  else .next (s.mapCtl fun c => (c.setP p (c.getX a != 0)).skip 4)

/-- ADD_IMM (04 R138). -/
def execAddImm (d a : BitVec 6) (i : BitVec 13) (s : State) : Out :=
  alu2 d a (fun a => a + sext i) s

/-- MUL_IMM (04 R138). -/
def execMulImm (d a : BitVec 6) (i : BitVec 13) (s : State) : Out :=
  alu2 d a (fun a => a * sext i) s

/-- AND_IMM (04 R138). -/
def execAndImm (d a : BitVec 6) (i : BitVec 13) (s : State) : Out :=
  alu2 d a (fun a => a &&& sext i) s

/-- OR_IMM (04 R138). -/
def execOrImm (d a : BitVec 6) (i : BitVec 13) (s : State) : Out :=
  alu2 d a (fun a => a ||| sext i) s

/-- XOR_IMM (04 R138). -/
def execXorImm (d a : BitVec 6) (i : BitVec 13) (s : State) : Out :=
  alu2 d a (fun a => a ^^^ sext i) s

/-- SHL_IMM (04 R139). -/
def execShlImm (d a h : BitVec 6) (s : State) : Out :=
  alu2 d a (fun a => a <<< h.toNat) s

/-- SHR_IMM (04 R139). -/
def execShrImm (d a h : BitVec 6) (s : State) : Out :=
  alu2 d a (fun a => a >>> h.toNat) s

/-- SAR_IMM (04 R139). -/
def execSarImm (d a h : BitVec 6) (s : State) : Out :=
  alu2 d a (fun a => a.sshiftRight h.toNat) s

/-- ROL_IMM (04 R139). -/
def execRolImm (d a h : BitVec 6) (s : State) : Out :=
  alu2 d a (fun a => a.rotateLeft h.toNat) s

/-- CMP (04 R141). -/
def execCmp (p c : BitVec 3) (a b : BitVec 6) (u : BitVec 1) (s : State) : Out :=
  if s.core.awaits a || s.core.awaits b then .next s
  else .next (s.mapCtl fun x => (x.setP p (compare64 c u (x.getX a) (x.getX b))).skip 4)

/-- CMP_IMM (04 R141). -/
def execCmpImm (p c : BitVec 3) (a : BitVec 6) (u : BitVec 1) (i : BitVec 12) (s : State) : Out :=
  if s.core.awaits a then .next s
  else .next (s.mapCtl fun x => (x.setP p (compare64 c u (x.getX a) (sext i))).skip 4)

/-- SEL (04 R142). -/
def execSel (d a b : BitVec 6) (p : BitVec 3) (s : State) : Out :=
  aluOp d [a, b] (fun c => if c.getP p then c.getX a else c.getX b) s

/-- LI (04 R140). -/
def execLi (d : BitVec 6) (i : BitVec 19) (s : State) : Out :=
  aluOp d [] (fun _ => sext i) s

/-- LIH (04 R140). -/
def execLih (d : BitVec 6) (h : BitVec 2) (i : BitVec 16) (s : State) : Out :=
  aluOp d [] (fun c => setBits (c.getX d) (16 * h.toNat) 16 (i.setWidth 64)) s

/-- BFX (04 R143). -/
def execBfx (d a b c : BitVec 6) (g : BitVec 1) (s : State) : Out :=
  fieldOp d [a, b, c] (fun x => fieldOk (x.getX b) (x.getX c))
    (fun x => bfxVal g (x.getX a) (x.getX b) (x.getX c)) s

/-- BFI (04 R143). -/
def execBfi (d a b c : BitVec 6) (g : BitVec 1) (s : State) : Out :=
  fieldOp d [a, b, c] (fun x => fieldOk (x.getX b) (x.getX c))
    (fun x => bfiVal g (x.getX d) (x.getX a) (x.getX b) (x.getX c)) s

/-- FSH (04 R143). -/
def execFsh (d a b c : BitVec 6) (g : BitVec 1) (s : State) : Out :=
  fieldOp d [a, b, c] (fun x =>
      let o := bits (x.getX c) 6 0
      let w := bits (x.getX c) 14 8
      w ≠ 0 && w ≤ 64 && o + w ≤ 128)
    (fun x => fshVal g (x.getX a) (x.getX b) (bits (x.getX c) 6 0) (bits (x.getX c) 14 8)) s

end Sys2Proof.Machine
end

