-- ==== Sys2Proof/Machine/Branch.lean ====
section
/-! DEFINITION. Branches, traps and time of the control engine (04 R144 to R146, R157, R162, R163). -/

namespace Sys2Proof.Machine

/-- Code section of a stream kind contains an address (04 R145). -/
def State.inCode (s : State) (k : Nat) (t : Word) : Bool :=
  lrCodeBase s.lrec k ≤ t.toNat && t.toNat < lrCodeBase s.lrec k + lrCodeLen s.lrec k

/-- The first address past the code section of a stream kind (04 R146). -/
def State.codeEnd (s : State) (k : Nat) : Nat := lrCodeBase s.lrec k + lrCodeLen s.lrec k

/-- jump (04 R145): `RANGE` outside the control code section. -/
def jump (t : Word) : Op Unit := do
  let s ← get
  trapIf (!s.inCode 0 t) .range
  modify fun s => s.mapCtl fun c => { c with pc := t }

/-- A branch target a signed count of words away (04 R144). -/
def branchTo {n : Nat} (pc : Word) (o : BitVec n) : Word := pc + sext o * 4

/-- BR (04 R145). -/
def execBr (o : BitVec 25) : State → Out := runOp .ctl (do
  let s ← get
  jump (branchTo s.ctl.pc o))

/-- CALL (04 R145). -/
def execCall (d : BitVec 6) (o : BitVec 19) : State → Out := runOp .ctl (do
  let s ← get
  needX [d]
  jump (branchTo s.ctl.pc o)
  wrX d (s.ctl.pc + 4))

/-- BC (04 R145). -/
def execBc (p : BitVec 3) (n : BitVec 1) (o : BitVec 21) : State → Out := runOp .ctl (do
  let s ← get
  if s.ctl.getP p != (n == 1) then jump (branchTo s.ctl.pc o) else modify State.advance)

/-- LOOP (04 R145): the branch tests the register after its write, so `x0` never branches (log 13). -/
def execLoop (a : BitVec 6) (o : BitVec 19) : State → Out := runOp .ctl (do
  let x ← rdX a
  let s ← get
  if a ≠ 0 ∧ x - 1 ≠ 0 then jump (branchTo s.ctl.pc o) else modify State.advance
  wrX a (x - 1))

/-- RET (04 R145). -/
def execRet (a : BitVec 6) : State → Out := runOp .ctl (do
  let x ← rdX a
  trapIf (bits x 1 0 ≠ 0) .align
  jump x)

/-- CHRON (04 R157). -/
def execChron (d : BitVec 6) (s : State) : Out :=
  if s.core.awaits d then .next s else .next (s.mapCtl fun c => (c.setX d s.chron).skip 4)

/-- TRAP (04 R162): in job mode the core stops for a service, past the word; in firmware mode a jump to `TVEC`. -/
def execTrap (a : BitVec 6) (c : BitVec 13) : State → Out := runOp .ctl (do
  let x ← rdX a
  let s ← get
  if s.jobMode then
    modify fun s => s.advance.stopCore .ctl
      { cause := .preempt, finfo := 0x80000000#32 ||| c.setWidth 32, finfox := 0, faddr := x }
  else
    modify fun s => s.mapCore fun k => { k with
      epc := s.ctl.pc + 4, ecause := c,
      task := { k.task with ctl := { k.task.ctl with pc := k.tvec &&& ~~~3#64 } } })

/-- ERET (04 R163). -/
def execEret : State → Out := runOp .ctl (do
  let s ← get
  trapIf s.jobMode .privilege
  jump s.core.epc)

end Sys2Proof.Machine
end

