-- ==== Sys2Proof/Machine/Fetch.lean ====
section
/-! DEFINITION. Fetching and decoding a bundle word, `CODE_FETCH` (01 R14, 04 R135, R146, 07 R247, R264). -/

namespace Sys2Proof.Machine

/-- The code-cache line of a VA of an address space under a key identifier (04 R158, 02 R96). -/
def Core.codeLine (c : Core) (asid : BitVec 16) (key : BitVec 8) (va : Nat) : Option CodeLine :=
  c.code.find? fun x => x.asid = asid && x.key = key && x.va = va / 128 * 128

/-- A fetch at a VA falls in a window or in the heap, whatever the code cache holds (07 R247, 08 R282). -/
def State.fetchBarred (s : State) (va : Nat) : Bool := (s.core.task.windowAt va).isSome || s.inHeap va

/-- Room for one more line: a full cache gives up a line that is not pinned; which one the spec leaves open (log 9). -/
def Core.evict (c : Core) (n : Nat) : List CodeLine :=
  if c.code.length < 512 then c.code
  else
    let loose := c.code.filter fun x => !x.pinned
    match loose[Config.codeVictim n % loose.length]? with
    | some v => c.code.filter fun x => x ≠ v
    | none => c.code

/-- A line joins the code cache of the core at hand (04 R158). -/
def State.addCode (s : State) (x : CodeLine) : State :=
  let s := if s.core.code.length < 512 then s else { s.mapCore fun c => { c with code := c.evict s.free } with free := s.free + 1 }
  s.mapCore fun c => { c with code := c.code ++ [x] }

/-- The line of code bytes at a VA: from the code cache, whose lines stay usable and do not observe data writes (04 R159,
07 R264), or translated for execution and read, when it joins the cache (07 R247). A line with a poisoned sector is not
cached, and only a fetch from that sector fails (log 9). -/
def codeData (st : Strm) (k : AK) (va : Nat) : Op (BitVec 1024) := do
  let s ← get
  if s.fetchBarred va then trapWith .execProtect va (xltInfo k 0 0 0 0)
  match s.core.codeLine s.asid s.key va with
  | some x => return x.data
  | none =>
    match ← place st k 6 (BitVec.ofNat 64 va) 4 with
    | .mem (g :: _) _ =>
      let s ← get
      let base := g.pa - va % 128
      let (t, r) := s.physRead base 128 (s.agent st) 0
      set t
      if r.refused then trapKeep .accessRefused va 0
      if r.bad.contains (g.pa / 64 * 64) then trapKeep .memUncorrectable va 0
      let d := BitVec.ofNat 1024 (leNat r.data)
      if r.bad = [] then
        modify fun s => s.addCode { asid := s.asid, key := s.key, va := va / 128 * 128, data := d, pinned := false }
      return d
    | _ => trapWith .range va 0

/-- Four code bytes at a VA. -/
def fetch4 (st : Strm) (va : Nat) : Op (BitVec 32) := do
  let d ← codeData st .fetch va
  return d.extractLsb' (8 * (va % 128)) 32

/-- An operation whose fault raises nothing and has no effect but what its reads left on memory (04 R159). -/
def skipFault (op : Op Unit) : Op Unit := fun s =>
  match op s with
  | .error (.trap _) => .ok ((), s)
  | .error (.trapIn u _) => .ok ((), u)
  | r => r

/-- A line of the pin table is made resident and pinned (04 R158, R159). -/
def pinResident (va : Nat) : Op Unit := skipFault (do
  let _ ← codeData .ctl .ipin va
  modify fun s => s.mapCore fun c => { c with code := c.code.map fun x =>
    if x.asid = s.asid && x.key = s.key && x.va = va then { x with pinned := true } else x })

/-- The lines of a restored pin table, before the task's first bundle issues (04 R158). -/
def reloadPins : Op Unit := do
  let s ← get
  s.core.repin.forM pinResident
  modify fun s => if s.core.repin = [] then s else s.mapCore fun c => { c with repin := [] }

/-- The cause of a word that the decoder rejects: an unassigned encoding, a reserved field, or an operand code out of
range, behind `TX_STATE` in a job without transactions (04 R136, 13 R428). -/
def decodeCause (txn : Bool) : DecodeErr → Cause
  | .illegal => .illegalWord
  | .reserved => .reservedField
  | .range => if txn then .range else .txState

/-- The checks of the target bit of a vector word: the entry of a `FORK` has it set (05 R175), a word behind a prefix has it
clear (05 R176). -/
def vecTarget (pc : Word) (lo : BitVec 32) : Op Unit := do
  let s ← get
  let v := s.core.vec
  trapIf (v.entry && !bit lo 1) .range
  match v.pfx with
  | some p => if bit lo 1 then trapWith .orphanPrefix p.base.toNat (pc - p.base).toNat
  | none => pure ()
  modify fun s => s.mapVec fun v => { v with entry := false }

/-- The `RANGE` that the end of a child left to a parent task that could not take it then (04 R164). -/
def oweRange : Op Unit := do
  let s ← get
  if s.core.task.owed then
    set (s.mapTask fun t => { t with owed := false })
    trapKeep .range 0 0

/-- Fetches and decodes the word at the stream's program counter (04 R135, R146): at the end of the code section, `RANGE`
with its address. A prefix major has 32 bits whatever its `L` (05 R176). -/
def fetchDecode (st : Strm) : Op Instr := do
  let s ← get
  let pc := s.pcOf st
  if pc.toNat = s.codeEnd (strmCode st) then trapWith .range pc.toNat 0
  if st = .ctl then
    oweRange
    reloadPins
  let lo ← fetch4 st pc.toNat
  if st = .vec then vecTarget pc lo
  let two := st != .ctl && (st != .vec || (bit lo 0 && bits lo 7 2 ≠ 0x3F))
  let hi ← if two then fetch4 st (pc.toNat + 4) else pure 0
  match decodeWord st (hi ++ lo) with
  | .ok i => return i
  | .error e => do
    let s ← get
    trap (decodeCause (lrTxn s.lrec) e)

/-- What a sequencer's fetch gives: a word to issue, or the state it leaves. -/
inductive Fetched where
  | word (i : Instr) (s : State)
  | stop (s : State)

/-- A fetch of a stream. -/
def fetch (st : Strm) (s : State) : Fetched :=
  match (fetchDecode st).run s with
  | .ok (i, t) => .word i t
  | .error (.stall n) => .stop (s.leave st n)
  | .error (.trap t) => .stop (s.takeFault st t)
  | .error (.trapIn u t) => .stop (u.takeFault st t)
  | .error (.fault _) => .stop s

/-- The word that a stream has fetched at its program counter and that waits at issue (07 R264). -/
def State.readyWord (s : State) (k : Strm) : Option Instr :=
  (s.core.ready.find? fun x => x.1 = k && x.2.1 = s.pcOf k).map fun x => x.2.2

/-- The word that a stream issues: the one that waits, or what its fetch gives (04 R135, 07 R264). -/
def nextWord (k : Strm) (s : State) : Fetched :=
  match s.readyWord k with
  | some i => .word i s
  | none => fetch k s

/-- A word that may have completed where the program counter stands at it still: a branch to itself, a jump through a register. -/
def mayReturn : Instr → Bool
  | .br o => o = 0
  | .call _ o => o = 0
  | .bc _ _ o => o = 0
  | .loop _ o => o = 0
  | .ret _ | .eret | .trap _ _ => true
  | .vscalBr o _ => o = 0
  | .vscalBc _ _ o _ => o = 0
  | .vscalLoop _ o _ => o = 0
  | .scalBr _ o => o = 0
  | .scalBc _ _ _ o => o = 0
  | .scalLoop _ _ o => o = 0
  | _ => false

/-- A word of a stream waits: issued at `s`, it has left the stream of the same task running at the same address at `t`. -/
def State.waitsAt (s t : State) (k : Strm) (i : Instr) : Bool :=
  t.core.num = s.core.num && t.core.job = s.core.job && t.core.task.idx = s.core.task.idx && t.pcOf k = s.pcOf k &&
    t.runOf k = .running && (if k = .ast then t.astro.stop.isNone else t.core.stop.isNone) && !mayReturn i

/-- After the issue of a word at `s` the core keeps it when it waits, and else fetches again (07 R264). -/
def State.keepWord (s : State) (k : Strm) (i : Instr) (t : State) : State :=
  let rest := t.core.ready.filter fun x => x.1 ≠ k
  let now := if s.waitsAt t k i then rest ++ [(k, s.pcOf k, i)] else rest
  if now = t.core.ready then t else t.mapCore fun c => { c with ready := now }

/-- CODE_FETCH (07 R247): the sequencer's fetch and decode, without the issue that follows it in a step. -/
def execCodeFetch (k : Strm) (s : State) : Out :=
  match fetch k s with
  | .word _ t => .next t
  | .stop t => .next t

/-- Code VA and PA of `withFetchWord`. -/
def fetchBase : Nat := 0x10000

/-- A launch record of one task with every stream kind, `SPAN` `.pkg`, `TXN`, 128 KiB of scratchpad, and a code section of
4 KiB at `fetchBase` for every stream (01 R16, R17; log 12). -/
def fetchRecord : BitVec 4608 :=
  let d : BitVec 512 := BitVec.ofNat 512 (fetchBase + 4096 * 2 ^ 64)
  let h : BitVec 2048 := BitVec.ofNat 2048
    (1 + 4 * 2 ^ 19 + 2 ^ 22 + 31 * 2 ^ 23 + 2 ^ 28 + 2 ^ 48 + 2 ^ 64 + 0x20000 * 2 ^ (8 * 0x38) + 0x30000 * 2 ^ (8 * 0x40))
  d ++ d ++ d ++ d ++ d ++ h

/-- The stream that reads a word of the opcode table. -/
def wordStream (nbits w : Nat) : Strm := ((decodeTableWord nbits w).bind streamOf).getD .ctl

/-- The package with a loaded context whose stream of the word fetches it next (log 12): a job of one task on the core at
hand, its translation, the word in memory, and the stream's turn. -/
def State.loadWord (s : State) (nbits w : Nat) : State :=
  let k := wordStream nbits w
  let j : Job := { Job.new s.nextJob false fetchRecord 0 0 0 0 0 0 0 with st := .running, cores := [s.core.num] }
  let x : TlbEntry :=
    { asid := 0, va := fetchBase, size := 0, leaf := BitVec.ofNat 64 (s.pkg.toNat * 2 ^ 41 + fetchBase + 0x1F),
      line := 0, demoted := false }
  let s := { s with
    inbox := [], powered := true, gated := false, turn := some k, nextJob := s.nextJob + 1, jobs := s.jobs ++ [j],
    mem := s.mem.write (gaOf s.pkg fetchBase) (natLe 8 (w % 2 ^ nbits)),
    core := { s.core with job := some j.id, spsize := 1, stop := none, ready := [], tlb := x :: s.core.tlb,
                          task := { s.core.task with st := .resident, sync := none } } }
  let go (r : Strm32) : Strm32 := { r with pc := BitVec.ofNat 64 fetchBase, run := .running }
  match k with
  | .ctl => s.mapCtl fun c => { c with pc := BitVec.ofNat 64 fetchBase, run := .running }
  | .ast => s.mapAstro fun a => { a with s := go a.s, core := some s.core.num, task := s.core.task.idx, stop := none, wait := none }
  | k => s.mapStrm k go

end Sys2Proof.Machine
end

