-- ==== Sys2Proof/Machine/MemOps.lean ====
section
/-! DEFINITION. Loads, stores and reductions of the control stream, and the events that complete them (02 R77, R82 to R85,
R90, 04 R147 to R150, R165). -/

namespace Sys2Proof.Machine

/-- Bytes of an access type (04 R147). -/
def tySize (t : BitVec 3) : Nat := 2 ^ (t.toNat % 4)

/-- The VA of an effective address, or 0 (01 R43). -/
def vaOf (ea : Word) : Nat := if bits ea 63 56 = 0 then ea.toNat else 0

/-- `ALIGN` when an address is no multiple of a size. -/
def needAlign (ea : Word) (n : Nat) : Op Unit :=
  if ea.toNat % n = 0 then pure () else trapWith .align (vaOf ea) 0

/-- Effective address of the offset form (04 R148). -/
def eaOffset (c : Ctl) (a : BitVec 6) (t : BitVec 3) (o : BitVec 8) : Word :=
  c.getX a + sext o * BitVec.ofNat 64 (tySize t)

/-- Effective address of the index form (04 R148). -/
def eaIndex (c : Ctl) (a b : BitVec 6) (t : BitVec 3) : Word := c.getX a + c.getX b * BitVec.ofNat 64 (tySize t)

/-- The bytes of a load as a register value (04 R148). -/
def loadVal (t : BitVec 3) (d : List Byte) : Word := fieldExt (t.extractLsb' 2 1) (8 * tySize t) (leNat d)

/-- The lines of a place, as global addresses. -/
def Place.lines : Place → List Nat
  | .mem segs _ => (segs.flatMap Seg.lines).map Prod.fst
  | _ => []

/-- `LD` at an address (04 R148): a load of memory has its register written when its data returns. -/
def loadAt (d : BitVec 6) (t : BitVec 3) (ea : Word) : Op Unit := do
  needAlign ea (tySize t)
  let p ← place .ctl .load 6 ea (tySize t)
  let s ← get
  if p.lines.any s.core.task.redLines.contains then trapWith .range ea.toNat 0
  if s.core.nmOverlap p then stall
  let v ← readPlace .ctl (tySize t) p
  match p with
  | .mem _ _ => do
    let q ← nextSeq
    modify fun s => s.mapCore fun c => { c with loads := c.loads ++ [(q, .x d (loadVal t v))] }
  | _ => modify fun s => s.mapCtl fun c => c.setX d (loadVal t v)

/-- `ST` at an address (04 R148). -/
def storeAt (v : BitVec 6) (t : BitVec 3) (ea : Word) : Op Unit := do
  needAlign ea (tySize t)
  let p ← place .ctl .store 6 ea (tySize t)
  let s ← get
  if s.core.nmOverlap p then stall
  writePlace .ctl (wordLe (tySize t) (s.ctl.getX v)) p

/-- LD (04 R148). -/
def execLd (d a : BitVec 6) (t : BitVec 3) (_u : BitVec 2) (o : BitVec 8) : State → Out := runCtl (do
  needX [d, a]
  let s ← get
  loadAt d t (eaOffset s.ctl a t o))

/-- LD_INDEX (04 R148). -/
def execLdIndex (d a b : BitVec 6) (t : BitVec 3) (_u : BitVec 2) : State → Out := runCtl (do
  needX [d, a, b]
  let s ← get
  loadAt d t (eaIndex s.ctl a b t))

/-- ST (04 R148). -/
def execSt (v a : BitVec 6) (t : BitVec 3) (_u : BitVec 2) (o : BitVec 8) : State → Out := runCtl (do
  needX [v, a]
  let s ← get
  storeAt v t (eaOffset s.ctl a t o))

/-- ST_INDEX (04 R148). -/
def execStIndex (v a b : BitVec 6) (t : BitVec 3) (_u : BitVec 2) : State → Out := runCtl (do
  needX [v, a, b]
  let s ← get
  storeAt v t (eaIndex s.ctl a b t))

/-- red (04 R150): the contribution enters the queue (01 R14) and is sent to the home of its word. -/
def red (op : Nat) (v a : BitVec 6) (t : BitVec 4) (sc : BitVec 3) : State → Out := runCtl (do
  needX [v, a]
  scopeOk sc
  trapIf (sc.toNat < 3) .range
  let s ← get
  let ea := s.ctl.getX a
  let n := redSize t.toNat
  needAlign ea n
  trapIf (bits ea 63 56 ≠ 0) .range
  let p ← place .ctl .red (min sc.toNat 5) ea n
  match p with
  | .mem segs refused => do
    queueRoom .ctl
    record .ctl (.red op t.toNat) segs
    let q ← nextSeq
    modify fun s =>
      let pa := (segs.headD { va := 0, pa := 0, len := 0 }).pa
      let m : RedMsg :=
        { core := s.core.num, away := false, job := s.core.job.getD 0, asid := s.asid, seq := q, task := s.core.task.idx, cnt := s.core.task.counts, pa := pa, va := ea.toNat,
          key := s.key, op := op, ty := t.toNat, val := s.ctl.getX v &&& BitVec.ofNat 64 (2 ^ (8 * n) - 1),
          fail := if refused = [] then none else some .refused }
      { s with reds := s.reds ++ [m] }.mapTask fun k =>
        { k with redLines := if k.redLines.contains (pa / 128 * 128) then k.redLines else k.redLines ++ [pa / 128 * 128] }
  | _ => trap .range)

/-- RED_ADD (04 R150). -/
def execRedAdd (v a : BitVec 6) (t : BitVec 4) (sc : BitVec 3) : State → Out := red 0 v a t sc
/-- RED_MIN (04 R150). -/
def execRedMin (v a : BitVec 6) (t : BitVec 4) (sc : BitVec 3) : State → Out := red 1 v a t sc
/-- RED_MAX (04 R150). -/
def execRedMax (v a : BitVec 6) (t : BitVec 4) (sc : BitVec 3) : State → Out := red 2 v a t sc
/-- RED_AND (04 R150). -/
def execRedAnd (v a : BitVec 6) (t : BitVec 4) (sc : BitVec 3) : State → Out := red 3 v a t sc
/-- RED_OR (04 R150). -/
def execRedOr (v a : BitVec 6) (t : BitVec 4) (sc : BitVec 3) : State → Out := red 4 v a t sc
/-- RED_XOR (04 R150). -/
def execRedXor (v a : BitVec 6) (t : BitVec 4) (sc : BitVec 3) : State → Out := red 5 v a t sc

/-- An integer reduction of a word (02 R82), by `OP` and `TY4`. -/
def redInt (op ty w v : Nat) : Nat :=
  let k := 8 * redSize ty
  let sgn := ty < 2
  let less (a b : Nat) : Bool := if sgn then sval k a < sval k b else a < b
  match op with
  | 0 => (w + v) % 2 ^ k
  | 1 => if less v w then v else w
  | 2 => if less w v then v else w
  | 3 => w &&& v
  | 4 => w ||| v
  | _ => w ^^^ v

/-- contribute (02 R83). -/
def RedAcc.contribute (a : RedAcc) (v : Nat) : RedAcc :=
  let a := { a with count := min (a.count + 1) (2 ^ 41 - 1) }
  match (redFmt a.ty).decode v with
  | .nan => { a with nan := true, negz := false }
  | .inf false => { a with pinf := true, negz := false }
  | .inf true => { a with ninf := true, negz := false }
  | .fin sg m e _ =>
    let k : Int := (m <<< (e - accUnit a.ty).toNat : Nat)
    { a with n := if sg then a.n - k else a.n + k, negz := a.negz && sg && m = 0 }

/-- home_slice (02 R93). -/
def homeSlice (pa : Nat) : Nat :=
  (pa / 2 ^ 7 % 64) ^^^ (pa / 2 ^ 13 % 64) ^^^ (pa / 2 ^ 19 % 64) ^^^ (pa / 2 ^ 25 % 64) ^^^ (pa / 2 ^ 31 % 64) ^^^
    (pa / 2 ^ 37 % 8)

/-- Home die and slice of a global address. -/
def homeOf (ga : Nat) : Nat × Nat := ((stackOf (gaPa ga % 2 ^ 40)).1 / 3, homeSlice (gaPa ga % 2 ^ 40))

/-- Accumulators of the slice and size class of a target that are not spilled (02 R83). -/
def State.sliceAccs (s : State) (ga ty : Nat) : List RedAcc :=
  s.accs.filter fun a => !a.spilled && (a.ty = 4) = (ty = 4) && gaPkg a.pa = gaPkg ga && homeOf a.pa = homeOf ga

/-- The slice has no free accumulator for a target (02 R83, R85). -/
def State.sliceFull (s : State) (ga ty : Nat) : Bool :=
  (if ty = 4 then 512 else 16384) ≤ (s.sliceAccs ga ty).length

/-- The spill area of a die has no room (02 R85, 01 R49). -/
def State.spillNone (s : State) (d : Nat) : Bool :=
  Config.spillFull (s.accs.filter (fun a => a.spilled && (homeOf a.pa).1 = d)).length
    (((s.os.rsplim[d]?).getD 0).toNat * 4096 - ((s.os.rspbase[d]?).getD 0).toNat * 4096)

/-- The reduction needs an accumulator (02 R83, R85). -/
def State.needsAcc (s : State) (m : RedMsg) : Bool :=
  4 ≤ m.ty && !s.accs.any (fun a => a.pa = m.pa && a.ty = m.ty && a.key = m.key && !a.spilled)

/-- The reduction waits for room in the spill area, and the hub knows it (02 R85, 01 R49). -/
def State.redWaits (s : State) (m : RedMsg) : Bool :=
  s.needsAcc m && s.sliceFull m.pa m.ty && s.os.rspfull.getLsbD (homeOf m.pa).1

/-- Spills the least recently allocated accumulator of a slice (02 R85). -/
def State.spillOne (s : State) (ga ty : Nat) : State :=
  match s.sliceAccs ga ty with
  | [] => s
  | a :: _ => { s with accs := s.accs.map fun b => if b = a then { b with spilled := true } else b }

/-- A word of memory as its home reads it. -/
def State.homeRead (s : State) (ga n : Nat) (key : BitVec 8) : State × Nat :=
  if gaPkg ga = s.pkg.toNat then
    let sa := gaPa ga % 2 ^ 40 / 64 * 64
    let (t, r) := s.readSector sa (homeSrc (gaPa ga)) 0 false (s.keyMat key)
    (t, leNat ((r.data.drop (gaPa ga % 2 ^ 40 - sa)).take n))
  else (s, leNat (s.mem.read ga n))

/-- A word of memory as its home writes it. -/
def State.homeWrite (s : State) (ga n v : Nat) (key : BitVec 8) : State :=
  if gaPkg ga = s.pkg.toNat then
    let p := gaPa ga % 2 ^ 40
    s.writeSector (p / 64 * 64) (sectorPart (p / 64 * 64) p (natLe n v)) 0 false (s.keyMat key) (homeSrc p) none
  else { s with mem := s.mem.write ga (natLe n v) }

/-- Rounds the accumulators under a key whose words touch [ga, ga + n), whoever contributed. -/
def State.roundAll (s : State) (ga n : Nat) (key : BitVec 8) : State :=
  (s.accs.filter fun a => a.pa < ga + n && ga < a.pa + redSize a.ty && a.key = key).foldl State.roundOut s

/-- The contributor that a reduction stands for. -/
def RedMsg.from (m : RedMsg) : Contrib := { core := if m.away then none else some m.core, task := m.task, cnt := m.cnt }

/-- A further contribution, with the last of each contributor. -/
def RedAcc.enter (a : RedAcc) (m : RedMsg) : RedAcc :=
  let w := m.from
  let b := a.contribute m.val.toNat
  { b with who := b.who.filter (fun x => x.core ≠ w.core || x.task ≠ w.task) ++ [w] }

/-- A reduction enters its word or accumulator (02 R82, R83): a floating target without an accumulator of its type is
rounded, and allocates one from the bytes it finds; a spilled one returns. -/
def State.redEnter (s : State) (m : RedMsg) : State :=
  let n := redSize m.ty
  if m.ty < 4 then
    let s := s.roundAll m.pa n m.key
    let (s, w) := s.homeRead m.pa n m.key
    s.homeWrite m.pa n (redInt m.op m.ty w m.val.toNat) m.key
  else
    let s := if s.needsAcc m && s.sliceFull m.pa m.ty then s.spillOne m.pa m.ty else s
    match s.accs.find? (fun a => a.pa = m.pa && a.ty = m.ty && a.key = m.key) with
    | some a =>
      let b := { a with spilled := false }.enter m
      if a.spilled then { s with accs := s.accs.filter (fun x => x ≠ a) ++ [b] }
      else { s with accs := s.accs.map fun x => if x = a then b else x }
    | none =>
      let s := s.roundAll m.pa n m.key
      let (s, w) := s.homeRead m.pa n m.key
      let a : RedAcc :=
        { pa := m.pa, job := m.job, key := m.key, ty := m.ty, n := 0, pinf := false, ninf := false, nan := false, count := 0, negz := true,
          spilled := false, who := [] }
      { s with accs := s.accs ++ [(a.contribute w).enter m] }

/-- Records a failure that a fence reports, with the task of the core at hand (02 R90). -/
def State.fail (s : State) (f : Failure) : State := s.mapTask fun t => { t with failures := t.failures ++ [f] }

/-- A reduction is refused at its home: in a version region (13 R410). -/
def State.redRefused (s : State) (m : RedMsg) : Bool :=
  gaPkg m.pa = s.pkg.toNat && ((s.regionAt (gaPa m.pa % 2 ^ 40)).isSome || gaPa m.pa / 2 ^ 40 % 2 = 1)

/-- RED_APPLY (02 R83, R85): the oldest reduction enters its accumulator or word, or is refused or lost, and completes; when
no spill area has room it stays, and the hub is told. -/
def execRedApply (s : State) : Out :=
  match s.reds with
  | [] => .next s
  | m :: rest =>
    let fail := match m.fail with
      | some f => some f
      | none => if s.linkDead m.pa then some .lost else if s.redRefused m then some .refused else none
    let d := (homeOf m.pa).1
    match fail with
    | some k =>
      .next (if m.away then { s with reds := rest } else { s with reds := rest }.onCore m.core fun t => (t.fail
        { eng := .ctl, seq := m.seq, kind := k, level := t.homeLevel m.pa, va := m.va, count := 1 }).applyAdds)
    | none =>
      if s.needsAcc m && s.sliceFull m.pa m.ty && s.spillNone d then
        .next (if s.os.rspfull.getLsbD d then s
          else { s with os := { s.os with rspfull := s.os.rspfull ||| (1#4 <<< d) }, signals := s.signals ++ [.rspFull d] })
      else .next (({ s with reds := rest }.redEnter m).onCore m.core State.applyAdds)

/-- LOAD_DATA_RETURN (04 R165): the oldest outstanding load writes its register. -/
def execLoadDataReturn (s : State) : Out :=
  match s.core.loads with
  | [] => .next s
  | (_, w) :: rest =>
    let s := s.mapCore fun c => { c with loads := rest }
    .next (match w with
      | .x d v => (s.mapCtl fun c => c.setX d v).applyAdds
      | _ => s.applyAdds)

/-- WRITE_COMPLETES_AT_HOME (02 R77): the oldest write on its way completes; a failure waits for a fence (02 R90). -/
def execWriteCompletesAtHome (s : State) : Out :=
  match s.core.writes with
  | [] => .next s
  | w :: rest =>
    let s := s.mapCore fun c => { c with writes := rest }
    .next (match w.fail with
      | some k => (s.fail { eng := w.eng, seq := w.seq, kind := k, level := w.level, va := w.va, count := 1 }).applyAdds
      | none => s.applyAdds)

end Sys2Proof.Machine
end

