-- ==== Sys2Proof/Machine/WinOps.lean ====
section
/-! DEFINITION. Configuring ephemeris windows, `WINCFG`, `WINOFF`, `WINQ` (08 R285 to R290). -/

namespace Sys2Proof.Machine

/-- A word of the control stream's configuration waits until every earlier command of the stream has completed (04 R165). -/
def ctlQuiet : Op Unit := do
  let s ← get
  if s.outstanding .ctl s.core.task.seq then stall

/-- Bytes read as control-stream loads, never from a window (08 R285, R289): one access, from the scratchpad where the address is of
that class (log 28). -/
def readRecord (ea : Word) (n : Nat) : Op (List Byte) := do
  let s ← get
  if s.core.task.windowTouches ea.toNat n then trapWith .range ea.toNat 0
  let p ← place .ctl .load 6 ea n
  if p.lines.any s.core.task.redLines.contains then trapWith .range ea.toNat 0
  readPlace .ctl n p

/-- A vector type code that R193 assigns (05 R193). -/
def typeCodeOk (t : BitVec 5) : Bool := t.toNat < 12 || (16 ≤ t.toNat && t.toNat < 24)

/-- A reserved field of a descriptor is set, or its element format is reserved (08 R285). -/
def wReserved (d : BitVec 1024) : Bool :=
  wField d 0 11 11 != 0 || wField d 0 63 48 != 0 || wField d 8 63 29 != 0 || wField d 0x10 63 41 != 0 ||
    d >>> 768 != 0 || !typeCodeOk (wFmt d)

/-- A parameter breaks R278 (08 R278). -/
def wBadParam (d : BitVec 1024) : Bool :=
  let used := match wGen d with
    | 0 => [0, 1]
    | 1 => [0, 1, 2]
    | 2 => [0]
    | 3 => [0, 1]
    | 4 => [0, 1]
    | 5 => [0, 1]
    | 6 => [0]
    | _ => []
  (List.range 6).any (fun k => !used.contains k && wP d k != 0) ||
    (match wGen d with
    | 2 => 2 ^ 32 ≤ wP d 0
    | 3 => wP d 1 = 0 || 256 < wP d 1
    | 4 => 2 ^ 56 ≤ wP d 0 || 1 < wP d 1
    | 5 => 2 ^ 56 ≤ wP d 0 || 0x10000 < wP d 1
    | _ => false)

/-- Angle-store entries held by the other windows (08 R276). -/
def Task.anglesBut (t : Task) (w : Nat) : Nat :=
  ((List.range 16).filter (fun n => n ≠ w)).foldl (fun a n => a + ((t.wins.toList.getD n Window.reset).theta).length) 0

/-- Words of 32 bits in bytes. -/
def words32 (d : List Byte) : List (BitVec 32) :=
  (List.range (d.length / 4)).map fun k => BitVec.ofNat 32 (leNat ((d.drop (4 * k)).take 4))

/-- configure (08 R285): the window as the descriptor makes it. -/
def configure (w : Nat) (va : Word) : Op Window := do
  needAlign va 64
  let raw ← readRecord va 128
  let d : BitVec 1024 := BitVec.ofNat 1024 (leNat raw)
  if !bit d 0 then return Window.reset
  let s ← get
  let a := vaOf va
  let t := wFmt d
  if wReserved d then trapWith .reservedField a 0
  if nfdUnset s.core.task.nfd t then trapWith .range a 0
  if 2 ^ 48 < wBase d + wSize d || wSize d = 0 || 2 ^ 28 * 4096 < wSize d || wRowLen d = 0 || 2 ^ 40 < wRowLen d then
    trapWith .range a 0
  if wBadParam d then trapWith .range a 0
  if (wGen d = 2 || wGen d = 3 || (wGen d = 4 && wP d 1 = 1)) && !vtFloat t then trapWith .range a 0
  if wGen d = 2 && (fmt32.split (wP d 0)).2 > fmt32.maxc then trapWith .range a 0
  if wKs d && wGen d ≠ 4 && wGen d ≠ 5 then trapWith .range a 0
  if wGen d = 3 then
    let p : Word := BitVec.ofNat 64 (wP d 0)
    needAlign p 4
    if wCol0 d < 0 || 2 * (wP d 1 : Int) < wCol0 d + (wRowLen d : Int) then trapWith .range a 0
    if 512 < wP d 1 + s.core.task.anglesBut w then trapWith .range a 0
    let th ← readRecord p (4 * wP d 1)
    return { en := true, img := d, theta := words32 th }
  else return { en := true, img := d, theta := [] }

/-- Sets a window of the resident task. -/
def State.setWin (s : State) (w : Nat) (x : Window) : State := s.mapTask fun t => { t with wins := t.wins.set! w x }

/-- Checks before a window changes (08 R289). -/
def winGuard : Op Unit := do
  let s ← get
  trapIf s.anyForkedA .range
  ctlQuiet

/-- WINCFG (08 R289). -/
def execWincfg (w : BitVec 4) (a : BitVec 6) : State → Out := runCtl (do
  needX [a]
  winGuard
  let s ← get
  let x ← configure w.toNat (s.ctl.getX a)
  modify fun s => s.setWin w.toNat x)

/-- WINOFF (08 R289). -/
def execWinoff (w : BitVec 4) : State → Out := runCtl (do
  winGuard
  modify fun s => s.setWin w.toNat Window.reset)

/-- The word of `WINQ` (08 R290). -/
def winqWord (t : Task) (ea : Word) : Word :=
  if bits ea 63 48 ≠ 0 then 0
  else match t.windowAt ea.toNat with
    | none => 0
    | some w =>
      let d := (t.wins.toList.getD w Window.reset).img
      BitVec.ofNat 64 (1 + 2 * w + 32 * wGen d + 256 * (winElem t.nfd d ea.toNat % 2 ^ 40))

/-- WINQ (08 R290). -/
def execWinq (d a : BitVec 6) (s : State) : Out := aluOp d [a] (fun c => winqWord s.core.task (c.getX a)) s

/-- Where a failed configuration at task start points (08 R286): the descriptor, or the VA that did not translate. -/
def wstartAddr (s : State) (n : Nat) (t : Trap) : Trap :=
  match t.cause with
  | .align | .reservedField | .range => { t with faddr := BitVec.ofNat 64 (lrWintab s.lrec + 128 * n), finfo := 0 }
  | _ => t

/-- One window of the start-up configuration, before the control stream's first bundle (08 R286, 01 R48): a failure stops
the core with `WSTART` at its number. -/
def State.configStep (s : State) : State :=
  let n := s.core.wstart
  match (configure n (BitVec.ofNat 64 (lrWintab s.lrec + 128 * n))).run s with
  | .ok (x, t) => (t.setWin n x).mapCore fun c => { c with wstart := n + 1 }
  | .error (.stall k) => s.leave .ctl k
  | .error (.trap t) => s.takeFault .ctl (wstartAddr s n t)
  | .error (.trapIn u t) => u.takeFault .ctl (wstartAddr s n t)
  | .error (.fault _) => s

end Sys2Proof.Machine
end

