-- ==== Sys2Proof/Machine/Commit.lean ====
section
/-! DEFINITION. The tasks of a job and the commit tree: package votes, their combination, decisions, their apply, passes
(13 R411, R416, R417, R422 to R427, R435 to R438). -/

namespace Sys2Proof.Machine

/-- A task put among others in ascending index. -/
def putTask (t : Task) : List Task → List Task
  | [] => [t]
  | u :: us => if t.idx < u.idx then t :: u :: us else if t.idx = u.idx then t :: us else u :: putTask t us

/-- The tasks of a core that have not ended, in ascending index. -/
def Core.live (c : Core) : List Task := (putTask c.task c.others).filter fun t => t.st ≠ .ended

/-- The cores of the package that hold a job, in ascending number. -/
def State.coresOf (s : State) (id : Nat) : List Core :=
  (putCore s.core (s.others.filter fun c => c.num ≠ s.core.num)).filter fun c => c.job = some id

/-- The cores of a job with their tasks, resident or spilled (01 R50). -/
def State.holdersOf (s : State) (j : Job) : List Core := if j.spill = [] then s.coresOf j.id else j.spill

/-- The tasks of a job in the package that have not ended. -/
def State.liveTasks (s : State) (j : Job) : List Task := (s.holdersOf j).flatMap Core.live

/-- Every task of the job has voted or ended (13 R424, R436). -/
def State.allVoted (s : State) (j : Job) : Bool :=
  j.st = .closing || (s.liveTasks j).all fun t => t.tx.vote.isSome

/-- The maximum of two binary32 codes (13 R423). -/
def voteMax (a b : BitVec 32) : BitVec 32 :=
  let nan (x : BitVec 32) : Bool := bits x 30 0 > 0x7F800000
  let key (x : BitVec 32) : Int := if bit x 31 then -(bits x 30 0 : Int) - 1 else bits x 30 0
  if nan a || nan b then 0x7FC00000 else if key a < key b then b else a

/-- A vote or decision packet (13 R423, R425). -/
def packet (gen flags mx count commit group : Nat) : BitVec 128 :=
  BitVec.ofNat 128 (gen % 2 ^ 16 + flags % 2 ^ 16 * 2 ^ 16 + mx % 2 ^ 32 * 2 ^ 32 + count % 2 ^ 32 * 2 ^ 64 + commit * 2 ^ 96 +
    group % 2 ^ 16 * 2 ^ 112)

/-- Generation of a packet. -/
def pkGen (p : BitVec 128) : Nat := bits p 15 0
/-- Flags of a packet. -/
def pkFlags (p : BitVec 128) : Nat := bits p 31 16
/-- Maximum of a packet. -/
def pkMax (p : BitVec 128) : BitVec 32 := BitVec.ofNat 32 (bits p 63 32)
/-- Count of a packet. -/
def pkCount (p : BitVec 128) : Nat := bits p 95 64
/-- `DCOMMIT` of a decision. -/
def pkCommit (p : BitVec 128) : Bool := bit p 96
/-- Group of a packet. -/
def pkGroup (p : BitVec 128) : Nat := bits p 127 112

/-- Votes combined (13 R423, R425): two generations among them add `FAULT`. -/
def combine (gen group : Nat) (l : List (BitVec 128)) : BitVec 128 :=
  let fl := l.foldl (fun f p => f ||| pkFlags p) 0
  let fl := if l.all fun p => pkGen p = gen % 2 ^ 16 then fl else fl ||| 16
  packet gen fl (l.foldl (fun m p => voteMax m (pkMax p)) 0xFF800000#32).toNat (l.foldl (fun n p => n + pkCount p) 0) 0 group

/-- Packages of a job. -/
def State.packagesOf (s : State) (j : Job) : Nat := if lrSpan j.lrec ≤ 4 then 1 else max 1 (s.groupPkgs (lrGroup j.lrec)).length

/-- Votes that the node of rank `r` among `n` packages gathers: its own and those of the nodes below it (13 R422). -/
def nodeVotes (r n : Nat) : Nat :=
  1 + ([1, 16, 256].foldl (fun k d =>
    if r % (16 * d) = 0 then k + ((List.range 16).filter fun i => 0 < i && r + i * d < n).length else k) 0)

/-- The generation that the commit tree decides next (13 R422, R425): decisions that have reached this package and wait for its
votes lie behind it. -/
def Job.treeGen (j : Job) : BitVec 64 := j.gen + BitVec.ofNat 64 j.decided.length

/-- A decision reaches this package (13 R425, R426, R437): an abort ends the collectives of its generation that still
gather. -/
def State.takeDecision (s : State) (id : Nat) (p : BitVec 128) : State :=
  let g := (s.jobAt id).map Job.treeGen
  let s := s.mapJobAt id fun j => { j with decided := j.decided ++ [(p, s.chron.toNat)], first := none, votes := [] }
  if pkCommit p then s
  else
    let mine (c : Coll) : Bool := c.job = id && c.gen.isSome && c.gen = g
    let cutA (d : Die) : Die := match d.astro.core with
      | some n =>
        if (s.coreAt n).job = some id then
          { d with astro := { d.astro with wait := d.astro.wait.map fun w =>
              if w.gen.isSome && w.gen = g then { w with cut := true } else w } }
        else d
      | none => d
    { s with colls := s.colls.map fun c => if mine c then { c with cut := true } else c, dies := s.dies.map cutA }

/-- The root decides from the votes it holds, with further flags (13 R425). -/
def State.rootDecide (s : State) (j : Job) (more : Nat) : State :=
  let g := if lrSpan j.lrec ≤ 4 then 0 else lrGroup j.lrec
  let v := combine j.treeGen.toNat g j.votes
  let fl := pkFlags v ||| more
  let p := packet j.treeGen.toNat fl (pkMax v).toNat (pkCount v) (if fl % 64 = 0 then 1 else 0) g
  let s := if s.packagesOf j = 1 then s else { s with node := { s.node with sent := s.node.sent ++ [p] } }
  s.takeDecision j.id p

/-- A vote reaches the node of this package (13 R422, R425): with all of its votes the root decides, and any other node
sends their combination up. The root discards a vote of a decided generation; any other node sends it on. -/
def State.receiveVote (s : State) (id : Nat) (p : BitVec 128) : State :=
  match s.jobAt id with
  | none => s
  | some j =>
    let old := (j.treeGen.toNat + 2 ^ 16 - pkGen p) % 2 ^ 16
    if 0 < old && old < 2 ^ 15 then
      if s.rankOf j.lrec = 0 then s else { s with node := { s.node with sent := s.node.sent ++ [p] } }
    else
      let j := { j with votes := j.votes ++ [p], first := some (j.first.getD s.chron.toNat) }
      let s := s.mapJobAt id fun _ => j
      if j.votes.length < nodeVotes (s.rankOf j.lrec) (s.packagesOf j) then s
      else if s.rankOf j.lrec = 0 then s.rootDecide j 0
      else
        let s := s.mapJobAt id fun j => { j with votes := [] }
        { s with node := { s.node with sent := s.node.sent ++ [combine j.treeGen.toNat (lrGroup j.lrec) j.votes] } }

/-- The package vote (13 R424, R435, R436, R438), with further flags. -/
def State.sendVote (s : State) (j : Job) (more : Nat) : State :=
  if j.sent then s
  else
    let vs := (s.liveTasks j).filterMap fun t => t.tx.vote
    let fl := vs.foldl (fun f v => f ||| v.1.toNat) more ||| (if j.corr then 4 else 0)
    let mx := vs.foldl (fun m v => voteMax m v.2) 0xFF800000#32
    let p := packet j.gen.toNat fl mx.toNat (lrTasks j.lrec) 0 (if lrSpan j.lrec ≤ 4 then 0 else lrGroup j.lrec)
    (s.mapJobAt j.id fun k => { k with sent := true }).receiveVote j.id p

/-- Notes the cycle at which every task of the core's job has voted or ended (13 R424). -/
def State.noteVotes (s : State) : State :=
  match s.job with
  | none => s
  | some j =>
    if lrTxn j.lrec && j.voted.isNone && s.allVoted j && (s.liveTasks j).any (fun t => t.tx.vote.isSome) then
      s.mapJobAt j.id fun k => { k with voted := some s.chron.toNat }
    else s

/-- A job that has ended and waits for a decision. -/
def Job.close (now : Nat) (k : Job) : Job :=
  { k with st := .closing, cores := [], spill := [], aspill := [], frames := [], voted := some (k.voted.getD now) }

/-- The end of a job with a task in `OPEN` or `VOTED` (13 R436): the vote carries `FAULT`. The job stays with the commit node until
that decision, or one that waits, is applied (R426). -/
def State.closeVote (s : State) (id : Nat) : State :=
  match s.jobAt id with
  | none => s
  | some j =>
    if lrTxn j.lrec && (s.liveTasks j).any (fun t => t.tx.st = 1 || t.tx.st = 2) then
      (s.sendVote j 16).mapJobAt id (Job.close s.chron.toNat)
    else if j.decided ≠ [] then s.mapJobAt id (Job.close s.chron.toNat)
    else s

/-- A pre-emption taken while a task of the job is in `OPEN` and the vote has not been sent (01 R54, 13 R435). -/
def State.preemptVote (s : State) (j : Job) : State :=
  if lrTxn j.lrec && !j.sent && (s.liveTasks j).any (fun t => t.tx.st = 1) then s.sendVote j 8 else s

/-- Regions of an address space in service. -/
def State.regionsOf (s : State) (asid : BitVec 16) : List Nat :=
  (List.range 16).filter fun v => match s.regions[v]? with | some r => r.rdy && r.asid = asid | none => false

/-- Blocks of a region in a stack. -/
def State.blocksIn (s : State) (v k : Nat) : Nat := ((s.regions[v]?).map fun r => r.blocksIn k).getD 0

/-- The state of a region at a Carafe. -/
def State.vst (s : State) (v k : Nat) : VStack := ((s.regions[v]?).bind fun r => r.st[k]?).getD VStack.reset

/-- An apply must wait for the pass of a region at a Carafe (13 R417). -/
def State.applyWaits (s : State) (v k : Nat) (commit : Bool) : Bool :=
  let x := s.vst v k
  ((s.regions[v]?).map Region.rdy).getD false && 0 < s.blocksIn v k && (8192 ≤ (x.s + 1 - x.vpass).toNat || (!commit && 64 ≤ x.aborted.length))

/-- A Carafe applies a decision to a region (13 R411); in a stack without a block of it every pass has ended. -/
def VStack.apply (x : VStack) (commit : Bool) (empty : Bool) : VStack :=
  let y := if commit then { x with s := x.s + 1 } else { x with s := x.s + 1, aborted := x.aborted ++ [x.s] }
  if empty then { y with vpass := y.s, aborted := [] } else y

/-- The decision of a job may be applied in this package (13 R426). -/
def State.applyReady (s : State) (j : Job) : Bool :=
  match j.decided with
  | [] => false
  | (p, at') :: _ =>
    s.allVoted j && max at' (j.voted.getD 0) + 16 ≤ s.chron.toNat &&
      !(s.regionsOf j.asid).any fun v => (List.range 12).any fun k => s.applyWaits v k (pkCommit p)

/-- DECISION_APPLY (13 R411, R426): every region of the job takes the oldest decision that waits, the job goes to its next
generation. -/
def State.applyDecision (s : State) (j : Job) (p : BitVec 128) : State :=
  let s := (s.regionsOf j.asid).foldl (fun s v =>
    (List.range 12).foldl (fun s k => s.mapVStack v k fun x => x.apply (pkCommit p) (s.blocksIn v k = 0)) s) s
  let s := { s with node := { s.node with ndec := s.node.ndec + 1, nabt := s.node.nabt + (if pkCommit p then 0 else 1) } }
  if j.st = .closing && j.decided.length ≤ 1 then { s with jobs := s.jobs.filter fun k => k.id ≠ j.id }
  else
    let clear (t : Task) : Task := { t with tx := { t.tx with vote := none } }
    let clearC (c : Core) : Core := { c with task := clear c.task, others := c.others.map clear }
    let s := s.mapJobAt j.id fun k => { k with
      gen := k.gen + 1, sent := false, voted := none, decided := k.decided.tail, applied := some p,
      corr := false, spill := k.spill.map clearC }
    (s.coresOf j.id).foldl (fun s c => s.mapCoreAt c.num clearC) s

/-- A visit of a block (13 R416). -/
def State.visitBlock (s : State) (v pa : Nat) : State :=
  let x := s.vstack v pa
  let b := (s.blockAt v pa).resolve x.s x.aborted
  s.putBlock (if 16384 ≤ (x.s - b.tgen).toNat then { b with tgen := x.s - 16384 } else b)

/-- The blocks of a region in a stack whose metadata the model lists. -/
def State.listedBlocks (s : State) (v k : Nat) : List Nat :=
  match s.regions[v]? with
  | some r => (s.blocks.filter fun b => r.base.toNat ≤ b.pa / 4096 && b.pa / 4096 < r.limit.toNat && (stackOf b.pa).1 = k).map
      VBlock.pa
  | none => []

/-- The end of a pass (13 R416). -/
def VStack.passEnd (x : VStack) : VStack :=
  { x with aborted := x.aborted.filter fun g => !(0 < (x.vpass - g).toNat && (x.vpass - g).toNat < 2 ^ 15),
           passes := x.passes + 1, vpass := x.s, vptr := 0 }

/-- `VPTR` of a region in service has passed the last block in a stack (13 R416). -/
def State.passDue (s : State) (v k : Nat) : Bool :=
  ((s.regions[v]?).map Region.rdy).getD false && 0 < s.blocksIn v k && s.blocksIn v k ≤ (s.vst v k).vptr.toNat

/-- VERSION_PASS_END (13 R416). -/
def execVersionPassEnd (v k : BitVec 4) (s : State) : Out :=
  .next (if s.passDue v.toNat k.toNat then s.mapVStack v.toNat k.toNat VStack.passEnd else s)

/-- A pass of a region at a Carafe must be forced (13 R417). -/
def State.mustForce (s : State) (v k : Nat) : Bool :=
  let x := s.vst v k
  ((s.regions[v]?).map Region.rdy).getD false && x.vptr.toNat < s.blocksIn v k && (4096 ≤ (x.s - x.vpass).toNat || 32 ≤ x.aborted.length)

/-- FORCED_PASS (13 R417): the Carafe visits the remaining blocks of the pass. -/
def execForcedPass (v k : BitVec 4) (s : State) : Out :=
  if !s.mustForce v.toNat k.toNat then .next s
  else
    let base := ((s.regions[v.toNat]?).map fun r => r.base.toNat).getD 0
    let x := s.vst v.toNat k.toNat
    let s := ((s.listedBlocks v.toNat k.toNat).filter fun pa => x.vptr.toNat ≤ blockIndex base pa).foldl
      (fun s pa => s.visitBlock v.toNat pa) s
    .next (s.mapVStack v.toNat k.toNat fun x => { x with
      forced := x.forced + 1, stamp := x.s - 16384, vptr := BitVec.ofNat 32 (s.blocksIn v.toNat k.toNat) })

end Sys2Proof.Machine
end

