-- ==== Sys2Proof/Machine/Jobs.lean ====
section
/-! DEFINITION. Launch records, the device's own accesses for a job, task slots, task start, conflicts, the end of a job,
admission, placement and pre-emption (01 R15 to R23, R30, R31, R36 to R38, R50 to R53, 02 R71 to R75). -/

namespace Sys2Proof.Machine

/-- The sub-code of R18 that a record fails, or 0; firmware records have the further conditions of R133 (01 R18, 04 R133). -/
def State.recordFail (s : State) (r : BitVec 4608) (fw : Bool) : Nat :=
  let kind (k : Nat) : Bool := bit (BitVec.ofNat 5 (lrKmask r)) k
  let desc (k : Nat) : Nat := bits r (8 * (0x100 + 64 * k) + 511) (8 * (0x100 + 64 * k))
  let ks := (List.range 5).filter kind
  let heap := lrHeapBase r < lrHeapLim r
  if lrField r 0 15 0 ≠ 1 then 1
  else if lrField r 0x48 63 16 ≠ 0 || lrField r 0x50 127 0 ≠ 0 || lrField r 0x60 255 224 ≠ 0 || lrField r 0xD0 383 0 ≠ 0 ||
      (List.range 5).any (fun k => lrField r (0x130 + 64 * k) 127 0 ≠ 0 || (!kind k && desc k ≠ 0)) ||
      lrField r 0x110 255 0 ≠ 0 || (fw && lrTxn r) then 2
  else if lrSpan r = 0 || lrSpan r = 7 || (lrGroup r ≠ 0 && lrSpan r ≤ 4) || (fw && 4 < lrSpan r) ||
      (4 < lrSpan r && !(s.groupPkgs (lrGroup r)).contains s.pkg) then 3
  else if !kind 0 then 4
  else if lrTasks r = 0 || lrNcore r = 0 || 256 < lrNcore r || 7 < lrSpsize r || (fw && (lrTasks r ≠ 1 || lrNcore r ≠ 1)) then 5
  else if (List.range 224).any (fun i => 32 * lrSpsize r ≤ i && lrLiveSeg r i) then 6
  else if lrHeapBase r % 4096 ≠ 0 || lrHeapLim r % 4096 ≠ 0 || lrHeapOff r % 4096 ≠ 0 || lrTsave r % 4096 ≠ 0 ||
      lrWintab r % 64 ≠ 0 || lrCompl r % 64 ≠ 0 ||
      ks.any (fun k => lrCodeBase r k % 4096 ≠ 0 || lrEntry r k % (if k < 2 then 4 else 8) ≠ 0) then 7
  else if lrHeapLim r < lrHeapBase r || (heap && dramSize < lrHeapLim r + lrHeapOff r) then 8
  else if lrCompl r = 0 || lrTsave r = 0 then 9
  else if ks.any (fun k => lrCodeLen r k ≤ lrEntry r k) then 10
  else 0

/-- Why an access that the device makes for a job does not translate: cause, VA, `FINFO` as R265 lays it out. -/
structure JobErr where
  cause : Cause
  va    : Nat
  finfo : Nat
  deriving DecidableEq, Repr

/-- Where a page operation that moves the page of a VA has its bytes by now, when it copies nothing (07 R252, R262): the access stalls
until the move ends. -/
def State.movedTo (s : State) (asid : BitVec 16) (va : Nat) : Option Nat :=
  (s.core :: s.others).findSome? fun c => match c.xlt with
    | some w => if w.asid = asid && w.va ≤ va && va < w.va + w.len then w.dst.map fun g => g + (va - w.va) else none
    | none => none

/-- Translation of a VA for an access of a kind that the device makes for a job: its address, or the fault (01 R19, R20, 07 R252,
R265). -/
def State.jobXlat (s : State) (r : BitVec 4608) (root : Nat) (asid : BitVec 16) (k : AK) (va : Nat) : Except JobErr Nat :=
  let err (c : Cause) (lvl why : Nat) : Except JobErr Nat := .error { cause := c, va := va, finfo := xltInfo k lvl why 0 0 }
  if lrHeapBase r ≤ va && va < lrHeapLim r then .ok (gaOf s.pkg (va + lrHeapOff r))
  else if 2 ^ 48 ≤ va then .error { cause := .range, va := va, finfo := 0 }
  else match s.walk root va with
    | .absent lvl why _ => err .pageAbsent lvl why
    | .leaf e size pa =>
      let x := tlbEntry asid va e size pa
      if !frameExists x.leaf (va - x.va) then err .pageAbsent (size / 2) 3
      else if k.writes then
        (if !bit e 3 || bit e 5 then err .writeProtect (size / 2) 0 else .ok ((s.movedTo asid va).getD (x.ga va)))
      else if !bit e 2 then err .pageAbsent (size / 2) 1
      else .ok ((s.movedTo asid va).getD (x.ga va))

/-- What the walks for a range of a job leave of the sectors they read (11 R359, R360); hub core 0 asks for them (log 22). -/
def State.jobWalks (s : State) (r : BitVec 4608) (root va n : Nat) : State :=
  (pages va n).foldl (fun s p =>
    if (lrHeapBase r ≤ p.1 && p.1 < lrHeapLim r) || 2 ^ 48 ≤ p.1 then s else s.walkReads 0x600 p.1 4 root) s

/-- The pieces of a range as the device translates it for a job, or the fault of the first that does not translate. -/
def State.jobSegs (s : State) (r : BitVec 4608) (root : Nat) (asid : BitVec 16) (k : AK) (va n : Nat) : Except JobErr (List Seg) :=
  (pages va n).mapM fun (a, m) => do return { va := a, pa := ← s.jobXlat r root asid k a, len := m }

/-- What an operation for a job gives, or the state and the fault of its translation. -/
abbrev JobRes := Except (State × JobErr) State

/-- A write of a kind that the device makes for a job; no access under R73 (01 R19, R20). Hub core 0 makes it (01 R34; log 22). -/
def State.jobWrite (s : State) (j : Job) (k : AK) (va : Nat) (d : List Byte) : JobRes :=
  let t := s.jobWalks j.lrec j.root.toNat va d.length
  match s.jobSegs j.lrec j.root.toNat j.asid k va d.length with
  | .error e => .error (t, e)
  | .ok segs =>
    .ok ((segs.foldl (fun (x : State × List Byte) g =>
      ((x.1.physWrite g.pa (x.2.take g.len) { src := 0x600, key := j.key, asid := some j.asid, step := false } false [] []).1,
        x.2.drop g.len)) (t, d)).1)

/-- Bytes per slot (01 R20). -/
def liveSegs (r : BitVec 4608) : List Nat := (List.range 224).filter (lrLiveSeg r)
/-- Live accumulators. -/
def liveAccs (r : BitVec 4608) : List Nat := (List.range 16).filter (lrLiveAcc r)
/-- `TSLOT`. -/
def tslot (r : BitVec 4608) : Nat := 8192 + 4096 * (liveSegs r).length + 16384 * (liveAccs r).length

/-- The image of an accumulator as bytes (09 R292). -/
def accBytes (a : AccImg) : List Byte := natLe 16384 a.toNat

/-- A part of the device's own 8 KiB of a slot: free values (01 R20; log 6). -/
def freeBytes (k : Nat) : List Byte := (List.range 1024).flatMap fun i => wordLe 8 (Config.freeWord (k + i))

/-- The streams of the core are joined: none is forked, and `QSEQ` returns to the task (01 R24, 10 R349). -/
def State.unfork (s : State) : State :=
  let off (r : Strm32) : Strm32 := { r with run := .off }
  let s := ((s.mapStrm .vec off).mapStrm .mtx off).mapStrm .cpy off
  if s.astro.core = some s.core.num && s.astro.task = s.core.task.idx then
    (s.mapTask fun t => { t with qseq := s.astro.qseq }).mapAstro fun a => { a with s := off a.s, core := none, st := none }
  else s

/-- Saving the resident task's boundary context into its slot (01 R20, R26, R31). -/
def State.saveTask (s : State) : JobRes :=
  match s.job with
  | none => .ok s
  | some j =>
    let r := j.lrec
    let base := lrTsave r + s.core.task.idx * tslot r
    let segs := (liveSegs r).flatMap fun i => s.core.pad.read (4096 * i) 4096
    let accs := (liveAccs r).flatMap fun i => accBytes (s.core.acc.toList.getD i 0)
    match s.jobWrite j .store base (freeBytes s.free ++ segs ++ accs) with
    | .error e => .error e
    | .ok t =>
      let t := { t with free := t.free + 1024 }.unfork
      .ok (t.mapTask fun k => { k with st := .saved })

/-- Makes a task of the core the resident one; the pins are those of its own table (04 R158). -/
def State.swapTask (s : State) (t : Task) : State :=
  s.mapCore fun c => { c with
    task := t, others := putTask c.task (c.others.filter fun u => u.idx ≠ t.idx)
    ready := [], code := c.code.map fun x => { x with pinned := false }, repin := t.pins }

/-- Every holding with control, nothing in transit, every holding flag at 0 (01 R26 step 1, R31). -/
def Core.allToCtl (c : Core) : Core :=
  { c with hold := Vector.replicate 240 .ctl, transit := [],
           task := { c.task with flags := c.task.flags.map fun f => if f.hold then { f with value := 0 } else f } }

/-- A sector of a slot as a restore reads it; the spec states no value for one that is uncorrectable or refused (log 36). -/
def State.slotSector (s : State) (j : Job) (ga : Nat) : State × List Byte :=
  let (s, r) := s.physRead ga 64 { src := 0x600, key := j.key, asid := some j.asid, step := false } 0
  if r.refused || r.bad ≠ [] then
    ({ s with free := s.free + 8 }, (List.range 8).flatMap fun i => wordLe 8 (Config.freeWord (s.free + i)))
  else (s, r.data)

/-- The bytes of a slot; no access under R73 (01 R20). -/
def State.slotBytes (s : State) (j : Job) (segs : List Seg) : State × List Byte :=
  let (s, l) := segs.foldl (fun x g => (List.range (g.len / 64)).foldl (fun (x : State × List (List Byte)) i =>
    let y := x.1.slotSector j (g.pa + 64 * i)
    (y.1, y.2 :: x.2)) x) (s, [])
  (s, l.reverse.flatten)

/-- The live segments of a slot in the scratchpad, from their bytes (01 R20). -/
def livePad (r : BitVec 4608) (d : List Byte) : Mem :=
  (((liveSegs r).flatMap fun i => (List.range 4096).map fun k => 4096 * i + k).zip d).filter fun c => c.2 ≠ 0

/-- The live accumulators of a slot, from their bytes (01 R20). -/
def liveAccImgs (r : BitVec 4608) (d : List Byte) : Vector AccImg 16 :=
  (liveAccs r).zipIdx.foldl (fun v a => v.set! a.1 (BitVec.ofNat 131072 (leNat ((d.drop (16384 * a.2)).take 16384))))
    (Vector.replicate 16 0)

/-- Restoring a saved task from its slot (01 R20, R31): what is not live reads as zero. -/
def State.restoreTask (s : State) (t : Task) : JobRes :=
  match s.job with
  | none => .ok s
  | some j =>
    let r := j.lrec
    let va := lrTsave r + t.idx * tslot r
    let u := s.jobWalks r j.root.toNat va (tslot r)
    match s.jobSegs r j.root.toNat j.asid .load va (tslot r) with
    | .error e => .error (u, e)
    | .ok segs =>
      let (s, d) := u.slotBytes j segs
      let s := s.swapTask { t with st := .resident }
      .ok (s.mapCore fun c => { c.allToCtl with
        pad := livePad r (d.drop 8192), acc := liveAccImgs r (d.drop (8192 + 4096 * (liveSegs r).length)) })

/-- The context of a task that starts (01 R15, 03 R125, R126, 02 R64). -/
def Job.freshTask (j : Job) (rank idx : Nat) : Task :=
  let r := j.lrec
  let x0 : Vector Word 64 := Vector.replicate 64 0
  let x := (((x0.set 1 (BitVec.ofNat 64 idx)).set 2 (BitVec.ofNat 64 (lrTasks r))).set 3 (BitVec.ofNat 64 rank)).set 4 (lrSeed r)
  let x := (List.range 8).foldl (fun (v : Vector Word 64) k => v.set! (8 + k) (lrXinit r k)) x
  { Task.reset with
    idx := idx
    st := .fresh
    ctl := { x := x, p := 0, pc := BitVec.ofNat 64 (lrCodeBase r 0 + lrEntry r 0), run := .running }
    flags := Vector.ofFn fun f => { Flag.reset with cons := engOf (lrFlagCons r f.val) }
    rkey := taskKey (lrSeed r) rank }

/-- Starting a task on its core (01 R15, 08 R286). -/
def State.startTask (s : State) (t : Task) : State :=
  let w := if lrWintab s.lrec = 0 then 16 else 0
  (s.swapTask { t with st := .resident }).mapCore fun c => { c.allToCtl with
    pad := [], acc := Vector.replicate 16 0, wstart := w, blocked := 0 }

/-- The releases that a task of a core has observed. -/
def State.countsOf (s : State) (core idx : Nat) : Counts :=
  let c := s.coreAt core
  (((c.task :: c.others).find? fun t => t.idx = idx).map Task.counts).getD Counts.zero

/-- Two accesses conflict (02 R72): different streams, one a write, not two reductions of one operation and type. -/
def AccRec.clash (a b : AccRec) : Bool :=
  a.line = b.line && !(a.core = b.core && a.task = b.task && a.strm = b.strm) &&
    (match a.kind, b.kind with
    | .rd, .rd => false
    | .red o t, .red p u => !(o = p && t = u)
    | _, _ => true)

/-- The lines of the records that meet another in a conflict of a kind, with their lowest VA. -/
def conflictLines (rs : List AccRec) (hit : AccRec → AccRec → Bool) : List (Nat × Nat) :=
  rs.foldl (fun out a =>
    if rs.any fun b => a.clash b && hit a b then
      (if out.any (fun (x : Nat × Nat) => x.1 = a.line) then out.map fun x => if x.1 = a.line then (x.1, min x.2 a.va) else x
       else out ++ [(a.line, a.va)])
    else out) []

/-- The releases of a level that the task of a record has observed by now. -/
def State.seen (s : State) (r : AccRec) (l : Nat) : Nat := (s.countsOf r.core r.task).at l

/-- The task of a record has ended. -/
def State.gone (s : State) (r : AccRec) : Bool :=
  let c := s.coreAt r.core
  !(c.task :: c.others).any fun t => t.idx = r.task && t.st ≠ .ended

/-- The conflicts of a job that a release of scope `sc` between the cores chosen reports (02 R72, R75), between tasks that
observe it; accesses of two jobs are not compared (log 21). -/
def State.conflicts (s : State) (id sc : Nat) (mem : Nat → Bool) : List (Nat × Nat) :=
  conflictLines (s.recs.filter fun r => r.job = id && mem r.core && !s.gone r) fun a b =>
    let l := commonLevel a.core b.core
    l ≤ min sc 5 && a.cnt.at l = b.cnt.at l && a.cnt.at l = s.seen a l && b.cnt.at l = s.seen b l

/-- Two records in conflict that no release has reported: not both of their tasks have observed one since (02 R75). -/
def State.unreported (s : State) (a b : AccRec) : Bool :=
  let l := commonLevel a.core b.core
  a.cnt.at l = b.cnt.at l && !(a.cnt.at l < s.seen a l && b.cnt.at l < s.seen b l)

/-- The conflicts of a job that no release has reported by its end (02 R75). -/
def State.lastConflicts (s : State) (id : Nat) : List (Nat × Nat) :=
  conflictLines (s.recs.filter fun r => r.job = id) s.unreported

/-- A core as its job leaves it. -/
def Core.freed (c : Core) : Core :=
  { Core.reset c.num with
    tlb := c.tlb, code := c.code.map fun x => { x with pinned := false }
    fw := if c.mode = .firmware then { c.fw with go := false } else c.fw }

/-- The near-memory commands that a core leaves under way (11 R378). -/
def State.leftBy (s : State) (c : Core) : List NmCmd :=
  c.nms.map fun m => { m with who := some ((s.focus c.num).agent .ctl) }

/-- Frees the cores of a job, with the Astrolabe streams of their tasks (01 R21); their near-memory commands still complete
(11 R378). -/
def State.freeCores (s : State) (id : Nat) : State :=
  let leave (d : Die) : Die := match d.astro.core with
    | some n => if (s.coreAt n).job = some id then { d with astro := Astro.reset } else d
    | none => d
  let s := { s with dies := s.dies.map leave, orphans := s.orphans ++ (s.coresOf id).flatMap s.leftBy }
  (s.coresOf id).foldl (fun s c => s.mapCoreAt c.num Core.freed) s

/-- The completion area of a job (01 R19). -/
def Job.complBytes (j : Job) (now st cause src sub va : Nat) : List Byte :=
  wordLe 8 (BitVec.ofNat 64 (st + cause * 2 ^ 8 + src * 2 ^ 16 + sub * 2 ^ 32)) ++ natLe 8 j.ended.length ++
    natLe 8 (if st = 4 then 0 else j.admitted.getD 0) ++ natLe 8 now ++ natLe 8 j.steps ++ natLe 8 j.preempts ++
    natLe 8 va ++ natLe 8 0

/-- Updates a task of a core. -/
def State.mapTaskAt (s : State) (core idx : Nat) (f : Task → Task) : State :=
  s.mapCoreAt core fun c =>
    if c.task.idx = idx then { c with task := f c.task }
    else { c with others := c.others.map fun t => if t.idx = idx then f t else t }

/-- What the end of a child makes of its parent task (04 R164): the child is done, its flag is one greater or saturates; `stands`:
the parent's control engine raises the `RANGE` of that when it goes on. -/
def Task.childEnds (t : Task) (child : Nat) (f : BitVec 6) (stands : Bool) : Task :=
  let g := t.flagAt f
  { t with
    owed := t.owed || (stands && g.value = BitVec.allOnes 40)
    children := t.children.map fun c => if c.job = child then { c with done := true } else c
    flags := t.flags.set f.toNat { g with value := if g.value = BitVec.allOnes 40 then g.value else g.value + 1 } }

/-- The add of an ended child to its parent's flag, wherever the parent task stands; past 2^40 − 1 the parent's control engine
raises `RANGE` (04 R164), when the context resumes if it is spilled or its core has written its frame. -/
def State.childDone (s : State) (child : Nat) (p : Nat × Nat × Nat × BitVec 6) : State :=
  let (pid, _, idx, f) := p
  let upd (stands : Bool) (c : Core) : Core :=
    { c with task := if c.task.idx = idx then c.task.childEnds child f stands else c.task,
             others := c.others.map fun t => if t.idx = idx then t.childEnds child f stands else t }
  match (s.coresOf pid).find? fun c => (c.task :: c.others).any fun t => t.idx = idx with
  | some c =>
    let full := (c.task :: c.others).any fun t => t.idx = idx && (t.flagAt f).value = BitVec.allOnes 40
    let framed := match c.stop with | some r => r.framed | none => false
    let s := s.mapCoreAt c.num (upd framed)
    if full && !framed then s.onCore c.num fun s => s.stopCore .ctl { cause := .range, finfo := 0, finfox := 0, faddr := 0 } else s
  | none => s.mapJobAt pid fun j => { j with spill := j.spill.map (upd true) }

/-- When the last context that uses an address space ends, every entry and directory bit of it is dropped (07 R267). -/
def State.leaveSpace (s : State) (id : Nat) (asid : BitVec 16) : State :=
  if s.jobs.any (fun k => k.id ≠ id && k.asid = asid && k.st ≠ .closing && k.st ≠ .waiting) || s.spaces.any (fun x => x.asid = asid && x.host) then s
  else
    let s := s.eachCore fun c =>
      { c with tlb := c.tlb.filter fun x => x.asid ≠ asid, code := c.code.filter fun x => x.asid ≠ asid }
    { s with dies := s.dies.map fun d => { d with
        tlb := d.tlb.filter fun x => x.asid ≠ asid, dir := d.dir.filter fun x => x.asid ≠ asid } }

/-- The end of one job: accumulators rounded (02 R84), completion area written or its loss reported (01 R19), the parent's
flag added to (04 R164), cores and records freed. -/
def State.endOne (s : State) (id st cause src sub va : Nat) : State :=
  match s.jobAt id with
  | none => s
  | some j =>
    let s : State := (s.accs.filter fun a => a.job = id).foldl State.roundOut s
    let s : State := match s.jobWrite j .store (lrCompl j.lrec) (j.complBytes s.chron.toNat st cause src sub va) with
      | .ok t => t
      | .error (t, _) => { t with signals := t.signals ++ [.lostCompletion id] }
    let s := ((s.closeVote id).freeCores id).leaveSpace id j.asid
    let s := { s with
      jobs := s.jobs.filter fun k => k.id ≠ id || k.st = .closing
      recs := s.recs.filter fun r => r.job ≠ id
      objs := s.objs.filter fun o => o.job ≠ id
      reds := s.reds.filter fun m => m.job ≠ id || m.fail = none
      colls := s.colls.filter fun c => c.job ≠ id
      host := { s.host with slots := s.host.slots.map fun x => if x.job = some id then SysSlot.reset else x }
      signals := s.signals ++ [.jobEnded id (BitVec.ofNat 8 st)] }
    match j.parent with
    | some p => s.childDone id p
    | none => s

/-- The jobs that descend from a job, with fuel. -/
def State.descendants (s : State) : Nat → List Nat → List Nat
  | 0, l => l
  | k + 1, l =>
    let more := (s.jobs.filter fun j => !l.contains j.id && (match j.parent with | some p => l.contains p.1 | none => false)).map
      Job.id
    s.descendants k (l ++ more)

/-- The end of a job in this package (01 R19); when it did not complete, the resident OS ends its children with `STATE` 3
(04 R164). -/
def State.endJob (s : State) (id st cause src sub va : Nat) : State :=
  let kids := if st = 1 then [] else (s.descendants s.jobs.length [id]).filter fun k => k ≠ id
  (kids.reverse.foldl (fun s k => s.endOne k 3 0 0 0 0) s).endOne id st cause src sub va

/-- A save or restore that does not translate ends the job (01 R20). -/
def State.slotFail (s : State) (e : JobErr) : State :=
  match s.core.job with
  | some id => s.endJob id 2 e.cause.code 0 0 e.va
  | none => s

/-- Fenced cores (01 R23, 14 R454). -/
def State.fenced (s : State) (n : Nat) : Bool := s.fences.getLsbD n

/-- Free cores in ascending number: not fenced off, with no job (01 R21). -/
def State.freeNums (s : State) : List Nat :=
  (List.range 256).filter fun n => !s.fenced n && (s.coreAt n).job.isNone

/-- eff (01 R36). -/
def Job.eff (j : Job) (now : Nat) : Nat := min 7 (j.prio + (now - j.enq) / 2 ^ 20)

/-- choose (01 R36); of jobs enqueued in one cycle the one that stands first in `State.jobs` (log 22). -/
def State.choose (s : State) : Option Job :=
  (s.jobs.filter fun j => j.st ≠ .running && j.st ≠ .closing && !j.fw).foldl (fun b j =>
    match b with
    | none => some j
    | some k =>
      let e := j.eff s.chron.toNat
      let f := k.eff s.chron.toNat
      if f < e || (e = f && j.enq < k.enq) then some j else some k) none

/-- The chosen job cannot ever have its cores: sub-code 11 (01 R18). -/
def State.neverFits (s : State) (j : Job) : Bool :=
  ((List.range 256).filter fun n => !s.fenced n).length < lrNcore j.lrec

/-- The cores that the chosen job would have now (01 R21, R52); a spilled Astrolabe stream needs its die's engine too, and a
job that was spilled when one of its cores had been fenced waits for that core (log 22). -/
def State.coresFor (s : State) (j : Job) : Option (List Nat) :=
  let free := s.freeNums
  if j.st = .spilled then
    (if j.cores.all free.contains && j.aspill.all fun x => (s.dieAt x.1).astro.s.run ≠ .running then some j.cores else none)
  else if lrNcore j.lrec ≤ free.length then some (free.take (lrNcore j.lrec)) else none

/-- The running job that a chosen job pre-empts (01 R37); of jobs admitted in one cycle the one that stands first in `State.jobs`
(log 22). -/
def State.victim (s : State) (j : Job) : Option Job :=
  (s.jobs.filter fun k => k.st = .running && !k.fw && k.prio < j.prio).foldl (fun b k =>
    match b with
    | none => some k
    | some m => if k.prio < m.prio || (k.prio = m.prio && m.admitted.getD 0 < k.admitted.getD 0) then some k else some m) none

/-- A core takes up tasks and runs the lowest-indexed one that has not ended (01 R21, R23, R52). -/
def State.takeTasks (s : State) (id n sp : Nat) (ts : List Task) (sched : State → State) : State :=
  s.onCore n fun s =>
    sched (s.mapCore fun c => { c with
      job := some id, spsize := BitVec.ofNat 3 sp, bar := Bar.reset, stop := none,
      task := { Task.reset with idx := 2 ^ 32, st := .ended }, others := ts })

end Sys2Proof.Machine
end

