-- ==== Sys2Proof/Machine/Sync.lean ====
section
/-! DEFINITION. `FORK`, `JOIN`, `REND`, flags, barriers, the task switch and the end of a task (01 R24 to R32, 02 R65,
R66, 04 R151 to R155). -/

namespace Sys2Proof.Machine

/-- The registers of a stream as `FORK` starts it (01 R24, R17). -/
def forkRegs (r : BitVec 4608) (k idx : Nat) : Strm32 :=
  let x0 : Vector Word 32 := Vector.replicate 32 0
  let x := (List.range 4).foldl (fun (v : Vector Word 32) i => v.set! (8 + i) (lrXinitK r k i))
    (x0.set 1 (BitVec.ofNat 64 idx))
  { x := x, p := 0, pc := BitVec.ofNat 64 (lrCodeBase r k + lrEntry r k), draw := 0, run := .running }

/-- The task of the core is the lowest-indexed task of its job placed on the die (01 R25). -/
def State.ownsAstro (s : State) : Bool :=
  match s.job with
  | some j =>
    ((List.range (lrTasks j.lrec)).find? fun i => j.place i / 64 = s.core.die) = some s.core.task.idx
  | none => false

/-- An Astrolabe stream of another job that has ended leaves the engine of the die, its `QSEQ` with its task (10 R323, R349). -/
def State.leaveAstro (s : State) : State :=
  match s.astro.core with
  | some n => s.mapCoreAt n fun c => if c.task.idx = s.astro.task then { c with task := { c.task with qseq := s.astro.qseq } } else c
  | none => s

/-- The engine of the die runs a stream of another job (10 R323). -/
def State.astroBusy (s : State) : Bool :=
  match s.astro.core with
  | some n => s.astro.s.run = .running && (s.coreAt n).job ≠ s.core.job
  | none => false

/-- Starts a stream (01 R24, 10 R323). -/
def State.startStream (s : State) (k : Strm) : State :=
  let g := forkRegs s.lrec (strmCode k) s.core.task.idx
  match k with
  | .ctl => s
  | .vec => s.mapVec fun _ => { Vec.reset with s := g, entry := true }
  | .mtx => s.mapMtx fun m => { m with s := g, d := Vector.replicate 16 0 }
  | .cpy => s.mapCpy fun c => { c with s := g }
  | .ast => s.leaveAstro.mapAstro fun a => { a with
      s := g, core := some s.core.num, task := s.core.task.idx, g := Vector.replicate 8 Gate.reset, st := none, kop := 0,
      qseq := s.core.task.qseq, wait := none, stop := none }

/-- FORK (01 R24, R25, 04 R151). -/
def execFork (k : BitVec 4) : State → Out := runCtl (do
  trapIf (k = 0) .range
  let s ← get
  let named := [Strm.vec, .mtx, .cpy, .ast].filter fun t => bit k (strmCode t - 1)
  trapIf (named.any fun t => !bit (BitVec.ofNat 5 (lrKmask s.lrec)) (strmCode t)) .range
  let named := named.filter fun t => t ≠ .ast || s.ownsAstro
  trapIf (named.any s.forked) .range
  if named.contains .ast && s.astroBusy then stall
  modify fun s => named.foldl State.startStream s)

/-- The Astrolabe stream of the task has nothing under way. -/
def State.astroQuiet (s : State) : Bool := s.runOf .ast ≠ .running && (!s.forked .ast || s.astro.wait.isNone)

/-- The wait of `JOIN` is over: every forked stream has ended and its commands have completed, and the control stream's
own too (01 R24, R26, 02 R77, 04 R150). The `ADDF` of a holding flag behind a stamped command is not waited for. -/
def State.joined (s : State) : Bool :=
  [Strm.vec, .mtx, .cpy].all (fun k => s.runOf k ≠ .running) && s.astroQuiet &&
    ([Eng.ctl, .vec, .mtx, .cpy].all fun e => !s.unfinished e s.core.task.seq) &&
    s.core.adds.all fun a => (s.core.task.flagAt a.flag).hold && !s.addReady a

/-- The wait of `JOIN` (01 R24, R46). -/
def joinWait : Op Unit := do
  let s ← get
  if !s.joined then stallBlocked

/-- The end of the wait of `JOIN`: the guards of record lines are lifted (06 R220), and a range whose `ADDF` has not applied counts as
given and not yet added (01 R24, R26). -/
def State.joinEnd (s : State) : State := (s.mapTask fun t => { t with guards := [] }).mapCore fun c => { c with adds := [] }

/-- The engines whose streams are forked. -/
def State.forkedEngs (s : State) : List Eng := [Eng.vec, .mtx, .cpy].filter fun e => s.forked e.strm

/-- Holdings of joined engines pass to control (01 R24): theirs, the ranges in transit to flags they consume, the ranges they
have given and not yet added. The entry of a range that stays in transit names its giver (01 R44). -/
def State.passHoldings (s : State) (es : List Eng) : State :=
  let c := s.core
  let back (t : Transit) (added : Bool) : Bool :=
    let f := c.task.flagAt t.flag
    es.contains f.cons || (!added && es.contains f.carr)
  let step (acc : List (BitVec 6) × List (Transit × Bool)) (t : Transit) :=
    let n := (acc.1.filter (fun f => f = t.flag)).length
    (acc.1 ++ [t.flag], acc.2 ++ [(t, Decidable.decide (n < (c.task.flagAt t.flag).value.toNat))])
  let marked := (c.transit.foldl step ([], [])).2
  let taken := (marked.filter fun x => back x.1 x.2).map Prod.fst
  let left := c.transit.filter fun t => !taken.contains t
  let hold := c.hold.mapIdx fun i e =>
    if es.contains e && !left.any (fun t => t.first ≤ i && i < t.first + t.count) then .ctl else e
  let hold := taken.foldl (fun h t => takeRange h t .ctl) hold
  let s := s.mapCore fun c => { c with hold := hold, transit := left }
  s.mapTask fun t => { t with flags := t.flags.map fun f => if f.hold && es.contains f.cons then { f with value := 0 } else f }

/-- The effect of `JOIN` after its wait. -/
def State.join (s : State) : State := (s.joinEnd.passHoldings s.forkedEngs).unfork

/-- JOIN (01 R24). -/
def execJoin : State → Out := runCtl (do
  joinWait
  modify State.join)

/-- A failed reach walk is raised by the first instruction that waits for it (12 R397). -/
def raiseWalkFail : Op Unit := do
  let s ← get
  match s.core.task.walkFail with
  | [] => pure ()
  | (c, va) :: rest => do
    set (s.mapTask fun t => { t with walkFail := rest })
    trapKeep c va 1

/-- The unreported near-memory failures of a task: lowest VA, sum of counts (11 R380). -/
def Task.nmFails (t : Task) : Option (Nat × Nat) :=
  match t.failures.filter fun f => f.kind = .nm with
  | [] => none
  | f :: fs => some (fs.foldl (fun m g => min m g.va) f.va, fs.foldl (fun n g => n + g.count) f.count)

/-- `NM_UNCORRECTABLE` for the failures that no `NMFENCE` has reported (11 R380). -/
def raiseNmFail : Op Unit := do
  let s ← get
  match s.core.task.nmFails with
  | none => pure ()
  | some (va, n) => do
    set (s.mapTask fun t => { t with failures := t.failures.filter fun f => f.kind ≠ .nm })
    trapKeep .nmUncorrectable va (min n (2 ^ 32 - 1))

/-- The wait for the walks of the task, and the fault of a failed one (12 R397). -/
def walksWait : Op Unit := do
  let s ← get
  if s.core.walks ≠ [] then stall
  raiseWalkFail

/-- Sets the draw counters of the task's streams to zero (03 R126). -/
def State.zeroDraws (s : State) : State :=
  let z (r : Strm32) : Strm32 := { r with draw := 0 }
  ((s.mapStrm .vec z).mapStrm .mtx z).mapStrm .cpy z

/-- The task key of the resident task (03 R126). -/
def State.taskKeyOf (s : State) : Word := taskKey (lrSeed s.lrec) (s.rankOf s.lrec)

/-- The effect of `TXCLOSE` (13 R432). -/
def State.txClose (s : State) : State :=
  (s.mapTask fun t => { t with rkey := s.taskKeyOf, tx := { t.tx with st := 0 } }).zeroDraws

/-- One more release of a scope observed (02 R71). -/
def Counts.bump (c : Counts) (sc : Nat) : Counts :=
  { core := c.core + 1, quad := c.quad + b2n (2 ≤ sc), die := c.die + b2n (3 ≤ sc), pkg := c.pkg + b2n (4 ≤ sc),
    pod := c.pod + b2n (5 ≤ sc), all := c.all + 1 }

/-- The cores of the core's job in the unit of a level that contains it (01 R11). -/
def State.unitCores (s : State) (sc : Nat) : List Core :=
  (s.coresOf (s.core.job.getD 0)).filter fun c => sc ≥ 4 || unitOf sc c.num = unitOf sc s.core.num

/-- A core of the quad node at which the core arrives has a release of the node to observe: `PENDING` is not 0 (01 R32). -/
def State.pendingRel (s : State) : Bool :=
  (s.unitCores 2).any fun c => match c.bar.rel with | some k => 2 ≤ k | none => false

/-- A core observes its release: `REL` clears, and when no other of its node stands every `EARLY` moves to `ARR`
(01 R32). -/
def State.observe (s : State) : State :=
  if s.core.bar.rel.isNone then s
  else
    let s := s.mapCore fun c => { c with bar := { c.bar with rel := none } }
    if s.pendingRel then s
    else (s.unitCores 2).foldl (fun s c => s.mapCoreAt c.num fun c =>
      match c.bar.early with
      | some _ => { c with bar := { c.bar with early := none, arr := some s.chron.toNat } }
      | none => c) s

/-- The `SSYNC` of the resident task retires (01 R26 step 4, 02 R71, 04 R148). -/
def State.retire (s : State) : State :=
  match s.core.task.sync with
  | none => s
  | some y =>
    let s := s.mapTask fun t => { t with
      sync := none, counts := t.counts.bump y.sc, redLines := []
      ctl := (t.ctl.setX y.rd t.stampbase).skip 4 }
    (s.mapJob fun j => { j with steps := max j.steps s.core.task.counts.all }).observe

/-- The next task of the core above the resident one that has not ended. -/
def State.nextTask (s : State) : Option Task :=
  s.core.live.find? fun t => s.core.task.idx < t.idx || s.core.task.idx = 2 ^ 32

/-- Starts a task, or restores it with its `SSYNC` retiring (01 R26). -/
def State.runTask (s : State) (t : Task) : State :=
  if t.st = .fresh then s.startTask t
  else match s.restoreTask t with
    | .ok u => u.retire
    | .error (s, e) => s.slotFail e

/-- A `RANGE` in the `SSYNC` of a task of the core, which is restored for it (01 R29). -/
def State.syncRange (s : State) (t : Task) : State :=
  let s := s.mapCore fun c => { c with bar := { c.bar with arr := none, early := none } }
  let go (s : State) : State := (s.mapTask fun t => { t with sync := none }).stopCore .ctl
    { cause := .range, finfo := 0, finfox := 0, faddr := 0 }
  if s.core.task.idx = t.idx then go s
  else match s.restoreTask t with
    | .ok u => go u
    | .error (s, e) => s.slotFail e

/-- The tasks of a core that have arrived, in ascending index (01 R29). -/
def Core.arrived (c : Core) : List Task := c.live.filter fun t => t.sync.isSome

/-- The core arrives at its barrier network when its last task of the superstep has arrived or ended (01 R26, R29, R32). -/
def State.arrive (s : State) : State :=
  match s.core.arrived.getLast? with
  | none => s
  | some t =>
    let sc := (t.sync.map Sync.sc).getD 0
    let same := s.core.arrived.all fun u => u.sync.map Sync.sc = t.sync.map Sync.sc && u.sync.map Sync.x = t.sync.map Sync.x
    if !same then s.syncRange t
    else
      let now := s.chron.toNat
      if 2 ≤ sc && s.pendingRel then s.mapCore fun c => { c with bar := { c.bar with early := some now } }
      else s.mapCore fun c => { c with bar := { c.bar with arr := some now } }

/-- The lowest VA and the number of the lines of conflicts (02 R75). -/
def confSum (l : List (Nat × Nat)) : Option (Nat × Nat) :=
  match l with
  | [] => none
  | (_, v) :: xs => some (xs.length + 1, xs.foldl (fun m x => min m x.2) v)

/-- No task of a job in the package is left: it ends, with a conflict that no release reported as `STATE` 2
(01 R19, 02 R75). -/
def State.finishJob (s : State) (id : Nat) : State :=
  if (s.coresOf id).all fun c => c.live = [] then
    match confSum (s.lastConflicts id) with
    | some (_, va) => s.endJob id 2 Cause.superstepConflict.code 0 0 va
    | none => s.endJob id 1 0 0 0 0
  else s

/-- The core goes on when its resident task is saved or has ended: the next task, an arrival, or the end of the job
(01 R23, R26); with no task left it counts as arrived (01 R29). -/
def State.goOn (s : State) : State :=
  match s.nextTask with
  | some t => s.runTask t
  | none =>
    if s.core.live = [] then
      let s := s.mapCore fun c => { c with bar := { c.bar with arr := some s.chron.toNat } }
      match s.core.job with | some id => s.finishJob id | none => s
    else s.arrive

/-- The end of the resident task (01 R24, 02 R90, 04 R158): a failure that no fence has reported ends the job. -/
def State.endTask (s : State) : State :=
  let id := s.core.job.getD 0
  match s.core.task.failures.find? fun f => f.kind ≠ .nm with
  | some f =>
    s.endJob id 2 (if f.kind = .lost then Cause.linkDead.code else Cause.accessRefused.code) 0 0 f.va
  | none =>
    let s := (s.passHoldings s.forkedEngs).unfork
    let s := s.mapTask fun t => { t with st := .ended, pins := [], ctl := { t.ctl with run := .ended } }
    (s.mapJob fun j => { j with ended := j.ended ++ [s.core.task.idx] }).noteVotes.goOn

/-- REND of the control stream (01 R24, 13 R432). -/
def execRend : State → Out := runOp .ctl (do
  let s ← get
  trapIf (s.core.task.tx.st = 1 || s.core.task.tx.st = 2) .txState
  joinWait
  if !s.core.task.children.all (fun c => c.done) then stallBlocked
  walksWait
  raiseNmFail
  modify fun s => (if s.core.task.tx.st = 3 then s.joinEnd.txClose else s.joinEnd).endTask)

/-- SSYNC (01 R26 to R29): the arrival of a task, and a switch to the next one or the arrival of the core. -/
def execSsync (d a : BitVec 6) (sc : BitVec 3) : State → Out := runOp .ctl (do
  needX [d, a]
  let s ← get
  let x := s.ctl.getX a
  trapIf (sc = 0) .range
  scopeOk sc
  trapIf (2 ^ 20 ≤ x.toNat) .range
  joinWait
  walksWait
  raiseNmFail
  modify fun s =>
    let y : Sync := { sc := sc.toNat, x := x.toNat, rd := d }
    let s := s.joinEnd.mapCore fun c =>
      let held := c.transit.foldl (fun h t => takeRange h t .ctl) c.hold
      { c with hold := held, transit := [],
               task := { c.task with
                 sync := some y
                 flags := c.task.flags.map fun f => if f.hold then { f with value := 0 } else f } }
    match s.nextTask with
    | none => s.arrive
    | some t =>
      match s.saveTask with
      | .ok u => u.runTask t
      | .error (s, e) => s.slotFail e)

/-- FLAGCFG (02 R65, 04 R153). -/
def execFlagcfg (f : BitVec 6) (k : BitVec 1) (c r : BitVec 2) : State → Out := runCtl (do
  ctlQuiet
  let s ← get
  let kinds : BitVec 5 := BitVec.ofNat 5 (lrKmask s.lrec)
  trapIf (s.anyForked || (s.core.task.flagAt f).value ≠ 0 || s.core.given f ≠ [] || (k = 1 && r = c) ||
    !bit kinds c.toNat || (k = 1 && !bit kinds r.toNat)) .range
  modify fun s => s.mapFlag f fun x => { x with cons := engOf c, hold := k = 1, carr := engOf r })

/-- The word of `FSTAT` (04 R154). -/
def fstatWord (c : Core) (f : BitVec 6) : Word :=
  let g := c.task.flagAt f
  BitVec.ofNat 64 (g.cons.code + 4 * b2n g.hold + (if g.hold then 8 * g.carr.code else 0) +
    32 * b2n (g.hold && g.carr = .ctl && c.pendingRange f))

/-- FSTAT (04 R154). -/
def execFstat (d f : BitVec 6) (s : State) : Out := aluOp d [] (fun _ => fstatWord s.core f) s

/-- ADDF (02 R66). -/
def execAddf (f a : BitVec 6) : State → Out := runCtl (do let n ← rdX a; addf .ctl f n)

/-- ADDF_IMM (02 R66). -/
def execAddfImm (f : BitVec 6) (i : BitVec 18) : State → Out := runCtl (addf .ctl f (i.setWidth 64))

/-- GIVE (02 R66). -/
def execGive (f a b : BitVec 6) : State → Out := runCtl (do let x ← rdX a; let y ← rdX b; givePad .ctl f x y)

/-- GIVE_ACC (02 R66, 04 R152). -/
def execGiveAcc (f : BitVec 6) (c n : BitVec 4) : State → Out := runCtl (giveAccs .ctl f c.toNat (n.toNat + 1))

/-- WAITF (02 R66). -/
def execWaitf (f a : BitVec 6) : State → Out := runCtl (do let n ← rdX a; waitf .ctl f n)

/-- WAITF_IMM (02 R66). -/
def execWaitfImm (f : BitVec 6) (i : BitVec 18) : State → Out := runCtl (waitf .ctl f (i.setWidth 64))

end Sys2Proof.Machine
end

