-- ==== Sys2Proof/Machine/Reach.lean ====
section
/-! DEFINITION. Marker fences, write tokens, objects, references, publication and the reach walker (02 R79, R80, R88, R90,
12 R386 to R405). -/

namespace Sys2Proof.Machine

/-- The widest destination level that a fence scope covers (02 R88): nothing, die, package, pod, host. -/
def fenceLevel (sc : Nat) : Nat := if sc ≤ 1 then 0 else if sc ≤ 3 then 3 else sc

/-- The failures of a task that a fence of a scope over engines covers, behind place `n` (02 R90, 11 R383). -/
def Task.covered (t : Task) (sc : Nat) (es : List Eng) (n : Nat) (nm : Bool) : List Failure :=
  t.failures.filter fun f => f.seq < n && es.contains f.eng &&
    (if f.kind = .nm then nm else decide (f.level ≤ fenceLevel sc))

/-- The earliest failure: lowest engine, then program order (02 R90). -/
def firstFailure (l : List Failure) : Option Failure :=
  l.foldl (fun b f => match b with
    | none => some f
    | some g => if f.eng.code < g.eng.code || (f.eng.code = g.eng.code && f.seq < g.seq) then some f else some g) none

/-- The status word of a fence (02 R90, 11 R383). -/
def fenceWord (l : List Failure) : Word :=
  match firstFailure l with
  | none => 0
  | some f =>
    BitVec.ofNat 64 (b2n (l.any fun g => g.kind = .lost) + 2 * b2n (l.any fun g => g.kind = .refused) +
      4 * b2n (l.any fun g => g.kind = .nm) + 16 * f.eng.code +
      64 * min 1023 (l.foldl (fun n g => n + g.count) 0) + 65536 * (f.va % 2 ^ 48))

/-- A fence of a scope over engines (02 R88, R90): it waits behind its marker, and writes the status word. -/
def fence (d : BitVec 6) (sc : Nat) (es : List Eng) (nm array : Bool) : Op Unit := do
  needX [d]
  let s ← get
  let n := s.core.marker.getD s.core.task.seq
  let wait := es.any (fun e => (e = .ctl || s.forked e.strm) && s.outstanding e n) || (array && s.carafe.stks.toList.any fun k => k.wqueue ≠ [])
  if wait then throw (.stall (.marker n))
  let fs := s.core.task.covered sc es n nm
  modify fun s =>
    let s := s.mapCore fun c => { c with marker := none }
    let s := s.mapTask fun t => { t with failures := t.failures.filter fun f => !fs.contains f }
    s.mapCtl fun c => c.setX d (fenceWord fs)

/-- MFENCE (02 R88, R90). -/
def execMfence (d : BitVec 6) (sc e : BitVec 3) : State → Out := runCtl (do
  scopeOk sc
  fence d sc.toNat (.ctl :: [Eng.vec, .mtx, .cpy].filter fun k => bit e (k.code - 1)) false false)

/-- NMFENCE (11 R383). -/
def execNmfence (d : BitVec 6) (sc : BitVec 3) : State → Out := runCtl (do
  scopeOk sc
  fence d sc.toNat [.ctl] true false)

/-- NMFENCE_ARRAY (11 R383): only at `.sys`. -/
def execNmfenceArray (d : BitVec 6) (sc : BitVec 3) : State → Out := runCtl (do
  trapIf (sc ≠ 6) .range
  scopeOk sc
  fence d sc.toNat [.ctl] true true)

/-- The object of the job whose header is at a VA, as the resident task sees it (12 R389, R390). -/
def State.headerAt (s : State) (va : Nat) : Option Obj :=
  match s.objAt va with
  | some o => if o.va = va then some o else none
  | none => none

/-- Updates the object with a header. -/
def State.mapObj (s : State) (va : Nat) (f : Obj → Obj) : State :=
  { s with objs := s.objs.map fun o => if some o.job = s.core.job && o.va = va then f o else o }

/-- A valid reference of the resident task (12 R390). -/
def validRef (v : Nat) : Op Obj := do
  let s ← get
  if v % 128 ≠ 0 || !s.inHeap v then trapWith .range v 0
  match s.headerAt v with
  | none => trapWith .range v 0
  | some o => if s.mayLoad o then return o else trapWith .scopeVisibility v 0

/-- TOKPASS (02 R80, 04 R156, R166): the operands, the translation and class of the header, then the object itself. -/
def execTokpass (a b : BitVec 6) (sc : BitVec 3) : State → Out := runCtl (do
  needX [a, b]
  scopeOk sc
  trapIf (sc.toNat < 2) .range
  let s ← get
  let va := (s.ctl.getX a).toNat
  let t := (s.ctl.getX b).toNat
  trapIf (lrTasks s.lrec ≤ t) .range
  trapIf (sc.toNat < commonLevel s.core.num ((s.job.map fun j => j.place t).getD 0)) .range
  let p ← place .ctl .load 6 (s.ctl.getX a) 16
  let s ← get
  match p, s.headerAt va with
  | .mem _ _, some o => do
    if o.cls ≠ 2 || o.token ≠ s.core.task.idx || o.retract then trapWith .accessRefused va 0
    modify fun s => s.mapObj va fun o => { o with pass := some (t, sc.toNat, s.core.task.counts.all) }
  | _, _ => trapWith .accessRefused va 0)

/-- The header of an object (12 R386). -/
def Obj.header (o : Obj) : List Byte :=
  natLe 8 (o.size + o.cls.toNat * 2 ^ 32 + o.pcls.toNat * 2 ^ 34 + o.scope * 2 ^ 36 + b2n o.pend * 2 ^ 39 +
    o.owner.toNat * 2 ^ 48) ++ natLe 8 (o.otask % 2 ^ 32 + o.epoch.toNat * 2 ^ 32)

/-- The device records an object of a job in its class map (12 R387): what the entries of its lines hold is the device's own (log 32).
A map that is not there is left. -/
def State.putMap (s : State) (j : Job) (o : Obj) : State :=
  let n := o.size / 128
  let d := (List.range n).flatMap fun i => wordLe 8 (Config.freeWord (s.free + i))
  match s.jobWrite j .store (j.clsmap.toNat + (o.va - lrHeapBase j.lrec) / 128 * 8) d with
  | .ok t => { t with free := t.free + n }
  | .error (t, _) => t

/-- The device writes the header of an object of a job and its class map (12 R386, R387); no access under R73, and none of those that
a version region accepts (13 R410). -/
def State.putHeader (s : State) (j : Job) (o : Obj) : State :=
  State.putMap (s.physWrite (gaOf s.pkg (o.va + lrHeapOff j.lrec)) o.header
    { src := o.owner.toNat, key := j.key, asid := some j.asid, step := false } false [] []).1 j o

/-- PUBLISH (12 R392). -/
def execPublish (a : BitVec 6) (sc : BitVec 3) : State → Out := runCtl (do
  needX [a]
  trapIf (sc = 0 || sc = 5 || sc = 6) .range
  scopeOk sc
  let s ← get
  trapIf s.anyForkedA .range
  let v := (s.ctl.getX a).toNat
  let o ← validRef v
  if o.otask ≠ s.core.task.idx || o.cls ≠ 0 || o.pend then trapWith .range v 0
  if 4 ≤ s.core.walks.length then stall
  if s.outstanding .ctl s.core.task.seq then stall
  modify fun s => s.mapCore fun c => { c with walks := c.walks ++ [{ root := v, sc := sc.toNat }] })

/-- What a scan of one object leads to: objects to add, or a failure (12 R393). -/
def scanWords (s : State) (sc : Nat) (set : List Nat) : List (Nat × Nat) → List Nat → Except (Cause × Nat) (List Nat)
  | [], new => .ok new
  | (u, v) :: ws, new =>
    match s.headerAt v with
    | none => .error (.escape, u)
    | some p =>
      if p.cls = 0 && p.otask ≠ s.core.task.idx then .error (.escape, u)
      else if p.cls = 0 && !p.pend then
        if set.contains v || new.contains v then scanWords s sc set ws new
        else if 2 ^ 20 < set.length + new.length + 1 then .error (.range, u)
        else scanWords s sc set ws (new ++ [v])
      else if p.scope < sc then .error (.range, u)
      else scanWords s sc set ws new

/-- The tagged words of an object with their values, read as control-stream loads (12 R393). -/
def taggedWords (o : Obj) : Op (List (Nat × Nat)) := do
  let p ← place .ctl .load 6 (BitVec.ofNat 64 o.va) o.size
  match p with
  | .mem segs _ => do
    record .ctl .rd segs
    let (d, bad, tags) ← readSegs .ctl 0 segs
    match bad with
    | (_, va) :: _ => trapKeep .memUncorrectable va 0
    | [] =>
      let base := (segs.headD { va := 0, pa := 0, len := 0 }).pa
      return (List.range (o.size / 8)).filterMap fun k =>
        if tags.contains (base + 8 * k) then some (o.va + 8 * k, leNat ((d.drop (8 * k)).take 8)) else none
  | _ => trapWith .range o.va 0

/-- walk (12 R393): the set that a root leads to, scanned with fuel. -/
def reachSet (sc : Nat) : Nat → List Nat → List Nat → Op (List Nat)
  | 0, _, set => return set
  | _, [], set => return set
  | k + 1, va :: todo, set => do
    let s ← get
    match s.headerAt va with
    | none => reachSet sc k todo set
    | some o => do
      let ws ← taggedWords o
      let s ← get
      match scanWords s sc set ws [] with
      | .error (c, u) => trapKeep c u 1
      | .ok new => reachSet sc k (todo ++ new) (set ++ new)

/-- Marks the set of a walk (12 R393, R403); the token of a shared object stands with its owner, which has it published (12 R394,
R395). -/
def State.markSet (s : State) (sc : Nat) (set : List Nat) : State :=
  match s.job with
  | none => s
  | some j =>
    let s := set.foldl (fun s va =>
      let s := s.mapObj va fun o => { o with
        pend := true, scope := sc, epoch := BitVec.ofNat 32 s.core.task.counts.all, token := o.otask, pass := none }
      match s.headerAt va with
      | some o => s.putHeader j o
      | none => s) s
    s.mapTask fun t => { t with marked := t.marked + set.length }

/-- REACH_WALK_COMPLETE (12 R393, R397): the oldest walk of the core ends, with its set marked or its failure kept for the
first instruction that waits. -/
def execReachWalkComplete (s : State) : Out :=
  match s.core.walks with
  | [] => .next s
  | w :: rest =>
    let done (s : State) : State := s.mapCore fun c => { c with walks := rest }
    let failed (s : State) (t : Trap) : State :=
      (done s).mapTask fun k => { k with walkFail := k.walkFail ++ [(t.cause, t.faddr.toNat)] }
    match (reachSet w.sc (2 ^ 20 + 1) [w.root] [w.root]).run s with
    | .ok (set, t) => .next (done (t.markSet w.sc set))
    | .error (.stall n) => .next (s.leave .ctl n)
    | .error (.trap t) => .next (failed s t)
    | .error (.trapIn u t) => .next (failed u t)
    | .error (.fault f) => .fault f

/-- PUBWAIT (12 R403). -/
def execPubwait (d : BitVec 6) : State → Out := runCtl (do
  needX [d]
  walksWait
  modify fun s =>
    (s.mapCtl fun c => c.setX d (BitVec.ofNat 64 s.core.task.marked)).mapTask fun t => { t with marked := 0 })

/-- Effective address of the reference instructions (12 R402). -/
def eaRef (c : Ctl) (a : BitVec 6) (o : BitVec 13) : Word := c.getX a + sext o * 8

/-- Where a reference instruction acts: aligned, virtual, checked as a store (12 R402). -/
def refPlace (ea : Word) : Op (List Seg × List (Nat × Nat)) := do
  needAlign ea 8
  trapIf (bits ea 63 56 ≠ 0) .range
  let p ← place .ctl .store 6 ea 8
  match p with
  | .mem segs r => return (segs, r)
  | _ => trap .range

/-- The checks of a value to be tagged at an address (12 R390, R391). -/
def refCheck (ea v : Nat) : Op Unit := do
  if v ≠ 0 then
    let o ← validRef v
    let s ← get
    let shared := match s.objAt ea with | some t => s.classOf t = 2 | none => false
    if s.inHeap ea && shared && s.classOf o = 0 then trapWith .escape ea 0

/-- A reference instruction writes its word and tag (12 R402). -/
def refWrite (segs : List Seg) (refused : List (Nat × Nat)) (v : List Byte) (tag : Bool) : Op Unit := do
  record .ctl .wr segs
  writeSegs .ctl segs refused false (if tag then segs.map Seg.pa else []) [] v

/-- STREF (12 R402). -/
def execStref (v a : BitVec 6) (o : BitVec 13) : State → Out := runCtl (do
  needX [v, a]
  let s ← get
  let ea := eaRef s.ctl a o
  let (segs, r) ← refPlace ea
  if s.core.nmOverlap (.mem segs r) then stall
  let x := s.ctl.getX v
  refCheck ea.toNat x.toNat
  refWrite segs r (wordLe 8 x) (x ≠ 0))

/-- REFTAG (12 R402): the word keeps its value. -/
def execReftag (a : BitVec 6) (o : BitVec 13) : State → Out := runCtl (do
  needX [a]
  let s ← get
  let ea := eaRef s.ctl a o
  let (segs, r) ← refPlace ea
  if s.core.nmOverlap (.mem segs r) then stall
  let d ← readPlace .ctl 8 (.mem segs r)
  refCheck ea.toNat (leNat d)
  refWrite segs r d (leNat d ≠ 0))

/-- The bytes of a piece as a write that only clears a tag finds them. -/
def wordKept (g : Seg) : Op (List Byte) := do
  let s ← get
  let (t, x) := s.physRead g.pa g.len (s.agent .ctl) 6
  if x.refused then return List.replicate g.len 0
  set t
  return x.data

/-- REFCLR (12 R402): the word keeps its value. It is no read: what its home refuses, a fence reports (02 R81). -/
def execRefclr (a : BitVec 6) (o : BitVec 13) : State → Out := runCtl (do
  needX [a]
  let s ← get
  let (segs, r) ← refPlace (eaRef s.ctl a o)
  if s.core.nmOverlap (.mem segs r) then stall
  let d ← segs.flatMapM fun g => wordKept g
  refWrite segs r d false)

/-- A line of a new object may become part of it (12 R401). -/
def State.lineFree (s : State) (va n line : Nat) : Bool :=
  match s.objAt line with
  | none => true
  | some o => o.otask = s.core.task.idx && o.cls = 0 && !o.pend && va ≤ o.va && o.va + o.size ≤ va + n

/-- OBJINIT (12 R401). -/
def execObjinit (a b : BitVec 6) (pc : BitVec 2) : State → Out := runCtl (do
  needX [a, b]
  let s ← get
  let va := (s.ctl.getX a).toNat
  let n := (s.ctl.getX b).toNat
  if va % 128 ≠ 0 || n % 128 ≠ 0 then trapWith .align va 0
  if n = 0 || 2 ^ 28 < n || !s.inHeap va || lrHeapLim s.lrec < va + n || s.core.task.windowTouches va n || s.guarded va n then
    trapWith .range va 0
  walksWait
  let s ← get
  if !(List.range (n / 128)).all (fun k => s.lineFree va n (va + 128 * k)) then trapWith .range va 0
  let ga := gaOf s.pkg (va + lrHeapOff s.lrec)
  record .ctl .wr [{ va := va, pa := ga, len := n }]
  let o : Obj :=
    { job := s.core.job.getD 0, va := va, size := n, owner := BitVec.ofNat 16 (4 * s.core.num), otask := s.core.task.idx,
      cls := 0, pcls := pc, scope := 0, pend := false, epoch := BitVec.ofNat 32 s.core.task.counts.all, token := s.core.task.idx,
      made := s.core.task.counts, pass := none, retract := false }
  writeSegs .ctl [{ va := va, pa := ga, len := 16 }] [] false [] [] o.header
  modify fun s =>
    let s := { s with objs := o :: s.objs.filter fun p => !(p.job = o.job && p.otask = o.otask && va ≤ p.va && p.va < va + n) }
    match s.job with
    | some j => s.putMap j o
    | none => s)

/-- RETRACT (12 R399). -/
def execRetract (a : BitVec 6) : State → Out := runCtl (do
  needX [a]
  let s ← get
  let va := (s.ctl.getX a).toNat
  let o ← validRef va
  if o.otask ≠ s.core.task.idx || o.cls = 0 || o.pend || o.retract then trapWith .range va 0
  if o.cls = 2 && (o.token ≠ s.core.task.idx || o.pass.any fun p => p.2.2 = s.core.task.counts.all) then trapWith .accessRefused va 0
  modify fun s => s.mapObj va fun o => { o with retract := true })

/-- What a release of a scope makes of an object of the job: `mem` tells the tasks that observe it (02 R80, 12 R395, R399). -/
def Obj.atRelease (o : Obj) (sc : Nat) (mem : Nat → Bool) (ep : Nat) : Obj :=
  let mine := mem o.otask
  let pass := match o.pass with
    | some (t, w, _) => if w ≤ sc && mem o.token then { o with token := t, pass := none } else o
    | none => o
  if mine && pass.pend && pass.scope ≤ sc then
    { pass with cls := pass.pcls, pend := false, epoch := BitVec.ofNat 32 ep, token := pass.otask }
  else if mine && pass.retract && pass.scope ≤ sc then
    { pass with cls := 0, scope := 0, retract := false, pass := none, token := pass.otask, epoch := BitVec.ofNat 32 ep }
  else pass

end Sys2Proof.Machine
end

