-- ==== Sys2Proof/Machine/Barrier.lean ====
section
/-! DEFINITION. Barrier nodes, their release, and the end of the exchange phase with a boundary pre-emption (01 R26 to R32,
R50, R52, 12 R395, 14 R443). -/

namespace Sys2Proof.Machine

/-- Release latency of a scope (01 R11, R26, R27). -/
def latency (sc : Nat) : Nat := match sc with | 1 => 2 | 2 => 6 | 3 => 20 | _ => 48

/-- What an arrival carries (01 R29): superstep index, scope, X. -/
structure Arrival where
  idx : Nat
  sc  : Nat
  x   : Nat
  deriving DecidableEq, Repr

/-- The arrival of a core (01 R29). -/
def Core.arrival (c : Core) : Option Arrival :=
  match c.bar.arr, c.arrived.getLast? with
  | some _, some t => t.sync.map fun y => { idx := t.counts.all, sc := y.sc, x := y.x }
  | _, _ => none

/-- Cores of a job in the unit of a level. -/
def State.unitMembers (s : State) (id lv core : Nat) : List Core :=
  (s.coresOf id).filter fun c => unitOf lv c.num = unitOf lv core

/-- What a barrier node finds (01 R29): it waits, its arrivals differ, it releases them, or sends them to a wider node. -/
inductive Verdict where
  | wait | mismatch
  | release (a : Arrival)
  | up (a : Arrival)
  deriving DecidableEq, Repr

/-- A barrier node of a level (01 R29, R32): a core whose tasks have all ended agrees with the others. -/
def nodeVerdict (cs : List Core) (lv : Nat) : Verdict :=
  let live := cs.filter fun c => c.live ≠ []
  let as := live.filterMap Core.arrival
  if as.length < live.length || as.any (fun a => a.sc < lv) then .wait
  else match as with
  | [] => .wait
  | a :: rest => if rest.any (fun b => b ≠ a) then .mismatch else if a.sc = lv then .release a else .up a

/-- Every node below a level through which a core's arrival passes has forwarded it: none waits, and none finds a difference (01
R29). -/
def State.forwarded (s : State) (id lv core : Nat) : Bool :=
  ([1, 2, 3].filter fun l => l < lv).all fun l => match nodeVerdict (s.unitMembers id l core) l with
    | .up _ => true
    | _ => false

/-- What the node of a level above a core finds of the arrivals that the nodes below it forward. -/
def State.nodeAt (s : State) (id core lv : Nat) : Verdict :=
  let cs := s.unitMembers id lv core
  if cs.all fun c => c.live = [] || s.forwarded id lv c.num then nodeVerdict cs lv else .wait

/-- The verdict that a core's arrival meets, with the level of the node; the node of `.core` is the core itself
(01 R26, R29). -/
def State.verdictFrom (s : State) (id core : Nat) : Nat → Nat → Nat × Verdict
  | 0, lv => (lv, s.nodeAt id core lv)
  | k + 1, lv => match s.nodeAt id core lv with
    | .up _ => s.verdictFrom id core k (lv + 1)
    | v => (lv, v)

/-- The verdict for a core of a job. -/
def State.verdict (s : State) (id core : Nat) : Nat × Verdict := s.verdictFrom id core 3 1

/-- The cycle at which the last arrival entered a node (01 R27). -/
def lastArrival (cs : List Core) : Nat := cs.foldl (fun m c => max m (c.bar.arr.getD 0)) 0

/-- The job's pod group is this package alone, or its scope lies in a package. -/
def State.alone (s : State) (j : Job) : Bool := s.packagesOf j = 1

/-- The host slot of a job in this package. -/
def State.slotOf (s : State) (id : Nat) : Option (Nat × SysSlot) :=
  match (List.range 16).find? fun n => (s.host.slots.toList.getD n SysSlot.reset).job = some id with
  | some n => some (n, s.host.slots.toList.getD n SysSlot.reset)
  | none => none

/-- What the host's arrival makes of a `.sys` barrier (14 R443): it is a participant of the root node. -/
def State.hostVerdict (s : State) (id : Nat) (a : Arrival) : Verdict :=
  match s.slotOf id with
  | none => .release a
  | some (_, x) =>
    if x.arr.isNone then .wait
    else if x.gen.toNat = a.idx && x.x.toNat = a.x then .release a else .mismatch

/-- Conflicts of this package and of the others together (02 R75). -/
def joinConf (c : Option (Nat × Nat)) (r : RemoteArrivals) : Option (Nat × Nat) :=
  if r.conflicts = 0 then c
  else match c with
  | none => some (r.conflicts.toNat, r.lowestVa.toNat)
  | some (n, v) => some (n + r.conflicts.toNat, min v r.lowestVa.toNat)

/-- An object replaced by what a release makes of it; a header that changes is written (12 R386). -/
def State.replaceObj (s : State) (j : Job) (o p : Obj) : State :=
  let t := { s with objs := s.objs.map fun q => if q = o then p else q }
  if p.header = o.header then t else t.putHeader j p

/-- What a release makes of one object of a job (02 R80, 12 R395, R399). -/
def State.releaseObj (s : State) (j : Job) (sc : Nat) (ts : List Task) (o : Obj) : State :=
  let mem := fun i => ts.any fun t => t.idx = i
  if o.job ≠ j.id then s
  else match ts.find? fun t => t.idx = o.otask with
    | some t => s.replaceObj j o (o.atRelease sc mem (t.counts.all + 1))
    | none => s.replaceObj j o (o.atRelease sc mem 0)

/-- What a release makes of the objects of a job. -/
def State.releaseObjs (s : State) (j : Job) (sc : Nat) (ts : List Task) : State :=
  s.objs.foldl (fun s o => s.releaseObj j sc ts o) s

/-- A core at its release at cycle `b` (01 R26, R32): `STAMPBASE` of every task, the exchange phase, the conflicts. -/
def Core.released (c : Core) (sc b x : Nat) (conf : Option (Nat × Nat)) : Core :=
  let base (t : Task) : Task := if t.st = .ended then t else { t with stampbase := BitVec.ofNat 64 b }
  { c with task := base c.task, others := c.others.map base,
           bar := { arr := none, early := c.bar.early, rel := some sc, till := some (b + x), conf := conf } }

/-- A record that a task's end leaves in a conflict which no release will report (02 R75). -/
def State.keepRec (s : State) (id : Nat) (q : AccRec) : Bool :=
  s.recs.any fun b => b.job = id && q.clash b && s.unreported q b && (s.gone q || s.gone b)

/-- The release of the cores of a node (01 R27, R30, R32). -/
def State.release (s : State) (id : Nat) (a : Arrival) (b : Nat) (cs : List Core) (r : RemoteArrivals) : State :=
  match s.jobAt id with
  | none => s
  | some j =>
    let conf := joinConf (confSum (s.conflicts id a.sc fun n => cs.any fun c => c.num = n)) r
    let live := cs.filter fun c => c.live ≠ []
    let s := s.releaseObjs j a.sc (live.flatMap Core.live)
    let s := live.foldl (fun s c => s.mapCoreAt c.num fun c => c.released a.sc b a.x conf) s
    let s := if 4 ≤ a.sc then { s with recs := s.recs.filter fun q => q.job ≠ id || s.keepRec id q } else s
    match s.slotOf id with
    | some (n, x) =>
      if a.sc = 6 then
        { s with host := { s.host with
            slots := s.host.slots.set! n { x with gen := x.gen + 1, arr := none }, msix := s.host.msix ++ [1 + n] } }
      else s
    | none => s

/-- Arrivals that differ: every participant of the node raises `RANGE` (01 R29). -/
def State.mismatch (s : State) (cs : List Core) : State :=
  (cs.filter fun c => c.live ≠ []).foldl (fun s c => s.onCore c.num fun s =>
    match s.core.arrived.getLast? with
    | some t => s.syncRange t
    | none => s) s

/-- What a barrier network does for the arrival of a core, with what other packages report: `none` while it waits
(01 R27, R29). A release of a wider scope reaches the hub in this cycle. -/
def State.network (s : State) (id core : Nat) (r : RemoteArrivals) : Option State :=
  match s.jobAt id with
  | none => none
  | some j =>
    let (lv, v) := s.verdict id core
    let cs := s.unitMembers id lv core
    match v with
    | .wait => none
    | .mismatch => some (s.mismatch cs)
    | .release a =>
      let b := lastArrival cs + latency a.sc
      if b ≤ s.chron.toNat then some (s.release id a b cs r) else none
    | .up a =>
      let h := max (lastArrival cs) (match s.slotOf id with | some (_, x) => if a.sc = 6 then x.arr.getD 0 else 0 | none => 0)
      let b := if s.alone j then h + 48 else s.chron.toNat + 48
      if !r.agree then some (s.mismatch cs)
      else match (if a.sc = 6 then s.hostVerdict id a else .release a) with
      | .release a => if s.alone j && s.chron.toNat < b then none else some (s.release id a b cs r)
      | .mismatch => some (s.mismatch cs)
      | _ => none

/-- The core of a job whose arrival, of a scope, a network can answer now. -/
def State.answered (s : State) (id sc : Nat) (r : RemoteArrivals) : Option State :=
  ((s.coresOf id).filter fun c => (c.arrival.map Arrival.sc) = some sc).findSome? fun c => s.network id c.num r

/-- BARRIER_RELEASE (01 R27 to R30, R32): a node that has all its arrivals releases its participants, or makes them raise
`RANGE`. -/
def execBarrierRelease (sc : BitVec 3) (job : BitVec 16) (r : RemoteArrivals) (s : State) : Out :=
  .next ((s.answered job.toNat sc.toNat r).getD s)

/-- No report from another package. -/
def noArrivals : RemoteArrivals := { agree := true, conflicts := 0, lowestVa := 0 }

/-- Arrivals that a network of this package can answer by itself: job and scope. -/
def State.barrierDue (s : State) : Option (Nat × Nat) :=
  s.jobs.findSome? fun j => if j.st ≠ .running then Option.none else
    ([1, 2, 3, 4, 5, 6].filter fun sc => sc ≤ 4 || s.alone j).findSome? fun sc =>
      (s.answered j.id sc noArrivals).map fun _ => (j.id, sc)

/-- The end of the exchange phase of a core is due. -/
def State.tillDue (s : State) (c : Core) : Bool :=
  match c.bar.till with
  | some t => t ≤ s.chron.toNat && c.stop.isNone
  | none => false

/-- A pre-emption of a job can be taken at the boundary: every core with a task left stands at the end of its exchange
phase (01 R50). -/
def State.atBoundary (s : State) (id : Nat) : Bool :=
  (s.coresOf id).all fun c => c.live = [] || (s.tillDue c && c.bar.conf.isNone)

/-- The cycles for which a job has held its cores in the package (01 R38). -/
def Job.held (j : Job) (now : Nat) : Nat := j.used + (now - j.since)

/-- Saving every task of the core at hand (01 R50). -/
def State.saveAll (s : State) : State :=
  let s := s.passHoldings s.forkedEngs
  let s := s.mapCore fun c => { c with bar := { c.bar with till := none } }
  if s.core.task.st = .resident then
    match s.saveTask with
    | .ok t => t
    | .error (s, e) => s.slotFail e
  else s

/-- A pre-emption taken at the boundary (01 R36, R50, R52, R54): every core saves its tasks, the job waits again, unless a save that
failed has ended it (R20). -/
def State.takeBoundary (s : State) (j : Job) : State :=
  let s := s.preemptVote j
  let s := ((s.coresOf j.id).filter fun c => c.live ≠ []).foldl (fun s c => s.onCore c.num State.saveAll) s
  if (s.jobAt j.id).map Job.st ≠ some .running then s
  else
    let cs := (s.coresOf j.id).map fun c => { Core.reset c.num with
      job := some j.id, others := c.live, task := { Task.reset with idx := 2 ^ 32, st := .ended } }
    let now := s.chron.toNat
    let s := s.mapJobAt j.id fun k => { k with
      st := .boundary, spill := cs, preq := none, preempts := k.preempts + 1, enq := now, used := k.held now, cores := [] }
    s.freeCores j.id

/-- The `SSYNC` of the lowest-indexed task retires at the end of the exchange phase, or raises `SUPERSTEP_CONFLICT` with B
written to its register (01 R26, R30); a release that reports a conflict is observed too (02 R75). -/
def State.endSync (s : State) (conf : Option (Nat × Nat)) : State :=
  match conf with
  | none => s.retire
  | some (n, va) =>
    let s := s.mapTask fun t => match t.sync with
      | some y => { t with ctl := t.ctl.setX y.rd t.stampbase, counts := t.counts.bump y.sc }
      | none => t
    let s := s.mapJob fun j => { j with steps := max j.steps s.core.task.counts.all }
    s.stopCore .ctl { cause := .superstepConflict, finfo := BitVec.ofNat 32 (min n (2 ^ 32 - 1)), finfox := 0, faddr := BitVec.ofNat 64 va }

/-- The end of the exchange phase of the core at hand (01 R26 step 4, 06 R230): holdings of streams that have ended pass to
control, and the lowest-indexed task goes on. -/
def State.endExchange (s : State) : State :=
  let conf := s.core.bar.conf
  let s := (s.passHoldings s.forkedEngs).unfork
  let s := s.mapCore fun c => { c with
    bar := { c.bar with till := none, conf := none }
    mtx := { c.mtx with stamped := [] }
    cpy := { c.cpy with stamped := [], ch := c.cpy.ch.map fun h => if h.tail then Chan.reset else h } }
  match s.core.live with
  | [] => s
  | t :: _ =>
    if s.core.task.idx = t.idx then s.endSync conf
    else
      let saved := if s.core.task.st = .resident then s.saveTask else .ok s
      match saved with
      | .error (s, e) => s.slotFail e
      | .ok s => match s.restoreTask t with
        | .error (s, e) => s.slotFail e
        | .ok s => s.endSync conf

/-- EXCHANGE_END (01 R26, R50): at B + X the core goes on, or its job is pre-empted at the boundary. -/
def execExchangeEnd (s : State) : Out :=
  if !s.tillDue s.core then .next s
  else match s.job with
  | none => .next s
  | some j =>
    if j.preq.isNone || s.core.bar.conf.isSome then .next s.endExchange
    else if s.atBoundary j.id then .next (s.takeBoundary j)
    else .next s

/-- EXCHANGE_END changes the state of this core. -/
def State.exchangeDue (s : State) (c : Core) : Bool :=
  s.tillDue c &&
    (match c.job.bind s.jobAt with
    | some j => j.preq.isNone || c.bar.conf.isSome || s.atBoundary j.id
    | none => false)

end Sys2Proof.Machine
end

