-- ==== Sys2Proof/Machine/Stops.lean ====
section
/-! DEFINITION. The fault frame and `RESUME` (01 R41 to R45, R48, R49). -/

namespace Sys2Proof.Machine

/-- VA of the oldest unissued bundle of an engine (01 R43, R42): for the vector engine the first word of its bundle. -/
def Core.nextb (c : Core) : Eng → Word
  | .ctl => c.task.ctl.pc
  | .vec => match c.vec.pfx with
    | some p => p.base
    | none => c.vec.s.pc
  | .mtx => c.mtx.s.pc
  | .cpy => c.cpy.s.pc

/-- `CHAN` of a copy channel (01 R43). -/
def Chan.word (c : Chan) : Nat := if c.active then c.record.toNat / 64 + c.prog % 2 ^ 22 * 2 ^ 42 else 0

/-- `HOLD` (01 R43, R44). -/
def holdBytes (h : Vector Eng 240) : List Byte :=
  natLe 60 (h.toList.foldr (fun e n => e.code + 4 * n) 0)

/-- An entry of `TRANSIT` (01 R43). -/
def transitWord (t : Option Transit) : Nat :=
  match t with
  | some t => t.first + t.count * 2 ^ 8 + t.flag.toNat * 2 ^ 16 + 2 ^ 22
  | none => 0

/-- `QPTR` (01 R43): of each queue the index of its head, for which the spec gives no start (`q`, log 6), and sixteen entries round
the tail behind its `n` commands. -/
def queuePtrs (n : Eng → Nat) (q : Word) : Nat :=
  [Eng.ctl, .vec, .mtx, .cpy].foldl (fun w e =>
    let h := bits q (4 * e.code + 3) (4 * e.code)
    w + (h + (h + n e) % 16 * 16) * 2 ^ (8 * e.code)) 0

/-- The fault frame of a core (01 R43) whose queues hold `n` commands; `q` stands for the heads of its queues. -/
def frameBytes (c : Core) (r : StopRec) (n : Eng → Nat) (q : Word) : List Byte :=
  natLe 8 (r.cause.code % 256 + r.eng.code * 2 ^ 8 + b2n r.pend * 2 ^ 10 + b2n r.multi * 2 ^ 11 + r.src.toNat * 2 ^ 16 +
    r.finfo.toNat * 2 ^ 32) ++ wordLe 8 r.faddr ++ wordLe 8 r.fchron ++
  natLe 8 (queuePtrs n q + r.wstart * 2 ^ 32 + r.finfox.toNat * 2 ^ 48) ++
  ([Eng.ctl, .vec, .mtx, .cpy].flatMap fun e => natLe 6 (c.nextb e).toNat) ++
  (c.cpy.ch.toList.flatMap fun x => natLe 8 x.word) ++
  (c.task.flags.toList.flatMap fun f => natLe 5 f.value.toNat) ++ holdBytes c.hold ++
  ((List.range 4).flatMap fun k => natLe 3 (transitWord c.transit[k]?))

/-- PA of the frame slot of a core (01 R49). -/
def State.frameAt (s : State) (n : Nat) : Nat := s.os.framebase.toNat * 4096 + 512 * n

/-- PA of the Astrolabe frame slot of a die (01 R49). -/
def State.aframeAt (s : State) (die : Nat) : Nat := s.os.aframebase.toNat * 4096 + 16384 * die

/-- The device's own accesses to the areas of the resident OS: no key, no address space. -/
def osAgent (src : Nat) : Agent := { src := src, key := 0, asid := none, step := false }

/-- A stopped core writes its frame and signals the hub (01 R41, R43). -/
def State.writeFrame (s : State) (r : StopRec) : State :=
  let b := frameBytes s.core r s.queued (Config.freeWord s.free)
  let t := (s.physWrite (gaOf s.pkg (s.frameAt s.core.num)) b (osAgent (4 * s.core.num)) false [] []).1
  { t with free := t.free + 1, signals := t.signals ++ [Signal.stopped s.core.num] }.mapCore fun c =>
    { c with stop := some { r with framed := true } }

/-- A channel of a core that restarts: from the sector it halted at (01 R48); one that waits for a stamped record which never issues
(01 R28) is past it. -/
def Chan.restart (l : List Xfer) (c : Chan) : Chan :=
  if !c.tail then { c with halted := false }
  else match l.find? fun x => x.own = some c.record.toNat && x.done = 0 with
  | some x => if x.moved then c else c.past x.desc
  | none => Chan.reset

/-- A core restarts: its bundle from the first word, its channels from the sector they halted at (01 R48); its stamped commands
that had not issued never do (01 R28). -/
def Core.restart (c : Core) : Core :=
  { c with
    stop := none, blocked := 0, ready := [], xlt := c.xlt.filter fun w => w.stage ≠ 0
    vec := { c.vec with pfx := none, s := { c.vec.s with pc := c.nextb .vec } }
    mtx := { c.mtx with stamped := c.mtx.stamped.map fun m => if m.res.isNone then { m with void := true } else m }
    cpy := { c.cpy with
      ch := c.cpy.ch.map (Chan.restart c.cpy.stamped)
      stamped := c.cpy.stamped.map fun x => if x.moved then x else { x with void := true } } }

/-- The `TRANSIT` entries of a frame. -/
def frameTransit (f : List Byte) : List Transit :=
  (List.range 4).filterMap fun k =>
    let w : BitVec 24 := BitVec.ofNat 24 (leNat ((f.drop (0x1F4 + 3 * k)).take 3))
    if bit w 22 then some { flag := w.extractLsb' 16 6, first := bits w 7 0, count := bits w 15 8 } else none

/-- A channel as its `CHAN` record gives it (01 R48). -/
def Chan.reload (c : Chan) (w : Nat) : Chan :=
  if c.active then { c with record := BitVec.ofNat 48 (w % 2 ^ 42 * 64), prog := w / 2 ^ 42 % 2 ^ 22 } else c

/-- A core as its frame makes it (01 R48). -/
def Core.reload (c : Core) (f : List Byte) : Core :=
  let n (off len : Nat) : Nat := leNat ((f.drop off).take len)
  let pc (k : Nat) : Word := BitVec.ofNat 64 (n (0x20 + 6 * k) 6)
  { c.restart with
    wstart := n 0x1C 1 % 32
    hold := c.hold.mapIdx fun i _ => engOf (BitVec.ofNat 2 (n (0x1B8 + i / 4) 1 / 4 ^ (i % 4)))
    transit := frameTransit f
    task := { c.task with
      flags := c.task.flags.mapIdx fun i g => { g with value := BitVec.ofNat 40 (n (0x78 + 5 * i) 5) }
      ctl := { c.task.ctl with pc := pc 0 } }
    vec := { c.restart.vec with s := { c.vec.s with pc := pc 1 } }
    mtx := { c.restart.mtx with s := { c.mtx.s with pc := pc 2 } }
    cpy := { c.restart.cpy with
      s := { c.cpy.s with pc := pc 3 }
      ch := c.restart.cpy.ch.mapIdx fun i x => x.reload (n (0x38 + 8 * i) 8) } }

/-- RESUME (01 R48, R49): a stopped core restarts from its frame. -/
def execResume (core : BitVec 8) (s : State) : Out :=
  let n := core.toNat
  match (s.coreAt n).stop with
  | none => .next s
  | some _ =>
    let (t, r) := s.physRead (gaOf s.pkg (s.frameAt n)) 512 (osAgent 0x600) 0
    .next (t.mapCoreAt n fun c => c.reload r.data)

end Sys2Proof.Machine
end

