-- ==== Sys2Proof/Machine/Hub.lean ====
section
/-! DEFINITION. The hub and the resident OS: admission, pre-emption, spilling and resumption, the time limit, the end of a job by
the OS, fencing, firmware contexts (01 R21, R36 to R38, R49 to R53, 04 R133, 14 R443, R454, R456). -/

namespace Sys2Proof.Machine

/-- A job with `SPAN` `.sys` in the package of its host agent (14 R443). -/
def State.wantsSlot (s : State) (j : Job) : Bool := lrSpan j.lrec = 6 && s.rankOf j.lrec = 0

/-- A free barrier slot. -/
def State.freeSlot (s : State) : Option Nat :=
  (List.range 16).find? fun n => (s.host.slots.toList.getD n SysSlot.reset).job.isNone

/-- The barrier slot that a job needs is there (14 R443). -/
def State.slotOk (s : State) (j : Job) : Bool :=
  !s.wantsSlot j || (s.slotOf j.id).isSome || s.freeSlot.isSome

/-- Binds a job to a free barrier slot at its admission (14 R443). -/
def State.bindSlot (s : State) (j : Job) : State :=
  if !s.wantsSlot j || (s.slotOf j.id).isSome then s
  else match s.freeSlot with
  | none => s
  | some n => { s with host := { s.host with
      slots := s.host.slots.set! n { SysSlot.reset with job := some j.id, compl := BitVec.ofNat 48 (lrCompl j.lrec) } } }

/-- The job that the hub has chosen: a part of a pod-spanning job stays chosen (01 R21, R36). -/
def State.chosenJob (s : State) : Option Job :=
  match (s.chosen.bind s.jobAt).filter fun j => j.st ≠ .running && j.st ≠ .closing with
  | some j => some j
  | none => s.choose

/-- The tasks of a job that a core takes up: fresh ones, or those that a boundary pre-emption saved (01 R21, R52). -/
def State.tasksFor (s : State) (j : Job) (n : Nat) : List Task :=
  match j.st with
  | .boundary => ((j.spill.flatMap Core.live).foldl (fun l t => putTask t l) []).filter fun t => j.place t.idx = n
  | _ => (j.tasksOn n).map (j.freshTask (s.rankOf j.lrec))

/-- The job generation of a job that is admitted: S of the regions of its address space (13 R411). -/
def State.genFor (s : State) (asid : BitVec 16) : BitVec 64 :=
  match s.regions.toList.find? fun r => r.rdy && r.asid = asid with
  | some r => ((r.st[0]?).getD VStack.reset).s.setWidth 64
  | none => 0

/-- A job that the hub had chosen is chosen no more; another one stays so (01 R21). -/
def State.unchoose (s : State) (id : Nat) : State := if s.chosen = some id then { s with chosen := none } else s

/-- Admission of a job to its cores (01 R21 to R23, R52). -/
def State.admitJob (s : State) (j : Job) (cores : List Nat) : State :=
  let j := { j with cores := cores }
  let now := s.chron.toNat
  let s := (s.bindSlot j).mapJobAt j.id fun k => { k with
    st := .running, cores := cores, admitted := some (k.admitted.getD now), since := now, preq := none,
    gen := if k.admitted.isNone && lrTxn k.lrec then s.genFor k.asid else k.gen
    fences := if k.admitted.isNone then s.fences else k.fences, spill := [] }
  let s := cores.foldl (fun s n => s.takeTasks j.id n (lrSpsize j.lrec) (s.tasksFor j n) fun s => s) (s.unchoose j.id)
  cores.foldl (fun s n => s.onCore n fun s => if s.core.live = [] then s else s.goOn) s

/-- An area of the resident OS written by the device. -/
def State.putArea (s : State) (pa n v : Nat) : State :=
  (s.physWrite (gaOf s.pkg pa) (natLe n v) (osAgent 0x600) false [] []).1

/-- An area of the resident OS as the device reads it. -/
def State.getArea (s : State) (pa n : Nat) : State × Nat :=
  let (s, r) := s.physRead (gaOf s.pkg pa) n (osAgent 0x600) 0
  (s, leNat r.data)

/-- A spilled job is back on its cores (01 R48, R51, R52): its context restored, its frames written back to their slots. Each core
and Astrolabe stream stays stopped until `RESUME` or `ARESUME` names it, which restarts it from its frame as the resident OS
has left it there. -/
def State.unspill (s : State) (j : Job) : State :=
  let now := s.chron.toNat
  let s := j.spill.foldl (fun s c => s.mapCoreAt c.num fun cur =>
    { c with tlb := cur.tlb, code := cur.code, repin := c.task.pins, ready := [], fw := cur.fw }) s
  let s := j.aspill.foldl (fun s a => (s.onCore (a.2.core.getD 0) State.leaveAstro).mapDie a.1 fun d => { d with astro := a.2 }) s
  let s := j.frames.foldl (fun s f => s.putArea f.1 f.2.1 f.2.2) s
  (s.unchoose j.id).mapJobAt j.id fun k => { k with st := .running, since := now, spill := [], aspill := [], frames := [] }

/-- The Astrolabe streams of a job's tasks. -/
def State.astrosOf (s : State) (id : Nat) : List (Nat × Astro) :=
  ((List.range 4).map fun d => (d, (s.dieAt d).astro)).filter fun x => match x.2.core with
    | some n => (s.coreAt n).job = some id
    | none => false

/-- The hub requests the pre-emption of a job (01 R50): a fault of the same cycle is recorded with `PEND` (01 R53). -/
def State.requestPreempt (s : State) (id : Nat) : State :=
  let now := s.chron
  let s := (s.coresOf id).foldl (fun s c => s.mapCoreAt c.num fun c => { c with
    stop := c.stop.map fun r => if r.fchron = now && !r.framed then { r with pend := true } else r }) s
  let s := (s.astrosOf id).foldl (fun s x => s.mapDie x.1 fun d => { d with astro := { d.astro with
    stop := d.astro.stop.map fun r => if r.fchron = now && !r.framed then { r with pend := true } else r } }) s
  s.mapJobAt id fun k => { k with preq := some now.toNat }

/-- What the hub does with the chosen job: refuse it, give it its cores (`here`: the parts in the other packages have theirs), or
pre-empt a job for it (01 R18, R21, R36, R37, R50); `none` while it waits. -/
def State.hubTurn (s : State) (here : Bool) : Option State :=
  match s.chosenJob with
  | none => none
  | some j =>
    if s.neverFits j then some ((s.unchoose j.id).endJob j.id 4 Cause.launch.code 0 11 0)
    else match (if s.slotOk j then s.coresFor j else none) with
    | some cores =>
      if s.alone j || here then some (if j.st = .spilled then s.unspill j else s.admitJob j cores)
      else if s.chosen = some j.id then none
      else some { s with chosen := some j.id }
    | none =>
      if s.jobs.any fun k => k.preq.isSome then none
      else match s.victim j with
      | some k => some ({ s with chosen := if s.alone j then s.chosen else some j.id }.requestPreempt k.id)
      | none => if s.alone j || s.chosen = some j.id then none else some { s with chosen := some j.id }

/-- JOB_ADMISSION (01 R18, R21, R36, R37): the hub's turn with the chosen job, the parts of a pod-spanning job together. -/
def execJobAdmission (s : State) : Out := .next ((s.hubTurn true).getD s)

/-- SPILLED_JOB_RESUME (01 R52). -/
def execSpilledJobResume (job : BitVec 16) (s : State) : Out :=
  .next (match s.jobAt job.toNat with
    | some j => if j.st = .spilled && (s.coresFor j).isSome then s.unspill j else s
    | none => s)

/-- PREEMPT_REQUEST (01 R50). -/
def execPreemptRequest (job : BitVec 16) (s : State) : Out :=
  .next (match s.jobAt job.toNat with
    | some j => if j.st = .running && !j.fw && j.preq.isNone
        then s.requestPreempt j.id else s
    | none => s)

/-- Every core of a job, and every Astrolabe stream of its tasks, has stopped and written its frame. -/
def State.allFramed (s : State) (id : Nat) : Bool :=
  (s.coresOf id).all (fun c => match c.stop with | some r => r.framed | none => false) &&
    (s.astrosOf id).all fun x => match x.2.stop with | some r => r.framed | none => x.2.s.run ≠ .running

/-- The stop of a pre-emption in the middle of a superstep (01 R50). -/
def State.stopJob (s : State) (j : Job) : State :=
  let t : Trap := { cause := .preempt, finfo := 0, finfox := 0, faddr := 0 }
  let s := s.preemptVote j
  let s := (s.coresOf j.id).foldl (fun s c => s.onCore c.num fun s => match s.core.stop with
    | none => s.stopCore .ctl t
    | some r => s.mapCore fun c => { c with stop := some { r with pend := true } }) s
  (s.astrosOf j.id).foldl (fun s x => match x.2.core with
    | some n => if x.2.s.run = .running then s.onCore n fun s => s.stopAstro t else s
    | none => s) s

/-- The frame slots of a job's stopped cores and Astrolabe streams: address and bytes (01 R49). -/
def State.slotsOf (s : State) (id : Nat) : List (Nat × Nat) :=
  ((s.coresOf id).map fun c => (s.frameAt c.num, 512)) ++
    ((s.astrosOf id).filter fun x => x.2.stop.isSome).map fun x => (s.aframeAt x.1, 9216)

/-- The whole context of a stopped job goes to memory of the resident OS, its frames as they stand in their slots (01 R50, R51). -/
def State.spillJob (s : State) (j : Job) : State :=
  let now := s.chron.toNat
  let (s, fs) := (s.slotsOf j.id).foldl (fun (x : State × List (Nat × Nat × Nat)) p =>
    let (t, v) := x.1.getArea p.1 p.2
    (t, x.2 ++ [(p.1, p.2, v)])) (s, [])
  (s.mapJobAt j.id fun k => { k with
    st := .spilled, spill := s.coresOf j.id, aspill := s.astrosOf j.id, frames := fs, preq := none, preempts := k.preempts + 1, enq := now,
    used := k.held now }).freeCores j.id

/-- Every core of a job with a task left has released a barrier and not left its exchange phase (01 R50). -/
def State.allReleased (s : State) (id : Nat) : Bool :=
  (s.coresOf id).all fun c => c.live = [] || (c.bar.till.isSome && c.bar.conf.isNone)

/-- A core of a job, or an Astrolabe stream of its tasks, has not stopped. -/
def State.stillRuns (s : State) (id : Nat) : Bool :=
  (s.coresOf id).any (fun c => c.stop.isNone) || (s.astrosOf id).any fun x => x.2.s.run = .running && x.2.stop.isNone

/-- PREEMPT_TIMEOUT has work: no boundary has come within 2^16 cycles (01 R50), and the cores have still to stop, or have all
written their frames. -/
def State.timeoutDue (s : State) (j : Job) : Bool :=
  match j.preq with
  | some t => t + 2 ^ 16 ≤ s.chron.toNat && j.st = .running &&
      ((s.stillRuns j.id && !s.allReleased j.id) || s.allFramed j.id)
  | none => false

/-- PREEMPT_TIMEOUT (01 R50, R54): the cores stop as for a fault and write their frames, then the hub spills the context; a job
whose cores all stand at faults casts its vote too. -/
def execPreemptTimeout (job : BitVec 16) (s : State) : Out :=
  .next (match s.jobAt job.toNat with
    | some j => if !s.timeoutDue j then s else if s.allFramed j.id then (s.preemptVote j).spillJob j else s.stopJob j
    | none => s)

/-- The time limit of a job has passed (01 R38). -/
def State.limitDue (s : State) (j : Job) : Bool :=
  j.st = .running && !j.fw && lrTlimit j.lrec ≠ 0 && lrTlimit j.lrec * 2 ^ 20 ≤ j.held s.chron.toNat

/-- TIME_LIMIT (01 R38). -/
def execTimeLimit (job : BitVec 16) (s : State) : Out :=
  .next (match s.jobAt job.toNat with
    | some j => if s.limitDue j then s.endJob j.id 5 0 0 0 0 else s
    | none => s)

/-- ENDED_BY_THE_OS (01 R19, R21, R45, R456); with `STATE` 4, a waiting part whose other part has been refused in another package
is refused too (log 22). -/
def execEndedByTheOs (job : BitVec 16) (st cause : BitVec 8) (src : BitVec 16) (va : BitVec 64) (s : State) : Out :=
  .next (match s.jobAt job.toNat with
    | some j =>
      if j.st = .closing then s
      else if st = 4 && j.st = .waiting && !s.alone j then (s.unchoose j.id).endJob j.id 4 Cause.launch.code 0 11 0
      else s.endJob j.id st.toNat cause.toNat src.toNat 0 va.toNat
    | none => s)

/-- FENCING_OFF_OF_A_CORE (01 R23, R52, 14 R454): a spilled job that needs the core ends. -/
def execFencingOffOfACore (core : BitVec 8) (s : State) : Out :=
  let s := { s with fences := s.fences ||| (1#256 <<< core.toNat) }
  .next ((s.jobs.filter fun j => j.st = .spilled && j.cores.contains core.toNat).foldl (fun s j => s.endJob j.id 3 0 0 0 0) s)

/-- An offset of the OS area block with a field replaced; a greater limit ends the stall for room (01 R49). -/
def State.writeOsArea (s : State) (off : Nat) (v : Word) : State :=
  let a : BitVec 28 := v.extractLsb' 12 28
  let o := s.os
  match off with
  | 0x00 => { s with os := { o with framebase := a } }
  | 0x08 => { s with os := { o with aframebase := a } }
  | 0x10 => { s with os := { o with ctbase := a } }
  | 0x18 => { s with os := { o with ctlim := a, ctfull := o.ctfull && !o.ctlim.ult a } }
  | _ =>
    let d := (off - 0x20) / 16
    if off % 16 = 0 then { s with os := { o with rspbase := o.rspbase.set! d a } }
    else
      let old := o.rsplim.toList.getD d 0
      { s with os := { o with
          rsplim := o.rsplim.set! d a
          rspfull := if old.ult a then o.rspfull &&& ~~~(1#4 <<< d) else o.rspfull } }

/-- FIRMWARE_START (04 R133): a write of `FWGO` = 1; a record that cannot be read counts as one that fails (log 22). -/
def execFirmwareStart (core : BitVec 8) (s : State) : Out :=
  let n := core.toNat
  let c := s.coreAt n
  if c.job.isSome then .next s
  else
    let (s, r) := s.physRead (gaOf s.pkg c.fw.recp.toNat) 576 (osAgent (4 * n)) 0
    let rec_ : BitVec 4608 := BitVec.ofNat 4608 (leNat r.data)
    if r.refused || r.bad ≠ [] || s.recordFail rec_ true ≠ 0 then
      .next (s.mapCoreAt n fun c => { c with fw := { c.fw with go := false, fail := true } })
    else
      let now := s.chron.toNat
      let j : Job := { Job.new s.nextJob true rec_ c.fw.recp.toNat c.fw.asid c.fw.root 0 0 (lrPrio rec_) now with
        st := .running, cores := [n], admitted := some now }
      let s := { s with jobs := s.jobs ++ [j], nextJob := s.nextJob + 1 }
      let s := s.takeTasks j.id n (lrSpsize rec_) [j.freshTask 0 0] fun s => s
      .next (s.onCore n fun s => (s.mapCore fun c => { c with
        mode := .firmware, fw := { c.fw with go := true, fail := false } }).goOn)

end Sys2Proof.Machine
end

