-- ==== Sys2Proof/Machine/Meridian.lean ====
section
/-! DEFINITION. Step transactions, the packets of the commit tree, and version regions (13 R407, R419 to R438). -/

namespace Sys2Proof.Machine

/-- The checks of the state of a transaction instruction (13 R419): `ok` holds the codes of the states that allow it. -/
def txNeed (ok : List (BitVec 2)) : Op Unit := do
  let s ← get
  trapIf (!lrTxn s.lrec || !ok.contains s.core.task.tx.st) .txState

/-- Updates the transaction context of the resident task. -/
def State.mapTx (s : State) (f : Tx → Tx) : State := s.mapTask fun t => { t with tx := f t.tx }

/-- An apply that is due in this package is in progress (13 R426, R429). -/
def State.applying (s : State) : Bool :=
  match s.job with
  | some j => j.decided ≠ [] && s.allVoted j
  | none => false

/-- TXOPEN (13 R429). -/
def execTxopen : State → Out := runCtl (do
  txNeed [0]
  let s ← get
  trapIf s.anyForkedA .range
  trapIf s.sharesCore .range
  ctlQuiet
  stallIf s.applying
  modify fun s =>
    (s.mapTask fun t => { t with
      rkey := stepTaskKey (lrSeed s.lrec) t.tx.step t.idx (s.rankOf s.lrec)
      tx := { t.tx with
        st := 1, gen := (s.job.map Job.gen).getD 0, cbase := t.collseq, qbase := t.qseq } }).zeroDraws)

/-- TXVOTE (13 R430). -/
def execTxvote (a b : BitVec 6) : State → Out := runCtl (do
  txNeed [1]
  needX [a, b]
  let s ← get
  let f := s.ctl.getX a
  let m := s.ctl.getX b
  trapIf (bits f 63 16 ≠ 0 || bits f 7 3 ≠ 0 || bits m 63 32 ≠ 0) .range
  trapIf s.anyForkedA .range
  ctlQuiet
  modify fun s => (s.mapTx fun t => { t with st := 2, vote := some (f.setWidth 16, m.setWidth 32) }).noteVotes)

/-- The word of `TXWAIT` (13 R431). -/
def txWord (p : BitVec 128) : Word :=
  BitVec.ofNat 64 (b2n (pkCommit p) + pkFlags p * 2 ^ 16 + (pkMax p).toNat * 2 ^ 32)

/-- What a task does with an applied decision (13 R431). -/
def Task.decided (t : Task) (p : BitVec 128) : Task :=
  if pkCommit p then { t with tx := { t.tx with st := 3, dec := some p, step := t.tx.step + 1, retry := 0 } }
  else { t with
    collseq := t.tx.cbase, qseq := t.tx.qbase
    tx := { t.tx with st := 3, dec := some p, retry := if t.tx.retry = BitVec.allOnes 16 then t.tx.retry else t.tx.retry + 1 } }

/-- The decision of the task's generation, once applied in the package (13 R426). -/
def State.appliedOf (s : State) : Option (BitVec 128) :=
  match s.job with
  | some j => if j.gen = s.core.task.tx.gen + 1 then j.applied else none
  | none => none

/-- TXWAIT (13 R431). -/
def execTxwait (d : BitVec 6) : State → Out := runCtl (do
  txNeed [2]
  needX [d]
  let s ← get
  match s.appliedOf with
  | none => stall
  | some p => modify fun s => (s.mapTask fun t => t.decided p).mapCtl fun c => c.setX d (txWord p))

/-- TXCLOSE (13 R432). -/
def execTxclose : State → Out := runCtl (do
  txNeed [3]
  let s ← get
  trapIf s.anyForkedA .range
  modify State.txClose)

/-- The word of `TXSTAT` (13 R433). -/
def txstatWord (x : Tx) : Word :=
  let p := x.dec.getD 0
  BitVec.ofNat 64 (x.st.toNat + 4 * b2n (pkCommit p) + x.gen.toNat % 2 ^ 16 * 2 ^ 16 + pkFlags p * 2 ^ 32 + x.retry.toNat * 2 ^ 48)

/-- A read of the transaction context into a register. -/
def txRead (ok : List (BitVec 2)) (d : BitVec 6) (f : State → Word) : State → Out := runCtl (do
  txNeed ok
  needX [d]
  modify fun s => s.mapCtl fun c => c.setX d (f s))

/-- TXSTAT (13 R433). -/
def execTxstat (d : BitVec 6) : State → Out := txRead [0, 1, 2, 3] d fun s => txstatWord s.core.task.tx
/-- TXKEY (13 R433). -/
def execTxkey (d : BitVec 6) : State → Out := txRead [1, 2, 3] d State.stepKeyOf
/-- TXSEQ.STEP (13 R433). -/
def execTxseqStep (d : BitVec 6) : State → Out := txRead [0, 1, 2, 3] d fun s => s.core.task.tx.step
/-- TXSEQ.CBASE (13 R433). -/
def execTxseqCbase (d : BitVec 6) : State → Out := txRead [0, 1, 2, 3] d fun s => s.core.task.tx.cbase.setWidth 64
/-- TXSEQ.QBASE (13 R433). -/
def execTxseqQbase (d : BitVec 6) : State → Out := txRead [0, 1, 2, 3] d fun s => s.core.task.tx.qbase.setWidth 64
/-- TXSEQ.COUNT (13 R433). -/
def execTxseqCount (d : BitVec 6) : State → Out := txRead [0, 1, 2, 3] d fun s => BitVec.ofNat 64 (pkCount (s.core.task.tx.dec.getD 0))

/-- The package vote of a job is due (13 R424). -/
def State.voteDue (s : State) (j : Job) : Bool :=
  match j.voted with
  | some t => t + 64 ≤ s.chron.toNat && !j.sent
  | none => false

/-- PACKAGE_VOTE (13 R424). -/
def execPackageVote (job : BitVec 16) (s : State) : Out :=
  .next (match s.jobAt job.toNat with
    | some j => if s.voteDue j then s.sendVote j 0 else s
    | none => s)

/-- The pod-spanning job of a group that a packet concerns. -/
def State.groupJob (s : State) (g : Nat) : Option Job :=
  s.jobs.find? fun j => lrTxn j.lrec && 4 < lrSpan j.lrec && lrGroup j.lrec = g && j.st ≠ .waiting

/-- VOTE_PACKET (13 R422, R425): a vote from another package reaches the node of this one. -/
def execVotePacket (p : BitVec 128) (s : State) : Out :=
  .next (match s.groupJob (pkGroup p) with
    | some j => s.receiveVote j.id p
    | none => s)

/-- ROOT_TIMEOUT of a job is due (13 R425). -/
def State.rootDue (s : State) (j : Job) : Bool :=
  match j.first with
  | some f => j.votes ≠ [] && s.rankOf j.lrec = 0 && s.node.txtmo ≠ 0 &&
      f + s.node.txtmo.toNat * 2 ^ 10 ≤ s.chron.toNat
  | none => false

/-- ROOT_TIMEOUT (13 R425). -/
def execRootTimeout (job : BitVec 16) (s : State) : Out :=
  .next (match s.jobAt job.toNat with
    | some j => if s.rootDue j then s.rootDecide j 32 else s
    | none => s)

/-- DECISION_PACKET (13 R425, R426): the decision that the tree owes next arrives, and goes on down the tree. -/
def execDecisionPacket (p : BitVec 128) (s : State) : Out :=
  .next (match s.groupJob (pkGroup p) with
    | some j =>
      if pkGen p ≠ j.treeGen.toNat % 2 ^ 16 then s
      else
        let s := if 1 < nodeVotes (s.rankOf j.lrec) (s.packagesOf j) then
          { s with node := { s.node with sent := s.node.sent ++ [p] } } else s
        s.takeDecision j.id p
    | none => s)

/-- DECISION_APPLY (13 R411, R426). -/
def execDecisionApply (job : BitVec 16) (s : State) : Out :=
  .next (match s.jobAt job.toNat with
    | some j => match j.decided with
      | (p, _) :: _ => if s.applyReady j then s.applyDecision j p else s
      | [] => s
    | none => s)

/-- Updates a version region. -/
def State.mapRegion (s : State) (v : Nat) (f : Region → Region) : State :=
  match s.regions[v]? with
  | some r => { s with regions := s.regions.set! v (f r) }
  | none => s

/-- A declaration is refused (13 R407). -/
def State.regionRefused (s : State) (v : Nat) (r : Region) : Bool :=
  r.limit.toNat ≤ r.base.toNat || 0x5FE8000000 < r.limit.toNat * 4096 ||
    (List.range 16).any fun u => u ≠ v && (match s.regions[u]? with
      | some q => q.rdy && q.base.toNat < r.limit.toNat && r.base.toNat < q.limit.toNat
      | none => false)

/-- REGION_DECLARE (13 R407): a write of a descriptor's first doubleword with `VV` = 1. -/
def execRegionDeclare (v : BitVec 4) (w : Word) (s : State) : Out :=
  .next (match s.regions[v.toNat]? with
    | none => s
    | some r =>
      if r.vv then s
      else
        let r := { r with vv := true, base := w.extractLsb' 12 28 }
        if s.regionRefused v.toNat r then s.mapRegion v.toNat fun _ => r
        else
          let s := { s with blocks := s.blocks.filter fun b => !(r.base.toNat ≤ b.pa / 4096 && b.pa / 4096 < r.limit.toNat) }
          s.mapRegion v.toNat fun _ => { r with rdy := true, st := Vector.replicate 12 VStack.reset })

/-- A block of a region that is retired (13 R407). -/
def State.retireBlock (s : State) (v pa : Nat) : State :=
  let x := s.vstack v pa
  let b := (s.blockAt v pa).resolve x.s x.aborted
  if b.cs then s.copyBlock (slot1 pa) pa (0x500 + (stackOf pa).1) else s

/-- REGION_RETIRE (13 R407). -/
def execRegionRetire (v : BitVec 4) (s : State) : Out :=
  .next (match s.regions[v.toNat]? with
    | none => s
    | some r =>
      let mine := if r.rdy then (s.blocks.filter fun b => r.base.toNat ≤ b.pa / 4096 && b.pa / 4096 < r.limit.toNat).map VBlock.pa
        else []
      let s := mine.foldl (fun s pa => s.retireBlock v.toNat pa) s
      { s with blocks := s.blocks.filter fun b => !mine.contains b.pa }.mapRegion v.toNat fun r => { r with
          vv := false, rdy := false, st := Vector.replicate 12 VStack.reset })

end Sys2Proof.Machine
end

