-- ==== Sys2Proof/Machine/Xlate.lean ====
section
/-! DEFINITION. The translation engine: walks, shootdowns, page operations, keys (07 R253 to R275). -/

namespace Sys2Proof.Machine

/-- PAGE_WALK (07 R250, R253, R255, R256): a waiting request is served; requests for one page share the walk. A walk without a
usable leaf fills nothing. -/
def execPageWalk (die : BitVec 2) (asid : BitVec 16) (va : BitVec 48) (s : State) : Out :=
  let mine (r : WalkReq) : Bool := r.asid = asid && r.va = va.toNat
  let rs := (s.dieAt die.toNat).reqs.filter mine
  let s := s.mapDie die.toNat fun d => { d with reqs := d.reqs.filter fun r => !mine r }
  .next (if rs = [] then s else match s.rootOf asid with
    | none => s
    | some root =>
      let s := s.walkReads (xltSrc die.toNat) va.toNat 4 root
      match s.walk root va.toNat with
      | .leaf e size pa =>
        if bit e 6 then s
        else
          let x := tlbEntry asid va.toNat e size pa
          rs.foldl (fun s r => s.fillCore r.core x) (s.mapDie die.toNat fun d => { d with tlb := fillTlb x d.tlb })
      | .absent _ _ _ => s)

/-- The level-3 table of an address space in use (07 R267). -/
def State.spaceRoot (s : State) (asid : BitVec 16) : Option Nat :=
  match s.jobs.find? fun j => j.asid = asid && j.st ≠ .waiting && j.st ≠ .closing with
  | some j => some j.root.toNat
  | none => (s.spaces.find? fun x => x.asid = asid && x.host).map fun x => x.root.toNat

/-- An operation of the translation engines on [va, va + n) that has made `stage` shootdowns. -/
def XltWait.new (asid : BitVec 16) (va n stage : Nat) : XltWait :=
  { asid := asid, va := va, len := n, stage := stage, since := 0, src := none, dst := none }

/-- The checks and the wait that the nine forms share (07 R267): the control stream's earlier commands have completed. -/
def xltOpen : Op Unit := do
  let s ← get
  trapIf s.jobMode .privilege
  ctlQuiet

/-- The operation at hand on an address space has its turn: the engines take those on one address space one at a time, in the order
of their issue and then of their cores (07 R267). One that waits is noted; one that has acted has its turn. -/
def xltTurn (asid : BitVec 16) : Op Unit := do
  let s ← get
  let w := s.core.xlt.getD { XltWait.new asid 0 0 0 with since := s.chron.toNat }
  let before (c : Core) : Bool := match c.xlt with
    | some y => y.asid = asid && c.stop.isNone && (y.stage ≠ 0 || y.since < w.since || (y.since = w.since && c.num < s.core.num))
    | none => false
  if w.stage = 0 then
    if s.others.any before then throw (.stall (.acted (s.mapCore fun c => { c with xlt := some w })))
    else set (s.mapCore fun c => { c with xlt := none })

/-- An `ASID` operand: the address space and its level-3 table (07 R267), at the turn of an operation that has not acted yet. -/
def asidOf (acted : Bool) (v : Word) : Op (BitVec 16 × Nat) := do
  let s ← get
  let a : BitVec 16 := v.setWidth 16
  match (if bits v 63 16 = 0 then s.spaceRoot a else none) with
  | some r => do
    if !acted then xltTurn a
    return (a, r)
  | none => do
    trap .range
    return (a, 0)

/-- The line of the leaf or of the last-level entry that a walk for a VA ends in, with its level and the size of what it maps:
`none` where an entry above level 0 is absent or malformed (07 R257; a malformed one, log 23). -/
def State.leafLine (s : State) (va : Nat) : Nat → Nat → Option (Nat × Nat × Nat)
  | 0, _ => none
  | lvl + 1, t =>
    let pa := t + 8 * (va / (4096 * 512 ^ lvl) % 512)
    let e := s.pte pa
    if lvl = 0 then some (pa / 128 * 128, 0, if bit e 7 && s.groupAgrees (pa / 128 * 128) 0 then 65536 else 4096)
    else if !bit e 0 || pteBad e lvl then none
    else if bit e 1 then
      some (pa / 128 * 128, lvl, pageBytes lvl * (if bit e 7 && s.groupAgrees (pa / 128 * 128) lvl then 16 else 1))
    else s.leafLine va lvl (ptePa e)

/-- The leaf lines of [va, lim), each with the first VA it maps and the bytes it maps, with fuel; `none` when an entry above
level 0 stops a walk, or there are more than 16 (07 R257). With them, the VAs that were walked. -/
def State.leafLines (s : State) (root lim : Nat) : Nat → Nat → List (Nat × Nat × Nat) → Option (List (Nat × Nat × Nat)) × List Nat
  | 0, _, _ => (none, [])
  | k + 1, va, acc =>
    if lim ≤ va then (some acc, [])
    else match s.leafLine va 4 root with
    | none => (none, [va])
    | some (line, lvl, size) =>
      let w := 16 * pageBytes lvl
      let acc := if acc.any (fun x => x.1 = line) then acc else acc ++ [(line, va / w * w, w)]
      if 16 < acc.length then (none, [va])
      else
        let (ls, vas) := s.leafLines root lim k ((va / size + 1) * size) acc
        (ls, va :: vas)

/-- A core drops its entries for a range, and the code lines fetched through them (07 R257, R264). -/
def Core.shoot (c : Core) (asid : BitVec 16) (va n : Nat) : Core :=
  let hit (a m : Nat) : Bool := a < va + n && va < a + m
  let gone := c.tlb.filter fun x => x.asid = asid && hit x.va (sizeBytes x.size)
  { c with
    tlb := c.tlb.filter fun x => !gone.contains x
    code := c.code.filter fun l => !(l.asid = asid && (hit l.va 128 || gone.any fun x => x.va ≤ l.va && l.va < x.va + sizeBytes x.size)) }

/-- A shootdown of [va, va + n) in one die (07 R257). -/
def State.shootDie (s : State) (root : Nat) (asid : BitVec 16) (va n d : Nat) : State :=
  let (lines, vas) := s.leafLines root (va + n) 300 va []
  let s := vas.foldl (fun s v => s.walkReads (xltSrc d) v 4 root) s
  let bm := match lines with
    | none => BitVec.allOnes 64
    | some ls => (s.dieAt d).dir.foldl (fun m e => if e.asid = asid && ls.any (fun l => l.1 = e.pa) then m ||| e.cores else m) 0
  let clear (e : DirEntry) : DirEntry :=
    if e.asid = asid && e.spans.all (fun v => va ≤ v.1 && v.1 + v.2 ≤ va + n) then { e with cores := e.cores &&& ~~~bm } else e
  let s := s.mapDie d fun x => { x with
    tlb := x.tlb.filter fun y => !(y.asid = asid && y.va < va + n && va < y.va + sizeBytes y.size)
    dir := (x.dir.map clear).filter fun e => e.cores ≠ 0 }
  ((s.core :: s.others).filter fun c => c.die = d && bit bm (c.num % 64)).foldl
    (fun s c => s.mapCoreAt c.num fun c => c.shoot asid va n) s

/-- A shootdown in the dies chosen (07 R257). -/
def State.shoot (s : State) (root : Nat) (asid : BitVec 16) (va n : Nat) (dies : List Nat) : State :=
  dies.foldl (fun s d => s.shootDie root asid va n d) s

/-- A piece goes through a leaf that maps [va, va + n) of an address space (`mine`: the piece is of that space), or to a page of `n`
bytes that moves from the global address `frame` (07 R257, R262). -/
def Seg.via (g : Seg) (mine : Bool) (va n : Nat) (frame : Option Nat) : Bool :=
  (mine && g.va < va + n && va < g.va + g.len) ||
    match frame with
    | some f => g.pa < f + n && f < g.pa + g.len
    | none => false

/-- The pieces of translated memory that the commands of a core under way still have to access: the queues of the copy and the
matrix engine, near-memory commands. -/
def Core.pieces (c : Core) : List Seg :=
  let xfers := c.cpy.queue ++ c.cpy.stamped.filter fun x => !x.void
  let cmds := c.mtx.queue ++ c.mtx.stamped.filter fun m => !m.void
  (xfers.flatMap fun x => (x.src ++ x.dst ++ x.dst2).flatMap Span.segs) ++
    (cmds.flatMap fun m => (([m.ta, m.tb, m.sa, m.sb].flatMap fun t => (t.map Tile.src).getD []) ++ m.span.toList).flatMap Span.segs) ++
    c.nms.flatMap fun m => m.dst ++ m.src ++ m.aux

/-- Those of an Astrolabe operation that gathers its participants. -/
def Astro.pieces (a : Astro) : List Seg :=
  match a.wait.bind AWait.store with
  | some p => p.segs
  | none => []

/-- Accesses that have been translated by an address space's leaves for [va, va + n), or go to a frame that moves, and have not been
applied: of cores, of Astrolabe streams, of spilled contexts, of near-memory commands and reductions whose job has ended, and for
a frame those that another package sent (07 R257, R262, R263). -/
def State.inTransit (s : State) (asid : BitVec 16) (va n : Nat) (frame : Option Nat) : Bool :=
  let via (a : Option (BitVec 16)) (l : List Seg) : Bool := l.any fun g => g.via (a = some asid) va n frame
  let asidOf (id : Option Nat) : Option (BitVec 16) := (id.bind s.jobAt).map Job.asid
  ((s.core :: s.others).any fun c => via (asidOf c.job) c.pieces) ||
    (s.dies.toList.any fun d => via (asidOf (d.astro.core.bind fun k => (s.coreAt k).job)) d.astro.pieces) ||
    (s.jobs.any fun j => via (some j.asid) (j.spill.flatMap Core.pieces ++ j.aspill.flatMap fun x => x.2.pieces)) ||
    (s.orphans.any fun m => via (m.who.bind Agent.asid) (m.dst ++ m.src ++ m.aux)) ||
    s.reds.any fun m => via (if m.away then none else some m.asid) [{ va := m.va, pa := m.pa, len := redSize m.ty }]

/-- Every die. -/
def allDies : List Nat := [0, 1, 2, 3]

/-- The wait behind a shootdown (07 R257, R262): until every access through the entries it dropped has been applied. -/
def afterShoot (w : XltWait) : Op Unit := do
  let s ← get
  if s.inTransit w.asid w.va w.len w.src then
    throw (.stall (.acted (s.mapCore fun c => { c with xlt := some w })))
  else set (s.mapCore fun c => { c with xlt := none })

/-- The operation of the core at hand that has acted. -/
def State.xltActed (s : State) : Option XltWait := s.core.xlt.filter fun w => w.stage ≠ 0

/-- A word with one shootdown: its checks and its effect with the shootdown, once, and then the wait. -/
def shootOnce (act : Op XltWait) : Op Unit := do
  let s ← get
  match s.xltActed with
  | some w => afterShoot w
  | none => do
    let w ← act
    afterShoot w

/-- A shootdown operation (07 R257). -/
def shootOp (root : Nat) (asid : BitVec 16) (va n : Nat) (dies : List Nat) : Op XltWait := do
  modify fun s => s.shoot root asid va n dies
  return XltWait.new asid va n 1

/-- The dies of a shootdown scope (07 R268). -/
def shootScope (sc : BitVec 3) : Op (List Nat) := do
  let s ← get
  trapIf (sc ≠ 3 && sc ≠ 4) .range
  return if sc = 3 then [s.core.die] else allDies

/-- TLBINV (07 R268). -/
def execTlbinv (a b : BitVec 6) (sc : BitVec 3) : State → Out := runCtl (do
  needX [a, b]
  xltOpen
  shootOnce (do
    let s ← get
    let ds ← shootScope sc
    let (asid, root) ← asidOf false (s.ctl.getX b)
    shootOp root asid ((s.ctl.getX a).toNat / 4096 * 4096) 4096 ds))

/-- TLBINVR (07 R268). -/
def execTlbinvr (c a b : BitVec 6) (sc : BitVec 3) : State → Out := runCtl (do
  needX [c, a, b]
  xltOpen
  shootOnce (do
    let s ← get
    let ds ← shootScope sc
    let (asid, root) ← asidOf false (s.ctl.getX b)
    let n := (s.ctl.getX c).toNat
    trapIf (n = 0 || 2 ^ 47 < n) .range
    shootOp root asid (s.ctl.getX a).toNat n ds))

/-- The page of a page operation (07 R267): its leaf, size code, PA of the entry, first VA, frame of the first byte. -/
structure Page where
  asid : BitVec 16
  root : Nat
  leaf : BitVec 64
  size : Nat
  pa   : Nat
  va   : Nat
  frame : Nat

/-- The page that a word's operands name, by a valid leaf with `MOV` = 0, or any valid leaf once the word has acted on it (07
R267). -/
def pageOf (a c : BitVec 6) (acted : Bool) : Op Page := do
  let s ← get
  let va := (s.ctl.getX a).toNat
  let (asid, root) ← asidOf acted (s.ctl.getX c)
  if 2 ^ 48 ≤ va then trap .range
  match s.walk root va with
  | .leaf e size pa => do
    if bit e 6 && !acted then trapWalked root va .range 0 0
    modify fun s => if acted then s else s.walked root va
    return { asid := asid, root := root, leaf := e, size := size, pa := pa, va := va / sizeBytes size * sizeBytes size,
             frame := ptePa (tlbEntry asid va e size pa).leaf }
  | .absent _ _ _ => do
    trapWalked root va .range 0 0
    return { asid := asid, root := root, leaf := 0, size := 0, pa := 0, va := va, frame := 0 }

/-- What a page operation does with its page, behind the walk that finds it. -/
def withPage {α : Type} (a c : BitVec 6) (acted : Bool) (f : Page → Op α) : Op α := do
  let p ← pageOf a c acted
  keeping .ctl (f p)

/-- Bytes of a page. -/
def Page.bytes (p : Page) : Nat := sizeBytes p.size

/-- The wait behind a shootdown of it. -/
def Page.wait (p : Page) (stage : Nat) : XltWait := XltWait.new p.asid p.va p.bytes stage

/-- The wait of a page that moves from a frame, to another when nothing is copied. -/
def Page.moving (p : Page) (src : Nat) (dst : Option Nat) : XltWait := { p.wait 1 with src := some src, dst := dst }

/-- Writes an entry of a table of this package at its home (11 R355, R361), in the name of the core's translation engine (01 R34);
the home of a version region refuses it (13 R410). -/
def State.writePte (s : State) (pa : Nat) (e : BitVec 64) : State :=
  let src := xltSrc s.core.die
  match s.routeWrite pa { src := src, key := 0, asid := none, step := false } false false with
  | (s, none) => s
  | (s, some p) => s.writeSector (p / 64 * 64) (sectorPart (p / 64 * 64) p (wordLe 8 e)) 0 false none src none

/-- Rewrites the leaf of a page, all 16 entries of a group (07 R267). -/
def State.mapLeaf (s : State) (p : Page) (f : Nat → BitVec 64 → BitVec 64) : State :=
  if p.size % 2 = 1 then
    let line := p.pa / 128 * 128
    (List.range 16).foldl (fun t j => t.writePte (line + 8 * j) (f j (s.pte (line + 8 * j)))) s
  else s.writePte p.pa (f 0 (s.pte p.pa))

/-- An entry with `PA` replaced. -/
def withPa (e : BitVec 64) (pa : Nat) : BitVec 64 := setBits e 12 29 (BitVec.ofNat 64 (pa / 4096))
/-- An entry with `PKG` replaced. -/
def withPkg (e : BitVec 64) (pkg : Nat) : BitVec 64 := setBits e 41 12 (BitVec.ofNat 64 pkg)
/-- An entry with one bit replaced. -/
def withBit (e : BitVec 64) (i : Nat) (b : Bool) : BitVec 64 := setBits e i 1 (BitVec.ofNat 64 (b2n b))

/-- A global frame operand (07 R266, R271): package and PA, aligned to the page, in DRAM; a bit that must be zero raises `RANGE`, before
`ALIGN` (log 23). -/
def globalFrame (x : Word) (n : Nat) : Op (Nat × Nat) := do
  trapIf (bits x 63 54 ≠ 0 || bit x 41) .range
  let pa := bits x 40 0
  trapIf (pa % n ≠ 0) .align
  trapIf (dramSize < pa + n) .range
  return (bits x 53 42, pa)

/-- A local frame operand (07 R266, R270). -/
def localFrame (x : Word) (n : Nat) : Op Nat := do
  trapIf (x.toNat % n ≠ 0) .align
  trapIf (dramSize < x.toNat + n) .range
  return x.toNat

/-- Sectors of [pa, pa + n) of this package whose read corrects or poisons something. -/
def State.badSectors (s : State) (pa n : Nat) : List Nat :=
  (s.sectors.filter fun x => pa ≤ x.pa && x.pa < pa + n && x.err ≠ []).map Sector.pa

/-- A version region in service meets a stretch of global addresses of this package. -/
def State.versioned (s : State) (ga n : Nat) : Bool :=
  gaPkg ga = s.pkg.toNat && s.regions.toList.any fun r =>
    r.rdy && r.base.toNat * 4096 < gaPa ga % 2 ^ 40 + n && gaPa ga % 2 ^ 40 < r.limit.toNat * 4096

/-- What a copy of a sector reads at a global address: its bytes and whether it is poisoned, and the key under which its own Carafe
holds it; `none` where the home refuses the read (11 R359, R360, 13 R412, R414; log 5). -/
def State.copyRead (s : State) (ga source : Nat) : State × Option (List Byte × Bool × Option (BitVec 512)) :=
  if gaPkg ga ≠ s.pkg.toNat then (s, some (s.mem.read ga 64, s.rpoison.contains ga, none))
  else match s.routeRead (gaPa ga) with
    | (s, none) => (s, none)
    | (s, some p) =>
      let k := (s.sectorAt p).ckey
      let (s, r) := s.readSector p source 4 false k
      (s, some (r.data, r.poison, k))

/-- A whole sector of a page copy written at a global address (11 R360, R361, R363): tags clear, recoded or raw by its new place,
poison with it. The home of a version region takes no such write (13 R410). -/
def State.copyWrite (s : State) (ga : Nat) (d : List Byte) (poison : Bool) (key : Option (BitVec 512)) : State :=
  if gaPkg ga ≠ s.pkg.toNat then
    { s with mem := s.mem.write ga d, rpoison := s.poisonAfter ga 64 (if poison then [ga] else []) }
  else if gaPa ga / 2 ^ 40 % 2 = 1 || (s.regionAt (gaPa ga % 2 ^ 40)).isSome then s
  else State.putSector { s with mem := s.mem.write ga d }
    { pa := gaPa ga, rtag := 0, raw := !s.recodes (gaPa ga) d, poison := poison, err := [], ckey := key }

/-- One sector of a page copied; `key`: what encrypts a sector that comes from another package (02 R96). -/
def State.copySector (s : State) (src dst source : Nat) (key : Option (BitVec 512)) : State :=
  match s.copyRead src source with
  | (s, none) => s
  | (s, some (d, poison, k)) => s.copyWrite dst d poison (if gaPkg src = s.pkg.toNat then k else key)

/-- The frame at a global address of this package meets a format region under which sectors are recoded (11 R363). -/
def State.recodesIn (s : State) (ga n : Nat) : Bool :=
  gaPkg ga = s.pkg.toNat && s.carafe.rcen && s.carafe.frd.toList.any fun f =>
    f.v && f.fmt = 1 && f.base.toNat * 4096 < gaPa ga + n && gaPa ga < f.limit.toNat * 4096

/-- A page copied from one frame to another (07 R262, R270): errors are met as at a read (11 R359), and each sector is written
whole (R361). What no key, region, recoding or other package concerns is copied as one stretch. -/
def State.copyPage (s : State) (src dst n : Nat) (key : Option (BitVec 512)) : State :=
  let source := xltSrc s.core.die
  if s.versioned src n || s.versioned dst n || gaPa src / 2 ^ 40 % 2 = 1 || gaPa dst / 2 ^ 40 % 2 = 1 || s.recodesIn dst n ||
      gaPkg src ≠ s.pkg.toNat || gaPkg dst ≠ s.pkg.toNat then
    (List.range (n / 64)).foldl (fun s i => s.copySector (src + 64 * i) (dst + 64 * i) source key) s
  else
    let s := (s.badSectors (gaPa src) n).foldl (fun s pa => (s.readSector pa source 4 false (s.sectorAt pa).ckey).1) s
    let cells := (s.mem.slice src n).map fun c => (c.1 - src + dst, c.2)
    let s : State := { s with mem := cells.foldl (fun m c => m.set c.1 c.2) (s.mem.erase dst n) }
    let there : List Sector := s.sectors.filter fun x => gaPa src ≤ x.pa && x.pa < gaPa src + n
    let s := { s with sectors := s.sectors.filter fun x => !(gaPa dst ≤ x.pa && x.pa < gaPa dst + n) }
    there.foldl (fun s x => s.putSector { x with pa := x.pa - gaPa src + gaPa dst, rtag := 0, raw := true, err := [] }) s

/-- The key under which the contexts of an address space read and write (02 R96). -/
def State.spaceKey (s : State) (asid : BitVec 16) : Option (BitVec 512) :=
  s.keyMat ((((s.jobs.find? fun j => j.asid = asid).map Job.key).orElse fun _ =>
    (s.spaces.find? fun x => x.asid = asid).map Space.key).getD 0)

/-- The new table of a split is needed; `none` for a pair that R269 does not allow. -/
def splitTable (size sz : Nat) : Option Bool :=
  if size % 2 = 1 then (if sz = size - 1 then some false else none)
  else if 2 ≤ size && (sz = size - 2 || sz = size - 1) then some true else none

/-- Demotes the entries of a page (07 R258). -/
def State.demote (s : State) (p : Page) : State :=
  let line := p.pa / 128 * 128
  let same (x : TlbEntry) : Bool := x.asid = p.asid && x.va = p.va && x.size = p.size
  allDies.foldl (fun s d =>
    let bm := (s.dieAt d).dir.foldl (fun m e => if e.asid = p.asid && e.pa = line then m ||| e.cores else m) 0
    let s := s.mapDie d fun x => { x with tlb := x.tlb.filter fun y => !same y }
    ((s.core :: s.others).filter fun c => c.die = d && bit bm (c.num % 64)).foldl
      (fun s c => s.mapCoreAt c.num fun c => { c with tlb := c.tlb.map fun x => if same x then { x with demoted := true } else x }) s) s

/-- The smaller leaves of a split; no core shares a line of the new table yet (07 R269). -/
def State.splitLeaf (s : State) (p : Page) (sz table : Nat) (new : Bool) : State :=
  if new then
    let single := pageBytes (sz / 2)
    let e := withBit p.leaf 7 (sz % 2 = 1)
    let s : State := { s with dies := s.dies.map fun d => { d with dir := d.dir.filter fun x => !(table ≤ x.pa && x.pa < table + 4096) } }
    let s := (List.range 512).foldl (fun s i => s.writePte (table + 8 * i) (withPa e (ptePa p.leaf + i * single))) s
    s.writePte p.pa (withPa 1#64 table)
  else s.mapLeaf p fun _ e => withBit e 7 false

/-- PGSPLIT (07 R269). -/
def execPgsplit (c a b : BitVec 6) (z : BitVec 3) : State → Out := runCtl (do
  needX [c, a, b]
  xltOpen
  withPage a c false fun p => match splitTable p.size z.toNat with
    | none => trap .range
    | some new => do
      let s ← get
      let t ← if new then localFrame (s.ctl.getX b) 4096 else (do trapIf (b ≠ 0) .range; return 0)
      modify fun s => (s.splitLeaf p z.toNat t new).demote p)

/-- Rounds every accumulator of a stretch of global addresses, as a first read of its words does (02 R84). -/
def State.roundPage (s : State) (ga n : Nat) : State := (s.accs.filter fun a => ga ≤ a.pa && a.pa < ga + n).foldl State.roundOut s

/-- The second part of PGDUP (07 R270): the page is copied, and the leaf names the replica. -/
def State.dupPage (s : State) (p : Page) (dst : Nat) : State :=
  let src := ptePkg p.leaf * 2 ^ 42 + p.frame
  let s := (s.roundPage src p.bytes).copyPage src (gaOf s.pkg dst) p.bytes (s.spaceKey p.asid)
  (s.mapLeaf p fun j e => withPkg (withPa (withBit e 5 true) (dst + j * pageBytes (p.size / 2))) s.pkg.toNat).shoot p.root
    p.asid p.va p.bytes allDies

/-- PGDUP (07 R270): the leaf turns read-duplicate, and behind a shootdown the page is copied and its leaf rewritten. -/
def execPgdup (c a b : BitVec 6) : State → Out := runCtl (do
  needX [c, a, b]
  xltOpen
  let s ← get
  shootOnce (withPage a c false fun p => do
    trapIf (bit p.leaf 8) .range
    let _ ← localFrame (s.ctl.getX b) p.bytes
    modify fun s => (s.mapLeaf p fun _ e => withBit e 5 true).shoot p.root p.asid p.va p.bytes allDies
    return p.wait 1)
  if (s.xltActed.map XltWait.stage).getD 1 = 1 then
    let p ← pageOf a c true
    modify fun t => t.dupPage p (s.ctl.getX b).toNat
    afterShoot (p.wait 2))

/-- PGCOLL (07 R271). -/
def execPgcoll (c a b : BitVec 6) (w : BitVec 1) : State → Out := runCtl (do
  needX [c, a, b]
  xltOpen
  shootOnce (withPage a c false fun p => do
    trapIf (!bit p.leaf 5) .range
    let s ← get
    let (pkg, pa) ← globalFrame (s.ctl.getX b) p.bytes
    modify fun s =>
      (s.mapLeaf p fun j e =>
        withPkg (withPa (withBit (withBit e 5 false) 3 (w = 1)) (pa + j * pageBytes (p.size / 2))) pkg).shoot p.root
        p.asid p.va p.bytes allDies
    return p.wait 1))

/-- The second part of PGMOVE (07 R262): the page is copied when `copy`, its accumulators move as they are, and the leaf names the
new frame with `MOV` = 0. -/
def State.movePage (s : State) (p : Page) (pkg pa : Nat) (copy : Bool) : State :=
  let src := ptePkg p.leaf * 2 ^ 42 + p.frame
  let dst := pkg * 2 ^ 42 + pa
  let s := if copy then
    let s := s.copyPage src dst p.bytes (s.spaceKey p.asid)
    { s with accs := s.accs.map fun x => if src ≤ x.pa && x.pa < src + p.bytes then { x with pa := x.pa - src + dst } else x }
    else s
  s.mapLeaf p fun j e => withPkg (withPa (withBit e 6 false) (pa + j * pageBytes (p.size / 2))) pkg

/-- PGMOVE (07 R262, R272): the leaf gets `MOV` = 1, and behind a shootdown the page moves. A page that a version region in
service meets is refused (13 R438; log 33). -/
def execPgmove (c a b : BitVec 6) (f : BitVec 1) : State → Out := runCtl (do
  needX [c, a, b]
  xltOpen
  let s ← get
  withPage a c s.xltActed.isSome fun p => do
    let (pkg, pa) ← (do
      trapIf (bit p.leaf 8) .range
      globalFrame (s.ctl.getX b) p.bytes)
    let src := ptePkg p.leaf * 2 ^ 42 + p.frame
    let dst := pkg * 2 ^ 42 + pa
    trapIf (s.versioned src p.bytes || s.versioned dst p.bytes) .range
    shootOnce (do
      modify fun s => (s.mapLeaf p fun _ e => withBit e 6 true).shoot p.root p.asid p.va p.bytes allDies
      return p.moving src (if f = 1 then none else some dst))
    modify fun s => s.movePage p pkg pa (f = 1))

/-- PGPROT (07 R273). -/
def execPgprot (c a b : BitVec 6) : State → Out := runCtl (do
  needX [c, a, b]
  xltOpen
  shootOnce (withPage a c false fun p => do
    let s ← get
    let x := s.ctl.getX b
    trapIf (x &&& ~~~0x3D#64 ≠ 0 || (bit x 3 && !bit x 2)) .range
    modify fun s =>
      (s.mapLeaf p fun _ e => (e &&& ~~~0x3D#64) ||| x).shoot p.root p.asid p.va p.bytes allDies
    return p.wait 1))

/-- The word of `WALKSTAT` (07 R274). -/
def walkstatWord (r : WalkRes) : Word :=
  let last (e : BitVec 64) : Nat := bits e 8 0 * 2 ^ 8 + bits e 40 12 * 2 ^ 18 + ptePkg e * 2 ^ 47
  match r with
  | .leaf e size _ => BitVec.ofNat 64 (1 + 2 * size + size / 2 * 2 ^ 4 + size % 2 * 2 ^ 17 + last e)
  | .absent lvl why e => BitVec.ofNat 64 (2 * 7 + lvl * 2 ^ 4 + why * 2 ^ 6 + last e)

/-- WALKSTAT (07 R274): bits [63:48] of the VA are not looked at (log 23). -/
def execWalkstat (d a b : BitVec 6) : State → Out := runCtl (do
  needX [d, a, b]
  xltOpen
  let s ← get
  let (_, root) ← asidOf false (s.ctl.getX b)
  let va := (s.ctl.getX a).toNat
  modify fun s => (s.walked root va).mapCtl fun c => c.setX d (walkstatWord (s.walk root va)))

/-- KEYRET (07 R275, 02 R96): the lines of the identifier are dropped in every cache, its key is cleared in every Carafe. -/
def execKeyret (a : BitVec 6) : State → Out := runCtl (do
  needX [a]
  xltOpen
  let s ← get
  let k := (s.ctl.getX a).toNat
  trapIf (k = 0 || 255 < k || s.jobs.any fun j => j.st ≠ .waiting && j.st ≠ .closing && j.key.toNat = k) .range
  modify fun s =>
    let s := s.eachCore fun c => { c with code := c.code.filter fun x => x.key.toNat ≠ k }
    { s with carafe := { s.carafe with
        keys := s.carafe.keys.filter fun x => x.id.toNat ≠ k
        retired := (BitVec.ofNat 8 k, s.chron) :: s.carafe.retired.filter fun x => x.1.toNat ≠ k } })

end Sys2Proof.Machine
end

