-- ==== Sys2Proof/Machine/System.lean ====
section
/-! DEFINITION. Code prefetch and pinning, control and status registers, child jobs (04 R158 to R161, R164, and the chapters that
own the registers). -/

namespace Sys2Proof.Machine

/-- The VAs of the lines of [va, va + n) that lie in a code section of the job (04 R159). -/
def State.codeLines (s : State) (va n : Nat) : List Nat :=
  if n = 0 then []
  else ((List.range ((va + n - 1) / 128 - va / 128 + 1)).map fun i => (va / 128 + i) * 128).filter fun l =>
    l < 2 ^ 64 && (List.range 5).any fun k => bit (BitVec.ofNat 5 (lrKmask s.lrec)) k && s.inCode k (BitVec.ofNat 64 l)

/-- The operands of the three instructions: at most 2^20 bytes (04 R159). -/
def codeRange (a b : BitVec 6) : Op (List Nat) := do
  needX [a, b]
  let s ← get
  trapIf (2 ^ 20 < (s.ctl.getX b).toNat) .range
  return s.codeLines (s.ctl.getX a).toNat (s.ctl.getX b).toNat

/-- IPF (04 R159): a line whose translation fails is skipped; one that asks for a walk is waited for. `LV` = 1 fetches to L2
only, which holds nothing the model tells apart (log 9). -/
def execIpf (a b : BitVec 6) (l : BitVec 1) : State → Out := runCtl (do
  let ls ← codeRange a b
  if l = 0 then ls.forM fun va => skipFault (do let _ ← codeData .ctl .fetch va))

/-- Pinning one line: translated for execution, added to the table, made resident and pinned (04 R159). A fault keeps the lines
pinned before. -/
def pinLine (va : Nat) : Op Unit := do
  let s ← get
  match (place .ctl .ipin 6 (BitVec.ofNat 64 va) 128).run s with
  | .ok (_, t) =>
    set (t.mapTask fun k => { k with pins := k.pins ++ [va] })
    pinResident va
  | .error (.trap t) => throw (.trapIn s t)
  | .error e => throw e

/-- ipin (04 R159) over the lines of the range: the number of lines added. -/
def pinLines : List Nat → Nat → Op Nat
  | [], n => return n
  | l :: ls, n => do
    let s ← get
    if s.core.task.pins.contains l then
      pinResident l
      pinLines ls n
    else if 256 ≤ s.core.task.pins.length then return n
    else
      pinLine l
      pinLines ls (n + 1)

/-- IPIN (04 R159). -/
def execIpin (d a b : BitVec 6) : State → Out := runCtl (do
  needX [d]
  let ls ← codeRange a b
  let n ← pinLines ls 0
  modify fun s => s.mapCtl fun c => c.setX d (BitVec.ofNat 64 n))

/-- IUNPIN (04 R159): the lines stay cached as ordinary lines. -/
def execIunpin (a b : BitVec 6) : State → Out := runCtl (do
  needX [a, b]
  let s ← get
  let va := (s.ctl.getX a).toNat
  let n := (s.ctl.getX b).toNat
  trapIf (2 ^ 20 < n) .range
  let out (l : Nat) : Bool := n ≠ 0 && l < va + n && va < l + 128
  modify fun s => s.mapCore fun c => { c with
    code := c.code.map fun x => if out x.va then { x with pinned := false } else x
    task := { c.task with pins := c.task.pins.filter fun l => !out l } })

/-- A shape fits (05 R168). -/
def shapeFits (rows cols wlog : Nat) : Bool :=
  1 ≤ rows && rows ≤ 64 && 1 ≤ cols && cols ≤ 2048 && rows * cols * (8 * 2 ^ wlog) ≤ 16384

/-- The CSRs, by owner (04 R160, R161). -/
inductive Csr where
  | core (i : Nat)
  | nfd (k : Nat)
  | rkey | vshape
  | bnpat (k i : Nat)
  | collseq | asid | ptroot | winen | winang | clsmap | txstep | nmcfg | qseq | qmapbase
  | cap (i : Nat)
  deriving DecidableEq, Repr

/-- The CSR of an index; `none` when the index is not assigned (04 R160, R161). -/
def csrOf (c : BitVec 12) : Option Csr :=
  let n := c.toNat
  if [1, 2, 3, 4, 5, 6, 8, 9, 0xA, 0xB, 0xC, 0x10, 0x11, 0x12, 0x18, 0x19, 0x1A].contains n then some (.core n)
  else if 0x40 ≤ n && n < 0x48 then some (.nfd (n - 0x40))
  else if n = 0x48 then some .rkey
  else if n = 0x100 then some .vshape
  else if 0x140 ≤ n && n < 0x180 && n % 8 ≠ 7 then some (.bnpat ((n - 0x140) / 8) (n % 8))
  else if n = 0x300 then some .collseq
  else if n = 0x400 then some .asid
  else if n = 0x401 then some .ptroot
  else if n = 0x500 then some .winen
  else if n = 0x501 then some .winang
  else if n = 0x600 then some .clsmap
  else if n = 0x700 then some .txstep
  else if n = 0x800 then some .nmcfg
  else if n = 0x900 then some .qseq
  else if n = 0x901 then some .qmapbase
  else if 0xF00 ≤ n then some (.cap n)
  else none

/-- The owner lets the control stream reach a CSR now (05 R171, 06 R244, 08 R287, 11 R371, 10 R349). -/
def State.csrOpen (s : State) (c : Csr) (write : Bool) : Bool :=
  match c with
  | .vshape | .bnpat _ _ => !s.anyForked
  | .collseq => !write && !s.anyForked
  | .winen | .winang | .nmcfg => !write
  | .qseq | .qmapbase => !s.anyForkedA
  | _ => true

/-- A CSR is privileged (04 R161, 07 R254, 12 R404). -/
def Csr.privileged (c : Csr) (write : Bool) : Bool :=
  match c with
  | .core n => 0x18 ≤ n
  | .ptroot => true
  | .clsmap => write
  | _ => false

/-- The fence map that the context reads (14 R452). -/
def State.fenceMap (s : State) : BitVec 256 :=
  if s.jobMode then (s.job.map Job.fences).getD 0 else s.fences

/-- A header of the capability list (14 R452). -/
def capHeader (id next ndata : Nat) : Nat := id + 2 ^ 8 + next * 2 ^ 16 + ndata * 2 ^ 28

/-- The capability list (14 R452). -/
def State.capWord (s : State) (i : Nat) : Nat :=
  match i with
  | 0xF00 => capHeader 1 0xF02 1
  | 0xF01 => 0x7420 + Config.stepping.toNat * 2 ^ 16 + s.pkg.toNat * 2 ^ 24
  | 0xF02 => capHeader 2 0xF07 4
  | 0xF03 => bits s.fenceMap 63 0
  | 0xF04 => bits s.fenceMap 127 64
  | 0xF05 => bits s.fenceMap 191 128
  | 0xF06 => bits s.fenceMap 255 192
  | 0xF07 => capHeader 3 0xF08 0
  | 0xF08 => capHeader 4 0xF09 0
  | 0xF09 => capHeader 5 0 1
  | 0xF0A => 16
  | _ => 0

/-- The context and core CSRs (04 R161). -/
def State.coreCsr (s : State) (i : Nat) : Nat :=
  let r := s.lrec
  match i with
  | 0x01 => s.core.task.idx
  | 0x02 => lrTasks r
  | 0x03 => s.rankOf r
  | 0x04 => (lrSeed r).toNat
  | 0x05 => lrKmask r + lrSpan r * 2 ^ 5
  | 0x06 => s.core.num
  | 0x08 => lrHeapBase r
  | 0x09 => lrHeapLim r
  | 0x0A => lrHeapOff r
  | 0x0B => lrSpsize r
  | 0x0C => s.key.toNat
  | 0x10 => s.core.task.stampbase.toNat
  | 0x11 => b2n !s.jobMode
  | 0x12 => s.core.task.pins.length
  | 0x18 => s.core.tvec.toNat
  | 0x19 => s.core.epc.toNat
  | _ => s.core.ecause.toNat

/-- Value of a CSR. -/
def State.csrGet (s : State) (c : Csr) : Nat :=
  let t := s.core.task
  match c with
  | .core i => s.coreCsr i
  | .nfd k => (t.nfd.toList.getD k 0).toNat
  | .rkey => t.rkey.toNat
  | .vshape => t.vshape.toNat
  | .bnpat k i => bits (t.bnpat.toList.getD k 0) (64 * i + 63) (64 * i)
  | .collseq => t.collseq.toNat
  | .asid => s.asid.toNat
  | .ptroot => (s.job.map fun j => j.root.toNat).getD 0
  | .winen => (List.range 16).foldl (fun m n => m + b2n (t.wins.toList.getD n Window.reset).en * 2 ^ n) 0
  | .winang => t.anglesBut 16
  | .clsmap => (s.job.map fun j => j.clsmap.toNat).getD 0
  | .txstep => t.tx.step.toNat
  | .nmcfg => b2n s.carafe.rcen + 2 * s.carafe.nextPeriod.toNat
  | .qseq => t.qseq.toNat
  | .qmapbase => t.qmapbase.toNat
  | .cap i => s.capWord i

/-- The checks of a CSR access before it waits (04 R160). -/
def csrCheck (c : BitVec 12) (write : Bool) : Op Csr := do
  let s ← get
  match csrOf c with
  | none => do
    trap .range
    return .rkey
  | some r => do
    trapIf (!s.csrOpen r write) .range
    trapIf (s.jobMode && r.privileged write) .privilege
    return r

/-- CSRR (04 R160). -/
def execCsrr (d : BitVec 6) (c : BitVec 12) : State → Out := runCtl (do
  let r ← csrCheck c false
  needX [d]
  modify fun s => s.mapCtl fun k => k.setX d (BitVec.ofNat 64 (s.csrGet r)))

/-- A CSR's own checks of a write (03 R109, R126, 05 R171, 13 R434, 10 R349). -/
def csrWriteCheck (r : Csr) (v : Word) : Op Unit := do
  let s ← get
  match r with
  | .nfd _ | .rkey => trapIf s.anyForked .range
  | .vshape =>
    if !shapeFits (bits v 6 0) (bits v 19 8) (bits v 21 20) then
      trapWith .shape 0 (bits v 6 0 * bits v 19 8 * (8 * 2 ^ bits v 21 20))
  | .txstep => trapIf (s.core.task.tx.st ≠ 0 || s.anyForkedA) .range
  | .qmapbase => trapIf (bits v 5 0 ≠ 0) .range
  | _ => pure ()

/-- The write of a CSR: read-only and reserved fields ignore the written bits (04 R160). -/
def State.csrSet (s : State) (r : Csr) (v : Word) : State :=
  match r with
  | .core 0x18 => s.mapCore fun c => { c with tvec := v }
  | .core 0x19 => s.mapCore fun c => { c with epc := v }
  | .core 0x1A => s.mapCore fun c => { c with ecause := v.setWidth 13 }
  | .nfd k => s.mapTask fun t => { t with nfd := t.nfd.set! k (v.setWidth 5) }
  | .rkey => (s.mapTask fun t => { t with rkey := v }).zeroDraws
  | .vshape => s.mapTask fun t => { t with vshape := (v &&& ~~~0x80#64).setWidth 22 }
  | .bnpat k i => s.mapTask fun t =>
      { t with bnpat := t.bnpat.set! k (setBits (t.bnpat.toList.getD k 0) (64 * i) 64 (v.setWidth 448)) }
  | .ptroot => s.mapJob fun j => { j with root := v.setWidth 41 &&& ~~~0xFFF#41 }
  | .clsmap => s.mapJob fun j => { j with clsmap := v &&& 0xFFFFFFFFFF80#64 }
  | .txstep => s.mapTx fun t => { t with step := v }
  | .qmapbase => s.mapTask fun t => { t with qmapbase := v }
  | _ => s

/-- csrw (04 R160). -/
def csrWrite (a : BitVec 6) (c : BitVec 12) : State → Out := runCtl (do
  let r ← csrCheck c true
  needX [a]
  ctlQuiet
  let s ← get
  csrWriteCheck r (s.ctl.getX a)
  modify fun s => s.csrSet r (s.ctl.getX a))

/-- CSRW (04 R160). -/
def execCsrw (a : BitVec 6) (c : BitVec 12) : State → Out := csrWrite a c

/-- RKEY_WRITE (03 R126): the `CSRW` of `RKEY`. -/
def execRkeyWrite (a : BitVec 6) : State → Out := csrWrite a 0x048

/-- NFD_WRITE (03 R109): the `CSRW` of a narrow-format descriptor. -/
def execNfdWrite (k : BitVec 3) (a : BitVec 6) : State → Out := csrWrite a (BitVec.ofNat 12 (0x040 + k.toNat))

/-- The 576 bytes of a launch record, translated in this context (04 R164); one in a window or in scratchpad raises `RANGE`
(log 28). -/
def readLaunch (va : Word) : Op (BitVec 4608) := do
  let s ← get
  if s.core.task.windowTouches va.toNat 576 then trapWith .range va.toNat 0
  let p ← place .ctl .load 6 va 576
  match p with
  | .mem segs _ => do
    let (d, bad, _) ← readSegs .ctl 0 segs
    match bad with
    | [] => return BitVec.ofNat 4608 (leNat d)
    | (_, a) :: _ => trapKeep .memUncorrectable a 0
  | _ => trapWith .range (vaOf va) 0

/-- A child job in its launch queue (04 R164): in the parent's address space, under its key. -/
def State.enqueueChild (s : State) (p : Job) (f : BitVec 6) (va : Nat) (r : BitVec 4608) : State :=
  let j := Job.new s.nextJob false r va p.asid p.root p.key p.clsmap (min (lrPrio r) p.prio) s.chron.toNat
  let j := { j with parent := some (p.id, s.core.num, s.core.task.idx, f) }
  let s : State := { s with jobs := s.jobs ++ [j], nextJob := s.nextJob + 1 }
  s.mapTask fun t => { t with children := t.children ++ [{ flag := f, job := j.id, va := lrCompl r, done := false }] }

/-- LAUNCH (04 R164). -/
def execLaunch (f a : BitVec 6) : State → Out := runCtl (do
  needX [a]
  let s ← get
  let va := s.ctl.getX a
  needAlign va 64
  let g := s.core.task.flagAt f
  trapIf (g.hold || g.cons ≠ .ctl) .range
  trapIf (s.core.task.children.any fun c => c.flag = f && !c.done) .range
  stallIf (16 ≤ (s.core.task.children.filter fun c => !c.done).length)
  ctlQuiet
  let r ← readLaunch va
  let s ← get
  let sub := s.recordFail r false
  if sub ≠ 0 then trapKeep .launch va.toNat sub
  if lrSpan s.lrec < lrSpan r || (4 < lrSpan r && lrGroup r ≠ lrGroup s.lrec) then trapKeep .range 0 0
  match s.job with
  | some p => modify fun s => s.enqueueChild p f va.toNat r
  | none => pure ())

end Sys2Proof.Machine
end

