-- ==== Sys2Proof/Machine/VecFrame.lean ====
section
/-! DEFINITION. The frame of the vector instructions: prefixes, shape, sources, masks, draws, results (05 R168 to R183, R210). -/

namespace Sys2Proof.Machine

/-- What prefixes an instruction takes (05 R182). -/
inductive PfxRule where
  | all | flush | sat | ksel | mask | merge | none
  deriving DecidableEq, Repr

/-- The prefixes of a bundle are taken (05 R182). -/
def PfxRule.takes (r : PfxRule) (p : Pfx) : Bool :=
  (match p.rnd with
    | .none => true
    | some (k, f, s, m) => match r with
      | .all => true
      | .flush => !k && !s && m = 0
      | .sat => !k && !f && m = 0
      | .ksel => !f && !s && m = 0
      | _ => false) &&
  (match p.msk with
    | .none => true
    | some (z, _) => match r with
      | .none => false
      | .merge => !z
      | _ => true)

/-- The control of a bundle: `MODE`, `SAT`, `FLUSH`, `KSEL` and the mask (05 R177, R182). -/
structure VCtl where
  mode : Nat
  sat  : Bool
  flush : Bool
  ksel : Bool
  msk  : Option (Bool × BitVec 3)
  deriving DecidableEq, Repr

/-- The control that the prefixes give; without them the defaults of R182. -/
def vctlOf (p : Option Pfx) : VCtl :=
  match p with
  | none => { mode := 0, sat := false, flush := false, ksel := false, msk := none }
  | some p => match p.rnd with
    | none => { mode := 0, sat := false, flush := false, ksel := false, msk := p.msk }
    | some (k, f, s, m) => { mode := m.toNat, sat := s, flush := f, ksel := k, msk := p.msk }

/-- The start of a vector instruction: its prefixes (05 R176). -/
def vecOpen (r : PfxRule) (t : BitVec 1) : Op VCtl := do
  let s ← get
  match s.core.vec.pfx with
  | none => pure ()
  | some p =>
    let off := (s.core.vec.s.pc - p.base).toNat
    if t = 1 then trapWith .orphanPrefix p.base.toNat off
    if !r.takes p then trapWith .badPrefix p.base.toNat off
  return vctlOf s.core.vec.pfx

/-- The stream past a word, its bundle done. -/
def State.vecDone (s : State) (n : Nat) : State := s.mapVec fun v => { v with s := v.s.skip n, pfx := none }

/-- A vector instruction of `n` bytes. -/
def vecOp (r : PfxRule) (t : BitVec 1) (n : Nat) (body : VCtl → Op Unit) : State → Out :=
  runOp .vec (do
    let c ← vecOpen r t
    body c
    modify fun s => s.vecDone n)

/-- A result on its way touches a register of the vector engine (05 R210). -/
def Vec.awaits (v : Vec) (f : RegWrite → Bool) : Bool := v.out.any fun o => o.2.any f

/-- Waits until vector registers have been written (05 R210). -/
def needV (rs : List (BitVec 5)) : Op Unit := do
  let s ← get
  stallIf (s.core.vec.awaits fun w => match w with
    | .v d _ => rs.contains d
    | _ => false)

/-- Waits until mask registers have been written. -/
def needM (rs : List (BitVec 3)) : Op Unit := do
  let s ← get
  stallIf (s.core.vec.awaits fun w => match w with
    | .m d _ => rs.contains d
    | _ => false)

/-- Waits until scalar registers of the vector stream have been written. -/
def needVX (rs : List (BitVec 5)) : Op Unit := do
  let s ← get
  stallIf (s.core.vec.awaits fun w => match w with
    | .x d _ => rs.any fun r => r.setWidth 6 = d
    | _ => false)

/-- A scalar register of the vector stream. -/
def rdVX (r : BitVec 5) : Op Word := do
  needVX [r]
  let s ← get
  return s.core.vec.s.getX r

/-- A result enters the engine's pipeline: the registers are written when it completes (05 R211). -/
def vecResult (ws : List RegWrite) : Op Unit := do
  let q ← nextSeq
  modify fun s => s.mapVec fun v => { v with out := v.out ++ [(q, ws)] }

/-- `ROWS` of a shape word. -/
def shRows (v : BitVec 22) : Nat := bits v 6 0
/-- `COLS` of a shape word. -/
def shCols (v : BitVec 22) : Nat := bits v 19 8
/-- Element width of a shape word. -/
def shW (v : BitVec 22) : Nat := 8 * 2 ^ bits v 21 20
/-- N of a shape word. -/
def shN (v : BitVec 22) : Nat := shRows v * shCols v

/-- The shape in force (05 R168, R181): `SHAPE` when it does not fit or the type's width is another. -/
def vecShape (tw : Option Nat) : Op (BitVec 22) := do
  let s ← get
  let v := s.core.task.vshape
  if !shapeFits (shRows v) (shCols v) (bits v 21 20) || (match tw with | some w => w ≠ shW v | none => false) then
    trapWith .shape 0 (shN v * shW v)
  return v

/-- A source field names a stream register (05 R180). -/
def srcQ (f : BitVec 6) : Option (BitVec 3) := if bit f 5 then some (f.setWidth 3) else none

/-- The source registers, each entry of a stream register popped and checked against the bytes its naming reads
(05 R172, R183); `SHAPE` reports those bytes in bits (05 R212; for `BNLOAD`, which has no N × w, log 16). -/
def vecSources (fs : List (BitVec 6 × Nat)) : Op (List VReg) := do
  needV ((fs.filter fun f => (srcQ f.1).isNone).map fun f => f.1.setWidth 5)
  let s ← get
  let qs := fs.filterMap fun f => srcQ f.1
  if qs.any (fun q => (s.core.vec.q.toList.getD q.toNat []).length < (qs.filter fun p => p = q).length) then stallBlocked
  fs.mapM fun f => do
    let s ← get
    match srcQ f.1 with
    | none => return s.core.vec.v.toList.getD f.1.toNat 0
    | some q => match s.core.vec.q.toList.getD q.toNat [] with
      | [] => stallBlocked
      | e :: rest => do
        if e.len ≠ f.2 then trapWith .shape 0 (8 * f.2)
        set (s.mapVec fun v => { v with q := v.q.set! q.toNat rest })
        return e.data

/-- The key of a draw (03 R126, 13 R419). -/
def drawKey (ksel : Bool) : Op Word := do
  let s ← get
  if ksel then
    trapIf (s.core.task.tx.st = 0) .txState
    return s.stepKeyOf
  else return s.core.task.rkey

/-- One value of the vector stream's draw counter: the draws of its elements in a domain (03 R125). -/
def vecDraw (ksel : Bool) (domain : Nat) : Op (Nat → Mix) := do
  let key ← drawKey ksel
  let s ← get
  let dc := s.core.vec.s.draw
  set (s.mapVec fun v => { v with s := { v.s with draw := dc + 1 } })
  return fun e => drawMix key 1 s.core.task.idx dc domain e

/-- The random bits of a rounding: drawn under a stochastic mode only (05 R183). -/
def vecRound (c : VCtl) : Op (Nat → Nat) := do
  if c.mode = 5 || c.mode = 6 then
    let d ← vecDraw c.ksel 3
    return fun e => (d e).1.toNat % 16
  else return fun _ => 0

/-- Element `e` of width `w` of a register (05 R169). -/
def vget {n : Nat} (v : BitVec n) (w e : Nat) : Nat := (v.extractLsb' (e * w) w).toNat

/-- Numbers of width `w` packed from bit 0 up. -/
def packNat (w : Nat) (l : List Nat) : Nat := l.foldr (fun x a => x % 2 ^ w + a * 2 ^ w) 0

/-- A register with its elements 0 to N − 1 replaced; the bits above keep their values (05 R169). -/
def vput (old : VReg) (w n : Nat) (f : Nat → Nat) : VReg :=
  ((old >>> (n * w)) <<< (n * w)) ||| BitVec.ofNat 16384 (packNat w ((List.range n).map f))

/-- The mask of a bundle, waiting for its register: an element is active (05 R183). -/
def vecMask (c : VCtl) : Op (Nat → Bool) := do
  match c.msk with
  | none => return fun _ => true
  | some (_, k) => do
    needM [k]
    let s ← get
    let m := s.core.vec.m.toList.getD k.toNat 0
    return fun e => bit m e

/-- `ZERO` of a bundle's mask. -/
def VCtl.zero (c : VCtl) : Bool := match c.msk with | some (z, _) => z | none => false

/-- The frame of R183 for a vector destination: `tw` the width of the type (none: no type), `srcs` the sources, `rounds` whether it
rounds, `f w es old rb` the new element from those of the sources, the old one and the random bits. -/
def elementwise (r : PfxRule) (t : BitVec 1) (n : Nat) (d : BitVec 5) (tw : Option Nat) (srcs : List (BitVec 6)) (rounds : Bool)
    (pre : Nat → Op Unit) (f : VCtl → Nat → List Nat → Nat → Nat → Nat) : State → Out :=
  vecOp r t n (fun c => do
    let v ← vecShape tw
    let w := shW v
    let k := shN v
    pre w
    needV [d]
    let act ← vecMask c
    let s ← get
    let old := s.core.vec.v.toList.getD d.toNat 0
    let ss ← vecSources (srcs.map fun x => (x, k * w / 8))
    let rb ← if rounds then vecRound c else pure fun _ => 0
    vecResult [.v d (vput old w k fun e =>
      if act e then f c w (ss.map fun x => vget x w e) (vget old w e) (rb e) else if c.zero then 0 else vget old w e)])

/-- The frame of R183 for a mask destination: the bits from N up are cleared. -/
def elementMask (r : PfxRule) (t : BitVec 1) (d : BitVec 3) (tw : Option Nat) (srcs : List (BitVec 6))
    (f : VCtl → Nat → List Nat → Bool) : State → Out :=
  vecOp r t 4 (fun c => do
    let v ← vecShape tw
    let w := shW v
    let k := shN v
    needM [d]
    let act ← vecMask c
    let s ← get
    let old := s.core.vec.m.toList.getD d.toNat 0
    let ss ← vecSources (srcs.map fun x => (x, k * w / 8))
    let g (e : Nat) : Bool :=
      if act e then f c w (ss.map fun x => vget x w e) else if c.zero then false else bit old e
    vecResult [.m d (BitVec.ofNat 2048 (packNat 1 ((List.range k).map fun e => b2n (g e))))])

/-- The floating type of a `TY` (05 R181). -/
def vfmt (y : BitVec 3) : Fmt := if y = 0 then fmt32 else if y = 1 then fmtBf else if y = 2 then fmt16 else fmt64

/-- Width of the integer type of a `TY` (05 R181). -/
def viW (y : BitVec 3) : Nat := 8 * 2 ^ (y.toNat % 4)

/-- An element read under the signedness of a `TY`. -/
def viVal (y : BitVec 3) (x : Nat) : Int := if bit y 2 then sval (viW y) x else (x : Int)

/-- A floating code after `FLUSH` (03 R114). -/
def flushCode (F : Fmt) (flush : Bool) (c : Nat) : Nat :=
  let (s, b) := F.split c
  if flush && F.flushes && b < 2 ^ (F.prec - 1) then (if s then 2 ^ (F.width - 1) else 0) else c

/-- VECTOR_COMPLETION (05 R210, R211): the oldest instruction of the pipeline writes its results. -/
def execVectorCompletion (s : State) : Out :=
  match s.core.vec.out with
  | [] => .next s
  | (_, ws) :: rest =>
    let put (v : Vec) (w : RegWrite) : Vec := match w with
      | .v d x => { v with v := v.v.set! d.toNat x }
      | .m d x => { v with m := v.m.set! d.toNat x }
      | .x d x => { v with s := v.s.setX (d.setWidth 5) x }
    .next (s.mapVec fun v => ws.foldl put { v with out := rest }).applyAdds

end Sys2Proof.Machine
end

