-- ==== Sys2Proof/Machine/VecOps.lean ====
section
/-! DEFINITION. The vector engine's arithmetic, comparisons, conversions, reductions, layout forms, bit network and masks
(05 R184 to R200, R205). -/

namespace Sys2Proof.Machine

/-- An element of a source, by its place among the sources. -/
def el (es : List Nat) (k : Nat) : Nat := es.getD k 0

/-- A floating operation rounded once (05 R185, R186). -/
def fpOp (n : Nat) (d : BitVec 5) (srcs : List (BitVec 6)) (y : BitVec 3) (t : BitVec 1) (f : Bool → List Exact → Exact) : State → Out :=
  elementwise .all t n d (some (vfmt y).width) srcs true (fun _ => pure ()) fun c _ es _ rb =>
    roundFull (vfmt y) c.mode c.sat c.flush (f (c.mode = 3) (es.map ((vfmt y).operand c.flush))) rb

/-- An operand among the exact values of the sources. -/
def ex (l : List Exact) (k : Nat) : Exact := l.getD k .nan

/-- An exact form: it gives one of its operands, after the flush, and never rounds (05 R187). -/
def fpExact (d : BitVec 5) (srcs : List (BitVec 6)) (y : BitVec 3) (t : BitVec 1) (f : Fmt → List Nat → Nat) : State → Out :=
  elementwise .flush t 4 d (some (vfmt y).width) srcs false (fun _ => pure ()) fun c _ es _ _ =>
    f (vfmt y) (es.map (flushCode (vfmt y) c.flush))

/-- A code is a NaN. -/
def isNanCode (F : Fmt) (c : Nat) : Bool := (F.decode c).isNan

/-- The order of codes that are not NaN, with −0 below +0 (05 R187). -/
def codeKey (F : Fmt) (c : Nat) : Int :=
  let (s, b) := F.split c
  if s then -(b : Int) - 1 else b

/-- The lesser or greater of two codes (05 R187). -/
def fpPick (F : Fmt) (greater : Bool) (a b : Nat) : Nat :=
  if isNanCode F a || isNanCode F b then F.nanc
  else if greater then (if codeKey F a < codeKey F b then b else a)
  else (if codeKey F b < codeKey F a then b else a)

/-- The magnitude of a code. -/
def codeMag (F : Fmt) (c : Nat) : Nat := c % 2 ^ (F.width - 1)

/-- An integer operation on w-bit elements (05 R190). -/
def intOp (r : PfxRule) (n : Nat) (d : BitVec 5) (srcs : List (BitVec 6)) (y : BitVec 3) (t : BitVec 1)
    (f : VCtl → Nat → List Nat → Nat) : State → Out :=
  elementwise r t n d (some (viW y)) srcs false (fun _ => pure ()) fun c w es _ _ => f c w es

/-- An exact integer result, wrapped or clamped (05 R190, R191). -/
def intFit (c : VCtl) (y : BitVec 3) (v : Int) : Nat :=
  if c.sat then clampTo (bit y 2) (viW y) v else wrapTo (viW y) v

/-- VADD (05 R184, R185). -/
def execVadd (d : BitVec 5) (a b : BitVec 6) (y : BitVec 3) (t : BitVec 1) : State → Out :=
  fpOp 4 d [a, b] y t fun rdn l => Exact.add rdn (ex l 0) (ex l 1)

/-- VSUB (05 R184, R185). -/
def execVsub (d : BitVec 5) (a b : BitVec 6) (y : BitVec 3) (t : BitVec 1) : State → Out :=
  fpOp 4 d [a, b] y t fun rdn l => Exact.add rdn (ex l 0) (ex l 1).neg

/-- VMUL (05 R184, R185). -/
def execVmul (d : BitVec 5) (a b : BitVec 6) (y : BitVec 3) (t : BitVec 1) : State → Out :=
  fpOp 4 d [a, b] y t fun rdn l => let _ := rdn; Exact.mul (ex l 0) (ex l 1)

/-- VDIV (05 R184, R185). -/
def execVdiv (d : BitVec 5) (a b : BitVec 6) (y : BitVec 3) (t : BitVec 1) : State → Out :=
  fpOp 4 d [a, b] y t fun rdn l => let _ := rdn; Exact.div (ex l 0) (ex l 1)

/-- VSQRT (05 R184, R185). -/
def execVsqrt (d : BitVec 5) (a : BitVec 6) (y : BitVec 3) (t : BitVec 1) : State → Out :=
  fpOp 4 d [a] y t fun _ l => Exact.sqrt (ex l 0)

/-- VRCP (05 R184, R185). -/
def execVrcp (d : BitVec 5) (a : BitVec 6) (y : BitVec 3) (t : BitVec 1) : State → Out :=
  fpOp 4 d [a] y t fun _ l => Exact.rcp (ex l 0)

/-- VEXP2 (05 R184, R185; log 10). -/
def execVexp2 (d : BitVec 5) (a : BitVec 6) (y : BitVec 3) (t : BitVec 1) : State → Out :=
  fpOp 4 d [a] y t fun _ l => Exact.exp2 (ex l 0)

/-- VLOG2 (05 R184, R185; log 10). -/
def execVlog2 (d : BitVec 5) (a : BitVec 6) (y : BitVec 3) (t : BitVec 1) : State → Out :=
  fpOp 4 d [a] y t fun _ l => Exact.log2 (ex l 0)

/-- VMIN (05 R187). -/
def execVmin (d : BitVec 5) (a b : BitVec 6) (y : BitVec 3) (t : BitVec 1) : State → Out :=
  fpExact d [a, b] y t fun F l => fpPick F false (el l 0) (el l 1)

/-- VMAX (05 R187). -/
def execVmax (d : BitVec 5) (a b : BitVec 6) (y : BitVec 3) (t : BitVec 1) : State → Out :=
  fpExact d [a, b] y t fun F l => fpPick F true (el l 0) (el l 1)

/-- VCPS (05 R187). -/
def execVcps (d : BitVec 5) (a b : BitVec 6) (y : BitVec 3) (t : BitVec 1) : State → Out :=
  fpExact d [a, b] y t fun F l => 
    if isNanCode F (el l 0) then F.nanc else codeMag F (el l 0) + (if (el l 1).testBit (F.width - 1) then 2 ^ (F.width - 1) else 0)

/-- VABS (05 R187). -/
def execVabs (d : BitVec 5) (a : BitVec 6) (y : BitVec 3) (t : BitVec 1) : State → Out :=
  fpExact d [a] y t fun F l => if isNanCode F (el l 0) then F.nanc else codeMag F (el l 0)

/-- VNEG (05 R187). -/
def execVneg (d : BitVec 5) (a : BitVec 6) (y : BitVec 3) (t : BitVec 1) : State → Out :=
  fpExact d [a] y t fun F l => 
    if isNanCode F (el l 0) then F.nanc else codeMag F (el l 0) + (if (el l 0).testBit (F.width - 1) then 0 else 2 ^ (F.width - 1))

/-- VFMA (05 R186). -/
def execVfma (d : BitVec 5) (a b c : BitVec 6) (y : BitVec 3) (t : BitVec 1) : State → Out :=
  fpOp 8 d [a, b, c] y t fun rdn l => exactSum rdn [Exact.mul (ex l 0) (ex l 1), ex l 2]

/-- VFMS (05 R186). -/
def execVfms (d : BitVec 5) (a b c : BitVec 6) (y : BitVec 3) (t : BitVec 1) : State → Out :=
  fpOp 8 d [a, b, c] y t fun rdn l => exactSum rdn [Exact.mul (ex l 0) (ex l 1), (ex l 2).neg]

/-- VNFMA (05 R186). -/
def execVnfma (d : BitVec 5) (a b c : BitVec 6) (y : BitVec 3) (t : BitVec 1) : State → Out :=
  fpOp 8 d [a, b, c] y t fun rdn l => exactSum rdn [(Exact.mul (ex l 0) (ex l 1)).neg, ex l 2]

/-- A floating condition (05 R188). -/
def fpCond (k : Nat) (a b : Exact) : Bool :=
  let u := a.isNan || b.isNan
  match k with
  | 0 => !u && a.eq b
  | 1 => u || !a.eq b
  | 2 => !u && a.lt b
  | 3 => !u && !a.lt b
  | 4 => !u && !b.lt a
  | 5 => !u && b.lt a
  | 6 => u
  | _ => !u

/-- VCMP, floating (05 R188). -/
def execVcmp (m : BitVec 3) (a b : BitVec 6) (y : BitVec 3) (k : BitVec 4) (t : BitVec 1) : State → Out :=
  elementMask .flush t m (some (vfmt y).width) [a, b] fun c _ es =>
    fpCond k.toNat ((vfmt y).operand c.flush (el es 0)) ((vfmt y).operand c.flush (el es 1))

/-- An integer condition (05 R188). -/
def intCond (k : Nat) (a b : Int) : Bool :=
  match k with
  | 0 => a = b
  | 1 => a ≠ b
  | 2 => a < b
  | 3 => b ≤ a
  | 4 => a ≤ b
  | _ => b < a

/-- VCMP, integer (05 R188). -/
def execVcmpInt (m : BitVec 3) (a b : BitVec 6) (y : BitVec 3) (k : BitVec 4) (t : BitVec 1) : State → Out :=
  elementMask .mask t m (some (viW y)) [a, b] fun _ _ es => intCond k.toNat (viVal y (el es 0)) (viVal y (el es 1))

/-- VSEL (05 R189). -/
def execVsel (d : BitVec 5) (a b : BitVec 6) (k : BitVec 3) (t : BitVec 1) : State → Out :=
  vecOp .none t 4 (fun _ => do
    let v ← vecShape none
    needV [d]
    needM [k]
    let s ← get
    let m := s.core.vec.m.toList.getD k.toNat 0
    let ss ← vecSources [(a, shN v * shW v / 8), (b, shN v * shW v / 8)]
    vecResult [.v d (vput (s.core.vec.v.toList.getD d.toNat 0) (shW v) (shN v) fun e =>
      vget (ss.getD (if bit m e then 0 else 1) 0) (shW v) e)])

/-- VIADD (05 R190). -/
def execViadd (d : BitVec 5) (a b : BitVec 6) (y : BitVec 3) (t : BitVec 1) : State → Out :=
  intOp .sat 4 d [a, b] y t fun c _ l => intFit c y (viVal y (el l 0) + viVal y (el l 1))

/-- VISUB (05 R190). -/
def execVisub (d : BitVec 5) (a b : BitVec 6) (y : BitVec 3) (t : BitVec 1) : State → Out :=
  intOp .sat 4 d [a, b] y t fun c _ l => intFit c y (viVal y (el l 0) - viVal y (el l 1))

/-- VIMUL (05 R190). -/
def execVimul (d : BitVec 5) (a b : BitVec 6) (y : BitVec 3) (t : BitVec 1) : State → Out :=
  intOp .sat 4 d [a, b] y t fun c _ l => intFit c y (viVal y (el l 0) * viVal y (el l 1))

/-- VSHL (05 R190). -/
def execVshl (d : BitVec 5) (a b : BitVec 6) (y : BitVec 3) (t : BitVec 1) : State → Out :=
  intOp .mask 4 d [a, b] y t fun _ w l => el l 0 <<< (el l 1 % w)

/-- VSHR (05 R190). -/
def execVshr (d : BitVec 5) (a b : BitVec 6) (y : BitVec 3) (t : BitVec 1) : State → Out :=
  intOp .mask 4 d [a, b] y t fun _ w l => el l 0 >>> (el l 1 % w)

/-- VSAR (05 R190). -/
def execVsar (d : BitVec 5) (a b : BitVec 6) (y : BitVec 3) (t : BitVec 1) : State → Out :=
  intOp .mask 4 d [a, b] y t fun _ w l => wrapTo w (sval w (el l 0) >>> (el l 1 % w))

/-- VAND (05 R190). -/
def execVand (d : BitVec 5) (a b : BitVec 6) (y : BitVec 3) (t : BitVec 1) : State → Out :=
  intOp .mask 4 d [a, b] y t fun _ _ l => el l 0 &&& el l 1

/-- VOR (05 R190). -/
def execVor (d : BitVec 5) (a b : BitVec 6) (y : BitVec 3) (t : BitVec 1) : State → Out :=
  intOp .mask 4 d [a, b] y t fun _ _ l => el l 0 ||| el l 1

/-- VXOR (05 R190). -/
def execVxor (d : BitVec 5) (a b : BitVec 6) (y : BitVec 3) (t : BitVec 1) : State → Out :=
  intOp .mask 4 d [a, b] y t fun _ _ l => el l 0 ^^^ el l 1

/-- VPOPC (05 R190). -/
def execVpopc (d : BitVec 5) (a : BitVec 6) (y : BitVec 3) (t : BitVec 1) : State → Out :=
  intOp .mask 4 d [a] y t fun _ w l => popcount (BitVec.ofNat w (el l 0))

/-- VCLZ (05 R190). -/
def execVclz (d : BitVec 5) (a : BitVec 6) (y : BitVec 3) (t : BitVec 1) : State → Out :=
  intOp .mask 4 d [a] y t fun _ w l => clz (BitVec.ofNat w (el l 0))

/-- VIMAD (05 R191). -/
def execVimad (d : BitVec 5) (a b c : BitVec 6) (y : BitVec 3) (t : BitVec 1) : State → Out :=
  intOp .sat 8 d [a, b, c] y t fun k _ l => intFit k y (viVal y (el l 0) * viVal y (el l 1) + viVal y (el l 2))

/-- A bit field extended to `w` bits (05 R192, 04 R143). -/
def vfield (y : BitVec 3) (w x o k : Nat) : Nat :=
  let f := x / 2 ^ o % 2 ^ k
  if bit y 2 then wrapTo w (sval k f) else f

/-- The limits of a field of `k` bits at `o` in `lim` bits (05 R192). -/
def vfieldOk (o k lim : Nat) : Op Unit := trapIf (k = 0 || lim < o + k) .range

/-- VBFX (05 R192). -/
def execVbfx (d : BitVec 5) (a : BitVec 6) (y : BitVec 3) (o : BitVec 6) (k : BitVec 7) (t : BitVec 1) : State → Out :=
  elementwise .mask t 8 d (some (viW y)) [a] false (fun w => vfieldOk o.toNat k.toNat w) fun _ w es _ _ =>
    vfield y w (el es 0) o.toNat k.toNat

/-- VBFI (05 R192). -/
def execVbfi (d : BitVec 5) (a : BitVec 6) (y : BitVec 3) (o : BitVec 6) (k : BitVec 7) (t : BitVec 1) : State → Out :=
  elementwise .mask t 8 d (some (viW y)) [a] false (fun w => vfieldOk o.toNat k.toNat w) fun _ _ es old _ =>
    let hole := (2 ^ k.toNat - 1) <<< o.toNat
    (old - (old &&& hole)) + clampTo (bit y 2) k.toNat (viVal y (el es 0)) * 2 ^ o.toNat

/-- VFSH (05 R192). -/
def execVfsh (d : BitVec 5) (a b : BitVec 6) (y : BitVec 3) (o : BitVec 6) (k : BitVec 7) (t : BitVec 1) : State → Out :=
  elementwise .mask t 8 d (some (viW y)) [a, b] false
    (fun w => do vfieldOk o.toNat k.toNat (2 * w); trapIf (w < k.toNat) .range) fun _ w es _ _ =>
    vfield y w (el es 0 * 2 ^ w + el es 1) o.toNat k.toNat

/-- VCVT (05 R193): the shape gives N only. -/
def execVcvt (d : BitVec 5) (a : BitVec 6) (dt st : BitVec 5) (t : BitVec 1) : State → Out :=
  vecOp .all t 8 (fun c => do
    let s ← get
    let v := s.core.task.vshape
    let n := shN v
    let ts := vecTy s.core.task.nfd st
    let td := vecTy s.core.task.nfd dt
    if 16384 < n * ts.width then trapWith .shape 0 (n * ts.width)
    if 16384 < n * td.width then trapWith .shape 0 (n * td.width)
    trapIf (nfdUnset s.core.task.nfd st || nfdUnset s.core.task.nfd dt) .range
    needV [d]
    let act ← vecMask c
    let ss ← vecSources [(a, n * ts.width / 8)]
    let rb ← vecRound c
    let old := s.core.vec.v.toList.getD d.toNat 0
    vecResult [.v d (vput old td.width n fun e =>
      if act e then convert td ts c.mode c.sat c.flush (vget (ss.getD 0 0) ts.width e) (rb e)
      else if c.zero then 0 else vget old td.width e)])

/-- The positions of the inputs of result `j` (05 R194). -/
def redInputs (v : BitVec 22) (col : Bool) (j : Nat) : List Nat :=
  if col then (List.range (shRows v)).map fun r => r * shCols v + j else (List.range (shCols v)).map fun k => j * shCols v + k

/-- A reduction (05 R194, R195): `f` gives the result of the active inputs and its random bits. -/
def vecReduce (r : PfxRule) (d : BitVec 5) (a : BitVec 6) (w : Nat) (col t : BitVec 1) (rounds : Bool)
    (f : VCtl → List Nat → Nat → Nat) : State → Out :=
  vecOp r t 4 (fun c => do
    let v ← vecShape (some w)
    needV [d]
    let act ← vecMask c
    let s ← get
    let ss ← vecSources [(a, shN v * w / 8)]
    let rb ← if rounds then vecRound c else pure fun _ => 0
    let n := if col = 1 then shCols v else shRows v
    vecResult [.v d (vput (s.core.vec.v.toList.getD d.toNat 0) w (shN v) fun j =>
      if j < n then f c (((redInputs v (col = 1) j).filter act).map fun e => vget (ss.getD 0 0) w e) (rb j) else 0)])

/-- The greatest or least of floating codes, qnan among none or with a NaN (05 R195). -/
def fpBest (F : Fmt) (greater : Bool) (l : List Nat) : Nat :=
  match l with
  | [] => F.nanc
  | x :: xs => xs.foldl (fpPick F greater) (if isNanCode F x then F.nanc else x)

/-- The greatest or least of integers; among none the end of the range (05 R195). -/
def intBest (y : BitVec 3) (greater : Bool) (l : List Nat) : Nat :=
  let w := viW y
  let ends : Int := if greater then (if bit y 2 then -((2 ^ (w - 1) : Nat) : Int) else 0)
    else (if bit y 2 then ((2 ^ (w - 1) : Nat) : Int) - 1 else ((2 ^ w : Nat) : Int) - 1)
  wrapTo w ((l.map (viVal y)).foldl (fun a b => if greater then max a b else min a b) ends)

/-- VREDSUM (05 R195, 03 R119, R122). -/
def execVredsum (d : BitVec 5) (a : BitVec 6) (y : BitVec 3) (g r t : BitVec 1) : State → Out :=
  if g = 0 then vecReduce .all d a (vfmt y).width r t true fun c l rb =>
    roundFull (vfmt y) c.mode c.sat c.flush (exactSum (c.mode = 3) (l.map ((vfmt y).operand c.flush))) rb
  else vecReduce .mask d a (viW y) r t false fun _ l _ => (l.foldl (· + ·) 0) % 2 ^ viW y

/-- The two extreme reductions (05 R195). -/
def redBest (greater : Bool) (d : BitVec 5) (a : BitVec 6) (y : BitVec 3) (g r t : BitVec 1) : State → Out :=
  if g = 0 then vecReduce .flush d a (vfmt y).width r t false fun c l _ =>
    fpBest (vfmt y) greater (l.map (flushCode (vfmt y) c.flush))
  else vecReduce .mask d a (viW y) r t false fun _ l _ => intBest y greater l

/-- VREDMAX (05 R195). -/
def execVredmax (d : BitVec 5) (a : BitVec 6) (y : BitVec 3) (g r t : BitVec 1) : State → Out := redBest true d a y g r t

/-- VREDMIN (05 R195). -/
def execVredmin (d : BitVec 5) (a : BitVec 6) (y : BitVec 3) (g r t : BitVec 1) : State → Out := redBest false d a y g r t

/-- VMOV (05 R196). -/
def execVmov (d : BitVec 5) (a : BitVec 6) (t : BitVec 1) : State → Out :=
  elementwise .mask t 4 d none [a] false (fun _ => pure ()) fun _ _ es _ _ => el es 0

/-- VBCAST of a scalar register (05 R196). -/
def execVbcast (d r : BitVec 5) (t : BitVec 1) (s : State) : Out :=
  if s.core.vec.awaits (fun w => match w with | .x k _ => r.setWidth 6 = k | _ => false) then .next s
  else elementwise .mask t 4 d none [] false (fun _ => pure ()) (fun _ w _ _ _ => (s.core.vec.s.getX r).toNat % 2 ^ w) s

/-- The value of `VBCAST` immediate on w-bit elements (05 R197). -/
def bcastImm (i : BitVec 32) (h : BitVec 1) (w : Nat) : Nat :=
  if w ≤ 32 then i.toNat % 2 ^ w else if h = 1 then i.toNat * 2 ^ 32 else (i.signExtend 64).toNat

/-- VBCAST of an immediate (05 R197). -/
def execVbcastImm (d : BitVec 5) (i : BitVec 32) (h : BitVec 1) (t : BitVec 1) : State → Out :=
  elementwise .mask t 8 d none [] false (fun _ => pure ()) fun _ w _ _ _ => bcastImm i h w

/-- A layout form without prefixes (05 R196): `f rows cols r c` gives the position of the element that goes to (r, c). -/
def vecLayout (d : BitVec 5) (a : BitVec 6) (t : BitVec 1) (rs : List (BitVec 5)) (square : Bool)
    (f : Vec → Nat → Nat → Nat → Nat → Nat) : State → Out :=
  vecOp .none t 4 (fun _ => do
    let v ← vecShape none
    if square && shRows v ≠ shCols v then trapWith .shape 0 (shN v * shW v)
    needV [d]
    needVX rs
    let s ← get
    let ss ← vecSources [(a, shN v * shW v / 8)]
    vecResult [.v d (vput (s.core.vec.v.toList.getD d.toNat 0) (shW v) (shN v) fun e =>
      vget (ss.getD 0 0) (shW v) (f s.core.vec (shRows v) (shCols v) (e / shCols v) (e % shCols v)))])

/-- VTRANS (05 R196). -/
def execVtrans (d : BitVec 5) (a : BitVec 6) (t : BitVec 1) : State → Out :=
  vecLayout d a t [] true fun _ _ cols r c => c * cols + r

/-- VROT.ROW (05 R196). -/
def execVrotRow (d : BitVec 5) (a : BitVec 6) (x : BitVec 5) (t : BitVec 1) : State → Out :=
  vecLayout d a t [x] false fun v _ cols r c => r * cols + (c + (v.s.getX x).toNat % cols) % cols

/-- VROT.COL (05 R196). -/
def execVrotCol (d : BitVec 5) (a : BitVec 6) (x : BitVec 5) (t : BitVec 1) : State → Out :=
  vecLayout d a t [x] false fun v rows cols r c => (r + (v.s.getX x).toNat % rows) % rows * cols + c

/-- VPERM (05 R196). -/
def execVperm (d : BitVec 5) (a b : BitVec 6) (t : BitVec 1) : State → Out :=
  vecOp .none t 4 (fun _ => do
    let v ← vecShape none
    let n := shN v
    let w := shW v
    needV [d]
    let s ← get
    let ss ← vecSources [(a, n * w / 8), (b, n * w / 8)]
    vecResult [.v d (vput (s.core.vec.v.toList.getD d.toNat 0) w n fun e =>
      let i := vget (ss.getD 1 0) w e
      if i < n then vget (ss.getD 0 0) w i else 0)])

/-- VSHAPESET (05 R198). -/
def execVshapeset (r : BitVec 7) (c : BitVec 12) (wl : BitVec 2) (t : BitVec 1) : State → Out :=
  vecOp .none t 4 (fun _ => do
    if !shapeFits r.toNat c.toNat wl.toNat then trapWith .shape 0 (r.toNat * c.toNat * (8 * 2 ^ wl.toNat))
    modify fun s => s.mapTask fun k => { k with vshape := wl ++ c ++ 0#1 ++ r })

/-- A chunk of the bit network (05 R199). -/
def bnetChunk (p : BitVec 448) (a b : Nat) : Nat :=
  let src := b * 2 ^ 64 + a
  packNat 1 ((List.range 64).map fun k => b2n (src.testBit (vget p 7 k)))

/-- BNET (05 R199): an entry of a stream register must hold 2,048 bytes (log 16); the bytes of `vd` behind its 32 chunks, whose value
the rule does not give, take free values (log 6). -/
def execBnet (d : BitVec 5) (a b : BitVec 6) (p : BitVec 3) (t : BitVec 1) : State → Out :=
  vecOp .none t 4 (fun _ => do
    needV [d]
    let s ← get
    let ss ← vecSources [(a, 2048), (b, 2048)]
    let q := s.core.task.bnpat.toList.getD p.toNat 0
    modify fun s => { s with free := s.free + 256 }
    vecResult [.v d (vput (vput 0 64 256 fun j => (Config.freeWord (s.free + j)).toNat) 64 32 fun j =>
      bnetChunk q (vget (ss.getD 0 0) 64 j) (vget (ss.getD 1 0) 64 j))])

/-- BNLOAD (05 R200). -/
def execBnload (a : BitVec 6) (p : BitVec 3) (t : BitVec 1) : State → Out :=
  vecOp .none t 4 (fun _ => do
    let ss ← vecSources [(a, 56)]
    modify fun s => s.mapTask fun k => { k with bnpat := k.bnpat.set! p.toNat ((ss.getD 0 0).setWidth 448) })

/-- A mask instruction with a mask result (05 R205). -/
def maskOp (d : BitVec 3) (srcs : List (BitVec 3)) (t : BitVec 1) (f : List MReg → MReg) : State → Out :=
  vecOp .none t 4 (fun _ => do
    let v ← vecShape none
    needM (d :: srcs)
    let s ← get
    let ms := srcs.map fun k => s.core.vec.m.toList.getD k.toNat 0
    vecResult [.m d (f ms &&& BitVec.ofNat 2048 (2 ^ shN v - 1))])

/-- MAND (05 R205). -/
def execMand (d a b : BitVec 3) (t : BitVec 1) : State → Out := maskOp d [a, b] t fun l => l.getD 0 0 &&& l.getD 1 0
/-- MOR (05 R205). -/
def execMor (d a b : BitVec 3) (t : BitVec 1) : State → Out := maskOp d [a, b] t fun l => l.getD 0 0 ||| l.getD 1 0
/-- MXOR (05 R205). -/
def execMxor (d a b : BitVec 3) (t : BitVec 1) : State → Out := maskOp d [a, b] t fun l => l.getD 0 0 ^^^ l.getD 1 0
/-- MNOT (05 R205). -/
def execMnot (d a : BitVec 3) (t : BitVec 1) : State → Out := maskOp d [a] t fun l => ~~~(l.getD 0 0)

/-- A mask instruction with a scalar result (05 R205). -/
def maskScalar (d : BitVec 5) (a : BitVec 3) (t : BitVec 1) (f : MReg → Nat → Word) : State → Out :=
  vecOp .none t 4 (fun _ => do
    let v ← vecShape none
    needM [a]
    needVX [d]
    let s ← get
    vecResult [.x (d.setWidth 6) (f (s.core.vec.m.toList.getD a.toNat 0) (shN v))])

/-- MPOPC (05 R205). -/
def execMpopc (d : BitVec 5) (a : BitVec 3) (t : BitVec 1) : State → Out :=
  maskScalar d a t fun m n => BitVec.ofNat 64 (popcount (m &&& BitVec.ofNat 2048 (2 ^ n - 1)))

/-- MFIRST (05 R205). -/
def execMfirst (d : BitVec 5) (a : BitVec 3) (t : BitVec 1) : State → Out :=
  maskScalar d a t fun m n => match (List.range n).find? fun e => bit m e with
    | some e => BitVec.ofNat 64 e
    | none => BitVec.allOnes 64

end Sys2Proof.Machine
end

