-- ==== Sys2Proof/Machine/VecMem.lean ====
section
/-! DEFINITION. Prefix words, memory access, draws, stream registers, flags and the scalar subset of the vector stream
(05 R174 to R177, R201 to R209). -/

namespace Sys2Proof.Machine

/-- The bundle that a prefix word opens or goes on with (05 R176). -/
def prefixWord (f : Pfx → Pfx) (bad : Pfx → Bool) : State → Out := runOp .vec (do
  let s ← get
  let v := s.core.vec
  let p := v.pfx.getD { base := v.s.pc, rnd := none, msk := none }
  if bad p then trapWith .badPrefix p.base.toNat (v.s.pc - p.base).toNat
  modify fun s => s.mapVec fun v => { v with s := v.s.skip 4, pfx := some (f p) })

/-- PFX.RND (05 R177). -/
def execPfxRnd (k f s : BitVec 1) (m : BitVec 3) (_t : BitVec 1) : State → Out :=
  prefixWord (fun p => { p with rnd := some (k == 1, f == 1, s == 1, m) }) fun p => p.rnd.isSome || p.msk.isSome

/-- PFX.MSK (05 R177). -/
def execPfxMsk (z : BitVec 1) (k : BitVec 3) (_t : BitVec 1) : State → Out :=
  prefixWord (fun p => { p with msk := some (z == 1, k) }) fun p => p.msk.isSome

/-- Bytes [off, off + n) of a list of pieces. -/
def cutSegs : List Seg → Nat → Nat → List Seg
  | [], _, _ => []
  | g :: gs, off, n =>
    if n = 0 then []
    else if g.len ≤ off then cutSegs gs (off - g.len) n
    else
      let k := min n (g.len - off)
      { va := g.va + off, pa := g.pa + off, len := k } :: cutSegs gs 0 (n - k)

/-- Bytes [off, off + n) of a place. -/
def Place.part (p : Place) (off n : Nat) : Place :=
  match p with
  | .pad a => .pad (a + off)
  | .win w a key => .win w (a + off) key
  | .mem segs r => .mem (cutSegs segs off n) r

/-- The runs of consecutive columns below `n` that are active: first column and length. -/
def activeRuns (act : Nat → Bool) (n : Nat) : List (Nat × Nat) :=
  ((List.range n).filter act).foldr (fun c l => match l with
    | (a, k) :: rest => if c + 1 = a then (c, k + 1) :: rest else (c, 1) :: l
    | [] => [(c, 1)]) []

/-- Effective address of a row (05 R202). -/
def rowEa (v : Strm32) (a s : BitVec 5) (o : BitVec 20) (r : Nat) : Word :=
  v.getX a + sext o + BitVec.ofNat 64 r * v.getX s

/-- Every row of a `VLD` or `VST`, checked before any element moves (05 R202): its runs of active columns, each with the place
it lies at. The bytes of inactive elements count for a dead link, for the guard and for a window too (log 28). -/
def vecRows (k : AK) (a s : BitVec 5) (o : BitVec 20) (v : BitVec 22) (act : Nat → Bool) :
    Op (List (Nat × Nat × Nat × Place)) := do
  needVX [a, s]
  let st ← get
  let eb := shW v / 8
  let rows ← (List.range (shRows v)).mapM fun r => do
    let ea := rowEa st.core.vec.s a s o r
    needAlign ea eb
    let p ← place .vec k 6 ea (shCols v * eb)
    return (activeRuns (fun c => act (r * shCols v + c)) (shCols v)).map fun (c, n) =>
      (r, c, n, p.part (c * eb) (n * eb))
  return rows.flatten

/-- The shape of a `VLD` or `VST` (05 R181, R202). -/
def vecMemShape (wl : BitVec 2) : Op (BitVec 22) := vecShape (some (8 * 2 ^ wl.toNat))

/-- VLD (05 R202). -/
def execVld (d a s : BitVec 5) (w _u : BitVec 2) (o : BitVec 20) (t : BitVec 1) : State → Out :=
  vecOp .mask t 8 (fun c => do
    let v ← vecMemShape w
    needV [d]
    let act ← vecMask c
    let rows ← vecRows .vld a s o v act
    let eb := shW v / 8
    let got ← rows.mapM fun (r, k, n, p) => do
      let b ← readPlace .vec (n * eb) p
      return (r * shCols v + k, n, b)
    let st ← get
    let old := st.core.vec.v.toList.getD d.toNat 0
    let base := vput old (shW v) (shN v) fun e => if act e then 0 else if c.zero then 0 else vget old (shW v) e
    vecResult [.v d (got.foldl (fun x (e, _, b) => x ||| (BitVec.ofNat 16384 (leNat b) <<< (e * shW v))) base)])

/-- VST (05 R202). -/
def execVst (d a s : BitVec 5) (w _u : BitVec 2) (o : BitVec 20) (t : BitVec 1) : State → Out :=
  vecOp .merge t 8 (fun c => do
    let v ← vecMemShape w
    needV [d]
    let act ← vecMask c
    let rows ← vecRows .vst a s o v act
    let st ← get
    let x := st.core.vec.v.toList.getD d.toNat 0
    rows.forM fun (r, k, n, p) =>
      writePlace .vec (natLe (n * (shW v / 8)) (x.extractLsb' ((r * shCols v + k) * shW v) (n * shW v)).toNat) p)

/-- The shape of a `VLDA` or `VSTA` at (row, col) of an accumulator that the vector engine holds (05 R203). -/
def vecAccShape (c : BitVec 4) (row col : BitVec 6) : Op (BitVec 22) := do
  let v ← vecShape none
  if shW v ≠ 32 then trapWith .shape 0 (shN v * shW v)
  trapIf (64 < row.toNat + shRows v || 64 < col.toNat + shCols v) .range
  let s ← get
  trapIf (!s.core.holds .vec (224 + c.toNat)) .segmentHolder
  return v

/-- Element A(i, j) of an accumulator image (09 R291). -/
def accGet (a : AccImg) (i j : Nat) : BitVec 32 := a.extractLsb' (32 * (64 * i + j)) 32

/-- An accumulator image with A(i, j) replaced. -/
def accPut (a : AccImg) (i j : Nat) (v : BitVec 32) : AccImg := setBits a (32 * (64 * i + j)) 32 (v.setWidth 131072)

/-- VLDA (05 R203). -/
def execVlda (d : BitVec 5) (c : BitVec 4) (r k : BitVec 6) (t : BitVec 1) : State → Out :=
  vecOp .mask t 4 (fun x => do
    let v ← vecAccShape c r k
    needV [d]
    let act ← vecMask x
    let s ← get
    let a := s.core.acc.toList.getD c.toNat 0
    let old := s.core.vec.v.toList.getD d.toNat 0
    vecResult [.v d (vput old 32 (shN v) fun e =>
      if act e then (accGet a (r.toNat + e / shCols v) (k.toNat + e % shCols v)).toNat
      else if x.zero then 0 else vget old 32 e)])

/-- VSTA (05 R203). -/
def execVsta (d : BitVec 5) (c : BitVec 4) (r k : BitVec 6) (t : BitVec 1) : State → Out :=
  vecOp .merge t 4 (fun x => do
    let v ← vecAccShape c r k
    needV [d]
    let act ← vecMask x
    let s ← get
    let src := s.core.vec.v.toList.getD d.toNat 0
    let put (a : AccImg) (e : Nat) : AccImg :=
      accPut a (r.toNat + e / shCols v) (k.toNat + e % shCols v) (BitVec.ofNat 32 (vget src 32 e))
    let img := ((List.range (shN v)).filter act).foldl put (s.core.acc.toList.getD c.toNat 0)
    set (s.mapCore fun q => { q with acc := q.acc.set! c.toNat img }))

/-- A draw into the elements of a register (05 R204). -/
def vecDrawOp (d : BitVec 5) (w : Nat) (t : BitVec 1) (f : Mix → Nat) : State → Out :=
  vecOp .ksel t 4 (fun c => do
    let v ← vecShape (some w)
    needV [d]
    let act ← vecMask c
    let g ← vecDraw c.ksel 4
    let s ← get
    let old := s.core.vec.v.toList.getD d.toNat 0
    vecResult [.v d (vput old w (shN v) fun e => if act e then f (g e) else if c.zero then 0 else vget old w e)])

/-- VRAND (05 R204). -/
def execVrand (d : BitVec 5) (y : BitVec 3) (t : BitVec 1) : State → Out :=
  vecDrawOp d (viW y) t fun x => (mixLow x).toNat % 2 ^ viW y

/-- The uniform value of a draw, `.f32` or `.f64` (03 R127). -/
def uniform (F : Fmt) (x : Mix) : Nat :=
  if F.width = 64 then roundFull F 0 false false (.fin false ((mixLow x).toNat / 2 ^ 11) (-53) false) 0
  else roundFull F 0 false false (.fin false (x.1.toNat / 2 ^ 8) (-24) false) 0

/-- VRAND_F (05 R204). -/
def execVrandF (d : BitVec 5) (y : BitVec 3) (t : BitVec 1) : State → Out :=
  vecDrawOp d (vfmt y).width t (uniform (vfmt y))

/-- VMASKP (05 R204, 03 R128). -/
def execVmaskp (m : BitVec 3) (r : BitVec 5) (t : BitVec 1) : State → Out :=
  vecOp .ksel t 4 (fun c => do
    let v ← vecShape none
    let p ← rdVX r
    trapIf (0x10000 < p.toNat) .range
    needM [m]
    let act ← vecMask c
    let g ← vecDraw c.ksel 4
    let s ← get
    let old := s.core.vec.m.toList.getD m.toNat 0
    let b (e : Nat) : Bool :=
      if act e then Decidable.decide ((g e).1.toNat % 2 ^ 16 < p.toNat) else if c.zero then false else bit old e
    vecResult [.m m (BitVec.ofNat 2048 (packNat 1 ((List.range (shN v)).map fun e => b2n (b e))))])

/-- VQSKIP (05 R206): entries are popped as they arrive; the word stays at issue, its stream blocked, until the last. -/
def execVqskip (q : BitVec 3) (c : BitVec 6) (t : BitVec 1) (s : State) : Out :=
  let es := s.core.vec.q.toList.getD q.toNat []
  let left := c.toNat + 1 - s.core.vec.skip
  match (vecOpen .none t).run s with
  | .ok _ =>
    if left ≤ es.length then
      .next (s.mapVec fun v => { v with q := v.q.set! q.toNat (es.drop left), skip := 0, s := v.s.skip 4, pfx := none })
    else .next ((s.mapVec fun v => { v with q := v.q.set! q.toNat [], skip := v.skip + es.length }).block .vec)
  | .error _ => vecOp .none t 4 (fun _ => pure ()) s

/-- VEC_ADDF (05 R207). -/
def execVecAddf (f : BitVec 6) (a : BitVec 5) (t : BitVec 1) : State → Out :=
  vecOp .none t 4 (fun _ => do let n ← rdVX a; addf .vec f n)
/-- VEC_ADDF_IMM (05 R207). -/
def execVecAddfImm (f : BitVec 6) (i : BitVec 17) (t : BitVec 1) : State → Out :=
  vecOp .none t 4 (fun _ => addf .vec f (i.setWidth 64))
/-- VEC_WAITF (05 R207). -/
def execVecWaitf (f : BitVec 6) (a : BitVec 5) (t : BitVec 1) : State → Out :=
  vecOp .none t 4 (fun _ => do let n ← rdVX a; waitf .vec f n)
/-- VEC_WAITF_IMM (05 R207). -/
def execVecWaitfImm (f : BitVec 6) (i : BitVec 17) (t : BitVec 1) : State → Out :=
  vecOp .none t 4 (fun _ => waitf .vec f (i.setWidth 64))
/-- VEC_GIVE (05 R207). -/
def execVecGive (f : BitVec 6) (a b : BitVec 5) (t : BitVec 1) : State → Out :=
  vecOp .none t 4 (fun _ => do let x ← rdVX a; let y ← rdVX b; givePad .vec f x y)
/-- VEC_GIVE_ACC (05 R207). -/
def execVecGiveAcc (f : BitVec 6) (c n : BitVec 4) (t : BitVec 1) : State → Out :=
  vecOp .none t 4 (fun _ => giveAccs .vec f c.toNat (n.toNat + 1))

/-- A scalar word that writes one register when it issues (05 R209). -/
def vscal (d : BitVec 5) (srcs : List (BitVec 5)) (t : BitVec 1) (n : Nat) (f : Strm32 → Word) : State → Out :=
  vecOp .none t n (fun _ => do
    needVX (d :: srcs)
    modify fun s => s.mapVec fun v => { v with s := v.s.setX d (f v.s) })

/-- VSCAL_LI (05 R209). -/
def execVscalLi (d : BitVec 5) (i : BitVec 19) (t : BitVec 1) : State → Out := vscal d [] t 4 fun _ => sext i
/-- VSCAL_LI64 (05 R209). -/
def execVscalLi64 (d : BitVec 5) (i : BitVec 49) (t : BitVec 1) : State → Out := vscal d [] t 8 fun _ => sext i
/-- VSCAL_ADD (05 R209). -/
def execVscalAdd (d a b : BitVec 5) (t : BitVec 1) : State → Out := vscal d [a, b] t 4 fun v => v.getX a + v.getX b
/-- VSCAL_ADD_IMM (05 R209). -/
def execVscalAddImm (d a : BitVec 5) (i : BitVec 11) (t : BitVec 1) : State → Out := vscal d [a] t 4 fun v => v.getX a + sext i
/-- VSCAL_SUB (05 R209). -/
def execVscalSub (d a b : BitVec 5) (t : BitVec 1) : State → Out := vscal d [a, b] t 4 fun v => v.getX a - v.getX b
/-- VSCAL_SUB_IMM (05 R209). -/
def execVscalSubImm (d a : BitVec 5) (i : BitVec 11) (t : BitVec 1) : State → Out := vscal d [a] t 4 fun v => v.getX a - sext i
/-- VSCAL_SHL (05 R209). -/
def execVscalShl (d a b : BitVec 5) (t : BitVec 1) : State → Out :=
  vscal d [a, b] t 4 fun v => v.getX a <<< shCount (v.getX b)
/-- VSCAL_SHL_IMM (05 R209). -/
def execVscalShlImm (d a : BitVec 5) (i : BitVec 6) (t : BitVec 1) : State → Out := vscal d [a] t 4 fun v => v.getX a <<< i.toNat
/-- VSCAL_AND (05 R209). -/
def execVscalAnd (d a b : BitVec 5) (t : BitVec 1) : State → Out := vscal d [a, b] t 4 fun v => v.getX a &&& v.getX b
/-- VSCAL_AND_IMM (05 R209). -/
def execVscalAndImm (d a : BitVec 5) (i : BitVec 11) (t : BitVec 1) : State → Out := vscal d [a] t 4 fun v => v.getX a &&& sext i

/-- A scalar compare (05 R209, 04 R141). -/
def vscalCompare (p : BitVec 3) (srcs : List (BitVec 5)) (t : BitVec 1) (f : Strm32 → Bool) : State → Out :=
  vecOp .none t 4 (fun _ => do
    needVX srcs
    modify fun s => s.mapVec fun v => { v with s := v.s.setP p (f v.s) })

/-- VSCAL_CMP (05 R209). -/
def execVscalCmp (p c : BitVec 3) (u : BitVec 1) (a b : BitVec 5) (t : BitVec 1) : State → Out :=
  vscalCompare p [a, b] t fun v => compare64 c u (v.getX a) (v.getX b)
/-- VSCAL_CMP_IMM (05 R209). -/
def execVscalCmpImm (p c : BitVec 3) (u : BitVec 1) (a : BitVec 5) (i : BitVec 11) (t : BitVec 1) : State → Out :=
  vscalCompare p [a] t fun v => compare64 c u (v.getX a) (sext i)

/-- jump of the vector stream (05 R209, R175, 04 R145): `RANGE` outside the section or at a word whose `T` is clear. -/
def vecJump (dest : Word) : Op Unit := do
  let s ← get
  trapIf (!s.inCode 1 dest) .range
  let w ← fetch4 .vec dest.toNat
  trapIf (!bit w 1) .range
  modify fun s => s.mapVec fun v => { v with s := { v.s with pc := dest }, pfx := none }

/-- The vector stream goes on past a branch word. -/
def vecFall : Op Unit := modify fun s => s.vecDone 4

/-- VSCAL_BR (05 R209). -/
def execVscalBr (o : BitVec 24) (t : BitVec 1) : State → Out := runOp .vec (do
  let _ ← vecOpen .none t
  let s ← get
  vecJump (branchTo s.core.vec.s.pc o))

/-- VSCAL_BC (05 R209). -/
def execVscalBc (p : BitVec 3) (n : BitVec 1) (o : BitVec 20) (t : BitVec 1) : State → Out := runOp .vec (do
  let _ ← vecOpen .none t
  let s ← get
  if s.core.vec.s.getP p != (n == 1) then vecJump (branchTo s.core.vec.s.pc o) else vecFall)

/-- VSCAL_LOOP (05 R209; log 13). -/
def execVscalLoop (a : BitVec 5) (o : BitVec 19) (t : BitVec 1) : State → Out := runOp .vec (do
  let _ ← vecOpen .none t
  let x ← rdVX a
  let s ← get
  if a ≠ 0 ∧ x - 1 ≠ 0 then vecJump (branchTo s.core.vec.s.pc o) else vecFall
  modify fun s => s.mapVec fun v => { v with s := v.s.setX a (x - 1) })

/-- VSCAL_REND (05 R209, 01 R24): the stream ends, and what its stream registers still hold is dropped. -/
def execVscalRend (t : BitVec 1) : State → Out :=
  vecOp .none t 4 (fun _ => modify fun s => s.mapVec fun v =>
    { v with s := { v.s with run := .ended }, q := Vector.replicate 8 [] })

/-- VSCAL_NOP (05 R209). -/
def execVscalNop (t : BitVec 1) : State → Out := vecOp .none t 4 fun _ => pure ()

end Sys2Proof.Machine
end

