-- ==== Sys2Proof/Machine/Words64.lean ====
section
/-! DEFINITION. The words that the 64-bit streams share: flags and the scalar subset (06 R242, R243, 09 R318, 10 R343). -/

namespace Sys2Proof.Machine

/-- The stream of a 64-bit word. -/
def strm64 : Strm64 → Strm
  | .mtx => .mtx | .cpy => .cpy | .ast => .ast

/-- The engine of a 64-bit flag word. -/
def eng64 : Eng64 → Eng
  | .mtx => .mtx | .cpy => .cpy

/-- The stream of an engine's 64-bit words. -/
def engStrm (e : Eng64) : Strm := (eng64 e).strm

/-- A 64-bit word: its effect, then past it. -/
def op64 (k : Strm) (body : Op Unit) : State → Out :=
  runOp k (do
    body
    modify fun s => s.mapStrm k fun r => r.skip 8)

/-- A register of a 64-bit stream. -/
def rdS (k : Strm) (r : BitVec 5) : Op Word := do
  let s ← get
  return (s.strm32 k).getX r

/-- ADDF of the copy and matrix streams (06 R242). -/
def execAddf64 (e : Eng64) (f : BitVec 6) (o : FlagSrc) : State → Out := op64 (engStrm e) (do
  let n ← match o with
    | .reg a => rdS (engStrm e) a
    | .imm v => pure (v.setWidth 64)
  addf (eng64 e) f n)

/-- WAITF of the copy and matrix streams (06 R242). -/
def execWaitf64 (e : Eng64) (f : BitVec 6) (o : FlagSrc) : State → Out := op64 (engStrm e) (do
  let n ← match o with
    | .reg a => rdS (engStrm e) a
    | .imm v => pure (v.setWidth 64)
  waitf (eng64 e) f n)

/-- GIVE of the copy and matrix streams (06 R242). -/
def execGive64 (e : Eng64) (f : BitVec 6) (r : GiveSrc) : State → Out := op64 (engStrm e) (do
  match r with
  | .pad a b => do
    let x ← rdS (engStrm e) a
    let y ← rdS (engStrm e) b
    givePad (eng64 e) f x y
  | .acc n c => giveAccs (eng64 e) f n.toNat (c.toNat + 1))

/-- The second operand of a scalar word (06 R243). -/
def opd16 (v : Strm32) : Opd16 → Word
  | .reg b => v.getX b
  | .imm i => sext i

/-- A scalar word that writes a register. -/
def scal64 (e : Strm64) (d : BitVec 5) (f : Strm32 → Word) : State → Out :=
  op64 (strm64 e) (modify fun s => s.mapStrm (strm64 e) fun v => v.setX d (f v))

/-- SCAL_LI (06 R243). -/
def execScalLi (e : Strm64) (d : BitVec 5) (i : BitVec 32) : State → Out := scal64 e d fun _ => sext i
/-- SCAL_ADD (06 R243). -/
def execScalAdd (e : Strm64) (d a : BitVec 5) (o : Opd16) : State → Out := scal64 e d fun v => v.getX a + opd16 v o
/-- SCAL_SUB (06 R243). -/
def execScalSub (e : Strm64) (d a : BitVec 5) (o : Opd16) : State → Out := scal64 e d fun v => v.getX a - opd16 v o
/-- SCAL_SHL (06 R243). -/
def execScalShl (e : Strm64) (d a : BitVec 5) (o : Opd16) : State → Out :=
  scal64 e d fun v => v.getX a <<< shCount (opd16 v o)
/-- SCAL_AND (06 R243). -/
def execScalAnd (e : Strm64) (d a : BitVec 5) (o : Opd16) : State → Out := scal64 e d fun v => v.getX a &&& opd16 v o

/-- SCAL_CMP (06 R243, 04 R141). -/
def execScalCmp (e : Strm64) (p c : BitVec 3) (u : BitVec 1) (a : BitVec 5) (o : Opd16) : State → Out :=
  op64 (strm64 e) (modify fun s => s.mapStrm (strm64 e) fun v => v.setP p (compare64 c u (v.getX a) (opd16 v o)))

/-- A branch target of a 64-bit stream, a signed count of words of 8 bytes away (06 R243). -/
def branch64 (pc : Word) (o : BitVec 32) : Word := pc + sext o * 8

/-- jump of a 64-bit stream (06 R243, 04 R145). -/
def jump64 (k : Strm) (dest : Word) : Op Unit := do
  let s ← get
  trapIf (!s.inCode (strmCode k) dest) .range
  modify fun s => s.mapStrm k fun v => { v with pc := dest }

/-- A 64-bit stream goes on past a branch word. -/
def fall64 (k : Strm) : Op Unit := modify fun s => s.mapStrm k fun v => v.skip 8

/-- SCAL_BR (06 R243). -/
def execScalBr (e : Strm64) (o : BitVec 32) : State → Out := runOp (strm64 e) (do
  let s ← get
  jump64 (strm64 e) (branch64 (s.strm32 (strm64 e)).pc o))

/-- SCAL_BC (06 R243). -/
def execScalBc (e : Strm64) (p : BitVec 3) (n : BitVec 1) (o : BitVec 32) : State → Out := runOp (strm64 e) (do
  let s ← get
  let v := s.strm32 (strm64 e)
  if v.getP p != (n == 1) then jump64 (strm64 e) (branch64 v.pc o) else fall64 (strm64 e))

/-- SCAL_LOOP (06 R243; log 13). -/
def execScalLoop (e : Strm64) (a : BitVec 5) (o : BitVec 32) : State → Out := runOp (strm64 e) (do
  let s ← get
  let v := s.strm32 (strm64 e)
  let x := v.getX a - 1
  if a ≠ 0 ∧ x ≠ 0 then jump64 (strm64 e) (branch64 v.pc o) else fall64 (strm64 e)
  modify fun s => s.mapStrm (strm64 e) fun v => v.setX a x)

/-- SCAL_NOP (06 R243). -/
def execScalNop (e : Strm64) : State → Out := op64 (strm64 e) (pure ())

end Sys2Proof.Machine
end

