-- ==== Sys2Proof/Machine/Carafe.lean ====
section
/-! DEFINITION. The Carafe engines on their own: sector reads and writes, checkpoint reads, the write queue, scrub and patrol,
key slots, the command buses (11 R354 to R370). -/

namespace Sys2Proof.Machine

/-- Sectors of a patrol region (11 R365). -/
def regionSectors : Nat := 32768

/-- A checkpoint read of a sector of a stack (11 R365): the region's progress passes it when it is the next. -/
def Stack.progress (la : Nat) (x : Stack) : Stack :=
  let r := la / 2 ^ 21
  let j := la % 2 ^ 21 / 64
  let p := ((x.progs.find? fun e => e.1 = r).map Prod.snd).getD 0
  let rest := x.progs.filter fun e => e.1 ≠ r
  if x.readBits.contains r || j ≠ p then x
  else if j + 1 = regionSectors then { x with progs := rest, readBits := x.readBits ++ [r] }
  else { x with progs := rest ++ [(r, j + 1)] }

/-- A visit of a version block (13 R416): resolved, and a clean block gets the oldest generation. -/
def State.visitAt (s : State) (pa : Nat) : State :=
  match s.regionAt pa with
  | none => s
  | some v =>
    let (s, _) := s.touchBlock v pa
    s.visitBlock v pa

/-- The further effects of a checkpoint read of [ga, ga + n): scrub progress, and a visit of each version block
(11 R365, 13 R416). -/
def State.ckptMark (s : State) (ga n : Nat) : State :=
  if gaHost ga || gaPkg ga ≠ s.pkg.toNat then s
  else (sectorsOf (gaPa ga) n).foldl (fun s sa =>
    match s.routeRead sa with
    | (s, none) => s
    | (s, some p) =>
      let (k, la) := stackOf p
      (s.mapStack k (Stack.progress la)).visitAt (sa % 2 ^ 40)) s

/-- The agent that a source number stands for (01 R34): a core's is that of its job. -/
def State.agentOf (s : State) (src : BitVec 16) (key : BitVec 8) : Agent :=
  if src.toNat < 0x400 then
    let c := s.coreAt (src.toNat / 4)
    let asid := (c.job.bind s.jobAt).map Job.asid
    { src := src.toNat, key := key, asid := asid, step := c.mode = .job && c.task.tx.st = 1,
      at_ := some (c.num, c.task.counts) }
  else { src := src.toNat, key := key, asid := none, step := false }

/-- A PA has a frame (11 R354). -/
def framed (pa : Nat) : Bool := pa % 2 ^ 40 < dramSize

/-- CARAFE_READ (11 R355, R359, R360, 13 R412): the sector of a PA is read, by the tentative or the committed view. -/
def execCarafeRead (pa : BitVec 41) (src : BitVec 16) (kind : BitVec 4) (key : BitVec 8) (s : State) : Out :=
  let sa := pa.toNat / 64 * 64
  .next (if !framed sa then s
    else
      let (t, p) := s.routeRead sa
      match p with
      | none => t
      | some p =>
        let (t, _) := t.readSector p src.toNat kind.toNat (kind = 2 || kind = 5) (t.keyMat key)
        if kind = 3 then t.ckptMark (gaOf t.pkg sa) 64 else t)

/-- CARAFE_WRITE (11 R355, R360, R361, R363, 13 R413): the bytes that the mask names enter the sector of a PA; the home
refuses a write that R410 forbids. -/
def execCarafeWrite (pa : BitVec 41) (src : BitVec 16) (key : BitVec 8) (mask : BitVec 64) (data : BitVec 512)
    (tags : BitVec 8) (s : State) : Out :=
  let sa := pa.toNat / 64 * 64
  .next (if !framed sa then s
    else
      let (t, p) := s.routeWrite sa (s.agentOf src key) false false
      match p with
      | none => t
      | some p =>
        let b := (List.range 64).map fun i => if bit mask i then some (data.extractLsb' (8 * i) 8) else none
        t.writeSector p b tags false (t.keyMat key) src.toNat none)

/-- WRITE_REACHES_ARRAY (11 R364): the oldest write of a stack's queue is in the array. -/
def execWriteReachesArray (k : BitVec 4) (s : State) : Out :=
  .next (s.mapStack k.toNat fun x => { x with wqueue := x.wqueue.drop 1 })

/-- Cycles of an hour (11 R365, 01 R33). -/
def hourCycles : Nat := 3600 * 1250000000

/-- The regions of a stack left unread in the period (11 R366). -/
def Stack.unreadRegions (x : Stack) : List Nat := (List.range 32768).filter fun r => !x.readBits.contains r

/-- SCRUB_PERIOD_END (11 R365, R366, R370): the next period begins, and it patrols the regions left unread. -/
def execScrubPeriodEnd (s : State) : Out :=
  let next (x : Stack) : Stack :=
    { x with periodNo := x.periodNo + 1, unread := BitVec.ofNat 16 x.unreadRegions.length, progs := [], readBits := [],
             patrol := x.unreadRegions, pptr := 0 }
  .next { s with carafe := { s.carafe with
    start := s.chron, period := s.carafe.nextPeriod, stks := s.carafe.stks.map next } }

/-- A scrub period is over (11 R365). -/
def State.periodDue (s : State) : Bool :=
  s.carafe.start.toNat + s.carafe.period.toNat * hourCycles ≤ s.chron.toNat

/-- A patrol read of a stack is due: its reads are spread evenly over the period (11 R366). -/
def State.patrolDue (s : State) (k : Nat) : Bool :=
  match s.carafe.stks[k]? with
  | none => false
  | some x =>
    let total := x.unread.toNat * regionSectors
    let done := total - (x.patrol.length * regionSectors - x.pptr)
    x.patrol ≠ [] && done * (s.carafe.period.toNat * hourCycles) ≤ (s.chron.toNat - s.carafe.start.toNat) * total

/-- PATROL_READ (11 R366, R359, R360): the next sector of the first region is read, and a corrected one written back. -/
def execPatrolRead (k : BitVec 4) (s : State) : Out :=
  .next (match s.carafe.stks[k.toNat]? with
    | none => s
    | some x => match x.patrol with
      | [] => s
      | r :: rest =>
        let pa := paOf k.toNat (r * 2 ^ 21 + x.pptr * 64)
        let (t, _) := s.readSector pa (0x500 + k.toNat) 2 true (s.sectorAt pa).ckey
        t.mapStack k.toNat fun y =>
          if x.pptr + 1 = regionSectors then { y with patrol := rest, pptr := 0 } else { y with pptr := x.pptr + 1 })

/-- A key slot with one doubleword written at a byte offset (11 R369). -/
def KeySlot.put (x : KeySlot) (off : Nat) (v : Word) : KeySlot :=
  if off < 32 then { x with dkey := setBits x.dkey (8 * off) 64 (v.setWidth 256) }
  else { x with tkey := setBits x.tkey (8 * (off - 32)) 64 (v.setWidth 256), v := x.v || off = 56 }

/-- KEY_SLOT_WRITE (11 R369): one doubleword of a slot; the write of its last byte sets `KEYV`. -/
def execKeySlotWrite (off : BitVec 16) (v : BitVec 64) (s : State) : Out :=
  let o := off.toNat / 8 * 8
  let id := BitVec.ofNat 8 ((o - 0x1000) / 64)
  .next (if o < 0x1000 || 0x5000 ≤ o || id = 0 then s
    else
      let old := (s.carafe.keys.find? fun x => x.id = id).getD { id := id, dkey := 0, tkey := 0, v := false }
      if old.v then s
      else
        let rest := s.carafe.keys.filter fun x => x.id ≠ id
        let new := old.put ((o - 0x1000) % 64) v
        let below := rest.filter fun x => x.id < id
        let above := rest.filter fun x => id < x.id
        { s with carafe := { s.carafe with keys := below ++ [new] ++ above } })

/-- arbitrate (11 R357): the member granted, the counts after the slot. -/
def Bus.arbitrate (b : Bus) : Bus :=
  let r (y : Nat) : List Nat := b.ready.toList.getD y []
  let d (y : Nat) : BitVec 2 := b.denied.toList.getD y 0
  let rdy := [0, 1].filter fun y => r y ≠ []
  let grant : Option Nat := match rdy with
    | [] => none
    | [y] => some y
    | _ => match rdy.find? fun y => d y = 3 with
      | some y => some y
      | none => if (r 1).headD 0 < (r 0).headD 0 then some 1 else some 0
  { b with
    denied := Vector.ofFn fun y => if some y.val ≠ grant && r y.val ≠ [] then d y.val + 1 else 0,
    ready := Vector.ofFn fun y => if some y.val = grant then (r y.val).drop 1 else r y.val }

/-- Commands become ready in age order as places free: each pseudo-channel holds at most four (11 R357). -/
def Bus.fill (b : Bus) : Bus :=
  let room (y : Nat) : Nat := 4 - (b.ready.toList.getD y []).length
  { b with
    ready := Vector.ofFn fun y => b.ready.toList.getD y.val [] ++ (b.wait.toList.getD y.val []).take (room y.val)
    wait := Vector.ofFn fun y => (b.wait.toList.getD y.val []).drop (room y.val) }

/-- COMMAND_CYCLE (11 R357): one slot of a row or column bus; which commands a bank's timing allows is timing (log 31). -/
def execCommandCycle (k : BitVec 4) (pair : BitVec 5) (col : Bool) (s : State) : Out :=
  .next (s.mapStack k.toNat fun x => { x with buses := x.buses.map fun p =>
    if p.pair = pair.toNat then (if col then { p with col := p.col.fill.arbitrate } else { p with row := p.row.fill.arbitrate }) else p })

end Sys2Proof.Machine
end

