-- ==== Sys2Proof/Machine/Spans.lean ====
section
/-! DEFINITION. Stretches of bytes as a queued command reads and writes them, sector by sector of its byte stream, with poison
(02 R63, 06 R215, R216, R223 to R227). -/

namespace Sys2Proof.Machine

/-- The span of `n` bytes at a place. -/
def Place.span (p : Place) (n : Nat) : Span :=
  match p with
  | .pad off => .pad off n
  | .win w va key => .win w va n key
  | .mem segs r => .mem segs r

/-- Bytes of a span. -/
def Span.len : Span → Nat
  | .pad _ n => n
  | .win _ _ n _ => n
  | .mem segs _ => segs.foldl (fun n g => n + g.len) 0

/-- Bytes of a list of spans. -/
def spansLen (l : List Span) : Nat := l.foldl (fun n p => n + p.len) 0

/-- The sectors of a byte stream in [p, p + n), each with the VA of its first byte there, the stream byte `p` being at `va`. -/
def streamSectors (p n va : Nat) : List (Nat × Nat) :=
  if n = 0 then []
  else (List.range ((p + n - 1) / 64 - p / 64 + 1)).map fun i => (p / 64 + i, va + ((p / 64 + i) * 64 - p))

/-- Failing sectors of a byte stream, each once. -/
def addBad (l more : List (Nat × Nat)) : List (Nat × Nat) :=
  more.foldl (fun l x => if l.any (fun y => y.1 = x.1) then l else l ++ [x]) l

/-- A byte of the stream lies in a failing sector. -/
def lostAt (bad : List (Nat × Nat)) (p : Nat) : Bool := bad.any fun x => x.1 = p / 64

/-- A piece of memory read as stream bytes from `p` on (06 R215, R227); a checkpoint read marks its sectors. -/
def State.readSeg (s : State) (st : Strm) (kind p : Nat) (g : Seg) : State × List Byte × List (Nat × Nat) :=
  let (t, r) := s.physRead g.pa g.len (s.agent st) kind
  let t := if kind = 3 then t.ckptMark g.pa g.len else t
  let bad := r.bad.flatMap fun b =>
    let lo := max b g.pa
    streamSectors (p + (lo - g.pa)) (min (b + 64) (g.pa + g.len) - lo) (g.va + (lo - g.pa))
  (t, (r.data ++ List.replicate (g.len - r.data.length) 0), bad)

/-- A span read as stream bytes from `p` on: its bytes and the failing sectors. -/
def State.readSpan (s : State) (st : Strm) (kind p : Nat) : Span → State × List Byte × List (Nat × Nat)
  | .pad off n => (s, s.core.pad.read off n, [])
  | .win w va n key => (s, s.winBytes w va n key, [])
  | .mem segs _ =>
    let (t, d, b, _) := segs.foldl (fun (x : State × List Byte × List (Nat × Nat) × Nat) g =>
      let (t, d, b) := x.1.readSeg st kind x.2.2.2 g
      (t, x.2.1 ++ d, addBad x.2.2.1 b, x.2.2.2 + g.len)) (s, [], [], p)
    (t, d, b)

/-- A list of spans read as one byte stream, from stream byte `p` on. -/
def State.readSpans (s : State) (st : Strm) (kind p : Nat) (l : List Span) : State × List Byte × List (Nat × Nat) :=
  let (t, d, b, _) := l.foldl (fun (x : State × List Byte × List (Nat × Nat) × Nat) q =>
    let (t, d, b) := x.1.readSpan st kind x.2.2.2 q
    (t, x.2.1 ++ d, addBad x.2.2.1 b, x.2.2.2 + q.len)) (s, [], [], p)
  (t, d, b)

/-- Stream bytes from `p` on with those of failing sectors zero (06 R227). -/
def zeroLost (bad : List (Nat × Nat)) (p : Nat) (d : List Byte) : List Byte :=
  d.mapIdx fun i b => if lostAt bad (p + i) then 0 else b

/-- The memory sectors of a piece that hold a failing byte of the stream, whose byte `p` the piece begins with. -/
def Seg.poisoned (g : Seg) (bad : List (Nat × Nat)) (p : Nat) : List Nat :=
  (sectorsOf g.pa g.len).filter fun b => bad.any fun x =>
    max b g.pa < g.pa + (x.1 * 64 + 64 - p) && (g.pa + x.1 * 64 < min (b + 64) (g.pa + g.len) + p) && p < x.1 * 64 + 64

/-- Stream bytes from `p` on written to a piece of memory, with the failure that a fence will report (02 R81, R90, 06 R227). -/
def State.writeSeg (s : State) (st : Strm) (seq : Nat) (refused : Bool) (bad : List (Nat × Nat)) (p : Nat) (g : Seg)
    (d : List Byte) : State × List Failure :=
  let f (k : FailKind) : Failure :=
    { eng := strmEng st, seq := seq, kind := k, level := s.homeLevel g.pa, va := g.va, count := 1 }
  if refused then (s, [f .refused])
  else if s.linkDead g.pa then (s, [f .lost])
  else
    let (t, r) := s.physWrite g.pa (if gaHost g.pa then zeroLost bad p d else d) (s.agent st) false [] (g.poisoned bad p)
    (t, if r = .refused then [f .refused] else [])

/-- Stream bytes from `p` on written to a span. -/
def State.writeSpan (s : State) (st : Strm) (seq : Nat) (bad : List (Nat × Nat)) (p : Nat) (d : List Byte) :
    Span → State × List Failure
  | .pad off n => (s.mapCore fun c => { c with pad := c.pad.write off (zeroLost bad p (d.take n)) }, [])
  | .win _ _ _ _ => (s, [])
  | .mem segs refused =>
    let (t, fs, _, _) := (cutRefused refused segs).foldl (fun (x : State × List Failure × List Byte × Nat) g =>
      let (t, fs) := x.1.writeSeg st seq (g.refusedBy refused) bad x.2.2.2 g (x.2.2.1.take g.len)
      (t, x.2.1 ++ fs, x.2.2.1.drop g.len, x.2.2.2 + g.len)) (s, [], d, p)
    (t, fs)

/-- Stream bytes from `p` on written to a list of spans, in order. -/
def State.writeSpans (s : State) (st : Strm) (seq : Nat) (bad : List (Nat × Nat)) (p : Nat) (d : List Byte) (l : List Span) :
    State × List Failure :=
  let (t, fs, _, _) := l.foldl (fun (x : State × List Failure × List Byte × Nat) q =>
    let (t, fs) := x.1.writeSpan st seq bad x.2.2.2 (x.2.2.1.take q.len) q
    (t, x.2.1 ++ fs, x.2.2.1.drop q.len, x.2.2.2 + q.len)) (s, [], d, p)
  (t, fs)

/-- Two address ranges share a byte. -/
def rangesMeet (a n b m : Nat) : Bool := a < b + m && b < a + n

/-- Two lists of pieces share a byte. -/
def segsMeet (a b : List Seg) : Bool := a.any fun x => b.any fun y => rangesMeet x.pa x.len y.pa y.len

/-- The scratchpad ranges of spans. -/
def padRanges (l : List Span) : List (Nat × Nat) :=
  l.filterMap fun p => match p with
    | .pad off n => if n = 0 then none else some (off, n)
    | _ => none

/-- The virtual stretches of a span. -/
def Span.virtual : Span → List (Nat × Nat)
  | .pad _ _ => []
  | .win _ va n _ => [(va, va + n)]
  | .mem segs _ => segs.map fun g => (g.va, g.va + g.len)

/-- The interval from the lowest to the highest virtual byte of spans, rounded out to lines (06 R216). -/
def virtualRange (l : List Span) : Option (Nat × Nat) :=
  match l.flatMap Span.virtual with
  | [] => none
  | x :: xs =>
    let lo := xs.foldl (fun m y => min m y.1) x.1
    let hi := xs.foldl (fun m y => max m y.2) x.2
    some (lo / 128 * 128, (hi + 127) / 128 * 128)

/-- Two lists of spans touch common bytes in the sense of the range checker (02 R63, 06 R216). -/
def spansMeet (a b : List Span) : Bool :=
  ((padRanges a).any fun x => (padRanges b).any fun y => rangesMeet x.1 x.2 y.1 y.2) ||
    (match virtualRange a, virtualRange b with
    | some x, some y => x.1 < y.2 && y.1 < x.2
    | _, _ => false)

/-- Two lists of spans share storage: scratchpad bytes, or bytes of a global address. -/
def storageMeets (a b : List Span) : Bool :=
  ((padRanges a).any fun x => (padRanges b).any fun y => rangesMeet x.1 x.2 y.1 y.2) ||
    segsMeet (a.flatMap Span.segs) (b.flatMap Span.segs)

/-- Two commands with their reads and writes must keep program order (02 R63). -/
def orderMatters (r1 w1 r2 w2 : List Span) : Bool := spansMeet w1 (r2 ++ w2) || spansMeet r1 w2

/-- No piece of a range is refused to readers at its home: a committed view outside every region (02 R91, 13 R414). -/
def readable (segs : List Seg) : Op Unit := do
  let s ← get
  match segs.find? (fun g => !gaHost g.pa && gaPkg g.pa = s.pkg.toNat &&
      (sectorsOf (gaPa g.pa) g.len).any fun sa => sa / 2 ^ 40 % 2 = 1 && (s.regionAt (sa % 2 ^ 40)).isNone) with
  | some g => trapWith .accessRefused g.va 0
  | none => pure ()

/-- A source place of a queued command, checked at its home and recorded. -/
def takeSource (st : Strm) (n : Nat) (p : Place) : Op Span := do
  readable (p.span n).segs
  record st .rd (p.span n).segs
  return p.span n

/-- A destination place of a queued command, recorded. -/
def takeDest (st : Strm) (n : Nat) (p : Place) : Op Span := do
  record st .wr (p.span n).segs
  return p.span n

/-- A source range of a queued command, checked and recorded when its word issues (06 R214). -/
def sourceSpan (st : Strm) (k : AK) (lim : Nat) (ea : Word) (n : Nat) : Op Span := do
  takeSource st n (← place st k lim ea n)

/-- A destination range of a queued command, checked and recorded when its word issues (06 R214). -/
def destSpan (st : Strm) (k : AK) (lim : Nat) (ea : Word) (n : Nat) : Op Span := do
  takeDest st n (← place st k lim ea n)

end Sys2Proof.Machine
end

