-- ==== Sys2Proof/Machine/Copy.lean ====
section
/-! DEFINITION. The words of the copy engine: transfers, stamped copies, gathers, bindings and chains as they issue (06 R213 to
R241). -/

namespace Sys2Proof.Machine

/-- `KIND` of a record. -/
def recKind (r : BitVec 512) : Nat := recField r 0 5 4
/-- `SC`. -/
def recSc (r : BitVec 512) : Nat := recField r 0 22 20
/-- `LEN0`. -/
def recLen0 (r : BitVec 512) : Nat := recField r 0x20 31 0
/-- `CNT1`. -/
def recCnt1 (r : BitVec 512) : Nat := recField r 0x28 31 0
/-- `CNT2`. -/
def recCnt2 (r : BitVec 512) : Nat := recField r 0x28 63 32
/-- The transfer length n (06 R218). -/
def recLen (r : BitVec 512) : Nat := recLen0 r * recCnt1 r * recCnt2 r
/-- `RELF` when `RELV` is set. -/
def recRel (r : BitVec 512) : Option (BitVec 6) := if recField r 0 6 6 = 1 then some (BitVec.ofNat 6 (recField r 0 13 8)) else none
/-- `DELF` when `DELV` is set. -/
def recDel (r : BitVec 512) : Option (BitVec 6) := if recField r 0 7 7 = 1 then some (BitVec.ofNat 6 (recField r 0 19 14)) else none
/-- `Q`. -/
def recQ (r : BitVec 512) : BitVec 3 := BitVec.ofNat 3 (recField r 0 26 24)

/-- A stride of a record as an address difference. -/
def recStride (r : BitVec 512) (off hi lo : Nat) : Word := sext (BitVec.ofNat 32 (recField r off hi lo))

/-- The runs of a record in [pos, hi) of its byte stream (06 R218): source, destination, length; with fuel. -/
def recPieces (r : BitVec 512) (hi : Nat) : Nat → Nat → List (Word × Word × Nat)
  | 0, _ => []
  | f + 1, pos =>
    if hi ≤ pos || recLen0 r = 0 || recCnt1 r = 0 then []
    else
      let j := pos / recLen0 r
      let o := pos % recLen0 r
      let i1 := BitVec.ofNat 64 (j % recCnt1 r)
      let i2 := BitVec.ofNat 64 (j / recCnt1 r)
      let m := min (recLen0 r - o) (hi - pos)
      let src := BitVec.ofNat 64 (recField r 0x10 63 0) + recStride r 0x30 31 0 * i1 + recStride r 0x30 63 32 * i2
      let dst := BitVec.ofNat 64 (recField r 0x18 63 0) + recStride r 0x38 31 0 * i1 + recStride r 0x38 63 32 * i2
      (src + BitVec.ofNat 64 o, dst + BitVec.ofNat 64 o, m) :: recPieces r hi f (pos + m)

/-- Every run of a record. -/
def recRuns (r : BitVec 512) : List (Word × Word × Nat) := recPieces r (recLen r) (recCnt1 r * recCnt2 r) 0

/-- The ranges of runs as the range checker sees them (06 R216): scratchpad exactly, virtual as one interval. -/
def runSpans (l : List (Word × Nat)) : List Span :=
  let pads := (l.filter fun x => bits x.1 63 56 = 0xFE).map fun x => Span.pad (bits x.1 19 0) x.2
  match l.filter fun x => bits x.1 63 56 ≠ 0xFE with
  | [] => pads
  | x :: xs =>
    let lo := xs.foldl (fun m y => min m y.1.toNat) x.1.toNat
    let hi := xs.foldl (fun m y => max m (y.1.toNat + y.2)) (x.1.toNat + x.2)
    pads ++ [.mem [{ va := lo, pa := 0, len := hi - lo }] []]

/-- What a record reads. -/
def recReads (r : BitVec 512) : List Span := runSpans ((recRuns r).map fun x => (x.1, x.2.2))
/-- What a record writes in the issuing core's view: the range of a stamped one whose peer is the core itself is among it. -/
def State.recWrites (s : State) (r : BitVec 512) : List Span :=
  match recKind r with
  | 0 => runSpans ((recRuns r).map fun x => (x.2.1, x.2.2))
  | 2 => if (s.job.map fun j => j.place (recField r 0x18 63 32)) = some s.core.num then [.pad (recField r 0x18 19 0) (recLen r)] else []
  | _ => []

/-- The rows of a gather or scatter as the range checker sees them (06 R233): the interval from the lowest to the highest. -/
def tableSpans (rows : List Span) : List Span :=
  match padRanges rows with
  | [] => rows
  | x :: xs =>
    let lo := xs.foldl (fun m y => min m y.1) x.1
    let hi := xs.foldl (fun m y => max m (y.1 + y.2)) (x.1 + x.2)
    [.pad lo (hi - lo)]

/-- What a transfer reads, for the range checker. -/
def Xfer.reads (x : Xfer) : List Span :=
  if x.chan.isSome then recReads x.desc
  else match x.i with
    | .gather _ _ _ _ _ _ _ _ => x.src.take 1 ++ tableSpans (x.src.drop 1)
    | _ => x.src

/-- What a transfer writes, for the range checker. -/
def Xfer.writes (x : Xfer) : List Span :=
  match x.i with
  | .scatter _ _ _ _ _ _ _ _ => tableSpans x.dst
  | _ => x.dst ++ x.dst2

/-- An older transfer or chain must complete before what reads and writes these spans (06 R216), a stamped transfer among them
(02 R63; log 24). -/
def Core.ahead (c : Core) (seq : Nat) (r w : List Span) : Bool :=
  (c.cpy.queue.any fun y => y.seq < seq && orderMatters y.reads y.writes r w) ||
  (c.cpy.stamped.any fun y => y.waits && y.seq < seq && orderMatters y.src (y.landsOn c.num) r w) ||
  c.cpy.ch.toList.any fun h => h.runs && h.seq < seq && (!h.walked || orderMatters h.reads h.writes r w)

/-- The word at hand reads a span as it issues: it waits for an older transfer that writes it (06 R216). -/
def readNow (p : Span) : Op (List Byte) := do
  let s ← get
  stallIf (s.core.ahead s.core.task.seq [p] [])
  let (t, d, bad) := s.readSpan .cpy 0 0 p
  set t
  match bad with
  | [] => return d
  | (_, va) :: _ => trapKeep .memUncorrectable va 0

/-- A scope of a copy word (06 R224, 01 R12). -/
def copyScope (sc : BitVec 3) : Op Unit := do
  trapIf (sc = 0) .range
  scopeOk sc

/-- A length of a transfer (06 R215, R240). -/
def copyLen (n : Nat) : Op Unit := trapIf (n = 0 || 2 ^ 28 < n) .range

/-- The release flag of an event field (06 R240). -/
def evRel (ev : BitVec 14) : Option (BitVec 6) := if bit ev 6 then some (ev.extractLsb' 0 6) else none

/-- The delivery flag of an event field. -/
def evDel (ev : BitVec 14) : Option (BitVec 6) := if bit ev 13 then some (ev.extractLsb' 7 6) else none

/-- A flag named for an event must be a count flag (06 R223). -/
def countFlag (f : Option (BitVec 6)) : Op Unit := do
  let s ← get
  match f with
  | some f => trapIf (s.core.task.flagAt f).hold .flagOwner
  | none => pure ()

/-- The two flags of an event field. -/
def countFlags (ev : BitVec 14) : Op Unit := do
  countFlag (evRel ev)
  countFlag (evDel ev)

/-- Two ranges of effective addresses overlap (06 R241). -/
def eaMeet (a : Word) (n : Nat) (b : Word) (m : Nat) : Bool :=
  bits a 63 56 = bits b 63 56 && a.toNat < b.toNat + m && b.toNat < a.toNat + n

/-- A transfer of `n` bytes with nothing moved. -/
def Xfer.new (i : Instr) (sc : BitVec 3) (ev : BitVec 14) (n : Nat) (src dst : List Span) : Xfer :=
  { i := i, src := src, dst := dst, dst2 := [], rel := evRel ev, del := evDel ev, len := n, dlen := n, sc := sc.toNat,
    ckpt := false, moved := false, done := 0, part := [], desc := 0, chan := none, own := none, fails := [], bad := [], peer := none,
    stamp := 0, void := false, seq := 0 }

/-- A transfer enters the copy queue when it has room (06 R241, 01 R14). -/
def pushXfer (x : Xfer) : Op Unit := do
  queueRoom .cpy
  let q ← nextSeq
  modify fun s => s.mapCpy fun c => { c with queue := c.queue ++ [{ x with seq := q }] }

/-- CPY (06 R241). -/
def execCpy (sc : BitVec 3) (u : BitVec 2) (d a b : BitVec 5) (ev : BitVec 14) (k : BitVec 1) : State → Out :=
  op64 .cpy (do
    let dst ← rdS .cpy d
    let src ← rdS .cpy a
    let n := (← rdS .cpy b).toNat
    copyLen n
    countFlags ev
    copyScope sc
    trapIf (eaMeet dst n src n) .range
    let p ← sourceSpan .cpy .cpyRd sc.toNat src n
    let q ← destSpan .cpy .cpyWr sc.toNat dst n
    pushXfer { Xfer.new (.cpy sc u d a b ev k) sc ev n [p] [q] with ckpt := k = 1 })

/-- NMIRROR (06 R237). -/
def execNmirror (sc : BitVec 3) (u : BitVec 2) (d a b c : BitVec 5) (ev : BitVec 14) : State → Out :=
  op64 .cpy (do
    let dst ← rdS .cpy d
    let src ← rdS .cpy a
    let n := (← rdS .cpy b).toNat
    let mir ← rdS .cpy c
    copyLen n
    countFlags ev
    copyScope sc
    trapIf (bits dst 63 56 = 0xFE || bits mir 63 56 = 0xFE || eaMeet dst n mir n) .range
    let p ← sourceSpan .cpy .cpyRd sc.toNat src n
    let q ← destSpan .cpy .cpyWr sc.toNat dst n
    let r ← destSpan .cpy .cpyWr sc.toNat mir n
    pushXfer { Xfer.new (.nmirror sc u d a b c ev) sc ev n [p] [q] with dst2 := [r], ckpt := true })

/-- The index list of a gather or scatter as it issues: its span and its words (06 R233). -/
def indexList (sc : BitVec 3) (ea : Word) (n : Nat) : Op (Span × List Nat) := do
  trapIf (bits ea 63 56 ≠ 0xFE) .range
  needAlign ea 4
  let p ← sourceSpan .cpy .cpyRd sc.toNat ea (4 * n)
  let d ← readNow p
  return (p, (List.range n).map fun j => leNat ((d.drop (4 * j)).take 4))

/-- The limits of a gather or scatter (06 R233): rows and bytes moved. -/
def rowLimits (cnt : Word) (w : BitVec 11) : Op (Nat × Nat) := do
  let n := cnt.toNat
  let b := w.toNat + 1
  trapIf (n = 0 || 65536 < n || 2048 < b || 2 ^ 28 < 4 * n + b * n) .range
  return (n, b)

/-- GATHER (06 R233). -/
def execGather (sc : BitVec 3) (u : BitVec 2) (d a b c : BitVec 5) (w : BitVec 11) (ev : BitVec 14) : State → Out :=
  op64 .cpy (do
    let dst ← rdS .cpy d
    let tab ← rdS .cpy a
    let idx ← rdS .cpy b
    let (n, bytes) ← rowLimits (← rdS .cpy c) w
    countFlags ev
    copyScope sc
    let (p, js) ← indexList sc idx n
    let rows ← js.mapM fun j => sourceSpan .cpy .cpyRd sc.toNat (tab + BitVec.ofNat 64 (j * bytes)) bytes
    let q ← destSpan .cpy .cpyWr sc.toNat dst (n * bytes)
    pushXfer (Xfer.new (.gather sc u d a b c w ev) sc ev (4 * n + bytes * n) (p :: rows) [q]))

/-- SCATTER (06 R233). -/
def execScatter (sc : BitVec 3) (u : BitVec 2) (d a b c : BitVec 5) (w : BitVec 11) (ev : BitVec 14) : State → Out :=
  op64 .cpy (do
    let tab ← rdS .cpy d
    let src ← rdS .cpy a
    let idx ← rdS .cpy b
    let (n, bytes) ← rowLimits (← rdS .cpy c) w
    countFlags ev
    copyScope sc
    let (p, js) ← indexList sc idx n
    let q ← sourceSpan .cpy .cpyRd sc.toNat src (n * bytes)
    let rows ← js.mapM fun j => destSpan .cpy .cpyWr sc.toNat (tab + BitVec.ofNat 64 (j * bytes)) bytes
    pushXfer (Xfer.new (.scatter sc u d a b c w ev) sc ev (4 * n + bytes * n) [p, q] rows))

/-- BIND (06 R232). -/
def execBind (sc : BitVec 3) (u : BitVec 2) (n : BitVec 3) (a b : BitVec 5) (w : BitVec 11) (ev : BitVec 14) : State → Out :=
  op64 .cpy (do
    let src ← rdS .cpy a
    let len := (← rdS .cpy b).toNat
    copyLen len
    countFlags ev
    copyScope sc
    let p ← sourceSpan .cpy .cpyRd sc.toNat src len
    pushXfer (Xfer.new (.bind sc u n a b w ev) sc ev len [p] []))

/-- The checks of a stamped copy of the runs of a source to an offset of a peer (06 R229; log 24): the peer's core. -/
def stampedCheck (sc peer : Nat) (runs : List (Word × Nat)) (off : Nat) : Op Nat := do
  let s ← get
  let n := runs.foldl (fun n x => n + x.2) 0
  match s.job with
  | none => trap .range
  | some j => do
    trapIf (n = 0 || lrTasks j.lrec ≤ peer || sc = 0 || 5 ≤ sc) .range
    let pc := j.place peer
    trapIf (sc < commonLevel s.core.num pc || 1 < (j.tasksOn pc).length || n % 128 ≠ 0 || 2 ^ 20 < n) .range
    trapIf (runs.any fun x => bits x.1 63 56 ≠ 0xFE || bits x.1 55 20 ≠ 0 || s.padBytes < bits x.1 19 0 + x.2) .range
    if (runs.head?.any fun x => x.1.toNat % 128 ≠ 0) || off % 128 ≠ 0 then trap .align
    trapIf (s.padBytes < off + n) .range
    return pc

/-- CPYS (06 R229, R230). -/
def execCpys (sc : BitVec 3) (u : BitVec 2) (d a b c : BitVec 5) (st : BitVec 20) : State → Out :=
  op64 .cpy (do
    let off := (← rdS .cpy d).toNat
    let src ← rdS .cpy a
    let n := (← rdS .cpy b).toNat
    let peer := (← rdS .cpy c).toNat
    scopeOk sc
    let pc ← stampedCheck sc.toNat peer [(src, n)] off
    queueRoom .cpy
    let q ← nextSeq
    let x := { Xfer.new (.cpys sc u d a b c st) sc 0 n [.pad (bits src 19 0) n] [] with
      peer := some (pc, off), stamp := st.toNat, seq := q }
    modify fun s => s.mapCpy fun c => { c with stamped := c.stamped ++ [x] })

/-- The VA of a record, translated as a read that its home serves; the record itself is no access (06 R219, R246, 02 R73). -/
def recordSegs (va : Nat) : Op (List Seg) := do
  let s ← get
  if 2 ^ 48 ≤ va || s.core.task.windowTouches va 64 then trapWith .range va 0
  else do
    let g ← if s.inHeap va then pure (gaOf s.pkg ((va + lrHeapOff s.lrec) % 2 ^ 64)) else translate .cpyRd va
    if s.linkDead g then trapWith .linkDead va 0
    readable [{ va := va, pa := g, len := 64 }]
    return [{ va := va, pa := g, len := 64 }]

/-- The 64 bytes of a record as one unit (06 R219). -/
def readXferRecord (va : Nat) : Op (BitVec 512) := do
  let segs ← recordSegs va
  let (d, bad, _) ← readSegs .cpy 0 segs
  match bad with
  | [] => return BitVec.ofNat 512 (leNat d)
  | _ => trapKeep .memUncorrectable va 0

/-- Where a range of a chained record is served: as at its `CHAIN`, by the segments that the engine held (02 R62, 06 R219, R226) and
under the step key of that word (08 R284). -/
def Chan.place (c : Chan) (k : AK) (sc : Nat) (ea : Word) (n : Nat) : Op Place :=
  if bits ea 63 56 = 0xFE then padPlace c.held.contains ea n else placeUnder c.key k sc ea n

/-- A record is valid, with its flags, its stamped form and its scratchpad ranges (06 R218, R219, R223, R229). -/
def checkRecord (held : List Nat) (r : BitVec 512) (va : Nat) : Op Unit := do
  let k := recKind r
  let reserved := recField r 0 31 27 ≠ 0 || recField r 0 63 52 ≠ 0 || recField r 0x20 63 32 ≠ 0 || recSc r = 7 ||
    (k = 1 && recField r 0x18 63 11 ≠ 0) || (k = 2 && recField r 0x18 31 20 ≠ 0)
  if reserved then trapWith .reservedField va 0
  if k = 3 || recSc r = 0 || (recField r 0 23 23 = 1) ≠ (k = 2) || recLen r = 0 || 2 ^ 28 < recLen r ||
      (k = 1 && recField r 0x38 63 0 ≠ 0) then trapWith .range va 0
  countFlag (recRel r)
  countFlag (recDel r)
  if k = 2 then
    let runs := (recRuns r).map fun x => (x.1, x.2.2)
    let _ ← stampedCheck (recSc r) (recField r 0x18 63 32) runs (recField r 0x18 19 0)
    runs.forM fun (a, n) => do let _ ← padPlace held.contains a n
  else
    (recRuns r).forM fun (a, b, n) => do
      if bits a 63 56 = 0xFE then let _ ← padPlace held.contains a n
      if k = 0 && bits b 63 56 = 0xFE then let _ ← padPlace held.contains b n

/-- One turn of a walk (06 R219): the record at a VA, checked, its line guarded (R220); `none` when the chain ends before it. -/
def walkRecord (held : List Nat) (va : Nat) (seen : List (Nat × BitVec 512)) : Op (Option (BitVec 512)) := do
  if va % 64 ≠ 0 then trapWith .align va 0
  if seen.length = 4096 || seen.any (fun x => x.1 = va) then trapWith .range va 0
  let r ← readXferRecord va
  if !bit r 0 then return none
  checkRecord held r va
  modify fun s => s.mapTask fun t =>
    if t.guards.contains (va / 128 * 128) then t else { t with guards := t.guards ++ [va / 128 * 128] }
  return some r

/-- The walk of a chain (06 R219), with fuel: the records it will run. -/
def walkChain (held : List Nat) : Nat → Nat → List (Nat × BitVec 512) → Op (List (Nat × BitVec 512))
  | 0, _, seen => pure seen
  | f + 1, va, seen => do
    if va = 0 then return seen
    match ← keeping .cpy (walkRecord held va seen) with
    | none => return seen
    | some r => walkChain held f (recNext r) (seen ++ [(va, r)])

/-- Updates a channel. -/
def State.mapChan (s : State) (n : Nat) (f : Chan → Chan) : State :=
  s.mapCpy fun c => match c.ch[n]? with
    | some x => { c with ch := c.ch.set! n (f x) }
    | none => c

/-- A channel. -/
def State.chan (s : State) (n : Nat) : Chan := (s.core.cpy.ch[n]?).getD Chan.reset

/-- A channel that has been given a chain by the word at a place in program order, not walked yet. -/
def Chan.new (va seq : Nat) (held : List Nat) (key : Option Word) : Chan :=
  { Chan.reset with active := true, record := BitVec.ofNat 48 va, seq := seq, held := held, key := key }

/-- The walk of the chain of a channel `c` from its head on: channel `n` holds the records (06 R219). -/
def startChain (n va : Nat) (c : Chan) : Op Unit := do
  let recs ← walkChain c.held 4097 va []
  modify fun s => s.mapChan n fun _ =>
    if recs = [] then Chan.reset
    else { c with
      walked := true, halted := false, count := recs.length
      reads := recs.flatMap fun x => recReads x.2
      writes := recs.flatMap fun x => s.recWrites x.2 }

/-- A channel whose walk faulted holds its chain's head (06 R226). -/
def State.haltChain (s : State) (n : Nat) (c : Chan) : State := s.mapChan n fun _ => { c with halted := true }

/-- CHAIN (06 R219): the channel walks its chain; a fault of the walk leaves the word issued and the channel at its head. -/
def execChain (n : BitVec 3) (a : BitVec 5) (s : State) : Out :=
  let va := (s.core.cpy.s.getX a).toNat
  let q := s.core.task.seq
  let c := Chan.new va q ((List.range 224).filter (s.core.holds .cpy)) s.openKey
  let skip (t : State) : State := (t.mapStrm .cpy fun r => r.skip 8).mapTask fun x => { x with seq := q + 1 }
  let fail (t : State) (k : Trap) : Out := .next ((skip (t.haltChain n.toNat c)).takeFault .cpy k)
  if (s.chan n.toNat).active then .next s
  else
    match (startChain n.toNat va c).run s with
    | .ok ((), t) => .next (skip t)
    | .error (.stall k) => .next (s.leave .cpy k)
    | .error (.trap k) => fail s k
    | .error (.trapIn u k) => fail u k
    | .error (.fault f) => .fault f

/-- CHSTOP (06 R222): the channel stops at the end of the record that is running, a stamped one that waits among them. -/
def execChstop (n : BitVec 3) : State → Out := op64 .cpy (do
  let s ← get
  trapIf s.jobMode .privilege
  let c := s.chan n.toNat
  let running := c.tail || c.prog ≠ 0 || s.core.cpy.queue.any fun x => x.chan = some n.toNat
  set (s.mapChan n.toNat fun c => if c.active && running then { c with stop := true } else Chan.reset))

end Sys2Proof.Machine
end

