-- ==== Sys2Proof/Machine/CopyRun.lean ====
section
/-! DEFINITION. The events of the copy engine: transfers as they run and complete, entries of bound transfers, chains (06 R213 to
R232). -/

namespace Sys2Proof.Machine

/-- A collective's transfer (06 R234). -/
def Xfer.isColl (x : Xfer) : Bool :=
  match x.i with
  | .collAllReduce _ _ _ _ | .collAllGather _ _ _ _ | .collReduceScatter _ _ _ _ => true
  | _ => false

/-- The stream register and entry length of a bound transfer (06 R232). -/
def Xfer.bound (x : Xfer) : Option (BitVec 3 × Nat) :=
  match x.i with
  | .bind _ _ n _ _ w _ => some (n, w.toNat + 1)
  | .chain _ _ => some (recQ x.desc, recField x.desc 0x18 10 0 + 1)
  | _ => none

/-- The spans whose bytes a transfer moves: the index list of a gather or scatter is not among them (06 R233). -/
def Xfer.source (x : Xfer) : List Span :=
  match x.i with
  | .gather _ _ _ _ _ _ _ _ | .scatter _ _ _ _ _ _ _ _ => x.src.drop 1
  | _ => x.src

/-- A transfer has started (06 R213). -/
def Xfer.started (x : Xfer) : Bool := x.moved || 0 < x.done

/-- Transfers of the core in flight (06 R213): started ones, stamped ones that have issued, records that a channel has begun. -/
def Cpy.inFlight (c : Cpy) : Nat :=
  (c.queue.filter Xfer.started).length + (c.stamped.filter fun x => x.waits && x.moved).length +
    ((List.range 8).filter fun n => match c.ch[n]? with
      | some h => h.active && h.prog ≠ 0 && !c.queue.any fun x => x.chan = some n
      | none => false).length

/-- Another transfer delivers to the stream register of a bound transfer before it (06 R232): the one that has started, else the
first in the queue. -/
def Cpy.boundFirst (c : Cpy) (x : Xfer) (q : BitVec 3) : Bool :=
  let rivals (l : List Xfer) : List Xfer := l.filter fun y => y.seq ≠ x.seq && y.bound.map Prod.fst = some q && y.done < y.len
  (rivals c.queue).any Xfer.started || (!x.started && rivals (c.queue.takeWhile fun y => y.seq ≠ x.seq) ≠ [])

/-- A transfer may start or go on (06 R213, R216, R232). -/
def Core.copyReady (c : Core) (x : Xfer) : Bool :=
  !c.ahead x.seq x.reads x.writes && (x.started || c.cpy.inFlight < 16) &&
    (match x.bound with
    | some (q, _) => !c.cpy.boundFirst x q
    | none => true)

/-- Log kind of a transfer's source reads (11 R365, R368). -/
def Xfer.kind (x : Xfer) : Nat := if x.ckpt then 3 else 0

/-- Updates a transfer of the queue. -/
def State.mapXfer (s : State) (seq : Nat) (f : Xfer → Xfer) : State :=
  s.mapCpy fun c => { c with queue := c.queue.map fun x => if x.seq = seq then f x else x }

/-- A transfer leaves the queue. -/
def State.dropXfer (s : State) (seq : Nat) : State :=
  s.mapCpy fun c => { c with queue := c.queue.filter fun x => x.seq ≠ seq }

/-- An event adds to its flag (06 R223, 02 R66). -/
def State.addEvent (s : State) (f : Option (BitVec 6)) (n : Nat) : State :=
  match f with
  | some f => s.addCount .cpy f n
  | none => s

/-- The fault of a transfer whose source had failing sectors (06 R227). -/
def State.reportBad (s : State) (bad : List (Nat × Nat)) : State :=
  match bad with
  | [] => s
  | (_, va) :: _ => s.stopCore .cpy
      { cause := .memUncorrectable, finfo := BitVec.ofNat 32 bad.length, finfox := 0, faddr := BitVec.ofNat 64 va }

/-- Failures that fences will report join the task's. -/
def State.addFails (s : State) (l : List Failure) : State := s.mapTask fun t => { t with failures := t.failures ++ l }

/-- Bytes [off, off + n) of spans. -/
def cutSpans : List Span → Nat → Nat → List Span
  | [], _, _ => []
  | p :: ps, off, n =>
    if n = 0 then []
    else if p.len ≤ off then cutSpans ps (off - p.len) n
    else
      let k := min n (p.len - off)
      let part : Span := match p with
        | .pad a _ => .pad (a + off) k
        | .win w a _ key => .win w (a + off) k key
        | .mem segs r => .mem (cutSegs segs off k) r
      part :: cutSpans ps 0 (n - k)

/-- The failures of the bytes of a transfer by page, as those of its pieces (log 37). -/
def pageFailures (l : List Failure) : List Failure :=
  l.foldl (fun l f => if l.any (fun g => g.kind = f.kind && g.va / 4096 = f.va / 4096) then l else l ++ [f]) []

/-- Stream bytes [p, p + n) of a direct transfer move, with the failing sectors met before and the failures of its writes:
of `NMIRROR` the primary first, then the mirror (log 24). -/
def State.moveBytes (x : Xfer) (n : Nat) (acc : State × List (Nat × Nat) × List Failure) (p : Nat) :
    State × List (Nat × Nat) × List Failure :=
  let (s, d, more) := acc.1.readSpans .cpy x.kind p (cutSpans x.source p n)
  let bad := addBad acc.2.1 more
  let (s, f1) := s.writeSpans .cpy x.seq bad p d (cutSpans x.dst p n)
  let (s, f2) := s.writeSpans .cpy x.seq bad p d (cutSpans x.dst2 p n)
  (s, bad, acc.2.2 ++ f1 ++ f2)

/-- The bytes of a direct transfer move (06 R233, R241): byte by byte in ascending order when its destination shares storage
with its source, else as one stream. -/
def State.moveXfer (s : State) (x : Xfer) : State :=
  let (s, bad, fs) :=
    if storageMeets x.source (x.dst ++ x.dst2) then
      let (s, bad, fs) := (List.range (spansLen x.source)).foldl (State.moveBytes x 1) (s, [], [])
      (s, bad, pageFailures fs)
    else State.moveBytes x (spansLen x.source) (s, [], []) 0
  s.mapXfer x.seq fun y => { y with moved := true, bad := bad, fails := fs }

/-- A transfer can give its release event. -/
def Core.releaseReady (c : Core) (x : Xfer) : Bool :=
  !x.moved && !x.isColl && (match x.bound with
    | some _ => x.done = x.len
    | none => c.copyReady x)

/-- COPY_RELEASE (06 R223, R225): the source of a transfer has been read, and its bytes are written; the release event. -/
def execCopyRelease (k : BitVec 4) (s : State) : Out :=
  match s.core.cpy.queue[k.toNat]? with
  | none => .next s
  | some x =>
    if !s.core.releaseReady x then .next s
    else
      let t := if x.bound.isSome then s.mapXfer x.seq fun y => { y with moved := true } else s.moveXfer x
      .next (t.addEvent x.rel x.len).applyAdds

/-- Writing `OWN` := 0 into a record (06 R219); a write that does not translate raises its cause in the copy engine. -/
def State.clearOwn (s : State) (va : Nat) (r : BitVec 512) : State :=
  match s.job with
  | none => s
  | some j => match s.jobWrite j .cpyWr va [BitVec.ofNat 8 (bits r 7 1 * 2)] with
    | .ok t => t
    | .error (t, e) => t.stopCore .cpy
        { cause := e.cause, finfo := BitVec.ofNat 32 e.finfo, finfox := 0, faddr := BitVec.ofNat 64 e.va }

/-- A channel past a record goes on to the next one. -/
def State.nextRecord (s : State) (n : Nat) (r : BitVec 512) : State := s.mapChan n fun c => c.past r

/-- The end of a record of a channel: its events, `OWN` cleared, then the fault of its failing sectors, with which the channel
halts at the next record (06 R221, R227). -/
def State.endRecord (s : State) (n : Nat) (r : BitVec 512) (rel : Bool) (bad : List (Nat × Nat)) : State :=
  let s := if rel then s.addEvent (recRel r) (recLen r) else s
  let s := s.addEvent (recDel r) (recLen r)
  let s := (s.clearOwn (s.chan n).record.toNat r).nextRecord n r
  if bad = [] then s.applyAdds
  else ((s.mapChan n fun c => { c with halted := c.active }).reportBad bad).applyAdds

/-- The end of a transfer after its delivery event (06 R223, R227). -/
def State.endXfer (s : State) (x : Xfer) : State :=
  let s := (s.dropXfer x.seq).addFails x.fails
  match x.chan with
  | some n => s.endRecord n x.desc false x.bad
  | none => ((s.addEvent x.del x.dlen).reportBad x.bad).applyAdds

/-- Common level of two cores as the latency of the exchange fabric (06 R231). -/
def hopCycles (a b : Nat) : Nat :=
  match commonLevel a b with
  | 1 => 0 | 2 => 2 | 3 => 8 | _ => 24

/-- Cycle of a stamp on the core at hand (01 R28). -/
def State.stampCycle (s : State) (st : Nat) : Nat := s.core.task.stampbase.toNat + st

/-- Cycle in which a stamped copy completes (06 R231). -/
def State.copyDone (s : State) (x : Xfer) : Nat :=
  s.stampCycle x.stamp + hopCycles s.core.num ((x.peer.getD (0, 0)).1) + x.len / 128

/-- The stamped copies of the core that have issued and are to complete by now, with their cycles (06 R231). -/
def State.landing (s : State) : List Xfer :=
  s.core.cpy.stamped.filter fun x => x.moved && x.done = 0 && s.copyDone x ≤ s.chron.toNat

/-- The channel whose stamped record, at a VA, has run goes on (06 R213). -/
def Cpy.pastStamped (c : Cpy) (va : Nat) (r : BitVec 512) : Cpy :=
  { c with ch := c.ch.map fun (h : Chan) => if h.tail && h.record.toNat = va then h.past r else h }

/-- A stamped copy lands in the peer's scratchpad (06 R230, R231); a stamped record adds its events and clears `OWN`. -/
def State.landCopy (s : State) (x : Xfer) : State :=
  let (p, off) := x.peer.getD (0, 0)
  let (_, d, _) := s.readSpans .cpy 0 0 x.src
  let s := s.mapCoreAt p fun c => { c with pad := c.pad.write off d }
  let s := s.mapCpy fun c => { c with stamped := c.stamped.map fun y => if y.seq = x.seq then { y with done := y.len } else y }
  let s := (s.addEvent x.rel x.len).addEvent x.del x.dlen
  (match x.own with
  | some va => (s.clearOwn va x.desc).mapCpy fun c => c.pastStamped va x.desc
  | none => s).applyAdds

/-- COPY_DELIVERY (06 R223, R225, R227): the destination of a transfer has completed; the delivery event, its end. Numbers past
the queue name the stamped copies that land. -/
def execCopyDelivery (k : BitVec 4) (s : State) : Out :=
  let q := s.core.cpy.queue
  match q[k.toNat]? with
  | some x => .next (if x.moved then s.endXfer x else s)
  | none => match s.landing[k.toNat - q.length]? with
    | some x => .next (s.landCopy x)
    | none => .next s

/-- A vector stream of the task takes entries (05 R172). -/
def State.takesEntries (s : State) : Bool := s.runOf .vec = .running

/-- An entry of a bound transfer can arrive (06 R232). -/
def State.entryReady (s : State) (x : Xfer) : Bool :=
  match x.bound with
  | none => false
  | some (q, _) => !x.moved && x.done < x.len && s.core.copyReady x &&
      (!s.takesEntries || (s.core.vec.q.toList.getD q.toNat []).length < 4) &&
      (match x.chan with | some n => !(s.chan n).halted | none => true)

/-- A bound transfer is stalled only because its stream register holds four entries (06 R232, 01 R46). -/
def State.queueFull (s : State) (x : Xfer) : Bool :=
  match x.bound with
  | none => false
  | some (q, _) => !x.moved && x.done < x.len && s.core.copyReady x && s.takesEntries &&
      4 ≤ (s.core.vec.q.toList.getD q.toNat []).length

/-- The source spans of stream bytes [lo, hi) of a record of a channel, translated and checked (06 R226). -/
def recSource (c : Chan) (r : BitVec 512) (lo hi : Nat) : Op (List Span) :=
  (recPieces r hi (hi - lo) lo).mapM fun (a, _, n) => do takeSource .cpy n (← c.place .cpyRd (recSc r) a n)

/-- The destination spans of stream bytes [lo, hi) of a record of `KIND` 0. -/
def recDest (c : Chan) (r : BitVec 512) (lo hi : Nat) : Op (List Span) :=
  (recPieces r hi (hi - lo) lo).mapM fun (_, b, n) => do takeDest .cpy n (← c.place .cpyWr (recSc r) b n)

/-- A sector of a record fails its checks: the channel halts at it (06 R226, R228). -/
def State.haltSector (s : State) (n k : Nat) : State := s.mapChan n fun c => { c with halted := true, prog := k }

/-- An entry arrives in its stream register, or is discarded (06 R232, 05 R172). -/
def State.pushEntry (s : State) (q : BitVec 3) (d : List Byte) : State :=
  let e : QEntry := { len := d.length, data := BitVec.ofNat 16384 (leNat d) }
  if s.takesEntries then s.mapVec fun v => { v with q := v.q.set! q.toNat (v.q.toList.getD q.toNat [] ++ [e]) } else s

/-- Source bytes of an entry, read from stream byte `p` on, join those that have been read of it: a failing sector reads as zero
(06 R227). -/
def State.gather (s : State) (x : Xfer) (p : Nat) (src : List Span) : State :=
  let (s, d, bad) := s.readSpans .cpy x.kind p src
  s.mapXfer x.seq fun y =>
    let bad := addBad y.bad bad
    { y with part := y.part ++ zeroLost bad p d, bad := bad }

/-- The effect of an entry that ends at stream byte `hi`: delivered, counted. -/
def State.deliver (s : State) (seq : Nat) (q : BitVec 3) (hi : Nat) : State :=
  let d := ((s.core.cpy.queue.find? fun x => x.seq = seq).map Xfer.part).getD []
  (s.pushEntry q d).mapXfer seq fun y => { y with done := hi, part := [] }

/-- Sector `k` of a record of `KIND` 1 on its way into an entry that ends at stream byte `hi`: every check of the sector, then its
bytes, from stream byte `p` on (06 R226). -/
def entrySector (n : Nat) (x : Xfer) (hi k p : Nat) : Op Unit := do
  let src ← recSource ((← get).chan n) x.desc (64 * k) (min (64 * k + 64) x.len)
  modify fun s => (s.gather x p (cutSpans src (p - 64 * k) (min (64 * k + 64) hi - p))).mapChan n fun c =>
    { c with prog := min (64 * k + 64) hi / 64 }

/-- The rest of an entry that ends at stream byte `hi` of a record of `KIND` 1, sector by sector, then its delivery; with fuel. What
has been read of it stays when a sector fails (06 R226, R228). -/
def runEntry (n : Nat) (q : BitVec 3) (seq hi : Nat) : Nat → State → Out
  | 0, s => .next s
  | f + 1, s => match s.core.cpy.queue.find? fun x => x.seq = seq with
    | none => .next s
    | some x =>
      let p := x.done + x.part.length
      if hi ≤ p then .next (s.deliver seq q hi)
      else match (entrySector n x hi (p / 64) p).run s with
      | .ok ((), t) => runEntry n q seq hi f t
      | .error (.stall w) => .next (s.leave .cpy w)
      | .error (.trap t) => .next ((s.haltSector n (p / 64)).takeFault .cpy t)
      | .error (.trapIn u t) => .next ((u.haltSector n (p / 64)).takeFault .cpy t)
      | .error (.fault e) => .fault e

/-- STREAM_ENTRY_ARRIVAL (06 R232): the next entry of a bound transfer; one of a chain is checked sector by sector. -/
def execStreamEntryArrival (k : BitVec 4) (s : State) : Out :=
  match s.core.cpy.queue[k.toNat]? with
  | none => .next s
  | some x => match x.bound with
    | none => .next s
    | some (q, e) =>
      if !s.entryReady x then .next s
      else
        let hi := min (x.done + e) x.len
        match x.chan with
        | none => .next ((s.gather x x.done (cutSpans x.src x.done (hi - x.done))).deliver x.seq q hi)
        | some n => runEntry n q x.seq hi (e / 64 + 3) s

/-- One sector of a record of `KIND` 0 (06 R226): every check, then its bytes. -/
def runSector (n : Nat) (r : BitVec 512) (k : Nat) : Op Unit := do
  let lo := 64 * k
  let hi := min (lo + 64) (recLen r)
  let c := (← get).chan n
  let src ← recSource c r lo hi
  let dst ← recDest c r lo hi
  modify fun s =>
    let (s, d, bad) := s.readSpans .cpy (if bit r 1 then 3 else 0) lo src
    let (s, fs) := s.writeSpans .cpy (s.chan n).seq bad lo d dst
    (s.addFails fs).mapChan n fun c => { c with prog := k + 1, bad := addBad c.bad bad }

/-- The sectors of a record from the channel's progress on, then its end; with fuel. -/
def runSectors (n : Nat) (r : BitVec 512) : Nat → State → Out
  | 0, s => .next s
  | f + 1, s =>
    let k := (s.chan n).prog
    if recLen r ≤ 64 * k then .next (s.endRecord n r true (s.chan n).bad)
    else match (runSector n r k).run s with
    | .ok ((), t) => runSectors n r f t
    | .error (.stall w) => .next (s.leave .cpy w)
    | .error (.trap t) => .next ((s.haltSector n k).takeFault .cpy t)
    | .error (.trapIn u t) => .next ((u.haltSector n k).takeFault .cpy t)
    | .error (.fault e) => .fault e

/-- The transfer of a record of `KIND` 1 or 2 as it enters the queue of the engine (06 R217, R229, R232). -/
def chainXfer (n : Nat) (c : Chan) (r : BitVec 512) (pc : Nat) : Xfer :=
  { i := .chain (BitVec.ofNat 3 n) 0, src := if recKind r = 2 then recReads r else [], dst := [], dst2 := [],
    rel := recRel r, del := recDel r, len := recLen r, dlen := recLen r, sc := recSc r, ckpt := bit r 1, moved := false,
    done := 0, part := [], desc := r, chan := if recKind r = 1 then some n else none,
    own := if recKind r = 2 then some c.record.toNat else none, fails := [], bad := [],
    peer := if recKind r = 2 then some (pc, recField r 0x18 19 0) else none, stamp := recField r 0 51 32, void := false, seq := c.seq }

/-- A channel's next record starts (06 R213, R218, R219): `KIND` 0 runs to its end, `KIND` 1 is bound to its stream register, `KIND` 2
waits for the exchange phase, and the channel with it. -/
def runRecord (n : Nat) (r : BitVec 512) (s : State) : Out :=
  let c := s.chan n
  match recKind r with
  | 0 => runSectors n r (recLen r / 64 + 2) s
  | 1 => .next (s.mapCpy fun y => { y with queue := y.queue ++ [chainXfer n c r 0] })
  | _ =>
    let pc := (s.job.map fun j => j.place (recField r 0x18 63 32)).getD 0
    .next ((s.mapCpy fun y => { y with stamped := y.stamped ++ [chainXfer n c r pc] }).mapChan n fun h => { h with tail := true })

/-- A channel can go on (06 R213, R216, R226). -/
def State.chanReady (s : State) (n : Nat) : Bool :=
  let c := s.chan n
  c.active && !c.tail && !c.halted && !s.core.cpy.queue.any (fun x => x.chan = some n) &&
    (!c.walked || (!s.core.ahead c.seq c.reads c.writes && (c.prog ≠ 0 || s.core.cpy.inFlight < 16)))

/-- CHAIN_RECORD_RUN (06 R218, R219, R221, R226): a channel runs its next record; one whose walk faulted walks again. -/
def execChainRecordRun (n : BitVec 3) (s : State) : Out :=
  let c := s.chan n.toNat
  let va := c.record.toNat
  if !s.chanReady n.toNat then .next s
  else if !c.walked then
    match (startChain n.toNat va c).run s with
    | .ok ((), t) => .next t
    | .error (.stall k) => .next (s.leave .cpy k)
    | .error (.trap k) => .next ((s.mapChan n.toNat fun c => { c with halted := true }).takeFault .cpy k)
    | .error (.trapIn u k) => .next ((u.mapChan n.toNat fun c => { c with halted := true }).takeFault .cpy k)
    | .error (.fault f) => .fault f
  else
    match (readXferRecord va).run s with
    | .ok (r, t) => runRecord n.toNat r t
    | .error (.stall k) => .next (s.leave .cpy k)
    | .error (.trap k) => .next ((s.haltSector n.toNat c.prog).takeFault .cpy k)
    | .error (.trapIn u k) => .next ((u.haltSector n.toNat c.prog).takeFault .cpy k)
    | .error (.fault f) => .fault f

end Sys2Proof.Machine
end

