-- ==== Sys2Proof/Machine/Coll.lean ====
section
/-! DEFINITION. Copy collectives: the words as they issue and gather, and the run of a gathered collective (06 R234 to R236,
13 R437). -/

namespace Sys2Proof.Machine

/-- `OP` of a collective descriptor (06 R234). -/
def collOp (r : BitVec 512) : Nat := recField r 0 3 0
/-- `KIND`. -/
def collKind (r : BitVec 512) : Nat := recField r 0 7 4
/-- `TY4`. -/
def collTy (r : BitVec 512) : Nat := recField r 0 11 8
/-- `NPART`. -/
def collNpart (r : BitVec 512) : Nat := recField r 0 31 16
/-- `RANK`. -/
def collRank (r : BitVec 512) : Nat := recField r 0 47 32
/-- `COUNT`. -/
def collCount (r : BitVec 512) : Nat := recField r 8 63 0
/-- `CSRC`. -/
def collSrc (r : BitVec 512) : Word := BitVec.ofNat 64 (recField r 0x10 63 0)
/-- `CDST`. -/
def collDst (r : BitVec 512) : Word := BitVec.ofNat 64 (recField r 0x18 63 0)

/-- Bytes of the source of a collective. -/
def collSrcLen (r : BitVec 512) : Nat := collCount r * redSize (collTy r)

/-- Elements of a destination (06 R234). -/
def collDstCount (r : BitVec 512) : Nat :=
  match collKind r with
  | 0 => collCount r
  | 1 => collCount r * collNpart r
  | _ => collCount r / collNpart r

/-- Bytes of a destination. -/
def collDstLen (r : BitVec 512) : Nat := collDstCount r * redSize (collTy r)

/-- A pair of `OP` and `TY4` that R149 assigns. -/
def redPair (op ty : Nat) : Bool := ty < 8 && (op = 0 || (op < 3 && ty < 4) || (op < 6 && (ty = 2 || ty = 3)))

/-- A descriptor breaks a limit of R234. -/
def collBad (r : BitVec 512) : Bool :=
  2 < collKind r || !redPair (collOp r) (collTy r) || (collKind r = 1 && collOp r ≠ 0) || collNpart r = 0 ||
    collNpart r ≤ collRank r || (collKind r = 2 && collCount r % collNpart r ≠ 0) || 2 ^ 28 < collSrcLen r ||
    2 ^ 28 < collDstLen r || eaMeet (collSrc r) (collSrcLen r) (collDst r) (collDstLen r)

/-- A descriptor has a reserved bit set. -/
def collReserved (r : BitVec 512) : Bool :=
  recField r 0 15 12 ≠ 0 || recField r 0 63 48 ≠ 0 || r.extractLsb' 256 256 ≠ 0

/-- Two descriptors agree as participants of one collective (06 R236). -/
def collAgree (a b : BitVec 512) : Bool :=
  collOp a = collOp b && collKind a = collKind b && collTy a = collTy b && collNpart a = collNpart b && collCount a = collCount b

/-- The collective that the core's task takes part in next (06 R235, 13 R437). -/
def State.myColl (s : State) (sc : Nat) (c : Coll) : Bool :=
  let t := s.core.task
  some c.job = s.core.job && c.sc = sc && c.unit = (if sc = 3 then s.core.die else 0) && c.seq = t.collseq &&
    c.gen = (if t.tx.st = 1 then some t.tx.gen else none)

/-- The transfer of a participant. -/
def State.partOf (s : State) (p : Nat × Nat) : Option Xfer := (s.coreAt p.1).cpy.queue.find? fun x => x.seq = p.2

/-- `RANGE` in every participant of a collective whose participants differ (06 R236). -/
def State.breakParts (s : State) (c : Coll) : State :=
  let s := c.who.foldl (fun (s : State) p => s.onCore p.1 fun s =>
    (s.dropXfer p.2).stopCore .cpy { cause := .range, finfo := 0, finfox := 0, faddr := 0 }) s
  { s with colls := s.colls.map fun d => if d = c && !c.ran then { d with who := [], broken := true } else d }

/-- The `COLL` of a task (06 R234, R235, R241): its descriptor, its ranges, its place among the participants. -/
def coll (sc : BitVec 3) (u : BitVec 2) (a : BitVec 5) (ev : BitVec 14) : State → Out := op64 .cpy (do
  let s0 ← get
  let va ← rdS .cpy a
  trapIf (sc.toNat < 3 || 5 < sc.toNat) .range
  scopeOk sc
  countFlags ev
  needAlign va 64
  trapIf (bits va 63 56 = 0xFE) .range
  trapIf s0.sharesCore .range
  if s0.core.task.windowTouches va.toNat 64 then trapWith .range va.toNat 0
  let d ← readNow (← takeSource .cpy 64 (← place .cpy .cpyRd 6 va 64))
  let r := BitVec.ofNat 512 (leNat d)
  if collReserved r then trapWith .reservedField va.toNat 0
  if collBad r then trapWith .range va.toNat 0
  let p ← sourceSpan .cpy .cpyRd sc.toNat (collSrc r) (collSrcLen r)
  let q ← destSpan .cpy .cpyWr sc.toNat (collDst r) (collDstLen r)
  let x := { Xfer.new (.collAllReduce sc u a ev) sc ev (collSrcLen r) [p] [q] with dlen := collDstLen r, desc := r }
  let g := s0.colls.find? (s0.myColl sc.toNat)
  let clash := match g with
    | none => false
    | some c => c.broken || c.ran || (c.who.filterMap s0.partOf).any fun y => !collAgree y.desc r || collRank y.desc = collRank r
  if clash then throw (.trapIn (match g with | some c => s0.breakParts c | none => s0)
    { cause := .range, finfo := 0, finfox := 0, faddr := va })
  let s ← get
  let me := (s.core.num, s.core.task.seq)
  let t := s.core.task
  let new : Coll :=
    { job := s.core.job.getD 0, sc := sc.toNat, unit := if sc = 3 then s.core.die else 0, seq := t.collseq,
      gen := if t.tx.st = 1 then some t.tx.gen else none, who := [me], broken := false, cut := false, ran := false }
  pushXfer x
  modify fun s =>
    let s := s.mapTask fun t => { t with collseq := t.collseq + 1 }
    match g with
    | some c => { s with colls := s.colls.map fun d => if d = c then { d with who := d.who ++ [me] } else d }
    | none => { s with colls := s.colls ++ [new] })

/-- COLL_ALL_REDUCE (06 R234 to R236). -/
def execCollAllReduce (sc : BitVec 3) (u : BitVec 2) (a : BitVec 5) (ev : BitVec 14) : State → Out :=
  coll sc u a ev

/-- COLL_ALL_GATHER (06 R234 to R236). -/
def execCollAllGather (sc : BitVec 3) (u : BitVec 2) (a : BitVec 5) (ev : BitVec 14) : State → Out :=
  coll sc u a ev

/-- COLL_REDUCE_SCATTER (06 R234 to R236). -/
def execCollReduceScatter (sc : BitVec 3) (u : BitVec 2) (a : BitVec 5) (ev : BitVec 14) : State → Out :=
  coll sc u a ev

/-- What a participant contributes: rank, source elements, the positions of the failing ones. -/
structure CollPart where
  rank  : Nat
  elems : List Nat
  lost  : List Nat

/-- The elements of `n` bytes each of a list of bytes. -/
def elemsOf (n count : Nat) (d : List Byte) : List Nat := (List.range count).map fun i => leNat ((d.drop (i * n)).take n)

/-- The source of a participant, read (06 R236). -/
def State.readPart (s : State) (p : Nat × Nat) : State × Option CollPart :=
  match s.partOf p with
  | none => (s, none)
  | some x =>
    let here := s.core.num
    let (t, d, bad) := (s.focus p.1).readSpans .cpy 0 0 x.src
    let n := redSize (collTy x.desc)
    let t := t.mapXfer x.seq fun y => { y with moved := true, bad := bad }
    (t.focus here, some
      { rank := collRank x.desc, elems := elemsOf n (collCount x.desc) d,
        lost := (List.range (collCount x.desc)).filter fun i => lostAt bad (i * n) })

/-- A participant of another package. -/
def RemotePart.part (p : RemotePart) : CollPart := { rank := p.rank.toNat, elems := p.elems.map BitVec.toNat, lost := p.lost }

/-- Elements combined: integers as R82 gives, a floating sum through an exact accumulator that starts empty (02 R83, R84). -/
def combineElems (op ty : Nat) (l : List Nat) : Nat :=
  if ty < 4 then
    match l with
    | [] => 0
    | x :: xs => xs.foldl (redInt op ty) x
  else
    let a : RedAcc :=
      { pa := 0, job := 0, key := 0, ty := ty, n := 0, pinf := false, ninf := false, nan := false, count := 0, negz := true,
        spilled := false, who := [] }
    (l.foldl RedAcc.contribute a).round

/-- The result of a collective for a rank: its destination elements, with whether each is lost (06 R236). -/
def collResult (r : BitVec 512) (ps : List CollPart) (rank : Nat) : List (Nat × Bool) :=
  let reduced (i : Nat) : Nat × Bool :=
    (combineElems (collOp r) (collTy r) (ps.map fun p => p.elems.getD i 0), ps.any fun p => p.lost.contains i)
  match collKind r with
  | 0 => (List.range (collCount r)).map reduced
  | 1 => (List.range (collNpart r)).flatMap fun k => (List.range (collCount r)).map fun i =>
    match ps.find? fun p => p.rank = k with
    | some p => (p.elems.getD i 0, p.lost.contains i)
    | none => (0, false)
  | _ => (List.range (collDstCount r)).map fun i => reduced (rank * collDstCount r + i)

/-- The fault of a participant that met a failing sector: its own source's, else its destination's (06 R236). -/
def State.reportLost (s : State) (x : Xfer) (lost : List Nat) : State :=
  let n := redSize (collTy x.desc)
  match x.bad, lost with
  | [], [] => s
  | [], i :: _ => s.stopCore .cpy
      { cause := .memUncorrectable, finfo := BitVec.ofNat 32 ((lost.map fun i => i * n / 64).eraseDups).length, finfox := 0,
        faddr := collDst x.desc + BitVec.ofNat 64 (i * n) }
  | bad, _ => s.reportBad bad

/-- A transfer leaves the queue with its events (06 R223, R236). -/
def State.endPart (s : State) (x : Xfer) : State :=
  ((s.dropXfer x.seq).addEvent x.rel x.len).addEvent x.del x.dlen

/-- A participant receives its result, its events, its fault (06 R236). -/
def State.finishPart (s : State) (ps : List CollPart) (p : Nat × Nat) : State :=
  match s.partOf p with
  | none => s
  | some x => s.onCore p.1 fun s =>
    let n := redSize (collTy x.desc)
    let res := collResult x.desc ps (collRank x.desc)
    let lost := (List.range res.length).filter fun i => ((res[i]?).map Prod.snd).getD false
    let bad := (lost.map fun i => i * n / 64).eraseDups.map fun k => (k, 0)
    let (s, fs) := s.writeSpans .cpy x.seq bad 0 (res.flatMap fun e => natLe n e.1) x.dst
    (((s.endPart x).addFails fs).reportLost x lost).applyAdds

/-- A participant ends with its events and nothing written, with a fault when a link is dead (06 R236, 13 R437). -/
def State.cutPart (s : State) (dead : Bool) (p : Nat × Nat) : State :=
  match s.partOf p with
  | none => s
  | some x => s.onCore p.1 fun s =>
    let s := s.endPart x
    let s := if dead then s.stopCore .cpy { cause := .linkDead, finfo := 0, finfox := 0, faddr := 0 } else s
    s.applyAdds

/-- The participants of this package, with those named of others, gather. -/
def State.collGathered (s : State) (c : Coll) (remote : List RemotePart) : Bool :=
  let xs := c.who.filterMap s.partOf
  match xs with
  | [] => false
  | x :: _ =>
    xs.length + remote.length = collNpart x.desc &&
      c.who.all fun p => match s.partOf p with
        | some x => !(s.coreAt p.1).ahead x.seq x.src x.dst && (s.coreAt p.1).cpy.inFlight < 16
        | none => false

/-- Ranks of participants are distinct, and those of other packages agree (06 R236). -/
def State.collClash (s : State) (c : Coll) (remote : List RemotePart) : Bool :=
  let rs := (c.who.filterMap s.partOf).map (fun x => collRank x.desc) ++ remote.map fun p => p.rank.toNat
  remote.any (fun p => !p.agree) || rs.eraseDups.length ≠ rs.length

/-- A collective leaves the gathering. -/
def State.dropColl (s : State) (c : Coll) : State := { s with colls := s.colls.filter fun d => d ≠ c }

/-- An abort of a job's generation has reached this package: its collectives that still gather end (13 R437). -/
def State.genAborted (s : State) (id : Nat) (gen : Option (BitVec 64)) : Bool :=
  match gen, s.jobAt id with
  | some g, some j =>
    (g = j.gen && (match j.decided with | p :: _ => !pkCommit p.1 | [] => false)) ||
      (g + 1 = j.gen && (match j.applied with | some p => !pkCommit p | none => false))
  | _, _ => false

/-- A collective has run: a participant that issues later differs from it (06 R236). -/
def State.doneColl (s : State) (c : Coll) : State :=
  { s with colls := s.colls.map fun d => if d = c then { d with who := [], ran := true } else d }

/-- The collectives that gather. -/
def State.gathering (s : State) : List Coll := s.colls.filter fun c => !c.ran

/-- COLLECTIVE_RUN (06 R236, 13 R437): the k-th of the collectives that gather runs and completes in its participants. -/
def execCollectiveRun (k : BitVec 8) (remote : List RemotePart) (dead : Bool) (s : State) : Out :=
  match s.gathering[k.toNat]? with
  | none => .next s
  | some c =>
    if c.broken then .next s
    else if c.cut || s.genAborted c.job c.gen then .next (c.who.foldl (State.cutPart · false ·) (s.dropColl c))
    else if s.collClash c remote then .next (s.breakParts c)
    else if !s.collGathered c remote then .next s
    else if dead then .next (c.who.foldl (State.cutPart · true ·) (s.doneColl c))
    else
      let (t, ps) := c.who.foldl (fun (x : State × List CollPart) p =>
        let (t, q) := x.1.readPart p
        (t, x.2 ++ q.toList)) (s, [])
      .next (c.who.foldl (State.finishPart · (ps ++ remote.map RemotePart.part) ·) (t.doneColl c))

end Sys2Proof.Machine
end

