-- ==== Sys2Proof/Machine/Deadlock.lean ====
section
/-! DEFINITION. `DEADLOCK` (01 R46, 06 R232). -/

namespace Sys2Proof.Machine

/-- A transfer of the copy queue counts as in flight: not one stalled only by a full stream register (06 R232). -/
def State.xferFlies (s : State) (x : Xfer) : Bool := !s.queueFull x

/-- A channel counts as in flight: not one whose bound transfer is so stalled (06 R232). -/
def State.chanFlies (s : State) (n : Nat) : Bool :=
  (s.chan n).active && !s.core.cpy.queue.any fun x => x.chan = some n && s.queueFull x

/-- Something of the core's resident task is in flight (01 R46). -/
def State.inFlight (s : State) : Bool :=
  let c := s.core
  c.vec.out ≠ [] || c.mtx.queue ≠ [] || c.mtx.stamped ≠ [] || c.cpy.queue.any s.xferFlies ||
    c.cpy.stamped ≠ [] || (List.range 8).any s.chanFlies || c.loads ≠ [] || c.writes ≠ [] || c.nms ≠ [] || c.walks ≠ [] || c.adds ≠ [] ||
    s.reds.any (fun r => !r.away && r.core = c.num) || c.task.children.any (fun k => !k.done) || c.task.sync.isSome

/-- Every stream of the resident task that runs is blocked (01 R46). -/
def State.allBlocked (s : State) : Bool :=
  s.runOf .ast ≠ .running &&
    [Eng.ctl, .vec, .mtx, .cpy].all fun e => s.runOf e.strm ≠ .running || s.core.stalled.toList.getD e.code false

/-- The condition of R46 holds for the core at hand. -/
def State.stuck (s : State) : Bool :=
  s.core.job.isSome && s.core.stop.isNone && s.core.task.st = .resident && s.runOf .ctl = .running && s.allBlocked && !s.inFlight

/-- The cycle since which the condition of R46 has held, noted at the end of the core's round. -/
def State.noteStuck (s : State) : State :=
  s.mapCore fun c => { c with blocked := if s.stuck then (if c.blocked = 0 then s.chron.toNat else c.blocked) else 0 }

/-- `DEADLOCK` of the core at hand is due (01 R46): at the end of a round in which every stream has tried again, the condition
noted 64 cycles before still holds. -/
def State.deadlockDue (s : State) (c : Core) : Bool :=
  c.blocked ≠ 0 && c.blocked + 64 ≤ s.chron.toNat && c.stop.isNone && s.turn.isNone && s.stuck

/-- DEADLOCK (01 R46). -/
def execDeadlock (s : State) : Out :=
  .next (if s.deadlockDue s.core then
      (s.mapCore fun c => { c with blocked := 0 }).stopCore .ctl { cause := .deadlock, finfo := 0, finfox := 0, faddr := 0 }
    else s)

end Sys2Proof.Machine
end

