-- ==== Sys2Proof/Machine/Tiles.lean ====
section
/-! DEFINITION. Tile descriptors, tiles as a matrix command finds them, and the arithmetic of a product (09 R291 to R302). -/

namespace Sys2Proof.Machine

/-- `ADDR` of a tile descriptor (09 R294). -/
def tdAddr (d : BitVec 128) : Nat := bits d 47 0
/-- `WIN`. -/
def tdWin (d : BitVec 128) : Nat := bits d 51 48
/-- `FMT`. -/
def tdFmt (d : BitVec 128) : Nat := bits d 55 52
/-- `TAG`. -/
def tdTag (d : BitVec 128) : Bool := bit d 56
/-- `TR`. -/
def tdTr (d : BitVec 128) : Bool := bit d 57
/-- `KIND`. -/
def tdKind (d : BitVec 128) : Nat := bits d 61 60
/-- Stored rows. -/
def tdRows (d : BitVec 128) : Nat := bits d 79 64 + 1
/-- Stored columns. -/
def tdCols (d : BitVec 128) : Nat := bits d 95 80 + 1
/-- `STR`. -/
def tdStr (d : BitVec 128) : Nat := bits d 119 96

/-- A descriptor value that no `MTILE` writes (09 R311). -/
def tdReserved (d : BitVec 128) : Bool :=
  bits d 63 62 ≠ 0 || bits d 127 120 ≠ 0 || tdKind d = 3 || (4 < tdFmt d && tdFmt d < 8) || (tdTag d && tdFmt d ≠ 0)

/-- The type of a tile format code (03 R108). -/
def fmtTy (code : Nat) (nfd : BitVec 5) : Ty :=
  match code with
  | 0 => .flt fmt32
  | 1 => .flt fmtBf
  | 2 => .flt fmt16
  | 3 => .int true 8
  | 4 => .int false 8
  | _ => .flt (fmtNarrow nfd)

/-- The type of a tile's elements. -/
def Tile.ty (t : Tile) : Ty := fmtTy t.fmt t.nfd

/-- Shape of a tile, after `TR` (09 R295). -/
def Tile.dims (t : Tile) : Nat × Nat := if t.tr then (t.cols, t.rows) else (t.rows, t.cols)

/-- Bytes from the first to the last byte of the stored block. -/
def Tile.block (t : Tile) (d : BitVec 128) : Nat := (t.rows - 1) * tdStr d + t.cols * t.size

/-- The descriptors under which a line was last filled by a cycle (02 R99, R100; log 8): those in force, unless the line is one that
the L2 has kept since before they were set. -/
def tagFrd (line : Nat) (key : BitVec 8) : Nat → Vector Frd 16 → List FrdEra → Vector Frd 16
  | _, frd, [] => frd
  | now, frd, e :: es =>
    if e.till.toNat + Config.l2Keeps line key e.till ≤ now then frd else tagFrd line key e.till.toNat e.frd es

/-- The descriptors of the past under which a line of a key identifier may still be cached: those since the identifier was last
retired (02 R96, R100). -/
def Carafe.erasOf (c : Carafe) (key : BitVec 8) : List FrdEra :=
  match c.retired.find? fun x => x.1 = key with
  | some (_, t) => c.frdOld.filter fun e => t.toNat ≤ e.till.toNat
  | none => c.frdOld

/-- The format code and the descriptor number with which a line is tagged for the key at hand: those that the descriptors gave it
when it was filled (02 R96, R99, R100, 03 R108; log 8); only own DRAM lines are tagged. -/
def State.lineTag (s : State) (ga : Nat) : Option (Nat × Nat) :=
  if gaHost ga || gaPkg ga ≠ s.pkg.toNat then none
  else
    let frd := tagFrd (ga / 128) s.key s.chron.toNat s.carafe.frd (s.carafe.erasOf s.key)
    match formatRegion frd (gaPa ga) with
    | some n =>
      let code := ((frd[n]?).map fun f => f.fmt.toNat).getD 0
      if 4 < code && code < 8 then none else some (code, n)
    | none => none

/-- The tile of a descriptor of a format code, its rows not placed yet; `ALIGN` and an unset narrow descriptor (09 R295). -/
def tileShape (d : BitVec 128) (code : Nat) : Op Tile := do
  let s ← get
  let nfd := s.core.task.nfd.toList.getD (code - 8) 0
  trapIf (8 ≤ code && bits nfd 2 0 = 0) .range
  let size := (fmtTy code nfd).width / 8
  if tdAddr d % size ≠ 0 || tdStr d % size ≠ 0 then trapWith .align (if tdKind d = 1 then tdAddr d else 0) 0
  return { src := [], fmt := code, nfd := nfd, tr := tdTr d, rows := tdRows d, cols := tdCols d, size := size }

/-- The stored rows of a tile, from its first byte: each by its offset in the block and its bytes. -/
def Tile.offsets (t : Tile) (d : BitVec 128) : List Nat := (List.range t.rows).map fun p => p * tdStr d

/-- The bounds of a tile whose source needs no translation (09 R295, R316). -/
def tileBounds (k : AK) (d : BitVec 128) (t : Tile) : Op Unit := do
  let s ← get
  match tdKind d with
  | 0 => trapIf (s.padBytes < tdAddr d + t.block d) .range
  | 1 => pure ()
  | _ => do
    let w := (s.core.task.wins[tdWin d]?).getD Window.reset
    trapIf (!w.en) .range
    let va := wBase w.img + tdAddr d
    if k.writes then trapWith .ephemerisStore va (tdWin d)
    if wSize w.img < tdAddr d + t.block d then trapWith .range va 0
    trapIf (wKs w.img && s.core.task.tx.st = 0) .txState

/-- A tile with its rows located (09 R295, R296, R302): a `KIND` 1 block is served as a whole by what serves its first byte. -/
def locateTile (k : AK) (d : BitVec 128) (t : Tile) : Op Tile := do
  let s ← get
  let n := t.cols * t.size
  let wins (w va : Nat) : List Span := (t.offsets d).map fun o => .win w (va + o) n s.stepKeyOf
  match tdKind d with
  | 0 => return { t with src := (t.offsets d).map fun o => .pad (tdAddr d + o) n }
  | 1 =>
    match ← locate k 6 (tdAddr d) (t.block d) ((t.offsets d).map fun o => (tdAddr d + o, n)) with
    | .win w => return { t with src := wins w (tdAddr d) }
    | .mem rows => return { t with src := rows.map fun r => .mem r [] }
  | _ => return { t with src := wins (tdWin d) (wBase ((s.core.task.wins[tdWin d]?).getD Window.reset).img + tdAddr d) }

/-- The class checks of the rows of a located tile, with what their homes refuse (02 R69, R81, 09 R296, R316). -/
def classTile (k : AK) (t : Tile) : Op Tile := do
  let src ← t.src.mapM fun p => match p with
    | .mem segs _ => do
      let r ← checkClass k (segs.headD { va := 0, pa := 0, len := 0 }).va (t.cols * t.size)
      return Span.mem segs r
    | p => return p
  return { t with src := src }

/-- The bounds of tiles, then their rows located (09 R302, R306). -/
def locateTiles (k : AK) (l : List (BitVec 128 × Tile)) : Op (List Tile) := do
  l.forM fun (d, t) => tileBounds k d t
  l.mapM fun (d, t) => locateTile k d t

/-- The format of a tagged tile (09 R297): the code of every line of its block. -/
def tagCode (d : BitVec 128) : Op Nat := do
  let s ← get
  let a := tdAddr d
  trapIf (tdKind d ≠ 1 || (s.core.task.windowAt a).isSome) .range
  let tag (r : Source) : Option (Nat × Nat) := match r with
    | .mem ((g :: _) :: _) => s.lineTag g.pa
    | _ => none
  match tag (← locate .tile 6 a 1 [(a, 1)]) with
  | none => trapWith .range (a / 128 * 128) 1
  | some (code, _) => do
    let t ← tileShape d code
    let lines := match ← locate .tile 6 a (t.block d) [(a, t.block d)] with
      | .mem rows => rows.flatten.flatMap Seg.lines
      | .win _ => []
    match lines.find? fun l => (s.lineTag l.1).map Prod.fst ≠ some code with
    | some l => trapWith .range l.2 (if (s.lineTag l.1).isNone then 1 else 2)
    | none => return code

/-- The tile of a descriptor, its format resolved (09 R295, R297). -/
def openTile (d : BitVec 128) : Op Tile := do
  let code ← if tdTag d then tagCode d else pure (tdFmt d)
  tileShape d code

/-- The scale tile of a tagged operand (09 R297, 02 R99): one BF16 scale for each 32 elements along its stored rows. -/
def tagScales (d : BitVec 128) (t : Tile) (isA : Bool) : Op Tile := do
  let s ← get
  if t.tr = isA then trapWith .align (tdAddr d) 0
  let g := ceilDiv t.cols 32
  let spans ← t.src.flatMapM fun row => (List.range g).mapM fun m => do
    match cutSegs row.segs (32 * m * t.size) 1 with
    | [] => trapWith .align (tdAddr d) 0
    | c :: _ => match s.lineTag c.pa with
      | none => trapWith .range c.va 1
      | some (_, k) => do
        let f := (s.carafe.frd[k]?).getD Frd.reset
        let off := gaPa c.pa % 2 ^ 40 - f.base.toNat * 4096
        if off % (32 * t.size) ≠ 0 then trapWith .align c.va 0
        return Span.mem [{ va := 0, pa := gaOf s.pkg (f.scale.toNat * 64 + 2 * (off / (32 * t.size))), len := 2 }] []
  return { src := spans, fmt := 1, nfd := 0, tr := t.tr, rows := t.rows, cols := g, size := 2 }

/-- The matrix engine holds the scratchpad segments of tiles and the accumulators named (09 R293). -/
def holdTiles (ts : List Tile) (accs : List Nat) : Op Unit := do
  let s ← get
  let pads := padRanges (ts.flatMap Tile.src)
  trapIf (!(pads.all fun p => s.core.holdsPad .mtx p.1 p.2) || !(accs.all fun a => s.core.holds .mtx (224 + a))) .segmentHolder

/-- The pieces of memory that tiles lie in. -/
def tileSegs (ts : List Tile) : List Seg := (ts.flatMap Tile.src).flatMap Span.segs

/-- A tile's bytes: its stored rows one after another. -/
def State.readTile (s : State) (t : Tile) : State × List Byte × List (Nat × Nat) := s.readSpans .mtx 0 0 t.src

/-- Element (r, c) of a tile from its bytes, as a raw code (09 R295). -/
def Tile.elem (t : Tile) (d : List Byte) (r c : Nat) : Nat :=
  let p := if t.tr then c else r
  let q := if t.tr then r else c
  leNat ((d.drop ((p * t.cols + q) * t.size)).take t.size)

/-- An element as an exact value for a floating product (03 R114). -/
def tileVal (y : Ty) (flush : Bool) (c : Nat) : Exact :=
  match y with
  | .flt F => F.operand flush c
  | .int _ _ => .nan

/-- An element as an integer. -/
def tileInt (y : Ty) (c : Nat) : Int :=
  match y with
  | .int true w => sval w c
  | _ => (c : Int)

/-- FADE of an element (09 R299, R314). -/
def fadeElem (sat flush : Bool) (f c : Nat) : Nat :=
  roundFull fmt32 0 sat flush (Exact.mul (fmt32.operand flush c) (fmt32.operand flush f)) 0

/-- The control of a product: `INIT` with the faded factor, `MODE`, `SAT`, `FLUSH`. -/
structure MmCtl where
  init  : Init
  f     : Nat
  mode  : Nat
  sat   : Bool
  flush : Bool

/-- The start value of an element under `INIT` (09 R299). -/
def MmCtl.start (x : MmCtl) (c : Nat) : Nat :=
  match x.init with
  | .keep => c
  | .zero => 0
  | .fade _ => fadeElem x.sat x.flush x.f c

/-- The operands of a product: their types, K, their elements by (row, column), the scales of a scaled product by (row, block)
and (block, column). -/
structure Operands where
  ta : Ty
  tb : Ty
  k  : Nat
  a  : Nat → Nat → Nat
  b  : Nat → Nat → Nat
  sc : Option ((Nat → Nat → Nat) × (Nat → Nat → Nat))

/-- One element of a product (09 R299, R300): (i, j) of the operands, accumulated onto `c`, with the random bits of each
block. -/
def mmElem (x : MmCtl) (o : Operands) (i j : Nat) (rb : Nat → Nat) (c : Nat) : Nat :=
  let c := x.start c
  let ks := List.range o.k
  match o.ta with
  | .int _ _ =>
    let sum := ks.foldl (fun (n : Int) k => n + tileInt o.ta (o.a i k) * tileInt o.tb (o.b k j)) 0
    intToInt x.sat true 32 (sval 32 c + sum)
  | .flt F =>
    let a := ks.map fun k => tileVal o.ta x.flush (o.a i k)
    let b := ks.map fun k => tileVal o.tb x.flush (o.b k j)
    if F.narrow then
      let g := List.range (ceilDiv o.k 32)
      let sa := g.map fun m => match o.sc with | some (f, _) => f i m | none => 0x3F80
      let sb := g.map fun m => match o.sc with | some (_, f) => f m j | none => 0x3F80
      scaledDot x.mode x.sat x.flush rb (ceilDiv o.k 32) 0 c a b sa sb
    else
      let n := if F.width = 32 then 4 else 16
      chunkDot n x.sat x.flush (ceilDiv o.k n) c a b

/-- A product over a region of `m` rows and `n` columns whose element (0, 0) is (r0, c0) of the operands (09 R299, R309); `rb`
gives the random bits of an element index. -/
def mmRegion (x : MmCtl) (o : Operands) (m n r0 c0 : Nat) (rb : Nat → Nat) (old : AccImg) : AccImg :=
  (List.range m).foldl (fun a i => (List.range n).foldl (fun a j =>
    accPut a i j (BitVec.ofNat 32
      (mmElem x o (r0 + i) (c0 + j) (fun k => rb (4096 * k + 64 * i + j)) (accGet old i j).toNat))) a) old

/-- A pair of formats that a product takes (09 R298): `int` for `MMAI`, `scaled` for one with scales. -/
def pairOk (int scaled : Bool) (a b : Ty) : Bool :=
  match a, b with
  | .int _ v, .int _ w => int && v = 8 && w = 8
  | .flt F, .flt G => !int && ((F.narrow && G.narrow) || (!scaled && !F.narrow && F = G && F.width ≠ 64))
  | _, _ => false

end Sys2Proof.Machine
end

