-- ==== Sys2Proof/Machine/Matrix.lean ====
section
/-! DEFINITION. The words of the matrix engine as they issue, and its queue as it runs (09 R303 to R321). -/

namespace Sys2Proof.Machine

/-- A `SHAPE` fault of a product: M − 1, N − 1 and K − 1 (09 R322). -/
def shapeFault {α : Type} (m n k : Nat) : Op α := do
  throw (.trap { cause := .shape, finfo := BitVec.ofNat 32 (m - 1 + (n - 1) * 2 ^ 16), finfox := BitVec.ofNat 16 (k - 1), faddr := 0 })

/-- The queue of sixteen commands has room (09 R319). -/
def mtxRoom : Op Unit := queueRoom .mtx

/-- A command with nothing read. -/
def MCmd.new (i : Instr) : MCmd :=
  { i := i, pc := 0, ta := none, tb := none, sa := none, sb := none, f := 0, dc := 0, key := 0, span := none, seq := 0, res := none, void := false }

/-- A command enters the matrix queue (09 R308), with the address of its word. -/
def pushMCmd (stamped : Bool) (m : MCmd) : Op Unit := do
  let q ← nextSeq
  modify fun s => s.mapMtx fun x =>
    let m := { m with seq := q, pc := x.s.pc }
    if stamped then { x with stamped := x.stamped ++ [m] } else { x with queue := x.queue ++ [m] }

/-- A descriptor register. -/
def State.tileReg (s : State) (n : BitVec 4) : BitVec 128 := s.core.mtx.d.toList.getD n.toNat 0

/-- What a command reads of memory and scratchpad. -/
def MCmd.reads (m : MCmd) : List Span :=
  match m.i with
  | .ast _ _ _ _ _ _ _ | .aspill _ _ => []
  | .afill _ _ => m.span.toList
  | _ => [m.ta, m.tb, m.sa, m.sb].flatMap fun t => (t.map Tile.src).getD []

/-- What a command writes of memory and scratchpad. -/
def MCmd.writes (m : MCmd) : List Span :=
  match m.i with
  | .ast _ _ _ _ _ _ _ => (m.ta.map Tile.src).getD []
  | .aspill _ _ => m.span.toList
  | _ => []

/-- A command only reads its accumulator (09 R316, R317). -/
def MCmd.accRead (m : MCmd) : Bool :=
  match m.i with
  | .ast _ _ _ _ _ _ _ | .aspill _ _ => true
  | _ => false

/-- Two commands must keep program order: the ranges of one overlap the other's, accumulators among them, and one writes (02 R63,
09 R319). -/
def MCmd.overlaps (m q : MCmd) : Bool :=
  ((mAccs q.i).any (mAccs m.i).contains && !(m.accRead && q.accRead)) || orderMatters m.reads m.writes q.reads q.writes

/-- A command of the queue can run: it overlaps no older command of the queue and no older stamped product that has not completed
(01 R14, 02 R63; log 26). -/
def Mtx.ready (x : Mtx) (m : MCmd) : Bool :=
  (x.queue.all fun q => m.seq ≤ q.seq || !m.overlaps q) && x.stamped.all fun q => q.void || m.seq ≤ q.seq || !m.overlaps q

/-- A mode that draws (03 R110). -/
def stochastic (mode : BitVec 3) : Bool := mode = 5 || mode = 6

/-- One value of the matrix stream's draw counter when a command draws (03 R125), at its entry into the queue. -/
def mtxDraw (draws : Bool) : Op (BitVec 56) := do
  let s ← get
  let dc := s.core.mtx.s.draw
  if draws then set (s.mapStrm .mtx fun r => { r with draw := dc + 1 })
  return dc

/-- A scale tile of a product (09 R301): a tagged operand `t` takes its own from its lines, at the checks of the operands (09 R297,
R306). -/
def openScale (opd : BitVec 128) (t : Tile) (n : BitVec 4) (isA : Bool) : Op Tile := do
  if tdTag opd then
    tagScales opd (← locateTile .tile opd t) isA
  else
    let s ← get
    let x ← openTile (s.tileReg n)
    trapIf (x.fmt ≠ 1) .range
    return x

/-- The scale tiles of a product that are not those of a tagged operand, with their descriptors (09 R301). -/
def State.ownScales (s : State) (dA dB : BitVec 128) (scales : Option (BitVec 4 × BitVec 4 × Tile × Tile)) : List (BitVec 128 × Tile) :=
  match scales with
  | some (x, y, p, q) => (if tdTag dA then [] else [(s.tileReg x, p)]) ++ if tdTag dB then [] else [(s.tileReg y, q)]
  | none => []

/-- The tiles of a product located, with the scale tiles of a scaled one (09 R302, R306). -/
def locateOperands (dA dB : BitVec 128) (a b : Tile) (scales : Option (BitVec 4 × BitVec 4 × Tile × Tile)) :
    Op (Tile × Tile × Option (Tile × Tile)) := do
  let s ← get
  let l ← locateTiles .tile ([(dA, a), (dB, b)] ++ s.ownScales dA dB scales)
  let sc := scales.map fun (_, _, p, q) => (if tdTag dA then p else l.getD 2 p, if tdTag dB then q else l.getD (l.length - 1) q)
  return (l.getD 0 a, l.getD 1 b, sc)

/-- mm (09 R308) for the products: `scl` names the scale tiles, `int` is `MMAI`, `joint` is `MMAJ`, whose shapes its quad judges
in the exchange phase (09 R310). -/
def mm (i : Instr) (acc da db : BitVec 4) (scl : Option (BitVec 4 × BitVec 4)) (int joint : Bool) (init : Init) (mode : BitVec 3)
    (ksel rel : BitVec 1) (stamp : Option (BitVec 20)) : State → Out := op64 .mtx (do
  mtxRoom
  trapIf (joint && (stamp.isNone || rel = 1)) .range
  let s ← get
  let (dA, dB) := (s.tileReg da, s.tileReg db)
  let a ← openTile dA
  let b ← openTile dB
  let (m, k) := a.dims
  let (k2, n) := b.dims
  if !joint && (k ≠ k2 || 64 < m || 64 < n) then shapeFault m n k
  trapIf (!pairOk int scl.isSome a.ty b.ty || (scl.isSome && !(match a.ty with | .flt F => F.narrow | _ => false))) .range
  let scales ← match scl with
    | none => pure none
    | some (x, y) => do
      let p ← openScale dA a x true
      let q ← openScale dB b y false
      let g := ceilDiv k 32
      if !joint && (p.dims ≠ (m, g) || q.dims ≠ (g, n)) then shapeFault m n k
      pure (some (x, y, p, q))
  trapIf (int && (match init with | .fade _ => true | _ => false)) .range
  trapIf (stochastic mode && 512 < k) .range
  let used := [dA, dB] ++ (s.ownScales dA dB scales).map Prod.fst
  trapIf (stamp.isSome && (rel = 1 || used.any fun d => tdKind d ≠ 0)) .range
  let key ← drawKey (ksel = 1)
  let (ta, tb, sc) ← locateOperands dA dB a b scales
  let (sa, sb) := (sc.map Prod.fst, sc.map Prod.snd)
  let tiles := [ta, tb] ++ sa.toList ++ sb.toList
  tiles.forM fun t => do let _ ← classTile .tile t
  if stamp.isNone then holdTiles tiles [acc.toNat]
  readable (tileSegs tiles)
  record .mtx .rd (tileSegs tiles)
  let s ← get
  let f := match init with
    | .fade r => (s.core.mtx.s.getX r).setWidth 32
    | _ => 0
  let dc ← mtxDraw (stochastic mode)
  pushMCmd stamp.isSome { MCmd.new i with ta := some ta, tb := some tb, sa := sa, sb := sb, f := f, dc := dc, key := key })

/-- MMA (09 R307, R308). -/
def execMma (acc da db : BitVec 4) (init : Init) (sat flush rel : BitVec 1) (stamp : Option (BitVec 20)) : State → Out :=
  mm (.mma acc da db init sat flush rel stamp) acc da db none false false init 0 0 rel stamp

/-- MMAS (09 R301, R307, R308). -/
def execMmas (acc da db sa sb : BitVec 4) (init : Init) (mode : BitVec 3) (sat flush ksel rel : BitVec 1)
    (stamp : Option (BitVec 20)) : State → Out :=
  mm (.mmas acc da db sa sb init mode sat flush ksel rel stamp) acc da db (some (sa, sb)) false false init mode ksel rel stamp

/-- MMAI (09 R300, R307, R308). -/
def execMmai (acc da db : BitVec 4) (init : Init) (sat rel : BitVec 1) (stamp : Option (BitVec 20)) : State → Out :=
  mm (.mmai acc da db init sat rel stamp) acc da db none true false init 0 0 rel stamp

/-- MMAJ (09 R309, R310). -/
def execMmaj (scl : BitVec 1) (acc da db sa sb : BitVec 4) (init : Init) (mode : BitVec 3) (sat flush ksel rel : BitVec 1)
    (stamp : Option (BitVec 20)) : State → Out :=
  mm (.mmaj scl acc da db sa sb init mode sat flush ksel rel stamp) acc da db (if scl = 1 then some (sa, sb) else none) false true
    init mode ksel rel stamp

/-- The checked write of a descriptor (09 R311). -/
def setTile (n : BitVec 4) (v : BitVec 128) : Op Unit := do
  trapIf (tdReserved v) .reservedField
  modify fun s => s.mapMtx fun m => { m with d := m.d.set! n.toNat v }

/-- MTILE (09 R311). -/
def execMtile (d : BitVec 4) (a b : BitVec 5) : State → Out := op64 .mtx (do
  let x ← rdS .mtx a
  let y ← rdS .mtx b
  setTile d (y ++ x))

/-- MTILE_ADDR (09 R311). -/
def execMtileAddr (d : BitVec 4) (a : BitVec 5) : State → Out := op64 .mtx (do
  let x ← rdS .mtx a
  trapIf (bits x 63 48 ≠ 0) .range
  let s ← get
  setTile d (setBits (s.tileReg d) 0 48 (x.setWidth 128)))

/-- MTILE_ADD (09 R311). -/
def execMtileAdd (d : BitVec 4) (a : BitVec 5) : State → Out := op64 .mtx (do
  let x ← rdS .mtx a
  let s ← get
  setTile d (setBits (s.tileReg d) 0 48 (BitVec.ofNat 128 ((tdAddr (s.tileReg d) + x.toNat) % 2 ^ 48))))

/-- MTILE_LD (09 R311): a load of the matrix stream, behind the older commands of its queue that write its bytes (02 R63, R78). -/
def execMtileLd (d : BitVec 4) (a : BitVec 5) (o : BitVec 16) : State → Out := op64 .mtx (do
  let x ← rdS .mtx a
  let ea := x + sext o
  needAlign ea 16
  let p ← place .mtx .load 6 ea 16
  let s ← get
  stallIf (s.core.mtx.queue.any fun q => spansMeet q.writes [p.span 16])
  let v ← readPlace .mtx 16 p
  setTile d (BitVec.ofNat 128 (leNat v)))

/-- AZERO (09 R313). -/
def execAzero (n c : BitVec 4) : State → Out := op64 .mtx (do
  mtxRoom
  trapIf (16 < n.toNat + c.toNat + 1) .range
  holdTiles [] (mAccs (.azero n c))
  pushMCmd false (MCmd.new (.azero n c)))

/-- AFADE (09 R314). -/
def execAfade (n : BitVec 4) (a : BitVec 5) (sat flush : BitVec 1) : State → Out := op64 .mtx (do
  mtxRoom
  let x ← rdS .mtx a
  holdTiles [] [n.toNat]
  pushMCmd false { MCmd.new (.afade n a sat flush) with f := x.setWidth 32 })

/-- ALD (09 R315). -/
def execAld (n ds : BitVec 4) (flush ia : BitVec 1) : State → Out := op64 .mtx (do
  mtxRoom
  let s ← get
  let d := s.tileReg ds
  let t ← openTile d
  trapIf (64 < t.dims.1 || 64 < t.dims.2) .shape
  trapIf (ia = 1 && !(t.fmt = 0 || t.fmt = 3 || t.fmt = 4)) .range
  let l ← locateTiles .tile [(d, t)]
  let t ← classTile .tile (l.headD t)
  holdTiles [t] [n.toNat]
  readable (tileSegs [t])
  record .mtx .rd (tileSegs [t])
  let dc ← mtxDraw false
  pushMCmd false { MCmd.new (.ald n ds flush ia) with ta := some t, dc := dc })

/-- AST (09 R316). -/
def execAst (n ds : BitVec 4) (mode : BitVec 3) (sat flush ksel ia : BitVec 1) : State → Out := op64 .mtx (do
  mtxRoom
  let s ← get
  let d := s.tileReg ds
  trapIf (tdTag d) .range
  let t ← openTile d
  trapIf (64 < t.dims.1 || 64 < t.dims.2) .shape
  let key ← if stochastic mode then drawKey (ksel = 1) else pure 0
  let l ← locateTiles .store [(d, t)]
  let t ← classTile .store (l.headD t)
  holdTiles [t] [n.toNat]
  record .mtx .wr (tileSegs [t])
  let dc ← mtxDraw (stochastic mode)
  pushMCmd false { MCmd.new (.ast n ds mode sat flush ksel ia) with ta := some t, key := key, dc := dc })

/-- The image of an accumulator in virtual memory, for `ASPILL` and `AFILL` (09 R317). -/
def imageSpan (k : AK) (n : BitVec 4) (va : Word) : Op Span := do
  let s ← get
  trapIf s.jobMode .privilege
  needAlign va 128
  trapIf (bits va 63 56 = 0xFE) .range
  let p ← place .mtx k 6 va 16384
  holdTiles [] [n.toNat]
  return p.span 16384

/-- ASPILL (09 R317). -/
def execAspill (n : BitVec 4) (a : BitVec 5) : State → Out := op64 .mtx (do
  mtxRoom
  let p ← imageSpan .store n (← rdS .mtx a)
  record .mtx .wr p.segs
  pushMCmd false { MCmd.new (.aspill n a) with span := some p })

/-- AFILL (09 R317). -/
def execAfill (n : BitVec 4) (a : BitVec 5) : State → Out := op64 .mtx (do
  mtxRoom
  let p ← imageSpan .load n (← rdS .mtx a)
  readable p.segs
  record .mtx .rd p.segs
  let dc ← mtxDraw false
  pushMCmd false { MCmd.new (.afill n a) with span := some p, dc := dc })

/-- An accumulator. -/
def State.accAt (s : State) (n : Nat) : AccImg := s.core.acc.toList.getD n 0

/-- Writes an accumulator. -/
def State.setAcc (s : State) (n : Nat) (v : AccImg) : State := s.mapCore fun c => { c with acc := c.acc.set! n v }

/-- Control and stamp of a product's word. -/
def mmCtlOf (m : MCmd) : Option (Nat × MmCtl) :=
  match m.i with
  | .mma acc _ _ init sat flush _ _ => some (acc.toNat, { init := init, f := m.f.toNat, mode := 0, sat := sat = 1, flush := flush = 1 })
  | .mmas acc _ _ _ _ init mode sat flush _ _ _ =>
    some (acc.toNat, { init := init, f := m.f.toNat, mode := mode.toNat, sat := sat = 1, flush := flush = 1 })
  | .mmai acc _ _ init sat _ _ => some (acc.toNat, { init := init, f := m.f.toNat, mode := 0, sat := sat = 1, flush := false })
  | .mmaj _ acc _ _ _ _ init mode sat flush _ _ _ =>
    some (acc.toNat, { init := init, f := m.f.toNat, mode := mode.toNat, sat := sat = 1, flush := flush = 1 })
  | _ => none

/-- The bits of `rb` of a matrix command's draws (09 R299, 03 R125). -/
def MCmd.rb (m : MCmd) (task e : Nat) : Nat := (drawMix m.key 2 task m.dc 3 e).1.toNat % 16

/-- Tiles read in order: their bytes and the failing sectors. -/
def State.readTiles (s : State) (ts : List Tile) : State × List (List Byte) × List (Nat × Nat) :=
  ts.foldl (fun (x : State × List (List Byte) × List (Nat × Nat)) t =>
    let (u, d, bad) := x.1.readTile t
    (u, x.2.1 ++ [d], x.2.2 ++ bad)) (s, [], [])

/-- The operands of a product from the bytes of its tiles. -/
def operandsOf (ta tb : Tile) (sc : Option (Tile × Tile)) (ds : List (List Byte)) : Operands :=
  let d (n : Nat) : List Byte := ds.getD n []
  { ta := ta.ty, tb := tb.ty, k := ta.dims.2, a := ta.elem (d 0), b := tb.elem (d 1),
    sc := sc.map fun (x, y) => (x.elem (d 2), y.elem (d 3)) }

/-- A command leaves the queue, its failing sectors raising `MEM_UNCORRECTABLE` (09 R302). -/
def State.dropMCmd (s : State) (m : MCmd) : State := s.mapMtx fun x => { x with queue := x.queue.filter fun y => y.seq ≠ m.seq }

/-- A command of the queue with an operand lost in the sector of a VA (09 R302): its word and those behind it are unissued, its
draw taken back (01 R42; log 18). -/
def State.mtxLost (s : State) (m : MCmd) (va : Nat) : State :=
  let kept (y : MCmd) : Bool := y.seq < m.seq
  ((s.mapMtx fun x => { x with
      s := { x.s with pc := m.pc, draw := m.dc }, queue := x.queue.filter kept, stamped := x.stamped.filter kept }).mapCore fun c =>
    { c with adds := c.adds.filter fun a => !(a.eng = .mtx && m.seq < a.seq) }).stopCore .mtx
    { cause := .memUncorrectable, finfo := 0, finfox := 0, faddr := BitVec.ofNat 64 (va / 64 * 64) }

/-- A product runs (09 R299, R308). -/
def State.runMm (s : State) (m : MCmd) (n : Nat) (x : MmCtl) : State :=
  match m.ta, m.tb with
  | some ta, some tb =>
    let sc := match m.sa, m.sb with | some u, some v => some (u, v) | _, _ => none
    let (s, ds, bad) := s.readTiles ([ta, tb] ++ m.sa.toList ++ m.sb.toList)
    match bad with
    | (_, va) :: _ => s.mtxLost m va
    | [] => s.setAcc n (mmRegion x (operandsOf ta tb sc ds) ta.dims.1 tb.dims.2 0 0 (m.rb s.core.task.idx) (s.accAt n))
  | _, _ => s

/-- An element that `ALD` writes (09 R315). -/
def aldElem (y : Ty) (ia flush : Bool) (c : Nat) : Nat :=
  match y with
  | .flt F => if ia then c else convert (.flt fmt32) (.flt F) 0 false flush c 0
  | .int g w => if ia then wrapTo 32 (tileInt y c) else convert (.flt fmt32) (.int g w) 0 false false c 0

/-- `ALD` runs. -/
def State.runAld (s : State) (m : MCmd) (t : Tile) (n : Nat) (ia flush : Bool) : State :=
  let (s, d, bad) := s.readTile t
  match bad with
  | (_, va) :: _ => s.mtxLost m va
  | [] =>
    let put (a : AccImg) (i j : Nat) : AccImg := accPut a i j (BitVec.ofNat 32 (aldElem t.ty ia flush (t.elem d i j)))
    s.setAcc n ((List.range t.dims.1).foldl (fun a i => (List.range t.dims.2).foldl (fun a j => put a i j) a) (s.accAt n))

/-- An element that `AST` writes (09 R316). -/
def astElem (y : Ty) (ia sat flush : Bool) (mode rb c : Nat) : Nat :=
  if ia && y = .flt fmt32 then c else convert y (if ia then .int true 32 else .flt fmt32) mode sat flush c rb

/-- `AST` runs: its stored rows written in ascending order. -/
def State.runAst (s : State) (m : MCmd) (t : Tile) (n : Nat) (mode : Nat) (sat flush ia : Bool) : State :=
  let a := s.accAt n
  let draws := mode = 5 || mode = 6
  let row (p : Nat) : List Byte := (List.range t.cols).flatMap fun q =>
    let (i, j) := if t.tr then (q, p) else (p, q)
    natLe t.size (astElem t.ty ia sat flush mode (if draws then m.rb s.core.task.idx (64 * i + j) else 0) (accGet a i j).toNat)
  let (s, fs) := s.writeSpans .mtx m.seq [] 0 ((List.range t.rows).flatMap row) t.src
  s.addFails fs

/-- A command of the queue runs to its end (09 R319). -/
def State.runMCmd (s : State) (m : MCmd) : State :=
  match m.i with
  | .azero _ _ => (mAccs m.i).foldl (fun s n => s.setAcc n 0) s
  | .afade n _ sat flush =>
    let a := s.accAt n.toNat
    let f (c : BitVec 32) : BitVec 32 := BitVec.ofNat 32 (fadeElem (sat = 1) (flush = 1) m.f.toNat c.toNat)
    s.setAcc n.toNat ((List.range 64).foldl (fun b i => (List.range 64).foldl (fun b j => accPut b i j (f (accGet a i j))) b) a)
  | .ald n _ flush ia => match m.ta with
    | some t => s.runAld m t n.toNat (ia = 1) (flush = 1)
    | none => s
  | .ast n _ mode sat flush _ ia => match m.ta with
    | some t => s.runAst m t n.toNat mode.toNat (sat = 1) (flush = 1) (ia = 1)
    | none => s
  | .aspill n _ => match m.span with
    | some p =>
      let (s, fs) := s.writeSpans .mtx m.seq [] 0 (accBytes (s.accAt n.toNat)) [p]
      s.addFails fs
    | none => s
  | .afill n _ => match m.span with
    | some p =>
      let (s, d, bad) := s.readSpans .mtx 0 0 [p]
      match bad with
      | (_, va) :: _ => s.mtxLost m va
      | [] => s.setAcc n.toNat (BitVec.ofNat 131072 (leNat d))
    | none => s
  | _ => match mmCtlOf m with
    | some (n, x) => s.runMm m n x
    | none => s

/-- A relocatable product (09 R304). -/
def mmRel : Instr → Bool
  | .mma _ _ _ _ _ _ rel _ => rel = 1
  | .mmas _ _ _ _ _ _ _ _ _ _ rel _ => rel = 1
  | .mmai _ _ _ _ _ rel _ => rel = 1
  | _ => false

/-- A sibling of the quad runs the same job with an empty matrix queue (01 R39). -/
def State.sibling (s : State) : Bool :=
  (List.range 4).any fun k =>
    let n := s.core.num / 4 * 4 + k
    let c := s.coreAt n
    n ≠ s.core.num && c.job = s.core.job && c.mtx.queue = []

/-- Stamp of a product. -/
def mmStamp : Instr → Option (BitVec 20)
  | .mma _ _ _ _ _ _ _ st => st
  | .mmas _ _ _ _ _ _ _ _ _ _ _ st => st
  | .mmai _ _ _ _ _ _ st => st
  | .mmaj _ _ _ _ _ _ _ _ _ _ _ _ st => st
  | _ => none

/-- A product of four cores. -/
def MCmd.joint (m : MCmd) : Bool :=
  match m.i with
  | .mmaj _ _ _ _ _ _ _ _ _ _ _ _ _ => true
  | _ => false

/-- Array time of a product (09 R319). -/
def MCmd.arrayTime (m : MCmd) : Nat :=
  let k := (m.ta.map fun t => t.dims.2).getD 1
  let w := (m.ta.map fun t => t.ty.width).getD 32
  let fade := match mmCtlOf m with
    | some (_, x) => (match x.init with | .fade _ => 1 | _ => 0)
    | none => 0
  (if w = 32 then 2 * k else if w = 16 then ceilDiv k 4 else ceilDiv k 8) + fade

/-- Cycle in which a stamped product issues (09 R320). -/
def State.mmIssue (s : State) (m : MCmd) : Nat := s.stampCycle ((mmStamp m.i).getD 0).toNat

/-- Cycle in which a stamped product completes (09 R319, R320). -/
def State.mmDone (s : State) (m : MCmd) : Nat := s.mmIssue m + m.arrayTime + (if m.joint then 20 else 12)

/-- The stamped product of the core that is to complete by now. -/
def State.mmDue (s : State) : Option MCmd :=
  s.core.mtx.stamped.find? fun m => !m.void && m.res.isSome && s.mmDone m ≤ s.chron.toNat

/-- A stamped product writes its accumulator (09 R320). -/
def State.mmLand (s : State) (m : MCmd) : State :=
  let n := ((mmCtlOf m).map Prod.fst).getD 0
  (s.setAcc n (m.res.getD 0)).mapMtx fun x => { x with stamped := x.stamped.map fun y =>
    if y.seq = m.seq then { y with res := none, void := true } else y }

/-- The command that runs next: the oldest that is ready (01 R14, 09 R319). -/
def State.mtxReady (s : State) : Option MCmd := s.core.mtx.queue.find? s.core.mtx.ready

/-- MATRIX_COMMAND_RUN (09 R319, R321, 01 R14, R39): a stamped product completes, or the oldest ready command of the queue runs,
`sib` on a sibling engine. -/
def execMatrixCommandRun (sib : Bool) (s : State) : Out :=
  match s.mmDue, s.mtxReady with
  | some m, _ => .next (if sib then s else (s.mmLand m).applyAdds)
  | none, none => .next s
  | none, some m => .next (if sib && !(mmRel m.i && s.sibling) then s else ((s.dropMCmd m).runMCmd m).applyAdds)

end Sys2Proof.Machine
end

