-- ==== Sys2Proof/Machine/Stamped.lean ====
section
/-! DEFINITION. Stamped commands in the exchange phase: the fabric slots they claim, the schedule faults, their issue (01 R28, 06
R230, R231, 09 R309, R310, R320). -/

namespace Sys2Proof.Machine

/-- A stamped command of an exchange with the core that issues it. -/
inductive Cmd where
  | copy (c : Core) (x : Xfer)
  | prod (c : Core) (m : MCmd)

/-- The core of a stamped command. -/
def Cmd.core : Cmd → Core
  | .copy c _ => c
  | .prod c _ => c

/-- Identity of a stamped command: core, engine, place in program order. -/
def Cmd.ident : Cmd → Nat × Nat × Nat
  | .copy c x => (c.num, 3, x.seq)
  | .prod c m => (c.num, 2, m.seq)

/-- Cycle t in which a stamped command issues (01 R28). -/
def Cmd.at : Cmd → Nat
  | .copy c x => c.task.stampbase.toNat + x.stamp
  | .prod c m => c.task.stampbase.toNat + ((mmStamp m.i).getD 0).toNat

/-- The peer's core and offset of a stamped copy. -/
def Xfer.to (x : Xfer) : Nat × Nat := x.peer.getD (0, 0)

/-- Beats of a stamped copy (06 R231). -/
def Xfer.beats (x : Xfer) : Nat := x.len / 128

/-- Cycle in which a stamped command completes (06 R231, 09 R320). -/
def Cmd.done (k : Cmd) : Nat :=
  match k with
  | .copy c x => k.at + hopCycles c.num x.to.1 + x.beats
  | .prod _ m => k.at + m.arrayTime + (if m.joint then 20 else 12)

/-- The scope of the release whose exchange phase a core is in. -/
def Core.relScope (c : Core) : Nat := (((c.arrived.getLast?).bind Task.sync).map Sync.sc).getD 1

/-- The cores of the job in the exchange phase of the core at hand (01 R26). -/
def State.exchangeCores (s : State) : List Core :=
  let sc := s.core.relScope
  (s.coresOf (s.core.job.getD 0)).filter fun c =>
    c.bar.till = s.core.bar.till && (4 ≤ sc || unitOf sc c.num = unitOf sc s.core.num)

/-- The stamped commands of the exchange (01 R28). -/
def State.exchangeCmds (s : State) : List Cmd :=
  s.exchangeCores.flatMap fun c => (c.cpy.stamped.map (Cmd.copy c)) ++ c.mtx.stamped.map (Cmd.prod c)

/-- The scratchpad ranges that a stamped command reads. -/
def Cmd.sources : Cmd → List (Nat × Nat)
  | .copy _ x => padRanges x.src
  | .prod _ m => padRanges (([m.ta, m.tb, m.sa, m.sb].filterMap id).flatMap Tile.src)

/-- The accumulator of a stamped product. -/
def Cmd.acc : Cmd → Option Nat
  | .copy _ _ => none
  | .prod _ m => (mmCtlOf m).map Prod.fst

/-- The ranges of its own core that a stamped command reads or writes are held by its engine (01 R28). -/
def Cmd.held (k : Cmd) : Bool :=
  match k with
  | .copy c x => (k.sources.all fun p => c.holdsPad .cpy p.1 p.2) && (x.to.1 ≠ c.num || c.holdsPad .cpy x.to.2 x.len)
  | .prod c _ => (k.sources.all fun p => c.holdsPad .mtx p.1 p.2) && (k.acc.toList.all fun a => c.holds .mtx (224 + a))

/-- A source of a command, or its accumulator, is written by another (01 R28, 09 R320): a copy's source by bytes, a product's
tiles by segments. -/
def Cmd.writtenBy (k o : Cmd) : Bool :=
  match k, o with
  | .copy c _, .copy _ y => y.to.1 = c.num && k.sources.any fun p => rangesMeet p.1 p.2 y.to.2 y.len
  | .prod c _, .copy _ y => y.to.1 = c.num && k.sources.any fun p =>
      (segsOf p.1 p.2).any (segsOf y.to.2 y.len).contains
  | .prod c _, .prod d _ => c.num = d.num && k.acc = o.acc
  | .copy _ _, .prod _ _ => false

/-- Directed mesh edges of a transfer between dies: first the column changes, then the row (06 R231). -/
def meshRoute (a b : Nat) : List (Nat × Nat) :=
  let mid := a / 2 * 2 + b % 2
  (if a = mid then [] else [(a, mid)]) ++ if mid = b then [] else [(mid, b)]

/-- The edges that a stamped copy crosses. -/
def Xfer.edges (x : Xfer) (c : Core) : List (Nat × Nat) := meshRoute c.die (x.to.1 / 64)

/-- The number of the copies that claim an edge in a cycle. -/
def edgeLoad (l : List Cmd) (e : Nat × Nat) (t : Nat) : Nat :=
  (l.filter fun o => match o with
    | .copy c y => (y.edges c).contains e && o.at ≤ t && t < o.at + y.beats
    | .prod _ _ => false).length

/-- The core of a quad's member. -/
def quadMate (c d : Core) : Bool := c.num / 4 = d.num / 4

/-- Two commands claim a slot that has room for one, a port slot or an array slot (01 R28, 06 R231, 09 R320). -/
def Cmd.clash (k o : Cmd) : Bool :=
  match k, o with
  | .copy c x, .copy d y =>
    x.to.1 ≠ c.num && y.to.1 ≠ d.num &&
      ((c.num = d.num && rangesMeet k.at x.beats o.at y.beats) ||
        (x.to.1 = y.to.1 &&
          rangesMeet (k.at + hopCycles c.num x.to.1) x.beats (o.at + hopCycles d.num y.to.1) y.beats))
  | .prod c m, .prod d n =>
    (c.num = d.num || (quadMate c d && (m.joint || n.joint) && !(m.joint && n.joint && k.at = o.at))) &&
      rangesMeet k.at m.arrayTime o.at n.arrayTime
  | _, _ => false

/-- A mesh edge carries more than 50 beats in a cycle of a copy (06 R231). -/
def Cmd.edgeFull (k : Cmd) (l : List Cmd) : Bool :=
  match k with
  | .copy c x =>
    let starts := (l.map Cmd.at).filter fun t => k.at ≤ t && t < k.at + x.beats
    (x.edges c).any fun e => (k.at :: starts).any fun t => 50 < edgeLoad l e t
  | .prod _ _ => false

/-- The members' products of a joint product, by member (09 R310). -/
def Cmd.members (k : Cmd) (l : List Cmd) : List (Option (Core × MCmd)) :=
  (List.range 4).map fun n => l.findSome? fun o => match o with
    | .prod d m => if m.joint && d.num = k.core.num / 4 * 4 + n && o.at = k.at then some (d, m) else none
    | .copy _ _ => none

/-- The tiles of a member have the shapes of R309, for its K. -/
def MCmd.jointShape (m : MCmd) (k : Nat) : Bool :=
  let is (t : Option Tile) (d : Nat × Nat) : Bool := match t with | some t => t.dims = d | none => true
  let g := ceilDiv k 32
  is m.ta (32, k) && is m.tb (k, 32) && is m.sa (32, g) && is m.sb (g, 32)

/-- K of a product's operand A. -/
def MCmd.k (m : MCmd) : Nat := (m.ta.map fun t => t.dims.2).getD 0

/-- The members of a joint product agree (09 R310). -/
def jointAgree (m : MCmd) (l : List MCmd) : Bool :=
  l.all fun n => n.k = m.k && n.ta.map Tile.ty = m.ta.map Tile.ty && n.tb.map Tile.ty = m.tb.map Tile.ty &&
    n.sa.isSome = m.sa.isSome && n.jointShape m.k

/-- The fault of a stamped command, the first of R28 (01 R28, 09 R310, R320). -/
def State.judge (s : State) (k : Cmd) : Option Trap :=
  let l := s.exchangeCmds
  let till := (s.core.bar.till).getD 0
  let t (c : Cause) : Option Trap := some { cause := c, finfo := 0, finfox := 0, faddr := 0 }
  let last := match k with
    | .copy _ _ => k.done - 1
    | .prod _ _ => k.done
  let others := l.filter fun o => o.ident ≠ k.ident
  let late := others.any fun o => k.at < o.done && k.writtenBy o
  let ms := k.members l
  let joint := match k with | .prod _ m => m.joint | .copy _ _ => false
  if s.sharesCore || !k.held || late || till ≤ last || (joint && ms.any Option.isNone) then t .scheduleMiss
  else
    let shape := match k with
      | .prod _ m => if m.joint && !jointAgree m ((ms.filterMap id).map Prod.snd) then
          let (a, b) := (((m.ta.map Tile.dims).getD (1, 1)).1, ((m.tb.map Tile.dims).getD (1, 1)).2)
          some { cause := Cause.shape, finfo := BitVec.ofNat 32 (a - 1 + (b - 1) * 2 ^ 16), finfox := BitVec.ofNat 16 (m.k - 1), faddr := 0 }
        else none
      | .copy _ _ => none
    match shape with
    | some f => some f
    | none =>
      if others.any k.clash || k.edgeFull l then t .scheduleCollision
      else match k with
        | .copy _ x => if (s.coreAt x.to.1).holdsPad .cpy x.to.2 x.len then none else t .segmentHolder
        | .prod _ _ => none

/-- The tiles of a member with their bytes, all in scratchpad (09 R310). -/
def State.memberTiles (s : State) (c : Core) (m : MCmd) : List (Tile × List Byte) :=
  ([m.ta, m.tb, m.sa, m.sb].filterMap id).map fun t => (t, ((s.focus c.num).readTile t).2.1)

/-- The operands of a joint product, joined from the quarters of its members (09 R309). -/
def jointOperands (m : MCmd) (ms : List (List (Tile × List Byte))) : Operands :=
  let get (n i r c : Nat) : Nat := match (ms.getD n [])[i]? with
    | some (t, d) => t.elem d r c
    | none => 0
  { ta := (m.ta.map Tile.ty).getD (.flt fmt32), tb := (m.tb.map Tile.ty).getD (.flt fmt32), k := m.k,
    a := fun r k => get (r / 32) 0 (r % 32) k
    b := fun k c => get (c / 32) 1 k (c % 32)
    sc := if m.sa.isSome then some (fun r k => get (r / 32) 2 (r % 32) k, fun k c => get (c / 32) 3 k (c % 32)) else none }

/-- The accumulator that a stamped product of the core at hand will write (09 R309, R320). -/
def State.stampedResult (s : State) (m : MCmd) : AccImg :=
  match mmCtlOf m, m.ta, m.tb with
  | some (n, x), some ta, some tb =>
    if m.joint then
      let ms := ((Cmd.prod s.core m).members s.exchangeCmds).map fun p => match p with
        | some (c, y) => s.memberTiles c y
        | none => []
      let q := s.core.num % 4
      mmRegion x (jointOperands m ms) 64 64 (64 * (q / 2)) (64 * (q % 2)) (m.rb s.core.task.idx) (s.accAt n)
    else
      let sc := match m.sa, m.sb with | some u, some v => some (u, v) | _, _ => none
      let (_, ds, _) := s.readTiles ([ta, tb] ++ m.sa.toList ++ m.sb.toList)
      mmRegion x (operandsOf ta tb sc ds) ta.dims.1 tb.dims.2 0 0 (m.rb s.core.task.idx) (s.accAt n)
  | _, _, _ => 0

/-- A stamped command of the core is judged: at its cycle, at the latest at B + X (01 R28); those of one cycle issue although one
of them faults. -/
def State.stampReady (s : State) (k : Cmd) : Bool :=
  match s.core.bar.till with
  | none => false
  | some till => min k.at till ≤ s.chron.toNat &&
      (match s.core.stop with
      | none => true
      | some r => r.fchron = s.chron && r.cause ≠ .preempt)

/-- A stamped copy issues, or raises its fault. -/
def State.issueCopy (s : State) (x : Xfer) : State :=
  let put (f : Xfer → Xfer) (s : State) : State :=
    s.mapCpy fun c => { c with stamped := c.stamped.map fun y => if y.seq = x.seq then f y else y }
  match s.judge (.copy s.core x) with
  | some t => (put (fun y => { y with void := true }) s).stopCore .cpy t
  | none => put (fun y => { y with moved := true }) s

/-- A stamped product issues, or raises its fault. -/
def State.issueMm (s : State) (m : MCmd) : State :=
  let put (f : MCmd → MCmd) (s : State) : State :=
    s.mapMtx fun c => { c with stamped := c.stamped.map fun y => if y.seq = m.seq then f y else y }
  match s.judge (.prod s.core m) with
  | some t => (put (fun y => { y with void := true }) s).stopCore .mtx t
  | none =>
    let img := s.stampedResult m
    put (fun y => { y with res := some img }) s

/-- STAMPED_ISSUE (01 R28, 06 R230, 09 R320): the `k`-th stamped command of an engine of the core issues in its cycle. -/
def execStampedIssue (e : Eng64) (k : BitVec 8) (s : State) : Out :=
  match e with
  | .cpy => match s.core.cpy.stamped[k.toNat]? with
    | some x => .next (if !x.void && !x.moved && s.stampReady (.copy s.core x) then s.issueCopy x else s)
    | none => .next s
  | .mtx => match s.core.mtx.stamped[k.toNat]? with
    | some m => .next (if !m.void && m.res.isNone && s.stampReady (.prod s.core m) then s.issueMm m else s)
    | none => .next s

end Sys2Proof.Machine
end

