-- ==== Sys2Proof/Machine/Qubits.lean ====
section
/-! DEFINITION. Amplitudes, the qubit map, gates, and the accesses of an Astrolabe stream (10 R324 to R335, R340, R341, R351). -/

namespace Sys2Proof.Machine

/-- A raw amplitude: real and imaginary part (03 R105). -/
abbrev Amp := Nat × Nat

/-- The format of amplitudes (10 R330). -/
def ampFmt (ty : BitVec 1) : Fmt := if ty = 1 then fmt64 else fmt32

/-- Bytes of an amplitude (10 R324). -/
def ampSize (ty : BitVec 1) : Nat := if ty = 1 then 16 else 8

/-- L of an open state (10 R324). -/
def QState.l (q : QState) : Nat := q.n - q.ndb - q.npb

/-- Bytes of an amplitude of a state. -/
def QState.size (q : QState) : Nat := ampSize q.ty

/-- Amplitudes of a share. -/
def QState.amps (q : QState) : Nat := 2 ^ q.l

/-- Participants of a state group. -/
def QState.parts (q : QState) : Nat := 2 ^ (q.ndb + q.npb)

/-- The map as a list of the n physical bits (10 R326). -/
def QState.phys (q : QState) : List Nat := (q.map.toList.take q.n).map BitVec.toNat

/-- A map of a list of physical bits. -/
def mapOf (l : List Nat) : Vector (BitVec 8) 64 := (Vector.range 64).map fun i => BitVec.ofNat 8 (l.getD i 0xFF)

/-- A map image (10 R327). -/
def mapImage (l : List Nat) : List Byte := (List.range 64).map fun i => BitVec.ofNat 8 (l.getD i 0xFF)

/-- A map image read from memory is good for n qubits (10 R327). -/
def imageOk (n : Nat) (d : List Byte) : Bool :=
  let l := d.map BitVec.toNat
  (l.take n).all (fun b => b < n) && (l.take n).eraseDups.length = n && (l.drop n).all fun b => b = 0xFF

/-- The physical bits of a map image. -/
def imageMap (n : Nat) (d : List Byte) : List Nat := (d.take n).map BitVec.toNat

/-- The logical index of a physical index under a map (10 R326). -/
def logicalOf (m : List Nat) (j : Nat) : Nat := (m.mapIdx fun q p => if j.testBit p then 2 ^ q else 0).foldl (· + ·) 0

/-- The physical index of a logical index under a map. -/
def physOf (m : List Nat) (i : Nat) : Nat := (m.mapIdx fun q p => if i.testBit q then 2 ^ p else 0).foldl (· + ·) 0

/-- Where the amplitude at a physical index goes when the map changes and the logical state stays (10 R326, R335). -/
def moveIndex (old new : List Nat) (j : Nat) : Nat := physOf new (logicalOf old j)

/-- Physical index of a local offset of a rank (10 R325). -/
def QState.index (q : QState) (o : Nat) : Nat := q.rank * q.amps + o

/-- Local offsets whose physical index satisfies a condition. -/
def QState.offsets (q : QState) (f : Nat → Bool) : List Nat := (List.range q.amps).filter fun o => f (q.index o)

/-- Runs of consecutive numbers in an ascending list: first and length. -/
def runsOf (l : List Nat) : List (Nat × Nat) :=
  l.foldr (fun c r => match r with
    | (a, k) :: rest => if c + 1 = a then (c, k + 1) :: rest else (c, 1) :: r
    | [] => [(c, 1)]) []

/-- The pieces of [va, va + n) of the heap (07 R254). -/
def State.heapSegs (s : State) (va n : Nat) : List Seg :=
  (pages va n).map fun (a, m) => { va := a, pa := gaOf s.pkg ((a + lrHeapOff s.lrec) % 2 ^ 64), len := m }

/-- The span of `n` amplitudes of a share from an offset on. -/
def State.shareSpan (s : State) (q : QState) (refused : List (Nat × Nat)) (o n : Nat) : Span :=
  .mem (s.heapSegs (q.share + o * q.size) (n * q.size)) refused

/-- The amplitudes of bytes. -/
def ampsOf (ty : BitVec 1) (n : Nat) (d : List Byte) : List Amp :=
  let h := ampSize ty / 2
  (List.range n).map fun i => (leNat ((d.drop (2 * h * i)).take h), leNat ((d.drop (2 * h * i + h)).take h))

/-- The bytes of amplitudes. -/
def ampBytes (ty : BitVec 1) (l : List Amp) : List Byte := l.flatMap fun a => natLe (ampSize ty / 2) a.1 ++ natLe (ampSize ty / 2) a.2

/-- An amplitude that came from a failing sector (10 R351). -/
def ampLost (ty : BitVec 1) : Amp := ((ampFmt ty).nanc, (ampFmt ty).nanc)

/-- The amplitudes of a share at ascending offsets, those of failing sectors lost, with the failing sectors (10 R351). -/
def State.readAmps (s : State) (q : QState) (offs : List Nat) : State × List (Nat × Amp) × List (Nat × Nat) :=
  (runsOf offs).foldl (fun (x : State × List (Nat × Amp) × List (Nat × Nat)) r =>
    let (t, d, bad) := x.1.readSpan .ast 0 (r.1 * q.size) (x.1.shareSpan q [] r.1 r.2)
    let got := (ampsOf q.ty r.2 d).mapIdx fun i a =>
      (r.1 + i, if (List.range q.size).any (fun k => lostAt bad ((r.1 + i) * q.size + k)) then ampLost q.ty else a)
    (t, x.2.1 ++ got, addBad x.2.2 bad)) (s, [], [])

/-- Amplitudes written to a share at ascending offsets. -/
def State.writeAmps (s : State) (q : QState) (refused : List (Nat × Nat)) (l : List (Nat × Amp)) : State :=
  (runsOf (l.map Prod.fst)).foldl (fun s r =>
    let d := ampBytes q.ty ((l.filter fun x => r.1 ≤ x.1 && x.1 < r.1 + r.2).map Prod.snd)
    let (s, fs) := s.writeSpan .ast s.core.task.seq [] (r.1 * q.size) d (s.shareSpan q refused r.1 r.2)
    s.addFails fs) s

/-- The checks and records of accesses to a share at ascending offsets (10 R334): the stretches whose home refuses the writes. -/
def shareAccess (q : QState) (rd wr : Bool) (offs : List Nat) : Op (List (Nat × Nat)) :=
  (runsOf offs).foldlM (fun no r => do
    let ea := BitVec.ofNat 64 (q.share + r.1 * q.size)
    let n := r.2 * q.size
    if rd then
      let p ← place .ast .astRd 6 ea n
      readable (p.span n).segs
      record .ast .rd (p.span n).segs
    if wr then
      let p ← place .ast .astWr 6 ea n
      record .ast .wr (p.span n).segs
      return no ++ (match p with | .mem _ r => r | _ => [])
    else return no) []

/-- The fault of a stream that read failing sectors, raised behind its operation (10 R351). -/
def State.astroLost (s : State) (bad : List (Nat × Nat)) : State :=
  match bad with
  | [] => s
  | (_, va) :: _ => s.stopAstro { cause := .memUncorrectable, finfo := 0, finfox := 0, faddr := BitVec.ofNat 64 va }

/-- An amplitude of a list. -/
def ampAt (l : List (Nat × Amp)) (o : Nat) : Amp := ((l.find? fun x => x.1 = o).map Prod.snd).getD (0, 0)

/-- Number `c` as the bits of an index: its bit j at the physical bit `ps[j]`, the other bits of `j` kept. -/
def withBits (ps : List Nat) (j c : Nat) : Nat :=
  (ps.mapIdx fun i p => (i, p)).foldl (fun j (i, p) =>
    if j.testBit p = c.testBit i then j else if j.testBit p then j - 2 ^ p else j + 2 ^ p) j

/-- The gate index of a physical index (10 R329). -/
def gateIndex (ps : List Nat) (j : Nat) : Nat := (ps.mapIdx fun i p => if j.testBit p then 2 ^ i else 0).foldl (· + ·) 0

/-- Element G(r, c) of a gate register (10 R328). -/
def Gate.elem (g : Gate) (r c : Nat) : Amp :=
  let x := g.m.getD (r * 2 ^ g.k.toNat + c) (0, 0)
  (x.1.toNat, x.2.toNat)

/-- rnd (10 R330). -/
def rndAmp (F : Fmt) (x : Exact) : Nat := roundFull F 0 false false x 0

/-- The sum over pairs of a factor and an input, as a complex number, each part rounded once (10 R329, R331). -/
def cdot (F : Fmt) (l : List (Amp × Amp)) : Amp :=
  let v := F.decode
  (rndAmp F (exactSum false (l.flatMap fun (g, a) => [Exact.mul (v g.1) (v a.1), (Exact.mul (v g.2) (v a.2)).neg])),
   rndAmp F (exactSum false (l.flatMap fun (g, a) => [Exact.mul (v g.1) (v a.2), Exact.mul (v g.2) (v a.1)])))

/-- The amplitudes that a gate on local physical bits leaves, from those it reads (10 R329): `base` is the share's first index. -/
def gateAmps (g : Gate) (ps : List Nat) (base : Nat) (l : List (Nat × Amp)) : List (Nat × Amp) :=
  l.map fun (o, _) =>
    let r := gateIndex ps (base + o)
    (o, cdot (ampFmt g.ty) ((List.range (2 ^ g.k.toNat)).map fun c => (g.elem r c, ampAt l (withBits ps o c))))

/-- The amplitudes that a diagonal gate leaves (10 R331). -/
def diagAmps (g : Gate) (ps : List Nat) (base : Nat) (l : List (Nat × Amp)) : List (Nat × Amp) :=
  l.map fun (o, a) =>
    let r := gateIndex ps (base + o)
    (o, cdot (ampFmt g.ty) [(g.elem r r, a)])

/-- Targets named by a doubleword (10 R329). -/
def gateTargets (k : Nat) (tv : Word) : List Nat := (List.range k).map fun j => bits tv (6 * j + 5) (6 * j)

/-- All logical qubits of a mask. -/
def maskQubits (m : Word) : List Nat := (List.range 64).filter fun q => bit m q

/-- A physical index has every control qubit at 1. -/
def controlled (map : List Nat) (cm : Word) (j : Nat) : Bool := (maskQubits cm).all fun q => j.testBit (map.getD q 0)

/-- The checks of `QGATE` and `QDIAG` (10 R329): the targets. -/
def gateCheck (q : QState) (g : Gate) (tv cm : Word) : Op (List Nat) := do
  let k := g.k.toNat
  trapIf (k = 0 || g.ty ≠ q.ty || bits tv 63 (6 * k) ≠ 0) .range
  let ts := gateTargets k tv
  trapIf (ts.any (fun t => q.n ≤ t) || cm.toNat / 2 ^ q.n ≠ 0) .qmap
  trapIf (ts.eraseDups.length ≠ k || ts.any fun t => bit cm t) .range
  return ts

/-- The map after two physical bits have exchanged their logical qubits (10 R333). -/
def swapPhys (m : List Nat) (p l : Nat) : List Nat := m.map fun x => if x = p then l else if x = l then p else x

/-- The map after the automatic remap of a gate (10 R329): each non-local target goes to the highest local bit that no target
is mapped to. -/
def remap (l : Nat) (ts : List Nat) (m : List Nat) : List Nat :=
  ts.foldl (fun m t =>
    let p := m.getD t 0
    if p < l then m
    else match ((List.range l).filter fun b => !ts.any fun u => m.getD u 0 = b).getLast? with
      | some b => swapPhys m p b
      | none => m) m

/-- The terms of an exact sum of squares (10 R340). -/
def squares (ty : BitVec 1) (l : List (Nat × Amp)) : List Exact :=
  l.flatMap fun (_, a) =>
    let v := (ampFmt ty).decode
    [Exact.mul (v a.1) (v a.1), Exact.mul (v a.2) (v a.2)]

/-- The unit of the exact sums of a type (03 R119). -/
def sumUnit (ty : BitVec 1) : Int := if ty = 1 then -2148 else -298

/-- A partial sum of another package as terms of an exact sum. -/
def partTerms (r : RemoteShare) (ty : BitVec 1) (i : Nat) : List Exact :=
  let v := r.sums.getD i 0
  [.fin (v < 0) v.natAbs (sumUnit ty) false] ++ (if r.nan then [.nan] else []) ++ if r.inf then [.inf false] else []

/-- The values of the qubits of a mask, ascending (10 R341). -/
def maskValues (m : Word) : List Nat :=
  let qs := maskQubits m
  (List.range (2 ^ qs.length)).map fun c => (qs.mapIdx fun i q => if c.testBit i then 2 ^ q else 0).foldl (· + ·) 0

/-- The outcome of `QSAMPLE` from its weights and uniform value (10 R341). -/
def sampleOf (vs : List Nat) (ws : List Exact) (u : Exact) : Word :=
  let t := exactSum false ws
  let finite (x : Exact) : Bool := match x with | .fin _ _ _ _ => true | _ => false
  if t.isZero || !ws.all finite then BitVec.allOnes 64
  else
    let x := Exact.mul u t
    match (List.range vs.length).find? fun i => x.lt (exactSum false (ws.take (i + 1))) with
    | some i => BitVec.ofNat 64 (vs.getD i 0)
    | none => BitVec.allOnes 64

end Sys2Proof.Machine
end

