-- ==== Sys2Proof/Machine/Astrolabe.lean ====
section
/-! DEFINITION. The words of the Astrolabe stream, its collectives, its frame (10 R323 to R352). -/

namespace Sys2Proof.Machine

/-- The open state of the stream; `RANGE` when none is open (10 R348). -/
def openQ : Op QState := do
  let s ← get
  match s.astro.st with
  | some q => return q
  | none => trap .range

/-- A gate register. -/
def State.gate (s : State) (g : BitVec 3) : Gate := s.astro.g.toList.getD g.toNat Gate.reset

/-- An address of a gate matrix, a map image or a result: of the virtual class, aligned (10 R340, R346, R347). -/
def astroEa (ea : Word) (n : Nat) : Op Unit := do
  needAlign ea n
  trapIf (bits ea 63 56 = 0xFE) .range

/-- QMAP (10 R346). -/
def execQmap (a : BitVec 5) : State → Out := op64 .ast (do
  let q ← openQ
  let ea ← rdS .ast a
  astroEa ea 8
  let d ← readPlace .ast 64 (← place .ast .load 6 ea 64)
  trapIf (!imageOk q.n d) .qmap
  modify fun s => s.mapAstro fun x => { x with st := some { q with map := mapOf (imageMap q.n d) } })

/-- Storing the map image (10 R346, R349). -/
def storeMap (q : QState) (ea : Word) : Op Unit := do
  astroEa ea 8
  writePlace .ast (mapImage q.phys) (← place .ast .store 6 ea 64)

/-- QMAP_ST (10 R346). -/
def execQmapSt (a : BitVec 5) : State → Out := op64 .ast (do
  let q ← openQ
  let ea ← rdS .ast a
  storeMap q ea)

/-- QSWAP (10 R346). -/
def execQswap (a b : BitVec 5) : State → Out := op64 .ast (do
  let q ← openQ
  let x := (← rdS .ast a).toNat
  let y := (← rdS .ast b).toNat
  trapIf (q.n ≤ x || q.n ≤ y) .qmap
  let m := q.phys
  let m' := m.mapIdx fun i p => if i = x then m.getD y 0 else if i = y then m.getD x 0 else p
  modify fun s => s.mapAstro fun w => { w with st := some { q with map := mapOf m' } })

/-- QLDG (10 R347). -/
def execQldg (g : BitVec 3) (a : BitVec 5) (k : BitVec 2) (ty : BitVec 1) : State → Out := op64 .ast (do
  let ea ← rdS .ast a
  trapIf (k = 0) .range
  astroEa ea (ampSize ty)
  let n := 4 ^ k.toNat
  let d ← readPlace .ast (n * ampSize ty) (← place .ast .load 6 ea (n * ampSize ty))
  let m := (ampsOf ty n d).map fun x => (BitVec.ofNat 64 x.1, BitVec.ofNat 64 x.2)
  modify fun s => s.mapAstro fun w => { w with g := w.g.set! g.toNat { k := k, ty := ty, m := m } })

/-- A local operation on the amplitudes of a share at some offsets (10 R336, R351). -/
def localOp (q : QState) (offs : List Nat) (f : List (Nat × Amp) → List (Nat × Amp)) : Op Unit := do
  let no ← shareAccess q true true offs
  modify fun s =>
    let (s, l, bad) := s.readAmps q offs
    (s.writeAmps q no (f l)).astroLost bad

/-- QDIAG (10 R331). -/
def execQdiag (g : BitVec 3) (a b : BitVec 5) : State → Out := op64 .ast (do
  let q ← openQ
  let s ← get
  let cm ← rdS .ast b
  let ts ← gateCheck q (s.gate g) (← rdS .ast a) cm
  let m := q.phys
  localOp q (q.offsets (controlled m cm)) (diagAmps (s.gate g) (ts.map fun t => m.getD t 0) (q.index 0)))

/-- QSCALE (10 R332). -/
def execQscale (a : BitVec 5) : State → Out := op64 .ast (do
  let q ← openQ
  let x ← rdS .ast a
  let F := ampFmt q.ty
  let f := F.decode (x.toNat % 2 ^ F.width)
  let sc (c : Nat) : Nat := rndAmp F (Exact.mul f (F.decode c))
  localOp q (q.offsets fun _ => true) fun l => l.map fun (o, v) => (o, sc v.1, sc v.2))

/-- The dies whose streams are participants that wait for the same collective as the core at hand: of a group for `QINIT`, of
the group that their `QINIT`s formed and of its m-th collective otherwise (10 R337). -/
def State.mates (s : State) (init : Bool) (group : Word) (gen : Option (BitVec 64)) : List (Nat × Nat × AWait) :=
  (List.range 4).filterMap fun d =>
    let a := (s.dieAt d).astro
    match a.core, a.wait with
    | some n, some w =>
      let mate := match w.i with
        | .qinit _ _ _ _ _ _ _ _ => init && w.ops.getD 2 0 = group
        | _ => !init && a.st.map QState.group = some group && a.st.map QState.dies = s.astro.st.map QState.dies &&
            a.kop = s.astro.kop
      if (s.coreAt n).job = s.core.job && mate && w.gen = gen then some (d, n, w) else none
    | _, _ => none

/-- Every participant that waits raises `RANGE` and keeps the word unissued (10 R337). -/
def State.breakMates (s : State) (l : List (Nat × Nat × AWait)) : State :=
  l.foldl (fun s x => if x.2.2.bad then s else s.onCore x.2.1 fun s =>
    (s.stopAstro { cause := .range, finfo := 0, finfox := 0, faddr := 0 }).mapAstro fun a =>
      { a with wait := some { x.2.2 with bad := true } }) s

/-- Generation that a collective of the resident task gathers in (13 R437). -/
def State.openGen (s : State) : Option (BitVec 64) := if s.core.task.tx.st = 1 then some s.core.task.tx.gen else none

/-- A collective of the stream has issued and gathers (10 R337, R338): it waits at its word. -/
def gather (i : Instr) (group : Word) (ops : List Word) (key : List Nat) (refused : List (Nat × Nat)) (store : Option Span) : Op Unit := do
  let s ← get
  let init := match i with | .qinit _ _ _ _ _ _ _ _ => true | _ => false
  let ms := s.mates init group s.openGen
  if ms.any fun x => x.2.2.bad || x.2.2.key ≠ key || (init && x.2.2.ops.getD 1 0 = ops.getD 1 0) then
    throw (.trapIn (s.breakMates ms) { cause := .range, finfo := 0, finfox := 0, faddr := 0 })
  let w : AWait :=
    { i := i, ops := ops, key := key, gen := s.openGen, refused := refused, store := store, cut := false, bad := false }
  set (s.mapAstro fun a => { a with wait := some w })

/-- The contents of a gate register as a collective compares them. -/
def Gate.key (g : Gate) : List Nat := [g.k.toNat, g.ty.toNat] ++ g.m.flatMap fun x => [x.1.toNat, x.2.toNat]

/-- The limits of R324. -/
def qLimits (r : BitVec 4608) (n ndb npb s g grp : Nat) : Bool :=
  let l := n - ndb - npb
  ndb ≤ 2 && npb ≤ 12 && ndb + npb ≤ n && n ≤ 48 && (if s = 8 then 4 else 3) ≤ l && 2 ^ l * s ≤ 2 ^ 37 && g < 2 ^ (ndb + npb) &&
    grp ≤ 0xFFFF && (ndb = 0 || 4 ≤ lrSpan r) && (npb = 0 || 5 ≤ lrSpan r)

/-- The state that a `QINIT` opens. -/
def qinitState (n : BitVec 6) (ndb : BitVec 2) (npb : BitVec 4) (ty : BitVec 1) (va g grp : Word) : QState :=
  { n := n.toNat, ndb := ndb.toNat, npb := npb.toNat, ty := ty, share := va.toNat, rank := g.toNat, group := grp,
    map := mapOf (List.range n.toNat), dies := [] }

/-- QINIT (10 R345). -/
def execQinit (a b c : BitVec 5) (n : BitVec 6) (ndb : BitVec 2) (npb : BitVec 4) (ty z : BitVec 1) : State → Out :=
  runOp .ast (do
    let s ← get
    trapIf s.astro.st.isSome .range
    let va ← rdS .ast a
    let g ← rdS .ast b
    let grp ← rdS .ast c
    trapIf (!qLimits s.lrec n.toNat ndb.toNat npb.toNat (ampSize ty) g.toNat grp.toNat) .range
    let q := qinitState n ndb npb ty va g grp
    if va.toNat % 128 ≠ 0 then trapWith .align (vaOf va) 0
    trapIf (!s.inHeap va.toNat || lrHeapLim s.lrec < va.toNat + q.amps * q.size) .range
    let no ← if z = 1 then shareAccess q false true (List.range q.amps) else pure []
    gather (.qinit a b c n ndb npb ty z) grp [va, g, grp]
      [1, n.toNat, ndb.toNat, npb.toNat, ty.toNat, z.toNat, g.toNat / 2 ^ ndb.toNat] no none)

/-- QGATE (10 R329): on local targets at once, else a collective. -/
def execQgate (g : BitVec 3) (a b : BitVec 5) : State → Out := runOp .ast (do
  let q ← openQ
  let s ← get
  let G := s.gate g
  let tv ← rdS .ast a
  let cm ← rdS .ast b
  let ts ← gateCheck q G tv cm
  let m := q.phys
  if ts.all fun t => m.getD t 0 < q.l then
    localOp q (q.offsets (controlled m cm)) (gateAmps G (ts.map fun t => m.getD t 0) (q.index 0))
    modify fun s => s.mapStrm .ast fun r => r.skip 8
  else
    let m' := remap q.l ts m
    let n1 ← shareAccess q true true (q.offsets fun j => moveIndex m m' j ≠ j)
    let n2 ← shareAccess q true true (q.offsets (controlled m' cm))
    gather (.qgate g a b) q.group [tv, cm] ([4, g.toNat] ++ G.key ++ [tv.toNat, cm.toNat] ++ m) (n1 ++ n2) none)

/-- QPERM (10 R335); the map image may stand at any address (10 R353). -/
def execQperm (a : BitVec 5) : State → Out := runOp .ast (do
  let q ← openQ
  let ea ← rdS .ast a
  trapIf (bits ea 63 56 = 0xFE) .range
  let d ← readPlace .ast 64 (← place .ast .load 6 ea 64)
  trapIf (!imageOk q.n d) .qmap
  let m := q.phys
  let m' := imageMap q.n d
  let no ← shareAccess q true true (q.offsets fun j => moveIndex m m' j ≠ j)
  gather (.qperm a) q.group (m'.map (BitVec.ofNat 64)) ([7] ++ m' ++ m) no none)

/-- The place of a result store; register 0 names none (10 R340). -/
def resultPlace (c : BitVec 5) : Op (Option Span) := do
  if c = 0 then return none
  let ea ← rdS .ast c
  astroEa ea 8
  let p ← place .ast .store 6 ea 8
  record .ast .wr (p.span 8).segs
  return some (p.span 8)

/-- A collective that sums over the share (10 R340, R341). -/
def reduceOp (i : Instr) (major : Nat) (q : QState) (m v : Word) (c : BitVec 5) (reads : Nat → Bool) : Op Unit := do
  let st ← resultPlace c
  let _ ← shareAccess q true false (q.offsets reads)
  gather i q.group [m, v] ([major, m.toNat, v.toNat] ++ q.phys) [] st

/-- QPROB (10 R340). -/
def execQprob (d a b c : BitVec 5) : State → Out := runOp .ast (do
  let q ← openQ
  let m ← rdS .ast a
  let v ← rdS .ast b
  trapIf (v &&& ~~~m ≠ 0) .range
  trapIf (m.toNat / 2 ^ q.n ≠ 0) .qmap
  reduceOp (.qprob d a b c) 8 q m v c fun j => logicalOf q.phys j &&& m.toNat = v.toNat)

/-- QNORM (10 R340). -/
def execQnorm (d c : BitVec 5) : State → Out := runOp .ast (do
  let q ← openQ
  reduceOp (.qnorm d c) 9 q 0 0 c fun _ => true)

/-- QSAMPLE (10 R341). -/
def execQsample (d a c : BitVec 5) : State → Out := runOp .ast (do
  let q ← openQ
  let m ← rdS .ast a
  let k := (maskQubits m).length
  trapIf (k = 0 || 8 < k) .range
  trapIf (m.toNat / 2 ^ q.n ≠ 0) .qmap
  let s ← get
  trapIf (s.core.task.tx.st = 0) .txState
  reduceOp (.qsample d a c) 10 q m 0 c fun _ => true)

/-- QSYNC (10 R348). -/
def execQsync : State → Out := runOp .ast (do
  let q ← openQ
  gather .qsync q.group [] ([12] ++ q.phys) [] none)

/-- SCAL_REND (01 R24, 10 R323, R349): an Astrolabe stream with an open state stores its map and closes it. -/
def execScalRend (e : Strm64) : State → Out := op64 (strm64 e) (do
  let s ← get
  if e = .ast then
    match s.astro.st with
    | some q => if s.core.task.qmapbase ≠ 0 then storeMap q s.core.task.qmapbase
    | none => pure ()
    modify fun s => s.mapAstro fun a => { a with st := none }
  modify fun s => s.mapStrm (strm64 e) fun r => { r with run := .ended })

/-- The state of a participant: the open one, or the one its `QINIT` opens. -/
def Astro.part (a : Astro) : Option QState :=
  match a.wait with
  | some w => match w.i with
    | .qinit _ _ _ n ndb npb ty _ => some (qinitState n ndb npb ty (w.ops.getD 0 0) (w.ops.getD 1 0) (w.ops.getD 2 0))
    | _ => a.st
  | none => a.st

/-- A participant of this package: core, what it waits with, its state, all its amplitudes that a move reads. -/
structure Share where
  core : Nat
  w    : AWait
  q    : QState

/-- The participants of this package that have gathered with the stream of the core at hand. -/
def State.shares (s : State) (w : AWait) (q : QState) : List Share :=
  let init := match w.i with | .qinit _ _ _ _ _ _ _ _ => true | _ => false
  (s.mates init q.group w.gen).filterMap fun x => ((s.dieAt x.1).astro.part).map fun p => { core := x.2.1, w := x.2.2, q := p }

/-- A result register of a word. -/
def resultReg : Instr → BitVec 5
  | .qprob d _ _ _ => d
  | .qnorm d _ => d
  | .qsample d _ _ => d
  | _ => 0

/-- The end of a collective in the stream of the core at hand (10 R338): counters, result, result store, past the word. -/
def State.endGather (s : State) (w : AWait) (q : QState) (result : Option Word) : State :=
  let init := match w.i with | .qinit _ _ _ _ _ _ _ _ => true | _ => false
  let s := s.mapAstro fun a =>
    { a with
      wait := none, qseq := a.qseq + 1, kop := if init then 0 else a.kop + 1, st := some q
      s := ((match result with | some v => a.s.setX (resultReg w.i) v | none => a.s).skip 8) }
  match result, w.store with
  | some v, some p =>
    let (s, fs) := s.writeSpan .ast s.core.task.seq [] 0 (wordLe 8 v) p
    s.addFails fs
  | _, _ => s

/-- Every amplitude of the shares that moves under a change of the map, read by its owner (10 R333, R335): by physical index,
with the failing sectors by core. -/
def State.readMoves (s : State) (l : List Share) (old new : List Nat) :
    State × List (Nat × Amp) × List (Nat × List (Nat × Nat)) :=
  l.foldl (fun (x : State × List (Nat × Amp) × List (Nat × List (Nat × Nat))) p =>
    let here := x.1.core.num
    let (t, a, bad) := (x.1.focus p.core).readAmps p.q (p.q.offsets fun j => moveIndex old new j ≠ j)
    (t.focus here, x.2.1 ++ a.map (fun y => (p.q.index y.1, y.2)), x.2.2 ++ [(p.core, bad)])) (s, [], [])

/-- An amplitude by physical index: of this package, or of a participant of another. -/
def movedAmp (got : List (Nat × Amp)) (remote : List RemoteShare) (q : QState) (j : Nat) : Amp :=
  match got.find? fun x => x.1 = j with
  | some x => x.2
  | none => match remote.find? fun r => r.rank.toNat = j / q.amps with
    | some r =>
      let a := r.amps.getD (j % q.amps) 0
      if q.ty = 1 then (bits a 63 0, bits a 127 64) else (bits a 31 0, bits a 63 32)
    | none => (0, 0)

/-- A share receives the amplitudes that move into it; with a dead link each position holds the old or the new one (10 R333,
R351; log 6). -/
def State.writeMoves (s : State) (p : Share) (old new : List Nat) (got : List (Nat × Amp)) (remote : List RemoteShare)
    (dead : Bool) : State :=
  let offs := p.q.offsets fun j => moveIndex old new j ≠ j
  let keep (o : Nat) : Bool := dead && bit (Config.freeWord (s.free + o)) 0
  let l := offs.map fun o => (o, movedAmp got remote p.q (moveIndex new old (p.q.index o)))
  let s := (s.focus p.core).writeAmps p.q p.w.refused (l.filter fun x => !keep x.1)
  { s with free := s.free + (if dead then p.q.amps else 0) }

/-- Acts on every participant, each with its core at hand. -/
def State.onShares (s : State) (l : List Share) (f : Share → State → State) : State :=
  l.foldl (fun s p => s.onCore p.core (f p)) s

/-- The new map of a collective that moves amplitudes. -/
def newMap (w : AWait) (q : QState) : List Nat :=
  match w.i with
  | .qperm _ => w.ops.map BitVec.toNat
  | .qgate _ _ _ => remap q.l (gateTargets (w.key.getD 2 0) (w.ops.getD 0 0)) q.phys
  | _ => q.phys

/-- The gate of a `QGATE` after its remap, on the share of the core at hand, and its end. -/
def State.endQgate (s : State) (p : Share) (new : List Nat) (bad : List (Nat × Nat)) (g : BitVec 3) : State :=
  let tv := p.w.ops.getD 0 0
  let cm := p.w.ops.getD 1 0
  let G := s.gate g
  let offs := p.q.offsets (controlled new cm)
  let (s, l, more) := s.readAmps p.q offs
  let ps := (gateTargets G.k.toNat tv).map fun t => new.getD t 0
  let s := s.writeAmps p.q p.w.refused (gateAmps G ps (p.q.index 0) l)
  (s.endGather p.w { p.q with map := mapOf new } none).astroLost (addBad bad more)

/-- A collective that moves amplitudes runs (10 R329, R333, R335). -/
def State.runMoves (s : State) (l : List Share) (w : AWait) (q : QState) (remote : List RemoteShare) : State :=
  let new := newMap w q
  let (s, got, bads) := s.readMoves l q.phys new
  let here := s.core.num
  let s := (l.foldl (fun s p => s.writeMoves p q.phys new got remote false) s).focus here
  s.onShares l fun p s =>
    let bad := ((bads.find? fun b => b.1 = p.core).map Prod.snd).getD []
    match p.w.i with
    | .qgate g _ _ => s.endQgate p new bad g
    | _ => (s.endGather p.w { p.q with map := mapOf new } none).astroLost bad

/-- The `LINK_DEAD` of a collective, raised at its end in every participant (10 R351). -/
def State.astroDead (s : State) : State := s.stopAstro { cause := .linkDead, finfo := 0, finfox := 0, faddr := 0 }

/-- A collective that needs a dead link ends (10 R351): a moved amplitude may have arrived, the map stays, a result is a free
value (log 6). -/
def State.runDead (s : State) (l : List Share) (w : AWait) (q : QState) (remote : List RemoteShare) : State :=
  let new := newMap w q
  let (s, got, _) := s.readMoves l q.phys new
  let here := s.core.num
  let s := (l.foldl (fun s p => s.writeMoves p q.phys new got remote true) s).focus here
  s.onShares l fun p s =>
    let result := match p.w.i with
      | .qprob _ _ _ _ | .qnorm _ _ | .qsample _ _ _ => some (Config.freeWord s.free)
      | _ => none
    ({ s with free := s.free + 1 }.endGather p.w p.q result).astroDead

/-- The amplitudes of the shares of this package with their physical indices, and the failing sectors by core. -/
def State.readAll (s : State) (l : List Share) (f : Nat → Bool) : State × List (Nat × Amp) × List (Nat × List (Nat × Nat)) :=
  l.foldl (fun (x : State × List (Nat × Amp) × List (Nat × List (Nat × Nat))) p =>
    let here := x.1.core.num
    let (t, a, bad) := (x.1.focus p.core).readAmps p.q (p.q.offsets f)
    (t.focus here, x.2.1 ++ a.map (fun y => (p.q.index y.1, y.2)), x.2.2 ++ [(p.core, bad)])) (s, [], [])

/-- The result of a reducing collective from the amplitudes by physical index (10 R340, R341). -/
def State.reduceResult (s : State) (l : List Share) (w : AWait) (q : QState) (got : List (Nat × Amp)) (remote : List RemoteShare) :
    Word :=
  let m := (w.ops.getD 0 0).toNat
  let weight (i v : Nat) : Exact :=
    exactSum false (squares q.ty (got.filter fun x => logicalOf q.phys x.1 &&& m = v) ++ remote.flatMap fun r => partTerms r q.ty i)
  match w.i with
  | .qsample _ _ _ =>
    let vs := maskValues (w.ops.getD 0 0)
    let seq := match l.find? fun p => p.q.rank = 0 with
      | some p => ((s.dieAt (p.core / 64)).astro).qseq
      | none => ((remote.find? fun r => r.rank = 0).map RemoteShare.qseq).getD 0
    let x := mix s.stepKeyOf (seq, q.group.setWidth 32, 0, 6)
    sampleOf vs (vs.mapIdx weight) (.fin false ((mixLow x).toNat / 2 ^ 11) (-53) false)
  | _ => BitVec.ofNat 64 (roundFull fmt64 0 false false (weight 0 (w.ops.getD 1 0).toNat) 0)

/-- A reducing collective runs. -/
def State.runReduce (s : State) (l : List Share) (w : AWait) (q : QState) (remote : List RemoteShare) : State :=
  let (m, v) := ((w.ops.getD 0 0).toNat, (w.ops.getD 1 0).toNat)
  let all := match w.i with | .qsample _ _ _ => true | _ => false
  let (s, got, bads) := s.readAll l fun j => all || logicalOf q.phys j &&& m = v
  let r := s.reduceResult l w q got remote
  s.onShares l fun p s =>
    (s.endGather p.w p.q (some r)).astroLost (((bads.find? fun b => b.1 = p.core).map Prod.snd).getD [])

/-- The amplitudes that `QINIT.z` writes (10 R345). -/
def initAmps (q : QState) : List (Nat × Amp) :=
  (List.range q.amps).map fun o =>
    (o, if q.rank = 0 && o = 0 then (if q.ty = 1 then 0x3FF0000000000000 else 0x3F800000) else 0, 0)

/-- A gathered collective runs in every participant (10 R338). -/
def State.runAstro (s : State) (l : List Share) (w : AWait) (q : QState) (remote : List RemoteShare) : State :=
  match w.i with
  | .qinit _ _ _ _ _ _ _ z => s.onShares l fun p s =>
    (if z = 1 then s.writeAmps p.q p.w.refused (initAmps p.q) else s).endGather p.w { p.q with dies := l.map fun x => x.core / 64 } none
  | .qsync => s.onShares l fun p s => s.endGather p.w p.q none
  | .qprob _ _ _ _ | .qnorm _ _ | .qsample _ _ _ => s.runReduce l w q remote
  | _ => s.runMoves l w q remote

/-- The participants have all gathered (10 R337). -/
def State.astroGathered (s : State) (w : AWait) (q : QState) (remote : List RemoteShare) : Bool :=
  (s.shares w q).length + remote.length = q.parts

/-- ASTRO_COLLECTIVE_RUN (10 R337, R338, R351, 13 R437): the collective of a die's stream runs, or ends. -/
def execAstroCollectiveRun (die : BitVec 2) (remote : List RemoteShare) (dead : Bool) (s0 : State) : Out :=
  let a := (s0.dieAt die.toNat).astro
  match a.core, a.wait, a.part with
  | some n, some w, some q =>
    let s := s0.focus n
    let l := s.shares w q
    let ranks := l.map (fun p => p.q.rank) ++ remote.map fun r => r.rank.toNat
    if w.bad || a.stop.isSome then .next s0
    else if w.cut || s.genAborted (s.core.job.getD 0) w.gen then .next ((s.endGather { w with store := none } q none).focus s0.core.num)
    else if remote.any (fun r => !r.agree) || ranks.eraseDups.length ≠ ranks.length then
      .next ((s.breakMates (s.mates (match w.i with | .qinit _ _ _ _ _ _ _ _ => true | _ => false) q.group w.gen)).focus s0.core.num)
    else if !s.astroGathered w q remote then .next s0
    else .next ((if dead then s.runDead l w q remote else s.runAstro l w q remote).focus s0.core.num)
  | _, _, _ => .next s0

/-- The Astrolabe frame (10 R352). -/
def aframeBytes (die : Nat) (a : Astro) (r : AStop) : List Byte :=
  let q := a.st
  let f (g : QState → Nat) : Nat := (q.map g).getD 0
  let share := f QState.share
  let word28 := f QState.n + f QState.ndb * 2 ^ 6 + f QState.npb * 2 ^ 8 + f (fun x => x.ty.toNat) * 2 ^ 12 + b2n q.isSome * 2 ^ 13 +
    f (fun x => x.group.toNat % 2 ^ 16) * 2 ^ 14 + f QState.rank * 2 ^ 30
  natLe 8 (r.cause.code + b2n r.pend * 2 ^ 8 + (0x400 + 16 * die + 2) * 2 ^ 16 + r.finfo.toNat * 2 ^ 32) ++
  wordLe 8 r.faddr ++ wordLe 8 r.fchron ++ natLe 8 (a.s.pc.toNat % 2 ^ 48) ++ natLe 8 (a.qseq.toNat + a.kop.toNat * 2 ^ 32) ++
  natLe 8 word28 ++ natLe 8 share ++ natLe 8 0 ++
  (match q with | some x => mapImage x.phys | none => List.replicate 64 0) ++
  (a.s.x.toList.flatMap fun v => wordLe 8 v) ++ natLe 8 a.s.p.toNat ++ List.replicate 0x78 0 ++
  (a.g.toList.flatMap fun g => natLe 1 (g.k.toNat + g.ty.toNat * 4)) ++ List.replicate 0x1F8 0 ++
  (a.g.toList.flatMap fun g =>
    let b := ampBytes g.ty (g.m.map fun x => (x.1.toNat, x.2.toNat))
    b ++ List.replicate (1024 - b.length) 0)

/-- The Astrolabe stream of the core at hand has stopped and has no frame yet. -/
def State.aframeDue (s : State) : Bool :=
  s.astro.core = some s.core.num && (match s.astro.stop with | some r => !r.framed | none => false)

/-- A stopped Astrolabe stream writes its frame and signals the hub (10 R350, R352). -/
def State.writeAframe (s : State) : State :=
  match s.astro.stop with
  | none => s
  | some r =>
    let d := s.core.die
    let t := (s.physWrite (gaOf s.pkg (s.aframeAt d)) (aframeBytes d s.astro r) (osAgent (0x400 + 16 * d + 2)) false [] []).1
    { t with signals := t.signals ++ [Signal.astroStopped d] }.mapAstro fun a => { a with stop := some { r with framed := true } }

/-- FAULT_FRAME_WRITE (01 R41, R43, 10 R350): a stopped core that has drained writes its frame, then the stopped Astrolabe stream
of its task. -/
def execFaultFrameWrite (s : State) : Out :=
  match s.core.stop with
  | some r => if !r.framed then .next (s.writeFrame r) else if s.aframeDue then .next s.writeAframe else .next s
  | none => if s.aframeDue then .next s.writeAframe else .next s

/-- A gate register as a frame gives it. -/
def frameGate (f : List Byte) (n : Nat) : Gate :=
  let w : BitVec 8 := (f.drop (0x200 + n)).headD 0
  let k := w.extractLsb' 0 2
  let ty := w.extractLsb' 2 1
  { k := k, ty := ty,
    m := if k = 0 then [] else (ampsOf ty (4 ^ k.toNat) (f.drop (0x400 + 1024 * n))).map fun x => (BitVec.ofNat 64 x.1, BitVec.ofNat 64 x.2) }

/-- An Astrolabe stream as its frame makes it (10 R350, R352). -/
def Astro.reload (a : Astro) (f : List Byte) : Astro :=
  let n (off len : Nat) : Nat := leNat ((f.drop off).take len)
  let w : BitVec 64 := BitVec.ofNat 64 (n 0x28 8)
  { a with
    stop := none, wait := none, qseq := BitVec.ofNat 32 (n 0x20 4), kop := BitVec.ofNat 32 (n 0x24 4)
    s := { a.s with pc := BitVec.ofNat 64 (n 0x18 6), p := BitVec.ofNat 8 (n 0x180 1), x := a.s.x.mapIdx fun i _ => BitVec.ofNat 64 (n (0x80 + 8 * i) 8) }
    g := a.g.mapIdx fun i _ => frameGate f i
    st := if bit w 13 then some
        { n := bits w 5 0, ndb := bits w 7 6, npb := bits w 11 8, ty := w.extractLsb' 12 1, group := BitVec.ofNat 64 (bits w 29 14),
          rank := bits w 43 30, share := n 0x30 8, map := (Vector.range 64).map fun i => BitVec.ofNat 8 (n (0x40 + i) 1)
          dies := (a.st.map QState.dies).getD [] }
      else none }

/-- ARESUME (01 R49, 10 R350): a stopped Astrolabe stream restarts from its frame. -/
def execAresume (die : BitVec 2) (s : State) : Out :=
  let d := die.toNat
  match (s.dieAt d).astro.stop with
  | none => .next s
  | some _ =>
    let (t, r) := s.physRead (gaOf s.pkg (s.aframeAt d)) 9216 (osAgent 0x600) 0
    .next (t.mapDie d fun x => { x with astro := x.astro.reload r.data })

end Sys2Proof.Machine
end

