-- ==== Sys2Proof/Machine/NearMem.lean ====
section
/-! DEFINITION. Near-memory commands: `NMC` and the completion of a command (11 R372 to R385). -/

namespace Sys2Proof.Machine

/-- `CMD` of a near-memory command's `CTL` (11 R372). -/
def nmCode (c : Word) : Nat := bits c 7 0
/-- `MODE`. -/
def nmMode (c : Word) : Nat := bits c 12 10
/-- `SC`. -/
def nmSc (c : Word) : Nat := bits c 23 21
/-- `FLG`. -/
def nmFlag (c : Word) : BitVec 6 := c.extractLsb' 14 6
/-- `COUNT`. -/
def nmCount (c : Word) : Nat := bits c 63 32
/-- Bytes of an element of `TY`. -/
def nmSize (c : Word) : Nat := if bits c 9 8 = 0 then 4 else 2
/-- A sector command (11 R373). -/
def nmSector (c : Word) : Bool := [0x07, 0x0A, 0x0B, 0x0C, 0x0D].contains (nmCode c)
/-- A command whose range is read and not written (11 R373). -/
def nmReadOnly (c : Word) : Bool := [0x0A, 0x0B, 0x0C].contains (nmCode c)
/-- A command with a source (11 R373). -/
def nmHasSrc (c : Word) : Bool := [0x01, 0x02, 0x03, 0x04, 0x07, 0x08, 0x0D].contains (nmCode c)
/-- A command with an optimizer record (11 R375). -/
def nmHasRec (c : Word) : Bool := nmCode c = 2 || nmCode c = 3
/-- Alignment of `DST`, and of `COUNT` for a sector command (11 R373). -/
def nmUnit (c : Word) : Nat := if nmCode c = 0x0C then 4096 else if nmSector c then 64 else nmSize c
/-- Bytes of a source element; the sector commands move sectors (11 R373). -/
def nmSrcUnit (c : Word) : Nat := if nmSector c then 64 else if nmCode c = 8 then 4 else nmSize c
/-- Bytes of the `DST` range. -/
def nmDstLen (c : Word) : Nat := if nmSector c then nmCount c else nmCount c * nmSize c
/-- Bytes of the `SRC` range. -/
def nmSrcLen (c : Word) : Nat :=
  if !nmHasSrc c then 0 else if nmSector c then nmCount c else nmCount c * nmSrcUnit c
/-- Bytes of the m and v ranges (11 R375). -/
def nmAuxLen (c : Word) : Nat := if nmCode c = 2 then 4 * nmCount c else if nmCode c = 3 then 8 * nmCount c else 0

/-- A `PRM` that R373 forbids. -/
def nmBadPrm (c prm : Word) : Bool :=
  match nmCode c with
  | 1 | 2 | 3 => false
  | 4 | 5 | 6 => bits prm 63 32 ≠ 0
  | 9 =>
    let lo := fmt32.decode (bits prm 31 0)
    let hi := fmt32.decode (bits prm 63 32)
    lo.isNan || hi.isNan || hi.lt lo
  | 0x0A => 2 ≤ prm.toNat
  | _ => prm ≠ 0

/-- An overlap that R373 forbids. -/
def nmOverlaps (c dst src : Word) : Bool :=
  nmHasSrc c && rangesMeet dst.toNat (nmDstLen c) src.toNat (nmSrcLen c) &&
    ([0x07, 0x08, 0x0D].contains (nmCode c) || src ≠ dst)

/-- The checks of the operands, in order (11 R372, R373, R382). -/
def nmCheck (c dst src prm : Word) : Op Unit := do
  trapIf (bits c 31 24 ≠ 0 || nmMode c = 7 || nmSc c = 7) .reservedField
  trapIf (2 ≤ bits c 9 8 || 5 ≤ nmMode c || nmSc c < 3 || nmCount c = 0) .range
  trapIf (nmCode c = 0 || 0x0E ≤ nmCode c) .range
  trapIf (2 ^ 28 < nmDstLen c || 2 ^ 28 < nmSrcLen c || nmDstLen c % nmUnit c ≠ 0) .range
  trapIf (!nmHasSrc c && src ≠ 0) .range
  trapIf (nmBadPrm c prm || nmOverlaps c dst src) .range
  let s ← get
  trapIf (bit c 20 && (s.core.task.flagAt (nmFlag c)).hold) .flagOwner
  needAlign dst (nmUnit c)
  if nmHasSrc c then needAlign src (nmSrcUnit c)

/-- `AUX` of an optimizer record. -/
def optAux (r : BitVec 256) : Word := r.extractLsb' 0 64

/-- The optimizer record, read as a control-stream load and checked (11 R375); zero for another command. -/
def nmRecord (c dst src prm : Word) : Op (BitVec 256) := do
  if nmHasRec c then
    needAlign prm 32
    let p ← place .ctl .load 6 prm 32
    let s ← get
    if p.lines.any s.core.task.redLines.contains then trapWith .range prm.toNat 0
    if s.core.nmOverlap p then stall
    let d ← readPlace .ctl 32 p
    let r : BitVec 256 := BitVec.ofNat 256 (leNat d)
    trapIf (bits r 255 224 ≠ 0) .reservedField
    trapIf (nmCode c = 2 && (bits r 127 96 ≠ 0 || bits r 223 192 ≠ 0)) .range
    let a := (optAux r).toNat
    trapIf (2 ^ 28 < 4 * nmCount c || rangesMeet a (nmAuxLen c) dst.toNat (nmDstLen c) ||
      rangesMeet a (nmAuxLen c) src.toNat (nmSrcLen c)) .range
    needAlign (optAux r) 4
    return r
  else return 0

/-- A range of a command placed: its pieces, and the stretches whose home refuses writes (11 R382). A host frame, or a home beyond
`SC`, raises `RANGE`. -/
def nmRange (k : AK) (c ea : Word) (n : Nat) : Op (List Seg × List (Nat × Nat)) := do
  if n = 0 then return ([], [])
  trapIf (bits ea 63 56 ≠ 0) .range
  let p ← place .ctl k (min (nmSc c) 5) ea n
  match p with
  | .mem segs r => return (segs, r)
  | _ => trap .range

/-- The `DST` range of a command placed: a window there is a store's, of a command that only reads its range too (08 R282). -/
def nmDst (c ea : Word) : Op (List Seg × List (Nat × Nat)) := do
  let s ← get
  match (if nmReadOnly c && ea.toNat + nmDstLen c ≤ 2 ^ 48 then s.core.task.windowAt ea.toNat else none) with
  | some w => trapWith .ephemerisStore ea.toNat w
  | none => nmRange (if nmReadOnly c then .nmRd else .nmWr) c ea (nmDstLen c)

/-- What a command reads. -/
def NmCmd.reads (m : NmCmd) : List Seg := m.dst ++ m.src ++ m.aux
/-- What a command writes. -/
def NmCmd.writes (m : NmCmd) : List Seg := (if nmReadOnly m.ctl then [] else m.dst) ++ m.aux

/-- An earlier store, reduction or command of the control stream must complete before a command (11 R382). -/
def State.nmBehind (s : State) (m : NmCmd) : Bool :=
  let ls := (m.reads.flatMap Seg.lines).map Prod.fst
  s.core.writes.any (fun w => w.eng = .ctl && ls.any fun l => rangesMeet w.pa w.len l 128) ||
    s.reds.any (fun r => !r.away && r.core = s.core.num && ls.contains (r.pa / 128 * 128)) ||
    s.core.nms.any fun o => segsMeet o.writes m.reads || segsMeet o.reads m.writes

/-- nmc (11 R382): the packet of four registers, its checks, and the command on its way. The word names no command: `CTL` does. -/
def nmc (d a b c : BitVec 6) : State → Out := runCtl (do
  needX [d, a, b, c]
  let s ← get
  let ctl := s.ctl.getX d
  let dst := s.ctl.getX a
  let src := s.ctl.getX b
  let prm := s.ctl.getX c
  nmCheck ctl dst src prm
  let r ← nmRecord ctl dst src prm
  let (ds, dr) ← nmDst ctl dst
  let (ss, _) ← nmRange .nmRd ctl src (nmSrcLen ctl)
  let (as, ar) ← nmRange .nmWr ctl (optAux r) (nmAuxLen ctl)
  let q ← nextSeq
  let m : NmCmd :=
    { ctl := ctl, dst := ds, src := ss, aux := as, dref := dr, aref := ar, prm := prm, opt := r, seq := q }
  let s ← get
  stallIf (16 ≤ s.queued .ctl || s.nmBehind m)
  record .ctl (if nmReadOnly ctl then .rd else .wr) ds
  record .ctl .rd ss
  record .ctl .wr as
  modify fun s => s.mapCore fun k => { k with nms := k.nms ++ [m] })

/-- NM_SGDF (11 R374, R381, R382). -/
def execNmSgdf (d a b c : BitVec 6) : State → Out := nmc d a b c
/-- NM_MOM (11 R374, R381, R382). -/
def execNmMom (d a b c : BitVec 6) : State → Out := nmc d a b c
/-- NM_ADAMW (11 R374, R381, R382). -/
def execNmAdamw (d a b c : BitVec 6) : State → Out := nmc d a b c
/-- NM_AXPY (11 R374, R381, R382). -/
def execNmAxpy (d a b c : BitVec 6) : State → Out := nmc d a b c
/-- NM_SCALE (11 R374, R381, R382). -/
def execNmScale (d a b c : BitVec 6) : State → Out := nmc d a b c
/-- NM_FILL (11 R374, R381, R382). -/
def execNmFill (d a b c : BitVec 6) : State → Out := nmc d a b c
/-- NM_COPY (11 R376, R381, R382). -/
def execNmCopy (d a b c : BitVec 6) : State → Out := nmc d a b c
/-- NM_CAST (11 R374, R381, R382). -/
def execNmCast (d a b c : BitVec 6) : State → Out := nmc d a b c
/-- NM_CLAMP (11 R374, R381, R382). -/
def execNmClamp (d a b c : BitVec 6) : State → Out := nmc d a b c
/-- NM_RECODE (11 R376, R381, R382). -/
def execNmRecode (d a b c : BitVec 6) : State → Out := nmc d a b c
/-- NM_SCRUB (11 R376, R381, R382). -/
def execNmScrub (d a b c : BitVec 6) : State → Out := nmc d a b c
/-- NM_FOLD (11 R376, R381, R382). -/
def execNmFold (d a b c : BitVec 6) : State → Out := nmc d a b c
/-- NM_CKPT (11 R376, R381, R382). -/
def execNmCkpt (d a b c : BitVec 6) : State → Out := nmc d a b c

/-- The codes of an element that a command works on: w, the source element, m and v. -/
structure NmElem where
  w : Nat
  g : Nat
  m : Nat
  v : Nat
  deriving DecidableEq, Repr

/-- The new w, m and v of an element (11 R374). -/
def nmElem (c prm : Word) (r : BitVec 256) (x : NmElem) : NmElem :=
  let T := if nmSize c = 4 then fmt32 else fmtBf
  let rdn := nmMode c == 3
  let rnd (y : Exact) : Nat := roundFull T (nmMode c) (bit c 13) false y 0
  let rn32 (y : Exact) : Nat := roundFull fmt32 0 false false y 0
  let D := T.decode
  let F := fmt32.decode
  let lo := F (bits prm 31 0)
  let hi := F (bits prm 63 32)
  let b1 := F (bits r 95 64)
  let b2 := F (bits r 127 96)
  let a := F (bits r 159 128)
  let f := F (bits r 191 160)
  let eps := F (bits r 223 192)
  let sub (p q u v : Exact) : Exact := exactSum rdn [p.mul q, (u.mul v).neg]
  match nmCode c with
  | 0x01 => { x with w := rnd (sub (D x.w) hi lo (D x.g)) }
  | 0x02 =>
    let m := rn32 (exactSum false [b1.mul (F x.m), D x.g])
    { x with w := rnd (sub (D x.w) f a (F m)), m := m }
  | 0x03 =>
    let g := D x.g
    let m := rn32 (exactSum false [b1.mul (F x.m), g, (b1.mul g).neg])
    let v := rn32 (exactSum false [b2.mul (F x.v), g.mul g, (b2.mul (g.mul g)).neg])
    let d := rn32 (F v).sqrt
    let e := rn32 (Exact.add false (F d) eps)
    let q := rn32 ((F m).div (F e))
    { x with w := rnd (sub (D x.w) f a (F q)), m := m, v := v }
  | 0x04 => { x with w := rnd (exactSum rdn [D x.w, lo.mul (D x.g)]) }
  | 0x05 => { x with w := rnd (lo.mul (D x.w)) }
  | 0x06 => { x with w := rnd lo }
  | 0x08 => { x with w := rnd (F x.g) }
  | 0x09 =>
    let w := D x.w
    { x with w := if w.isNan then T.nanc else if w.lt lo then rnd lo else if hi.lt w then rnd hi else x.w }
  | _ => x

/-- A stretch of an input as a piece reads it: bytes, the failing stretches [from, to) of them, the stretches' words whose
tag is set, the failures of refused reads. -/
structure NmRead where
  data : List Byte
  bad  : List (Nat × Nat)
  tags : List Nat
  fail : List Failure
  deriving DecidableEq, Repr

/-- A byte of [lo, lo + n) fails. -/
def nmLost (l : List (Nat × Nat)) (lo n : Nat) : Bool := l.any fun x => x.1 < lo + n && lo < x.2

/-- A refusal that a fence reports (02 R81, R90). -/
def State.nmRefusal (s : State) (q : Nat) (g : Seg) : Failure :=
  { eng := .ctl, seq := q, kind := .refused, level := s.homeLevel g.pa, va := g.va, count := 1 }

/-- Input pieces as a command reads them (11 R377, R379); a checkpoint read marks its sectors (11 R365). -/
def State.nmRead (s : State) (a : Agent) (kind q : Nat) (l : List Seg) : State × NmRead :=
  l.foldl (fun (x : State × NmRead) g =>
    let (s, r) := x
    let p := r.data.length
    if s.linkDead g.pa then (s, { r with data := r.data ++ List.replicate g.len 0, bad := r.bad ++ [(p, p + g.len)] })
    else
      let (t, y) := s.physRead g.pa g.len a kind
      let t := if kind = 3 then t.ckptMark g.pa g.len else t
      let pos (b : Nat) : Nat := p + (max b g.pa - g.pa)
      let bad := if y.refused then [(p, p + g.len)]
        else y.bad.map fun b => (pos b, p + (min (b + 64) (g.pa + g.len) - g.pa))
      (t, { data := r.data ++ (y.data ++ List.replicate (g.len - y.data.length) 0), bad := r.bad ++ bad,
            tags := r.tags ++ (y.tags.filter fun w => w.2 && g.pa ≤ w.1 && w.1 < g.pa + g.len).map fun w => pos w.1,
            fail := if y.refused then r.fail ++ [s.nmRefusal q g] else r.fail }))
    (s, { data := [], bad := [], tags := [], fail := [] })

/-- What the pieces of a command have reported: the VAs of poisoned output sectors, and refused accesses. -/
structure NmDone where
  bad  : List Nat
  fail : List Failure
  deriving DecidableEq, Repr

/-- VA of a sector of a piece. -/
def Seg.sectorVa (g : Seg) (sa : Nat) : Nat := g.va / 64 * 64 + sa - g.pa / 64 * 64

/-- One sector of an output (11 R379): its bytes, or zero bytes with `POISON` when an input of it failed. -/
def State.nmSectorOut (s : State) (a : Agent) (whole : Bool) (bad : List (Nat × Nat)) (tags : List Nat) (d : List Byte) (p : Nat)
    (g : Seg) (sa : Nat) : State × PhysWrite × List Nat :=
  let lo := max sa g.pa
  let n := min (sa + 64) (g.pa + g.len) - lo
  let at_ := p + (lo - g.pa)
  if nmLost bad at_ n then
    let (t, r) := s.physWrite sa (List.replicate 64 0) a whole [] [sa]
    (t, r, [g.sectorVa sa])
  else
    let tg := (tags.filter fun k => at_ ≤ k && k < at_ + n).map fun k => lo + (k - at_)
    let (t, r) := s.physWrite lo ((d.drop at_).take n) a whole tg []
    (t, r, [])

/-- Output pieces of a command written (11 R377, R379): one past a dead link counts each of its sectors as poisoned. -/
def State.nmWrite (s : State) (a : Agent) (q : Nat) (refused : List (Nat × Nat)) (bad : List (Nat × Nat)) (tags : List Nat) (d : List Byte)
    (l : List Seg) : State × NmDone :=
  let (s, r, _) := (cutRefused refused l).foldl (fun (x : State × NmDone × Nat) g =>
    let (s, r, p) := x
    if g.refusedBy refused then (s, { r with fail := r.fail ++ [s.nmRefusal q g] }, p + g.len)
    else if s.linkDead g.pa then (s, { r with bad := r.bad ++ (sectorsOf g.pa g.len).map g.sectorVa }, p + g.len)
    else
      let (t, no, vs) := (sectorsOf g.pa g.len).foldl (fun (y : State × Bool × List Nat) sa =>
        let (t, w, v) := y.1.nmSectorOut a (g.len == 4096) bad tags d p g sa
        (t, y.2.1 || w == .refused, y.2.2 ++ v)) (s, false, [])
      (t, { bad := r.bad ++ vs, fail := if no then r.fail ++ [s.nmRefusal q g] else r.fail }, p + g.len))
    (s, { bad := [], fail := [] }, 0)
  (s, r)

/-- What two parts of a command report. -/
def NmDone.join (a b : NmDone) : NmDone := { bad := a.bad ++ b.bad, fail := a.fail ++ b.fail }

/-- The number of an element in a list of codes of `k` bytes. -/
def nmCodeAt (d : List Byte) (k i : Nat) : Nat := leNat ((d.drop (k * i)).take k)

/-- The stretches of the failing elements of an output with elements of `k` bytes. -/
def nmBadOf (l : List Nat) (k : Nat) : List (Nat × Nat) := l.map fun i => (k * i, k * i + k)

/-- The agent of a piece: the Carafe of its granule acts for the control stream that issued the command (11 R377, 01 R34). -/
def State.nmAgent (s : State) (m : NmCmd) (g : Seg) : Agent :=
  { m.who.getD (s.agent .ctl) with src := 0x500 + (stackOf (gaPa g.pa % 2 ^ 40)).1 }

/-- A piece of an element command: the elements of [p, p + len) of its `DST` range (11 R374, R377, R379). -/
def State.nmElements (s : State) (m : NmCmd) (p : Nat) (g : Seg) : State × NmDone :=
  let c := m.ctl
  let k := nmSize c
  let i0 := p / k
  let n := g.len / k
  let j := nmSrcUnit c
  let code := nmCode c
  let a := s.nmAgent m g
  let none : NmRead := { data := [], bad := [], tags := [], fail := [] }
  let (s, w) := if code = 6 || code = 8 then (s, none) else s.nmRead a 1 m.seq [g]
  let (s, x) := s.nmRead a 1 m.seq (cutSegs m.src (j * i0) (j * n))
  let ms := if nmHasRec c then cutSegs m.aux (4 * i0) (4 * n) else []
  let vs := if code = 3 then cutSegs m.aux (4 * nmCount c + 4 * i0) (4 * n) else []
  let (s, mr) := s.nmRead a 1 m.seq ms
  let (s, vr) := s.nmRead a 1 m.seq vs
  let new := (List.range n).map fun i =>
    nmElem c m.prm m.opt { w := nmCodeAt w.data k i, g := nmCodeAt x.data j i, m := nmCodeAt mr.data 4 i, v := nmCodeAt vr.data 4 i }
  let bad := (List.range n).filter fun i =>
    nmLost w.bad (k * i) k || nmLost x.bad (j * i) j || nmLost mr.bad (4 * i) 4 || nmLost vr.bad (4 * i) 4
  let (s, r1) := s.nmWrite a m.seq m.dref (nmBadOf bad k) [] (new.flatMap fun e => natLe k e.w) [g]
  let (s, r2) := s.nmWrite a m.seq m.aref (nmBadOf bad 4) [] (new.flatMap fun e => natLe 4 e.m) ms
  let (s, r3) := s.nmWrite a m.seq m.aref (nmBadOf bad 4) [] (new.flatMap fun e => natLe 4 e.v) vs
  let rd : NmDone := { bad := [], fail := w.fail ++ x.fail ++ mr.fail ++ vr.fail }
  (s, ((rd.join r1).join r2).join r3)

/-- A piece of `NM.COPY` or `NM.CKPT` (11 R376). -/
def State.nmCopyPiece (s : State) (m : NmCmd) (p : Nat) (g : Seg) : State × NmDone :=
  let a := s.nmAgent m g
  let (s, x) := s.nmRead a (if nmCode m.ctl = 0x0D then 3 else 1) m.seq (cutSegs m.src p g.len)
  let (s, r) := s.nmWrite a m.seq m.dref x.bad x.tags x.data [g]
  (s, { r with fail := x.fail ++ r.fail })

/-- A sector of a command that writes no data (11 R376, R379): whether it is refused, whether it fails. -/
def State.nmSectorRead (s : State) (m : NmCmd) (a : Agent) (sa : Nat) : State × Bool × Bool :=
  match s.routeRead sa with
  | (s, none) => (s, true, false)
  | (s, some p) =>
    let code := nmCode m.ctl
    let x := s.sectorAt p
    let key := if code = 0x0A then x.ckey else s.keyMat a.key
    let (s, r) := s.readSector p a.src (if code = 0x0B then 5 else 1) (code == 0x0B) key
    if r.poison then (s, false, true)
    else if code = 0x0A then
      (s.writeSector p (r.data.map some) r.tags false x.ckey a.src (some (!bit m.prm 0 || !recodable r.data)), false, false)
    else (s, false, false)

/-- A piece of `NM.RECODE`, `NM.SCRUB` or `NM.FOLD` (11 R376, R379). -/
def State.nmQuiet (s : State) (m : NmCmd) (g : Seg) : State × NmDone :=
  if gaPkg g.pa ≠ s.pkg.toNat then (s, { bad := [], fail := [] })
  else
    let a := s.nmAgent m g
    let s := s.settle (g.pa / 128 * 128) ((g.pa + g.len + 127) / 128 * 128 - g.pa / 128 * 128) a
    let (s, no, vs) := (sectorsOf (gaPa g.pa) g.len).foldl (fun (y : State × Bool × List Nat) sa =>
      let (t, no, bad) := y.1.nmSectorRead m a sa
      (t, y.2.1 || no, if bad then y.2.2 ++ [g.sectorVa (gaOf s.pkg sa)] else y.2.2)) (s, false, [])
    let s := if nmCode m.ctl = 0x0C then s.visitAt (gaPa g.pa % 2 ^ 40) else s
    (s, { bad := vs, fail := if no then [s.nmRefusal m.seq g] else [] })

/-- The output ranges of a piece: its part of `DST`, and of m and v. -/
def NmCmd.outputs (m : NmCmd) (p : Nat) (g : Seg) : List Seg :=
  let i := p / nmSize m.ctl
  let n := g.len / nmSize m.ctl
  g :: (if nmHasRec m.ctl then cutSegs m.aux (4 * i) (4 * n) else []) ++
    if nmCode m.ctl = 3 then cutSegs m.aux (4 * nmCount m.ctl + 4 * i) (4 * n) else []

/-- A piece of a command, [p, p + len) of its `DST` range. One past a dead link does not run, and each of its output sectors counts
as poisoned (11 R379). -/
def State.nmPiece (s : State) (m : NmCmd) (p : Nat) (g : Seg) : State × NmDone :=
  if s.linkDead g.pa then (s, { bad := (m.outputs p g).flatMap fun o => (sectorsOf o.pa o.len).map o.sectorVa, fail := [] })
  else if nmReadOnly m.ctl then s.nmQuiet m g
  else if nmSector m.ctl then s.nmCopyPiece m p g
  else s.nmElements m p g

/-- Every piece of a command. -/
def State.nmRun (s : State) (m : NmCmd) : State × NmDone :=
  let (s, r, _) := m.dst.foldl (fun (x : State × NmDone × Nat) g =>
    let (t, r) := x.1.nmPiece m x.2.2 g
    (t, x.2.1.join r, x.2.2 + g.len)) (s, { bad := [], fail := [] }, 0)
  (s, r)

/-- The failure that a command records (11 R379): its poisoned output sectors, each once, and the lowest VA among them. -/
def nmFailure (q : Nat) (bad : List Nat) : List Failure :=
  match bad.eraseDups with
  | [] => []
  | v :: vs => [{ eng := .ctl, seq := q, kind := .nm, level := 1, va := vs.foldl min v, count := vs.length + 1 }]

/-- NM_COMPLETE (11 R377 to R379): the oldest command runs and completes; its failure is kept for a fence, its flag gets the
byte length of `DST`. A core without one completes the oldest of a job that has ended (R378). -/
def execNmComplete (s : State) : Out :=
  match s.core.nms with
  | [] => match s.orphans with
    | [] => .next s
    | m :: rest => .next ({ s with orphans := rest }.nmRun m).1
  | m :: rest =>
    let (s, r) := s.nmRun m
    let s := s.mapCore fun k => { k with nms := rest }
    let s := s.mapTask fun t => { t with failures := t.failures ++ r.fail ++ nmFailure m.seq r.bad }
    .next ((if bit m.ctl 20 then s.addCount .ctl (nmFlag m.ctl) (nmDstLen m.ctl) else s).applyAdds)

end Sys2Proof.Machine
end

