-- ==== Sys2Proof/Machine/Sha3.lean ====
section
/-! DEFINITION. SHA3-512, which firmware images and attestation reports are digested with (14 R448, R449): the sponge of
FIPS 202 with a rate of 72 bytes. The state is one word of 1,600 bits; lane 5y + x stands at bit 64 × (5y + x). -/

namespace Sys2Proof.Machine

/-- The state of the sponge. -/
abbrev Sponge := BitVec 1600

/-- A lane of the state. -/
def Sponge.lane (s : Sponge) (i : Nat) : Word := s.extractLsb' (64 * i) 64

/-- The state with a value added to a lane. -/
def Sponge.mixIn (s : Sponge) (i : Nat) (w : Word) : Sponge := s ^^^ (w.setWidth 1600 <<< (64 * i))

/-- The parity of a column. -/
def Sponge.column (s : Sponge) (x : Nat) : Word :=
  s.lane x ^^^ s.lane (x + 5) ^^^ s.lane (x + 10) ^^^ s.lane (x + 15) ^^^ s.lane (x + 20)

/-- θ: every lane takes the parities of the column before it and, turned by one, of the column after it. -/
def Sponge.theta (s : Sponge) : Sponge :=
  (List.range 25).foldl (fun t i =>
    t.mixIn i (s.column ((i % 5 + 4) % 5) ^^^ (s.column ((i % 5 + 1) % 5)).rotateLeft 1)) s

/-- ρ and π together, along the walk (x, y) → (y, 2x + 3y) from (1, 0): the lane met at step `t` moves one step on, turned by
the triangular number of `t` + 1. Lane 0 stays. -/
def Sponge.travel (s : Sponge) : Nat → Nat → Nat → Nat → Sponge → Sponge
  | 0, _, _, _, out => out
  | k + 1, t, x, y, out =>
    let z := (2 * x + 3 * y) % 5
    s.travel k (t + 1) y z (out.mixIn (5 * z + y) ((s.lane (5 * y + x)).rotateLeft ((t + 1) * (t + 2) / 2 % 64)))

/-- χ: every lane is changed by the two that follow it in its row. -/
def Sponge.chi (s : Sponge) : Sponge :=
  (List.range 25).foldl (fun t i =>
    let row := i - i % 5
    t.mixIn i (s.lane (row + (i + 2) % 5) &&& ~~~(s.lane (row + (i + 1) % 5)))) s

/-- One step of the register whose low bits make the round constants, with x^8 = x^6 + x^5 + x^4 + 1. -/
def keccakShift (r : Nat) : Nat := if 128 ≤ r then (2 * r) ^^^ 0x171 else 2 * r

/-- Seven steps of that register: what they leave in it, and the round constant, whose bit 2^j − 1 is the low bit before
step j. -/
def keccakIota (r : Nat) : Nat × Word :=
  (List.range 7).foldl (fun (r, w) j => (keccakShift r, if r % 2 = 1 then w ||| (1 <<< (2 ^ j - 1)) else w)) (r, 0)

/-- Rounds of the permutation, the register before each. -/
def Sponge.rounds : Nat → Nat → Sponge → Sponge
  | 0, _, s => s
  | k + 1, r, s =>
    let u := s.theta
    let (r, w) := keccakIota r
    Sponge.rounds k r (((u.travel 24 0 1 0 ((u.lane 0).setWidth 1600)).chi).mixIn 0 w)

/-- The permutation of 24 rounds. -/
def Sponge.permute (s : Sponge) : Sponge := s.rounds 24 1

/-- Absorbs `k` blocks of 72 bytes. -/
def sha3Absorb : Nat → Sponge → List Byte → Sponge
  | 0, s, _ => s
  | k + 1, s, m => sha3Absorb k (s ^^^ BitVec.ofNat 1600 (leNat (m.take 72))).permute (m.drop 72)

/-- The padding behind a message of `n` bytes: 0x06, zeros, and the top bit of the last byte of its last block. -/
def sha3Pad (n : Nat) : List Byte :=
  let k := 72 - n % 72
  (List.range k).map fun i => (if i = 0 then 0x06#8 else 0) ||| (if i + 1 = k then 0x80#8 else 0)

/-- SHA3-512 of a message; byte 0 of the digest is its least significant. -/
def sha3 (m : List Byte) : BitVec 512 :=
  (sha3Absorb (m.length / 72 + 1) 0 (m ++ sha3Pad m.length)).setWidth 512

end Sys2Proof.Machine
end

