-- ==== Sys2Proof/Machine/Module.lean ====
section
/-! DEFINITION. The module: the host interface, the management port, pod ports, resets, soft errors, power, and writes of device
registers (14 R439 to R455, 01 R33, R49, 04 R133, 11 R369, R370, 13 R407, R427). -/

namespace Sys2Proof.Machine

/-- The host link is trained and the package has power (14 R450). -/
def State.hostUp (s : State) : Bool := s.powered && s.rstep = 7

/-- The host as an agent (01 R34): no key, no address space. -/
def hostAgent : Agent := { src := 0x621, key := 0, asid := none, step := false }

/-- Records that wait in a launch queue (14 R441). -/
def State.queueDepth (s : State) (q : Nat) : Nat :=
  (s.jobs.filter fun j => !j.fw && j.prio = q && j.st ≠ .running && j.st ≠ .closing).length

/-- The 576 bytes of a record as the device reads them in an address space; none when they cannot be translated or read
(01 R18). -/
def State.hostRecord (s : State) (x : Space) (va : Nat) : State × Option (BitVec 4608) :=
  let u := s.jobWalks 0 x.root.toNat va 576
  match s.jobSegs 0 x.root.toNat x.asid .load va 576 with
  | .error _ => (u, none)
  | .ok segs =>
    let a : Agent := { src := 0x600, key := x.key, asid := some x.asid, step := false }
    let (s, d, ok) := segs.foldl (fun (y : State × List Byte × Bool) g =>
      let (t, r) := y.1.physRead g.pa g.len a 0
      (t, y.2.1 ++ r.data, y.2.2 && r.bad = [] && !r.refused)) (u, [], true)
    (s, if ok then some (BitVec.ofNat 4608 (leNat d)) else none)

/-- A dropped submission (14 R441, 01 R18). -/
def State.dropSubmission (s : State) : State :=
  { s with host := { s.host with hrefused := s.host.hrefused + 1 }, signals := s.signals ++ [.dropped] }

/-- HOST_SUBMIT (14 R441, 01 R18): a submission is dropped, refused with its sub-code in its completion area, or enters the
queue of its `PRIO`. -/
def execHostSubmit (recva : BitVec 42) (sasid : BitVec 16) (s : State) : Out :=
  .next (if !s.hostUp then s
    else match s.spaces.find? fun x => x.asid = sasid && x.host with
    | none => s.dropSubmission
    | some x =>
      let va := recva.toNat * 64
      let (s, r) := s.hostRecord x va
      match r with
      | none => s.dropSubmission
      | some r =>
        if 4096 ≤ s.queueDepth (lrPrio r) then s.dropSubmission
        else
          let sub := s.recordFail r false
          let j := Job.new s.nextJob false r va sasid x.root x.key x.clsmap (lrPrio r) s.chron.toNat
          let s := { s with jobs := s.jobs ++ [j], nextJob := s.nextJob + 1 }
          if sub = 0 then s else s.endJob j.id 4 Cause.launch.code 0 sub 0)

/-- HOST_READ (14 R440, 11 R365): a checkpoint read of a sector of device memory. -/
def execHostRead (pa : BitVec 40) (s : State) : Out :=
  let sa := pa.toNat / 64 * 64
  .next (if !s.hostUp || dramSize ≤ sa then s
    else ((s.physRead (gaOf s.pkg sa) 64 hostAgent 3).1).ckptMark (gaOf s.pkg sa) 64)

/-- Bytes of a masked write of a sector. -/
def maskedBytes (mask : BitVec 64) (data : BitVec 512) : List (Option Byte) :=
  (List.range 64).map fun i => if bit mask i then some (data.extractLsb' (8 * i) 8) else none

/-- A masked write of a sector of this package by an agent outside it; the home refuses one to a version region
(13 R410). -/
def State.maskedWrite (s : State) (sa : Nat) (a : Agent) (mask : BitVec 64) (data : BitVec 512) : State :=
  let s := s.settle (gaOf s.pkg sa) 64 a
  match s.routeWrite sa a false false with
  | (s, none) => s
  | (s, some p) => s.writeSector p (maskedBytes mask data) 0 false (s.keyMat a.key) a.src none

/-- HOST_WRITE (14 R440). -/
def execHostWrite (pa : BitVec 40) (mask : BitVec 64) (data : BitVec 512) (s : State) : Out :=
  let sa := pa.toNat / 64 * 64
  .next (if !s.hostUp || dramSize ≤ sa then s else s.maskedWrite sa hostAgent mask data)

/-- An attestation report with its signature (14 R449). -/
def State.report (s : State) (nonce : BitVec 512) : List Byte :=
  let r := natLe 64 nonce.toNat ++ natLe 64 s.fwdigest.toNat ++ natLe 8 Config.serial.toNat ++ wordLe 8 s.chron ++
    natLe 32 s.fences.toNat ++ natLe 8 s.pkg.toNat ++ List.replicate 72 0
  r ++ natLe 4627 (Config.signature (sha3 r)).toNat

/-- Updates the host interface. -/
def State.mapHost (s : State) (f : HostIf → HostIf) : State := { s with host := f s.host }

/-- MAILBOX_ATTEST (14 R442): a write of `MBGO` = 1 with a request in `MBOP`; ignored while one is served. -/
def execMailboxAttest (op : BitVec 8) (s : State) : Out :=
  .next (if !s.hostUp || s.host.mbgo then s
    else s.mapHost fun h => { h with mbop := op, mbgo := true, mbstat := 1 })

/-- MAILBOX_RESPONSE (14 R442): the request is served or refused, `MBGO` cleared, MSI-X vector 0 sent. -/
def execMailboxResponse (s : State) : Out :=
  .next (if !s.host.mbgo then s
    else s.mapHost fun h =>
      let h := { h with mbgo := false, msix := h.msix ++ [0] }
      if h.mbop = 1 then { h with mbstat := 0, mbrlen := 4883, mbresp := s.report h.mbnonce }
      else { h with mbstat := 2, mbrlen := 0 })

/-- HOST_BARRIER_ARRIVE (14 R443): a write of `SJARR` = 1; ignored while it is 1 or the slot is free. -/
def execHostBarrierArrive (slot : BitVec 4) (s : State) : Out :=
  .next (match s.host.slots[slot.toNat]? with
    | none => s
    | some x =>
      if x.job.isNone || x.arr.isSome then s
      else s.mapHost fun h => { h with slots := h.slots.set! slot.toNat { x with arr := some s.chron.toNat } })

/-- The mask ROM waits on the management port for an image (14 R448). -/
def State.romWaits (s : State) : Bool := s.rstep = 0

/-- The management port is served: the module has power (14 R444). -/
def State.portOn (s : State) : Bool := s.powered || s.rstep ≠ 0

/-- Most payload bytes of a frame (14 R445). -/
def frameMax : Nat := 1384

/-- The frames of a response, ordered by `MOFF` (14 R445), with fuel. -/
def framesFrom (ty : BitVec 8) (q : BitVec 32) : Nat → Nat → List Byte → List MFrame
  | 0, _, _ => []
  | k + 1, off, d =>
    let f : MFrame := { mtype := ty, mstat := 0, mseq := q, moff := BitVec.ofNat 64 off, body := d.take frameMax }
    if d.length ≤ frameMax then [f] else f :: framesFrom ty q k (off + frameMax) (d.drop frameMax)

/-- The frames of a response of type `ty` + 0x80. -/
def framesOf (ty : BitVec 8) (q : BitVec 32) (d : List Byte) : List MFrame :=
  framesFrom (ty + 0x80) q (d.length / frameMax + 1) 0 d

/-- A response without payload. -/
def ack (ty st : BitVec 8) (q : BitVec 32) : MFrame := { mtype := ty + 0x80, mstat := st, mseq := q, moff := 0, body := [] }

/-- Updates the management port. -/
def State.mapMgmt (s : State) (f : Mgmt → Mgmt) : State := { s with mgmt := f s.mgmt }

/-- The device answers a request. -/
def State.answer (s : State) (l : List MFrame) : State := s.mapMgmt fun m => { m with answers := m.answers ++ l }

/-- A request of the management port (14 R445): one with a sequence number answered before gets that answer again and has no other
effect; while the mask ROM waits, a type it does not serve is refused. -/
def State.request (s : State) (ty : BitVec 8) (q : BitVec 32) (rom : Bool) (f : State → State) : State :=
  if !s.portOn then s
  else if s.mgmt.answers.any (fun a => a.mseq = q) then s.answer (s.mgmt.answers.filter fun a => a.mseq = q).eraseDups
  else if s.romWaits && !rom then s.answer [ack ty 1 q]
  else f s

/-- Most bytes of an image (14 R445). -/
def imageMax : Nat := 0x2000 + 2 ^ 26

/-- IMAGE_CHUNK (14 R445). -/
def execImageChunk (q : BitVec 32) (off : BitVec 64) (b : List Byte) (s : State) : Out :=
  .next (s.request 1 q true fun s =>
    if frameMax < b.length || imageMax < off.toNat + b.length then s.answer [ack 1 1 q]
    else (s.mapMgmt fun m => { m with chunks := m.chunks ++ [(off.toNat, b)] }).answer [ack 1 0 q])

/-- The image that chunks make: a later chunk over an earlier one, and zero where none was received (14 R445). -/
def gatherChunks (l : List (Nat × List Byte)) : List Byte :=
  let n := l.foldl (fun m c => max m (c.1 + c.2.length)) 0
  l.foldl (fun d c => d.take c.1 ++ c.2 ++ d.drop (c.1 + c.2.length)) (List.replicate n 0)

/-- `FWLEN` of an image (14 R448). -/
def fwLen (m : List Byte) : Nat := leNat ((m.drop 4).take 4)

/-- The digest that R448 computes over an image. -/
def fwDigest (m : List Byte) : BitVec 512 := sha3 (m.take 16 ++ (m.drop 0x2000).take (fwLen m))

/-- An image passes (14 R448). -/
def fwImageOk (m : List Byte) : Bool :=
  leNat (m.take 4) = 0x46574C43 && 1 ≤ fwLen m && fwLen m ≤ 2 ^ 26 && 0x2000 + fwLen m ≤ m.length &&
    Config.imageVerifies (fwDigest m) ((m.drop 16).take 4627)

/-- What a reset leaves of the machine outside its power: its number, its flash, the events that wait, the free values used, the
memory of the host and of other packages. -/
def State.bare (s : State) : State :=
  { State.reset with
    pkg := s.pkg, flash := s.flash, inbox := s.inbox, free := s.free, mem := s.mem.filter fun c => gaPkg c.1 ≠ s.pkg.toNat
    rpoison := s.rpoison }

/-- Steps 3 to 7 of a reset (14 R450): `failed` names the cores that fail the self-test; when step 3 or 4 fails, the package stays
in step 3. -/
def State.train (s : State) (failed : BitVec 256) : State :=
  if Config.trainingFails s.free then { s with rstep := 2, free := s.free + 1 }
  else { s with rstep := 7, free := s.free + 1, fences := failed }

/-- Steps 2 to 7 of a cold reset (14 R450): the image runs, the cores that failed their self-test are fenced. -/
def State.boot (s : State) : State :=
  State.train { s.bare with
    fwver := BitVec.ofNat 64 (leNat ((s.flash.drop 8).take 8)), fwdigest := fwDigest s.flash } s.fences

/-- COLD_RESET (14 R448, R450, R451): with an image that fails, the mask ROM waits; `failed` names the cores that fail the
self-test. -/
def execColdReset (failed : BitVec 256) (s : State) : Out :=
  let t := { s.bare with fences := failed, rstep := 0 }
  .next (if fwImageOk s.flash then t.boot else t)

/-- IMAGE_COMMIT (14 R445, R448): the gathered image replaces the one in flash when it passes; the waiting mask ROM then runs
it. -/
def execImageCommit (q : BitVec 32) (s : State) : Out :=
  .next (s.request 2 q true fun s =>
    let m := gatherChunks s.mgmt.chunks
    let s := s.mapMgmt fun p => { p with chunks := [] }
    if fwImageOk m then
      let t := { s with flash := m }
      let t := if s.romWaits then { t.boot with mgmt := s.mgmt } else t
      t.answer [ack 2 0 q]
    else s.answer [ack 2 2 q])

/-- ATTESTATION_REQUEST (14 R445, R449): the report and its signature in four frames. -/
def execAttestationRequest (q : BitVec 32) (nonce : BitVec 512) (s : State) : Out :=
  .next (s.request 3 q false fun s => s.answer (framesOf 3 q (s.report nonce)))

/-- An entry of the row table (11 R370). -/
def RowEntry.word (r : RowEntry) : Nat :=
  r.count.toNat + r.row.toNat * 2 ^ 16 + r.bank.toNat * 2 ^ 32 + r.pch.toNat * 2 ^ 36 + 2 ^ 42

/-- The status of a version region in a stack (13 R418): zero while it is not in service. -/
def State.regionStatus (s : State) (v k i : Nat) : Nat :=
  if !((s.regions[v]?).map Region.rdy).getD false then 0
  else
    let x := s.vst v k
    match i with
    | 0 => x.s.toNat + x.vpass.toNat * 2 ^ 16 + x.vptr.toNat * 2 ^ 32
    | 1 => x.aborted.length
    | 2 => x.forced.toNat + x.passes.toNat * 2 ^ 32
    | _ => 0

/-- A doubleword of the block of a stack at a byte offset (11 R370, 13 R418). -/
def State.stackWord (s : State) (k off : Nat) : Nat :=
  match s.carafe.stks[k]? with
  | none => 0
  | some x =>
    let ce (b : Nat) : Nat := (((x.bankce.find? fun e => e.1 = b).map Prod.snd).getD 0).toNat
    if off = 0 then x.elogHead.toNat
    else if off = 8 then x.rowdrop.toNat
    else if off = 0x10 then x.periodNo.toNat
    else if off = 0x18 then x.unread.toNat
    else if off = 0x20 then x.uecount.toNat
    else if 0x1000 ≤ off && off < 0x2000 then ce ((off - 0x1000) / 4) + ce ((off - 0x1000) / 4 + 1) * 2 ^ 32
    else if 0x2000 ≤ off && off < 0xA000 then ((x.rows[(off - 0x2000) / 8]?).map RowEntry.word).getD 0
    else if 0xA000 ≤ off && off < 0xA200 then s.regionStatus ((off - 0xA000) / 32) k ((off - 0xA000) % 32 / 8)
    else 0

/-- The status of a port (14 R447). -/
def Port.bytes (p : Port) : List Byte :=
  natLe 8 (b2n p.up + 2 * b2n p.dead + 4 * p.peer.toNat) ++ natLe 8 (p.replays.toNat + p.fecfix.toNat * 2 ^ 32)

/-- The payload of a telemetry response (14 R445): the blocks of the twelve stacks, then the status of the sixteen ports. -/
def State.telemetry (s : State) : List Byte :=
  ((List.range 12).flatMap fun k => (List.range 8192).flatMap fun i => natLe 8 (s.stackWord k (8 * i))) ++
    s.ports.toList.flatMap Port.bytes

/-- TELEMETRY_REQUEST (14 R445). -/
def execTelemetryRequest (q : BitVec 32) (s : State) : Out :=
  .next (s.request 4 q false fun s => s.answer (framesOf 4 q s.telemetry))

/-- POD_MEMBERSHIP (14 R445, 01 R18): the resident OS configures a pod group, with its packages in rank order. -/
def execPodMembership (q : BitVec 32) (group : BitVec 16) (members : List (BitVec 12)) (s : State) : Out :=
  .next (s.request 5 q false fun s =>
    let rest := s.groups.filter fun g => g.num ≠ group
    let new : Group := { num := group, pkgs := members }
    let s := { s with groups := if members = [] then rest else rest ++ [new] }
    s.answer [ack 5 0 q])

/-- STATUS_REQUEST (14 R445): `FWVER`, the last reset step completed, the fence map. -/
def execStatusRequest (q : BitVec 32) (s : State) : Out :=
  .next (s.request 6 q true fun s =>
    s.answer (framesOf 6 q (wordLe 8 s.fwver ++ natLe 8 s.rstep ++ natLe 32 s.fences.toNat)))

/-- Updates a pod port. -/
def State.mapPort (s : State) (p : Nat) (f : Port → Port) : State :=
  match s.ports[p]? with
  | some x => { s with ports := s.ports.set! p (f x) }
  | none => s

/-- A dead port (14 R447). -/
def Port.kill (p : Port) : Port := { p with up := false, dead := true, tries := 0 }

/-- A flit whose CRC fails (14 R446, R447): it is replayed, and the port is dead when the eighth replay fails. -/
def Port.crcFail (p : Port) : Port :=
  if 8 ≤ p.tries then p.kill else { p with replays := p.replays + 1, tries := p.tries + 1 }

/-- CHRON_ALIGN (01 R33): the alignment orders events only, and no Chronograph stops or steps back. -/
def execChronAlign (_port : BitVec 4) (_stamp : BitVec 64) (s : State) : Out := .next s

/-- A pod port as an agent (01 R34). -/
def portAgent (p : Nat) : Agent := { src := 0x630 + p, key := 0, asid := none, step := false }

/-- The codewords that the FEC corrected are counted, and the count saturates (14 R446, R447). -/
def Port.corrected (p : Port) (fec : BitVec 32) : Port :=
  { p with fecfix := if p.fecfix.toNat + fec.toNat < 2 ^ 32 then p.fecfix + fec else BitVec.allOnes 32 }

/-- A contribution of another package's task to a word homed here (02 R86): it waits behind the reductions on their way. -/
def State.portRed (s : State) (ga : Nat) (group : BitVec 16) (key : BitVec 8) (op : BitVec 3) (ty : BitVec 4) (val : Word) :
    State :=
  match s.jobs.find? fun j => 4 < lrSpan j.lrec && lrGroup j.lrec = group.toNat && j.st ≠ .waiting with
  | none => s
  | some j =>
    let m : RedMsg :=
      { core := s.core.num, away := true, job := j.id, asid := j.asid, seq := 0, task := 0,
        cnt := (((s.tasksOf j.id).head?).map Task.counts).getD Counts.zero, pa := ga, va := 0, key := key, op := op.toNat,
        ty := ty.toNat, val := val &&& BitVec.ofNat 64 (2 ^ (8 * redSize ty.toNat) - 1), fail := none }
    { s with reds := s.reds ++ [m] }

/-- FLIT_RECEIVE (14 R446): a flit whose CRC holds delivers what it carries. -/
def execFlitReceive (port : BitVec 4) (body : FlitBody) (crcOk : Bool) (fec : BitVec 32) (s : State) : Out :=
  match s.ports[port.toNat]? with
  | none => .next s
  | some p =>
    if !p.up || p.dead then .next s
    else if !crcOk then .next (s.mapPort port.toNat fun p => (p.corrected fec).crcFail)
    else
      let s := s.mapPort port.toNat fun p => { p.corrected fec with tries := 0 }
      match body with
      | .vote v => execVotePacket v s
      | .decision v => execDecisionPacket v s
      | .align t => execChronAlign port t s
      | .data ga mask bytes =>
        let sa := gaPa ga.toNat / 64 * 64
        .next (if gaPkg ga.toNat = s.pkg.toNat && framed sa then s.maskedWrite sa (portAgent port.toNat) mask bytes else s)
      | .red ga group key op ty v =>
        .next (if gaPkg ga.toNat = s.pkg.toNat && framed (gaPa ga.toNat) then s.portRed ga.toNat group key op ty v else s)

/-- PORT_DEAD (14 R447). -/
def execPortDead (port : BitVec 4) (s : State) : Out := .next (s.mapPort port.toNat Port.kill)

/-- PORT_TRAINED (14 R447): a dead port stays dead until the next reset. -/
def execPortTrained (port : BitVec 4) (peer : BitVec 12) (s : State) : Out :=
  .next (if !s.hostUp then s
    else s.mapPort port.toNat fun p => if p.dead then p else { p with up := true, peer := peer, tries := 0 })

/-- Every job of the package ends with a state of its own (14 R450, R455); decisions that the commit node holds are applied. -/
def State.endAll (s : State) (st : Nat) : State :=
  let s := (s.jobs.map Job.id).foldl (fun s id => match s.jobAt id with
    | some j => if j.st = .closing then s else s.endJob id st 0 0 0 0
    | none => s) s
  s.jobs.foldl (fun s j => match j.decided with
    | (p, _) :: _ => s.applyDecision j p
    | [] => s) s

/-- A stack through a warm reset (14 R450): its write queue drained, its counters and history kept, a new scrub period. -/
def Stack.warm (x : Stack) : Stack :=
  { Stack.reset with
    elogHead := x.elogHead, rowdrop := x.rowdrop, periodNo := x.periodNo, unread := x.unread, uecount := x.uecount,
    bankce := x.bankce, rows := x.rows, patrol := x.patrol }

/-- WARM_RESET (14 R450, R451): jobs end with `STATE` 3, write queues drain, and memory with its metadata, the version regions,
the Carafe common block and the error counters keep their values. -/
def execWarmReset (failed : BitVec 256) (s : State) : Out :=
  .next (if !s.hostUp then s
    else
      let t := s.endAll 3
      let t := t.orphans.foldl (fun t m => (t.nmRun m).1) { t with orphans := [] }
      let t := match execScrubPeriodEnd t with
        | .next u => u
        | _ => t
      State.train { t.bare with
        fences := t.fences, mem := t.mem, sectors := t.sectors, regions := t.regions, blocks := t.blocks, fwver := t.fwver,
        fwdigest := t.fwdigest, carafe := { t.carafe with stks := t.carafe.stks.map Stack.warm, start := 0, frdOld := [], retired := [] } } failed)

/-- A `MACHINE_CHECK` in a core, with its structure code (14 R453, R454); a core that runs nothing has nothing to stop: it writes
its frame at once (log 22). -/
def State.machineCheck (s : State) (n code : Nat) : State :=
  s.onCore n fun s =>
    let t := s.stopCore .ctl { cause := .machineCheck, finfo := BitVec.ofNat 32 code, finfox := 0, faddr := 0 }
    match s.core.job, t.core.stop with
    | none, some r => (t.writeFrame r).mapCore fun c => { c with stop := none }
    | _, _ => t

/-- The cores that run a job (14 R453). -/
def State.jobCores (s : State) : List Nat :=
  ((putCore s.core (s.others.filter fun c => c.num ≠ s.core.num)).filter fun c => c.job.isSome && c.mode = .job).map Core.num

/-- A sector of a dirty line written to its home as poisoned (14 R453, 11 R360). -/
def State.poisonAt (s : State) (sa : Nat) : State :=
  match s.routeRead sa with
  | (s, none) => s
  | (s, some p) => s.putSector { s.sectorAt p with poison := true, err := [] }

/-- A dirty line of a global address written to its home with `POISON` (14 R453, 11 R360). -/
def State.poisonLine (s : State) (ga : Nat) : State :=
  if gaHost ga || gaPkg ga ≠ s.pkg.toNat then
    { s with rpoison := s.rpoison ++ [ga, ga + 64].filter fun p => !s.rpoison.contains p }
  else if framed (gaPa ga) then (s.poisonAt (gaPa ga)).poisonAt (gaPa ga + 64)
  else s

/-- A core without one line of its code cache; a pinned one is fetched and pinned again (14 R453, 04 R158). -/
def Core.dropCode (c : Core) (k : Nat) : Core :=
  match c.code[k]? with
  | none => c
  | some l => { c with code := c.code.eraseIdx k, repin := if l.pinned then c.repin ++ [l.va] else c.repin }

/-- SRAM_ERROR (14 R453, R454). -/
def execSramError (at_ : SramPlace) (s : State) : Out :=
  .next (match at_ with
    | .cleanLine _ | .versionCache _ => s
    | .codeLine n k => s.mapCoreAt n.toNat fun c => c.dropCode k.toNat
    | .tlbEntry n k => s.mapCoreAt n.toNat fun c => { c with tlb := c.tlb.eraseIdx k.toNat }
    | .dieTlbEntry d k => s.mapDie d.toNat fun x => { x with tlb := x.tlb.eraseIdx k.toNat }
    | .dirtyLine ga => s.poisonLine (ga.toNat / 128 * 128)
    | .registers n => s.machineCheck n.toNat 1
    | .accumulator n => s.machineCheck n.toNat 2
    | .scratchpad n => s.machineCheck n.toNat 3
    | .flagState n => s.machineCheck n.toNat 4
    | .queueState n => s.machineCheck n.toNat 5
    | .directory d => (s.jobCores.filter fun n => n / 64 = d.toNat).foldl (fun s n => s.machineCheck n 6) s
    | .hub => s.jobCores.foldl (fun s n => s.machineCheck n 7) s)

/-- THERMAL_THROTTLE (14 R455): issue is gated. -/
def execThermalThrottle (s : State) : Out := .next { s with gated := true }

/-- FALL_BELOW_LIMITS (14 R455): the gating ends. -/
def execFallBelowLimits (s : State) : Out := .next { s with gated := false }

/-- THERMAL_SHUTDOWN (14 R455): every job ends with `STATE` 3, and the C-dies and stacks lose power until a cold reset. -/
def execThermalShutdown (s : State) : Out := .next { s.endAll 3 with powered := false }

/-- POWER_LOSS (14 R444, R448): nothing but flash remains, and a write of it that was cut leaves no valid image. -/
def execPowerLoss (flashWrite : Bool) (s : State) : Out :=
  .next { s.bare with powered := false, rstep := 0, flash := if flashWrite then [] else s.flash }

/-- A write of a field of a format-region descriptor (02 R98). -/
def Frd.put (f : Frd) (i : Nat) (v : Word) : Frd :=
  match i with
  | 0 => { f with v := bit v 0, base := v.extractLsb' 12 28 }
  | 1 => { f with limit := v.extractLsb' 12 28 }
  | 2 => { f with fmt := v.extractLsb' 0 4 }
  | _ => { f with scale := v.extractLsb' 6 34 }

/-- A write of a descriptor of a version region (13 R407). -/
def State.regionWrite (s : State) (v i : Nat) (w : Word) : Out :=
  let vv := ((s.regions[v]?).map Region.vv).getD false
  let k := BitVec.ofNat 4 v
  match i with
  | 0 =>
    if bit w 0 then execRegionDeclare k w s
    else
      let set (s : State) : State := s.mapRegion v fun r => { r with base := w.extractLsb' 12 28 }
      if vv then
        match execRegionRetire k s with
        | .next t => .next (set t)
        | o => o
      else .next (set s)
  | 1 => .next (if vv then s else s.mapRegion v fun r => { r with limit := w.extractLsb' 12 28 })
  | 2 => .next (if vv then s else s.mapRegion v fun r => { r with asid := w.extractLsb' 0 16 })
  | _ => .next s

/-- A write of the Carafe common block at a byte offset (11 R369). -/
def State.commonWrite (s : State) (off : Nat) (v : Word) : Out :=
  let set (f : Carafe → Carafe) : Out := .next { s with carafe := f s.carafe }
  if off = 0 then
    let p := bits v 5 1
    set fun c => { c with rcen := bit v 0, nextPeriod := if 1 ≤ p && p ≤ 24 then BitVec.ofNat 5 p else c.nextPeriod }
  else if off = 8 then
    let z := bits v 4 0
    set fun c => { c with
      elogbase := v.extractLsb' 12 28, elogsz := if z = 0 || (6 ≤ z && z ≤ 16) then BitVec.ofNat 5 z else c.elogsz }
  else if 0x400 ≤ off && off < 0x600 then
    let n := (off - 0x400) / 32
    set fun c => { c with frdOld := { frd := c.frd, till := s.chron } :: c.frdOld, frd := c.frd.set! n ((c.frd.toList.getD n Frd.reset).put (off % 32 / 8) v) }
  else if 0x1000 ≤ off && off < 0x5000 then execKeySlotWrite (BitVec.ofNat 16 off) v s
  else if 0x5000 ≤ off && off < 0x5020 then .next s
  else if 0x6000 ≤ off && off < 0x6200 then s.regionWrite ((off - 0x6000) / 32) (off % 32 / 8) v
  else .fault .noSuchRegister

/-- A write of a firmware start block (04 R133); bits [5:0] of `FWREC` are kept as written (log 22). -/
def State.fwWrite (s : State) (n i : Nat) (v : Word) : Out :=
  let set (f : FwBlock → FwBlock) : Out := .next (s.mapCoreAt n fun c => { c with fw := f c.fw })
  match i with
  | 0 => set fun b => { b with recp := v.extractLsb' 0 41 }
  | 1 => set fun b => { b with asid := v.extractLsb' 0 16 }
  | 2 => set fun b => { b with root := v.extractLsb' 0 41 &&& ~~~0xFFF#41 }
  | _ => if bit v 0 then execFirmwareStart (BitVec.ofNat 8 n) s else .next s

/-- A write of the OS area block (01 R49). -/
def State.osWrite (s : State) (off : Nat) (v : Word) : Out :=
  if off < 0x60 then .next (s.writeOsArea off v)
  else if off = 0x60 then execResume (v.extractLsb' 0 8) s
  else if off = 0x68 then execAresume (v.extractLsb' 0 2) s
  else if off = 0x70 then .next s
  else .fault .noSuchRegister

/-- AREA_LIMIT_WRITE (01 R49): a write of the OS area block. -/
def execAreaLimitWrite (off : BitVec 12) (v : Word) (s : State) : Out :=
  if off.toNat % 8 = 0 then s.osWrite off.toNat v else .fault .noSuchRegister

/-- A write of the host mailbox or the launch window in BAR0 (14 R441 to R443); before the host link is trained none is served
(14 R450), and a write of 0 to `MBGO` or `SJARR`, which the device alone clears, has no effect (log 34). -/
def State.barWrite (s : State) (off : Nat) (v : Word) : Out :=
  if !s.hostUp && off < 0x3313 then .next s
  else if off = 0 then execHostSubmit (v.extractLsb' 6 42) (v.extractLsb' 48 16) s
  else if off < 0x50 then .next s
  else if 0x100 ≤ off && off < 0x300 then
    let n := (off - 0x100) / 32
    match off % 32 / 8 with
    | 2 => if bit v 0 then execHostBarrierArrive (BitVec.ofNat 4 n) s else .next s
    | 3 => .next (match s.host.slots[n]? with
      | some x => s.mapHost fun h => { h with slots := h.slots.set! n { x with x := v.extractLsb' 0 20 } }
      | none => s)
    | _ => .next s
  else if off = 0x1000 then
    if bit v 8 then execMailboxAttest (v.extractLsb' 0 8) s else .next (s.mapHost fun h => { h with mbop := v.extractLsb' 0 8 })
  else if off = 0x1008 then .next s
  else if 0x1040 ≤ off && off < 0x1080 then
    .next (s.mapHost fun h => { h with mbnonce := setBits h.mbnonce (8 * (off - 0x1040)) 64 (v.setWidth 512) })
  else if 0x2000 ≤ off && off < 0x3313 then .next s
  else .fault .noSuchRegister

/-- REGISTER_WRITE (00 R6): a doubleword written at an offset of device register space, or, from 2^40 on, of BAR0. -/
def execRegisterWrite (off : BitVec 41) (v : BitVec 64) (s : State) : Out :=
  let o := off.toNat / 8 * 8
  if 2 ^ 40 ≤ o then s.barWrite (o - 2 ^ 40) v
  else if 0x300000 ≤ o && o < 0x300078 then s.osWrite (o - 0x300000) v
  else if 0x400000 ≤ o && o < 0x402000 then s.fwWrite ((o - 0x400000) / 32) (o % 32 / 8) v
  else if 0x500000 ≤ o && o < 0x510000 then s.commonWrite (o - 0x500000) v
  else if 0x510000 ≤ o && o < 0x5D0000 then .next s
  else if o = 0x600000 then .next { s with node := { s.node with txtmo := v.extractLsb' 0 32 } }
  else if o = 0x600008 then .next s
  else if 0x700000 ≤ o && o < 0x700100 then .next s
  else .fault .noSuchRegister

/-- A doubleword of a format-region descriptor (02 R98). -/
def Frd.word (f : Frd) : Nat → Nat
  | 0 => b2n f.v + f.base.toNat * 2 ^ 12
  | 1 => f.limit.toNat * 2 ^ 12
  | 2 => f.fmt.toNat
  | _ => f.scale.toNat * 2 ^ 6

/-- A doubleword of a version-region descriptor (13 R407). -/
def Region.word (r : Region) : Nat → Nat
  | 0 => b2n r.vv + r.base.toNat * 2 ^ 12
  | 1 => r.limit.toNat * 2 ^ 12
  | 2 => r.asid.toNat + b2n r.rdy * 2 ^ 16
  | _ => 0

/-- A doubleword of a firmware start block (04 R133). -/
def FwBlock.word (b : FwBlock) : Nat → Nat
  | 0 => b.recp.toNat
  | 1 => b.asid.toNat
  | 2 => b.root.toNat
  | _ => b2n b.go + 2 * b2n b.fail

/-- A doubleword of the Carafe common block (11 R369, 02 R98, 13 R407): key slots read as zero. -/
def State.commonWord (s : State) (off : Nat) : Nat :=
  let c := s.carafe
  if off = 0 then b2n c.rcen + 2 * c.nextPeriod.toNat
  else if off = 8 then c.elogsz.toNat + c.elogbase.toNat * 2 ^ 12
  else if 0x400 ≤ off && off < 0x600 then ((c.frd[(off - 0x400) / 32]?).getD Frd.reset).word (off % 32 / 8)
  else if 0x5000 ≤ off && off < 0x5020 then
    (((List.range 64).filter fun i => c.keys.any fun k => k.v && k.id.toNat = 8 * (off - 0x5000) + i).map fun i => 2 ^ i).sum
  else if 0x6000 ≤ off && off < 0x6200 then ((s.regions[(off - 0x6000) / 32]?).map fun r => r.word (off % 32 / 8)).getD 0
  else 0

/-- A doubleword of the OS area block (01 R49): `RESUME` and `ARESUME` read as zero. -/
def OsArea.word (o : OsArea) (off : Nat) : Nat :=
  if off = 0 then o.framebase.toNat * 2 ^ 12
  else if off = 8 then o.aframebase.toNat * 2 ^ 12
  else if off = 0x10 then o.ctbase.toNat * 2 ^ 12
  else if off = 0x18 then o.ctlim.toNat * 2 ^ 12
  else if off < 0x60 then
    let d := (off - 0x20) / 16
    (if off % 16 = 0 then o.rspbase.toList.getD d 0 else o.rsplim.toList.getD d 0).toNat * 2 ^ 12
  else if off = 0x70 then b2n o.ctfull + 2 * o.rspfull.toNat
  else 0

/-- A doubleword of BAR0 (14 R441 to R443): the launch window reads as zero. -/
def State.barWord (s : State) (off : Nat) : Nat :=
  let h := s.host
  if off = 0 then 0
  else if off < 0x48 then s.queueDepth ((off - 8) / 8)
  else if off = 0x48 then h.hrefused.toNat
  else if 0x100 ≤ off && off < 0x300 then
    match h.slots[(off - 0x100) / 32]?, off % 32 / 8 with
    | some x, 0 => x.compl.toNat
    | some x, 1 => x.gen.toNat
    | some x, 2 => b2n x.arr.isSome
    | some x, _ => x.x.toNat
    | none, _ => 0
  else if off = 0x1000 then h.mbop.toNat + b2n h.mbgo * 2 ^ 8 + h.mbstat.toNat * 2 ^ 16
  else if off = 0x1008 then h.mbrlen.toNat
  else if 0x1040 ≤ off && off < 0x1080 then (h.mbnonce.extractLsb' (8 * (off - 0x1040)) 64).toNat
  else if 0x2000 ≤ off && off < 0x3313 then leNat ((h.mbresp.drop (off - 0x2000)).take 8)
  else 0

/-- The doubleword that a read of device register space gives at an offset, or, from 2^40 on, of BAR0 (00 R6): write-only and
reserved fields read as zero. -/
def State.deviceWord (s : State) (off : Nat) : Word :=
  let o := off / 8 * 8
  BitVec.ofNat 64 (
    if 2 ^ 40 ≤ o then s.barWord (o - 2 ^ 40)
    else if 0x300000 ≤ o && o < 0x300078 then s.os.word (o - 0x300000)
    else if 0x400000 ≤ o && o < 0x402000 then ((s.coreAt ((o - 0x400000) / 32)).fw).word (o % 32 / 8)
    else if 0x500000 ≤ o && o < 0x510000 then s.commonWord (o - 0x500000)
    else if 0x510000 ≤ o && o < 0x5D0000 then s.stackWord ((o - 0x510000) / 0x10000) ((o - 0x510000) % 0x10000)
    else if o = 0x600000 then s.node.txtmo.toNat
    else if o = 0x600008 then s.node.ndec.toNat + s.node.nabt.toNat * 2 ^ 32
    else if 0x700000 ≤ o && o < 0x700100 then
      leNat (((((s.ports[(o - 0x700000) / 16]?).map Port.bytes).getD []).drop (o % 16)).take 8)
    else 0)

end Sys2Proof.Machine
end

