-- ==== Sys2Proof/Machine/Dispatch.lean ====
section
/-! DEFINITION. One arm for each row of the opcode table. -/

namespace Sys2Proof.Machine

/-- The meaning of an instruction or event. -/
def exec (i : Instr) (s : State) : Host.Outcome State Fault Refusal :=
  match i with
  | .add d a b => Sys2Proof.Machine.execAdd d a b s
  | .sub d a b => Sys2Proof.Machine.execSub d a b s
  | .mul d a b => Sys2Proof.Machine.execMul d a b s
  | .mulhI64 d a b => Sys2Proof.Machine.execMulhI64 d a b s
  | .mulhN64 d a b => Sys2Proof.Machine.execMulhN64 d a b s
  | .divI64 d a b => Sys2Proof.Machine.execDivI64 d a b s
  | .divN64 d a b => Sys2Proof.Machine.execDivN64 d a b s
  | .remI64 d a b => Sys2Proof.Machine.execRemI64 d a b s
  | .remN64 d a b => Sys2Proof.Machine.execRemN64 d a b s
  | .and d a b => Sys2Proof.Machine.execAnd d a b s
  | .or d a b => Sys2Proof.Machine.execOr d a b s
  | .xor d a b => Sys2Proof.Machine.execXor d a b s
  | .andn d a b => Sys2Proof.Machine.execAndn d a b s
  | .shl d a b => Sys2Proof.Machine.execShl d a b s
  | .shr d a b => Sys2Proof.Machine.execShr d a b s
  | .sar d a b => Sys2Proof.Machine.execSar d a b s
  | .rol d a b => Sys2Proof.Machine.execRol d a b s
  | .minI64 d a b => Sys2Proof.Machine.execMinI64 d a b s
  | .minN64 d a b => Sys2Proof.Machine.execMinN64 d a b s
  | .maxI64 d a b => Sys2Proof.Machine.execMaxI64 d a b s
  | .maxN64 d a b => Sys2Proof.Machine.execMaxN64 d a b s
  | .clz d a => Sys2Proof.Machine.execClz d a s
  | .ctz d a => Sys2Proof.Machine.execCtz d a s
  | .popc d a => Sys2Proof.Machine.execPopc d a s
  | .movXP d n => Sys2Proof.Machine.execMovXP d n s
  | .movPX p a => Sys2Proof.Machine.execMovPX p a s
  | .addImm d a i_ => Sys2Proof.Machine.execAddImm d a i_ s
  | .mulImm d a i_ => Sys2Proof.Machine.execMulImm d a i_ s
  | .andImm d a i_ => Sys2Proof.Machine.execAndImm d a i_ s
  | .orImm d a i_ => Sys2Proof.Machine.execOrImm d a i_ s
  | .xorImm d a i_ => Sys2Proof.Machine.execXorImm d a i_ s
  | .shlImm d a h => Sys2Proof.Machine.execShlImm d a h s
  | .shrImm d a h => Sys2Proof.Machine.execShrImm d a h s
  | .sarImm d a h => Sys2Proof.Machine.execSarImm d a h s
  | .rolImm d a h => Sys2Proof.Machine.execRolImm d a h s
  | .cmp p c a b u => Sys2Proof.Machine.execCmp p c a b u s
  | .cmpImm p c a u i_ => Sys2Proof.Machine.execCmpImm p c a u i_ s
  | .sel d a b p => Sys2Proof.Machine.execSel d a b p s
  | .li d i_ => Sys2Proof.Machine.execLi d i_ s
  | .lih d h i_ => Sys2Proof.Machine.execLih d h i_ s
  | .bfx d a b c s_ => Sys2Proof.Machine.execBfx d a b c s_ s
  | .bfi d a b c s_ => Sys2Proof.Machine.execBfi d a b c s_ s
  | .fsh d a b c s_ => Sys2Proof.Machine.execFsh d a b c s_ s
  | .br o => Sys2Proof.Machine.execBr o s
  | .call d o => Sys2Proof.Machine.execCall d o s
  | .bc p n o => Sys2Proof.Machine.execBc p n o s
  | .loop a o => Sys2Proof.Machine.execLoop a o s
  | .ret a => Sys2Proof.Machine.execRet a s
  | .ld d a t u o => Sys2Proof.Machine.execLd d a t u o s
  | .ldIndex d a b t u => Sys2Proof.Machine.execLdIndex d a b t u s
  | .st s_ a t u o => Sys2Proof.Machine.execSt s_ a t u o s
  | .stIndex s_ a b t u => Sys2Proof.Machine.execStIndex s_ a b t u s
  | .redAdd v a t s_ => Sys2Proof.Machine.execRedAdd v a t s_ s
  | .redMin v a t s_ => Sys2Proof.Machine.execRedMin v a t s_ s
  | .redMax v a t s_ => Sys2Proof.Machine.execRedMax v a t s_ s
  | .redAnd v a t s_ => Sys2Proof.Machine.execRedAnd v a t s_ s
  | .redOr v a t s_ => Sys2Proof.Machine.execRedOr v a t s_ s
  | .redXor v a t s_ => Sys2Proof.Machine.execRedXor v a t s_ s
  | .fork k => Sys2Proof.Machine.execFork k s
  | .addf f a => Sys2Proof.Machine.execAddf f a s
  | .addfImm f i_ => Sys2Proof.Machine.execAddfImm f i_ s
  | .give f a b => Sys2Proof.Machine.execGive f a b s
  | .giveAcc f c n => Sys2Proof.Machine.execGiveAcc f c n s
  | .waitf f a => Sys2Proof.Machine.execWaitf f a s
  | .waitfImm f i_ => Sys2Proof.Machine.execWaitfImm f i_ s
  | .flagcfg f k c r => Sys2Proof.Machine.execFlagcfg f k c r s
  | .fstat d f => Sys2Proof.Machine.execFstat d f s
  | .ssync d a s_ => Sys2Proof.Machine.execSsync d a s_ s
  | .tokpass a b s_ => Sys2Proof.Machine.execTokpass a b s_ s
  | .mfence d s_ e => Sys2Proof.Machine.execMfence d s_ e s
  | .chron d => Sys2Proof.Machine.execChron d s
  | .ipf a b l => Sys2Proof.Machine.execIpf a b l s
  | .ipin d a b => Sys2Proof.Machine.execIpin d a b s
  | .iunpin a b => Sys2Proof.Machine.execIunpin a b s
  | .csrr d c => Sys2Proof.Machine.execCsrr d c s
  | .csrw a c => Sys2Proof.Machine.execCsrw a c s
  | .trap a c => Sys2Proof.Machine.execTrap a c s
  | .launch f a => Sys2Proof.Machine.execLaunch f a s
  | .wincfg w a => Sys2Proof.Machine.execWincfg w a s
  | .winoff w => Sys2Proof.Machine.execWinoff w s
  | .winq d a => Sys2Proof.Machine.execWinq d a s
  | .tlbinv a b s_ => Sys2Proof.Machine.execTlbinv a b s_ s
  | .tlbinvr c a b s_ => Sys2Proof.Machine.execTlbinvr c a b s_ s
  | .pgsplit c a b z => Sys2Proof.Machine.execPgsplit c a b z s
  | .pgdup c a b => Sys2Proof.Machine.execPgdup c a b s
  | .pgcoll c a b w => Sys2Proof.Machine.execPgcoll c a b w s
  | .pgmove c a b f => Sys2Proof.Machine.execPgmove c a b f s
  | .pgprot c a b => Sys2Proof.Machine.execPgprot c a b s
  | .walkstat d a b => Sys2Proof.Machine.execWalkstat d a b s
  | .keyret a => Sys2Proof.Machine.execKeyret a s
  | .publish a s_ => Sys2Proof.Machine.execPublish a s_ s
  | .pubwait d => Sys2Proof.Machine.execPubwait d s
  | .reftag a o => Sys2Proof.Machine.execReftag a o s
  | .stref s_ a o => Sys2Proof.Machine.execStref s_ a o s
  | .refclr a o => Sys2Proof.Machine.execRefclr a o s
  | .objinit a b c => Sys2Proof.Machine.execObjinit a b c s
  | .retract a => Sys2Proof.Machine.execRetract a s
  | .txvote a b => Sys2Proof.Machine.execTxvote a b s
  | .txwait d => Sys2Proof.Machine.execTxwait d s
  | .txstat d => Sys2Proof.Machine.execTxstat d s
  | .txkey d => Sys2Proof.Machine.execTxkey d s
  | .txseqStep d => Sys2Proof.Machine.execTxseqStep d s
  | .txseqCbase d => Sys2Proof.Machine.execTxseqCbase d s
  | .txseqQbase d => Sys2Proof.Machine.execTxseqQbase d s
  | .txseqCount d => Sys2Proof.Machine.execTxseqCount d s
  | .nmSgdf d a b c => Sys2Proof.Machine.execNmSgdf d a b c s
  | .nmfence d s_ => Sys2Proof.Machine.execNmfence d s_ s
  | .nmfenceArray d s_ => Sys2Proof.Machine.execNmfenceArray d s_ s
  | .pfxRnd k f s_ m t => Sys2Proof.Machine.execPfxRnd k f s_ m t s
  | .pfxMsk z k t => Sys2Proof.Machine.execPfxMsk z k t s
  | .vadd d a b y t => Sys2Proof.Machine.execVadd d a b y t s
  | .vsub d a b y t => Sys2Proof.Machine.execVsub d a b y t s
  | .vmul d a b y t => Sys2Proof.Machine.execVmul d a b y t s
  | .vdiv d a b y t => Sys2Proof.Machine.execVdiv d a b y t s
  | .vmin d a b y t => Sys2Proof.Machine.execVmin d a b y t s
  | .vmax d a b y t => Sys2Proof.Machine.execVmax d a b y t s
  | .vcps d a b y t => Sys2Proof.Machine.execVcps d a b y t s
  | .vsqrt d a y t => Sys2Proof.Machine.execVsqrt d a y t s
  | .vrcp d a y t => Sys2Proof.Machine.execVrcp d a y t s
  | .vexp2 d a y t => Sys2Proof.Machine.execVexp2 d a y t s
  | .vlog2 d a y t => Sys2Proof.Machine.execVlog2 d a y t s
  | .vabs d a y t => Sys2Proof.Machine.execVabs d a y t s
  | .vneg d a y t => Sys2Proof.Machine.execVneg d a y t s
  | .vcmp m a b y c t => Sys2Proof.Machine.execVcmp m a b y c t s
  | .vsel d a b k t => Sys2Proof.Machine.execVsel d a b k t s
  | .viadd d a b y t => Sys2Proof.Machine.execViadd d a b y t s
  | .visub d a b y t => Sys2Proof.Machine.execVisub d a b y t s
  | .vimul d a b y t => Sys2Proof.Machine.execVimul d a b y t s
  | .vshl d a b y t => Sys2Proof.Machine.execVshl d a b y t s
  | .vshr d a b y t => Sys2Proof.Machine.execVshr d a b y t s
  | .vsar d a b y t => Sys2Proof.Machine.execVsar d a b y t s
  | .vand d a b y t => Sys2Proof.Machine.execVand d a b y t s
  | .vor d a b y t => Sys2Proof.Machine.execVor d a b y t s
  | .vxor d a b y t => Sys2Proof.Machine.execVxor d a b y t s
  | .vpopc d a y t => Sys2Proof.Machine.execVpopc d a y t s
  | .vclz d a y t => Sys2Proof.Machine.execVclz d a y t s
  | .vcmpInt m a b y c t => Sys2Proof.Machine.execVcmpInt m a b y c t s
  | .vfma d a b c y t => Sys2Proof.Machine.execVfma d a b c y t s
  | .vfms d a b c y t => Sys2Proof.Machine.execVfms d a b c y t s
  | .vnfma d a b c y t => Sys2Proof.Machine.execVnfma d a b c y t s
  | .vimad d a b c y t => Sys2Proof.Machine.execVimad d a b c y t s
  | .vbfx d a y o k t => Sys2Proof.Machine.execVbfx d a y o k t s
  | .vbfi d a y o k t => Sys2Proof.Machine.execVbfi d a y o k t s
  | .vfsh d a b y o k t => Sys2Proof.Machine.execVfsh d a b y o k t s
  | .vcvt d a dt st t => Sys2Proof.Machine.execVcvt d a dt st t s
  | .vredsum d a y g r t => Sys2Proof.Machine.execVredsum d a y g r t s
  | .vredmax d a y g r t => Sys2Proof.Machine.execVredmax d a y g r t s
  | .vredmin d a y g r t => Sys2Proof.Machine.execVredmin d a y g r t s
  | .vmov d a t => Sys2Proof.Machine.execVmov d a t s
  | .vbcast d s_ t => Sys2Proof.Machine.execVbcast d s_ t s
  | .vtrans d a t => Sys2Proof.Machine.execVtrans d a t s
  | .vrotRow d a s_ t => Sys2Proof.Machine.execVrotRow d a s_ t s
  | .vrotCol d a s_ t => Sys2Proof.Machine.execVrotCol d a s_ t s
  | .vperm d a b t => Sys2Proof.Machine.execVperm d a b t s
  | .vbcastImm d i_ h t => Sys2Proof.Machine.execVbcastImm d i_ h t s
  | .vshapeset r c w t => Sys2Proof.Machine.execVshapeset r c w t s
  | .bnet d a b p t => Sys2Proof.Machine.execBnet d a b p t s
  | .bnload a p t => Sys2Proof.Machine.execBnload a p t s
  | .vld d a s_ w u o t => Sys2Proof.Machine.execVld d a s_ w u o t s
  | .vst d a s_ w u o t => Sys2Proof.Machine.execVst d a s_ w u o t s
  | .vlda d c r k t => Sys2Proof.Machine.execVlda d c r k t s
  | .vsta d c r k t => Sys2Proof.Machine.execVsta d c r k t s
  | .vrand d y t => Sys2Proof.Machine.execVrand d y t s
  | .vrandF d y t => Sys2Proof.Machine.execVrandF d y t s
  | .vmaskp m s_ t => Sys2Proof.Machine.execVmaskp m s_ t s
  | .mand d a b t => Sys2Proof.Machine.execMand d a b t s
  | .mor d a b t => Sys2Proof.Machine.execMor d a b t s
  | .mxor d a b t => Sys2Proof.Machine.execMxor d a b t s
  | .mnot d a t => Sys2Proof.Machine.execMnot d a t s
  | .mpopc d a t => Sys2Proof.Machine.execMpopc d a t s
  | .mfirst d a t => Sys2Proof.Machine.execMfirst d a t s
  | .vqskip q c t => Sys2Proof.Machine.execVqskip q c t s
  | .vecAddf f a t => Sys2Proof.Machine.execVecAddf f a t s
  | .vecAddfImm f i_ t => Sys2Proof.Machine.execVecAddfImm f i_ t s
  | .vecWaitf f a t => Sys2Proof.Machine.execVecWaitf f a t s
  | .vecWaitfImm f i_ t => Sys2Proof.Machine.execVecWaitfImm f i_ t s
  | .vecGive f a b t => Sys2Proof.Machine.execVecGive f a b t s
  | .vecGiveAcc f c n t => Sys2Proof.Machine.execVecGiveAcc f c n t s
  | .vscalLi d i_ t => Sys2Proof.Machine.execVscalLi d i_ t s
  | .vscalLi64 d i_ t => Sys2Proof.Machine.execVscalLi64 d i_ t s
  | .vscalAdd d a b t => Sys2Proof.Machine.execVscalAdd d a b t s
  | .vscalAddImm d a i_ t => Sys2Proof.Machine.execVscalAddImm d a i_ t s
  | .vscalSub d a b t => Sys2Proof.Machine.execVscalSub d a b t s
  | .vscalSubImm d a i_ t => Sys2Proof.Machine.execVscalSubImm d a i_ t s
  | .vscalShl d a b t => Sys2Proof.Machine.execVscalShl d a b t s
  | .vscalShlImm d a i_ t => Sys2Proof.Machine.execVscalShlImm d a i_ t s
  | .vscalAnd d a b t => Sys2Proof.Machine.execVscalAnd d a b t s
  | .vscalAndImm d a i_ t => Sys2Proof.Machine.execVscalAndImm d a i_ t s
  | .vscalCmp p c u a b t => Sys2Proof.Machine.execVscalCmp p c u a b t s
  | .vscalCmpImm p c u a i_ t => Sys2Proof.Machine.execVscalCmpImm p c u a i_ t s
  | .vscalBr o t => Sys2Proof.Machine.execVscalBr o t s
  | .vscalBc p n o t => Sys2Proof.Machine.execVscalBc p n o t s
  | .vscalLoop a o t => Sys2Proof.Machine.execVscalLoop a o t s
  | .vscalRend t => Sys2Proof.Machine.execVscalRend t s
  | .vscalNop t => Sys2Proof.Machine.execVscalNop t s
  | .cpy sc u d a b ev k => Sys2Proof.Machine.execCpy sc u d a b ev k s
  | .cpys sc u d a b c s_ => Sys2Proof.Machine.execCpys sc u d a b c s_ s
  | .chain n a => Sys2Proof.Machine.execChain n a s
  | .chstop n => Sys2Proof.Machine.execChstop n s
  | .gather sc u d a b c w ev => Sys2Proof.Machine.execGather sc u d a b c w ev s
  | .scatter sc u d a b c w ev => Sys2Proof.Machine.execScatter sc u d a b c w ev s
  | .bind sc u n a b w ev => Sys2Proof.Machine.execBind sc u n a b w ev s
  | .collAllReduce sc u a ev => Sys2Proof.Machine.execCollAllReduce sc u a ev s
  | .nmirror sc u d a b c ev => Sys2Proof.Machine.execNmirror sc u d a b c ev s
  | .addf64 e f o => Sys2Proof.Machine.execAddf64 e f o s
  | .waitf64 e f o => Sys2Proof.Machine.execWaitf64 e f o s
  | .give64 e f r => Sys2Proof.Machine.execGive64 e f r s
  | .scalLi e d i_ => Sys2Proof.Machine.execScalLi e d i_ s
  | .scalAdd e d a o => Sys2Proof.Machine.execScalAdd e d a o s
  | .scalSub e d a o => Sys2Proof.Machine.execScalSub e d a o s
  | .scalShl e d a o => Sys2Proof.Machine.execScalShl e d a o s
  | .scalAnd e d a o => Sys2Proof.Machine.execScalAnd e d a o s
  | .scalCmp e p c u a o => Sys2Proof.Machine.execScalCmp e p c u a o s
  | .scalBr e o => Sys2Proof.Machine.execScalBr e o s
  | .scalBc e p n o => Sys2Proof.Machine.execScalBc e p n o s
  | .scalLoop e a o => Sys2Proof.Machine.execScalLoop e a o s
  | .scalRend e => Sys2Proof.Machine.execScalRend e s
  | .scalNop e => Sys2Proof.Machine.execScalNop e s
  | .mma acc da db init sat flush rel stamp => Sys2Proof.Machine.execMma acc da db init sat flush rel stamp s
  | .mmas acc da db sa sb init mode sat flush ksel rel stamp => Sys2Proof.Machine.execMmas acc da db sa sb init mode sat flush ksel rel stamp s
  | .mmai acc da db init sat rel stamp => Sys2Proof.Machine.execMmai acc da db init sat rel stamp s
  | .mmaj scl acc da db sa sb init mode sat flush ksel rel stamp => Sys2Proof.Machine.execMmaj scl acc da db sa sb init mode sat flush ksel rel stamp s
  | .mtile d a b => Sys2Proof.Machine.execMtile d a b s
  | .mtileAddr d a => Sys2Proof.Machine.execMtileAddr d a s
  | .mtileAdd d a => Sys2Proof.Machine.execMtileAdd d a s
  | .mtileLd d a o => Sys2Proof.Machine.execMtileLd d a o s
  | .azero n c => Sys2Proof.Machine.execAzero n c s
  | .afade n a sat flush => Sys2Proof.Machine.execAfade n a sat flush s
  | .ald n ds flush ia => Sys2Proof.Machine.execAld n ds flush ia s
  | .ast n ds mode sat flush ksel ia => Sys2Proof.Machine.execAst n ds mode sat flush ksel ia s
  | .aspill n a => Sys2Proof.Machine.execAspill n a s
  | .afill n a => Sys2Proof.Machine.execAfill n a s
  | .qinit a b c n ndb npb ty z => Sys2Proof.Machine.execQinit a b c n ndb npb ty z s
  | .qmap a => Sys2Proof.Machine.execQmap a s
  | .qmapSt a => Sys2Proof.Machine.execQmapSt a s
  | .qldg g a k ty => Sys2Proof.Machine.execQldg g a k ty s
  | .qgate g a b => Sys2Proof.Machine.execQgate g a b s
  | .qdiag g a b => Sys2Proof.Machine.execQdiag g a b s
  | .qswap a b => Sys2Proof.Machine.execQswap a b s
  | .qperm a => Sys2Proof.Machine.execQperm a s
  | .qprob d a b c => Sys2Proof.Machine.execQprob d a b c s
  | .qnorm d c => Sys2Proof.Machine.execQnorm d c s
  | .qsample d a c => Sys2Proof.Machine.execQsample d a c s
  | .qscale a => Sys2Proof.Machine.execQscale a s
  | .join => Sys2Proof.Machine.execJoin s
  | .rend => Sys2Proof.Machine.execRend s
  | .eret => Sys2Proof.Machine.execEret s
  | .txopen => Sys2Proof.Machine.execTxopen s
  | .txclose => Sys2Proof.Machine.execTxclose s
  | .qsync => Sys2Proof.Machine.execQsync s
  | .rkeyWrite a => Sys2Proof.Machine.execRkeyWrite a s
  | .nfdWrite k a => Sys2Proof.Machine.execNfdWrite k a s
  | .pageWalk die asid va => Sys2Proof.Machine.execPageWalk die asid va s
  | .reachWalkComplete => Sys2Proof.Machine.execReachWalkComplete s
  | .nmMom d a b c => Sys2Proof.Machine.execNmMom d a b c s
  | .nmAdamw d a b c => Sys2Proof.Machine.execNmAdamw d a b c s
  | .nmAxpy d a b c => Sys2Proof.Machine.execNmAxpy d a b c s
  | .nmScale d a b c => Sys2Proof.Machine.execNmScale d a b c s
  | .nmFill d a b c => Sys2Proof.Machine.execNmFill d a b c s
  | .nmCopy d a b c => Sys2Proof.Machine.execNmCopy d a b c s
  | .nmCast d a b c => Sys2Proof.Machine.execNmCast d a b c s
  | .nmClamp d a b c => Sys2Proof.Machine.execNmClamp d a b c s
  | .nmRecode d a b c => Sys2Proof.Machine.execNmRecode d a b c s
  | .nmScrub d a b c => Sys2Proof.Machine.execNmScrub d a b c s
  | .nmFold d a b c => Sys2Proof.Machine.execNmFold d a b c s
  | .nmCkpt d a b c => Sys2Proof.Machine.execNmCkpt d a b c s
  | .nmComplete => Sys2Proof.Machine.execNmComplete s
  | .collAllGather sc u a ev => Sys2Proof.Machine.execCollAllGather sc u a ev s
  | .collReduceScatter sc u a ev => Sys2Proof.Machine.execCollReduceScatter sc u a ev s
  | .chainRecordRun c => Sys2Proof.Machine.execChainRecordRun c s
  | .copyRelease k => Sys2Proof.Machine.execCopyRelease k s
  | .copyDelivery k => Sys2Proof.Machine.execCopyDelivery k s
  | .streamEntryArrival k => Sys2Proof.Machine.execStreamEntryArrival k s
  | .stampedIssue e k => Sys2Proof.Machine.execStampedIssue e k s
  | .collectiveRun k remote dead => Sys2Proof.Machine.execCollectiveRun k remote dead s
  | .matrixCommandRun sib => Sys2Proof.Machine.execMatrixCommandRun sib s
  | .astroCollectiveRun die remote dead => Sys2Proof.Machine.execAstroCollectiveRun die remote dead s
  | .hostSubmit recva sasid => Sys2Proof.Machine.execHostSubmit recva sasid s
  | .jobAdmission => Sys2Proof.Machine.execJobAdmission s
  | .barrierRelease sc job remote => Sys2Proof.Machine.execBarrierRelease sc job remote s
  | .exchangeEnd => Sys2Proof.Machine.execExchangeEnd s
  | .preemptRequest job => Sys2Proof.Machine.execPreemptRequest job s
  | .preemptTimeout job => Sys2Proof.Machine.execPreemptTimeout job s
  | .spilledJobResume job => Sys2Proof.Machine.execSpilledJobResume job s
  | .timeLimit job => Sys2Proof.Machine.execTimeLimit job s
  | .deadlock => Sys2Proof.Machine.execDeadlock s
  | .faultFrameWrite => Sys2Proof.Machine.execFaultFrameWrite s
  | .resume core => Sys2Proof.Machine.execResume core s
  | .aresume die => Sys2Proof.Machine.execAresume die s
  | .areaLimitWrite off v => Sys2Proof.Machine.execAreaLimitWrite off v s
  | .firmwareStart core => Sys2Proof.Machine.execFirmwareStart core s
  | .redApply => Sys2Proof.Machine.execRedApply s
  | .chronAlign port stamp => Sys2Proof.Machine.execChronAlign port stamp s
  | .carafeRead pa src kind key => Sys2Proof.Machine.execCarafeRead pa src kind key s
  | .carafeWrite pa src key mask data tags => Sys2Proof.Machine.execCarafeWrite pa src key mask data tags s
  | .writeReachesArray stack => Sys2Proof.Machine.execWriteReachesArray stack s
  | .scrubPeriodEnd => Sys2Proof.Machine.execScrubPeriodEnd s
  | .patrolRead stack => Sys2Proof.Machine.execPatrolRead stack s
  | .keySlotWrite off v => Sys2Proof.Machine.execKeySlotWrite off v s
  | .regionDeclare v w => Sys2Proof.Machine.execRegionDeclare v w s
  | .regionRetire v => Sys2Proof.Machine.execRegionRetire v s
  | .versionPassEnd v stack => Sys2Proof.Machine.execVersionPassEnd v stack s
  | .forcedPass v stack => Sys2Proof.Machine.execForcedPass v stack s
  | .packageVote job => Sys2Proof.Machine.execPackageVote job s
  | .votePacket p => Sys2Proof.Machine.execVotePacket p s
  | .rootTimeout job => Sys2Proof.Machine.execRootTimeout job s
  | .decisionPacket p => Sys2Proof.Machine.execDecisionPacket p s
  | .decisionApply job => Sys2Proof.Machine.execDecisionApply job s
  | .hostRead pa => Sys2Proof.Machine.execHostRead pa s
  | .hostWrite pa mask data => Sys2Proof.Machine.execHostWrite pa mask data s
  | .mailboxAttest op => Sys2Proof.Machine.execMailboxAttest op s
  | .mailboxResponse => Sys2Proof.Machine.execMailboxResponse s
  | .hostBarrierArrive slot => Sys2Proof.Machine.execHostBarrierArrive slot s
  | .imageChunk q off bytes => Sys2Proof.Machine.execImageChunk q off bytes s
  | .imageCommit q => Sys2Proof.Machine.execImageCommit q s
  | .attestationRequest q nonce => Sys2Proof.Machine.execAttestationRequest q nonce s
  | .telemetryRequest q => Sys2Proof.Machine.execTelemetryRequest q s
  | .podMembership q group members => Sys2Proof.Machine.execPodMembership q group members s
  | .statusRequest q => Sys2Proof.Machine.execStatusRequest q s
  | .flitReceive port body crcOk fec => Sys2Proof.Machine.execFlitReceive port body crcOk fec s
  | .portDead port => Sys2Proof.Machine.execPortDead port s
  | .coldReset failed => Sys2Proof.Machine.execColdReset failed s
  | .warmReset failed => Sys2Proof.Machine.execWarmReset failed s
  | .sramError place => Sys2Proof.Machine.execSramError place s
  | .thermalThrottle => Sys2Proof.Machine.execThermalThrottle s
  | .thermalShutdown => Sys2Proof.Machine.execThermalShutdown s
  | .registerWrite off v => Sys2Proof.Machine.execRegisterWrite off v s
  | .codeFetch k => Sys2Proof.Machine.execCodeFetch k s
  | .loadDataReturn => Sys2Proof.Machine.execLoadDataReturn s
  | .writeCompletesAtHome => Sys2Proof.Machine.execWriteCompletesAtHome s
  | .vectorCompletion => Sys2Proof.Machine.execVectorCompletion s
  | .commandCycle stack pair col => Sys2Proof.Machine.execCommandCycle stack pair col s
  | .endedByTheOs job st cause src va => Sys2Proof.Machine.execEndedByTheOs job st cause src va s
  | .fencingOffOfACore core => Sys2Proof.Machine.execFencingOffOfACore core s
  | .portTrained port peer => Sys2Proof.Machine.execPortTrained port peer s
  | .powerLoss flashWrite => Sys2Proof.Machine.execPowerLoss flashWrite s
  | .fallBelowLimits => Sys2Proof.Machine.execFallBelowLimits s

end Sys2Proof.Machine
end

