-- ==== Sys2Proof/Machine/Sched.lean ====
section
/-! DEFINITION. What a step does besides running a word: the events that come due, the turns of the streams and cores
(log 2, log 3). -/

namespace Sys2Proof.Machine

/-- The stream whose turn follows; after the Astrolabe stream the core's round ends. -/
def nextTurn : Strm → Option Strm
  | .ctl => some .vec
  | .vec => some .mtx
  | .mtx => some .cpy
  | .cpy => some .ast
  | .ast => none

/-- The cycle of four in which issue is gated (14 R455); stamped commands are not. -/
def State.gatedNow (s : State) : Bool := s.gated && s.chron.toNat % 4 = 3

/-- A sequencer may issue: its stream runs, neither the core nor, for its stream, the Astrolabe has stopped, and the
control stream does not stand at a barrier (01 R26, R41, 10 R350). -/
def State.runnable (s : State) (k : Strm) : Bool :=
  s.powered && !s.gatedNow && s.core.job.isSome && s.runOf k = .running && s.core.task.st = .resident &&
    (match k with
    | .ast => s.astro.stop.isNone && s.astro.wait.isNone
    | _ => s.core.stop.isNone) &&
    (k != .ctl || s.core.task.sync.isNone)

/-- The turn that follows a stream's turn; what its engine last waited for is tried again. -/
def State.beginTurn (s : State) (k : Strm) : State :=
  { s with turn := nextTurn k,
           core := { s.core with stalled := if k = .ast || s.gatedNow then s.core.stalled else s.core.stalled.set! (strmEng k).code false } }

/-- The core whose turn follows in ascending number: one with a job. -/
def State.nextCore (s : State) : Nat :=
  let ns := ((s.core :: s.others).filter (fun c => c.job.isSome)).map Core.num
  let up := ns.filter (fun n => s.core.num < n)
  match up.min? with
  | some n => n
  | none => (ns.min?).getD s.core.num

/-- The Chronograph after a cycle (01 R33): it starts with the last step of a reset (14 R450). -/
def State.nextCycle (s : State) : Word := if s.rstep = 7 then s.chron + 1 else s.chron

/-- The end of a core's turns in a cycle: what R46 counts is noted, and behind the last core the cycle ends (log 2). -/
def State.rotate (s : State) : State :=
  let t := s.noteStuck
  let n := t.nextCore
  { t.focus n with turn := some .ctl, chron := if n ≤ t.core.num then t.nextCycle else t.chron }

/-- An event that may find that it has still to wait: it runs when it changes something. -/
def State.changed (s : State) (o : Out) : Option Out :=
  match o with
  | .next t => if t = s then none else some o
  | _ => some o

/-- A stamped event of a core: its cycle, its rank in the cycle (a landing copy, a completing product, an issue), core,
engine, place among the stamped commands of the engine. -/
structure StampEv where
  at_  : Nat
  rank : Nat
  core : Nat
  eng  : Eng
  idx  : Nat
  deriving DecidableEq, Repr

/-- The stamped events of the core at hand that have come due (01 R28, 06 R231, 09 R320). -/
def State.stampEvs (s : State) : List StampEv :=
  let till := s.core.bar.till.getD 0
  let n := s.core.num
  let cp := (List.range s.core.cpy.stamped.length).filterMap fun i => match s.core.cpy.stamped[i]? with
    | none => none
    | some x =>
      if x.moved then
        (if x.done = 0 && s.copyDone x ≤ s.chron.toNat then some { at_ := s.copyDone x, rank := 0, core := n, eng := Eng.cpy, idx := i }
         else none)
      else if !x.void && s.stampReady (.copy s.core x) then
        some { at_ := min (Cmd.copy s.core x).at till, rank := 2, core := n, eng := Eng.cpy, idx := i }
      else none
  let mm := (List.range s.core.mtx.stamped.length).filterMap fun i => match s.core.mtx.stamped[i]? with
    | none => none
    | some m =>
      if m.void then none
      else if m.res.isSome then
        (if s.mmDone m ≤ s.chron.toNat then some { at_ := s.mmDone m, rank := 1, core := n, eng := Eng.mtx, idx := i } else none)
      else if s.stampReady (.prod s.core m) then
        some { at_ := min (Cmd.prod s.core m).at till, rank := 2, core := n, eng := Eng.mtx, idx := i }
      else none
  cp ++ mm

/-- The first of two stamped events: by cycle, then rank, then core. -/
def StampEv.first (a b : StampEv) : StampEv :=
  if a.at_ < b.at_ || (a.at_ = b.at_ && (a.rank < b.rank || (a.rank = b.rank && a.core ≤ b.core))) then a else b

/-- The stamped event of the package that is to run next. -/
def State.nextStamp (s : State) : Option StampEv :=
  let cs := (s.core :: s.others).filter fun c => c.cpy.stamped ≠ [] || c.mtx.stamped ≠ []
  match cs.flatMap fun c => (s.focus c.num).stampEvs with
  | [] => none
  | e :: es => some (es.foldl StampEv.first e)

/-- A stamped event runs. -/
def State.runStamp (s : State) (e : StampEv) : State :=
  s.onCore e.core fun t => match e.eng with
    | .cpy => match t.core.cpy.stamped[e.idx]? with
      | some x => if x.moved then t.landCopy x else t.issueCopy x
      | none => t
    | _ => match t.core.mtx.stamped[e.idx]? with
      | some m => if m.res.isSome then (t.mmLand m).applyAdds else t.issueMm m
      | none => t

/-- The first number below `n` of which a condition holds. -/
def firstIdx (n : Nat) (f : Nat → Bool) : Option Nat := (List.range n).find? f

/-- The next event of the copy engine of the core at hand: a delivery, a release, an entry, a record of a chain (06 R213 to
R232). -/
def State.copyNext (s : State) : Option Out :=
  let q := s.core.cpy.queue
  let at_ (f : Xfer → Bool) : Option Nat := firstIdx (min 16 q.length) fun k => match q[k]? with | some x => f x | none => false
  match at_ fun x => x.moved && !x.isColl with
  | some k => some (execCopyDelivery (BitVec.ofNat 4 k) s)
  | none => match at_ s.core.releaseReady with
    | some k => some (execCopyRelease (BitVec.ofNat 4 k) s)
    | none =>
      (match at_ s.entryReady with
      | some k => s.changed (execStreamEntryArrival (BitVec.ofNat 4 k) s)
      | none => none) <|>
      (List.range 8).findSome? fun n => if s.chanReady n then s.changed (execChainRecordRun (BitVec.ofNat 3 n) s) else none

/-- The completions of the core at hand. -/
def State.coreNext (s : State) : Option Out :=
  if s.core.loads ≠ [] then some (execLoadDataReturn s)
  else if s.core.vec.out ≠ [] then some (execVectorCompletion s)
  else if s.core.writes ≠ [] then some (execWriteCompletesAtHome s)
  else if s.mtxReady.isSome then some (execMatrixCommandRun false s)
  else if s.core.nms ≠ [] then some (execNmComplete s)
  else s.copyNext <|> if s.core.walks ≠ [] then s.changed (execReachWalkComplete s) else none

/-- Walk requests and reductions on their way, and what gathers in this package alone. -/
def State.sharedNext (s : State) : Option Out :=
  ((List.range 4).findSome? fun d => match (s.dieAt d).reqs with
    | [] => none
    | r :: _ => some (execPageWalk (BitVec.ofNat 2 d) r.asid (BitVec.ofNat 48 r.va) s)) <|>
  (if s.reds ≠ [] then s.changed (execRedApply s) else none) <|>
  ((List.range s.gathering.length).findSome? fun k => s.changed (execCollectiveRun (BitVec.ofNat 8 k) [] false s)) <|>
  ((List.range 4).findSome? fun d => if (s.dieAt d).astro.wait.isSome then
      s.changed (execAstroCollectiveRun (BitVec.ofNat 2 d) [] false s) else none)

/-- Barriers, the end of the core's exchange phase, the commit tree, version passes. -/
def State.syncNext (s : State) : Option Out :=
  (match s.barrierDue with
  | some (id, sc) => some (execBarrierRelease (BitVec.ofNat 3 sc) (BitVec.ofNat 16 id) noArrivals s)
  | none => none) <|>
  (if s.exchangeDue s.core then some (execExchangeEnd s) else none) <|>
  (s.jobs.findSome? fun j =>
    let id := BitVec.ofNat 16 j.id
    if s.voteDue j then some (execPackageVote id s)
    else if s.rootDue j then some (execRootTimeout id s)
    else if s.applyReady j then some (execDecisionApply id s)
    else none) <|>
  (((List.range 16).filter fun v => ((s.regions[v]?).map Region.rdy).getD false).findSome? fun v =>
    (List.range 12).findSome? fun k =>
      if s.passDue v k then some (execVersionPassEnd (BitVec.ofNat 4 v) (BitVec.ofNat 4 k) s)
      else if s.mustForce v k then some (execForcedPass (BitVec.ofNat 4 v) (BitVec.ofNat 4 k) s)
      else none)

/-- The hub, `DEADLOCK`, the scrub period, the write queues, the mailbox. -/
def State.hubNext (s : State) : Option Out :=
  (s.jobs.findSome? fun j =>
    let id := BitVec.ofNat 16 j.id
    if s.timeoutDue j then some (execPreemptTimeout id s)
    else if s.limitDue j then some (execTimeLimit id s)
    else none) <|>
  ((s.hubTurn false).map fun t => .next t) <|>
  (if s.orphans ≠ [] then some (execNmComplete s) else none) <|>
  (if s.deadlockDue s.core then some (execDeadlock s) else none) <|>
  (if s.periodDue then some (execScrubPeriodEnd s) else none) <|>
  ((List.range 12).findSome? fun k =>
    if s.patrolDue k then some (execPatrolRead (BitVec.ofNat 4 k) s)
    else if ((s.carafe.stks[k]?).map fun x => !x.wqueue.isEmpty).getD false then some (execWriteReachesArray (BitVec.ofNat 4 k) s)
    else none) <|>
  (if s.host.mbgo then some (execMailboxResponse s) else none)

/-- A stamped command of the core has issued and not completed. -/
def Core.stampOut (c : Core) : Bool :=
  c.cpy.stamped.any (fun x => x.moved && x.done = 0) || c.mtx.stamped.any fun m => m.res.isSome

/-- A stopped core that has drained has its frame to write, in a cycle after its fault (01 R41, R44, 10 R350). -/
def State.frameNext (s : State) : Option Out :=
  if (match s.core.stop with | some r => !r.framed && r.fchron ≠ s.chron | none => false) && !s.core.stampOut && s.core.walks = [] then
    some (execFaultFrameWrite s)
  else if s.aframeDue && (match s.astro.stop with | some r => r.fchron ≠ s.chron | none => false) then some (.next s.writeAframe)
  else none

/-- The next event that has come due, run: stamped events in the order of their cycles, then those of the core at hand and of
the package (log 3). -/
def nextInternal (s : State) : Option Out :=
  if !s.powered then none
  else
    (s.nextStamp.map fun e => .next (s.runStamp e)) <|> s.coreNext <|> s.sharedNext <|> s.syncNext <|> s.hubNext <|> s.frameNext

end Sys2Proof.Machine
end

