-- ==== Sys2Proof/Machine/Step.lean ====
section
/-! DEFINITION. One step of the package: an event from outside, an event that has come due, or the turn of a stream. -/

namespace Sys2Proof.Machine

/-- A stream's turn: its sequencer fetches and decodes a word, and issues it (01 R14); one that waits at issue is not fetched again
(07 R264). The windows of a task that starts are configured before the first word of its control stream (08 R286). -/
def turnStep (k : Strm) (s : State) : Host.Outcome State Fault Refusal :=
  if s.runnable k then
    if k = .ctl && s.core.wstart < 16 then .next s.configStep
    else match nextWord k s with
    | .word i t => match exec i t with
      | .next u => .next (t.keepWord k i u)
      | o => o
    | .stop t => .next t
  else .next s

/-- One step. -/
def step (s : State) : Host.Outcome State Fault Refusal :=
  match s.inbox with
  | i :: rest => exec i { s with inbox := rest }
  | [] =>
    match nextInternal s with
    | some o => o
    | none =>
      match s.turn with
      | some k => turnStep k (s.beginTurn k)
      | none => .next s.rotate

/-- `s` with the instruction of `nbits` bits `w` where the next step fetches (log 12). -/
def State.withFetchWord (s : State) (nbits w : Nat) : State := s.loadWord nbits w

end Sys2Proof.Machine
end

