-- ==== Sys2Proof/Safety.lean ====
section
/-! DEFINITION. What a sound state of the package is, in the terms that the statements use: memory and scratchpads in
canonical form (00 R4, 02 R57). -/

namespace Sys2Proof.Machine

/-- The scratchpad of a core lists no zero byte and no address twice. -/
def Core.padWf (c : Core) : Bool := c.pad.wf

/-- Memory and every scratchpad are in canonical form. -/
def State.memWf (s : State) : Bool := s.mem.wf && s.core.padWf && s.others.all Core.padWf

/-- None of the control registers named has a result on its way (04 R165): the word need not wait for them. -/
def State.freeX (s : State) (rs : List (BitVec 6)) : Prop := ∀ r ∈ rs, s.core.awaits r = false

/-- The state after a control word that writes one register and moves on. -/
def State.wrote (s : State) (d : BitVec 6) (v : Word) : State := s.mapCtl fun c => (c.setX d v).skip 4

/-- The state after a control word that writes one predicate and moves on. -/
def State.wroteP (s : State) (p : BitVec 3) (v : Bool) : State := s.mapCtl fun c => (c.setP p v).skip 4

/-- The state after a fault of a stream with `FADDR` and `FINFO` (01 R41 to R43). -/
def State.faults (s : State) (k : Strm) (c : Cause) (faddr finfo : Nat) : State :=
  s.takeFault k { cause := c, finfo := BitVec.ofNat 32 finfo, finfox := 0, faddr := BitVec.ofNat 64 faddr }

/-- A jump of the control stream: to the target inside its code section, else `RANGE` (04 R145). -/
def State.jumps (s : State) (t : Word) (f : Ctl → Ctl) : State :=
  if lrCodeBase s.lrec 0 ≤ t.toNat ∧ t.toNat < lrCodeBase s.lrec 0 + lrCodeLen s.lrec 0 then
    s.mapCtl fun c => f { c with pc := t }
  else s.faults .ctl .range 0 0

/-- [ga, ga + n) is ordinary memory of this package for an agent with a key: inside the DRAM space, in no version region and in no
metadata of one, its sectors without error or poison and stored under the agent's key, and no floating accumulator on its lines
(02 R84, 11 R359, R362, 13 R408, R410). -/
def State.plainAt (s : State) (ga n : Nat) (key : BitVec 8) : Bool :=
  !gaHost ga && decide (gaPkg ga = s.pkg.toNat) && decide (gaPa ga + n ≤ 2 ^ 40) &&
  (sectorsOf (gaPa ga) n).all (fun sa => (s.regionAt sa).isNone && decide ((stackOf sa).2 < vmetaBase) && (s.sectorAt sa).err.isEmpty && !(s.sectorAt sa).poison &&
    decide ((s.sectorAt sa).ckey = s.keyMat key)) &&
  !(s.accs.any fun a => decide (a.pa < (ga + n + 127) / 128 * 128) && decide (ga / 128 * 128 < a.pa + redSize a.ty))

/-- The next log slot of the stack of a sector (11 R368). -/
def State.logSlot (s : State) (sa : Nat) : Nat :=
  let k := (stackOf sa).1
  let sz := s.carafe.elogsz.toNat
  s.carafe.elogbase.toNat * 4096 + k * 32 * 2 ^ sz + ((s.carafe.stks[k]?).getD Stack.reset).elogHead.toNat % 2 ^ sz * 32

/-- The stack of a sector keeps no log ring, or its next slot is plain memory and no record of this cycle stands before it. -/
def State.logsPlainly (s : State) (sa : Nat) : Prop :=
  s.carafe.elogsz = 0 ∨ (s.logSlot sa + 32 ≤ dramSize ∧ s.plainAt (gaOf s.pkg (s.logSlot sa)) 32 0 = true ∧
    ∀ r ∈ ((s.carafe.stks[(stackOf sa).1]?).getD Stack.reset).elogNow, logChron r ≠ s.chron.toNat)

/-- A detection of an uncorrectable sector (11 R360, R368): it is poisoned, with fresh check symbols; its stack counts it, and its log
ring, if it has one, takes the record; no other byte of memory has changed. -/
def State.detected (s t : State) (sa : Nat) (src : BitVec 16) (kind : BitVec 4) : Prop :=
  let (k, la) := stackOf sa
  let x := (s.carafe.stks[k]?).getD Stack.reset
  let y := (t.carafe.stks[k]?).getD Stack.reset
  let log := gaOf s.pkg (s.logSlot sa)
  let ga := gaOf s.pkg sa
  let word (i : Nat) : Nat := leNat (t.mem.read (log + 8 * i) 8)
  (t.sectorAt sa).poison = true ∧ (t.sectorAt sa).err = [] ∧ t.core = s.core ∧
  (s.logsPlainly sa → y.uecount = x.uecount + 1 ∧ y.elogHead = x.elogHead + 1 ∧
    (s.carafe.elogsz ≠ 0 → word 0 = s.chron.toNat ∧ word 1 = src.toNat + kind.toNat * 2 ^ 16 ∧ word 2 = sa ∧
      word 3 = pchOf la + bankOf la * 2 ^ 6 + rowOf la * 2 ^ 10) ∧
    ∀ a, (a < ga ∨ ga + 64 ≤ a) → (s.carafe.elogsz = 0 ∨ a < log ∨ log + 32 ≤ a) → t.mem.get a = s.mem.get a)

/-- The next step is a turn of a stream that may issue: nothing has come due, and its word is fetched (01 R14, log 2, log 3). -/
def State.aboutToIssue (s : State) (k : Strm) : Bool :=
  s.inbox.isEmpty && (nextInternal s).isNone && s.turn == some k && (s.beginTurn k).runnable k &&
    (k != .ctl || (decide (16 ≤ s.core.wstart) && s.core.repin.isEmpty))

/-- The 32 bits of code at a VA that the code cache holds, outside every window and the heap. -/
def State.codeWord (s : State) (va : Nat) : Option (BitVec 32) :=
  if s.fetchBarred va then none
  else (s.core.codeLine s.asid s.key va).map fun x => x.data.extractLsb' (8 * (va % 128)) 32

/-- An access of a stream passes its checks and is served at a place, with nothing left behind (02 R58, R59). -/
def State.served (s : State) (st : Strm) (k : AK) (lim : Nat) (ea : Word) (n : Nat) (p : Place) : Prop :=
  place st k lim ea n s = .ok (p, s)

/-- The conflict tables have room for an access record (02 R74, 01 R49). -/
def State.roomFor (s : State) : Prop :=
  s.recs = [] ∨ Config.recordsFull s.recs.length ((s.os.ctlim.toNat - s.os.ctbase.toNat) * 4096) = false

/-- The bytes of a load as a register value: by `TY`, sign-extended or zero-extended (04 R147, R148). -/
def loaded (t : BitVec 3) (d : List Byte) : Word :=
  if 4 ≤ t.toNat then BitVec.ofInt 64 (Int.bmod (leNat d) (2 ^ (8 * 2 ^ (t.toNat % 4)))) else BitVec.ofNat 64 (leNat d)

/-- A number compared with another by a code of R141, `eq`, `ne`, `lt`, `ge`, `le`, `gt`: signed for `U` = 0, unsigned for
`U` = 1. -/
def cmpHolds (c : BitVec 3) (u : BitVec 1) (x y : Word) : Bool :=
  let lt : Bool := if u = 1 then decide (x.toNat < y.toNat) else decide (x.toInt < y.toInt)
  if c = 0 then decide (x = y)
  else if c = 1 then decide (x ≠ y)
  else if c = 2 then lt
  else if c = 3 then !lt
  else if c = 4 then lt || decide (x = y)
  else !(lt || decide (x = y))

/-- The state after a word of a stream moves past: 4 bytes of control and vector code, whose bundle is then done, 8 of every
other stream (04 R130, 05 R174, 06 R238). -/
def State.pastWord (s : State) (k : Strm) : State :=
  match k with
  | .ctl => s.advance
  | .vec => s.vecDone 4
  | k => s.mapStrm k fun r => r.skip 8

/-- No result on its way writes these registers of the vector engine (05 R210): vector, mask, scalar. -/
def State.vecFree (s : State) (vs : List (BitVec 5)) (ms : List (BitVec 3)) (xs : List (BitVec 5)) : Prop :=
  ∀ o ∈ s.core.vec.out, ∀ w ∈ o.2, match w with
    | .v d _ => d ∉ vs
    | .m d _ => d ∉ ms
    | .x d _ => ∀ r ∈ xs, r.setWidth 6 ≠ d

/-- The words that add `n` to a flag for an engine, with their operands at hand (02 R66, 04 R153, 05 R207, 06 R242). -/
def State.addsTo (s : State) (e : Eng) (f : BitVec 6) (n : Word) (i : Instr) : Prop :=
  (∃ a, i = .addf f a ∧ e = .ctl ∧ s.freeX [a] ∧ n = s.ctl.getX a) ∨
  (∃ v, i = .addfImm f v ∧ e = .ctl ∧ n = BitVec.ofNat 64 v.toNat) ∨
  (∃ a t, i = .vecAddf f a t ∧ e = .vec ∧ s.core.vec.pfx = none ∧ s.vecFree [] [] [a] ∧ n = s.core.vec.s.getX a) ∨
  (∃ v t, i = .vecAddfImm f v t ∧ e = .vec ∧ s.core.vec.pfx = none ∧ n = BitVec.ofNat 64 v.toNat) ∨
  (∃ q a, i = .addf64 q f (.reg a) ∧ e = eng64 q ∧ n = (s.strm32 e.strm).getX a) ∨
  ∃ q v, i = .addf64 q f (.imm v) ∧ e = eng64 q ∧ n = BitVec.ofNat 64 v.toNat

/-- The words that wait for `n` on a flag for an engine, with their operands at hand. -/
def State.waitsFor (s : State) (e : Eng) (f : BitVec 6) (n : Word) (i : Instr) : Prop :=
  (∃ a, i = .waitf f a ∧ e = .ctl ∧ s.freeX [a] ∧ n = s.ctl.getX a) ∨
  (∃ v, i = .waitfImm f v ∧ e = .ctl ∧ n = BitVec.ofNat 64 v.toNat) ∨
  (∃ a t, i = .vecWaitf f a t ∧ e = .vec ∧ s.core.vec.pfx = none ∧ s.vecFree [] [] [a] ∧ n = s.core.vec.s.getX a) ∨
  (∃ v t, i = .vecWaitfImm f v t ∧ e = .vec ∧ s.core.vec.pfx = none ∧ n = BitVec.ofNat 64 v.toNat) ∨
  (∃ q a, i = .waitf64 q f (.reg a) ∧ e = eng64 q ∧ n = (s.strm32 e.strm).getX a) ∨
  ∃ q v, i = .waitf64 q f (.imm v) ∧ e = eng64 q ∧ n = BitVec.ofNat 64 v.toNat

/-- The words by which an engine gives the scratchpad range [ea, ea + len) through a flag. -/
def State.givesPad (s : State) (e : Eng) (f : BitVec 6) (ea len : Word) (i : Instr) : Prop :=
  (∃ a b, i = .give f a b ∧ e = .ctl ∧ s.freeX [a, b] ∧ ea = s.ctl.getX a ∧ len = s.ctl.getX b) ∨
  (∃ a b t, i = .vecGive f a b t ∧ e = .vec ∧ s.core.vec.pfx = none ∧ s.vecFree [] [] [a, b] ∧
    ea = s.core.vec.s.getX a ∧ len = s.core.vec.s.getX b) ∨
  ∃ q a b, i = .give64 q f (.pad a b) ∧ e = eng64 q ∧ ea = (s.strm32 e.strm).getX a ∧ len = (s.strm32 e.strm).getX b

/-- The words by which an engine gives `count` accumulators from `first` on through a flag. -/
def State.givesAccs (s : State) (e : Eng) (f : BitVec 6) (first count : Nat) (i : Instr) : Prop :=
  ∃ c n : BitVec 4, first = c.toNat ∧ count = n.toNat + 1 ∧
    ((i = .giveAcc f c n ∧ e = .ctl) ∨ (∃ t, i = .vecGiveAcc f c n t ∧ e = .vec ∧ s.core.vec.pfx = none) ∨
      ∃ q, i = .give64 q f (.acc c n) ∧ e = eng64 q)

/-- The state of a task whose `SSYNC` has finished its wait (01 R26 step 1): every range in transit or given is with control, every
holding flag 0, and the word waits for the release. -/
def State.syncs (s : State) (y : Sync) : State :=
  s.joinEnd.mapCore fun c => { c with
    hold := c.transit.foldl (fun h t => takeRange h t .ctl) c.hold, transit := []
    task := { c.task with sync := some y, flags := c.task.flags.map fun f => if f.hold then { f with value := 0 } else f } }

/-- The control of a CSR lets a write of a value through (03 R109, R126, 05 R171, 13 R434, 10 R349). -/
def State.csrTakes (s : State) (r : Csr) (v : Word) : Bool :=
  match r with
  | .nfd _ | .rkey => !s.anyForked
  | .vshape => shapeFits (v.toNat % 2 ^ 7) (v.toNat / 2 ^ 8 % 2 ^ 12) (v.toNat / 2 ^ 20 % 2 ^ 2)
  | .txstep => decide (s.core.task.tx.st = 0) && !s.anyForkedA
  | .qmapbase => decide (v.toNat % 64 = 0)
  | _ => true

/-- The row of a sub-code in the table of 01 R18, over the fields of 01 R16 and R17, with bits counted from their byte offsets. -/
def State.failsRow (s : State) (r : BitVec 4608) (k : Nat) : Prop :=
  let f (off hi lo : Nat) : Nat := bits r (8 * off + hi) (8 * off + lo)
  let kind (j : Nat) : Prop := j < 5 ∧ f 0 (23 + j) (23 + j) = 1
  let span : Nat := f 0 21 19
  let base : Nat := f 0x18 63 0
  let lim : Nat := f 0x20 63 0
  match k with
  | 1 => f 0 15 0 ≠ 1
  | 2 => f 0x48 63 16 ≠ 0 ∨ f 0x50 127 0 ≠ 0 ∨ f 0x60 255 224 ≠ 0 ∨ f 0xD0 383 0 ≠ 0 ∨ f 0x110 255 0 ≠ 0 ∨
      ∃ j, j < 5 ∧ (f (0x130 + 64 * j) 127 0 ≠ 0 ∨ (¬kind j ∧ f (0x100 + 64 * j) 511 0 ≠ 0))
  | 3 => span = 0 ∨ span = 7 ∨ (span ≤ 4 ∧ f 0 47 32 ≠ 0) ∨ (4 < span ∧ s.pkg ∉ s.groupPkgs (f 0 47 32))
  | 4 => ¬kind 0
  | 5 => f 8 31 0 = 0 ∨ f 0 63 48 = 0 ∨ 256 < f 0 63 48 ∨ 7 < f 0 31 28
  | 6 => ∃ j, 32 * f 0 31 28 ≤ j ∧ j < 224 ∧ f 0x60 j j = 1
  | 7 => base % 4096 ≠ 0 ∨ lim % 4096 ≠ 0 ∨ f 0x28 63 0 % 4096 ≠ 0 ∨ f 0x40 63 0 % 4096 ≠ 0 ∨ f 0x30 63 0 % 64 ≠ 0 ∨
      f 0x38 63 0 % 64 ≠ 0 ∨ ∃ j, kind j ∧ (f (0x100 + 64 * j) 63 0 % 4096 ≠ 0 ∨ f (0x108 + 64 * j) 63 32 % (if j < 2 then 4 else 8) ≠ 0)
  | 8 => lim < base ∨ (base < lim ∧ 768 * 2 ^ 30 < lim + f 0x28 63 0)
  | 9 => f 0x38 63 0 = 0 ∨ f 0x40 63 0 = 0
  | 10 => ∃ j, kind j ∧ f (0x108 + 64 * j) 31 0 ≤ f (0x108 + 64 * j) 63 32
  | _ => False

/-- A window descriptor that `WINCFG` accepts, of a generator without angles (08 R277, R278, R285). -/
def wAccepted (nfd : Vector (BitVec 5) 8) (d : BitVec 1024) : Prop :=
  wReserved d = false ∧ nfdUnset nfd (wFmt d) = false ∧ 0 < wSize d ∧ wBase d + wSize d ≤ 2 ^ 48 ∧ wSize d ≤ 2 ^ 40 ∧
  0 < wRowLen d ∧ wRowLen d ≤ 2 ^ 40 ∧ wBadParam d = false ∧ wGen d ≠ 3 ∧
  (wGen d = 2 ∨ (wGen d = 4 ∧ wP d 1 = 1) → vtFloat (wFmt d) = true) ∧ (wGen d = 2 → wP d 0 % 2 ^ 31 ≤ fmt32.maxc) ∧
  (wKs d = true → wGen d = 4 ∨ wGen d = 5)

/-- The control that the prefixes of the bundle under way give (05 R177, R182). -/
def State.vctl (s : State) : VCtl := vctlOf s.core.vec.pfx

/-- The mask register that the bundle names, if any. -/
def State.maskRegs (s : State) : List (BitVec 3) := match s.vctl.msk with
  | some (_, k) => [k]
  | none => []

/-- Element `e` is active under the bundle's mask (05 R183). -/
def State.active (s : State) (e : Nat) : Bool := match s.vctl.msk with
  | some (_, k) => (s.core.vec.m.toList.getD k.toNat 0).getLsbD e
  | none => true

/-- The prefixes of the bundle under way are ones that the word takes, and it is no target behind them (05 R176, R182). -/
def State.begins (s : State) (r : PfxRule) (t : BitVec 1) : Prop := ∀ p, s.core.vec.pfx = some p → t = 0 ∧ r.takes p = true

/-- Width and number of the elements of the shape in force. -/
def State.elemBits (s : State) : Nat := shW s.core.task.vshape
/-- Number of elements of the shape in force. -/
def State.elems (s : State) : Nat := shN s.core.task.vshape

/-- The shape in force fits, with elements of the width of a type (05 R168, R181). -/
def State.shapeIs (s : State) (w : Option Nat) : Prop :=
  let v := s.core.task.vshape
  shapeFits (shRows v) (shCols v) (v.toNat / 2 ^ 20 % 4) = true ∧ ∀ k, w = some k → k = s.elemBits

/-- The sources of a word that reads `n` bytes of each: registers, and the entries at the heads of stream registers, which are
popped (05 R172, R180, R183); `none` while an entry is missing or of another length. -/
def State.popped (n : Nat) : List (BitVec 6) → State → Option (List VReg × State)
  | [], s => some ([], s)
  | f :: fs, s =>
    if f.toNat < 32 then (State.popped n fs s).map fun r => (s.core.vec.v.toList.getD f.toNat 0 :: r.1, r.2)
    else match s.core.vec.q.toList.getD (f.toNat % 8) [] with
    | e :: rest =>
      if e.len = n then
        (State.popped n fs (s.mapVec fun v => { v with q := v.q.set! (f.toNat % 8) rest })).map fun r => (e.data :: r.1, r.2)
      else none
    | [] => none

/-- The registers among source fields. -/
def vecRegs (fs : List (BitVec 6)) : List (BitVec 5) := (fs.filter fun f => decide (f.toNat < 32)).map fun f => f.setWidth 5

/-- A vector word may issue: its prefixes and shape fit, its registers are free, and its sources are `xs`, which leaves `u`. -/
def State.reads (s : State) (r : PfxRule) (t : BitVec 1) (w : Option Nat) (ds : List (BitVec 5)) (srcs : List (BitVec 6))
    (xs : List VReg) (u : State) : Prop :=
  s.begins r t ∧ s.shapeIs w ∧ s.vecFree (ds ++ vecRegs srcs) s.maskRegs [] ∧
    s.popped (s.elems * s.elemBits / 8) srcs = some (xs, u)

/-- The global address of byte `k` of pieces. -/
def segByte : List Seg → Nat → Option Nat
  | [], _ => none
  | g :: gs, k => if k < g.len then some (g.pa + k) else segByte gs (k - g.len)

/-- Where byte `k` of a place lies: in the scratchpad (`false`) or in memory (`true`); a window has no such place. -/
def Place.cell (p : Place) (k : Nat) : Option (Bool × Nat) :=
  match p with
  | .pad off => some (false, off + k)
  | .mem segs _ => (segByte segs k).map fun a => (true, a)
  | .win _ _ _ => none

/-- The byte of the scratchpad or of memory at such a place. -/
def State.cellByte (s : State) (c : Bool × Nat) : Byte := if c.1 then s.mem.get c.2 else s.core.pad.get c.2

/-- Byte `k` of a place: a window computes it (08 R283). -/
def State.placeByte (s : State) (p : Place) (k : Nat) : Byte :=
  match p with
  | .win w va key => (s.winBytes w (va + k) 1 key).headD 0
  | p => ((p.cell k).map s.cellByte).getD 0

/-- Where byte `k` of a span lies. -/
def Span.cell (p : Span) (k : Nat) : Option (Bool × Nat) :=
  match p with
  | .pad off _ => some (false, off + k)
  | .mem segs _ => (segByte segs k).map fun a => (true, a)
  | .win _ _ _ _ => none

/-- A span in the scratchpad, or in ordinary memory that its home refuses nowhere. -/
def State.plainSpan (s : State) (p : Span) : Prop :=
  match p with
  | .pad _ _ => True
  | .mem segs refused => refused = [] ∧ ∀ g ∈ segs, s.plainAt g.pa g.len s.key = true
  | .win _ _ _ _ => False

/-- Bytes written to spans in ascending order, byte `k` of span `p` being `b p k`, and nowhere else: where two of them meet, the
last stays. -/
def State.spansWritten (s t : State) (l : List Span) (b : Nat → Nat → Byte) : Prop :=
  ∀ c, t.cellByte c =
    ((((List.range l.length).flatMap fun p => (List.range ((l.map Span.len).getD p 0)).map fun k => (p, k)).filter fun x =>
      ((l[x.1]?).bind fun q => q.cell x.2) == some c).getLast?.map fun x => b x.1 x.2).getD (s.cellByte c)

/-- What a place has in memory is ordinary memory, and its home refuses none of it. -/
def State.plainPlace (s : State) (p : Place) : Prop :=
  match p with
  | .mem segs refused => refused = [] ∧ ∀ g ∈ segs, s.plainAt g.pa g.len s.key = true
  | _ => True

/-- The accesses of the rows of a vector word are recorded without a wait (02 R74, 01 R49). -/
def State.roomForRows (s : State) (rows : Nat) : Prop :=
  (∀ n, Config.recordsFull n ((s.os.ctlim.toNat - s.os.ctbase.toNat) * 4096) = false) ∨ (s.recs = [] ∧ rows = 1 ∧ s.maskRegs = [])

/-- The prefixes that a vector instruction takes, by its row of 05 R182, with its bit `T`; none for a prefix and for other streams. -/
def vecTakes : Instr → Option (PfxRule × BitVec 1)
  | .vadd _ _ _ _ t | .vsub _ _ _ _ t | .vmul _ _ _ _ t | .vdiv _ _ _ _ t | .vfma _ _ _ _ _ t | .vfms _ _ _ _ _ t
  | .vnfma _ _ _ _ _ t | .vsqrt _ _ _ t | .vrcp _ _ _ t | .vexp2 _ _ _ t | .vlog2 _ _ _ t | .vcvt _ _ _ _ t => some (.all, t)
  | .vmin _ _ _ _ t | .vmax _ _ _ _ t | .vabs _ _ _ t | .vneg _ _ _ t | .vcps _ _ _ _ t | .vcmp _ _ _ _ _ t => some (.flush, t)
  | .vredsum _ _ _ g _ t => some (if g = 1 then .mask else .all, t)
  | .vredmax _ _ _ g _ t | .vredmin _ _ _ g _ t => some (if g = 1 then .mask else .flush, t)
  | .viadd _ _ _ _ t | .visub _ _ _ _ t | .vimul _ _ _ _ t | .vimad _ _ _ _ _ t => some (.sat, t)
  | .vrand _ _ t | .vrandF _ _ t | .vmaskp _ _ t => some (.ksel, t)
  | .vshl _ _ _ _ t | .vshr _ _ _ _ t | .vsar _ _ _ _ t | .vand _ _ _ _ t | .vor _ _ _ _ t | .vxor _ _ _ _ t | .vpopc _ _ _ t
  | .vclz _ _ _ t | .vbfx _ _ _ _ _ t | .vbfi _ _ _ _ _ t | .vfsh _ _ _ _ _ _ t | .vcmpInt _ _ _ _ _ t | .vmov _ _ t
  | .vbcast _ _ t | .vbcastImm _ _ _ t | .vld _ _ _ _ _ _ t | .vlda _ _ _ _ t => some (.mask, t)
  | .vst _ _ _ _ _ _ t | .vsta _ _ _ _ t => some (.merge, t)
  | .vsel _ _ _ _ t | .vtrans _ _ t | .vrotRow _ _ _ t | .vrotCol _ _ _ t | .vperm _ _ _ t | .vshapeset _ _ _ t | .bnet _ _ _ _ t
  | .bnload _ _ t | .mand _ _ _ t | .mor _ _ _ t | .mxor _ _ _ t | .mnot _ _ t | .mpopc _ _ t | .mfirst _ _ t | .vqskip _ _ t
  | .vecAddf _ _ t | .vecAddfImm _ _ t | .vecWaitf _ _ t | .vecWaitfImm _ _ t | .vecGive _ _ _ t | .vecGiveAcc _ _ _ t
  | .vscalLi _ _ t | .vscalLi64 _ _ t | .vscalAdd _ _ _ t | .vscalAddImm _ _ _ t | .vscalSub _ _ _ t | .vscalSubImm _ _ _ t
  | .vscalShl _ _ _ t | .vscalShlImm _ _ _ t | .vscalAnd _ _ _ t | .vscalAndImm _ _ _ t | .vscalCmp _ _ _ _ _ t
  | .vscalCmpImm _ _ _ _ _ t | .vscalBr _ t | .vscalBc _ _ _ t | .vscalLoop _ _ t | .vscalRend t | .vscalNop t => some (.none, t)
  | _ => none

/-- A result enters the pipeline of the vector engine behind the others, and the stream goes past its word of `n` bytes
(05 R210, R211). -/
def State.gives (s : State) (w : RegWrite) (n : Nat) : State :=
  ((s.mapTask fun t => { t with seq := t.seq + 1 }).mapVec fun v => { v with out := v.out ++ [(s.core.task.seq, [w])] }).vecDone n

/-- A register with its elements replaced where the mask is active; the others become 0 under `ZERO` and stay otherwise (05 R183). -/
def State.masked (s : State) (d : BitVec 5) (w n : Nat) (f : Nat → Nat) : VReg :=
  let old := s.core.vec.v.toList.getD d.toNat 0
  vput old w n fun e => if s.active e then f e else if s.vctl.zero then 0 else vget old w e

/-- A mask register with the bits of the elements replaced where the mask is active, and those above them clear (05 R183). -/
def State.maskedBits (s : State) (d : BitVec 3) (n : Nat) (f : Nat → Bool) : MReg :=
  let old := s.core.vec.m.toList.getD d.toNat 0
  BitVec.ofNat 2048 (packNat 1 ((List.range n).map fun e =>
    if (if s.active e then f e else if s.vctl.zero then false else old.getLsbD e) then 1 else 0))

/-- One value of the draw counter of the vector stream: the draws of a domain, and the state with the counter advanced; `none` for
the step key outside a step (03 R125, R126). -/
def State.draws (s : State) (domain : Nat) : Option ((Nat → Mix) × State) :=
  let go (key : Word) := some (fun e => drawMix key 1 s.core.task.idx s.core.vec.s.draw domain e,
    s.mapVec fun v => { v with s := { v.s with draw := v.s.draw + 1 } })
  if s.vctl.ksel then (if s.core.task.tx.st = 0 then none else go s.stepKeyOf) else go s.core.task.rkey

/-- The random bits of a word that rounds: drawn under a stochastic mode only (05 R183). -/
def State.roundBits (s : State) : Option ((Nat → Nat) × State) :=
  if s.vctl.mode = 5 ∨ s.vctl.mode = 6 then (s.draws 3).map fun r => (fun e => (r.1 e).1.toNat % 16, r.2)
  else some (fun _ => 0, s)

/-- The page of two registers: they name an address space in use and a VA below 2^48 that a walk finds in a valid leaf, whose `MOV`
is 0 (07 R267). -/
def State.onPage (s : State) (a c : BitVec 6) (p : Page) : Prop :=
  ∃ asid : BitVec 16, ∃ e, s.ctl.getX c = asid.setWidth 64 ∧ s.spaceRoot asid = some p.root ∧ (s.ctl.getX a).toNat < 2 ^ 48 ∧
    s.walk p.root (s.ctl.getX a).toNat = .leaf e p.size p.pa ∧ e.getLsbD 6 = false ∧
    p = { p with asid := asid, leaf := e, va := (s.ctl.getX a).toNat / sizeBytes p.size * sizeBytes p.size,
                 frame := ptePa (tlbEntry asid (s.ctl.getX a).toNat e p.size p.pa).leaf }

/-- The entries of the tables that make up a page, numbered from the lowest: one, or the 16 of a group (07 R251). -/
def Page.entries (p : Page) : List (Nat × Nat) :=
  if p.size % 2 = 1 then (List.range 16).map fun j => (j, p.pa / 128 * 128 + 8 * j) else [(0, p.pa)]

/-- The stretch of memory that these entries fill, by its first PA and its length. -/
def Page.tableAt (p : Page) : Nat × Nat := if p.size % 2 = 1 then (p.pa / 128 * 128, 128) else (p.pa, 8)

/-- A walk meets no sector in error and no version region (11 R359, 13 R414). -/
def State.cleanTables (s : State) : Prop := (∀ x ∈ s.sectors, x.err = []) ∧ ∀ r ∈ s.regions.toList, r.rdy = false

/-- An `ASID` register names an address space in use, with its level-3 table (07 R267). -/
def State.inUse (s : State) (r : BitVec 6) (asid : BitVec 16) (root : Nat) : Prop :=
  s.ctl.getX r = asid.setWidth 64 ∧ s.spaceRoot asid = some root

/-- The pieces of memory that hold the class-map entries of the lines of an object of a job; none where the map does not translate
(12 R387). -/
def State.mapSegs (s : State) (j : Job) (o : Obj) : List Seg :=
  match s.jobSegs j.lrec j.root.toNat j.asid .store (j.clsmap.toNat + (o.va - lrHeapBase j.lrec) / 128 * 8) (o.size / 128 * 8) with
  | .ok segs => segs
  | .error _ => []

/-- The device writes the header of an object of a job and its class map, which are plain memory; what the map holds is its own
(12 R386, R387, log 32), and no other byte of memory has changed. -/
def State.headed (s t : State) (j : Job) (o : Obj) (src : Nat) : Prop :=
  let ga := gaOf s.pkg (o.va + lrHeapOff j.lrec)
  let u := (s.physWrite ga o.header { src := src, key := j.key, asid := some j.asid, step := false } false [] []).1
  s.plainAt ga 16 j.key = true → (∀ g ∈ u.mapSegs j o, s.plainAt g.pa g.len j.key = true) →
  ∀ a, (∀ g ∈ u.mapSegs j o, a < g.pa ∨ g.pa + g.len ≤ a) →
    t.mem.get a = if ga ≤ a ∧ a < ga + 16 then o.header.getD (a - ga) 0 else s.mem.get a

/-- No die TLB of these dies holds an entry of an address space that touches [va, va + n). -/
def State.noEntries (s : State) (asid : BitVec 16) (va n : Nat) (ds : List Nat) : Prop :=
  ∀ d ∈ ds, ∀ x ∈ (s.dieAt d).tlb, x.asid = asid → va + n ≤ x.va ∨ x.va + sizeBytes x.size ≤ va

/-- No core but the one at hand has an operation on an address space at the translation engines (07 R267). -/
def State.xltAlone (s : State) (asid : BitVec 16) : Prop := ∀ c ∈ s.others, ∀ w, c.xlt = some w → w.asid ≠ asid

/-- A core of a die that the die's directory names for a line of the page tables (07 R256). -/
def State.dirNames (s : State) (c : Core) (asid : BitVec 16) (line : Nat) : Prop :=
  ∃ e ∈ (s.dieAt c.die).dir, e.asid = asid ∧ e.pa = line ∧ e.cores.getLsbD (c.num % 64) = true

/-- The TLB of a core holds no entry of an address space that touches [va, va + n). -/
def State.coreDropped (s : State) (core : Nat) (asid : BitVec 16) (va n : Nat) : Prop :=
  ∀ x ∈ (s.coreAt core).tlb, x.asid = asid → va + n ≤ x.va ∨ x.va + sizeBytes x.size ≤ va

/-- A read and a write of a piece by the control stream are recorded without a wait: the tables have room, or hold them already. -/
def State.roomForBoth (s : State) (g : Seg) : Prop :=
  (∀ n, Config.recordsFull n ((s.os.ctlim.toNat - s.os.ctbase.toNat) * 4096) = false) ∨
  (record .ctl .rd [g] s = .ok ((), s) ∧ record .ctl .wr [g] s = .ok ((), s))

/-- The operands of a near-memory command pass the checks of R372, R373 and R382. -/
def State.nmPasses (s : State) (ctl dst src prm : Word) : Prop := nmCheck ctl dst src prm s = .ok ((), s)

/-- A range of a near-memory command is placed: its pieces, and the stretches of it that their homes refuse (11 R382). -/
def State.nmPlaced (s : State) (k : AK) (ctl ea : Word) (n : Nat) (segs : List Seg) (r : List (Nat × Nat)) : Prop :=
  nmRange k ctl ea n s = .ok ((segs, r), s)

/-- What an element command computes from the codes of w, of the source element, of m and of v: the new w, m and v, each expression
exact inside its rounding (11 R373 to R375). -/
def nmComputes (c prm : Word) (opt : BitVec 256) (w g m v w' m' v' : Nat) : Prop :=
  let T := if nmSize c = 4 then fmt32 else fmtBf
  let down := nmMode c == 3
  let rnd (x : Exact) : Nat := roundFull T (nmMode c) (c.getLsbD 13) false x 0
  let rn32 (x : Exact) : Nat := roundFull fmt32 0 false false x 0
  let f32 (n : Nat) : Exact := fmt32.decode (n % 2 ^ 32)
  let field (k : Nat) : Exact := f32 (opt.toNat / 2 ^ (32 * k))
  let lo := f32 prm.toNat
  let hi := f32 (prm.toNat / 2 ^ 32)
  let b1 := field 2
  let b2 := field 3
  let a := field 4
  let fade := field 5
  let eps := field 6
  let W := T.decode w
  let G := T.decode g
  let M := f32 m'
  match nmCode c with
  | 0x01 => w' = rnd (exactSum down [W.mul hi, (lo.mul G).neg])
  | 0x02 => m' = rn32 (exactSum false [b1.mul (fmt32.decode m), G]) ∧ w' = rnd (exactSum down [W.mul fade, (a.mul M).neg])
  | 0x03 => m' = rn32 (exactSum false [b1.mul (fmt32.decode m), G, (b1.mul G).neg]) ∧
      v' = rn32 (exactSum false [b2.mul (fmt32.decode v), G.mul G, (b2.mul (G.mul G)).neg]) ∧
      ∃ d e q, d = rn32 (fmt32.decode v').sqrt ∧ e = rn32 (exactSum false [fmt32.decode d, eps]) ∧
        q = rn32 ((fmt32.decode m').div (fmt32.decode e)) ∧ w' = rnd (exactSum down [W.mul fade, (a.mul (fmt32.decode q)).neg])
  | 0x04 => w' = rnd (exactSum down [W, lo.mul G])
  | 0x05 => w' = rnd (lo.mul W)
  | 0x06 => w' = rnd lo
  | 0x08 => w' = rnd (fmt32.decode g)
  | 0x09 => w' = if W.isNan then T.nanc else if W.lt lo then rnd lo else if hi.lt W then rnd hi else w
  | _ => False

/-- The ranges of a command of one piece: `DST`, the source if it has one, m and v if it has them, each of the length and alignment of
11 R373 and R375, and refused nowhere; two of them are one or lie apart in memory. -/
def NmCmd.spans (m : NmCmd) (g h a : Seg) : Prop :=
  m.who = none ∧ m.dst = [g] ∧ m.dref = [] ∧ m.aref = [] ∧ g.len = nmDstLen m.ctl ∧ 0 < g.len ∧ g.pa % nmUnit m.ctl = 0 ∧
  m.src = (if nmHasSrc m.ctl then [h] else []) ∧ m.aux = (if nmHasRec m.ctl then [a] else []) ∧
  (nmHasSrc m.ctl = true → h.len = nmSrcLen m.ctl ∧ h.pa % nmSrcUnit m.ctl = 0 ∧
    ((h.pa = g.pa ∧ h.len = g.len) ∨ rangesMeet h.pa h.len g.pa g.len = false)) ∧
  (nmHasRec m.ctl = true → a.len = nmAuxLen m.ctl ∧ a.pa % 4 = 0 ∧ rangesMeet a.pa a.len g.pa g.len = false ∧
    rangesMeet a.pa a.len h.pa h.len = false)

/-- [ga, ga + n) is whole sectors of this package's ordinary memory, none poisoned and none with more than one symbol in error, with
no floating accumulator on its lines (11 R359, R376). -/
def State.readableAt (s : State) (ga n : Nat) : Prop :=
  gaHost ga = false ∧ gaPkg ga = s.pkg.toNat ∧ ga % 64 = 0 ∧ n % 64 = 0 ∧ gaPa ga + n ≤ 2 ^ 40 ∧ s.accs = [] ∧
  ∀ sa ∈ sectorsOf (gaPa ga) n, s.regionAt sa = none ∧ (s.sectorAt sa).poison = false ∧ (s.sectorAt sa).err.length ≤ 1 ∧
    (s.sectorAt sa).ckey = s.keyMat s.key

/-- A source of a queued command passes its checks and is recorded (06 R214): its span, and the state with the record. -/
def State.sources (s : State) (st : Strm) (k : AK) (lim : Nat) (ea : Word) (n : Nat) (p : Span) (t : State) : Prop :=
  sourceSpan st k lim ea n s = .ok (p, t)

/-- The same of a destination. -/
def State.dests (s : State) (st : Strm) (k : AK) (lim : Nat) (ea : Word) (n : Nat) (p : Span) (t : State) : Prop :=
  destSpan st k lim ea n s = .ok (p, t)

/-- The rows of a gather, of `m` bytes each at the numbers of a list, as sources (06 R233). -/
def State.rowSources (s : State) (sc : BitVec 3) (tab : Word) (m : Nat) (js : List Nat) (rows : List Span) (t : State) : Prop :=
  (js.mapM fun j => sourceSpan .cpy .cpyRd sc.toNat (tab + BitVec.ofNat 64 (j * m)) m) s = .ok (rows, t)

/-- The rows of a scatter as destinations. -/
def State.rowDests (s : State) (sc : BitVec 3) (tab : Word) (m : Nat) (js : List Nat) (rows : List Span) (t : State) : Prop :=
  (js.mapM fun j => destSpan .cpy .cpyWr sc.toNat (tab + BitVec.ofNat 64 (j * m)) m) s = .ok (rows, t)

/-- `k` sectors of a record of `KIND` 0 move, one behind the other, from the channel's progress on (06 R226). -/
def State.sectorsRun (n : Nat) (r : BitVec 512) : Nat → State → State → Prop
  | 0, s, t => t = s
  | k + 1, s, t => 64 * (s.chan n).prog < recLen r ∧ ∃ v, runSector n r (s.chan n).prog s = .ok ((), v) ∧ State.sectorsRun n r k v t

/-- An event of a copy word names a holding flag (06 R223). -/
def State.eventOnHold (s : State) (ev : BitVec 14) : Prop :=
  ∃ f, (evRel ev = some f ∨ evDel ev = some f) ∧ (s.core.task.flagAt f).hold = true

/-- A transfer enters the copy queue at its place in program order, and the copy stream goes past its word. -/
def State.queues (s : State) (x : Xfer) : State :=
  ((s.mapTask fun t => { t with seq := t.seq + 1 }).mapCpy fun c => { c with
    queue := c.queue ++ [{ x with seq := s.core.task.seq }] }).pastWord .cpy

/-- A product's word with its accumulator, operands, scale tiles, whether it is `MMAI` or `MMAJ`, and its control (09 R307). -/
def productIs (i : Instr) (acc da db : BitVec 4) (scl : Option (BitVec 4 × BitVec 4)) (int joint : Bool) (init : Init)
    (mode : BitVec 3) (ksel rel : BitVec 1) (st : Option (BitVec 20)) : Prop :=
  (∃ sat flush, i = .mma acc da db init sat flush rel st ∧ scl = none ∧ int = false ∧ joint = false ∧ mode = 0 ∧ ksel = 0) ∨
  (∃ sa sb sat flush, i = .mmas acc da db sa sb init mode sat flush ksel rel st ∧ scl = some (sa, sb) ∧ int = false ∧ joint = false) ∨
  (∃ sat, i = .mmai acc da db init sat rel st ∧ scl = none ∧ int = true ∧ joint = false ∧ mode = 0 ∧ ksel = 0) ∨
  ∃ sc sa sb sat flush, i = .mmaj sc acc da db sa sb init mode sat flush ksel rel st ∧
    scl = (if sc = 1 then some (sa, sb) else none) ∧ int = false ∧ joint = true

/-- The tile of an untagged descriptor of a block in the scratchpad: its format is set, it is aligned, and it lies in the scratchpad
(09 R295). -/
def State.padOperand (s : State) (d : BitVec 128) (t : Tile) : Prop :=
  let nfd := s.core.task.nfd.toList.getD (tdFmt d - 8) 0
  let size := (fmtTy (tdFmt d) nfd).width / 8
  tdTag d = false ∧ tdKind d = 0 ∧ (8 ≤ tdFmt d → bits nfd 2 0 ≠ 0) ∧ tdAddr d % size = 0 ∧ tdStr d % size = 0 ∧
  tdAddr d + t.block d ≤ s.padBytes ∧
  t = { src := (List.range (tdRows d)).map fun p => .pad (tdAddr d + p * tdStr d) (tdCols d * size), fmt := tdFmt d, nfd := nfd,
        tr := tdTr d, rows := tdRows d, cols := tdCols d, size := size }

/-- The matrix engine holds the segments of tiles in the scratchpad and an accumulator (09 R293). -/
def State.mtxHolds (s : State) (ts : List Tile) (acc : Nat) : Prop :=
  (∀ t ∈ ts, ∀ p ∈ padRanges t.src, s.core.holdsPad .mtx p.1 p.2 = true) ∧ s.core.holds .mtx (224 + acc) = true

/-- The matrix stream draws one value when a command is stochastic (03 R125). -/
def State.mtxDrawn (s : State) (draws : Bool) : State :=
  if draws then s.mapStrm .mtx fun r => { r with draw := r.draw + 1 } else s

/-- The scale tiles of a product of the operands `a` and `b` open in order (09 R301): none without scales; a tagged operand takes
those of its lines. -/
def scalesOpen (dA dB : BitVec 128) (a b : Tile) (scl : Option (BitVec 4 × BitVec 4)) (s : State)
    (sc : Option (BitVec 4 × BitVec 4 × Tile × Tile)) (t : State) : Prop :=
  match scl with
  | none => sc = none ∧ t = s
  | some (x, y) => ∃ p q u, sc = some (x, y, p, q) ∧ openScale dA a x true s = .ok (p, u) ∧ openScale dB b y false u = .ok (q, t)

/-- A tile whose stored rows lie in the scratchpad, with its bytes (09 R295). -/
def State.padTile (s : State) (t : Tile) (d : List Byte) : Prop :=
  (∀ p ∈ t.src, ∃ off n, p = .pad off n) ∧ s.readTile t = (s, d, [])

/-- An operation on the amplitudes of a share at some offsets: read, changed, written; failing sectors stop the stream behind it
(10 R336, R351). -/
def State.onAmps (s : State) (q : QState) (refused : List (Nat × Nat)) (offs : List Nat) (f : List (Nat × Amp) → List (Nat × Amp)) : State :=
  let r := s.readAmps q offs
  (r.1.writeAmps q refused (f r.2.1)).astroLost r.2.2

/-- The participants of a state group that wait so far agree with a word (10 R337). -/
def State.agrees (s : State) (init : Bool) (group : Word) (ops : List Word) (key : List Nat) : Prop :=
  ∀ x ∈ s.mates init group s.openGen, x.2.2.bad = false ∧ x.2.2.key = key ∧ (init = true → x.2.2.ops.getD 1 0 ≠ ops.getD 1 0)

/-- The Astrolabe stream waits at a collective word (10 R338). -/
def State.gathers (s : State) (i : Instr) (ops : List Word) (key : List Nat) (refused : List (Nat × Nat)) (store : Option Span) : State :=
  s.mapAstro fun a => { a with wait := some {
    i := i, ops := ops, key := key, gen := s.openGen, refused := refused, store := store, cut := false, bad := false } }

end Sys2Proof.Machine
end

