-- ==== Sys2Proof/Certificates/Slice0/Obligations.lean ====
section
/-! DEFINITION. The statements for the provers. -/

open Sys2Proof Sys2Proof.Machine

/-- 01 R14: an event from outside runs at once, the oldest first (log 1).

04 R134, R135, 05 R173, 06 R238: when the code bytes at the program counter of the stream whose turn it is decode to an
instruction, a step is the meaning of that instruction, at the state whose turn has begun; a vector bundle takes the entry mark off
its stream (05 R175), and a word behind a prefix has `T` = 0 (05 R176). A word that waits at issue is issued again, without a fetch
(07 R264). -/
def Obligations.StepRuns : Prop :=
  (
  ∀ (s : State) (i : Instr) (rest : List Instr), s.inbox = i :: rest → step s = exec i { s with inbox := rest }
  ) ∧
  (
  ∀ (s : State) (k : Strm) (i : Instr) (lo hi : BitVec 32), s.aboutToIssue k = true →
    let u := s.beginTurn k
    let pc := (u.pcOf k).toNat
    let issues (v : State) : Prop := step s = match exec i v with
      | .next t => .next (v.keepWord k i t)
      | o => o
    (u.readyWord k = some i → issues u) ∧ (u.readyWord k = none → (k = .ctl → u.core.task.owed = false) →
    let two := k ≠ .ctl ∧ (k ≠ .vec ∨ (lo.getLsbD 0 = true ∧ lo.extractLsb' 2 6 ≠ 0x3F))
    lrCodeBase u.lrec (strmCode k) ≤ pc → pc < lrCodeBase u.lrec (strmCode k) + lrCodeLen u.lrec (strmCode k) →
    u.codeWord pc = some lo → (two → u.codeWord (pc + 4) = some hi) → (¬two → hi = 0) →
    (k = .vec → (u.core.vec.entry = true → lo.getLsbD 1 = true) ∧ (u.core.vec.pfx ≠ none → lo.getLsbD 1 = false)) →
    decodeWord k (hi ++ lo) = .ok i →
    issues (if k = .vec then u.mapVec fun v => { v with entry := false } else u))
  )

/-- 01 R33, R49, 03 R109, 04 R161, 05 R168, R170, 06 R244, 11 R358, R369, R370, 13 R407, R427, 14 R441, R447, R450: the package right after a
cold reset, at the values that the spec gives: step 7 is behind it, the Chronograph at zero, every byte of memory zero without an
error, a tag or poison, no version region, no pin, the shape 16 × 32 of 32 bits, every network pattern the identity, the addresses of
the OS area block and the counters zero. The model's own clauses: memory and scratchpads are in canonical form (log 5), and the core at
hand is core 0, in job mode (log 4). -/
def Obligations.ResetState : Prop :=
  let s := State.reset
  s.rstep = 7 ∧ s.chron = 0 ∧ s.memWf = true ∧ (∀ a, s.mem.get a = 0) ∧
  (∀ pa, (s.sectorAt pa).err = [] ∧ (s.sectorAt pa).rtag = 0 ∧ (s.sectorAt pa).poison = false) ∧
  s.core.num = 0 ∧ s.core.mode = .job ∧ s.core.tvec = 0 ∧ s.core.epc = 0 ∧ s.core.ecause = 0 ∧ s.core.task.pins = [] ∧
  (∀ k, s.core.task.nfd.toList.getD k 0 = 0) ∧ s.core.task.stampbase = 0 ∧ s.core.task.collseq = 0 ∧
  shRows s.core.task.vshape = 16 ∧ shCols s.core.task.vshape = 32 ∧ shW s.core.task.vshape = 32 ∧
  (∀ (k : Nat) (h : k < 8) (j : Nat), j < 64 → (s.core.task.bnpat[k].extractLsb' (7 * j) 7).toNat = j) ∧
  s.os.framebase = 0 ∧ s.os.aframebase = 0 ∧ s.os.ctbase = 0 ∧ s.os.ctlim = 0 ∧
  (∀ (d : Nat) (h : d < 4), s.os.rspbase[d] = 0 ∧ s.os.rsplim[d] = 0) ∧ s.os.ctfull = false ∧ s.os.rspfull = 0 ∧
  s.carafe.rcen = false ∧ s.carafe.period = 8 ∧ s.carafe.elogsz = 0 ∧ s.carafe.elogbase = 0 ∧
  (∀ k, (s.carafe.frd.toList.getD k Frd.reset).v = false) ∧
  (∀ (k : Nat) (h : k < 12), s.carafe.stks[k].elogHead = 0 ∧ s.carafe.stks[k].rowdrop = 0 ∧ s.carafe.stks[k].uecount = 0 ∧
    s.carafe.stks[k].rows = []) ∧
  (∀ (v : Nat) (h : v < 16), s.regions[v].vv = false) ∧ s.node.txtmo = 0 ∧ s.node.ndec = 0 ∧ s.node.nabt = 0 ∧
  s.host.hrefused = 0 ∧
  ∀ (n : Nat) (h : n < 16), s.ports[n].up = false ∧ s.ports[n].dead = false ∧ s.ports[n].replays = 0 ∧ s.ports[n].fecfix = 0

/-- Words that the spec writes out bit by bit in its examples (04 R134, 05 R173, 06 R238, 09 R304, 10 R343, 07 R267, 08 R289, 11 R381),
with the instructions they stand for; the words of zeros and of ones are illegal on every stream. -/
def Obligations.SampleWords : Prop :=
  decodeWord .ctl 0x02514480 = .ok (.add 10 10 9) ∧ decodeWord .ctl 0x16480005 = .ok (.li 9 5) ∧
  decodeWord .ctl 0x264FFFFF = .ok (.loop 9 0x7FFFF) ∧ decodeWord .ctl 0x12414010 = .ok (.cmpImm 1 0 10 0 16) ∧
  decodeWord .ctl 0x24400002 = .ok (.bc 1 0 2) ∧ decodeWord .ctl 0x64000001 = .ok (.trap 0 1) ∧
  decodeWord .ctl 0x44000000 = .ok .rend ∧ decodeWord .ctl 0x92B28A90 = .ok (.pgsplit 22 20 21 1) ∧
  decodeWord .ctl 0x84292000 = .ok (.winq 5 9) ∧ decodeWord .ctl 0xC061049C = .ok (.nmSgdf 12 8 9 14) ∧
  decodeWord .ctl 0xC2801000 = .ok (.nmfence 16 4) ∧
  decodeWord .vec 0x0200903E = .ok (.vshapeset 1 4 2 1) ∧ decodeWord .vec 0x0000000A010049 = .ok (.vld 1 8 0 2 0 0 0) ∧
  decodeWord .vec 0x08210206 = .ok (.vmul 1 1 2 0 1) ∧ decodeWord .vec 0x2021850C = .ok (.vcmp 1 1 3 0 5 0) ∧
  decodeWord .vec 0x04FC = .ok (.pfxRnd 0 0 0 2 0) ∧ decodeWord .vec 0x300000002020002D = .ok (.vcvt 4 1 6 0 0) ∧
  decodeWord .cpy 0x1B169502 = .ok (.cpys 3 0 10 9 11 12 0) ∧ decodeWord .cpy 0x1E = .ok (.scalRend .cpy) ∧
  decodeWord .mtx 0x10010101 = .ok (.mma 1 0 1 .zero 0 0 0 none) ∧
  decodeWord .mtx 0x2C020021001 = .ok (.mma 0 1 2 (.fade 11) 0 0 0 none) ∧
  decodeWord .mtx 0x400000089 = .ok (.ast 1 4 0 0 0 0 0) ∧ decodeWord .mtx 0x0010000300008085 = .ok (.mtileLd 1 8 16) ∧
  decodeWord .ast 0x000020450342C001 = .ok (.qinit 12 1 13 5 1 0 0 1) ∧ decodeWord .ast 0x100009003 = .ok (.qldg 0 9 1 0) ∧
  decodeWord .ast 0x0820F004 = .ok (.qgate 1 15 16) ∧ decodeWord .ast 0x04652A08 = .ok (.qprob 20 18 18 17) ∧
  ∀ k ∈ [Strm.ctl, .vec, .mtx, .cpy, .ast], decodeWord k 0 = .error .illegal ∧ decodeWord k (BitVec.allOnes 64) = .error .illegal

/-- Every word of a well-formed instruction that has one decodes, on its own stream, to the instruction of its row: no operand is
dropped.

Nothing but a well-formed instruction is decoded: what has a reserved field set or an illegal form is none (00 R7, 04 R136, 01
R45). -/
def Obligations.DecodeAndEncodeAgree : Prop :=
  (
  ∀ i : Instr, (encode i).isSome = (streamOf i).isSome ∧
    ∀ (c : Code) (k : Strm) (hi : BitVec 32), WellFormed i = true → encode i = some c → streamOf i = some k →
      decodeWord k (c.bits hi) = .ok (rowOf i)
  ) ∧
  (
  ∀ (k : Strm) (w : BitVec 64) (i : Instr), decodeWord k w = .ok i → WellFormed i = true
  )

/-- Memory keeps its canonical form through every step (the model's own invariant, log 5). -/
def Obligations.MemoryStaysCanonical : Prop :=
  ∀ s t : State, s.mem.wf = true → step s = .next t → t.mem.wf = true

/-- 04 R146: "When sequential execution reaches the address `CODEBASE` + `CODELEN`, the control stream raises `RANGE`, with `FADDR` set to
that address." -/
def Obligations.SectionEnd : Prop :=
  ∀ s : State, s.aboutToIssue .ctl = true →
    let u := s.beginTurn .ctl
    u.ctl.pc.toNat = lrCodeBase u.lrec 0 + lrCodeLen u.lrec 0 → u.readyWord .ctl = none →
    step s = .next (u.faults .ctl .range u.ctl.pc.toNat 0)

/-- 04 R163: `ERET` (major 0x33, all other bits 0) is privileged. In firmware mode it jumps to `EPC` under the checks of R145; that these
are the checks of the code section, and that an `EPC` off a word boundary raises no `ALIGN`, is the model's reading (log 15). -/
def Obligations.ExceptionReturn : Prop :=
  (∀ hi lo : BitVec 32, lo.extractLsb' 25 7 = 0x33 →
    (lo.extractLsb' 0 25 = 0 → decodeWord .ctl (hi ++ lo) = .ok .eret) ∧
    (lo.extractLsb' 0 25 ≠ 0 → decodeWord .ctl (hi ++ lo) = .error .reserved)) ∧
  ∀ s : State,
    (s.core.mode = .job → exec .eret s = .next (s.faults .ctl .privilege 0 0)) ∧
    (s.core.mode = .firmware → exec .eret s = .next (
      if lrCodeBase s.lrec 0 ≤ s.core.epc.toNat ∧ s.core.epc.toNat < lrCodeBase s.lrec 0 + lrCodeLen s.lrec 0 then
        s.mapCtl fun c => { c with pc := s.core.epc }
      else s.faults .ctl .range 0 0))

/-- 04 R137, 03 R102: the register forms of integer arithmetic and logic write the value the table gives, move past the word
and change nothing else, once none of their registers has a result on its way. -/
def Obligations.ControlRegisterArithmetic : Prop :=
  ∀ (s : State) (d a b : BitVec 6), s.freeX [d, a, b] →
    let x := s.ctl.getX a
    let y := s.ctl.getX b
    let k := y.toNat % 64
    exec (.add d a b) s = .next (s.wrote d (BitVec.ofNat 64 (x.toNat + y.toNat))) ∧
    exec (.sub d a b) s = .next (s.wrote d (BitVec.ofInt 64 (x.toInt - y.toInt))) ∧
    exec (.mul d a b) s = .next (s.wrote d (BitVec.ofNat 64 (x.toNat * y.toNat))) ∧
    exec (.mulhI64 d a b) s = .next (s.wrote d (BitVec.ofInt 64 (x.toInt * y.toInt / 2 ^ 64))) ∧
    exec (.mulhN64 d a b) s = .next (s.wrote d (BitVec.ofNat 64 (x.toNat * y.toNat / 2 ^ 64))) ∧
    exec (.divI64 d a b) s =
      .next (s.wrote d (if y = 0 then BitVec.allOnes 64 else BitVec.ofInt 64 (x.toInt.tdiv y.toInt))) ∧
    exec (.divN64 d a b) s =
      .next (s.wrote d (if y = 0 then BitVec.allOnes 64 else BitVec.ofNat 64 (x.toNat / y.toNat))) ∧
    exec (.remI64 d a b) s = .next (s.wrote d (if y = 0 then x else BitVec.ofInt 64 (x.toInt.tmod y.toInt))) ∧
    exec (.remN64 d a b) s = .next (s.wrote d (if y = 0 then x else BitVec.ofNat 64 (x.toNat % y.toNat))) ∧
    exec (.and d a b) s = .next (s.wrote d (x &&& y)) ∧
    exec (.or d a b) s = .next (s.wrote d (x ||| y)) ∧
    exec (.xor d a b) s = .next (s.wrote d (x ^^^ y)) ∧
    exec (.andn d a b) s = .next (s.wrote d (x &&& ~~~y)) ∧
    exec (.shl d a b) s = .next (s.wrote d (BitVec.ofNat 64 (x.toNat * 2 ^ k))) ∧
    exec (.shr d a b) s = .next (s.wrote d (BitVec.ofNat 64 (x.toNat / 2 ^ k))) ∧
    exec (.sar d a b) s = .next (s.wrote d (BitVec.ofInt 64 (x.toInt / 2 ^ k))) ∧
    exec (.rol d a b) s = .next (s.wrote d (x <<< k ||| x >>> ((64 - k) % 64))) ∧
    exec (.minI64 d a b) s = .next (s.wrote d (BitVec.ofInt 64 (min x.toInt y.toInt))) ∧
    exec (.minN64 d a b) s = .next (s.wrote d (BitVec.ofNat 64 (min x.toNat y.toNat))) ∧
    exec (.maxI64 d a b) s = .next (s.wrote d (BitVec.ofInt 64 (max x.toInt y.toInt))) ∧
    exec (.maxN64 d a b) s = .next (s.wrote d (BitVec.ofNat 64 (max x.toNat y.toNat)))

/-- 04 R137 (the unary forms): leading and trailing zeros and one bits are counted, a predicate is read into a register and
a register tested into a predicate.

04 R138 to R140: the immediate forms, by their major, compute with the sign-extended immediate, the shifts, by `SOP`, with the count
`SH`; `LI` writes the sign-extended `IMM19`; `LIH` replaces bits [16h+15:16h] and keeps the others.

04 R141, R142: a compare with an assigned code writes one predicate and changes nothing else; `SEL` selects by a
predicate, which bits [6:4] of its word name.

04 R143: `BFX`, `BFI` and `FSH` on field limits that R143 allows write the field, inserted, extracted or shifted; on any
other they raise `RANGE` and change nothing but the record of the stop. -/
def Obligations.ControlOtherForms : Prop :=
  (
  (∀ (s : State) (d a : BitVec 6), s.freeX [d, a] →
    let x := s.ctl.getX a
    (∃ n : Nat, n ≤ 64 ∧ exec (.clz d a) s = .next (s.wrote d (BitVec.ofNat 64 n)) ∧
      (x = 0 → n = 64) ∧ (x ≠ 0 → n < 64 ∧ x.getLsbD (63 - n) = true) ∧ ∀ i, 64 - n ≤ i → x.getLsbD i = false) ∧
    (∃ n : Nat, n ≤ 64 ∧ exec (.ctz d a) s = .next (s.wrote d (BitVec.ofNat 64 n)) ∧
      (x = 0 → n = 64) ∧ (x ≠ 0 → n < 64 ∧ x.getLsbD n = true) ∧ ∀ i, i < n → x.getLsbD i = false) ∧
    exec (.popc d a) s = .next (s.wrote d (BitVec.ofNat 64 ((List.range 64).countP fun i => x.getLsbD i)))) ∧
  (∀ (s : State) (d : BitVec 6) (n : BitVec 3), s.freeX [d] →
    exec (.movXP d n) s = .next (s.wrote d (if s.ctl.p.getLsbD n.toNat then 1 else 0))) ∧
  ∀ (s : State) (a : BitVec 6) (p : BitVec 3), s.freeX [a] →
    exec (.movPX p a) s = .next (s.wroteP p (decide (s.ctl.getX a ≠ 0)))
  ) ∧
  (
  (∀ (s : State) (d a : BitVec 6) (i : BitVec 13), s.freeX [d, a] →
    let x := s.ctl.getX a
    exec (.addImm d a i) s = .next (s.wrote d (BitVec.ofInt 64 (x.toInt + i.toInt))) ∧
    exec (.mulImm d a i) s = .next (s.wrote d (BitVec.ofInt 64 (x.toInt * i.toInt))) ∧
    exec (.andImm d a i) s = .next (s.wrote d (x &&& BitVec.ofInt 64 i.toInt)) ∧
    exec (.orImm d a i) s = .next (s.wrote d (x ||| BitVec.ofInt 64 i.toInt)) ∧
    exec (.xorImm d a i) s = .next (s.wrote d (x ^^^ BitVec.ofInt 64 i.toInt))) ∧
  (∀ (hi : BitVec 32) (d a h : BitVec 6) (i : BitVec 13),
    decodeWord .ctl (hi ++ (0x02#7 ++ d ++ a ++ i)) = .ok (.addImm d a i) ∧
    decodeWord .ctl (hi ++ (0x03#7 ++ d ++ a ++ i)) = .ok (.mulImm d a i) ∧
    decodeWord .ctl (hi ++ (0x04#7 ++ d ++ a ++ i)) = .ok (.andImm d a i) ∧
    decodeWord .ctl (hi ++ (0x05#7 ++ d ++ a ++ i)) = .ok (.orImm d a i) ∧
    decodeWord .ctl (hi ++ (0x06#7 ++ d ++ a ++ i)) = .ok (.xorImm d a i) ∧
    decodeWord .ctl (hi ++ (0x07#7 ++ d ++ a ++ 0#2 ++ 0#5 ++ h)) = .ok (.shlImm d a h) ∧
    decodeWord .ctl (hi ++ (0x07#7 ++ d ++ a ++ 1#2 ++ 0#5 ++ h)) = .ok (.shrImm d a h) ∧
    decodeWord .ctl (hi ++ (0x07#7 ++ d ++ a ++ 2#2 ++ 0#5 ++ h)) = .ok (.sarImm d a h) ∧
    decodeWord .ctl (hi ++ (0x07#7 ++ d ++ a ++ 3#2 ++ 0#5 ++ h)) = .ok (.rolImm d a h)) ∧
  (∀ (s : State) (d a h : BitVec 6), s.freeX [d, a] →
    let x := s.ctl.getX a
    exec (.shlImm d a h) s = .next (s.wrote d (BitVec.ofNat 64 (x.toNat * 2 ^ h.toNat))) ∧
    exec (.shrImm d a h) s = .next (s.wrote d (BitVec.ofNat 64 (x.toNat / 2 ^ h.toNat))) ∧
    exec (.sarImm d a h) s = .next (s.wrote d (BitVec.ofInt 64 (x.toInt / 2 ^ h.toNat))) ∧
    exec (.rolImm d a h) s = .next (s.wrote d (x <<< h.toNat ||| x >>> ((64 - h.toNat) % 64)))) ∧
  ∀ (s : State) (d : BitVec 6), s.freeX [d] →
    (∀ i : BitVec 19, exec (.li d i) s = .next (s.wrote d (BitVec.ofInt 64 i.toInt))) ∧
    ∀ (h : BitVec 2) (i : BitVec 16), ∃ v : Word, exec (.lih d h i) s = .next (s.wrote d v) ∧
      ∀ j, v.getLsbD j = if 16 * h.toNat ≤ j ∧ j < 16 * h.toNat + 16 then i.getLsbD (j - 16 * h.toNat) else (s.ctl.getX d).getLsbD j
  ) ∧
  (
  (∀ (s : State) (p c : BitVec 3) (a b : BitVec 6) (u : BitVec 1), WellFormed (.cmp p c a b u) = true → s.freeX [a, b] →
    exec (.cmp p c a b u) s = .next (s.wroteP p (cmpHolds c u (s.ctl.getX a) (s.ctl.getX b)))) ∧
  (∀ (s : State) (p c : BitVec 3) (a : BitVec 6) (u : BitVec 1) (i : BitVec 12), WellFormed (.cmpImm p c a u i) = true →
    s.freeX [a] →
    exec (.cmpImm p c a u i) s = .next (s.wroteP p (cmpHolds c u (s.ctl.getX a) (BitVec.ofInt 64 i.toInt)))) ∧
  ∀ (s : State) (d a b : BitVec 6) (p : BitVec 3), s.freeX [d, a, b] →
    exec (.sel d a b p) s = .next (s.wrote d (if s.ctl.p.getLsbD p.toNat then s.ctl.getX a else s.ctl.getX b)) ∧
    ∀ hi : BitVec 32, decodeWord .ctl (hi ++ (0x0A#7 ++ d ++ a ++ b ++ p ++ 0#4)) = .ok (.sel d a b p)
  ) ∧
  (
  ∀ (s : State) (d a b c : BitVec 6) (g : BitVec 1), s.freeX [d, a, b, c] →
    let x := s.ctl.getX a
    let o := (s.ctl.getX b).toNat
    let w := (s.ctl.getX c).toNat
    let bad := s.takeFault .ctl { cause := .range, finfo := 0, finfox := 0, faddr := 0 }
    let ext (n : Nat) (v : Nat) : Word := if g = 1 then BitVec.ofInt 64 (Int.bmod v (2 ^ n)) else BitVec.ofNat 64 (v % 2 ^ n)
    (if o ≤ 63 ∧ 1 ≤ w ∧ w ≤ 64 ∧ o + w ≤ 64 then
      exec (.bfx d a b c g) s = .next (s.wrote d (ext w (x.toNat / 2 ^ o))) ∧
      ∃ v : Word, exec (.bfi d a b c g) s = .next (s.wrote d v) ∧
        let f : Int := if g = 1 then max (-(2 ^ (w - 1))) (min (2 ^ (w - 1) - 1) x.toInt) else min (2 ^ w - 1) x.toNat
        ∀ j, v.getLsbD j =
          if o ≤ j ∧ j < o + w then (BitVec.ofInt 64 f).getLsbD (j - o) else (s.ctl.getX d).getLsbD j
    else exec (.bfx d a b c g) s = .next bad ∧ exec (.bfi d a b c g) s = .next bad) ∧
    let so := (s.ctl.getX c).toNat % 2 ^ 7
    let sw := (s.ctl.getX c).toNat / 2 ^ 8 % 2 ^ 7
    if 1 ≤ sw ∧ sw ≤ 64 ∧ so + sw ≤ 128 then
      exec (.fsh d a b c g) s = .next (s.wrote d (ext sw ((x.toNat * 2 ^ 64 + o) / 2 ^ so)))
    else exec (.fsh d a b c g) s = .next bad
  )

/-- 04 R145: the branches. The check of the code section applies only to a branch that is taken, and a branch that faults
leaves its register unchanged; `LOOP` tests its register after the write, so `x0`, which reads as zero, is never taken (log 13).
04 R157: `CHRON` writes the Chronograph.

04 R162, R163: `TRAP` stops a core in job mode past the word, for a service; in firmware mode it saves the return
address and the code and jumps to `TVEC`. `ERET` is privileged and jumps to `EPC`, on a word boundary or not (log 15). -/
def Obligations.BranchesAndTraps : Prop :=
  (
  ∀ s : State,
    (∀ o : BitVec 25, exec (.br o) s = .next (s.jumps (s.ctl.pc + BitVec.ofInt 64 (4 * o.toInt)) id)) ∧
    (∀ (d : BitVec 6) (o : BitVec 19), s.freeX [d] →
      exec (.call d o) s =
        .next (s.jumps (s.ctl.pc + BitVec.ofInt 64 (4 * o.toInt)) fun c => c.setX d (s.ctl.pc + 4))) ∧
    (∀ (p : BitVec 3) (n : BitVec 1) (o : BitVec 21), exec (.bc p n o) s =
      .next (if s.ctl.p.getLsbD p.toNat = decide (n = 0) then s.jumps (s.ctl.pc + BitVec.ofInt 64 (4 * o.toInt)) id
        else s.mapCtl fun c => c.skip 4)) ∧
    (∀ (a : BitVec 6) (o : BitVec 19), s.freeX [a] → exec (.loop a o) s =
      .next (if (s.ctl.setX a (s.ctl.getX a - 1)).getX a ≠ 0 then
          s.jumps (s.ctl.pc + BitVec.ofInt 64 (4 * o.toInt)) fun c => c.setX a (s.ctl.getX a - 1)
        else s.mapCtl fun c => (c.skip 4).setX a (s.ctl.getX a - 1))) ∧
    (∀ a : BitVec 6, s.freeX [a] → exec (.ret a) s =
      .next (if (s.ctl.getX a).toNat % 4 ≠ 0 then s.faults .ctl .align 0 0 else s.jumps (s.ctl.getX a) id)) ∧
    ∀ d : BitVec 6, s.freeX [d] → exec (.chron d) s = .next (s.wrote d s.chron)
  ) ∧
  (
  ∀ (s : State) (a : BitVec 6) (n : BitVec 13), s.freeX [a] →
    (s.core.mode = .job → s.core.stop = none →
      exec (.trap a n) s = .next (s.advance.mapCore fun c => { c with stop := some {
          cause := .preempt, eng := .ctl, pend := s.preqNow, multi := false, src := BitVec.ofNat 16 (4 * s.core.num),
          finfo := BitVec.ofNat 32 (2 ^ 31 + n.toNat), finfox := 0, faddr := s.ctl.getX a, fchron := s.chron,
          wstart := s.core.wstart, framed := false } }) ∧
      exec .eret s = .next (s.faults .ctl .privilege 0 0)) ∧
    (s.core.mode = .firmware →
      exec (.trap a n) s = .next ((s.mapCore fun c => { c with epc := s.ctl.pc + 4, ecause := n }).mapCtl fun c =>
        { c with pc := s.core.tvec &&& ~~~3#64 }) ∧
      exec .eret s = .next (s.jumps s.core.epc id))
  )

/-- 01 R41 to R44: a fault of an engine leaves the state as it was but for the record of the stop, which holds the cause, the
engine, its source number, `FINFO`, `FADDR` and the cycle; none of the core's four sequencers issues any more; a further fault of
the same cycle sets `MULTI`, and the lowest source number is the one recorded; a fault while the stop of a pre-emption drains is
recorded in its place with `PEND` (01 R53), in the cycle of the stop too (log 15).

01 R46: `DEADLOCK` is raised once the streams of a task have all been blocked for 64 cycles with nothing in flight; that is judged
once a round, when no stream has a turn (log 19).

01 R41, R43, R48, R49: a stopped core writes its frame once, to its slot of the frame area, and signals the hub; `RESUME` restarts
it from that frame, and leaves a core that has not stopped alone. -/
def Obligations.FaultsOfACore : Prop :=
  (
  ∀ (s : State) (k : Strm) (t : Trap), k ≠ .ast →
    (s.core.stop = none →
      s.takeFault k t = s.mapCore (fun c => { c with stop := some {
          cause := t.cause, eng := strmEng k, pend := s.preqNow, multi := false,
          src := BitVec.ofNat 16 (4 * s.core.num + strmCode k), finfo := t.finfo, finfox := t.finfox, faddr := t.faddr,
          fchron := s.chron, wstart := s.core.wstart, framed := false } }) ∧
      ∀ q, q ≠ .ast → (s.takeFault k t).runnable q = false) ∧
    (∀ r, s.core.stop = some r → r.framed = false → r.cause = .preempt → r.finfo = 0 →
      ∃ m, s.takeFault k t = s.mapCore (fun c => { c with stop := some m }) ∧ m.pend = true ∧ m.multi = false ∧ m.cause = t.cause ∧
        m.eng = strmEng k ∧ m.finfo = t.finfo ∧ m.faddr = t.faddr ∧ m.fchron = s.chron) ∧
    ∀ r, s.core.stop = some r → r.fchron = s.chron → r.framed = false → ¬(r.cause = .preempt ∧ r.finfo = 0) →
      ∃ m, s.takeFault k t = s.mapCore (fun c => { c with stop := some m }) ∧ m.multi = true ∧ m.pend = (r.pend || s.preqNow) ∧
        m.src.toNat = min r.src.toNat ((4 * s.core.num + strmCode k) % 2 ^ 16) ∧
        (r.src.toNat ≤ (4 * s.core.num + strmCode k) % 2 ^ 16 → m.cause = r.cause ∧ m.finfo = r.finfo ∧ m.faddr = r.faddr)
  ) ∧
  (
  ∀ s : State,
    (s.core.blocked ≠ 0 → s.core.blocked + 64 ≤ s.chron.toNat → s.core.stop = none → s.turn = none → s.stuck = true →
      exec .deadlock s = .next ((s.mapCore fun c => { c with blocked := 0 }).faults .ctl .deadlock 0 0)) ∧
    (s.core.blocked = 0 ∨ s.chron.toNat < s.core.blocked + 64 ∨ s.inFlight = true ∨ s.allBlocked = false →
      exec .deadlock s = .next s)
  ) ∧
  (
  (∀ s : State, s.mem.wf = true →
    let ga := gaOf s.pkg (s.os.framebase.toNat * 4096 + 512 * s.core.num)
    (s.core.stop = none → s.aframeDue = false → exec .faultFrameWrite s = .next s) ∧
    (∀ r, s.core.stop = some r → r.framed = true → s.aframeDue = false → exec .faultFrameWrite s = .next s) ∧
    ∀ r, s.core.stop = some r → r.framed = false → s.plainAt ga 512 0 = true → ∃ t, exec .faultFrameWrite s = .next t ∧
      t.core = { s.core with stop := some { r with framed := true } } ∧ t.signals = s.signals ++ [.stopped s.core.num] ∧
      ∀ a, t.mem.get a = if ga ≤ a ∧ a < ga + 512 then
        (frameBytes s.core r s.queued (Config.freeWord s.free)).getD (a - ga) 0 else s.mem.get a) ∧
  ∀ (s : State) (n : BitVec 8),
    let ga := gaOf s.pkg (s.os.framebase.toNat * 4096 + 512 * n.toNat)
    ((s.coreAt n.toNat).stop = none → exec (.resume n) s = .next s) ∧
    ((s.coreAt n.toNat).stop ≠ none → s.plainAt ga 512 0 = true →
      exec (.resume n) s = .next (s.mapCoreAt n.toNat fun c => c.reload (s.mem.read ga 512)))
  )

/-- 11 R355, R359: a read of ordinary memory gives its bytes and leaves the state alone; a write of it stores its bytes and leaves
every other byte alone, and keeps the canonical form.

11 R354 to R356, R359 to R361, R368: a read of a clean or poisoned sector leaves the package as it is; one with a single symbol in error
is corrected, and written back for a patrol or a scrub; one with two is written back as it reads, poisoned, and logged; of more symbols
a free value says whether they are found and what they read as (log 31); a PA without a frame is no sector. A write stores the bytes
that its mask names in its sector, and no other.

11 R357, R364, R365, R369, R370: the Carafe on its own: the oldest queued write of a stack reaches the array (the model's choice of
which, log 31); a scrub period ends, and the next one, of the length set, patrols the regions left unread; a patrol read of a clean
sector goes on by one; the two keys of a slot are written once, its last byte sealing it; commands become ready in order, four to a
pseudo-channel at most; a command slot goes to a member that has been denied three times, else to the older command, at equal age to the
even pseudo-channel, and each member left ready counts one denial more. -/
def Obligations.OrdinaryMemoryAndCarafe : Prop :=
  (
  ∀ (s : State) (ga : Nat) (g : Agent),
    (∀ n kind, s.plainAt ga n g.key = true →
      (s.physRead ga n g kind).1 = s ∧ (s.physRead ga n g kind).2.data = s.mem.read ga n ∧
      (s.physRead ga n g kind).2.bad = [] ∧ (s.physRead ga n g kind).2.refused = false) ∧
    ∀ (d : List Byte) whole tags bad, s.mem.wf = true → s.plainAt ga d.length g.key = true →
      (s.physWrite ga d g whole tags bad).2 = .done ∧ (s.physWrite ga d g whole tags bad).1.mem.wf = true ∧
      ∀ c, (s.physWrite ga d g whole tags bad).1.mem.get c =
        if ga ≤ c ∧ c < ga + d.length then d.getD (c - ga) 0 else s.mem.get c
  ) ∧
  (
  ∀ (s : State) (pa : BitVec 41) (src : BitVec 16) (key : BitVec 8),
    let sa : Nat := pa.toNat / 64 * 64
    let x := s.sectorAt sa
    (dramSize ≤ sa % 2 ^ 40 → (∀ kind, exec (.carafeRead pa src kind key) s = .next s) ∧
      ∀ m d tags, exec (.carafeWrite pa src key m d tags) s = .next s) ∧
    (sa % 2 ^ 40 < dramSize → s.regionAt (sa % 2 ^ 40) = none →
      (2 ^ 40 ≤ sa → ∀ kind, exec (.carafeRead pa src kind key) s = .next s) ∧
      (sa < 2 ^ 40 → ∀ kind : BitVec 4,
        (x.poison = true ∨ x.err = [] → kind ≠ 3 → exec (.carafeRead pa src kind key) s = .next s) ∧
        (x.poison = true ∨ x.err = [] → ∃ t, exec (.carafeRead pa src kind key) s = .next t ∧ t.mem = s.mem ∧ t.sectors = s.sectors ∧
          t.core = s.core) ∧
        (x.poison = false → x.err.length = 1 → ∃ t, exec (.carafeRead pa src kind key) s = .next t ∧ t.mem = s.mem ∧
          t.core = s.core ∧ (t.sectorAt sa).err = if kind = 2 ∨ kind = 5 then [] else x.err) ∧
        (∀ p q, x.poison = false → x.err = [p, q] → s.mem.wf = true →
          ∃ t, exec (.carafeRead pa src kind key) s = .next t ∧ s.detected t sa src kind ∧
            (s.logsPlainly sa → x.raw = true → x.ckey = none → p.1 < 32 → q.1 < 32 → (t.sectorAt sa).rtag = x.rtag ∧
              ∀ i, i < 64 → t.mem.get (gaOf s.pkg sa + i) = (s.sectorBytes sa).getD i 0 ^^^
                (if p.1 = i / 2 then p.2.extractLsb' (8 * (i % 2)) 8 else 0) ^^^
                (if q.1 = i / 2 then q.2.extractLsb' (8 * (i % 2)) 8 else 0))) ∧
        (x.poison = false → 3 ≤ x.err.length → s.mem.wf = true → ∃ t, exec (.carafeRead pa src kind key) s = .next t ∧
          ((Config.freeSector s.free = none → s.detected t sa src kind) ∧
            (Config.freeSector s.free ≠ none → t.mem = s.mem ∧ t.sectors = s.sectors)))) ∧
      (sa < 2 ^ 40 → s.mem.wf = true → s.plainAt (gaOf s.pkg sa) 64 key = true → ∀ m d tags,
        ∃ t, exec (.carafeWrite pa src key m d tags) s = .next t ∧ t.mem.wf = true ∧ t.core = s.core ∧
          ∀ a, t.mem.get a =
            if gaOf s.pkg sa ≤ a ∧ a < gaOf s.pkg sa + 64 ∧ m.getLsbD (a - gaOf s.pkg sa) = true then
              d.extractLsb' (8 * (a - gaOf s.pkg sa)) 8
            else s.mem.get a))
  ) ∧
  (
  (∀ (s : State) (k : Nat) (h : k < 12),
    let x := s.carafe.stks[k]
    let set (y : Stack) : State := { s with carafe := { s.carafe with stks := s.carafe.stks.set k y } }
    exec (.writeReachesArray (BitVec.ofNat 4 k)) s = .next (set { x with wqueue := x.wqueue.drop 1 }) ∧
    (x.patrol = [] → exec (.patrolRead (BitVec.ofNat 4 k)) s = .next s) ∧
    ∀ r rest, x.patrol = r :: rest →
      let sec := s.sectorAt (paOf k (r * 2 ^ 21 + x.pptr * 64))
      sec.poison = true ∨ sec.err = [] → exec (.patrolRead (BitVec.ofNat 4 k)) s = .next (set
        (if x.pptr + 1 = 32768 then { x with patrol := rest, pptr := 0 } else { x with pptr := x.pptr + 1 }))) ∧
  (∀ s : State, exec .scrubPeriodEnd s = .next { s with carafe := { s.carafe with
    start := s.chron, period := s.carafe.nextPeriod
    stks := s.carafe.stks.map fun x =>
      let unread := (List.range 32768).filter fun r => !x.readBits.contains r
      { x with periodNo := x.periodNo + 1, unread := BitVec.ofNat 16 unread.length, progs := [], readBits := [], patrol := unread, pptr := 0 } } }) ∧
  (∀ (s : State) (off : BitVec 16) (v : BitVec 64),
    let o : Nat := off.toNat / 8 * 8
    let id := BitVec.ofNat 8 ((o - 0x1000) / 64)
    let slot (t : State) (n : BitVec 8) : Option KeySlot := t.carafe.keys.find? fun x => decide (x.id = n)
    (o < 0x1000 ∨ 0x5000 ≤ o ∨ id = 0 → exec (.keySlotWrite off v) s = .next s) ∧
    (∀ x, slot s id = some x → x.v = true → exec (.keySlotWrite off v) s = .next s) ∧
    (0x1000 ≤ o → o < 0x5000 → id ≠ 0 → (∀ x, slot s id = some x → x.v = false) →
      let old := (slot s id).getD { id := id, dkey := 0, tkey := 0, v := false }
      ∃ t y, exec (.keySlotWrite off v) s = .next t ∧ t.mem = s.mem ∧ t.core = s.core ∧ slot t id = some y ∧
        y.v = decide ((o - 0x1000) % 64 = 56) ∧
        (∀ b : Nat, b < 32 → y.dkey.extractLsb' (8 * b) 8 = if b / 8 * 8 = (o - 0x1000) % 64 then v.extractLsb' (8 * (b % 8)) 8
          else old.dkey.extractLsb' (8 * b) 8) ∧
        (∀ b : Nat, b < 32 → y.tkey.extractLsb' (8 * b) 8 = if 32 + b / 8 * 8 = (o - 0x1000) % 64 then v.extractLsb' (8 * (b % 8)) 8
          else old.tkey.extractLsb' (8 * b) 8) ∧
        ∀ n, n ≠ id → slot t n = slot s n)) ∧
  (∀ b : Bus,
    let r (y : Nat) : List Nat := b.ready.toList.getD y []
    let d (y : Nat) : BitVec 2 := b.denied.toList.getD y 0
    let grant (g : Nat) : Prop := b.arbitrate.ready.toList.getD g [] = (r g).drop 1 ∧ b.arbitrate.ready.toList.getD (1 - g) [] = r (1 - g) ∧
      b.arbitrate.denied.toList.getD g 0 = 0 ∧ b.arbitrate.denied.toList.getD (1 - g) 0 = if r (1 - g) ≠ [] then d (1 - g) + 1 else 0
    let more (c : Bus) (y : Nat) : List Nat := c.wait.toList.getD y []
    let full (c : Bus) (y : Nat) : List Nat := c.ready.toList.getD y []
    (∀ y, y < 2 → full b.fill y ++ more b.fill y = r y ++ more b y ∧
      ((r y).length ≤ 4 → (full b.fill y).length ≤ 4 ∧ (more b.fill y ≠ [] → (full b.fill y).length = 4))) ∧
    (r 0 = [] → r 1 = [] → b.arbitrate = { b with denied := Vector.replicate 2 0 }) ∧
    (∀ g, g < 2 → r g ≠ [] → r (1 - g) = [] → grant g) ∧
    (∀ g, g < 2 → r g ≠ [] → r (1 - g) ≠ [] → d g = 3 → d (1 - g) ≠ 3 → grant g) ∧
    (∀ g, g < 2 → r g ≠ [] → r (1 - g) ≠ [] → d g ≠ 3 → d (1 - g) ≠ 3 → (r g).headD 0 < (r (1 - g)).headD 0 → grant g) ∧
    (r 0 ≠ [] → r 1 ≠ [] → d 0 ≠ 3 → d 1 ≠ 3 → (r 0).headD 0 = (r 1).headD 0 → grant 0)) ∧
  ∀ (s : State) (k : BitVec 4) (pair : BitVec 5) (col : Bool),
    exec (.commandCycle k pair col) s = .next (s.mapStack k.toNat fun x => { x with buses := x.buses.map fun p =>
      if p.pair = pair.toNat then (if col then { p with col := p.col.fill.arbitrate } else { p with row := p.row.fill.arbitrate })
      else p })
  )

/-- 04 R147, R148: a load at an address that is no multiple of its size raises `ALIGN`; a load of the scratchpad or of an
ephemeris window writes its register; a load of memory reads it, and its register is written when its data returns. No load changes
a byte of memory.

04 R165: the oldest load that has returned writes its register, and no other. -/
def Obligations.Loads : Prop :=
  (
  ∀ (s : State) (d a b : BitVec 6) (t : BitVec 3) (u : BitVec 2) (o : BitVec 8),
    let n : Nat := 2 ^ (t.toNat % 4)
    ∀ i ea, (i = .ld d a t u o ∧ s.freeX [d, a] ∧ ea = s.ctl.getX a + BitVec.ofInt 64 (o.toInt * (n : Int))) ∨
        (i = .ldIndex d a b t u ∧ s.freeX [d, a, b] ∧ ea = s.ctl.getX a + s.ctl.getX b * BitVec.ofNat 64 n) →
      (ea.toNat % n ≠ 0 → exec i s = .next (s.faults .ctl .align (if ea.toNat / 2 ^ 56 = 0 then ea.toNat else 0) 0)) ∧
      (ea.toNat % n = 0 →
        (∀ off, s.served .ctl .load 6 ea n (.pad off) → exec i s = .next (s.wrote d (loaded t (s.core.pad.read off n)))) ∧
        (∀ w va key, s.served .ctl .load 6 ea n (.win w va key) →
          exec i s = .next (s.wrote d (loaded t (s.winBytes w va n key)))) ∧
        ∀ va pa r, s.served .ctl .load 6 ea n (.mem [{ va := va, pa := pa, len := n }] r) → s.plainAt pa n s.key = true →
          (Place.mem [{ va := va, pa := pa, len := n }] r).lines.any s.core.task.redLines.contains = false →
          s.core.nmOverlap (.mem [{ va := va, pa := pa, len := n }] r) = false → s.roomFor →
          ∃ x, exec i s = .next x ∧ x.ctl = s.ctl.skip 4 ∧ x.mem = s.mem ∧ x.core.pad = s.core.pad ∧
            x.core.task.flags = s.core.task.flags ∧
            x.core.loads = s.core.loads ++ [(s.core.task.seq, .x d (loaded t (s.mem.read pa n)))])
  ) ∧
  (
  ∀ (s : State) (q : Nat) (d : BitVec 6) (v : Word) (rest : List (Nat × RegWrite)), s.core.loads = (q, .x d v) :: rest →
    ∃ t, exec .loadDataReturn s = .next t ∧ t.core.loads = rest ∧ t.ctl = s.ctl.setX d v ∧ t.mem = s.mem ∧ t.core.pad = s.core.pad ∧
      (s.core.adds = [] → t.core.task.flags = s.core.task.flags)
  )

/-- 04 R147, R148: a store at an address that is no multiple of its size raises `ALIGN`; a store to the scratchpad writes the low
bytes of its register there; a store to memory writes them at the address that `place` gives, and no other byte, unless the home
refuses it, and is then on its way to completion.

02 R77, R90: the oldest write on its way completes; one that its home refused or lost is kept for a fence. -/
def Obligations.Stores : Prop :=
  (
  ∀ (s : State) (v a b : BitVec 6) (t : BitVec 3) (u : BitVec 2) (o : BitVec 8),
    let n : Nat := 2 ^ (t.toNat % 4)
    let d := natLe n (s.ctl.getX v).toNat
    ∀ i ea, (i = .st v a t u o ∧ s.freeX [v, a] ∧ ea = s.ctl.getX a + BitVec.ofInt 64 (o.toInt * (n : Int))) ∨
        (i = .stIndex v a b t u ∧ s.freeX [v, a, b] ∧ ea = s.ctl.getX a + s.ctl.getX b * BitVec.ofNat 64 n) →
      (ea.toNat % n ≠ 0 → exec i s = .next (s.faults .ctl .align (if ea.toNat / 2 ^ 56 = 0 then ea.toNat else 0) 0)) ∧
      (ea.toNat % n = 0 →
        (∀ off, s.served .ctl .store 6 ea n (.pad off) →
          exec i s = .next (s.mapCore fun c => { c with pad := c.pad.write off d }).advance) ∧
        ∀ va pa (r : Bool), s.served .ctl .store 6 ea n (.mem [{ va := va, pa := pa, len := n }] (if r then [(va, va + n)] else [])) →
          s.plainAt pa n s.key = true → s.mem.wf = true →
          s.core.nmOverlap (.mem [{ va := va, pa := pa, len := n }] []) = false → s.roomFor →
          let w : PendWrite := {
            eng := .ctl, seq := s.core.task.seq, level := s.homeLevel pa, va := va, pa := pa, len := n,
            fail := if r then some .refused else none }
          ∃ x, exec i s = .next x ∧ x.ctl = s.ctl.skip 4 ∧ x.core.pad = s.core.pad ∧ x.core.task.flags = s.core.task.flags ∧
            x.mem.wf = true ∧ x.core.writes = s.core.writes ++ [w] ∧
            ∀ c, x.mem.get c = if r = false ∧ pa ≤ c ∧ c < pa + n then d.getD (c - pa) 0 else s.mem.get c)
  ) ∧
  (
  ∀ (s : State) (w : PendWrite) (rest : List PendWrite), s.core.writes = w :: rest →
    ∃ t, exec .writeCompletesAtHome s = .next t ∧ t.core.writes = rest ∧ t.mem = s.mem ∧ t.ctl = s.ctl ∧
      t.core.task.failures = s.core.task.failures ++ (match w.fail with
        | some k => [{ eng := w.eng, seq := w.seq, kind := k, level := w.level, va := w.va, count := 1 }]
        | none => [])
  )

/-- 02 R66 (`addf`), 05 R207, 06 R242 (the words of `addsTo`: addf, addfImm, vecAddf, vecAddfImm, addf64): an `ADDF` on a count flag takes a number below 2^32; one on a holding flag must come from
the carrier, with the number 1 and a range given that no `ADDF` has followed. It is then queued, in program order, behind a
queue of sixteen that is not full (01 R14), and once no earlier command of its stream is outstanding the flag's value is the sum; beyond 2^40 − 1 the value saturates and `RANGE` is raised.

02 R66 (`waitf`), 05 R207, 06 R242 (the words of `waitsFor`: waitf, waitfImm, vecWaitf, vecWaitfImm, waitf64): a `WAITF` belongs to the consumer of its flag, asks for at most 2^40 − 1, and 4 of a holding
flag; it waits, its stream blocked, until the value is that large, then takes it off, and its engine holds the oldest ranges given. -/
def Obligations.FlagsRaisedAndAwaited : Prop :=
  (
  ∀ (s : State) (e : Eng) (f : BitVec 6) (n : Word) (i : Instr), s.addsTo e f n i →
    let g := s.core.task.flagAt f
    let v := g.value.toNat + n.toNat
    let u := s.mapTask fun t => { t with seq := t.seq + 1 }
    (g.hold = true → e ≠ g.carr → exec i s = .next (s.faults e.strm .flagOwner 0 0)) ∧
    (g.hold = true → e = g.carr → n ≠ 1 ∨ s.core.pendingRange f = false → exec i s = .next (s.faults e.strm .range 0 0)) ∧
    (g.hold = false → 2 ^ 32 ≤ n.toNat → exec i s = .next (s.faults e.strm .range 0 0)) ∧
    ((g.hold = true ∧ e = g.carr ∧ n = 1 ∧ s.core.pendingRange f = true) ∨ (g.hold = false ∧ n.toNat < 2 ^ 32) →
      16 ≤ s.queued e → exec i s = .next s) ∧
    ((g.hold = true ∧ e = g.carr ∧ n = 1 ∧ s.core.pendingRange f = true) ∨
        (g.hold = false ∧ n.toNat < 2 ^ 32 ∧ (v < 2 ^ 40 ∨ s.outstanding e s.core.task.seq = true)) →
      s.queued e < 16 → exec i s = .next ((u.mapCore fun c => { c with
        adds := c.adds ++ [{ eng := e, seq := s.core.task.seq, flag := f, n := n }] }).applyAdds.pastWord e.strm)) ∧
    (g.hold = false → n.toNat < 2 ^ 32 → s.queued e < 16 → s.outstanding e s.core.task.seq = false → s.core.adds = [] →
      (v < 2 ^ 40 → exec i s = .next ((u.mapFlag f fun x => { x with value := BitVec.ofNat 40 v }).pastWord e.strm)) ∧
      (2 ^ 40 ≤ v → exec i s =
        .next ((u.mapFlag f fun x => { x with value := BitVec.allOnes 40 }).faults e.strm .range 0 0)))
  ) ∧
  (
  ∀ (s : State) (e : Eng) (f : BitVec 6) (n : Word) (i : Instr), s.waitsFor e f n i →
    let g := s.core.task.flagAt f
    (e ≠ g.cons → exec i s = .next (s.faults e.strm .flagOwner 0 0)) ∧
    (e = g.cons → 2 ^ 40 ≤ n.toNat ∨ (g.hold = true ∧ 4 < n.toNat) → exec i s = .next (s.faults e.strm .range 0 0)) ∧
    (e = g.cons → n.toNat < 2 ^ 40 → (g.hold = true → n.toNat ≤ 4) →
      (g.value.toNat < n.toNat → exec i s = .next (s.block e.strm)) ∧
      (n.toNat ≤ g.value.toNat → ∃ t, exec i s = .next t ∧
        (t.core.task.flagAt f).value.toNat = g.value.toNat - n.toNat ∧
        (∀ h, h ≠ f → t.core.task.flagAt h = s.core.task.flagAt h) ∧
        t.mem = s.mem ∧ t.core.pad = s.core.pad ∧ t.core.acc = s.core.acc ∧ t.pcOf e.strm = (s.pastWord e.strm).pcOf e.strm ∧
        (g.hold = false → t.core.hold = s.core.hold ∧ t.core.transit = s.core.transit) ∧
        (g.hold = true → ∀ r ∈ (s.core.given f).take n.toNat, r ∉ t.core.transit ∧
          ∀ k, r.first ≤ k → k < r.first + r.count → ∀ h : k < 240, t.core.hold[k] = e)))
  )

/-- 02 R66 (`give`), R62, 05 R207, 06 R242 (the words of `givesPad` and `givesAccs`: give, giveAcc, vecGive, vecGiveAcc, give64): a `GIVE` belongs to the carrier of a holding flag; a scratchpad range is of whole
segments in the core's scratchpad, accumulators are a run of the sixteen; the giver holds every entry and owes the flag no
`ADDF`; at most four ranges are in transit, and nothing but the list of them changes.

02 R65, 04 R153, R154: `FLAGCFG` names the consumer, the kind and the carrier of a flag of value 0 with nothing in transit, while no
vector, matrix or copy stream is forked and once the control stream's commands have completed; `FSTAT` reads them. -/
def Obligations.FlagsGivenAndConfigured : Prop :=
  (
  ∀ (s : State) (e : Eng) (f : BitVec 6) (i : Instr) (first count : Nat),
    let g := s.core.task.flagAt f
    let body (aligned : Bool) : Prop :=
      (g.hold = false ∨ e ≠ g.carr → exec i s = .next (s.faults e.strm .flagOwner 0 0)) ∧
      (g.hold = true → e = g.carr →
        (aligned = false → exec i s = .next (s.faults e.strm .align 0 0)) ∧
        (aligned = true →
          (count = 0 ∨ s.core.pendingRange f = true → exec i s = .next (s.faults e.strm .range 0 0)) ∧
          (0 < count → s.core.pendingRange f = false →
            ((∃ k, k < count ∧ s.core.holds e (first + k) = false) →
              exec i s = .next (s.faults e.strm .segmentHolder 0 0)) ∧
            ((∀ k, k < count → s.core.holds e (first + k) = true) →
              (4 ≤ s.core.transit.length → exec i s = .next (s.block e.strm)) ∧
              (s.core.transit.length < 4 → exec i s = .next ((s.mapCore fun c => { c with
                transit := c.transit ++ [{ flag := f, first := first, count := count }] }).pastWord e.strm))))))
    (∀ ea len, s.givesPad e f ea len i →
      let off := ea.toNat % 2 ^ 20
      (ea.toNat / 2 ^ 20 ≠ 0xFE000000000 ∨ s.padBytes < off + len.toNat → exec i s = .next (s.faults e.strm .range 0 0)) ∧
      (ea.toNat / 2 ^ 20 = 0xFE000000000 → off + len.toNat ≤ s.padBytes → first = off / 4096 → count = len.toNat / 4096 →
        body (decide (off % 4096 = 0 ∧ len.toNat % 4096 = 0)))) ∧
    ∀ a, s.givesAccs e f a count i → first = 224 + a →
      (16 < a + count → exec i s = .next (s.faults e.strm .range 0 0)) ∧ (a + count ≤ 16 → body true)
  ) ∧
  (
  ∀ s : State,
    (∀ (f : BitVec 6) (k : BitVec 1) (c r : BitVec 2),
      let kinds : BitVec 5 := BitVec.ofNat 5 (lrKmask s.lrec)
      let ok := s.anyForked = false ∧ (s.core.task.flagAt f).value = 0 ∧ s.core.given f = [] ∧ kinds.getLsbD c.toNat = true ∧
        (k = 1 → r ≠ c ∧ kinds.getLsbD r.toNat = true)
      (s.outstanding .ctl s.core.task.seq = true → exec (.flagcfg f k c r) s = .next s) ∧
      (s.outstanding .ctl s.core.task.seq = false →
        (ok → exec (.flagcfg f k c r) s =
          .next (s.mapFlag f fun x => { x with cons := engOf c, hold := decide (k = 1), carr := engOf r }).advance) ∧
        (¬ok → exec (.flagcfg f k c r) s = .next (s.faults .ctl .range 0 0)))) ∧
    ∀ d f : BitVec 6, s.freeX [d] →
      let g := s.core.task.flagAt f
      exec (.fstat d f) s = .next (s.wrote d (BitVec.ofNat 64 (g.cons.code +
        if g.hold then 4 + 8 * g.carr.code + (if g.carr = .ctl ∧ s.core.pendingRange f = true then 32 else 0) else 0)))
  )

/-- 01 R24, R25, R17, 10 R323: `FORK` names stream kinds that the job has and that are not forked, else `RANGE`; the Astrolabe stream
of a die is left untouched by a task that does not own it, and waits for the engine of the die while that runs another job. A stream it
starts is at its entry with `x1` the task index, `x8` to `x11` from the record and every other register zero: the scalars, predicates
and draw counter of each kind, `v0` to `v31`, `m0` to `m7` and the stream registers of the vector engine, `d0` to `d15` of the matrix
engine, `g0` to `g7` of the Astrolabe; the others stand as they are.

01 R24, R46: `JOIN` waits, its stream blocked, until every forked stream has ended and its commands have completed; then no stream
of the task is forked, what joined engines held is with control but for ranges still in transit, and every holding flag that they
consume is 0. -/
def Obligations.ForkAndJoin : Prop :=
  (
  (∀ (s : State) (k : BitVec 4),
    let kinds : BitVec 5 := BitVec.ofNat 5 (lrKmask s.lrec)
    let named (q : Strm) : Bool := k.getLsbD (strmCode q - 1)
    let starts (q : Strm) : Prop := named q = true ∧ (q = .ast → s.ownsAstro = true)
    let range : Prop := exec (.fork k) s = .next (s.faults .ctl .range 0 0)
    let legal : Prop := k ≠ 0 ∧ (∀ q, q ≠ .ctl → named q = true → kinds.getLsbD (strmCode q) = true) ∧
      ∀ q, q ≠ .ctl → starts q → s.forked q = false
    (k = 0 → range) ∧
    (∀ q, q ≠ .ctl → named q = true → kinds.getLsbD (strmCode q) = false → range) ∧
    (∀ q, q ≠ .ctl → starts q → s.forked q = true → range) ∧
    (legal → starts .ast → s.astroBusy = true → exec (.fork k) s = .next s) ∧
    (legal → (starts .ast → s.astroBusy = false ∧ s.core.num < 256) →
      ∃ t, exec (.fork k) s = .next t ∧ t.ctl = s.ctl.skip 4 ∧ t.mem = s.mem ∧ t.core.pad = s.core.pad ∧ t.core.acc = s.core.acc ∧
        t.core.task.flags = s.core.task.flags ∧ t.core.hold = s.core.hold ∧
        (∀ q, q = .vec ∨ q = .mtx ∨ q = .cpy → t.strm32 q =
          if named q then forkRegs s.lrec (strmCode q) s.core.task.idx else s.strm32 q) ∧
        (named .vec = true → t.core.vec.entry = true ∧ t.core.vec.pfx = none ∧ t.core.vec.q = Vector.replicate 8 [] ∧
          t.core.vec.v = Vector.replicate 32 0 ∧ t.core.vec.m = Vector.replicate 8 0) ∧
        (named .vec = false → t.core.vec = s.core.vec) ∧
        (named .mtx = true → t.core.mtx.d = Vector.replicate 16 0) ∧ (named .mtx = false → t.core.mtx = s.core.mtx) ∧
        (starts .ast → t.astro.s = forkRegs s.lrec 4 s.core.task.idx ∧ t.astro.core = some s.core.num ∧
          t.astro.task = s.core.task.idx ∧ t.astro.g = Vector.replicate 8 Gate.reset ∧ t.astro.st = none ∧
          t.astro.qseq = s.core.task.qseq ∧ t.astro.kop = 0 ∧ t.astro.wait = none ∧ t.astro.stop = none) ∧
        (¬starts .ast → t.dies = s.dies ∧ t.others = s.others))) ∧
  ∀ (r : BitVec 4608) (k idx : Nat),
    let g := forkRegs r k idx
    g.run = .running ∧ g.draw = 0 ∧ g.p = 0 ∧ g.pc = BitVec.ofNat 64 (lrCodeBase r k + lrEntry r k) ∧
    ∀ i : BitVec 5, g.getX i = if i = 1 then BitVec.ofNat 64 idx
      else if 8 ≤ i.toNat ∧ i.toNat < 12 then lrXinitK r k (i.toNat - 8) else 0
  ) ∧
  (
  ∀ s : State,
    (s.joined = false → exec .join s = .next (s.block .ctl)) ∧
    (s.joined = true → ∃ t, exec .join s = .next t ∧ t.ctl = s.ctl.skip 4 ∧ t.mem = s.mem ∧ t.core.pad = s.core.pad ∧
      t.core.acc = s.core.acc ∧ t.core.task.guards = [] ∧ t.core.adds = [] ∧ (∀ q, q ≠ .ctl → t.forked q = false) ∧
      (∀ (k : Nat) (h : k < 240), s.forkedEngs.contains t.core.hold[k] = true →
        ∃ r ∈ t.core.transit, r.first ≤ k ∧ k < r.first + r.count) ∧
      ∀ (f : Nat) (h : f < 64), t.core.task.flags[f] =
        let g := s.core.task.flags[f]
        if g.hold = true ∧ s.forkedEngs.contains g.cons = true then { g with value := 0 } else g)
  )

/-- 01 R24, 13 R432: a `REND` ends its stream. That of the control stream raises `TX_STATE` in an open or voted transaction, waits
like `JOIN` and for every child job, and ends the task: with a failure that no fence has reported the job ends with it (02 R90), else
the next task of the core is resident. A `NOP` only moves on. -/
def Obligations.EndsOfStreams : Prop :=
  ∀ s : State,
    (s.core.vec.pfx = none → ∀ t,
      exec (.vscalRend t) s = .next ((s.mapVec fun v => { v with
        s := { v.s with run := .ended }, q := Vector.replicate 8 [] }).pastWord .vec) ∧
      exec (.vscalNop t) s = .next (s.pastWord .vec)) ∧
    (∀ e, exec (.scalNop e) s = .next (s.pastWord (strm64 e)) ∧
      (e ≠ .ast → exec (.scalRend e) s = .next ((s.mapStrm (strm64 e) fun r => { r with run := .ended }).pastWord (strm64 e)))) ∧
    (s.astro.st = none ∨ s.core.task.qmapbase = 0 → exec (.scalRend .ast) s =
      .next (((s.mapAstro fun a => { a with st := none }).mapStrm .ast fun r => { r with run := .ended }).pastWord .ast)) ∧
    (s.core.task.tx.st = 1 ∨ s.core.task.tx.st = 2 → exec .rend s = .next (s.faults .ctl .txState 0 0)) ∧
    (s.core.task.tx.st = 0 ∨ s.core.task.tx.st = 3 →
      (s.joined = false ∨ (∃ c ∈ s.core.task.children, c.done = false) → exec .rend s = .next (s.block .ctl)) ∧
      (s.joined = true → (∀ c ∈ s.core.task.children, c.done = true) → s.core.walks ≠ [] → exec .rend s = .next s) ∧
      (s.joined = true → (∀ c ∈ s.core.task.children, c.done = true) → s.core.walks = [] → s.core.task.walkFail = [] →
        s.core.task.nmFails = none →
        let u := if s.core.task.tx.st = 3 then s.joinEnd.txClose else s.joinEnd
        exec .rend s = .next u.endTask ∧
        (∀ f rest, s.core.task.failures = f :: rest → exec .rend s =
          .next (u.endJob (s.core.job.getD 0) 2 (if f.kind = .lost then 0x22 else 0x23) 0 0 f.va)) ∧
        (s.core.task.failures = [] → s.core.task.st = .resident → ∀ n, s.nextTask = some n → n.st = .fresh →
          ∃ t, exec .rend s = .next t ∧ t.core.task.idx = n.idx ∧ t.core.task.st = .resident ∧ t.ctl = n.ctl ∧ t.mem = s.mem ∧
            t.core.pad = [])))

/-- 01 R26, R29, R32: `SSYNC` with no scope, a scope wider than `SPAN` or an X of 2^20 or more raises `RANGE`; otherwise it waits like
`JOIN`. Then a task that is not the last of its core is saved, and the next one starts or goes on; the last one arrives, and the word is
not passed until the release. That `EARLY` and `PENDING` stand at the quad node or a wider one only is log 20.

01 R26, R27, R30, 02 R71, R75, 04 R155: a job on one core is released two cycles behind its arrival at a `.core` barrier, the cores of a
quad, die or package that all arrive alike L cycles behind the last of them, those of a pod group 48 cycles behind its release, unless
other packages differ; the exchange phase ends X cycles later; then `SSYNC` writes the release cycle to its register and moves on, or
raises `SUPERSTEP_CONFLICT`, and counts as observed then too (log 20). Nothing happens at either event before it is due. -/
def Obligations.Barriers : Prop :=
  (
  ∀ (s : State) (d a : BitVec 6) (sc : BitVec 3), s.freeX [d, a] →
    let x := (s.ctl.getX a).toNat
    let y : Sync := { sc := sc.toNat, x := x, rd := d }
    (sc ≠ 7 → sc = 0 ∨ lrSpan s.lrec < sc.toNat ∨ 2 ^ 20 ≤ x → exec (.ssync d a sc) s = .next (s.faults .ctl .range 0 0)) ∧
    (sc ≠ 0 → sc ≠ 7 → sc.toNat ≤ lrSpan s.lrec → x < 2 ^ 20 →
      (s.joined = true → s.core.walks = [] → s.core.task.walkFail = [] → s.core.task.nmFails = none → s.core.task.st = .resident →
        ∀ n u, (s.syncs y).nextTask = some n → (s.syncs y).saveTask = .ok u →
          (n.st = .fresh → ∃ t, exec (.ssync d a sc) s = .next t ∧ t.core.task.idx = n.idx ∧ t.core.task.st = .resident ∧ t.ctl = n.ctl ∧
            t.core.bar = s.core.bar ∧ t.core.pad = [] ∧ (∀ (k : Nat) (h : k < 240), t.core.hold[k] = .ctl) ∧
            ∃ w ∈ t.core.others, w.idx = s.core.task.idx ∧ w.sync = some y ∧ w.ctl = s.ctl) ∧
          (n.st ≠ .fresh → ∀ w, u.restoreTask n = .ok w → exec (.ssync d a sc) s = .next w.retire)) ∧
      (s.joined = false → exec (.ssync d a sc) s = .next (s.block .ctl)) ∧
      (s.joined = true → s.core.walks = [] → s.core.task.walkFail = [] → s.core.task.nmFails = none → s.nextTask = none →
        s.core.arrived = [] → s.core.task.st = .resident →
        ∃ t, exec (.ssync d a sc) s = .next t ∧ t.ctl = s.ctl ∧ t.mem = s.mem ∧ t.core.pad = s.core.pad ∧
          t.core.task.sync = some y ∧ t.core.transit = [] ∧
          (2 ≤ sc.toNat ∧ s.pendingRel = true → t.core.bar.early = some s.chron.toNat ∧ t.core.bar.arr = s.core.bar.arr) ∧
          (sc.toNat < 2 ∨ s.pendingRel = false → t.core.bar.arr = some s.chron.toNat ∧ t.core.bar.early = s.core.bar.early)))
  ) ∧
  (
  (∀ (s : State) (id : BitVec 16) (r : RemoteArrivals) (j : Job) (y : Sync) (b : Nat), s.jobAt id.toNat = some j →
    s.coresOf id.toNat = [s.core] → s.core.live = [s.core.task] → s.core.task.st ≠ .ended → s.core.task.sync = some y → y.sc = 1 →
    s.core.bar.arr = some b → (∀ o ∈ s.objs, o.job ≠ j.id) → j.id = id.toNat →
    (s.chron.toNat < b + 2 → exec (.barrierRelease 1 id r) s = .next s) ∧
    (b + 2 ≤ s.chron.toNat → ∃ t, exec (.barrierRelease 1 id r) s = .next t ∧ t.core.task.stampbase = BitVec.ofNat 64 (b + 2) ∧
      t.core.bar.rel = some 1 ∧ t.core.bar.arr = none ∧ t.core.bar.till = some (b + 2 + y.x) ∧ t.mem = s.mem ∧ t.ctl = s.ctl)) ∧
  (∀ (s : State) (id : BitVec 16) (sc : BitVec 3) (r : RemoteArrivals) (j : Job) (a : Arrival) (u : Nat), s.jobAt id.toNat = some j →
    let cs := s.coresOf id.toNat
    let released (t : State) (b : Nat) : Prop := t.mem = s.mem ∧ ∀ c ∈ cs,
      let k := t.coreAt c.num
      k.bar.arr = none ∧ k.bar.rel = some sc.toNat ∧ k.bar.till = some (b + a.x) ∧ k.pad = (s.coreAt c.num).pad ∧
        (∀ w ∈ k.task :: k.others, w.st ≠ .ended → w.stampbase = BitVec.ofNat 64 b) ∧
        (s.recs = [] → r.conflicts = 0 → k.bar.conf = none)
    cs ≠ [] → (∀ c ∈ cs, unitOf sc.toNat c.num = u ∧ c.live ≠ [] ∧ c.arrival = some a) → a.sc = sc.toNat → (∀ o ∈ s.objs, o.job ≠ j.id) →
    (2 ≤ sc.toNat → sc.toNat ≤ 4 →
      let b := lastArrival cs + latency sc.toNat
      (s.chron.toNat < b → exec (.barrierRelease sc id r) s = .next s) ∧
      (b ≤ s.chron.toNat → ∃ t, exec (.barrierRelease sc id r) s = .next t ∧ released t b)) ∧
    (sc = 5 → s.alone j = false → r.agree = true → ∃ t, exec (.barrierRelease sc id r) s = .next t ∧ released t (s.chron.toNat + 48)) ∧
    (sc = 5 → s.alone j = true → r.agree = true → lastArrival cs + 48 ≤ s.chron.toNat →
      ∃ t, exec (.barrierRelease sc id r) s = .next t ∧ released t (lastArrival cs + 48))) ∧
  ∀ (s : State) (j : Job),
    (s.tillDue s.core = false → exec .exchangeEnd s = .next s) ∧
    (s.tillDue s.core = true → s.job = some j → j.preq = none → s.core.live = [s.core.task] → ∀ y, s.core.task.sync = some y →
      ∃ t, exec .exchangeEnd s = .next t ∧ t.core.bar.till = none ∧ t.mem = s.mem ∧ t.core.pad = s.core.pad ∧
        t.core.task.counts = s.core.task.counts.bump y.sc ∧
        match s.core.bar.conf with
        | none => t.ctl = (s.ctl.setX y.rd s.core.task.stampbase).skip 4 ∧ t.core.task.sync = none ∧ t.core.stop = none
        | some (n, va) => t.ctl = s.ctl.setX y.rd s.core.task.stampbase ∧
            ∃ r, t.core.stop = some r ∧ r.cause = .superstepConflict ∧ r.faddr = BitVec.ofNat 64 va ∧
              r.finfo = BitVec.ofNat 32 (min n (2 ^ 32 - 1)))
  )

/-- 04 R150, 01 R12: a reduction of a scope that is no die or wider, or wider than `SPAN`, raises `RANGE`, as does an address outside
the virtual class, and one that is no multiple of the operand's size `ALIGN`; a reduction that `place` serves enters
its queue when that has room (01 R14), for the home of its word, with the low bytes of its register, and memory stays.

02 R82, R83, R90: the oldest reduction on its way reaches its home. On an integer word of ordinary memory it writes the result there
and nowhere else; a floating one enters the exact accumulator of its word, which is allocated from the bytes it finds, and memory
stays; one that its home refuses leaves a failure for a fence. -/
def Obligations.Reductions : Prop :=
  (
  ∀ (s : State) (v a : BitVec 6) (t : BitVec 4) (sc : BitVec 3), s.freeX [v, a] →
    let ea := s.ctl.getX a
    let n := redSize t.toNat
    ∀ i op, (i, op) ∈ [(Instr.redAdd v a t sc, 0), (.redMin v a t sc, 1), (.redMax v a t sc, 2), (.redAnd v a t sc, 3),
        (.redOr v a t sc, 4), (.redXor v a t sc, 5)] → sc ≠ 7 →
      (sc.toNat < 3 ∨ lrSpan s.lrec < sc.toNat → exec i s = .next (s.faults .ctl .range 0 0)) ∧
      (3 ≤ sc.toNat → sc.toNat ≤ lrSpan s.lrec →
        (ea.toNat % n ≠ 0 → exec i s = .next (s.faults .ctl .align (if ea.toNat / 2 ^ 56 = 0 then ea.toNat else 0) 0)) ∧
        (ea.toNat % n = 0 → ea.toNat / 2 ^ 56 ≠ 0 → exec i s = .next (s.faults .ctl .range 0 0)) ∧
        (ea.toNat % n = 0 → ea.toNat / 2 ^ 56 = 0 → ∀ g r, s.served .ctl .red (min sc.toNat 5) ea n (.mem [g] r) →
          16 ≤ s.queued .ctl → exec i s = .next s) ∧
        (ea.toNat % n = 0 → ea.toNat / 2 ^ 56 = 0 → ∀ g r, s.served .ctl .red (min sc.toNat 5) ea n (.mem [g] r) → s.roomFor →
          s.queued .ctl < 16 → ∃ x, exec i s = .next x ∧ x.ctl = s.ctl.skip 4 ∧ x.mem = s.mem ∧ x.core.pad = s.core.pad ∧
            x.core.task.flags = s.core.task.flags ∧ x.accs = s.accs ∧
            x.reds = s.reds ++ [{
              core := s.core.num, away := false, job := s.core.job.getD 0, asid := s.asid, seq := s.core.task.seq, task := s.core.task.idx,
              cnt := s.core.task.counts, pa := g.pa, va := ea.toNat, key := s.key, op := op, ty := t.toNat, val := BitVec.ofNat 64 ((s.ctl.getX v).toNat % 2 ^ (8 * n)),
              fail := if r = [] then none else some .refused }]))
  ) ∧
  (
  ∀ (s : State) (m : RedMsg) (rest : List RedMsg), s.reds = m :: rest →
    let n := redSize m.ty
    (∀ k, m.fail = some k → m.core = s.core.num → m.away = false → ∃ t, exec .redApply s = .next t ∧ t.reds = rest ∧ t.mem = s.mem ∧ t.accs = s.accs ∧
      t.core.task.failures = s.core.task.failures ++ [{
        eng := .ctl, seq := m.seq, kind := k, level := s.homeLevel m.pa, va := m.va, count := 1 }]) ∧
    (m.fail = none → s.plainAt m.pa n m.key = true → m.pa % n = 0 → s.mem.wf = true →
      (m.ty < 4 → ∃ t, exec .redApply s = .next t ∧ t.reds = rest ∧ t.accs = s.accs ∧
        ∀ c, t.mem.get c = if m.pa ≤ c ∧ c < m.pa + n then
            (natLe n (redInt m.op m.ty (leNat (s.mem.read m.pa n)) m.val.toNat)).getD (c - m.pa) 0
          else s.mem.get c) ∧
      (4 ≤ m.ty → s.sliceFull m.pa m.ty = false → ∃ t, exec .redApply s = .next t ∧ t.reds = rest ∧ t.mem = s.mem ∧
        let z : RedAcc := {
          pa := m.pa, job := m.job, key := m.key, ty := m.ty, n := 0, pinf := false, ninf := false, nan := false, count := 0,
          negz := true, spilled := false, who := [] }
        t.accs = s.accs ++ [(z.contribute (leNat (s.mem.read m.pa n))).enter m]))
  )

/-- 04 R159: the prefetch and the pinning of code lines take at most 2^20 bytes. `IPF` to L2, which the model does not hold (log 9), or of
lines that are cached, only moves on; it makes a missing line, which it translates, resident. `IUNPIN` removes the lines of its range from the table, which stay cached as
ordinary lines; `IPIN` adds the lines of the code sections in its range, up to 256, counts them and makes them resident and pinned.

04 R160, R161: an access of a CSR without a meaning, or closed to the access now, raises `RANGE`; a privileged one in job mode
`PRIVILEGE`. A read gives the CSR's value; a write waits for the stream's earlier commands and sets it, if its owner takes the value.
`RKEY` and a narrow-format descriptor are written so too, and `RKEY` zeroes the draw counters (03 R109, R126). -/
def Obligations.PinsAndControlRegisters : Prop :=
  (
  ∀ (s : State) (d a b : BitVec 6) (l : BitVec 1), s.freeX [d, a, b] →
    let va := (s.ctl.getX a).toNat
    let n := (s.ctl.getX b).toNat
    (2 ^ 20 < n → exec (.ipf a b l) s = .next (s.faults .ctl .range 0 0) ∧
      exec (.ipin d a b) s = .next (s.faults .ctl .range 0 0) ∧ exec (.iunpin a b) s = .next (s.faults .ctl .range 0 0)) ∧
    (n ≤ 2 ^ 20 →
      let ls := s.codeLines va n
      let has (u : State) (p : Nat) : Bool := (u.core.codeLine u.asid u.key p).isSome
      let line (p pa : Nat) : CodeLine := {
        asid := s.asid, key := s.key, va := p, data := BitVec.ofNat 1024 (leNat (s.mem.read pa 128)), pinned := false }
      let pins (u : State) (p : Nat) : State := u.mapCore fun c => { c with
        code := c.code.map fun x => if x.asid = s.asid ∧ x.key = s.key ∧ x.va = p then { x with pinned := true } else x }
      let out (p : Nat) : Prop := n ≠ 0 ∧ p < va + n ∧ va < p + 128
      (l = 1 ∨ ls = [] ∨ (∀ p ∈ ls, s.fetchBarred p = true ∨ has s p = true) → exec (.ipf a b l) s = .next s.advance) ∧
      (∀ p g r, ls = [p] → s.fetchBarred p = false → has s p = false → s.served .ctl .fetch 6 (BitVec.ofNat 64 p) 4 (.mem [g] r) →
        s.plainAt g.pa 128 s.key = true → exec (.ipf a b 0) s = .next (s.addCode (line p g.pa)).advance) ∧
      exec (.iunpin a b) s = .next (s.mapCore fun c => { c with
        code := c.code.map fun x => if out x.va then { x with pinned := false } else x
        task := { c.task with pins := c.task.pins.filter fun p => decide ¬out p } }).advance ∧
      (ls = [] → exec (.ipin d a b) s = .next (s.wrote d 0)) ∧
      (∀ p rest, ls = p :: rest → p ∉ s.core.task.pins → 256 ≤ s.core.task.pins.length →
        exec (.ipin d a b) s = .next (s.wrote d 0)) ∧
      (∀ p, ls = [p] → s.fetchBarred p = false → has s p = true →
        (p ∈ s.core.task.pins → exec (.ipin d a b) s = .next ((pins s p).wrote d 0)) ∧
        ∀ g r, p ∉ s.core.task.pins → s.core.task.pins.length < 256 → s.served .ctl .ipin 6 (BitVec.ofNat 64 p) 128 (.mem [g] r) →
          exec (.ipin d a b) s = .next ((pins (s.mapTask fun t => { t with pins := t.pins ++ [p] }) p).wrote d 1)) ∧
      ∀ p g r k q, ls = [p] → s.fetchBarred p = false → has s p = false → p ∉ s.core.task.pins → s.core.task.pins.length < 256 →
        s.served .ctl .ipin 6 (BitVec.ofNat 64 p) 128 (.mem [g] r) →
        let u := s.mapTask fun t => { t with pins := t.pins ++ [p] }
        u.served .ctl .ipin 6 (BitVec.ofNat 64 p) 4 (.mem [k] q) → s.plainAt k.pa 128 s.key = true →
        exec (.ipin d a b) s = .next ((pins (u.addCode (line p k.pa)) p).wrote d 1))
  ) ∧
  (
  (∀ (s : State) (d : BitVec 6) (c : BitVec 12), s.freeX [d] →
    (csrOf c = none → exec (.csrr d c) s = .next (s.faults .ctl .range 0 0) ∧ exec (.csrw d c) s = .next (s.faults .ctl .range 0 0)) ∧
    ∀ r, csrOf c = some r →
      exec (.csrr d c) s = .next (
        if s.csrOpen r false = false then s.faults .ctl .range 0 0
        else if s.core.mode = .job ∧ r.privileged false = true then s.faults .ctl .privilege 0 0
        else s.wrote d (BitVec.ofNat 64 (s.csrGet r))) ∧
      (s.csrOpen r true = false → exec (.csrw d c) s = .next (s.faults .ctl .range 0 0)) ∧
      (s.csrOpen r true = true → s.core.mode = .job ∧ r.privileged true = true →
        exec (.csrw d c) s = .next (s.faults .ctl .privilege 0 0)) ∧
      (s.csrOpen r true = true → s.core.mode = .firmware ∨ r.privileged true = false →
        s.outstanding .ctl s.core.task.seq = false → s.csrTakes r (s.ctl.getX d) = true →
        exec (.csrw d c) s = .next (s.csrSet r (s.ctl.getX d)).advance)) ∧
  (∀ (s : State) (a : BitVec 6) (k : BitVec 3), exec (.rkeyWrite a) s = exec (.csrw a 0x048) s ∧
    exec (.nfdWrite k a) s = exec (.csrw a (0x040#12 + k.setWidth 12)) s) ∧
  (∀ k : BitVec 3, csrOf (0x040#12 + k.setWidth 12) = some (.nfd k.toNat)) ∧ csrOf 0x048 = some .rkey ∧
  ∀ (s : State) (v : Word),
    (s.csrSet .rkey v).core.task.rkey = v ∧ (s.csrSet .rkey v).core.vec.s.draw = 0 ∧ (s.csrSet .rkey v).core.mtx.s.draw = 0 ∧
    (s.csrSet .rkey v).core.cpy.s.draw = 0 ∧
    (∀ (k : Nat) (h : k < 8), (s.csrSet (.nfd k) v).core.task.nfd[k] = BitVec.ofNat 5 v.toNat) ∧
    s.csrGet (.core 1) = s.core.task.idx ∧ s.csrGet (.core 6) = s.core.num ∧ s.csrGet (.core 0x0C) = s.key.toNat ∧
    s.csrGet (.core 0x11) = (if s.core.mode = .firmware then 1 else 0)
  )

/-- 04 R164, 01 R18: `LAUNCH` names an aligned record and a count flag that control consumes and no outstanding child uses. A record
that fails a condition of R18 raises `LAUNCH` with the sub-code, the lowest whose row of the table of R18 it fails; one that passes
joins the jobs as a child in the parent's address space, and memory stays. -/
def Obligations.LaunchOfAChild : Prop :=
  (∀ (s : State) (r : BitVec 4608),
    (s.recordFail r false = 0 ↔ ∀ k, ¬s.failsRow r k) ∧
    ∀ k, 0 < k → (s.recordFail r false = k ↔ s.failsRow r k ∧ ∀ j, j < k → ¬s.failsRow r j)) ∧
  ∀ (s : State) (f a : BitVec 6), s.freeX [a] →
    let va := s.ctl.getX a
    let g := s.core.task.flagAt f
    let wait := 16 ≤ (s.core.task.children.filter fun c => !c.done).length
    let free := ∀ c ∈ s.core.task.children, c.flag = f → c.done = true
    (va.toNat % 64 ≠ 0 → exec (.launch f a) s = .next (s.faults .ctl .align (if va.toNat / 2 ^ 56 = 0 then va.toNat else 0) 0)) ∧
    (va.toNat % 64 = 0 → (g.hold = true ∨ g.cons ≠ .ctl ∨ ¬free) → exec (.launch f a) s = .next (s.faults .ctl .range 0 0)) ∧
    (va.toNat % 64 = 0 → g.hold = false → g.cons = .ctl → free →
      (wait → exec (.launch f a) s = .next s) ∧
      (¬wait → s.outstanding .ctl s.core.task.seq = false → s.core.task.windowTouches va.toNat 576 = false →
        ∀ pa b, s.served .ctl .load 6 va 576 (.mem [{ va := va.toNat, pa := pa, len := 576 }] b) → s.plainAt pa 576 s.key = true →
        let r : BitVec 4608 := BitVec.ofNat 4608 (leNat (s.mem.read pa 576))
        let sub := s.recordFail r false
        let wide := lrSpan s.lrec < lrSpan r ∨ (4 < lrSpan r ∧ lrGroup r ≠ lrGroup s.lrec)
        (sub ≠ 0 → exec (.launch f a) s = .next (s.faults .ctl .launch va.toNat sub)) ∧
        (sub = 0 → wide → exec (.launch f a) s = .next (s.faults .ctl .range 0 0)) ∧
        (sub = 0 → ¬wide → ∀ p, s.job = some p → ∃ t, exec (.launch f a) s = .next t ∧ t.ctl = s.ctl.skip 4 ∧ t.mem = s.mem ∧
          t.core.task.flags = s.core.task.flags ∧
          t.core.task.children = s.core.task.children ++ [{ flag := f, job := s.nextJob, va := lrCompl r, done := false }] ∧
          ∃ j, t.jobs = s.jobs ++ [j] ∧ j.id = s.nextJob ∧ j.lrec = r ∧ j.asid = p.asid ∧ j.root = p.root ∧ j.key = p.key ∧
            j.prio = min (lrPrio r) p.prio ∧ j.st = .waiting ∧ j.parent = some (p.id, s.core.num, s.core.task.idx, f))))

/-- 08 R285 to R290: a window changes while no stream is forked and once the control stream's commands have completed. `WINOFF` disables
it; `WINCFG` takes a disabled descriptor, or an enabled one that R285 accepts; `WINQ` answers with the window, its generator and the
element at an address, or 0. -/
def Obligations.WindowWords : Prop :=
  ∀ (s : State) (w : BitVec 4) (d a : BitVec 6), s.freeX [d, a] →
    let va := s.ctl.getX a
    let x (n : Nat) : BitVec 1024 := (s.core.task.wins.toList.getD n Window.reset).img
    (s.anyForkedA = true → exec (.winoff w) s = .next (s.faults .ctl .range 0 0) ∧
      exec (.wincfg w a) s = .next (s.faults .ctl .range 0 0)) ∧
    (s.anyForkedA = false → s.outstanding .ctl s.core.task.seq = true → exec (.winoff w) s = .next s) ∧
    (s.anyForkedA = false → s.outstanding .ctl s.core.task.seq = false →
      exec (.winoff w) s = .next (s.setWin w.toNat Window.reset).advance ∧
      (va.toNat % 64 ≠ 0 → exec (.wincfg w a) s =
        .next (s.faults .ctl .align (if va.toNat / 2 ^ 56 = 0 then va.toNat else 0) 0)) ∧
      (va.toNat % 64 = 0 → s.core.task.windowTouches va.toNat 128 = false →
        ∀ pa b, s.served .ctl .load 6 va 128 (.mem [{ va := va.toNat, pa := pa, len := 128 }] b) → s.plainAt pa 128 s.key = true →
        (Place.mem [{ va := va.toNat, pa := pa, len := 128 }] b).lines.any s.core.task.redLines.contains = false → s.roomFor →
        let c : BitVec 1024 := BitVec.ofNat 1024 (leNat (s.mem.read pa 128))
        ∀ win : Window, (c.getLsbD 0 = false ∧ win = Window.reset) ∨
            (c.getLsbD 0 = true ∧ wAccepted s.core.task.nfd c ∧ win = { en := true, img := c, theta := [] }) →
          ∃ t, exec (.wincfg w a) s = .next t ∧ t.ctl = s.ctl.skip 4 ∧ t.mem = s.mem ∧ t.core.pad = s.core.pad ∧
            t.core.task.wins = s.core.task.wins.set w.toNat win)) ∧
    (2 ^ 48 ≤ va.toNat ∨ s.core.task.windowAt va.toNat = none → exec (.winq d a) s = .next (s.wrote d 0)) ∧
    ∀ n, va.toNat < 2 ^ 48 → s.core.task.windowAt va.toNat = some n →
      let size := (vecTy s.core.task.nfd (wFmt (x n))).width / 8
      exec (.winq d a) s = .next (s.wrote d (BitVec.ofNat 64
        (1 + 2 * n + 32 * wGen (x n) + 256 * ((va.toNat - wBase (x n)) / size % 2 ^ 40))))

/-- 05 R183, R190 to R192, R196, R197: the integer and move instructions give each active element of their register the value of the
table from the elements of their sources, wrapped or, under `SAT`, clamped, and send it down the pipeline; a field that does not fit
raises `RANGE`. Nothing else changes but the stream registers that were read. -/
def Obligations.VectorIntegers : Prop :=
  ∀ (s u : State) (d x : BitVec 5) (a b c : BitVec 6) (y : BitVec 3) (o : BitVec 6) (k : BitVec 7) (im : BitVec 32) (h t : BitVec 1)
      (xs : List VReg),
    let w := s.elemBits
    let el (j e : Nat) : Nat := vget (xs.getD j 0) w e
    let signed : Bool := y.getLsbD 2
    let num (j e : Nat) : Int := if signed then Int.bmod (el j e) (2 ^ w) else el j e
    let lo : Int := if signed then -(2 ^ (w - 1)) else 0
    let hi : Int := if signed then 2 ^ (w - 1) - 1 else 2 ^ w - 1
    let fit (v : Int) : Nat := ((if s.vctl.sat then max lo (min hi v) else v) % 2 ^ w).toNat
    let field (v n : Nat) : Nat := if signed then (Int.bmod (v % 2 ^ n) (2 ^ n) % 2 ^ w).toNat else v % 2 ^ n
    let done (i : Instr) (n : Nat) (f : Nat → Nat) : Prop := exec i s = .next (u.gives (.v d (s.masked d w s.elems f)) n)
    (s.reads .sat t (some (viW y)) [d] [a, b] xs u →
      done (.viadd d a b y t) 4 (fun e => fit (num 0 e + num 1 e)) ∧ done (.visub d a b y t) 4 (fun e => fit (num 0 e - num 1 e)) ∧
      done (.vimul d a b y t) 4 fun e => fit (num 0 e * num 1 e)) ∧
    (s.reads .sat t (some (viW y)) [d] [a, b, c] xs u → done (.vimad d a b c y t) 8 fun e => fit (num 0 e * num 1 e + num 2 e)) ∧
    (s.reads .mask t (some (viW y)) [d] [a, b] xs u →
      done (.vshl d a b y t) 4 (fun e => el 0 e * 2 ^ (el 1 e % w)) ∧ done (.vshr d a b y t) 4 (fun e => el 0 e / 2 ^ (el 1 e % w)) ∧
      done (.vsar d a b y t) 4 (fun e => (Int.bmod (el 0 e) (2 ^ w) / 2 ^ (el 1 e % w) % 2 ^ w).toNat) ∧
      done (.vand d a b y t) 4 (fun e => el 0 e &&& el 1 e) ∧ done (.vor d a b y t) 4 (fun e => el 0 e ||| el 1 e) ∧
      done (.vxor d a b y t) 4 (fun e => el 0 e ^^^ el 1 e)) ∧
    (s.reads .mask t (some (viW y)) [d] [a] xs u →
      done (.vpopc d a y t) 4 (fun e => (List.range w).countP fun i => (el 0 e).testBit i) ∧
      done (.vclz d a y t) 4 (fun e => if el 0 e = 0 then w else w - 1 - Nat.log2 (el 0 e)) ∧
      (1 ≤ k.toNat → o.toNat + k.toNat ≤ w →
        done (.vbfx d a y o k t) 8 (fun e => field (el 0 e / 2 ^ o.toNat) k.toNat) ∧
        done (.vbfi d a y o k t) 8 fun e =>
          let old := vget (s.core.vec.v.toList.getD d.toNat 0) w e
          let v : Int := if signed then max (-(2 ^ (k.toNat - 1))) (min (2 ^ (k.toNat - 1) - 1) (num 0 e)) else min (2 ^ k.toNat - 1) (num 0 e)
          old % 2 ^ o.toNat + (v % 2 ^ k.toNat).toNat * 2 ^ o.toNat + old / 2 ^ (o.toNat + k.toNat) * 2 ^ (o.toNat + k.toNat)) ∧
      (k.toNat = 0 ∨ w < o.toNat + k.toNat → exec (.vbfx d a y o k t) s = .next (s.faults .vec .range 0 0) ∧
        exec (.vbfi d a y o k t) s = .next (s.faults .vec .range 0 0))) ∧
    (s.reads .mask t (some (viW y)) [d] [a, b] xs u →
      (1 ≤ k.toNat → k.toNat ≤ w → o.toNat + k.toNat ≤ 2 * w →
        done (.vfsh d a b y o k t) 8 fun e => field ((el 0 e * 2 ^ w + el 1 e) / 2 ^ o.toNat) k.toNat) ∧
      (k.toNat = 0 ∨ w < k.toNat ∨ 2 * w < o.toNat + k.toNat → exec (.vfsh d a b y o k t) s = .next (s.faults .vec .range 0 0))) ∧
    (s.reads .mask t none [d] [a] xs u → done (.vmov d a t) 4 (el 0)) ∧
    (s.reads .mask t none [d] [] xs u →
      (s.vecFree [] [] [x] → done (.vbcast d x t) 4 fun _ => (s.core.vec.s.getX x).toNat % 2 ^ w) ∧
      done (.vbcastImm d im h t) 8 fun _ =>
        if w ≤ 32 then im.toNat % 2 ^ w else if h = 1 then im.toNat * 2 ^ 32 else (BitVec.ofInt 64 im.toInt).toNat)

/-- 05 R183 to R187, 03 R112: the floating instructions give each active element of their register the exact result of its sources,
rounded once under the control of the bundle, with random bits under a stochastic mode; the exact forms give an operand or qnan. What
`VEXP2` and `VLOG2` round is their result to 256 bits and a sticky bit (log 10). -/
def Obligations.VectorFloats : Prop :=
  ∀ (s u v : State) (d : BitVec 5) (a b c : BitVec 6) (y : BitVec 3) (t : BitVec 1) (xs : List VReg) (rb : Nat → Nat),
    let F := vfmt y
    let w := s.elemBits
    let fl := s.vctl.flush
    let rdn : Bool := decide (s.vctl.mode = 3)
    let op (j e : Nat) : Exact := F.operand fl (vget (xs.getD j 0) w e)
    let code (j e : Nat) : Nat := flushCode F fl (vget (xs.getD j 0) w e)
    let sign (n : Nat) : Bool := n.testBit (F.width - 1)
    let rounded (i : Instr) (n : Nat) (f : Nat → Exact) : Prop := u.roundBits = some (rb, v) →
      exec i s = .next (v.gives (.v d (s.masked d w s.elems fun e => roundFull F s.vctl.mode s.vctl.sat fl (f e) (rb e))) n)
    let exact (i : Instr) (f : Nat → Nat) : Prop := exec i s = .next (u.gives (.v d (s.masked d w s.elems f)) 4)
    (s.reads .all t (some F.width) [d] [a, b] xs u →
      rounded (.vadd d a b y t) 4 (fun e => exactSum rdn [op 0 e, op 1 e]) ∧
      rounded (.vsub d a b y t) 4 (fun e => exactSum rdn [op 0 e, (op 1 e).neg]) ∧
      rounded (.vmul d a b y t) 4 (fun e => (op 0 e).mul (op 1 e)) ∧ rounded (.vdiv d a b y t) 4 fun e => (op 0 e).div (op 1 e)) ∧
    (s.reads .all t (some F.width) [d] [a] xs u →
      rounded (.vsqrt d a y t) 4 (fun e => (op 0 e).sqrt) ∧ rounded (.vrcp d a y t) 4 (fun e => (op 0 e).rcp) ∧
      rounded (.vexp2 d a y t) 4 (fun e => (op 0 e).exp2) ∧ rounded (.vlog2 d a y t) 4 fun e => (op 0 e).log2) ∧
    (s.reads .all t (some F.width) [d] [a, b, c] xs u →
      rounded (.vfma d a b c y t) 8 (fun e => exactSum rdn [(op 0 e).mul (op 1 e), op 2 e]) ∧
      rounded (.vfms d a b c y t) 8 (fun e => exactSum rdn [(op 0 e).mul (op 1 e), (op 2 e).neg]) ∧
      rounded (.vnfma d a b c y t) 8 fun e => exactSum rdn [((op 0 e).mul (op 1 e)).neg, op 2 e]) ∧
    (s.reads .flush t (some F.width) [d] [a, b] xs u →
      exact (.vmin d a b y t) (fun e => fpPick F false (code 0 e) (code 1 e)) ∧
      exact (.vmax d a b y t) (fun e => fpPick F true (code 0 e) (code 1 e)) ∧
      exact (.vcps d a b y t) fun e => if (F.decode (code 0 e)).isNan then F.nanc
        else code 0 e % 2 ^ (F.width - 1) + if sign (code 1 e) then 2 ^ (F.width - 1) else 0) ∧
    (s.reads .flush t (some F.width) [d] [a] xs u →
      exact (.vabs d a y t) (fun e => if (F.decode (code 0 e)).isNan then F.nanc else code 0 e % 2 ^ (F.width - 1)) ∧
      exact (.vneg d a y t) fun e => if (F.decode (code 0 e)).isNan then F.nanc
        else code 0 e % 2 ^ (F.width - 1) + if sign (code 0 e) then 0 else 2 ^ (F.width - 1))

/-- 05 R188, R189, R205: comparisons give the bits of the active elements and clear those above the shape; `VSEL` selects by a mask; the
mask instructions combine the bits of the shape's elements, count them and find the first. -/
def Obligations.VectorMasks : Prop :=
  ∀ (s u : State) (m k l : BitVec 3) (d : BitVec 5) (a b : BitVec 6) (y : BitVec 3) (c : BitVec 4) (t : BitVec 1) (xs : List VReg),
    let F := vfmt y
    let w := s.elemBits
    let n := s.elems
    let el (j e : Nat) : Nat := vget (xs.getD j 0) w e
    let num (j e : Nat) : Int := if y.getLsbD 2 then Int.bmod (el j e) (2 ^ w) else el j e
    let reg (r : BitVec 3) : MReg := s.core.vec.m.toList.getD r.toNat 0
    let low : MReg := BitVec.ofNat 2048 (2 ^ n - 1)
    (s.reads .flush t (some F.width) [] [a, b] xs u → s.vecFree [] [m] [] →
      exec (.vcmp m a b y c t) s = .next (u.gives (.m m (s.maskedBits m n fun e =>
        fpCond c.toNat (F.operand s.vctl.flush (el 0 e)) (F.operand s.vctl.flush (el 1 e)))) 4)) ∧
    (s.reads .mask t (some (viW y)) [] [a, b] xs u → s.vecFree [] [m] [] →
      exec (.vcmpInt m a b y c t) s = .next (u.gives (.m m (s.maskedBits m n fun e => decide (
        if c = 0 then num 0 e = num 1 e else if c = 1 then num 0 e ≠ num 1 e else if c = 2 then num 0 e < num 1 e
        else if c = 3 then num 0 e ≥ num 1 e else if c = 4 then num 0 e ≤ num 1 e else num 0 e > num 1 e))) 4)) ∧
    (s.reads .none t none [d] [a, b] xs u → s.vecFree [] [k] [] →
      exec (.vsel d a b k t) s = .next (u.gives (.v d (vput (s.core.vec.v.toList.getD d.toNat 0) w n fun e =>
        el (if (reg k).getLsbD e then 0 else 1) e)) 4)) ∧
    (s.begins .none t → s.shapeIs none → s.vecFree [] [m, k, l] [d] →
      exec (.mand m k l t) s = .next (s.gives (.m m (reg k &&& reg l &&& low)) 4) ∧
      exec (.mor m k l t) s = .next (s.gives (.m m ((reg k ||| reg l) &&& low)) 4) ∧
      exec (.mxor m k l t) s = .next (s.gives (.m m ((reg k ^^^ reg l) &&& low)) 4) ∧
      exec (.mnot m k t) s = .next (s.gives (.m m (~~~reg k &&& low)) 4) ∧
      exec (.mpopc d k t) s = .next (s.gives (.x (d.setWidth 6)
        (BitVec.ofNat 64 ((List.range n).countP fun e => (reg k).getLsbD e))) 4) ∧
      ∃ v : Word, exec (.mfirst d k t) s = .next (s.gives (.x (d.setWidth 6) v) 4) ∧
        (v = BitVec.allOnes 64 ∧ (∀ e, e < n → (reg k).getLsbD e = false) ∨
          v.toNat < n ∧ (reg k).getLsbD v.toNat = true ∧ ∀ e, e < v.toNat → (reg k).getLsbD e = false))

/-- 05 R194 to R196, R199, R200, R198: the layout forms move the elements of the shape; a reduction puts the result of the active
inputs of each row or column in element j and 0 in the others; the bit network routes bits; `VSHAPESET` takes a shape that fits. -/
def Obligations.VectorLayout : Prop :=
  ∀ (s u v : State) (d x : BitVec 5) (a b : BitVec 6) (y p : BitVec 3) (r t : BitVec 1) (xs : List VReg) (rb : Nat → Nat),
    let w := s.elemBits
    let n := s.elems
    let rows := shRows s.core.task.vshape
    let cols := shCols s.core.task.vshape
    let el (j e : Nat) : Nat := vget (xs.getD j 0) w e
    let old : VReg := s.core.vec.v.toList.getD d.toNat 0
    let at_ (i : Instr) (f : Nat → Nat → Nat × Nat) : Prop := exec i s = .next (u.gives (.v d (vput old w n fun e =>
      let g := f (e / cols) (e % cols)
      el 0 (g.1 * cols + g.2))) 4)
    (s.reads .none t none [d] [a] xs u →
      (rows = cols → at_ (.vtrans d a t) fun i j => (j, i)) ∧
      (rows ≠ cols → exec (.vtrans d a t) s = .next (s.faults .vec .shape 0 (n * w))) ∧
      (s.vecFree [] [] [x] → at_ (.vrotRow d a x t) (fun i j => (i, (j + (s.core.vec.s.getX x).toNat) % cols)) ∧
        at_ (.vrotCol d a x t) fun i j => ((i + (s.core.vec.s.getX x).toNat) % rows, j))) ∧
    (s.reads .none t none [d] [a, b] xs u → exec (.vperm d a b t) s = .next (u.gives (.v d (vput old w n fun e =>
      if el 1 e < n then el 0 (el 1 e) else 0)) 4)) ∧
    (let inputs (j : Nat) : List Nat := (if r = 1 then (List.range rows).map fun i => i * cols + j
        else (List.range cols).map fun i => j * cols + i).filter s.active
     let m := if r = 1 then cols else rows
     let red (i : Instr) (z : State) (f : Nat → Nat) : Prop :=
      exec i s = .next (z.gives (.v d (vput old w n fun j => if j < m then f j else 0)) 4)
     let F := vfmt y
     (s.reads .all t (some F.width) [d] [a] xs u → u.roundBits = some (rb, v) →
      red (.vredsum d a y 0 r t) v fun j => roundFull F s.vctl.mode s.vctl.sat s.vctl.flush
        (exactSum (decide (s.vctl.mode = 3)) ((inputs j).map fun e => F.operand s.vctl.flush (el 0 e))) (rb j)) ∧
     (s.reads .flush t (some F.width) [d] [a] xs u →
      red (.vredmax d a y 0 r t) u (fun j => fpBest F true ((inputs j).map fun e => flushCode F s.vctl.flush (el 0 e))) ∧
      red (.vredmin d a y 0 r t) u fun j => fpBest F false ((inputs j).map fun e => flushCode F s.vctl.flush (el 0 e))) ∧
     (s.reads .mask t (some (viW y)) [d] [a] xs u →
      red (.vredsum d a y 1 r t) u (fun j => ((inputs j).map (el 0)).sum % 2 ^ w) ∧
      red (.vredmax d a y 1 r t) u (fun j => intBest y true ((inputs j).map (el 0))) ∧
      red (.vredmin d a y 1 r t) u fun j => intBest y false ((inputs j).map (el 0)))) ∧
    (s.begins .none t → s.vecFree (d :: vecRegs [a, b]) [] [] → s.popped 2048 [a, b] = some (xs, u) →
      ∃ z : VReg, exec (.bnet d a b p t) s = .next (({ u with free := u.free + 256 } : State).gives (.v d z) 4) ∧ ∀ j, j < 32 →
        vget z 64 j = bnetChunk (s.core.task.bnpat.toList.getD p.toNat 0) (vget (xs.getD 0 0) 64 j) (vget (xs.getD 1 0) 64 j)) ∧
    (s.begins .none t → s.vecFree (vecRegs [a]) [] [] → s.popped 56 [a] = some (xs, u) →
      exec (.bnload a p t) s = .next ((u.mapTask fun k => { k with
        bnpat := k.bnpat.set p.toNat (BitVec.ofNat 448 (xs.getD 0 0).toNat) }).vecDone 4)) ∧
    ∀ (rr : BitVec 7) (c : BitVec 12) (wl : BitVec 2), s.begins .none t →
      let fits := shapeFits rr.toNat c.toNat wl.toNat
      (fits = true → ∃ z, exec (.vshapeset rr c wl t) s = .next (z.vecDone 4) ∧ z = s.mapTask (fun k => { k with vshape := z.core.task.vshape }) ∧
        shRows z.core.task.vshape = rr.toNat ∧ shCols z.core.task.vshape = c.toNat ∧ shW z.core.task.vshape = 8 * 2 ^ wl.toNat) ∧
      (fits = false → exec (.vshapeset rr c wl t) s = .next (s.faults .vec .shape 0 (rr.toNat * c.toNat * (8 * 2 ^ wl.toNat))))

/-- 05 R193, 03 R116: `VCVT` converts the elements of the shape, whose number alone it uses, from one type to another; too many bytes
of either type raise `SHAPE`, a descriptor that is unset `RANGE`.

05 R204, 03 R125 to R128: a draw takes one value of the stream's draw counter for all its elements, under the task key or, with
`KSEL`, the step key; the words give the active elements the low bits of the draw, a uniform number or a Bernoulli bit. -/
def Obligations.VectorConversionAndDraws : Prop :=
  (
  ∀ (s u v : State) (d : BitVec 5) (a : BitVec 6) (dt st : BitVec 5) (t : BitVec 1) (xs : List VReg) (rb : Nat → Nat),
    let n := s.elems
    let A := vecTy s.core.task.nfd st
    let B := vecTy s.core.task.nfd dt
    let unset := nfdUnset s.core.task.nfd st || nfdUnset s.core.task.nfd dt
    s.begins .all t →
    (16384 < n * A.width → exec (.vcvt d a dt st t) s = .next (s.faults .vec .shape 0 (n * A.width))) ∧
    (n * A.width ≤ 16384 → 16384 < n * B.width → exec (.vcvt d a dt st t) s = .next (s.faults .vec .shape 0 (n * B.width))) ∧
    (n * A.width ≤ 16384 → n * B.width ≤ 16384 → unset = true → exec (.vcvt d a dt st t) s = .next (s.faults .vec .range 0 0)) ∧
    (n * A.width ≤ 16384 → n * B.width ≤ 16384 → unset = false → s.vecFree (d :: vecRegs [a]) s.maskRegs [] →
      s.popped (n * A.width / 8) [a] = some (xs, u) → u.roundBits = some (rb, v) →
      exec (.vcvt d a dt st t) s = .next (v.gives (.v d (s.masked d B.width n fun e =>
        convert B A s.vctl.mode s.vctl.sat s.vctl.flush (vget (xs.getD 0 0) A.width e) (rb e))) 8))
  ) ∧
  (
  ∀ (s u : State) (d x : BitVec 5) (m : BitVec 3) (y : BitVec 3) (t : BitVec 1) (g : Nat → Mix), s.begins .ksel t →
    (s.vctl.ksel = true → s.core.task.tx.st = 0 → s.shapeIs (some (viW y)) → s.vecFree [d] s.maskRegs [] →
      exec (.vrand d y t) s = .next (s.faults .vec .txState 0 0)) ∧
    (s.draws 4 = some (g, u) →
      (s.shapeIs (some (viW y)) → s.vecFree [d] s.maskRegs [] → exec (.vrand d y t) s =
        .next (u.gives (.v d (s.masked d s.elemBits s.elems fun e => (mixLow (g e)).toNat % 2 ^ viW y)) 4)) ∧
      (s.shapeIs (some (vfmt y).width) → s.vecFree [d] s.maskRegs [] → exec (.vrandF d y t) s =
        .next (u.gives (.v d (s.masked d s.elemBits s.elems fun e => uniform (vfmt y) (g e))) 4)) ∧
      (s.shapeIs none → s.vecFree [] (m :: s.maskRegs) [x] →
        let p := (s.core.vec.s.getX x).toNat
        (0x10000 < p → exec (.vmaskp m x t) s = .next (s.faults .vec .range 0 0)) ∧
        (p ≤ 0x10000 → exec (.vmaskp m x t) s =
          .next (u.gives (.m m (s.maskedBits m s.elems fun e => decide ((g e).1.toNat % 2 ^ 16 < p))) 4))))
  )

/-- 05 R202, R203, 08 R282: a row of a `VLD` or `VST` lies at its base, offset and stride; rows served in the scratchpad or in memory, or
for a `VLD` by an ephemeris window, are loaded into, or stored from, the active elements, and no other byte changes; a `VST` that meets
a window raises `EPHEMERIS_STORE`. `VLDA` and `VSTA` do so with an accumulator that the vector engine holds and that the tile fits in. -/
def Obligations.VectorMemory : Prop :=
  ∀ (s : State) (d a x : BitVec 5) (wl q : BitVec 2) (o : BitVec 20) (c : BitVec 4) (i j : BitVec 6) (t : BitVec 1) (off : Nat → Nat),
    let w := s.elemBits
    let n := s.elems
    let rows := shRows s.core.task.vshape
    let cols := shCols s.core.task.vshape
    let eb := w / 8
    let old : VReg := s.core.vec.v.toList.getD d.toNat 0
    let ea (r : Nat) : Word := s.core.vec.s.getX a + BitVec.ofInt 64 o.toInt + BitVec.ofNat 64 r * s.core.vec.s.getX x
    (s.reads .mask t (some (8 * 2 ^ wl.toNat)) [d] [] [] s → s.vecFree [] [] [a, x] →
      (∀ r, r < rows → (ea r).toNat % eb = 0 ∧ s.served .vec .vld 6 (ea r) (cols * eb) (.pad (off r))) →
      exec (.vld d a x wl q o t) s = .next (s.gives (.v d (s.masked d w n fun e =>
        leNat (s.core.pad.read (off (e / cols) + e % cols * eb) eb))) 8)) ∧
    (s.reads .merge t (some (8 * 2 ^ wl.toNat)) [d] [] [] s → s.vecFree [] [] [a, x] →
      (∀ r, r < rows → (ea r).toNat % eb = 0 ∧ s.served .vec .vst 6 (ea r) (cols * eb) (.pad (off r))) →
      (∀ r z, r < z → z < rows → off r + cols * eb ≤ off z ∨ off z + cols * eb ≤ off r) → s.core.pad.wf = true →
      ∃ u, exec (.vst d a x wl q o t) s = .next u ∧ u.mem = s.mem ∧ u.core.vec = (s.vecDone 8).core.vec ∧ u.ctl = s.ctl ∧
        u.core.pad.wf = true ∧ ∀ k, u.core.pad.get k = (match (List.range n).find? fun e =>
          s.active e && decide (off (e / cols) + e % cols * eb ≤ k) && decide (k < off (e / cols) + e % cols * eb + eb) with
        | some e => (natLe eb (vget old w e)).getD (k - (off (e / cols) + e % cols * eb)) 0
        | none => s.core.pad.get k)) ∧
    (s.reads .mask t (some (8 * 2 ^ wl.toNat)) [d] [] [] s → s.vecFree [] [] [a, x] → ∀ p : Nat → Place,
      (∀ r, r < rows → (ea r).toNat % eb = 0 ∧ s.served .vec .vld 6 (ea r) (cols * eb) (p r) ∧ s.plainPlace (p r)) → s.roomForRows rows →
      ∃ rc, exec (.vld d a x wl q o t) s = .next (({ s with recs := rc } : State).gives (.v d (s.masked d w n fun e =>
        leNat ((List.range eb).map fun k => s.placeByte (p (e / cols)) (e % cols * eb + k)))) 8)) ∧
    (s.reads .merge t (some (8 * 2 ^ wl.toNat)) [d] [] [] s → s.vecFree [] [] [a, x] →
      (∀ p : Nat → Place,
        let cell (e k : Nat) : Option (Bool × Nat) := (p (e / cols)).cell (e % cols * eb + k)
        (∀ r, r < rows → (ea r).toNat % eb = 0 ∧ s.served .vec .vst 6 (ea r) (cols * eb) (p r) ∧ s.plainPlace (p r)) →
        (∀ e k z y, e < n → k < eb → z < n → y < eb → cell e k = cell z y → e = z ∧ k = y) →
        s.mem.wf = true → s.core.pad.wf = true → s.roomForRows rows →
        ∃ u, exec (.vst d a x wl q o t) s = .next u ∧ u.core.vec = (s.vecDone 8).core.vec ∧ u.ctl = s.ctl ∧
          (∀ e k b, e < n → k < eb → s.active e = true → cell e k = some b →
            u.cellByte b = (natLe eb (vget old w e)).getD k 0) ∧
          ∀ b, (∀ e k, e < n → k < eb → s.active e = true → cell e k ≠ some b) → u.cellByte b = s.cellByte b) ∧
      ∀ wn, (ea 0).toNat % eb = 0 → (ea 0).toNat / 2 ^ 56 ≠ 0xFE → (ea 0).toNat + cols * eb ≤ 2 ^ 48 →
        s.core.task.windowAt (ea 0).toNat = some wn →
        exec (.vst d a x wl q o t) s = .next (s.faults .vec .ephemerisStore (ea 0).toNat wn)) ∧
    (s.shapeIs none →
      (s.begins .mask t ∧ w ≠ 32 → exec (.vlda d c i j t) s = .next (s.faults .vec .shape 0 (n * w))) ∧
      (w = 32 → s.vecFree [d] s.maskRegs [] →
        let out := 64 < i.toNat + rows ∨ 64 < j.toNat + cols
        let mine := s.core.holds .vec (224 + c.toNat) = true
        let acc : AccImg := s.core.acc.toList.getD c.toNat 0
        (s.begins .mask t → (out → exec (.vlda d c i j t) s = .next (s.faults .vec .range 0 0)) ∧
          (¬out → ¬mine → exec (.vlda d c i j t) s = .next (s.faults .vec .segmentHolder 0 0)) ∧
          (¬out → mine → exec (.vlda d c i j t) s = .next (s.gives (.v d (s.masked d 32 n fun e =>
            (accGet acc (i.toNat + e / cols) (j.toNat + e % cols)).toNat)) 4))) ∧
        (s.begins .merge t → ¬out → mine → ∃ u, exec (.vsta d c i j t) s = .next u ∧ u.mem = s.mem ∧ u.core.pad = s.core.pad ∧
          u.core.vec = (s.vecDone 4).core.vec ∧
          (∀ k, k ≠ c → u.core.acc.toList.getD k.toNat 0 = s.core.acc.toList.getD k.toNat 0) ∧
          ∀ r z, r < 64 → z < 64 → accGet (u.core.acc.toList.getD c.toNat 0) r z =
            if i.toNat ≤ r ∧ r < i.toNat + rows ∧ j.toNat ≤ z ∧ z < j.toNat + cols ∧
                s.active ((r - i.toNat) * cols + (z - j.toNat)) = true then
              BitVec.ofNat 32 (vget old 32 ((r - i.toNat) * cols + (z - j.toNat)))
            else accGet acc r z)))

/-- 05 R176, R177, R182: a prefix joins the bundle under way, `PFX.RND` first and each at most once, else `BAD_PREFIX` at the bundle's
first word; every instruction (`vecTakes`: by its row of R182) that does not take the prefixes before it raises `BAD_PREFIX`, and one
with `T` = 1 behind a prefix `ORPHAN_PREFIX`.

05 R206, R210, R211: `VQSKIP` pops entries as they arrive, and passes when it has popped its count; the oldest instruction of the
pipeline writes its register when it completes, and no other. -/
def Obligations.VectorPrefixesAndPipeline : Prop :=
  (
  ∀ (s : State) (k f st : BitVec 1) (m : BitVec 3) (z : BitVec 1) (n : BitVec 3) (t : BitVec 1),
    let p : Pfx := s.core.vec.pfx.getD { base := s.core.vec.s.pc, rnd := none, msk := none }
    let off := (s.core.vec.s.pc - p.base).toNat
    let joins (q : Pfx) : State := s.mapVec fun v => { v with s := v.s.skip 4, pfx := some q }
    exec (.pfxRnd k f st m t) s = .next (if p.rnd = none ∧ p.msk = none then
        joins { p with rnd := some (decide (k = 1), decide (f = 1), decide (st = 1), m) }
      else s.faults .vec .badPrefix p.base.toNat off) ∧
    exec (.pfxMsk z n t) s = .next (if p.msk = none then joins { p with msk := some (decide (z = 1), n) }
      else s.faults .vec .badPrefix p.base.toNat off) ∧
    ∀ i rule u q, vecTakes i = some (rule, u) → s.core.vec.pfx = some q →
      (u = 1 → exec i s = .next (s.faults .vec .orphanPrefix q.base.toNat off)) ∧
      (u = 0 → rule.takes q = false → exec i s = .next (s.faults .vec .badPrefix q.base.toNat off))
  ) ∧
  (
  (∀ (s : State) (q : BitVec 3) (c : BitVec 6) (t : BitVec 1), s.core.vec.pfx = none →
    let es := s.core.vec.q.toList.getD q.toNat []
    let left := c.toNat + 1 - s.core.vec.skip
    exec (.vqskip q c t) s = .next (
      if left ≤ es.length then
        (s.mapVec fun v => { v with q := v.q.set q.toNat (es.drop left), skip := 0 }).vecDone 4
      else (s.mapVec fun v => { v with q := v.q.set q.toNat [], skip := v.skip + es.length }).block .vec)) ∧
  ∀ (s : State) (n : Nat) (w : RegWrite) (rest : List (Nat × List RegWrite)), s.core.vec.out = (n, [w]) :: rest →
    ∃ u, exec .vectorCompletion s = .next u ∧ u.mem = s.mem ∧ u.ctl = s.ctl ∧ u.core.pad = s.core.pad ∧
      (s.core.adds = [] → u.core.task.flags = s.core.task.flags) ∧
      u.core.vec = (let v := { s.core.vec with out := rest }
        match w with
        | .v d x => { v with v := v.v.set d.toNat x }
        | .m d x => { v with m := v.m.set d.toNat x }
        | .x d x => { v with s := v.s.setX (BitVec.ofNat 5 d.toNat) x })
  )

/-- 05 R209, 04 R141, R145: the scalar words of the vector stream compute on its 64-bit registers and predicates; a branch that is
taken goes to a target word of the code section, else it raises `RANGE`; a `LOOP` of x0 is never taken (log 13).

06 R243, 04 R141, R145: the scalar words that the 64-bit streams share compute on the registers and predicates of their stream;
a branch that is taken outside the code section raises `RANGE` and leaves its register; a `LOOP` of x0 is never taken (log 13). -/
def Obligations.StreamScalars : Prop :=
  (
  (∀ (s : State) (d a b : BitVec 5) (i19 : BitVec 19) (i49 : BitVec 49) (i11 : BitVec 11) (i6 : BitVec 6) (t : BitVec 1),
    s.core.vec.pfx = none → s.vecFree [] [] [d, a, b] →
    let x := s.core.vec.s.getX a
    let y := s.core.vec.s.getX b
    let wr (i : Instr) (n : Nat) (v : Word) : Prop := exec i s = .next ((s.mapVec fun e => { e with s := e.s.setX d v }).vecDone n)
    wr (.vscalLi d i19 t) 4 (BitVec.ofInt 64 i19.toInt) ∧ wr (.vscalLi64 d i49 t) 8 (BitVec.ofInt 64 i49.toInt) ∧
    wr (.vscalAdd d a b t) 4 (x + y) ∧ wr (.vscalAddImm d a i11 t) 4 (BitVec.ofInt 64 (x.toInt + i11.toInt)) ∧
    wr (.vscalSub d a b t) 4 (x - y) ∧ wr (.vscalSubImm d a i11 t) 4 (BitVec.ofInt 64 (x.toInt - i11.toInt)) ∧
    wr (.vscalShl d a b t) 4 (BitVec.ofNat 64 (x.toNat * 2 ^ (y.toNat % 64))) ∧
    wr (.vscalShlImm d a i6 t) 4 (BitVec.ofNat 64 (x.toNat * 2 ^ i6.toNat)) ∧
    wr (.vscalAnd d a b t) 4 (x &&& y) ∧ wr (.vscalAndImm d a i11 t) 4 (x &&& BitVec.ofInt 64 i11.toInt)) ∧
  (∀ (s : State) (p c : BitVec 3) (u : BitVec 1) (a b : BitVec 5) (i : BitVec 11) (t : BitVec 1), c.toNat < 6 →
    s.core.vec.pfx = none → s.vecFree [] [] [a, b] →
    let x := s.core.vec.s.getX a
    let wr (v : Bool) : Host.Outcome State Fault Refusal := .next ((s.mapVec fun e => { e with s := e.s.setP p v }).vecDone 4)
    exec (.vscalCmp p c u a b t) s = wr (cmpHolds c u x (s.core.vec.s.getX b)) ∧
    exec (.vscalCmpImm p c u a i t) s = wr (cmpHolds c u x (BitVec.ofInt 64 i.toInt))) ∧
  ∀ (s : State) (t : BitVec 1) (a : BitVec 5) (p : BitVec 3) (n : BitVec 1) (o : Int), s.core.vec.pfx = none → s.vecFree [] [] [a] →
    let pc := s.core.vec.s.pc + BitVec.ofInt 64 (4 * o)
    let dec := s.core.vec.s.getX a - 1
    let inside := lrCodeBase s.lrec 1 ≤ pc.toNat ∧ pc.toNat < lrCodeBase s.lrec 1 + lrCodeLen s.lrec 1
    let code (go : State → State) (i : Instr) : Prop :=
      (¬inside → exec i s = .next (s.faults .vec .range 0 0)) ∧
      ∀ w, inside → s.codeWord pc.toNat = some w → exec i s = .next (if w.getLsbD 1 = true then
        go (s.mapVec fun v => { v with s := { v.s with pc := pc } }) else s.faults .vec .range 0 0)
    let down (u : State) : State := u.mapVec fun v => { v with s := v.s.setX a dec }
    (∀ k : BitVec 24, o = k.toInt → code id (.vscalBr k t)) ∧
    (∀ k : BitVec 20, o = k.toInt →
      (s.core.vec.s.p.getLsbD p.toNat = decide (n = 0) → code id (.vscalBc p n k t)) ∧
      (s.core.vec.s.p.getLsbD p.toNat ≠ decide (n = 0) → exec (.vscalBc p n k t) s = .next (s.vecDone 4))) ∧
    ∀ k : BitVec 19, o = k.toInt →
      (a ≠ 0 → dec ≠ 0 → code down (.vscalLoop a k t)) ∧
      (a = 0 ∨ dec = 0 → exec (.vscalLoop a k t) s = .next (down (s.vecDone 4)))
  ) ∧
  (
  ∀ (s : State) (e : Strm64) (d a b : BitVec 5) (p c : BitVec 3) (n u : BitVec 1) (i16 : BitVec 16) (i32 o : BitVec 32),
    let k := strm64 e
    let r := s.strm32 k
    let x := r.getX a
    let y := r.getX b
    let im : Word := BitVec.ofInt 64 i16.toInt
    let wr (v : Word) : Host.Outcome State Fault Refusal := .next (s.mapStrm k fun g => (g.setX d v).skip 8)
    let wp (v : Bool) : Host.Outcome State Fault Refusal := .next (s.mapStrm k fun g => (g.setP p v).skip 8)
    let pc := r.pc + BitVec.ofInt 64 (8 * o.toInt)
    let inside := lrCodeBase s.lrec (strmCode k) ≤ pc.toNat ∧ pc.toNat < lrCodeBase s.lrec (strmCode k) + lrCodeLen s.lrec (strmCode k)
    let go (f : Strm32 → Strm32) : Host.Outcome State Fault Refusal :=
      .next (if inside then s.mapStrm k fun g => f { g with pc := pc } else s.faults k .range 0 0)
    exec (.scalLi e d i32) s = wr (BitVec.ofInt 64 i32.toInt) ∧
    exec (.scalAdd e d a (.reg b)) s = wr (x + y) ∧ exec (.scalAdd e d a (.imm i16)) s = wr (x + im) ∧
    exec (.scalSub e d a (.reg b)) s = wr (x - y) ∧ exec (.scalSub e d a (.imm i16)) s = wr (x - im) ∧
    exec (.scalShl e d a (.reg b)) s = wr (BitVec.ofNat 64 (x.toNat * 2 ^ (y.toNat % 64))) ∧
    exec (.scalShl e d a (.imm i16)) s = wr (BitVec.ofNat 64 (x.toNat * 2 ^ (i16.toNat % 64))) ∧
    exec (.scalAnd e d a (.reg b)) s = wr (x &&& y) ∧ exec (.scalAnd e d a (.imm i16)) s = wr (x &&& im) ∧
    (c.toNat < 6 → exec (.scalCmp e p c u a (.reg b)) s = wp (cmpHolds c u x y) ∧
      exec (.scalCmp e p c u a (.imm i16)) s = wp (cmpHolds c u x im)) ∧
    exec (.scalBr e o) s = go id ∧
    exec (.scalBc e p n o) s =
      (if r.p.getLsbD p.toNat = decide (n = 0) then go id else .next (s.mapStrm k fun g => g.skip 8)) ∧
    exec (.scalLoop e a o) s =
      (if a ≠ 0 ∧ x - 1 ≠ 0 then go (fun g => g.setX a (x - 1)) else .next (s.mapStrm k fun g => (g.skip 8).setX a (x - 1)))
  )

/-- 07 R267: every form of the translation engine's instructions raises `PRIVILEGE` in job mode, and in firmware mode waits until the
control stream's earlier commands have completed.

07 R257, R267, R268, R274, R275: `TLBINV` and `TLBINVR` drop the entries of a page or range of an address space in the dies of their
scope, and in the cores that the directories name for the leaf that a walk of its start finds, in every core where an entry above level
0 stops that walk; they complete once no access through one is in transit; `PGCOLL` and `PGPROT` complete in the same way. Operations
on one address space run one at a time. `WALKSTAT` writes what a walk finds; `KEYRET` clears a key that no admitted job uses, and
drops its code lines. No byte of memory changes. The order of their parts, and a malformed entry taken like an absent one, are log 23. -/
def Obligations.TranslationWords : Prop :=
  (
  ∀ (s : State) (a b c : BitVec 6) (sc z : BitVec 3) (w f : BitVec 1), s.freeX [a, b, c] →
    ∀ i ∈ [Instr.tlbinv a b sc, .tlbinvr c a b sc, .pgsplit c a b z, .pgdup c a b, .pgcoll c a b w, .pgmove c a b f, .pgprot c a b,
      .walkstat c a b, .keyret a],
      (s.core.mode = .job → exec i s = .next (s.faults .ctl .privilege 0 0)) ∧
      (s.core.mode = .firmware → s.outstanding .ctl s.core.task.seq = true → exec i s = .next s)
  ) ∧
  (
  ∀ (s : State) (a b c : BitVec 6) (sc : BitVec 3), s.freeX [a, b, c] → s.core.mode = .firmware →
    s.outstanding .ctl s.core.task.seq = false →
    let va := (s.ctl.getX a).toNat
    let n := (s.ctl.getX c).toNat
    let ds := if sc = 3 then [s.core.num / 64] else [0, 1, 2, 3]
    s.core.xlt = none →
    (sc ≠ 3 → sc ≠ 4 → sc ≠ 7 → exec (.tlbinv a b sc) s = .next (s.faults .ctl .range 0 0) ∧
      exec (.tlbinvr c a b sc) s = .next (s.faults .ctl .range 0 0)) ∧
    (∀ asid root, s.inUse b asid root → s.xltAlone asid →
      (sc = 3 ∨ sc = 4 → s.cleanTables →
        let shoots (i : Instr) (v m : Nat) : Prop := ∃ t, exec i s = .next t ∧ t.mem = s.mem ∧ t.noEntries asid v m ds ∧
          (∀ e size pa, s.walk root v = .leaf e size pa → ∀ k ∈ s.core :: s.others, k.die ∈ ds → s.dirNames k asid (pa / 128 * 128) →
            t.coreDropped k.num asid v m) ∧
          (∀ lvl why e, s.walk root v = .absent lvl why e → lvl ≠ 0 → ∀ k ∈ s.core :: s.others, k.die ∈ ds →
            t.coreDropped k.num asid v m) ∧
          if s.inTransit asid v m none then t.ctl = s.ctl ∧ t.core.xlt = some (XltWait.new asid v m 1)
          else t.ctl = s.ctl.skip 4 ∧ t.core.xlt = none
        shoots (.tlbinv a b sc) (va / 4096 * 4096) 4096 ∧
        (n = 0 ∨ 2 ^ 47 < n → exec (.tlbinvr c a b sc) s = .next (s.faults .ctl .range 0 0)) ∧
        (0 < n → n ≤ 2 ^ 47 → shoots (.tlbinvr c a b sc) va n)) ∧
      exec (.walkstat c a b) s = .next ((s.walked root va).wrote c (walkstatWord (s.walk root va))) ∧
      (s.cleanTables → s.walked root va = s)) ∧
    (∀ asid root, s.inUse b asid root → (∃ k ∈ s.others, k.stop = none ∧ ∃ w, k.xlt = some w ∧ w.asid = asid ∧ w.stage ≠ 0) →
      ∀ i ∈ [Instr.walkstat c a b, .tlbinv a b 3, .tlbinvr c a b 4, .pgsplit b a b 0, .pgdup b a b, .pgcoll b a b 0, .pgmove b a b 0,
        .pgprot b a b], exec i s = .next (s.mapCore fun k => { k with
          xlt := some { XltWait.new asid 0 0 0 with since := s.chron.toNat } })) ∧
    (let used := va = 0 ∨ 255 < va ∨ ∃ j ∈ s.jobs, j.st ≠ .waiting ∧ j.st ≠ .closing ∧ j.key.toNat = va
     (used → exec (.keyret a) s = .next (s.faults .ctl .range 0 0)) ∧
     (¬used →
      let u := s.eachCore fun k => { k with code := k.code.filter fun x => x.key.toNat ≠ va }
      ∃ ks, exec (.keyret a) s = .next ({ u with
        carafe := { u.carafe with keys := u.carafe.keys.filter fun x => x.id.toNat ≠ va, retired := ks } }.advance)))
  ) ∧
  (
  ∀ (s : State) (a b c : BitVec 6) (sc : BitVec 3) (w : BitVec 1) (x : XltWait), s.freeX [a, b, c] → s.core.mode = .firmware →
    s.outstanding .ctl s.core.task.seq = false → s.core.xlt = some x → x.stage ≠ 0 →
    ∀ i ∈ [Instr.tlbinv a b sc, .tlbinvr c a b sc, .pgcoll c a b w, .pgprot c a b],
      (s.inTransit x.asid x.va x.len x.src = true → exec i s = .next s) ∧
      (s.inTransit x.asid x.va x.len x.src = false → exec i s = .next (s.mapCore fun c => { c with xlt := none }).advance)
  )

/-- 07 R269 to R273, R262: the page operations rewrite the entry of a leaf, all 16 of a group: `PGPROT` its permissions, `PGCOLL` its
frame, out of the duplicate state, `PGMOVE` its frame, with the page copied for `F` = 1, `PGDUP` its frame, in the duplicate state,
with the page copied; `PGSPLIT` makes it a table of smaller leaves, or 16 leaves of a group. No entry of the page is left in a
die's TLB, or in that of a core that a directory names for it (R257); a page of a version region does not move, which is `RANGE` (log
33). While an access through a dropped entry is in transit, or for a move one to the old frame, the word has acted and waits. The
order of these parts is log 23.

07 R250, R253, R255, R256: a walk serves every waiting request for its page at once; a leaf that is not moving fills the TLB of the
die and of the cores that asked, and any other walk fills nothing. Memory stays. -/
def Obligations.PageOperationsAndWalks : Prop :=
  (
  ∀ (s : State) (a b c : BitVec 6) (p : Page), s.freeX [a, b, c] → s.core.mode = .firmware →
    s.outstanding .ctl s.core.task.seq = false → s.core.xlt = none → s.xltAlone p.asid → s.onPage a c p → s.mem.wf = true →
    p.root % 4096 = 0 → (∀ y ∈ s.sectors, y.err = []) → s.walked p.root (s.ctl.getX a).toNat = s →
    let x := s.ctl.getX b
    let tab := gaOf s.pkg p.tableAt.1
    s.plainAt tab p.tableAt.2 0 = true →
    let at_ (j : Nat) (base : Nat) := base + j * pageBytes (p.size / 2)
    let entries (t : State) (v : Nat → BitVec 64 → BitVec 64) : Prop := ∀ q ∈ p.entries, t.pte q.2 = v q.1 (s.pte q.2)
    let src := ptePkg p.leaf * 2 ^ 42 + p.frame
    let busy := s.inTransit p.asid p.va p.bytes none
    let moved := !s.inTransit p.asid p.va p.bytes (some src)
    let acts (i : Instr) (v : Nat → BitVec 64 → BitVec 64) (waits : Bool) (w : XltWait) : Prop := ∃ t, exec i s = .next t ∧ entries t v ∧
      t.noEntries p.asid p.va p.bytes [0, 1, 2, 3] ∧
      (∀ k ∈ s.core :: s.others, k.die < 4 → s.dirNames k p.asid (p.pa / 128 * 128) → t.coreDropped k.num p.asid p.va p.bytes) ∧
      (∀ k, k < tab ∨ tab + p.tableAt.2 ≤ k → t.mem.get k = s.mem.get k) ∧
      if waits then t.ctl = s.ctl ∧ t.core.xlt = some w else t.ctl = s.ctl.skip 4
    let sets (i : Instr) (v : Nat → BitVec 64 → BitVec 64) : Prop := acts i v busy (p.wait 1)
    let far := x.toNat / 2 ^ 42 % 2 ^ 12
    let pa := x.toNat % 2 ^ 41
    let frame := x.toNat / 2 ^ 54 = 0 ∧ x.getLsbD 41 = false ∧ pa % p.bytes = 0 ∧ pa + p.bytes ≤ dramSize
    let apart (n : Nat) := tab + p.tableAt.2 ≤ n ∨ n + p.bytes ≤ tab
    let copied (t : State) (dst : Nat) := ∀ k, k < p.bytes → t.mem.get (dst + k) = s.mem.get (src + k)
    let plainPage (dst : Nat) := s.accs = [] ∧ s.sectors = [] ∧ p.frame < 2 ^ 40 ∧ s.versioned src p.bytes = false ∧
      s.versioned dst p.bytes = false ∧ apart src ∧ apart dst
    (x &&& ~~~0x3D#64 = 0 → (x.getLsbD 3 = true → x.getLsbD 2 = true) → sets (.pgprot c a b) fun _ e => (e &&& ~~~0x3D#64) ||| x) ∧
    (¬(x &&& ~~~0x3D#64 = 0 ∧ (x.getLsbD 3 = true → x.getLsbD 2 = true)) →
      exec (.pgprot c a b) s = .next (s.faults .ctl .range 0 0)) ∧
    (p.leaf.getLsbD 5 = false → ∀ w, exec (.pgcoll c a b w) s = .next (s.faults .ctl .range 0 0)) ∧
    (p.leaf.getLsbD 5 = true → frame → ∀ w, sets (.pgcoll c a b w) fun j e =>
      withPkg (withPa (withBit (withBit e 5 false) 3 (decide (w = 1))) (at_ j pa)) far) ∧
    (p.leaf.getLsbD 8 = true → ∀ f, exec (.pgmove c a b f) s = .next (s.faults .ctl .range 0 0) ∧
      exec (.pgdup c a b) s = .next (s.faults .ctl .range 0 0)) ∧
    (p.leaf.getLsbD 8 = false → frame →
      let dst := far * 2 ^ 42 + pa
      (s.versioned src p.bytes = true ∨ s.versioned dst p.bytes = true →
        ∀ f, exec (.pgmove c a b f) s = .next (s.faults .ctl .range 0 0)) ∧
      (s.versioned src p.bytes = false → s.versioned dst p.bytes = false → moved = true →
        acts (.pgmove c a b 0) (fun j e => withPkg (withPa (withBit e 6 false) (at_ j pa)) far) false (p.wait 1)) ∧
      (s.versioned src p.bytes = false → s.versioned dst p.bytes = false → moved = false →
        ∀ f, acts (.pgmove c a b f) (fun _ e => withBit e 6 true) true (p.moving src (if f = 1 then none else some dst))) ∧
      (moved = true → plainPage dst → ∃ t, exec (.pgmove c a b 1) s = .next t ∧ t.ctl = s.ctl.skip 4 ∧
        (entries t fun j e => withPkg (withPa (withBit e 6 false) (at_ j pa)) far) ∧ copied t dst)) ∧
    (p.leaf.getLsbD 8 = false → x.toNat % p.bytes = 0 → x.toNat + p.bytes ≤ dramSize → busy = false → plainPage (gaOf s.pkg x.toNat) →
      ∃ t, exec (.pgdup c a b) s = .next t ∧ t.ctl = s.ctl.skip 4 ∧
        (entries t fun j e => withPkg (withPa (withBit e 5 true) (at_ j x.toNat)) s.pkg.toNat) ∧ copied t (gaOf s.pkg x.toNat)) ∧
    (p.leaf.getLsbD 8 = false → x.toNat % p.bytes = 0 → x.toNat + p.bytes ≤ dramSize → busy = true →
      sets (.pgdup c a b) fun _ e => withBit e 5 true) ∧
    (∀ z : BitVec 3, splitTable p.size z.toNat = none → exec (.pgsplit c a b z) s = .next (s.faults .ctl .range 0 0)) ∧
    (∀ z : BitVec 3, splitTable p.size z.toNat = some false →
      (b ≠ 0 → exec (.pgsplit c a b z) s = .next (s.faults .ctl .range 0 0)) ∧
      (b = 0 → ∃ t, exec (.pgsplit c a b z) s = .next t ∧ t.ctl = s.ctl.skip 4 ∧ entries t fun _ e => withBit e 7 false)) ∧
    ∀ z : BitVec 3, splitTable p.size z.toNat = some true → x.toNat % 4096 = 0 → x.toNat + 4096 ≤ dramSize →
      s.plainAt (gaOf s.pkg x.toNat) 4096 0 = true → (p.pa + 8 ≤ x.toNat ∨ x.toNat + 4096 ≤ p.pa) →
      ∃ t, exec (.pgsplit c a b z) s = .next t ∧ t.ctl = s.ctl.skip 4 ∧ t.pte p.pa = withPa 1#64 x.toNat ∧
        ∀ k, k < 512 → t.pte (x.toNat + 8 * k) =
          withPa (withBit p.leaf 7 (decide (z.toNat % 2 = 1))) (ptePa p.leaf + k * pageBytes (z.toNat / 2))
  ) ∧
  (
  ∀ (s : State) (die : BitVec 2) (asid : BitVec 16) (va : BitVec 48), s.cleanTables → ∃ t, exec (.pageWalk die asid va) s = .next t ∧
    t.mem = s.mem ∧ t.ctl = s.ctl ∧
    (∀ r ∈ (t.dieAt die.toNat).reqs, ¬(r.asid = asid ∧ r.va = va.toNat)) ∧
    ∀ root, s.rootOf asid = some root →
      (∀ lvl why e, s.walk root va.toNat = .absent lvl why e → (t.dieAt die.toNat).tlb = (s.dieAt die.toNat).tlb ∧
        t.core.tlb = s.core.tlb) ∧
      ∀ e size pa, s.walk root va.toNat = .leaf e size pa → e.getLsbD 6 = false →
        ∀ r ∈ (s.dieAt die.toNat).reqs, r.asid = asid → r.va = va.toNat →
          tlbEntry asid va.toNat e size pa ∈ (t.dieAt die.toNat).tlb ∧
          (r.core = s.core.num → tlbEntry asid va.toNat e size pa ∈ t.core.tlb)
  )

/-- 02 R88, R90, 11 R383: a fence waits behind its place in program order for the engines it names, of which only a forked
one has commands out, then writes the status word of the failures its scope covers, of a stream that has been joined too, and takes
them from the task; with none the word is zero. `NMFENCE.ARRAY` exists at `.sys` only and
waits for the write queues too. -/
def Obligations.Fences : Prop :=
  (∀ (s : State) (d : BitVec 6) (sc e : BitVec 3), s.freeX [d] →
    let n := s.core.marker.getD s.core.task.seq
    let engs : List Eng := Eng.ctl :: [Eng.vec, .mtx, .cpy].filter fun k => e.getLsbD (k.code - 1)
    let busy (k : Eng) : Prop := (k = .ctl ∨ s.forked k.strm = true) ∧ s.outstanding k n = true
    let queues := s.carafe.stks.toList.any fun k => k.wqueue ≠ []
    let body (i : Instr) (es : List Eng) (nm array : Bool) : Prop :=
      (sc ≠ 7 → lrSpan s.lrec < sc.toNat → exec i s = .next (s.faults .ctl .range 0 0)) ∧
      (sc ≠ 7 → sc.toNat ≤ lrSpan s.lrec →
        ((∃ k ∈ es, busy k) ∨ (array = true ∧ queues = true) →
          exec i s = .next (s.mapCore fun c => { c with marker := some n })) ∧
        ((∀ k ∈ es, ¬busy k) → (array = true → queues = false) →
          let fs := s.core.task.covered sc.toNat es n nm
          exec i s = .next (((s.mapCore fun c => { c with marker := none }).mapTask fun t => { t with
            failures := t.failures.filter fun f => decide (f ∉ fs) }).wrote d (fenceWord fs))))
    body (.mfence d sc e) engs false false ∧ body (.nmfence d sc) [.ctl] true false ∧
    (sc = 6 → body (.nmfenceArray d sc) [.ctl] true true) ∧
    (sc ≠ 6 → sc ≠ 7 → exec (.nmfenceArray d sc) s = .next (s.faults .ctl .range 0 0))) ∧
  ∀ l : List Failure, (l = [] → fenceWord l = 0) ∧
    (fenceWord l).getLsbD 0 = decide (∃ f ∈ l, f.kind = .lost) ∧ (fenceWord l).getLsbD 1 = decide (∃ f ∈ l, f.kind = .refused) ∧
    (fenceWord l).getLsbD 2 = decide (∃ f ∈ l, f.kind = .nm) ∧ (fenceWord l).getLsbD 3 = false ∧
    (l ≠ [] → (∀ f ∈ l, f.eng.code < 4) → ∃ f ∈ l,
      (∀ g ∈ l, f.eng.code < g.eng.code ∨ (f.eng.code = g.eng.code ∧ f.seq ≤ g.seq)) ∧
      (fenceWord l).extractLsb' 4 2 = BitVec.ofNat 2 f.eng.code ∧
      (fenceWord l).extractLsb' 6 10 = BitVec.ofNat 10 (min 1023 (l.map Failure.count).sum) ∧
      (fenceWord l).extractLsb' 16 48 = BitVec.ofNat 48 f.va)

/-- 02 R80, 04 R156, 12 R392, R397, R399, R403: `TOKPASS` passes the write token of a shared class 2 object that the task holds, at the next
release of its scope, behind the translation and class checks of a load of its header; `PUBLISH` starts a walk from a root that is a private object of the task; `PUBWAIT` waits for the walks, raises
the failure of the first that failed, and counts the objects marked; `RETRACT` takes an object that the task owns back at the next
release, unless it has passed its token since the last one. None of them changes a byte of memory.

12 R393, R394, R397: a walk whose root leads to no other object marks it, pending at the walk's scope, with its write token at the
task, writes its header and its entries of the class map, whose bytes are the device's own (log 32), and nothing else, and counts it; a
walk that meets an address without an object, or another task's private one, fails with `ESCAPE`. -/
def Obligations.PublicationAndWalks : Prop :=
  (
  ∀ (s : State) (a b d : BitVec 6) (sc : BitVec 3) (o : Obj), s.freeX [a, b, d] →
    let va := (s.ctl.getX a).toNat
    let t := (s.ctl.getX b).toNat
    let valid := va % 128 = 0 ∧ s.inHeap va = true ∧ s.headerAt va = some o ∧ s.mayLoad o = true
    let far := commonLevel s.core.num ((s.job.map fun j => j.place t).getD 0)
    let ok := 2 ≤ sc.toNat ∧ sc.toNat ≤ lrSpan s.lrec ∧ t < lrTasks s.lrec ∧ far ≤ sc.toNat
    let mine := o.cls = 2 ∧ o.token = s.core.task.idx ∧ o.retract = false
    let refuses := exec (.tokpass a b sc) s = .next (s.faults .ctl .accessRefused va 0)
    (¬ok → sc ≠ 7 → exec (.tokpass a b sc) s = .next (s.faults .ctl .range 0 0)) ∧
    (ok → ∀ f, place .ctl .load 6 (s.ctl.getX a) 16 s = .error (.trap f) →
      exec (.tokpass a b sc) s = .next (s.takeFault .ctl f)) ∧
    (ok → ∀ p, s.served .ctl .load 6 (s.ctl.getX a) 16 p →
      ((∀ g r, p ≠ .mem g r) → refuses) ∧ (s.headerAt va = none → refuses) ∧ (s.headerAt va = some o → ¬mine → refuses) ∧
      ∀ g r, p = .mem g r → s.headerAt va = some o → mine → exec (.tokpass a b sc) s =
        .next (s.mapObj va fun o => { o with pass := some (t, sc.toNat, s.core.task.counts.all) }).advance) ∧
    (sc ≠ 7 → (sc = 0 ∨ sc = 5 ∨ sc = 6 ∨ lrSpan s.lrec < sc.toNat ∨ s.anyForkedA = true) →
      exec (.publish a sc) s = .next (s.faults .ctl .range 0 0)) ∧
    (1 ≤ sc.toNat → sc.toNat ≤ 4 → sc.toNat ≤ lrSpan s.lrec → s.anyForkedA = false → valid →
      (o.otask ≠ s.core.task.idx ∨ o.cls ≠ 0 ∨ o.pend = true → exec (.publish a sc) s = .next (s.faults .ctl .range va 0)) ∧
      (o.otask = s.core.task.idx → o.cls = 0 → o.pend = false →
        (4 ≤ s.core.walks.length → exec (.publish a sc) s = .next s) ∧
        (s.core.walks.length < 4 → s.outstanding .ctl s.core.task.seq = false → exec (.publish a sc) s =
          .next (s.mapCore fun c => { c with walks := c.walks ++ [{ root := va, sc := sc.toNat }] }).advance))) ∧
    (s.core.walks ≠ [] → exec (.pubwait d) s = .next s) ∧
    (s.core.walks = [] →
      (∀ c w rest, s.core.task.walkFail = (c, w) :: rest →
        exec (.pubwait d) s = .next ((s.mapTask fun t => { t with walkFail := rest }).faults .ctl c w 1)) ∧
      (s.core.task.walkFail = [] → exec (.pubwait d) s = .next ((s.wrote d (BitVec.ofNat 64 s.core.task.marked)).mapTask fun t =>
        { t with marked := 0 }))) ∧
    (valid →
      (o.otask ≠ s.core.task.idx ∨ o.cls = 0 ∨ o.pend = true ∨ o.retract = true →
        exec (.retract a) s = .next (s.faults .ctl .range va 0)) ∧
      (o.otask = s.core.task.idx → o.cls ≠ 0 → o.pend = false → o.retract = false →
        let passed := ∃ w n, o.pass = some (w, n, s.core.task.counts.all)
        (o.cls = 2 → o.token ≠ s.core.task.idx ∨ passed → exec (.retract a) s = .next (s.faults .ctl .accessRefused va 0)) ∧
        ((o.cls = 2 → o.token = s.core.task.idx ∧ ¬passed) →
          exec (.retract a) s = .next (s.mapObj va fun o => { o with retract := true }).advance)))
  ) ∧
  (
  ∀ (s : State) (w : Walk) (rest : List Walk) (o : Obj) (g : Seg) (r : List (Nat × Nat)), s.core.walks = w :: rest →
    s.mem.wf = true → s.cleanTables →
    s.headerAt w.root = some o → s.served .ctl .load 6 (BitVec.ofNat 64 o.va) o.size (.mem [g] r) → g.len = o.size →
    s.plainAt g.pa o.size s.key = true → s.roomFor →
    let tags := ((s.physRead g.pa o.size (s.agent .ctl) 0).2.tags.filter fun x => x.2).map Prod.fst
    let words := (List.range (o.size / 8)).filter fun k => tags.contains (g.pa + 8 * k)
    let at_ (k : Nat) : Nat := leNat ((s.mem.read g.pa o.size).drop (8 * k) |>.take 8)
    (words = [] → ∃ t, exec .reachWalkComplete s = .next t ∧ t.core.walks = rest ∧ t.ctl = s.ctl ∧
      t.core.task.walkFail = s.core.task.walkFail ∧
      (∀ j, s.job = some j →
        let mark (o : Obj) : Obj := { o with
          pend := true, scope := w.sc, epoch := BitVec.ofNat 32 s.core.task.counts.all, token := o.otask, pass := none }
        t.core.task.marked = s.core.task.marked + 1 ∧ t.objs = (s.mapObj w.root mark).objs ∧ s.headed t j (mark o) o.owner.toNat)) ∧
    ∀ k ks, words = k :: ks →
      (s.headerAt (at_ k) = none ∨ ∃ p, s.headerAt (at_ k) = some p ∧ p.cls = 0 ∧ p.otask ≠ s.core.task.idx) →
      ∃ t, exec .reachWalkComplete s = .next t ∧ t.core.walks = rest ∧ t.ctl = s.ctl ∧ t.mem = s.mem ∧ t.objs = s.objs ∧
        ∃ u, t.core.task.walkFail = s.core.task.walkFail ++ [(.escape, u)] ∧ u = (o.va + 8 * k) % 2 ^ 64
  )

/-- 12 R390, R391, R401, R402: the reference instructions act on an aligned word of memory, checked as a store. `STREF` writes its
register and tags the word when it is not null, `REFTAG` tags a word that holds a valid reference, `REFCLR` clears the tag; the value of
the word under `REFTAG` and `REFCLR` stays, and so does every other byte. `OBJINIT` makes a private object of lines in the heap, with
its header in its first 16 bytes and its entries in the class map, whose bytes are the device's own (R386, R387, log 32). -/
def Obligations.ReferencesAndObjects : Prop :=
  ∀ (s : State) (v a b : BitVec 6) (o : BitVec 13) (pc : BitVec 2) (pa : Nat), s.freeX [v, a, b] → s.mem.wf = true → s.roomFor →
    let ea := s.ctl.getX a + BitVec.ofInt 64 (8 * o.toInt)
    let x := s.ctl.getX v
    let home : Place := .mem [{ va := ea.toNat, pa := pa, len := 8 }] []
    let word := leNat (s.mem.read pa 8)
    let sector (t : State) : Sector := t.sectorAt (gaPa pa / 64 * 64)
    let good (w : Nat) : Prop := w = 0 ∨ (w % 128 = 0 ∧ s.inHeap w = true ∧ ∃ p, s.headerAt w = some p ∧ s.mayLoad p = true ∧
      ∀ q, s.inHeap ea.toNat = true → s.objAt ea.toNat = some q → s.classOf q = 2 → s.classOf p ≠ 0)
    let keeps (i : Instr) (w : Nat) (tag : Bool) : Prop := ∃ t, exec i s = .next t ∧ t.ctl = s.ctl.skip 4 ∧
      t.core.pad = s.core.pad ∧ (sector t).rtag.getLsbD (gaPa pa % 64 / 8) = tag ∧
      ∀ c, t.mem.get c = if pa ≤ c ∧ c < pa + 8 then (natLe 8 w).getD (c - pa) 0 else s.mem.get c
    (ea.toNat % 8 ≠ 0 → ∀ i ∈ [Instr.stref v a o, .reftag a o, .refclr a o],
      exec i s = .next (s.faults .ctl .align (if ea.toNat / 2 ^ 56 = 0 then ea.toNat else 0) 0)) ∧
    (ea.toNat % 8 = 0 → ea.toNat / 2 ^ 56 = 0 → s.served .ctl .store 6 ea 8 home → s.plainAt pa 8 s.key = true → pa % 8 = 0 →
      s.core.nmOverlap home = false →
      (good x.toNat → keeps (.stref v a o) x.toNat (decide (x ≠ 0))) ∧
      (good word → s.roomForBoth { va := ea.toNat, pa := pa, len := 8 } → keeps (.reftag a o) word (decide (word ≠ 0))) ∧
      keeps (.refclr a o) word false ∧
      (x.toNat ≠ 0 → x.toNat % 128 ≠ 0 ∨ s.inHeap x.toNat = false ∨ s.headerAt x.toNat = none →
        exec (.stref v a o) s = .next (s.faults .ctl .range x.toNat 0))) ∧
    (let va := (s.ctl.getX a).toNat
     let n := (s.ctl.getX b).toNat
     (va % 128 ≠ 0 ∨ n % 128 ≠ 0 → exec (.objinit a b pc) s = .next (s.faults .ctl .align va 0)) ∧
     (va % 128 = 0 → n % 128 = 0 → 0 < n → n ≤ 2 ^ 28 → s.inHeap va = true → va + n ≤ lrHeapLim s.lrec →
      s.core.task.windowTouches va n = false → s.guarded va n = false → s.core.walks = [] → s.core.task.walkFail = [] →
      (∀ k, k < n / 128 → s.lineFree va n (va + 128 * k) = true) → s.cleanTables →
      s.plainAt (gaOf s.pkg (va + lrHeapOff s.lrec)) 16 s.key = true →
      ∃ t p, exec (.objinit a b pc) s = .next t ∧ t.ctl = s.ctl.skip 4 ∧ t.core.pad = s.core.pad ∧ t.objs.head? = some p ∧
        p.va = va ∧ p.size = n ∧ p.cls = 0 ∧ p.pcls = pc ∧ p.pend = false ∧ p.otask = s.core.task.idx ∧
        p.token = s.core.task.idx ∧ (∀ q ∈ t.objs, q = p ∨ q ∈ s.objs) ∧
        ∀ j, s.job = some j → s.headed t j p (4 * s.core.num)))

/-- 13 R419, R428 to R434: a transaction instruction outside a `TXN` job, or in another state than its own, raises `TX_STATE`. `TXOPEN`
opens a step with the step keys and zero draw counters, `TXVOTE` casts the vote, `TXWAIT` waits for the decision and takes it, `TXCLOSE`
returns to the task key, and the reads give the context. -/
def Obligations.Transactions : Prop :=
  ∀ (s : State) (a b d : BitVec 6), s.freeX [a, b, d] →
    let x := s.core.task.tx
    let bad (i : Instr) : Prop := exec i s = .next (s.faults .ctl .txState 0 0)
    let z (t : State) : Prop := t.core.vec.s.draw = 0 ∧ t.core.mtx.s.draw = 0 ∧ t.core.cpy.s.draw = 0
    let f := (s.ctl.getX a).toNat
    let m := (s.ctl.getX b).toNat
    (lrTxn s.lrec = false → ∀ i ∈ [Instr.txopen, .txvote a b, .txwait d, .txclose, .txstat d, .txkey d, .txseqStep d, .txseqCbase d,
      .txseqQbase d, .txseqCount d], bad i) ∧
    (x.st ≠ 0 → bad .txopen) ∧ (x.st ≠ 1 → bad (.txvote a b)) ∧ (x.st ≠ 2 → bad (.txwait d)) ∧ (x.st ≠ 3 → bad .txclose) ∧
    (x.st = 0 → bad (.txkey d)) ∧
    (lrTxn s.lrec = true →
      exec (.txstat d) s = .next (s.wrote d (txstatWord x)) ∧
      (x.st ≠ 0 → exec (.txkey d) s = .next (s.wrote d (stepKey (lrSeed s.lrec) x.step))) ∧
      exec (.txseqStep d) s = .next (s.wrote d x.step) ∧
      exec (.txseqCbase d) s = .next (s.wrote d (BitVec.ofNat 64 x.cbase.toNat)) ∧
      exec (.txseqQbase d) s = .next (s.wrote d (BitVec.ofNat 64 x.qbase.toNat)) ∧
      (∀ p, x.dec = some p → exec (.txseqCount d) s = .next (s.wrote d (BitVec.ofNat 64 (pkCount p)))) ∧
      (x.dec = none → exec (.txseqCount d) s = .next (s.wrote d 0)) ∧
      (x.st = 0 → s.anyForkedA = false → s.sharesCore = false → s.outstanding .ctl s.core.task.seq = false → s.applying = false →
        ∃ t, exec .txopen s = .next t ∧ t.ctl = s.ctl.skip 4 ∧ t.mem = s.mem ∧ z t ∧
          t.core.task.rkey = stepTaskKey (lrSeed s.lrec) x.step s.core.task.idx (s.rankOf s.lrec) ∧
          t.core.task.tx = { x with
            st := 1, gen := (s.job.map Job.gen).getD 0, cbase := s.core.task.collseq, qbase := s.core.task.qseq }) ∧
      (x.st = 1 →
        (2 ^ 16 ≤ f ∨ f / 2 ^ 3 % 2 ^ 5 ≠ 0 ∨ 2 ^ 32 ≤ m → exec (.txvote a b) s = .next (s.faults .ctl .range 0 0)) ∧
        (f < 2 ^ 16 → f / 2 ^ 3 % 2 ^ 5 = 0 → m < 2 ^ 32 → s.anyForkedA = false → s.outstanding .ctl s.core.task.seq = false →
          ∃ t, exec (.txvote a b) s = .next t ∧ t.ctl = s.ctl.skip 4 ∧ t.mem = s.mem ∧
            t.core.task.tx = { x with st := 2, vote := some (BitVec.ofNat 16 f, BitVec.ofNat 32 m) })) ∧
      (x.st = 2 →
        (s.appliedOf = none → exec (.txwait d) s = .next s) ∧
        (∀ p, s.appliedOf = some p → ∃ t, exec (.txwait d) s = .next t ∧ t.mem = s.mem ∧
          t.ctl = (s.ctl.setX d (BitVec.ofNat 64 ((if pkCommit p then 1 else 0) + pkFlags p * 2 ^ 16 + (pkMax p).toNat * 2 ^ 32))).skip 4 ∧
          t.core.task.tx.st = 3 ∧ t.core.task.tx.dec = some p ∧
          (pkCommit p = true → t.core.task.tx.step = x.step + 1 ∧ t.core.task.tx.retry = 0 ∧
            t.core.task.collseq = s.core.task.collseq ∧ t.core.task.qseq = s.core.task.qseq) ∧
          (pkCommit p = false → t.core.task.tx.step = x.step ∧ t.core.task.collseq = x.cbase ∧ t.core.task.qseq = x.qbase ∧
            t.core.task.tx.retry.toNat = min (2 ^ 16 - 1) (x.retry.toNat + 1)))) ∧
      (x.st = 3 → s.anyForkedA = true → exec .txclose s = .next (s.faults .ctl .range 0 0)) ∧
      (x.st = 3 → s.anyForkedA = false → ∃ t, exec .txclose s = .next t ∧ t.ctl = s.ctl.skip 4 ∧ t.mem = s.mem ∧ z t ∧
        t.core.task.rkey = taskKey (lrSeed s.lrec) (s.rankOf s.lrec) ∧ t.core.task.tx = { x with st := 0 }))

/-- 11 R372, R373, R382: the near-memory commands share one word, whose `CTL` register alone decides (log 16): a reserved field raises
`RESERVED_FIELD`; a scope, count or code out of range raises `RANGE`; a command that would pass its checks but for a flag that is a
holding flag raises `FLAG_OWNER`; a window in the range of a command that only reads it raises `EPHEMERIS_STORE`. A command that passes its
checks, whose optimizer record, if it has one, is read and whose ranges are placed, and that no earlier access must precede, is on its way; nothing that it names has changed yet.

11 R374 to R377: the oldest near-memory command runs at the memory and completes, and adds the byte length of its range to the flag
that it names. In ordinary memory, every element command stores in every element of w what R374 computes, `NM.MOM` and `NM.ADAMW` in
every m, `NM.ADAMW` in every v, and no other byte changes; `NM.COPY` and `NM.CKPT` copy bytes and tags; `NM.RECODE` stores its sectors
recoded or raw, `NM.SCRUB` writes back what it corrected, and these two and `NM.FOLD` change no byte and no tag; in a version region
`NM.FOLD` resolves its block and gives it the oldest generation once it is clean (13 R412, R416). -/
def Obligations.NearMemory : Prop :=
  (
  ∀ (s : State) (d a b c : BitVec 6), s.freeX [d, a, b, c] →
    let ctl := s.ctl.getX d
    let code := ctl.toNat % 2 ^ 8
    let mode := ctl.toNat / 2 ^ 10 % 2 ^ 3
    let sc := ctl.toNat / 2 ^ 21 % 2 ^ 3
    let res := ctl.toNat / 2 ^ 24 % 2 ^ 8 ≠ 0 ∨ mode = 7 ∨ sc = 7
    ∀ i ∈ [Instr.nmSgdf d a b c, .nmMom d a b c, .nmAdamw d a b c, .nmAxpy d a b c, .nmScale d a b c, .nmFill d a b c, .nmCopy d a b c,
        .nmCast d a b c, .nmClamp d a b c, .nmRecode d a b c, .nmScrub d a b c, .nmFold d a b c, .nmCkpt d a b c],
      (res → exec i s = .next (s.faults .ctl .reservedField 0 0)) ∧
      (¬res → 2 ≤ ctl.toNat / 2 ^ 8 % 4 ∨ 5 ≤ mode ∨ sc < 3 ∨ ctl.toNat / 2 ^ 32 = 0 ∨ code = 0 ∨ 0x0E ≤ code →
        exec i s = .next (s.faults .ctl .range 0 0)) ∧
      (s.nmPasses (ctl &&& ~~~(1#64 <<< 20)) (s.ctl.getX a) (s.ctl.getX b) (s.ctl.getX c) → ctl.getLsbD 20 = true →
        (s.core.task.flagAt (nmFlag ctl)).hold = true → exec i s = .next (s.faults .ctl .flagOwner 0 0)) ∧
      (s.nmPasses ctl (s.ctl.getX a) (s.ctl.getX b) (s.ctl.getX c) → nmReadOnly ctl = true →
        (s.ctl.getX a).toNat + nmDstLen ctl ≤ 2 ^ 48 → ∀ w, s.core.task.windowAt (s.ctl.getX a).toNat = some w →
        exec i s = .next (s.faults .ctl .ephemerisStore (s.ctl.getX a).toNat w)) ∧
      (s.nmPasses ctl (s.ctl.getX a) (s.ctl.getX b) (s.ctl.getX c) →
        ∀ o rc, nmRecord ctl (s.ctl.getX a) (s.ctl.getX b) (s.ctl.getX c) s = .ok (o, { s with recs := rc }) →
          let u : State := { s with recs := rc }
          ∀ ds r, u.nmPlaced (if nmReadOnly ctl then .nmRd else .nmWr) ctl (s.ctl.getX a) (nmDstLen ctl) ds r →
          ∀ ss q, u.nmPlaced .nmRd ctl (s.ctl.getX b) (nmSrcLen ctl) ss q →
          ∀ as ar, u.nmPlaced .nmWr ctl (optAux o) (nmAuxLen ctl) as ar →
          let m : NmCmd := {
            ctl := ctl, dst := ds, src := ss, aux := as, dref := r, aref := ar, prm := s.ctl.getX c, opt := o
            seq := s.core.task.seq }
          (16 ≤ s.queued .ctl ∨ s.nmBehind m = true → exec i s = .next s) ∧
          (s.queued .ctl < 16 → s.nmBehind m = false →
            (rc = [] ∧ ss = [] ∧ as = []) ∨ (∀ n, Config.recordsFull n ((s.os.ctlim.toNat - s.os.ctbase.toNat) * 4096) = false) →
            ∃ t, exec i s = .next t ∧ t.ctl = s.ctl.skip 4 ∧ t.mem = s.mem ∧ t.core.pad = s.core.pad ∧ t.core.task.flags = s.core.task.flags ∧
            t.core.nms = s.core.nms ++ [m]))
  ) ∧
  (
  ∀ (s : State) (m : NmCmd) (rest : List NmCmd) (g h a : Seg), s.core.nms = m :: rest → m.spans g h a → s.mem.wf = true →
    s.core.adds = [] →
    let code := nmCode m.ctl
    let k := nmSize m.ctl
    let j := nmSrcUnit m.ctl
    let n := nmCount m.ctl
    let f := nmFlag m.ctl
    let v := (s.core.task.flagAt f).value.toNat + nmDstLen m.ctl
    let at_ (b len i : Nat) : Nat := leNat (s.mem.read (b + len * i) len)
    let plain := s.plainAt g.pa g.len s.key = true ∧ (nmHasSrc m.ctl = true → s.plainAt h.pa h.len s.key = true) ∧
      (nmHasRec m.ctl = true → s.plainAt a.pa a.len s.key = true)
    let ends (t : State) : Prop := exec .nmComplete s = .next t ∧ t.core.nms = rest ∧ t.ctl = s.ctl ∧
      t.core.task.failures = s.core.task.failures ∧ (m.ctl.getLsbD 20 = false → t.core.task.flags = s.core.task.flags) ∧
      (m.ctl.getLsbD 20 = true → v < 2 ^ 40 → (t.core.task.flagAt f).value.toNat = v)
    (code ∈ [1, 2, 3, 4, 5, 6, 8, 9] → plain → ∃ t, ends t ∧ ∃ w' m' v' : Nat → Nat,
      (∀ i, i < n → nmComputes m.ctl m.prm m.opt (at_ g.pa k i) (at_ h.pa j i) (at_ a.pa 4 i) (at_ a.pa 4 (n + i)) (w' i) (m' i) (v' i)) ∧
      ∀ c, t.mem.get c =
        if g.pa ≤ c ∧ c < g.pa + g.len then (natLe k (w' ((c - g.pa) / k))).getD ((c - g.pa) % k) 0
        else if nmHasRec m.ctl = true ∧ a.pa ≤ c ∧ c < a.pa + a.len then
          (natLe 4 (if (c - a.pa) / 4 < n then m' ((c - a.pa) / 4) else v' ((c - a.pa) / 4 - n))).getD ((c - a.pa) % 4) 0
        else s.mem.get c) ∧
    (code = 7 ∨ code = 0x0D → plain → ∃ t, ends t ∧
      (∀ i, i < g.len / 64 → (t.sectorAt (gaPa g.pa + 64 * i)).rtag = (s.sectorAt (gaPa h.pa + 64 * i)).rtag) ∧
      ∀ c, t.mem.get c = if g.pa ≤ c ∧ c < g.pa + g.len then s.mem.get (h.pa + (c - g.pa)) else s.mem.get c) ∧
    (code = 0x0A ∨ code = 0x0B ∨ code = 0x0C → s.readableAt g.pa g.len → ∃ t, ends t ∧ (∀ c, t.mem.get c = s.mem.get c) ∧
      ∀ sa ∈ sectorsOf (gaPa g.pa) g.len, (t.sectorAt sa).rtag = (s.sectorAt sa).rtag ∧ (t.sectorAt sa).poison = false ∧
        (code = 0x0A → (t.sectorAt sa).raw = !(m.prm.getLsbD 0 && recodable (s.mem.read (gaOf s.pkg sa) 64))) ∧
        (code = 0x0B → (t.sectorAt sa).err = [])) ∧
    (code = 0x0C → gaPkg g.pa = s.pkg.toNat → s.linkDead g.pa = false → g.len = 4096 → ∀ r, s.regionAt (gaPa g.pa % 2 ^ 40) = some r →
      let x := s.vstack r (gaPa g.pa % 2 ^ 40)
      let b := (s.blockAt r (gaPa g.pa % 2 ^ 40)).resolve x.s x.aborted
      ∃ t, exec .nmComplete s = .next t ∧ t.core.nms = rest ∧
        t.blockAt r (gaPa g.pa % 2 ^ 40) = if 16384 ≤ (x.s - b.tgen).toNat then { b with tgen := x.s - 16384 } else b)
  )

/-- 06 R214, R215, R223, R224, R232, R237, R241: `CPY`, `NMIRROR` and `BIND`: a length of 0 or beyond 2^28, a scope of 0 or wider
than `SPAN`, and ranges that overlap raise `RANGE`; an event on a holding flag raises `FLAG_OWNER`; otherwise the transfer is queued
with its ranges as the engine finds them at issue, once the queue has room (01 R14). -/
def Obligations.CopyTransfers : Prop :=
  ∀ (s : State) (sc : BitVec 3) (u : BitVec 2) (d a b c : BitVec 5) (ev : BitVec 14) (k : BitVec 1) (q : BitVec 3) (w : BitVec 11),
    let g := s.core.cpy.s
    let dst := g.getX d
    let src := g.getX a
    let n : Nat := (g.getX b).toNat
    let mir := g.getX c
    let cpy := Instr.cpy sc u d a b ev k
    let mirror := Instr.nmirror sc u d a b c ev
    let bind := Instr.bind sc u q a b w ev
    let range : State := s.faults .cpy .range 0 0
    (n = 0 ∨ 2 ^ 28 < n → ∀ i ∈ [cpy, mirror, bind], exec i s = .next range) ∧
    (0 < n → n ≤ 2 ^ 28 →
      (s.eventOnHold ev → ∀ i ∈ [cpy, mirror, bind], exec i s = .next (s.faults .cpy .flagOwner 0 0)) ∧
      (¬s.eventOnHold ev →
        (sc ≠ 7 → sc = 0 ∨ lrSpan s.lrec < sc.toNat → ∀ i ∈ [cpy, mirror, bind], exec i s = .next range) ∧
        (sc ≠ 0 → sc.toNat ≤ lrSpan s.lrec →
          let puts (i : Instr) (v : State) (x : Xfer) : Prop := if v.queued .cpy < 16 then exec i s = .next (v.queues x) else exec i s = .next s
          (eaMeet dst n src n = true → exec cpy s = .next range) ∧
          (bits dst 63 56 = 0xFE ∨ bits mir 63 56 = 0xFE ∨ eaMeet dst n mir n = true → exec mirror s = .next range) ∧
          (∀ i j, s.served .cpy .cpyRd sc.toNat src n (.pad i) → s.queued .cpy < 16 →
            exec bind s = .next (s.queues (Xfer.new bind sc ev n [.pad i n] [])) ∧
            (s.served .cpy .cpyWr sc.toNat dst n (.pad j) → eaMeet dst n src n = false → exec cpy s =
              .next (s.queues { Xfer.new cpy sc ev n [.pad i n] [.pad j n] with ckpt := decide (k = 1) }))) ∧
          ∀ x t, s.sources .cpy .cpyRd sc.toNat src n x t →
            puts bind t (Xfer.new bind sc ev n [x] []) ∧
            ∀ y v, t.dests .cpy .cpyWr sc.toNat dst n y v →
              (eaMeet dst n src n = false → puts cpy v { Xfer.new cpy sc ev n [x] [y] with ckpt := decide (k = 1) }) ∧
              ∀ z r, v.dests .cpy .cpyWr sc.toNat mir n z r → bits dst 63 56 ≠ 0xFE → bits mir 63 56 ≠ 0xFE →
                eaMeet dst n mir n = false → puts mirror r { Xfer.new mirror sc ev n [x] [y] with dst2 := [z], ckpt := true })))

/-- 06 R216, R233: `GATHER` and `SCATTER` take `n` rows of `W` + 1 bytes at the places that a list of words in scratchpad names: too
many rows or bytes raise `RANGE`, as does a list elsewhere; a list that is not 4-aligned raises `ALIGN`; a list that an older transfer or
chain writes is waited for (log 24), and so is room in the queue.

06 R229, R230: a stamped copy names a task of the job alone on its core within its scope, lines of scratchpad on both sides and at
most 2^20 bytes, else `RANGE` or `ALIGN`, an offset beyond the peer's scratchpad behind the alignment (log 24); it then waits among the stamped commands, and nothing has moved. -/
def Obligations.GathersAndStampedCopies : Prop :=
  (
  ∀ (s : State) (sc : BitVec 3) (u : BitVec 2) (d a b c : BitVec 5) (w : BitVec 11) (ev : BitVec 14),
    let g := s.core.cpy.s
    let n : Nat := (g.getX c).toNat
    let m : Nat := w.toNat + 1
    let idx := g.getX b
    let gather := Instr.gather sc u d a b c w ev
    let scatter := Instr.scatter sc u d a b c w ev
    let ok : Prop := 0 < n ∧ n ≤ 65536 ∧ 4 * n + m * n ≤ 2 ^ 28
    (¬ok → ∀ i ∈ [gather, scatter], exec i s = .next (s.faults .cpy .range 0 0)) ∧
    (ok → s.eventOnHold ev → ∀ i ∈ [gather, scatter], exec i s = .next (s.faults .cpy .flagOwner 0 0)) ∧
    (ok → ¬s.eventOnHold ev →
      (sc ≠ 7 → sc = 0 ∨ lrSpan s.lrec < sc.toNat ∨ bits idx 63 56 ≠ 0xFE → ∀ i ∈ [gather, scatter], exec i s = .next (s.faults .cpy .range 0 0)) ∧
      (sc ≠ 0 → sc.toNat ≤ lrSpan s.lrec → bits idx 63 56 = 0xFE →
        (idx.toNat % 4 ≠ 0 → ∀ i ∈ [gather, scatter], exec i s = .next (s.faults .cpy .align 0 0)) ∧
        (idx.toNat % 4 = 0 → ∀ off, s.served .cpy .cpyRd sc.toNat idx (4 * n) (.pad off) →
          let list : Span := .pad off (4 * n)
          let under : Prop := s.core.ahead s.core.task.seq [list] [] = true
          let puts (i : Instr) (v : State) (x : Xfer) : Prop :=
            if v.queued .cpy < 16 then exec i s = .next (v.queues x) else exec i s = .next s
          let js := (List.range n).map fun j => leNat (((s.core.pad.read off (4 * n)).drop (4 * j)).take 4)
          (under → ∀ i ∈ [gather, scatter], exec i s = .next s) ∧
          (¬under →
            (∀ rows t, s.rowSources sc (g.getX a) m js rows t → ∀ y v, t.dests .cpy .cpyWr sc.toNat (g.getX d) (n * m) y v →
              puts gather v (Xfer.new gather sc ev (4 * n + m * n) (list :: rows) [y])) ∧
            ∀ x t, s.sources .cpy .cpyRd sc.toNat (g.getX a) (n * m) x t → ∀ rows v, t.rowDests sc (g.getX d) m js rows v →
              puts scatter v (Xfer.new scatter sc ev (4 * n + m * n) [list, x] rows)))))
  ) ∧
  (
  ∀ (s : State) (sc : BitVec 3) (u : BitVec 2) (d a b c : BitVec 5) (st : BitVec 20) (j : Job), s.job = some j → sc ≠ 7 →
    let g := s.core.cpy.s
    let off : Nat := (g.getX d).toNat
    let src := g.getX a
    let n : Nat := (g.getX b).toNat
    let peer : Nat := (g.getX c).toNat
    let at_ : Nat := j.place peer
    let i := Instr.cpys sc u d a b c st
    let bad : Prop := sc = 0 ∨ 5 ≤ sc.toNat ∨ lrSpan s.lrec < sc.toNat ∨ n = 0 ∨ lrTasks j.lrec ≤ peer ∨
      sc.toNat < commonLevel s.core.num at_ ∨ 1 < (j.tasksOn at_).length ∨ n % 128 ≠ 0 ∨ 2 ^ 20 < n ∨ bits src 63 56 ≠ 0xFE ∨
      bits src 55 20 ≠ 0 ∨ s.padBytes < bits src 19 0 + n
    let odd : Prop := bits src 19 0 % 128 ≠ 0 ∨ off % 128 ≠ 0
    (bad → exec i s = .next (s.faults .cpy .range 0 0)) ∧
    (¬bad → odd → exec i s = .next (s.faults .cpy .align 0 0)) ∧
    (¬bad → ¬odd → s.padBytes < off + n → exec i s = .next (s.faults .cpy .range 0 0)) ∧
    (¬bad → ¬odd → off + n ≤ s.padBytes →
      let x : Xfer := { Xfer.new i sc 0 n [.pad (bits src 19 0) n] [] with
        peer := some (at_, off), stamp := st.toNat, seq := s.core.task.seq }
      if s.queued .cpy < 16 then exec i s = .next (((s.mapTask fun t => { t with seq := t.seq + 1 }).mapCpy fun y => { y with
        stamped := y.stamped ++ [x] }).pastWord .cpy)
      else exec i s = .next s)
  )

/-- 06 R217, R219, R220, R222, R226: `CHAIN` waits for its channel; an empty chain ends at once; a record that is not 64-aligned
raises `ALIGN` with the word past (log 18) and the channel halted at the chain's head, as does any fault of the walk, with the lines
read so far guarded; a chain whose walk succeeds is on its channel with the lines of its records guarded and the step key of its issue
(08 R284). `CHSTOP` is privileged: a channel with a record under way stops behind it, another is idle.

06 R213, R217 to R219, R226, R229, R232: a channel that cannot go on stays as it is; otherwise it reads its record and, by `KIND`, binds
it to its stream register, hands it to the stamped commands and waits until it has run, or moves its sectors one by one, its progress
going on by one at each: behind the last one the record ends; at a sector that fails its checks the channel halts, with the sectors
before it moved. -/
def Obligations.Chains : Prop :=
  (
  ∀ (s : State) (n : BitVec 3) (a : BitVec 5),
    let va : Nat := (s.core.cpy.s.getX a).toNat
    let held := (List.range 224).filter (s.core.holds .cpy)
    let c : Chan := { Chan.reset with
      active := true, record := BitVec.ofNat 48 va, seq := s.core.task.seq, held := held
      key := if s.core.task.tx.st = 0 then none else some s.stepKeyOf }
    ((s.chan n.toNat).active = true → exec (.chain n a) s = .next s) ∧
    ((s.chan n.toNat).active = false →
      (va = 0 → ∃ t, exec (.chain n a) s = .next t ∧ t.chan n.toNat = Chan.reset ∧ t.mem = s.mem ∧ t.core.pad = s.core.pad ∧
        t.core.cpy.s = s.core.cpy.s.skip 8 ∧ t.core.task.flags = s.core.task.flags ∧ t.core.stop = s.core.stop) ∧
      (va % 64 ≠ 0 → s.core.stop = none → ∃ t r, exec (.chain n a) s = .next t ∧ t.core.cpy.s = s.core.cpy.s.skip 8 ∧
        t.core.stop = some r ∧ r.cause = .align ∧ r.faddr = BitVec.ofNat 64 va ∧ (t.chan n.toNat).halted = true ∧
        (t.chan n.toNat).active = true ∧ (t.chan n.toNat).record = BitVec.ofNat 48 va ∧ t.mem = s.mem ∧ t.core.pad = s.core.pad) ∧
      (∀ recs v, recs ≠ [] → walkChain held 4097 va [] s = .ok (recs, v) → ∃ t, exec (.chain n a) s = .next t ∧
        t.core.cpy.s = v.core.cpy.s.skip 8 ∧ t.mem = v.mem ∧ t.core.task.guards = v.core.task.guards ∧
        (∀ x ∈ recs, x.1 / 128 * 128 ∈ t.core.task.guards) ∧
        t.chan n.toNat = { c with
          walked := true, count := recs.length
          reads := recs.flatMap fun x => recReads x.2
          writes := recs.flatMap fun x => v.recWrites x.2 }) ∧
      ∀ v f, walkChain held 4097 va [] s = .error (.trapIn v f) → exec (.chain n a) s =
        .next ((((v.haltChain n.toNat c).mapStrm .cpy fun r => r.skip 8).mapTask fun x =>
          { x with seq := s.core.task.seq + 1 }).takeFault .cpy f)) ∧
    (s.jobMode = true → exec (.chstop n) s = .next (s.faults .cpy .privilege 0 0)) ∧
    (s.jobMode = false → ∃ t, exec (.chstop n) s = .next t ∧ t.core.cpy.s = s.core.cpy.s.skip 8 ∧ t.mem = s.mem ∧
      t.core.cpy.queue = s.core.cpy.queue ∧ t.core.task.flags = s.core.task.flags ∧
      t.chan n.toNat = if (s.chan n.toNat).active = true ∧
          ((s.chan n.toNat).tail = true ∨ (s.chan n.toNat).prog ≠ 0 ∨ (s.core.cpy.queue.any fun x => decide (x.chan = some n.toNat)) = true) then
        { s.chan n.toNat with stop := true } else Chan.reset)
  ) ∧
  (
  ∀ (s : State) (n : BitVec 3),
    let c := s.chan n.toNat
    (s.chanReady n.toNat = false → exec (.chainRecordRun n) s = .next s) ∧
    (s.chanReady n.toNat = true → c.walked = true → ∀ r t, readXferRecord c.record.toNat s = .ok (r, t) →
      (recKind r = 1 → exec (.chainRecordRun n) s = .next (t.mapCpy fun y => { y with
        queue := y.queue ++ [chainXfer n.toNat (t.chan n.toNat) r 0] })) ∧
      (recKind r = 2 → ∀ j, t.job = some j → exec (.chainRecordRun n) s = .next ((t.mapCpy fun y => { y with
        stamped := y.stamped ++ [chainXfer n.toNat (t.chan n.toNat) r (j.place (recField r 0x18 63 32))] }).mapChan n.toNat fun h =>
          { h with tail := true })) ∧
      (recKind r = 0 → ∀ k v, State.sectorsRun n.toNat r k t v →
        let p := (v.chan n.toNat).prog
        let halts (u : State) (f : Trap) : Prop := exec (.chainRecordRun n) s = .next ((u.haltSector n.toNat p).takeFault .cpy f)
        p = (t.chan n.toNat).prog + k ∧
        (recLen r ≤ 64 * p → exec (.chainRecordRun n) s = .next (v.endRecord n.toNat r true (v.chan n.toNat).bad)) ∧
        (64 * p < recLen r → (∀ f, runSector n.toNat r p v = .error (.trap f) → halts v f) ∧
          ∀ u f, runSector n.toNat r p v = .error (.trapIn u f) → halts u f)))
  )

/-- 06 R234 to R236, R241: the `COLL` words share one word, whose descriptor decides: a scope outside `.die` to `.pod` or wider than
`SPAN` raises `RANGE`, an event on a holding flag `FLAG_OWNER`, a descriptor that is not 64-aligned `ALIGN`, one with a reserved bit
`RESERVED_FIELD`, one that breaks a limit `RANGE`; the descriptor is read behind every older transfer that writes it; otherwise the participant's
transfer waits in the queue for the others, once the queue has room.

06 R236: a collective whose participants differ has met its end, and its words stay issued (log 18); one that has not gathered them
waits. A gathered one between scratchpads in which one task is all the participants, and whose elements are integers or are only
gathered, leaves the task's source in its destination and has left the queue; the collective has run and stays known, so that no further
task joins it (log 25). -/
def Obligations.CopyCollectives : Prop :=
  (
  ∀ (s : State) (sc : BitVec 3) (u : BitVec 2) (a : BitVec 5) (ev : BitVec 14),
    let va := s.core.cpy.s.getX a
    ∀ i ∈ [Instr.collAllReduce sc u a ev, .collAllGather sc u a ev, .collReduceScatter sc u a ev],
      (sc ≠ 7 → sc.toNat < 3 ∨ 5 < sc.toNat ∨ lrSpan s.lrec < sc.toNat → exec i s = .next (s.faults .cpy .range 0 0)) ∧
      (3 ≤ sc.toNat → sc.toNat ≤ 5 → sc.toNat ≤ lrSpan s.lrec →
        (s.eventOnHold ev → exec i s = .next (s.faults .cpy .flagOwner 0 0)) ∧
        (¬s.eventOnHold ev →
          (va.toNat % 64 ≠ 0 → exec i s = .next (s.faults .cpy .align (if va.toNat / 2 ^ 56 = 0 then va.toNat else 0) 0)) ∧
          (va.toNat % 64 = 0 → bits va 63 56 = 0xFE ∨ s.sharesCore = true → exec i s = .next (s.faults .cpy .range 0 0)) ∧
          (va.toNat % 64 = 0 → bits va 63 56 ≠ 0xFE → s.sharesCore = false → s.core.task.windowTouches va.toNat 64 = false →
            ∀ p t0, s.sources .cpy .cpyRd 6 va 64 p t0 →
              (t0.core.ahead t0.core.task.seq [p] [] = true → exec i s = .next s) ∧
              ∀ d t, readNow p t0 = .ok (d, t) →
              let r : BitVec 512 := BitVec.ofNat 512 (leNat d)
              (collReserved r = true → exec i s = .next (s.faults .cpy .reservedField va.toNat 0)) ∧
              (collReserved r = false → collBad r = true → exec i s = .next (s.faults .cpy .range va.toNat 0)) ∧
              (collReserved r = false → collBad r = false →
                ∀ x v, t.sources .cpy .cpyRd sc.toNat (collSrc r) (collSrcLen r) x v →
                ∀ y w, v.dests .cpy .cpyWr sc.toNat (collDst r) (collDstLen r) y w → s.colls.find? (s.myColl sc.toNat) = none →
                  (16 ≤ w.queued .cpy → exec i s = .next s) ∧ (w.queued .cpy < 16 → ∃ z, exec i s = .next z ∧ z.core.cpy.s = w.core.cpy.s.skip 8 ∧ z.mem = w.mem ∧
                    z.core.task.collseq = w.core.task.collseq + 1 ∧ z.colls.length = w.colls.length + 1 ∧
                    z.core.cpy.queue = w.core.cpy.queue ++ [{ Xfer.new (.collAllReduce sc u a ev) sc ev (collSrcLen r) [x] [y] with
                      dlen := collDstLen r, desc := r, seq := w.core.task.seq }])))))
  ) ∧
  (
  ∀ (s : State) (k : BitVec 8) (c : Coll), s.gathering[k.toNat]? = some c →
    (∀ remote dead, c.broken = true ∨ (c.cut = false ∧ s.genAborted c.job c.gen = false ∧ s.collClash c remote = false ∧
      s.collGathered c remote = false) → exec (.collectiveRun k remote dead) s = .next s) ∧
    ∀ q x a b, c.broken = false → c.cut = false → s.genAborted c.job c.gen = false → c.who = [(s.core.num, q)] →
      s.partOf (s.core.num, q) = some x → x.seq = q → collNpart x.desc = 1 → collRank x.desc = 0 →
      s.core.ahead q x.src x.dst = false → s.core.cpy.inFlight < 16 → collKind x.desc = 1 ∨ collTy x.desc < 4 → collKind x.desc ≤ 2 →
      x.src = [.pad a (collSrcLen x.desc)] → x.dst = [.pad b (collDstLen x.desc)] → x.rel = none → x.del = none →
      s.core.adds = [] → s.core.pad.wf = true → (∀ y ∈ s.core.cpy.queue, y.seq = q → y = x) →
      ∃ t, exec (.collectiveRun k [] false) s = .next t ∧ t.mem = s.mem ∧ t.ctl = s.ctl ∧
        t.core.cpy.queue = s.core.cpy.queue.filter (fun y => y.seq ≠ q) ∧ t.core.task.flags = s.core.task.flags ∧
        t.colls = s.colls.map (fun d => if d = c then { d with who := [], ran := true } else d) ∧
        ∀ o, t.core.pad.get o =
          if b ≤ o ∧ o < b + collDstLen x.desc then s.core.pad.get (a + (o - b)) else s.core.pad.get o
  )

/-- 06 R213, R216, R223, R225, R227: a transfer is not read before the older ones that it must follow; at its release a transfer
between scratchpad ranges has its bytes in place (log 24), no other byte has changed, and its release flag has its length added. A release that
cannot be given changes nothing.

06 R223, R225, R230, R231: a delivery ends a transfer whose source has been read: it leaves the queue, its delivery flag has its
length added, and what its writes failed at is kept for a fence. A stamped copy that has issued lands in the peer's scratchpad in its
cycle, and nowhere else.

06 R232, 05 R172: the next entry of a bound transfer arrives behind those of its stream register, with the bytes that follow the
ones delivered; it waits while the register holds four, and is discarded while the task has no vector stream. One of a chain halts its
channel at the sector of it that fails its checks, with the sectors before it read (R226).

01 R28, 06 R230, R231: a stamped command is judged in its cycle and not before; it issues, a product with the result that it has
then (log 27), or raises its fault and never issues. On a core that holds several tasks, and when a copy could not complete within the exchange phase, the fault is `SCHEDULE_MISS`. -/
def Obligations.CopyEvents : Prop :=
  (
  ∀ (s : State) (k : BitVec 4),
    (s.core.cpy.queue[k.toNat]? = none → exec (.copyRelease k) s = .next s) ∧
    ∀ x, s.core.cpy.queue[k.toNat]? = some x →
      (x.moved = true ∨ x.isColl = true ∨ (x.bound = none ∧ s.core.copyReady x = false) ∨ (x.bound ≠ none ∧ x.done ≠ x.len) →
        exec (.copyRelease k) s = .next s) ∧
      (x.bound = none → s.core.copyReady x = true → x.moved = false → x.isColl = false → s.core.adds = [] → s.core.pad.wf = true →
        ∀ a b n, x.source = [.pad a n] → x.dst = [.pad b n] → x.dst2 = [] → a + n ≤ b ∨ b + n ≤ a →
          ∃ t, exec (.copyRelease k) s = .next t ∧ t.mem = s.mem ∧ t.ctl = s.ctl ∧ t.core.pad.wf = true ∧
            (∀ o, t.core.pad.get o = if b ≤ o ∧ o < b + n then s.core.pad.get (a + (o - b)) else s.core.pad.get o) ∧
            t.core.cpy.queue = (s.core.cpy.queue.map fun y => if y.seq = x.seq then { y with moved := true, bad := [], fails := [] } else y) ∧
            (x.rel = none → t.core.task.flags = s.core.task.flags) ∧
            ∀ f, x.rel = some f → (s.core.task.flagAt f).value.toNat + x.len < 2 ^ 40 →
              (t.core.task.flagAt f).value.toNat = (s.core.task.flagAt f).value.toNat + x.len ∧
              ∀ g, g ≠ f → t.core.task.flagAt g = s.core.task.flagAt g)
  ) ∧
  (
  ∀ (s : State) (k : BitVec 4),
    (∀ x, s.core.cpy.queue[k.toNat]? = some x →
      (x.moved = false → exec (.copyDelivery k) s = .next s) ∧
      (x.moved = true → x.chan = none → x.bad = [] → s.core.adds = [] → ∃ t, exec (.copyDelivery k) s = .next t ∧
        t.core.cpy.queue = s.core.cpy.queue.filter (fun y => y.seq ≠ x.seq) ∧
        t.core.task.failures = s.core.task.failures ++ x.fails ∧ t.mem = s.mem ∧ t.core.pad = s.core.pad ∧ t.ctl = s.ctl ∧
        (x.del = none → t.core.task.flags = s.core.task.flags) ∧
        ∀ f, x.del = some f → (s.core.task.flagAt f).value.toNat + x.dlen < 2 ^ 40 →
          (t.core.task.flagAt f).value.toNat = (s.core.task.flagAt f).value.toNat + x.dlen)) ∧
    (s.core.cpy.queue[k.toNat]? = none →
      (s.landing[k.toNat - s.core.cpy.queue.length]? = none → exec (.copyDelivery k) s = .next s) ∧
      ∀ x a n p off, s.landing[k.toNat - s.core.cpy.queue.length]? = some x → x.src = [.pad a n] → x.peer = some (p, off) →
        x.rel = none → x.del = none → x.own = none → s.core.adds = [] → (s.coreAt p).pad.wf = true →
        ∃ t, exec (.copyDelivery k) s = .next t ∧ t.mem = s.mem ∧ t.ctl = s.ctl ∧
          (∀ o, (t.coreAt p).pad.get o =
            if off ≤ o ∧ o < off + n then s.core.pad.get (a + (o - off)) else (s.coreAt p).pad.get o) ∧
          ∀ q, q ≠ p → (t.coreAt q).pad = (s.coreAt q).pad)
  ) ∧
  (
  ∀ (s : State) (k : BitVec 4),
    (∀ x, s.core.cpy.queue[k.toNat]? = some x → s.entryReady x = false → exec (.streamEntryArrival k) s = .next s) ∧
    (s.core.cpy.queue[k.toNat]? = none → exec (.streamEntryArrival k) s = .next s) ∧
    (∀ x q e a, s.core.cpy.queue[k.toNat]? = some x → x.bound = some (q, e) → x.chan = none → x.moved = false → x.done < x.len →
      s.core.copyReady x = true → x.src = [.pad a x.len] → x.isColl = false → 0 < e → x.part = [] →
      s.core.cpy.queue.find? (fun y => y.seq = x.seq) = some x →
      let n : Nat := min (x.done + e) x.len - x.done
      let old := s.core.vec.q.toList.getD q.toNat []
      (s.takesEntries = true → 4 ≤ old.length → exec (.streamEntryArrival k) s = .next s) ∧
      (s.takesEntries = false ∨ old.length < 4 → ∃ t, exec (.streamEntryArrival k) s = .next t ∧ t.mem = s.mem ∧
        t.core.pad = s.core.pad ∧ t.ctl = s.ctl ∧ t.core.task.flags = s.core.task.flags ∧
        t.core.cpy.queue = (s.core.cpy.queue.map fun y => if y.seq = x.seq then { y with done := x.done + n, part := [] } else y) ∧
        ∀ r : BitVec 3, t.core.vec.q.toList.getD r.toNat [] =
          if r = q ∧ s.takesEntries = true then
            old ++ [{ len := n, data := BitVec.ofNat 16384 (leNat (s.core.pad.read (a + x.done) n)) }]
          else s.core.vec.q.toList.getD r.toNat [])) ∧
    ∀ x q e (n : Nat), s.core.cpy.queue[k.toNat]? = some x → x.bound = some (q, e) → x.chan = some n → s.entryReady x = true → 0 < e →
      s.core.cpy.queue.find? (fun y => y.seq = x.seq) = some x →
      let hi : Nat := min (x.done + e) x.len
      let p : Nat := x.done + x.part.length
      p < hi → ∀ f, entrySector n x hi (p / 64) p s = .error (.trap f) →
        exec (.streamEntryArrival k) s = .next ((s.haltSector n (p / 64)).takeFault .cpy f)
  ) ∧
  (
  ∀ (s : State) (k : BitVec 8),
    (∀ x, s.core.cpy.stamped[k.toNat]? = some x →
      let y := Cmd.copy s.core x
      (x.void = true ∨ x.moved = true ∨ s.stampReady y = false → exec (.stampedIssue .cpy k) s = .next s) ∧
      (x.void = false → x.moved = false → s.stampReady y = true →
        (s.sharesCore = true ∨ (∃ e, s.core.bar.till = some e ∧ e < y.done) → s.core.stop = none →
          ∃ t r, exec (.stampedIssue .cpy k) s = .next t ∧ t.core.stop = some r ∧ r.cause = .scheduleMiss ∧ r.eng = .cpy ∧
            t.mem = s.mem ∧ t.core.pad = s.core.pad ∧
            t.core.cpy.stamped = s.core.cpy.stamped.map fun z => if z.seq = x.seq then { z with void := true } else z) ∧
        (s.judge y = none → exec (.stampedIssue .cpy k) s = .next (s.mapCpy fun c => { c with
          stamped := c.stamped.map fun z => if z.seq = x.seq then { z with moved := true } else z })))) ∧
    (∀ m, s.core.mtx.stamped[k.toNat]? = some m →
      let y := Cmd.prod s.core m
      (m.void = true ∨ m.res.isSome = true ∨ s.stampReady y = false → exec (.stampedIssue .mtx k) s = .next s) ∧
      (m.void = false → m.res = none → s.stampReady y = true →
        (∀ f, s.judge y = some f → exec (.stampedIssue .mtx k) s = .next ((s.mapMtx fun c => { c with
          stamped := c.stamped.map fun z => if z.seq = m.seq then { z with void := true } else z }).stopCore .mtx f)) ∧
        (s.judge y = none → exec (.stampedIssue .mtx k) s = .next (s.mapMtx fun c => { c with
          stamped := c.stamped.map fun z => if z.seq = m.seq then { z with res := some (s.stampedResult m) } else z })))) ∧
    (s.core.cpy.stamped[k.toNat]? = none → exec (.stampedIssue .cpy k) s = .next s) ∧
    (s.core.mtx.stamped[k.toNat]? = none → exec (.stampedIssue .mtx k) s = .next s)
  )

/-- 09 R294, R311: the words that write a tile descriptor: one with a reserved value raises `RESERVED_FIELD` and leaves the register;
`MTILE.ADDR` takes an address below 2^48, `MTILE.ADD` adds modulo 2^48, `MTILE.LD` reads 16 bytes at a 16-aligned address. -/
def Obligations.TileDescriptors : Prop :=
  ∀ (s : State) (d : BitVec 4) (a b : BitVec 5) (o : BitVec 16),
    let g := s.core.mtx.s
    let old := s.tileReg d
    let wrote (i : Instr) (v : BitVec 128) : Prop :=
      (tdReserved v = true → exec i s = .next (s.faults .mtx .reservedField 0 0)) ∧
      (tdReserved v = false → ∃ t, exec i s = .next t ∧ t.core.mtx.s = g.skip 8 ∧ t.mem = s.mem ∧ t.core.pad = s.core.pad ∧
        t.core.acc = s.core.acc ∧ t.core.mtx.queue = s.core.mtx.queue ∧ ∀ r, t.tileReg r = if r = d then v else s.tileReg r)
    let ea := g.getX a + BitVec.ofInt 64 o.toInt
    wrote (.mtile d a b) (g.getX b ++ g.getX a) ∧
    (2 ^ 48 ≤ (g.getX a).toNat → exec (.mtileAddr d a) s = .next (s.faults .mtx .range 0 0)) ∧
    ((g.getX a).toNat < 2 ^ 48 → wrote (.mtileAddr d a)
      ((old.extractLsb' 48 80 ++ (g.getX a).extractLsb' 0 48 : BitVec 128))) ∧
    wrote (.mtileAdd d a) ((old.extractLsb' 48 80 ++ (old.extractLsb' 0 48 + (g.getX a).extractLsb' 0 48) : BitVec 128)) ∧
    (ea.toNat % 16 ≠ 0 → exec (.mtileLd d a o) s = .next (s.faults .mtx .align (if ea.toNat / 2 ^ 56 = 0 then ea.toNat else 0) 0)) ∧
    (ea.toNat % 16 = 0 →
      (∀ off, s.served .mtx .load 6 ea 16 (.pad off) → wrote (.mtileLd d a o) (BitVec.ofNat 128 (leNat (s.core.pad.read off 16)))) ∧
      ∀ p v t, place .mtx .load 6 ea 16 s = .ok (p, t) → ∀ u, readPlace .mtx 16 p t = .ok (v, u) →
        tdReserved (BitVec.ofNat 128 (leNat v)) = false →
        exec (.mtileLd d a o) s = .next ((u.mapMtx fun m => { m with
          d := m.d.set! d.toNat (BitVec.ofNat 128 (leNat v)) }).pastWord .mtx))

/-- 09 R298 to R308, R310: the products (`productIs`: mma, mmas, mmai, mmaj) as they issue: the queue of sixteen has room; tiles open in order, with their formats; shapes
that do not fit raise `SHAPE` with M, N and K; formats that do not pair, an integer product that fades, a stochastic product over more
than 512 and a stamped product with an operand outside the scratchpad raise `RANGE`; with the operands placed, held, readable and
recorded the command enters its queue. -/
def Obligations.MatrixProducts : Prop :=
  ∀ (s : State) (i : Instr) (acc da db : BitVec 4) (scl : Option (BitVec 4 × BitVec 4)) (int joint : Bool) (init : Init)
    (mode : BitVec 3) (ksel rel : BitVec 1) (st : Option (BitVec 20)),
    productIs i acc da db scl int joint init mode ksel rel st →
    let dA := s.tileReg da
    let dB := s.tileReg db
    let range : State := s.faults .mtx .range 0 0
    let entered (t : State) (ta tb : Tile) (sc : Option (Tile × Tile)) (key : Word) : State :=
      let u := t.mtxDrawn (stochastic mode)
      let f : BitVec 32 := match init with
        | .fade r => (t.core.mtx.s.getX r).setWidth 32
        | _ => 0
      let c : MCmd := { MCmd.new i with
        ta := some ta, tb := some tb, sa := sc.map Prod.fst, sb := sc.map Prod.snd, f := f, dc := t.core.mtx.s.draw, key := key
        seq := t.core.task.seq, pc := t.core.mtx.s.pc }
      ((u.mapTask fun x => { x with seq := x.seq + 1 }).mapMtx fun x =>
        if st ≠ none then { x with stamped := x.stamped ++ [c] } else { x with queue := x.queue ++ [c] }).pastWord .mtx
    (16 ≤ s.queued .mtx → exec i s = .next s) ∧
    (s.queued .mtx < 16 →
      (joint = true → st = none ∨ rel = 1 → exec i s = .next range) ∧
      (joint = false ∨ (st ≠ none ∧ rel = 0) → ∀ a t1 b t2, openTile dA s = .ok (a, t1) → openTile dB t1 = .ok (b, t2) →
        let m : Nat := a.dims.1
        let k : Nat := a.dims.2
        let n : Nat := b.dims.2
        let shape : State := s.takeFault .mtx {
          cause := .shape, finfo := BitVec.ofNat 32 (m - 1 + (n - 1) * 2 ^ 16), finfox := BitVec.ofNat 16 (k - 1), faddr := 0 }
        let narrow : Prop := ∃ F, a.ty = .flt F ∧ F.narrow = true
        let pair : Prop := pairOk int scl.isSome a.ty b.ty = true ∧ (scl ≠ none → narrow)
        let fits : Prop := joint = true ∨ (k = b.dims.1 ∧ m ≤ 64 ∧ n ≤ 64)
        (¬fits → exec i s = .next shape) ∧
        (fits → ¬pair → exec i s = .next range) ∧
        (fits → pair → ∀ scales t3, scalesOpen dA dB a b scl t2 scales t3 →
          let g := ceilDiv k 32
          let off : Prop := joint = false ∧ ∃ x y p q, scales = some (x, y, p, q) ∧ (p.dims ≠ (m, g) ∨ q.dims ≠ (g, n))
          let away : Prop := st ≠ none ∧ (rel = 1 ∨ tdKind dA ≠ 0 ∨ tdKind dB ≠ 0 ∨
            ∃ x y, scl = some (x, y) ∧ ((tdTag dA = false ∧ tdKind (s.tileReg x) ≠ 0) ∨ (tdTag dB = false ∧ tdKind (s.tileReg y) ≠ 0)))
          let bad : Prop := (int = true ∧ ∃ r, init = .fade r) ∨ ((mode = 5 ∨ mode = 6) ∧ 512 < k) ∨ away
          (off → exec i s = .next shape) ∧
          (¬off → bad → exec i s = .next range) ∧
          (¬off → ¬bad → ∀ key t4, drawKey (decide (ksel = 1)) t3 = .ok (key, t4) →
            ∀ ta tb sc t5, locateOperands dA dB a b scales t4 = .ok ((ta, tb, sc), t5) →
              let tiles := [ta, tb] ++ (sc.map Prod.fst).toList ++ (sc.map Prod.snd).toList
              (∀ x ∈ tiles, ∃ y, classTile .tile x t5 = .ok (y, t5)) →
              (st = none → holdTiles tiles [acc.toNat] t5 = .ok ((), t5)) → readable (tileSegs tiles) t5 = .ok ((), t5) →
              ∀ t6, record .mtx .rd (tileSegs tiles) t5 = .ok ((), t6) →
              exec i s = .next (entered t6 ta tb sc key))))) ∧
    (s.queued .mtx < 16 → ∀ a b sc, s.padOperand dA a → s.padOperand dB b →
      (scl = none → sc = none) →
      (∀ x y, scl = some (x, y) → ∃ u v, sc = some (u, v) ∧ s.padOperand (s.tileReg x) u ∧ s.padOperand (s.tileReg y) v ∧
        u.fmt = 1 ∧ v.fmt = 1 ∧ (∃ F, a.ty = .flt F ∧ F.narrow = true) ∧
        (joint = false → u.dims = (a.dims.1, ceilDiv a.dims.2 32) ∧ v.dims = (ceilDiv a.dims.2 32, b.dims.2))) →
      (joint = true → st ≠ none) → (joint = false → a.dims.2 = b.dims.1 ∧ a.dims.1 ≤ 64 ∧ b.dims.2 ≤ 64) →
      pairOk int scl.isSome a.ty b.ty = true → (int = true → ∀ r, init ≠ .fade r) → (stochastic mode = true → a.dims.2 ≤ 512) →
      (st ≠ none → rel = 0) → (ksel = 1 → s.core.task.tx.st ≠ 0) →
      (st = none → s.mtxHolds ([a, b] ++ (sc.map Prod.fst).toList ++ (sc.map Prod.snd).toList) acc.toNat) →
      exec i s = .next (entered s a b sc (if ksel = 1 then s.stepKeyOf else s.core.task.rkey)))

/-- 09 R313 to R317, R319: the commands on accumulators as they issue: a run past accumulator 15 raises `RANGE`, an accumulator or tile
that the engine does not hold `SEGMENT_HOLDER`, a tile of more than 64 rows or columns `SHAPE`, `ASPILL` and `AFILL` in job mode
`PRIVILEGE`; otherwise the command enters the queue, and no accumulator has changed. -/
def Obligations.AccumulatorCommands : Prop :=
  ∀ s : State, s.queued .mtx < 16 →
    let held (n : Nat) : Prop := s.core.holds .mtx (224 + n) = true
    let missing : State := s.faults .mtx .segmentHolder 0 0
    let pushed (t : State) (m : MCmd) : State := ((t.mapTask fun x => { x with seq := x.seq + 1 }).mapMtx fun x => { x with
      queue := x.queue ++ [{ m with seq := t.core.task.seq, pc := x.s.pc }] }).pastWord .mtx
    (∀ n c : BitVec 4, (16 < n.toNat + c.toNat + 1 → exec (.azero n c) s = .next (s.faults .mtx .range 0 0)) ∧
      (n.toNat + c.toNat + 1 ≤ 16 →
        ((∀ k, n.toNat ≤ k → k ≤ n.toNat + c.toNat → held k) → exec (.azero n c) s = .next (pushed s (MCmd.new (.azero n c)))) ∧
        ((∃ k, n.toNat ≤ k ∧ k ≤ n.toNat + c.toNat ∧ ¬held k) → exec (.azero n c) s = .next missing))) ∧
    (∀ n a sat flush, (held n.toNat → exec (.afade n a sat flush) s =
        .next (pushed s { MCmd.new (.afade n a sat flush) with f := (s.core.mtx.s.getX a).setWidth 32 })) ∧
      (¬held n.toNat → exec (.afade n a sat flush) s = .next missing)) ∧
    (∀ n ds flush ia t t1, openTile (s.tileReg ds) s = .ok (t, t1) →
      (64 < t.dims.1 ∨ 64 < t.dims.2 → exec (.ald n ds flush ia) s = .next (s.faults .mtx .shape 0 0)) ∧
      (t.dims.1 ≤ 64 → t.dims.2 ≤ 64 →
        (ia = 1 → t.fmt ≠ 0 → t.fmt ≠ 3 → t.fmt ≠ 4 → exec (.ald n ds flush ia) s = .next (s.faults .mtx .range 0 0)) ∧
        (ia = 0 ∨ t.fmt = 0 ∨ t.fmt = 3 ∨ t.fmt = 4 → ∀ l t2 u t3, locateTiles .tile [(s.tileReg ds, t)] t1 = .ok (l, t2) →
          classTile .tile (l.headD t) t2 = .ok (u, t2) →
          (¬t2.mtxHolds [u] n.toNat → exec (.ald n ds flush ia) s = .next missing) ∧ (holdTiles [u] [n.toNat] t2 = .ok ((), t2) → readable (tileSegs [u]) t2 = .ok ((), t2) →
          record .mtx .rd (tileSegs [u]) t2 = .ok ((), t3) →
          exec (.ald n ds flush ia) s = .next (pushed t3 { MCmd.new (.ald n ds flush ia) with ta := some u }))))) ∧
    (∀ n ds flush ia t, s.padOperand (s.tileReg ds) t → t.dims.1 ≤ 64 → t.dims.2 ≤ 64 →
      (ia = 1 → t.fmt = 0 ∨ t.fmt = 3 ∨ t.fmt = 4) →
      (s.mtxHolds [t] n.toNat → exec (.ald n ds flush ia) s = .next (pushed s { MCmd.new (.ald n ds flush ia) with ta := some t })) ∧
      (¬s.mtxHolds [t] n.toNat → exec (.ald n ds flush ia) s = .next missing)) ∧
    (∀ n ds mode sat flush ksel ia,
      let i := Instr.ast n ds mode sat flush ksel ia
      (tdTag (s.tileReg ds) = true → exec i s = .next (s.faults .mtx .range 0 0)) ∧
      (tdTag (s.tileReg ds) = false → ∀ t t1, openTile (s.tileReg ds) s = .ok (t, t1) →
        (64 < t.dims.1 ∨ 64 < t.dims.2 → exec i s = .next (s.faults .mtx .shape 0 0)) ∧
        (t.dims.1 ≤ 64 → t.dims.2 ≤ 64 → ∀ key t4,
          (if stochastic mode then drawKey (decide (ksel = 1)) else pure 0) t1 = .ok (key, t4) →
          ∀ l t2 u t3, locateTiles .store [(s.tileReg ds, t)] t4 = .ok (l, t2) → classTile .store (l.headD t) t2 = .ok (u, t2) →
          (¬t2.mtxHolds [u] n.toNat → exec i s = .next missing) ∧
          (holdTiles [u] [n.toNat] t2 = .ok ((), t2) → record .mtx .wr (tileSegs [u]) t2 = .ok ((), t3) →
          exec i s = .next (pushed (t3.mtxDrawn (stochastic mode))
            { MCmd.new i with ta := some u, key := key, dc := t3.core.mtx.s.draw })))) ∧
      ∀ t, s.padOperand (s.tileReg ds) t → t.dims.1 ≤ 64 → t.dims.2 ≤ 64 →
        (stochastic mode = true → ksel = 1 → s.core.task.tx.st ≠ 0) →
        (¬s.mtxHolds [t] n.toNat → exec i s = .next missing) ∧ (s.mtxHolds [t] n.toNat → exec i s = .next (pushed (s.mtxDrawn (stochastic mode)) { MCmd.new i with
          ta := some t, dc := s.core.mtx.s.draw
          key := if stochastic mode then (if ksel = 1 then s.stepKeyOf else s.core.task.rkey) else 0 }))) ∧
    (∀ n a,
      let va := s.core.mtx.s.getX a
      (s.jobMode = true → ∀ i ∈ [Instr.aspill n a, .afill n a], exec i s = .next (s.faults .mtx .privilege 0 0)) ∧
      (s.jobMode = false → va.toNat % 128 ≠ 0 → ∀ i ∈ [Instr.aspill n a, .afill n a],
        exec i s = .next (s.faults .mtx .align (if va.toNat / 2 ^ 56 = 0 then va.toNat else 0) 0)) ∧
      (s.jobMode = false → va.toNat % 128 = 0 → bits va 63 56 = 0xFE → ∀ i ∈ [Instr.aspill n a, .afill n a],
        exec i s = .next (s.faults .mtx .range 0 0)) ∧
      (s.jobMode = false → va.toNat % 128 = 0 → bits va 63 56 ≠ 0xFE → s.roomFor →
        (∀ p, s.served .mtx .store 6 va 16384 p →
          (¬held n.toNat → exec (.aspill n a) s = .next missing) ∧
          (held n.toNat → ∃ rc, exec (.aspill n a) s = .next (pushed { s with recs := rc }
            { MCmd.new (.aspill n a) with span := some (p.span 16384) }))) ∧
        ∀ p, s.served .mtx .load 6 va 16384 p →
          (¬held n.toNat → exec (.afill n a) s = .next missing) ∧
          (held n.toNat → readable (p.span 16384).segs s = .ok ((), s) → ∃ rc, exec (.afill n a) s = .next (pushed { s with recs := rc }
            { MCmd.new (.afill n a) with span := some (p.span 16384) }))))

/-- 01 R14, R39, 02 R63, 09 R292, R299 to R301, R313 to R317, R319 to R321: the oldest command of the queue that overlaps no older one,
a stamped product among them, runs and leaves it; a sibling's turn takes only a relocatable product. `AZERO` clears its accumulators,
`AFADE` multiplies each element by its factor, a product over scratchpad tiles puts Σ_k a(i, k)·b(k, j), scaled by the scale tiles that
it has, as `mmElem` rounds it, into each element of its region, `ALD` and `AST` move the elements of a tile, `ASPILL` and `AFILL` the
image of an accumulator; nothing else changes. A stamped product that is to complete puts its result into its accumulator. -/
def Obligations.MatrixRuns : Prop :=
  ∀ s : State,
    let mtx := s.core.mtx
    let blocked (m : MCmd) : Prop := (∃ q ∈ mtx.queue, q.seq < m.seq ∧ m.overlaps q = true) ∨
      ∃ q ∈ mtx.stamped, q.void = false ∧ q.seq < m.seq ∧ m.overlaps q = true
    (∀ m n x r, s.mmDue = some m → mmCtlOf m = some (n, x) → n < 16 → m.res = some r → s.core.adds = [] →
      exec (.matrixCommandRun true) s = .next s ∧
      ∃ t, exec (.matrixCommandRun false) s = .next t ∧ t.mem = s.mem ∧ t.core.pad = s.core.pad ∧ t.core.mtx.queue = mtx.queue ∧
        ∀ k, k < 16 → t.accAt k = if k = n then r else s.accAt k) ∧
    (s.mmDue = none → (∀ m ∈ mtx.queue, blocked m) → ∀ sib, exec (.matrixCommandRun sib) s = .next s) ∧
    (s.mmDue = none → ∀ m pre post, mtx.queue = pre ++ m :: post → (∀ x ∈ pre, blocked x) → ¬blocked m →
      (mmRel m.i = false ∨ s.sibling = false → exec (.matrixCommandRun true) s = .next s) ∧
      (mmRel m.i = true → s.sibling = true → exec (.matrixCommandRun true) s = exec (.matrixCommandRun false) s) ∧
      ((∀ x ∈ pre ++ post, x.seq ≠ m.seq) → s.core.adds = [] →
        let ends (t : State) : Prop := exec (.matrixCommandRun false) s = .next t ∧ t.core.mtx.queue = pre ++ post ∧
          t.ctl = s.ctl ∧ t.core.mtx.s = mtx.s ∧ t.core.task.flags = s.core.task.flags
        let ran (t : State) : Prop := ends t ∧ t.mem = s.mem
        let only (t : State) (n : Nat) : Prop := t.core.pad = s.core.pad ∧ ∀ k, k ≠ n → t.accAt k = s.accAt k
        (∀ n c, m.i = .azero n c → ∃ t, ran t ∧ t.core.pad = s.core.pad ∧ ∀ k, k < 16 →
          t.accAt k = if n.toNat ≤ k ∧ k ≤ n.toNat + c.toNat then 0 else s.accAt k) ∧
        (∀ n a sat flush, m.i = .afade n a sat flush → ∃ t, ran t ∧ only t n.toNat ∧ ∀ i j, i < 64 → j < 64 →
          accGet (t.accAt n.toNat) i j = BitVec.ofNat 32
            (fadeElem (decide (sat = 1)) (decide (flush = 1)) m.f.toNat (accGet (s.accAt n.toNat) i j).toNat)) ∧
        (∀ n x ta tb da db sc ds, mmCtlOf m = some (n, x) → n < 16 → m.ta = some ta → m.tb = some tb → m.sa = sc.map Prod.fst →
          m.sb = sc.map Prod.snd → s.padTile ta da → s.padTile tb db → (sc = none → ds = []) →
          (∀ u v, sc = some (u, v) → ∃ du dv, ds = [du, dv] ∧ s.padTile u du ∧ s.padTile v dv) → ta.dims.1 ≤ 64 → tb.dims.2 ≤ 64 →
          ∃ t, ran t ∧ only t n ∧ ∀ i j, i < 64 → j < 64 → accGet (t.accAt n) i j =
            if i < ta.dims.1 ∧ j < tb.dims.2 then
              BitVec.ofNat 32 (mmElem x (operandsOf ta tb sc ([da, db] ++ ds)) i j
                (fun k => m.rb s.core.task.idx (4096 * k + 64 * i + j)) (accGet (s.accAt n) i j).toNat)
            else accGet (s.accAt n) i j) ∧
        (∀ n ds flush ia t d, m.i = .ald n ds flush ia → m.ta = some t → s.padTile t d → t.dims.1 ≤ 64 → t.dims.2 ≤ 64 →
          ∃ u, ran u ∧ only u n.toNat ∧ ∀ i j, i < 64 → j < 64 → accGet (u.accAt n.toNat) i j =
            if i < t.dims.1 ∧ j < t.dims.2 then
              BitVec.ofNat 32 (aldElem t.ty (decide (ia = 1)) (decide (flush = 1)) (t.elem d i j))
            else accGet (s.accAt n.toNat) i j) ∧
        (∀ n ds mode sat flush ksel ia t, m.i = .ast n ds mode sat flush ksel ia → m.ta = some t → 0 < t.size →
          t.src.length = t.rows → (∀ p ∈ t.src, p.len = t.cols * t.size ∧ s.plainSpan p) → s.core.pad.wf = true → s.mem.wf = true →
          ∃ u, ends u ∧ u.core.acc = s.core.acc ∧ u.core.task.failures = s.core.task.failures ∧ s.spansWritten u t.src fun p k =>
            let i := if t.tr then k / t.size else p
            let j := if t.tr then p else k / t.size
            (natLe t.size (astElem t.ty (decide (ia = 1)) (decide (sat = 1)) (decide (flush = 1)) mode.toNat
              (if mode = 5 ∨ mode = 6 then m.rb s.core.task.idx (64 * i + j) else 0) (accGet (s.accAt n.toNat) i j).toNat)).getD
              (k % t.size) 0) ∧
        (∀ n a p, m.i = .aspill n a → m.span = some p → p.len = 16384 → s.plainSpan p → s.core.pad.wf = true → s.mem.wf = true →
          ∃ u, ends u ∧ u.core.acc = s.core.acc ∧ u.core.task.failures = s.core.task.failures ∧ s.spansWritten u [p] fun _ k =>
            (natLe 4 (accGet (s.accAt n.toNat) (k / 256) (k / 4 % 64)).toNat).getD (k % 4) 0) ∧
        ∀ n a p, m.i = .afill n a → m.span = some p → p.len = 16384 → s.plainSpan p →
          ∃ u, ran u ∧ only u n.toNat ∧ ∀ i j, i < 64 → j < 64 → accGet (u.accAt n.toNat) i j =
            BitVec.ofNat 32 (leNat ((List.range 4).map fun b => ((p.cell (256 * i + 4 * j + b)).map s.cellByte).getD 0))))

/-- 10 R329 to R332, R346 to R348: the words that no other participant must join: each but `QLDG` raises `RANGE` without an open state;
a qubit that the state has not raises `QMAP`; a map address in the scratchpad raises `RANGE` (log 29); a map image that is no permutation raises `QMAP`; a gate of the wrong type, of no qubit or
with a target twice raises `RANGE`; otherwise the map, the gate register or the amplitudes of the share change as the word says. -/
def Obligations.QubitWords : Prop :=
  ∀ (s : State) (a b : BitVec 5) (g : BitVec 3),
    let x := s.astro.s.getX a
    let y := s.astro.s.getX b
    let range : State := s.faults .ast .range 0 0
    (s.astro.st = none → ∀ i ∈ [Instr.qmap a, .qmapSt a, .qswap a b, .qdiag g a b, .qscale a], exec i s = .next range) ∧
    (∀ q, s.astro.st = some q →
      ((x.toNat % 8 ≠ 0 → ∀ i ∈ [Instr.qmap a, .qmapSt a], exec i s =
          .next (s.faults .ast .align (if x.toNat / 2 ^ 56 = 0 then x.toNat else 0) 0)) ∧
        (x.toNat % 8 = 0 → bits x 63 56 = 0xFE → ∀ i ∈ [Instr.qmap a, .qmapSt a], exec i s = .next range) ∧
        (x.toNat % 8 = 0 → bits x 63 56 ≠ 0xFE →
          (∀ p t d u, place .ast .load 6 x 64 s = .ok (p, t) → readPlace .ast 64 p t = .ok (d, u) →
            (imageOk q.n d = false → exec (.qmap a) s = .next (s.faults .ast .qmap 0 0)) ∧
            (imageOk q.n d = true → exec (.qmap a) s = .next ((u.mapAstro fun w => { w with
              st := some { q with map := mapOf (imageMap q.n d) } }).pastWord .ast))) ∧
          ∀ p t u, place .ast .store 6 x 64 s = .ok (p, t) → writePlace .ast (mapImage q.phys) p t = .ok ((), u) →
            exec (.qmapSt a) s = .next (u.pastWord .ast))) ∧
      (q.n ≤ x.toNat ∨ q.n ≤ y.toNat → exec (.qswap a b) s = .next (s.faults .ast .qmap 0 0)) ∧
      (x.toNat < q.n → y.toNat < q.n → exec (.qswap a b) s = .next ((s.mapAstro fun w => { w with
        st := some { q with map := mapOf (q.phys.mapIdx fun i p =>
          if i = x.toNat then q.phys.getD y.toNat 0 else if i = y.toNat then q.phys.getD x.toNat 0 else p) } }).pastWord .ast)) ∧
      (let G := s.gate g
        let ts := gateTargets G.k.toNat x
        let bad : Prop := G.k = 0 ∨ G.ty ≠ q.ty ∨ bits x 63 (6 * G.k.toNat) ≠ 0
        let off : Prop := (∃ t ∈ ts, q.n ≤ t) ∨ y.toNat / 2 ^ q.n ≠ 0
        let offs := q.offsets (controlled q.phys y)
        (bad → exec (.qdiag g a b) s = .next range) ∧
        (¬bad → off → exec (.qdiag g a b) s = .next (s.faults .ast .qmap 0 0)) ∧
        (¬bad → ¬off → ts.eraseDups.length ≠ G.k.toNat ∨ (∃ t ∈ ts, bit y t = true) → exec (.qdiag g a b) s = .next range) ∧
        (¬bad → ¬off → ts.eraseDups.length = G.k.toNat → (∀ t ∈ ts, bit y t = false) → ∀ no t,
          shareAccess q true true offs s = .ok (no, t) →
          exec (.qdiag g a b) s = .next ((t.onAmps q no offs
            (diagAmps G (ts.map fun t => q.phys.getD t 0) (q.index 0))).pastWord .ast))) ∧
      (let F := ampFmt q.ty
        let f := F.decode (x.toNat % 2 ^ F.width)
        let sc (c : Nat) : Nat := rndAmp F (Exact.mul f (F.decode c))
        let offs := q.offsets fun _ => true
        ∀ no t, shareAccess q true true offs s = .ok (no, t) → exec (.qscale a) s =
          .next ((t.onAmps q no offs fun l => l.map fun v => (v.1, sc v.2.1, sc v.2.2)).pastWord .ast))) ∧
    ∀ (k : BitVec 2) (ty : BitVec 1),
      (k = 0 → exec (.qldg g a k ty) s = .next range) ∧
      (k ≠ 0 → x.toNat % ampSize ty = 0 → bits x 63 56 ≠ 0xFE → ∀ p t d u,
        place .ast .load 6 x (4 ^ k.toNat * ampSize ty) s = .ok (p, t) → readPlace .ast (4 ^ k.toNat * ampSize ty) p t = .ok (d, u) →
        exec (.qldg g a k ty) s = .next ((u.mapAstro fun w => { w with
          g := w.g.set! g.toNat {
            k := k, ty := ty, m := (ampsOf ty (4 ^ k.toNat) d).map fun v => (BitVec.ofNat 64 v.1, BitVec.ofNat 64 v.2) } }).pastWord .ast))

/-- 10 R324, R329, R335, R337, R340, R341, R345, R348: the words of a state group: with its checks passed a word waits at its place, with
what the participants compare, and they agree so far: those of a `QPERM` compare their target maps, and the remap of a `QGATE` and its
gate are one collective (log 29); a gate on local targets runs at once. -/
def Obligations.QubitCollectives : Prop :=
  ∀ (s : State) (a b c d : BitVec 5) (g : BitVec 3),
    let x := s.astro.s.getX a
    let y := s.astro.s.getX b
    let range : State := s.faults .ast .range 0 0
    (s.astro.st = none → ∀ i ∈ [Instr.qgate g a b, .qperm a, .qprob d a b c, .qnorm d c, .qsample d a c, .qsync], exec i s = .next range) ∧
    (∀ n ndb npb ty z,
      let i := Instr.qinit a b c n ndb npb ty z
      let grp := s.astro.s.getX c
      let q := qinitState n ndb npb ty x y grp
      let key : List Nat := [1, n.toNat, ndb.toNat, npb.toNat, ty.toNat, z.toNat, y.toNat / 2 ^ ndb.toNat]
      let lim : Bool := qLimits s.lrec n.toNat ndb.toNat npb.toNat (ampSize ty) y.toNat grp.toNat
      (s.astro.st ≠ none ∨ lim = false → exec i s = .next range) ∧
      (s.astro.st = none → lim = true →
        (x.toNat % 128 ≠ 0 → exec i s = .next (s.faults .ast .align (if x.toNat / 2 ^ 56 = 0 then x.toNat else 0) 0)) ∧
        (x.toNat % 128 = 0 →
          (s.inHeap x.toNat = false ∨ lrHeapLim s.lrec < x.toNat + q.amps * q.size → exec i s = .next range) ∧
          (s.inHeap x.toNat = true → x.toNat + q.amps * q.size ≤ lrHeapLim s.lrec →
            (z = 0 → s.agrees true grp [x, y, grp] key → exec i s = .next (s.gathers i [x, y, grp] key [] none)) ∧
            (z = 1 → ∀ no t, shareAccess q false true (List.range q.amps) s = .ok (no, t) → t.agrees true grp [x, y, grp] key →
              exec i s = .next (t.gathers i [x, y, grp] key no none)))))) ∧
    ∀ q, s.astro.st = some q →
      (∀ ts, gateCheck q (s.gate g) x y s = .ok (ts, s) →
        let m := q.phys
        let n := remap q.l ts m
        let key : List Nat := [4, g.toNat] ++ (s.gate g).key ++ [x.toNat, y.toNat] ++ m
        ((ts.all fun t => decide (m.getD t 0 < q.l)) = true → ∀ no t, shareAccess q true true (q.offsets (controlled m y)) s = .ok (no, t) →
          exec (.qgate g a b) s = .next ((t.onAmps q no (q.offsets (controlled m y))
            (gateAmps (s.gate g) (ts.map fun t => m.getD t 0) (q.index 0))).pastWord .ast)) ∧
        ((ts.all fun t => decide (m.getD t 0 < q.l)) = false → ∀ n1 n2 t u,
          shareAccess q true true (q.offsets fun j => moveIndex m n j ≠ j) s = .ok (n1, t) →
          shareAccess q true true (q.offsets (controlled n y)) t = .ok (n2, u) → u.agrees false q.group [x, y] key →
          exec (.qgate g a b) s = .next (u.gathers (.qgate g a b) [x, y] key (n1 ++ n2) none))) ∧
      (bits x 63 56 ≠ 0xFE → ∀ p t v u, place .ast .load 6 x 64 s = .ok (p, t) →
        readPlace .ast 64 p t = .ok (v, u) →
        let n := imageMap q.n v
        let ops := n.map (BitVec.ofNat 64)
        (imageOk q.n v = false → exec (.qperm a) s = .next (s.faults .ast .qmap 0 0)) ∧
        (imageOk q.n v = true → ∀ no w, shareAccess q true true (q.offsets fun j => moveIndex q.phys n j ≠ j) u = .ok (no, w) →
          w.agrees false q.group ops ([7] ++ n ++ q.phys) →
          exec (.qperm a) s = .next (w.gathers (.qperm a) ops ([7] ++ n ++ q.phys) no none))) ∧
      (y &&& ~~~x ≠ 0 → exec (.qprob d a b c) s = .next range) ∧
      (y &&& ~~~x = 0 → x.toNat / 2 ^ q.n ≠ 0 → exec (.qprob d a b c) s = .next (s.faults .ast .qmap 0 0)) ∧
      (y &&& ~~~x = 0 → x.toNat / 2 ^ q.n = 0 → ∀ st t no u, resultPlace c s = .ok (st, t) →
        shareAccess q true false (q.offsets fun j => logicalOf q.phys j &&& x.toNat = y.toNat) t = .ok (no, u) →
        u.agrees false q.group [x, y] ([8, x.toNat, y.toNat] ++ q.phys) →
        exec (.qprob d a b c) s = .next (u.gathers (.qprob d a b c) [x, y] ([8, x.toNat, y.toNat] ++ q.phys) [] st)) ∧
      (∀ st t no u, resultPlace c s = .ok (st, t) → shareAccess q true false (q.offsets fun _ => true) t = .ok (no, u) →
        (u.agrees false q.group [0, 0] ([9, 0, 0] ++ q.phys) →
          exec (.qnorm d c) s = .next (u.gathers (.qnorm d c) [0, 0] ([9, 0, 0] ++ q.phys) [] st)) ∧
        (0 < (maskQubits x).length → (maskQubits x).length ≤ 8 → x.toNat / 2 ^ q.n = 0 → s.core.task.tx.st ≠ 0 →
          u.agrees false q.group [x, 0] ([10, x.toNat, 0] ++ q.phys) →
          exec (.qsample d a c) s = .next (u.gathers (.qsample d a c) [x, 0] ([10, x.toNat, 0] ++ q.phys) [] st))) ∧
      (let k := (maskQubits x).length;
        (k = 0 ∨ 8 < k → exec (.qsample d a c) s = .next range) ∧
        (0 < k → k ≤ 8 → x.toNat / 2 ^ q.n ≠ 0 → exec (.qsample d a c) s = .next (s.faults .ast .qmap 0 0)) ∧
        (0 < k → k ≤ 8 → x.toNat / 2 ^ q.n = 0 → s.core.task.tx.st = 0 → exec (.qsample d a c) s = .next (s.faults .ast .txState 0 0))) ∧
      (s.agrees false q.group [] ([12] ++ q.phys) → exec .qsync s = .next (s.gathers .qsync [] ([12] ++ q.phys) [] none))

/-- 10 R337, R338, R340, R345, R350: a collective of a state that one die holds runs for its stream: `QSYNC` only counts, `QINIT` opens
the state with zero but for the first amplitude under `z`, `QNORM` and `QPROB` leave their result in the register; it waits while
participants are missing. `ARESUME` gives a stopped stream back what its frame holds. -/
def Obligations.QubitRuns : Prop :=
  (∀ (s : State) (d : BitVec 2) (remote : List RemoteShare) (dead : Bool),
    let a := (s.dieAt d.toNat).astro
    (a.core = none ∨ a.wait = none → exec (.astroCollectiveRun d remote dead) s = .next s) ∧
    ∀ w q, a.core = some s.core.num → s.core.die = d.toNat → a.wait = some w → a.part = some q →
      (w.bad = true ∨ a.stop ≠ none → exec (.astroCollectiveRun d remote dead) s = .next s) ∧
      (w.bad = false → a.stop = none → w.cut = false → s.genAborted (s.core.job.getD 0) w.gen = false →
        s.shares w q = [{ core := s.core.num, w := w, q := q }] →
        (1 < q.parts → exec (.astroCollectiveRun d [] false) s = .next s) ∧
        (q.parts = 1 →
          (w.i = .qsync → exec (.astroCollectiveRun d [] false) s = .next (s.endGather w q none)) ∧
          (∀ x y z n ndb npb ty, w.i = .qinit x y z n ndb npb ty 0 → exec (.astroCollectiveRun d [] false) s =
            .next (s.endGather w { q with dies := [s.core.num / 64] } none)) ∧
          (∀ x y z n ndb npb ty, w.i = .qinit x y z n ndb npb ty 1 →
            exec (.astroCollectiveRun d [] false) s =
              .next ((s.writeAmps q w.refused (initAmps q)).endGather w { q with dies := [s.core.num / 64] } none)) ∧
          ((∃ x y, w.i = .qnorm x y) ∨ (∃ x y z v, w.i = .qprob x y z v) →
            let m := (w.ops.getD 0 0).toNat
            let v := (w.ops.getD 1 0).toNat
            let r := s.readAmps q (q.offsets fun j => logicalOf q.phys j &&& m = v)
            let all := r.2.1.map fun y => (q.index y.1, y.2)
            let sum := exactSum false (squares q.ty (all.filter fun y => logicalOf q.phys y.1 &&& m = v))
            r.2.2 = [] → r.1.core = s.core → exec (.astroCollectiveRun d [] false) s =
              .next (r.1.endGather w q (some (BitVec.ofNat 64 (roundFull fmt64 0 false false sum 0)))))))) ∧
  ∀ (s : State) (d : BitVec 2),
    let ga := gaOf s.pkg (s.aframeAt d.toNat)
    ((s.dieAt d.toNat).astro.stop = none → exec (.aresume d) s = .next s) ∧
    ((s.dieAt d.toNat).astro.stop ≠ none → s.plainAt ga 9216 (osAgent 0x600).key = true → ∃ t, exec (.aresume d) s = .next t ∧
      t.mem = s.mem ∧ t.core = s.core ∧ (t.dieAt d.toNat).astro = (s.dieAt d.toNat).astro.reload (s.mem.read ga 9216) ∧
      ∀ e : BitVec 2, e ≠ d → t.dieAt e.toNat = s.dieAt e.toNat)

/-- 01 R18, R21, R36, R37, R52: the hub's turn: nothing to admit, nothing happens; a job that can never have its cores ends with `LAUNCH`
and sub-code 11, with source 0 (log 22); one whose cores are free is admitted, or is brought back to them;
otherwise the running job that must make room is asked to, unless one is being asked already; a part of a pod-spanning job stays
chosen. A spilled job that is brought back holds its cores from this cycle on, with their contexts, which stood with the resident OS
(log 36); a word that was fetched but had not issued is fetched again. -/
def Obligations.HubTurns : Prop :=
  ∀ s : State,
    (s.chosenJob = none → exec .jobAdmission s = .next s) ∧
    (∀ j, s.chosenJob = some j →
      let cores : Option (List Nat) := if s.slotOk j = true then s.coresFor j else none
      let does (t : State) : Prop := exec .jobAdmission s = .next t
      let refuses : Prop := does ((s.unchoose j.id).endJob j.id 4 0x38 0 11 0)
      (s.neverFits j = true → refuses) ∧
      (s.neverFits j = false →
        (∀ l, cores = some l → j.st ≠ .spilled → does (s.admitJob j l)) ∧
        (∀ l, cores = some l → j.st = .spilled → does (s.unspill j)) ∧
        (cores = none →
          ((∃ k ∈ s.jobs, k.preq ≠ none) → does s) ∧
          ((∀ k ∈ s.jobs, k.preq = none) →
            (∀ k, s.victim j = some k →
              does ({ s with chosen := if s.alone j then s.chosen else some j.id }.requestPreempt k.id)) ∧
            (s.victim j = none → (s.alone j = true ∨ s.chosen = some j.id → does s) ∧
              (s.alone j = false → s.chosen ≠ some j.id → does { s with chosen := some j.id })))))) ∧
    (∀ (id : BitVec 16) (j : Job), s.jobAt id.toNat = some j →
      (j.st ≠ .spilled ∨ s.coresFor j = none → exec (.spilledJobResume id) s = .next s) ∧
      (j.st = .spilled → s.coresFor j ≠ none → ∃ t, exec (.spilledJobResume id) s = .next t ∧
        t.chosen = (if s.chosen = some j.id then none else s.chosen) ∧
        (j.frames = [] → t.mem = s.mem ∧
          (t.jobs = s.jobs.map fun k => if k.id = j.id then
            { k with st := .running, since := s.chron.toNat, spill := [], aspill := [], frames := [] } else k) ∧
          ∀ c, j.spill = [c] → j.aspill = [] → t.coreAt c.num =
            { c with tlb := (s.coreAt c.num).tlb, code := (s.coreAt c.num).code, repin := c.task.pins, ready := [], fw := (s.coreAt c.num).fw }))) ∧
    ∀ id : BitVec 16, s.jobAt id.toNat = none → exec (.spilledJobResume id) s = .next s

/-- 01 R19, R38, R50, R51, 14 R454: the requests about a job: a pre-emption is noted once, for a running job that is no firmware
context; 2^16 cycles later, with no barrier released, its cores stop, and when all have written their frames its whole context is spilled, to where the resident
OS holds it (log 36), and its cores are free;
past its time limit a job ends with `STATE` 5, and the resident OS may end one; a waiting part of which another package has refused a
part, which comes as an end with `STATE` 4 (log 22), is refused; fencing a core off sets its bit.

01 R19, R21: the end of a job without descendants, outside a transaction: its completion area holds its record, no other byte
changes, its cores are free, and the hub reports it. -/
def Obligations.JobRequestsAndEnds : Prop :=
  (
  ∀ (s : State) (id : BitVec 16) (j : Job), s.jobAt id.toNat = some j →
    let now : Nat := s.chron.toNat
    (j.st ≠ .running ∨ j.fw = true ∨ j.preq ≠ none → exec (.preemptRequest id) s = .next s) ∧
    (j.st = .running → j.fw = false → j.preq = none → ∃ t, exec (.preemptRequest id) s = .next t ∧ t.mem = s.mem ∧ t.ctl = s.ctl ∧
      (t.jobs = s.jobs.map fun k => if k.id = j.id then { k with preq := some now } else k) ∧
      (s.core.job = some j.id →
        t.core.stop = s.core.stop.map fun r => if r.fchron = s.chron ∧ r.framed = false then { r with pend := true } else r)) ∧
    (s.timeoutDue j = false → exec (.preemptTimeout id) s = .next s) ∧
    (∀ p, j.preq = some p → p + 2 ^ 16 ≤ now → j.st = .running →
      (s.coresOf j.id = [s.core] → s.core.stop = none → s.core.live ≠ [] → s.core.bar.till = none → s.astrosOf j.id = [] → lrTxn j.lrec = false →
        exec (.preemptTimeout id) s = .next (s.faults .ctl .preempt 0 0)) ∧
      (s.allFramed j.id = true → lrTxn j.lrec = false → (∀ x ∈ s.slotsOf j.id, s.plainAt (gaOf s.pkg x.1) x.2 0 = true) →
        ∃ t, exec (.preemptTimeout id) s = .next t ∧ t.mem = s.mem ∧ (∀ c ∈ s.coresOf j.id, (t.coreAt c.num).job = none) ∧
        t.jobs = s.jobs.map fun k => if k.id = j.id then { k with
          st := .spilled, spill := s.coresOf j.id, aspill := s.astrosOf j.id, preq := none, preempts := k.preempts + 1
          enq := now, used := k.held now
          frames := (s.slotsOf j.id).map fun x => (x.1, x.2, leNat (s.mem.read (gaOf s.pkg x.1) x.2)) } else k)) ∧
    (let due : Prop := j.st = .running ∧ j.fw = false ∧ lrTlimit j.lrec ≠ 0 ∧ lrTlimit j.lrec * 2 ^ 20 ≤ j.held now;
      (¬due → exec (.timeLimit id) s = .next s) ∧ (due → exec (.timeLimit id) s = .next (s.endJob j.id 5 0 0 0 0))) ∧
    (∀ st cause src va,
      (j.st = .closing → exec (.endedByTheOs id st cause src va) s = .next s) ∧
      (let refused := st = 4 ∧ j.st = .waiting ∧ s.alone j = false
       (j.st ≠ .closing → ¬refused →
        exec (.endedByTheOs id st cause src va) s = .next (s.endJob j.id st.toNat cause.toNat src.toNat 0 va.toNat)) ∧
       (refused → exec (.endedByTheOs id st cause src va) s = .next ((s.unchoose j.id).endJob j.id 4 0x38 0 11 0)))) ∧
    ∀ core : BitVec 8, (∀ k ∈ s.jobs, k.st ≠ .spilled ∨ core.toNat ∉ k.cores) →
      ∃ t, exec (.fencingOffOfACore core) s = .next t ∧ t.mem = s.mem ∧ t.core = s.core ∧ t.jobs = s.jobs ∧
        ∀ n, n < 256 → t.fences.getLsbD n = (s.fences.getLsbD n || decide (n = core.toNat))
  ) ∧
  (
  ∀ (s : State) (id : Nat) (j : Job) (st cause src sub va : Nat), s.jobAt id = some j → lrTxn j.lrec = false → j.decided = [] →
    j.parent = none →
    (∀ k ∈ s.jobs, ∀ p, k.parent = some p → p.1 ≠ id) → (∀ a ∈ s.accs, a.job ≠ id) → s.mem.wf = true →
    lrHeapBase j.lrec ≤ lrCompl j.lrec → lrCompl j.lrec + 64 ≤ lrHeapLim j.lrec → lrCompl j.lrec % 64 = 0 →
    let ga := gaOf s.pkg (lrCompl j.lrec + lrHeapOff j.lrec)
    s.plainAt ga 64 j.key = true →
    let t := s.endJob id st cause src sub va
    t.mem.wf = true ∧ t.signals = s.signals ++ [.jobEnded id (BitVec.ofNat 8 st)] ∧
    t.jobs = s.jobs.filter (fun k => k.id ≠ id ∨ k.st = .closing) ∧ (∀ c ∈ s.coresOf id, (t.coreAt c.num).job = none) ∧
    ∀ a, t.mem.get a = if ga ≤ a ∧ a < ga + 64 then (j.complBytes s.chron.toNat st cause src sub va).getD (a - ga) 0 else s.mem.get a
  )

/-- 14 R440 to R443, 01 R18: the host: a submission without its address space, whose record cannot be read, or to a full queue is
dropped and counted; one that a record check fails ends with `LAUNCH` and the sub-code; another waits in its queue, with the root, key
and class map that the resident OS has opened the space with (log 22). A host read of
memory changes no byte of it, a host write the bytes that its mask names. The mailbox serves one request at a time, by the next step
(log 34), an attestation with its report; an arrival at a bound barrier slot is noted once. -/
def Obligations.HostInterface : Prop :=
  ∀ s : State,
    (s.hostUp = false → (∀ va asid, exec (.hostSubmit va asid) s = .next s) ∧ (∀ pa, exec (.hostRead pa) s = .next s) ∧
      (∀ pa m d, exec (.hostWrite pa m d) s = .next s) ∧ ∀ op, exec (.mailboxAttest op) s = .next s) ∧
    (s.hostUp = true →
      let dropped (t : State) : State := { t with
        host := { t.host with hrefused := t.host.hrefused + 1 }, signals := t.signals ++ [.dropped] }
      (∀ (va : BitVec 42) (asid : BitVec 16),
        ((∀ x ∈ s.spaces, x.asid ≠ asid ∨ x.host = false) → exec (.hostSubmit va asid) s = .next (dropped s)) ∧
        ∀ x, (s.spaces.find? fun x => decide (x.asid = asid) && x.host) = some x →
          (∀ t, s.hostRecord x (va.toNat * 64) = (t, none) → exec (.hostSubmit va asid) s = .next (dropped t)) ∧
          ∀ t r, s.hostRecord x (va.toNat * 64) = (t, some r) →
            let j := Job.new t.nextJob false r (va.toNat * 64) asid x.root x.key x.clsmap (lrPrio r) t.chron.toNat
            let u : State := { t with jobs := t.jobs ++ [j], nextJob := t.nextJob + 1 }
            (4096 ≤ t.queueDepth (lrPrio r) → exec (.hostSubmit va asid) s = .next (dropped t)) ∧
            (t.queueDepth (lrPrio r) < 4096 → t.recordFail r false = 0 → exec (.hostSubmit va asid) s = .next u) ∧
            (t.queueDepth (lrPrio r) < 4096 → t.recordFail r false ≠ 0 →
              exec (.hostSubmit va asid) s = .next (u.endJob t.nextJob 4 0x38 0 (t.recordFail r false) 0))) ∧
      (∀ pa : BitVec 40,
        let ga := gaOf s.pkg (pa.toNat / 64 * 64)
        (dramSize ≤ pa.toNat / 64 * 64 → exec (.hostRead pa) s = .next s ∧ ∀ m d, exec (.hostWrite pa m d) s = .next s) ∧
        (pa.toNat / 64 * 64 < dramSize → s.plainAt ga 64 0 = true →
          (∃ t, exec (.hostRead pa) s = .next t ∧ t.mem = s.mem ∧ t.core = s.core) ∧
          (s.mem.wf = true → ∀ m d, ∃ t, exec (.hostWrite pa m d) s = .next t ∧ t.mem.wf = true ∧ t.core = s.core ∧
            ∀ a, t.mem.get a = if ga ≤ a ∧ a < ga + 64 ∧ m.getLsbD (a - ga) = true then d.extractLsb' (8 * (a - ga)) 8
              else s.mem.get a))) ∧
      (∀ op, (s.host.mbgo = true → exec (.mailboxAttest op) s = .next s) ∧
        (s.host.mbgo = false → exec (.mailboxAttest op) s = .next { s with
          host := { s.host with mbop := op, mbgo := true, mbstat := 1 } }))) ∧
    (s.host.mbgo = false → exec .mailboxResponse s = .next s) ∧
    (s.host.mbgo = true →
      let h : HostIf := { s.host with mbgo := false, msix := s.host.msix ++ [0] }
      (s.host.mbop = 1 → exec .mailboxResponse s = .next { s with host := { h with
        mbstat := 0, mbrlen := 4883, mbresp := s.report s.host.mbnonce } }) ∧
      (s.host.mbop ≠ 1 → exec .mailboxResponse s = .next { s with host := { h with mbstat := 2, mbrlen := 0 } })) ∧
    ∀ (n : Nat) (k : n < 16),
      let x := s.host.slots[n]
      (x.job = none ∨ x.arr ≠ none → exec (.hostBarrierArrive (BitVec.ofNat 4 n)) s = .next s) ∧
      (x.job ≠ none → x.arr = none → exec (.hostBarrierArrive (BitVec.ofNat 4 n)) s = .next { s with
        host := { s.host with slots := s.host.slots.set n { x with arr := some s.chron.toNat } } })

/-- 14 R445, R448, R449: the management port: without power none is served; a request whose number has been answered gets that
answer again and has no other effect; while the mask ROM waits,
a type it does not serve is refused; otherwise chunks gather, a gathered image that verifies goes to flash and one that does not is
refused with `MSTAT` 2, membership is configured, and attestation, telemetry and status are answered; what a status answer lays out
(version, reset step and fence map at 8, 8 and 32 bytes) and what telemetry does is log 34's. -/
def Obligations.ManagementPort : Prop :=
  ∀ (s : State) (q : BitVec 32),
    let ans (t : State) (l : List MFrame) : State := { t with mgmt := { t.mgmt with answers := t.mgmt.answers ++ l } }
    (∀ i, (∃ off b, i = Instr.imageChunk q off b) ∨ i = .imageCommit q ∨
      (∃ n, i = .attestationRequest q n) ∨ i = .telemetryRequest q ∨ (∃ g m, i = .podMembership q g m) ∨ i = .statusRequest q →
      (s.portOn = false → exec i s = .next s) ∧
      (s.portOn = true → (∃ a ∈ s.mgmt.answers, a.mseq = q) →
        exec i s = .next (ans s ((s.mgmt.answers.filter fun a => a.mseq = q).eraseDups)))) ∧
    (s.portOn = true → (∀ a ∈ s.mgmt.answers, a.mseq ≠ q) →
      (∀ (off : BitVec 64) (b : List Byte),
        (frameMax < b.length ∨ imageMax < off.toNat + b.length → exec (.imageChunk q off b) s = .next (ans s [ack 1 1 q])) ∧
        (b.length ≤ frameMax → off.toNat + b.length ≤ imageMax → exec (.imageChunk q off b) s = .next (ans { s with
          mgmt := { s.mgmt with chunks := s.mgmt.chunks ++ [(off.toNat, b)] } } [ack 1 0 q]))) ∧
      (let m := gatherChunks s.mgmt.chunks
        let t : State := { s with mgmt := { s.mgmt with chunks := [] } }
        (fwImageOk m = false → exec (.imageCommit q) s = .next (ans t [ack 2 2 q])) ∧
        (fwImageOk m = true → s.romWaits = false → exec (.imageCommit q) s = .next (ans { t with flash := m } [ack 2 0 q])) ∧
        (fwImageOk m = true → s.romWaits = true →
          exec (.imageCommit q) s = .next (ans { State.boot { t with flash := m } with mgmt := t.mgmt } [ack 2 0 q]))) ∧
      exec (.statusRequest q) s = .next (ans s (framesOf 6 q (wordLe 8 s.fwver ++ natLe 8 s.rstep ++ natLe 32 s.fences.toNat))) ∧
      (s.romWaits = true → (∀ n, exec (.attestationRequest q n) s = .next (ans s [ack 3 1 q])) ∧
        exec (.telemetryRequest q) s = .next (ans s [ack 4 1 q]) ∧
        ∀ g m, exec (.podMembership q g m) s = .next (ans s [ack 5 1 q])) ∧
      (s.romWaits = false → (∀ n, exec (.attestationRequest q n) s = .next (ans s (framesOf 3 q (s.report n)))) ∧
        exec (.telemetryRequest q) s = .next (ans s (framesOf 4 q s.telemetry)) ∧
        ∀ g m, exec (.podMembership q g m) s = .next (ans { s with
          groups := (s.groups.filter fun x => x.num ≠ g) ++ if m = [] then [] else [{ num := g, pkgs := m }] } [ack 5 0 q])))

/-- 00 R6, 01 R49, 04 R133, 11 R369, 13 R427, 14 R441: a doubleword written to a device register: the areas of the resident OS, of which
a greater limit of a table lifts its stall; the registers that start something do what their events do; read-only ones ignore it; BAR0
begins at offset 2^40, and an offset that the spec gives no register stops the model (log 34). A read of a write-only register, or of a key slot, gives zero. -/
def Obligations.RegisterWrites : Prop :=
  ∀ (s : State) (v : Word),
    let at_ (o : Nat) : Instr := .registerWrite (BitVec.ofNat 41 o) v
    let a : BitVec 28 := v.extractLsb' 12 28
    (∀ off : BitVec 12, off.toNat % 8 ≠ 0 ∨ 0x78 ≤ off.toNat → exec (.areaLimitWrite off v) s = .fault .noSuchRegister) ∧
    (exec (.areaLimitWrite 0x60 v) s = exec (.resume (v.extractLsb' 0 8)) s) ∧
    (exec (.areaLimitWrite 0x68 v) s = exec (.aresume (v.extractLsb' 0 2)) s) ∧
    (exec (.areaLimitWrite 0x70 v) s = .next s) ∧
    (exec (.areaLimitWrite 0x00 v) s = .next { s with os := { s.os with framebase := a } }) ∧
    (exec (.areaLimitWrite 0x08 v) s = .next { s with os := { s.os with aframebase := a } }) ∧
    (exec (.areaLimitWrite 0x10 v) s = .next { s with os := { s.os with ctbase := a } }) ∧
    (exec (.areaLimitWrite 0x18 v) s = .next { s with os := { s.os with
      ctlim := a, ctfull := s.os.ctfull && !decide (s.os.ctlim < a) } }) ∧
    (∀ (d : Nat) (h : d < 4),
      exec (.areaLimitWrite (BitVec.ofNat 12 (0x20 + 16 * d)) v) s = .next { s with os := { s.os with rspbase := s.os.rspbase.set d a } } ∧
      ∃ t, exec (.areaLimitWrite (BitVec.ofNat 12 (0x28 + 16 * d)) v) s = .next t ∧ t.os.rsplim = s.os.rsplim.set d a ∧
        ∀ e : Nat, e < 4 → t.os.rspfull.getLsbD e = (s.os.rspfull.getLsbD e && !(decide (e = d) && decide (s.os.rsplim[d] < a)))) ∧
    (∀ o, o % 8 = 0 → o < 0x78 → exec (at_ (0x300000 + o)) s = exec (.areaLimitWrite (BitVec.ofNat 12 o) v) s) ∧
    (∀ n : BitVec 8, v.getLsbD 0 = true → exec (at_ (0x400018 + 32 * n.toNat)) s = exec (.firmwareStart n) s) ∧
    (∀ o, 0x1000 ≤ o → o < 0x5000 → o % 8 = 0 → exec (at_ (0x500000 + o)) s = exec (.keySlotWrite (BitVec.ofNat 16 o) v) s) ∧
    (∀ n : BitVec 4, v.getLsbD 0 = true →
      exec (at_ (0x506000 + 32 * n.toNat)) s = exec (.regionDeclare n v) s) ∧
    exec (at_ 0x600000) s = .next { s with node := { s.node with txtmo := v.extractLsb' 0 32 } } ∧
    exec (at_ 0x600008) s = .next s ∧
    (∀ o, 0x510000 ≤ o → o < 0x5D0000 → exec (at_ o) s = .next s) ∧
    (∀ o, o < 0x3313 → s.hostUp = false → exec (at_ (2 ^ 40 + o)) s = .next s) ∧
    (s.hostUp = true →
      exec (at_ (2 ^ 40)) s = exec (.hostSubmit (v.extractLsb' 6 42) (v.extractLsb' 48 16)) s ∧
      (∀ n : BitVec 4, v.getLsbD 0 = true → exec (at_ (2 ^ 40 + 0x110 + 32 * n.toNat)) s = exec (.hostBarrierArrive n) s) ∧
      (v.getLsbD 8 = true → exec (at_ (2 ^ 40 + 0x1000)) s = exec (.mailboxAttest (v.extractLsb' 0 8)) s)) ∧
    s.deviceWord 0x300060 = 0 ∧ s.deviceWord 0x300068 = 0 ∧
    (∀ o, 0x501000 ≤ o → o < 0x505000 → s.deviceWord o = 0) ∧
    ∀ o, o < 2 ^ 40 → o < 0x300000 ∨ 0x700100 ≤ o → exec (at_ o) s = .fault .noSuchRegister

/-- 01 R33, 14 R446, R447, 13 R422, R425: the pod ports: an alignment moves no Chronograph of an aligned package (log 34); a port that is down or dead takes no flit;
the codewords corrected are counted, saturating;
a flit whose check fails is replayed, and the eighth failed replay kills the port; one whose check holds delivers its packet, or the
bytes that its mask names by the agent of its port (log 34), or brings a contribution of another package's task behind the reductions on their way. A trained port is up unless it is dead; a dead port stays dead. -/
def Obligations.PodPorts : Prop :=
  ∀ (s : State) (n : BitVec 4),
    let p := s.ports[n.toNat]
    let set (t : State) (q : Port) : State := { t with ports := t.ports.set! n.toNat q }
    let seen (k : BitVec 32) : Port :=
      { p with fecfix := if p.fecfix.toNat + k.toNat < 2 ^ 32 then p.fecfix + k else BitVec.allOnes 32 }
    let ready (k : BitVec 32) : State := set s { seen k with tries := 0 }
    (∀ stamp, exec (.chronAlign n stamp) s = .next s) ∧
    exec (.portDead n) s = .next (set s { p with up := false, dead := true, tries := 0 }) ∧
    (∀ peer, (s.hostUp = false → exec (.portTrained n peer) s = .next s) ∧
      (s.hostUp = true → exec (.portTrained n peer) s =
        .next (set s (if p.dead then p else { p with up := true, peer := peer, tries := 0 })))) ∧
    (p.up = false ∨ p.dead = true → ∀ b ok k, exec (.flitReceive n b ok k) s = .next s) ∧
    (p.up = true → p.dead = false → ∀ k,
      (∀ b, exec (.flitReceive n b false k) s = .next (set s (if 8 ≤ p.tries then { seen k with up := false, dead := true, tries := 0 }
        else { seen k with replays := p.replays + 1, tries := p.tries + 1 }))) ∧
      (∀ v, exec (.flitReceive n (.vote v) true k) s = exec (.votePacket v) (ready k)) ∧
      (∀ v, exec (.flitReceive n (.decision v) true k) s = exec (.decisionPacket v) (ready k)) ∧
      (∀ t, exec (.flitReceive n (.align t) true k) s = .next (ready k)) ∧
      ∀ ga m d, (gaPkg ga.toNat ≠ s.pkg.toNat → exec (.flitReceive n (.data ga m d) true k) s = .next (ready k)) ∧
        (gaPkg ga.toNat = s.pkg.toNat → gaPa ga.toNat / 64 * 64 % 2 ^ 40 < dramSize →
          exec (.flitReceive n (.data ga m d) true k) s =
            .next ((ready k).maskedWrite (gaPa ga.toNat / 64 * 64) (portAgent n.toNat) m d))) ∧
    (p.up = true → p.dead = false → ∀ k (ga : BitVec 54) (g : BitVec 16) (key : BitVec 8) (op : BitVec 3) (ty : BitVec 4) (v : Word),
      let run := exec (.flitReceive n (.red ga g key op ty v) true k) s
      let job (j : Job) : Bool := 4 < lrSpan j.lrec && lrGroup j.lrec = g.toNat && j.st ≠ .waiting
      (gaPkg ga.toNat ≠ s.pkg.toNat ∨ dramSize ≤ gaPa ga.toNat % 2 ^ 40 ∨ s.jobs.find? job = none → run = .next (ready k)) ∧
      ∀ j, gaPkg ga.toNat = s.pkg.toNat → gaPa ga.toNat % 2 ^ 40 < dramSize → s.jobs.find? job = some j →
        ∃ m : RedMsg, run = .next { ready k with reds := s.reds ++ [m] } ∧ m.job = j.id ∧ m.asid = j.asid ∧ m.away = true ∧ m.pa = ga.toNat ∧ m.key = key ∧
          m.op = op.toNat ∧ m.ty = ty.toNat ∧ m.val = v &&& BitVec.ofNat 64 (2 ^ (8 * redSize ty.toNat) - 1) ∧ m.fail = none)

/-- 14 R444, R448, R450, R451, R455: resets and power: a cold reset keeps flash alone (and what stands outside the package), runs a good
image to step 7, or to step 3 when its training fails, and waits in the mask ROM otherwise; a warm reset ends every job and keeps memory, its metadata, the version regions and the Carafe common block (log 35); a
thermal shutdown ends every job and takes the power; its loss keeps flash, unless a write of it was cut. Throttling gates issue.

14 R453, R454: an uncorrectable error of a memory inside the package: a clean line is dropped without a trace, a dirty one goes to
its home as poisoned, in another package too, a translation or a line of a code cache is dropped; one in a core's own state raises
`MACHINE_CHECK` with its structure in the control engine of that core (log 35), which writes its frame at once when it runs nothing
(log 22); one in a directory or in the hub raises it in the cores of
the die, or of the package, that run jobs. -/
def Obligations.ResetsPowerAndErrors : Prop :=
  (
  ∀ s : State,
    (∀ failed, ∃ t, exec (.coldReset failed) s = .next t ∧ t.flash = s.flash ∧
      t.mem = s.mem.filter (fun c => gaPkg c.1 ≠ s.pkg.toNat) ∧ t.sectors = [] ∧
      t.jobs = [] ∧ t.core = Core.reset 0 ∧ t.others = [] ∧ t.regions = State.reset.regions ∧ t.pkg = s.pkg ∧ t.chron = 0 ∧
      (fwImageOk s.flash = true → t.fwdigest = fwDigest s.flash ∧
        t.rstep = (if Config.trainingFails s.free then 2 else 7) ∧ (t.rstep = 7 → t.fences = failed)) ∧
      (fwImageOk s.flash = false → t.rstep = 0 ∧ t.fences = failed)) ∧
    (∀ failed, (s.hostUp = false → exec (.warmReset failed) s = .next s) ∧
      (s.hostUp = true → ∃ t, exec (.warmReset failed) s = .next t ∧ t.jobs = [] ∧ t.core = Core.reset 0 ∧
        (t.rstep = 2 ∨ t.rstep = 7 ∧ t.fences = failed) ∧
        t.others = [] ∧ t.host = HostIf.reset ∧ t.chron = 0 ∧
        (let u := s.endAll 3;
          u.orphans = [] → (∃ w, exec .scrubPeriodEnd u = .next w ∧
            t.mem = w.mem ∧ t.sectors = w.sectors ∧ t.regions = w.regions ∧ t.blocks = w.blocks ∧ t.flash = w.flash ∧ t.pkg = w.pkg ∧
            t.carafe.frd = w.carafe.frd ∧ t.carafe.keys = w.carafe.keys ∧ t.carafe.rcen = w.carafe.rcen ∧
            t.carafe.elogbase = w.carafe.elogbase)))) ∧
    exec .thermalShutdown s = .next { s.endAll 3 with powered := false } ∧
    (∀ cut, ∃ t, exec (.powerLoss cut) s = .next t ∧ t.powered = false ∧ t.rstep = 0 ∧
      t.mem = s.mem.filter (fun c => gaPkg c.1 ≠ s.pkg.toNat) ∧ t.jobs = [] ∧
      t.flash = if cut then [] else s.flash) ∧
    exec .thermalThrottle s = .next { s with gated := true } ∧
    exec .fallBelowLimits s = .next { s with gated := false }
  ) ∧
  (
  ∀ s : State,
    (∀ n, exec (.sramError (.cleanLine n)) s = .next s) ∧
    (∀ n, exec (.sramError (.versionCache n)) s = .next s) ∧
    (∀ n k, exec (.sramError (.tlbEntry n k)) s =
      .next (s.mapCoreAt n.toNat fun c => { c with tlb := c.tlb.eraseIdx k.toNat })) ∧
    (∀ d k, exec (.sramError (.dieTlbEntry d k)) s =
      .next (s.mapDie d.toNat fun x => { x with tlb := x.tlb.eraseIdx k.toNat })) ∧
    (∀ n k, (s.core.code.length ≤ k.toNat → n.toNat = s.core.num → ∃ t, exec (.sramError (.codeLine n k)) s = .next t ∧ t.core = s.core) ∧
      ∀ l, n.toNat = s.core.num → s.core.code[k.toNat]? = some l → exec (.sramError (.codeLine n k)) s = .next (s.mapCore fun c => { c with
        code := c.code.eraseIdx k.toNat, repin := if l.pinned then c.repin ++ [l.va] else c.repin })) ∧
    (∀ a : BitVec 55,
      let l : Nat := a.toNat / 128 * 128
      let p : Nat := gaPa l
      let runs := exec (.sramError (.dirtyLine a)) s
      (gaHost l = true ∨ gaPkg l ≠ s.pkg.toNat → ∃ t, runs = .next t ∧ t.mem = s.mem ∧ t.core = s.core ∧ t.sectors = s.sectors ∧
        l ∈ t.rpoison ∧ l + 64 ∈ t.rpoison) ∧
      (gaHost l = false → gaPkg l = s.pkg.toNat → dramSize ≤ p % 2 ^ 40 → runs = .next s) ∧
      (gaHost l = false → gaPkg l = s.pkg.toNat → p < dramSize → s.regionAt p = none → s.regionAt (p + 64) = none →
        ∃ t, runs = .next t ∧ t.mem = s.mem ∧ t.core = s.core ∧ (t.sectorAt p).poison = true ∧ (t.sectorAt (p + 64)).poison = true)) ∧
    (∀ d, (∀ n ∈ s.jobCores, n / 64 ≠ d.toNat) → exec (.sramError (.directory d)) s = .next s) ∧
    (∀ d, s.jobCores = [s.core.num] → s.core.num / 64 = d.toNat →
      exec (.sramError (.directory d)) s = .next (s.faults .ctl .machineCheck 0 6)) ∧
    (s.jobCores = [] → exec (.sramError .hub) s = .next s) ∧
    (s.jobCores = [s.core.num] → exec (.sramError .hub) s = .next (s.faults .ctl .machineCheck 0 7)) ∧
    ∀ (n : BitVec 8) (p : SramPlace) (code : Nat),
      (p = .registers n ∧ code = 1) ∨ (p = .accumulator n ∧ code = 2) ∨ (p = .scratchpad n ∧ code = 3) ∨
        (p = .flagState n ∧ code = 4) ∨ (p = .queueState n ∧ code = 5) →
      (n.toNat = s.core.num → s.core.job = none → s.core.stop = none → ∃ t r, exec (.sramError p) s = .next t ∧ t.core.stop = none ∧
        r.cause = .machineCheck ∧ r.finfo = BitVec.ofNat 32 code ∧ r.eng = .ctl ∧
        t = ((s.mapCore fun c => { c with stop := some r }).writeFrame r).mapCore fun c => { c with stop := none }) ∧
      (n.toNat = s.core.num → s.core.job ≠ none → exec (.sramError p) s = .next (s.faults .ctl .machineCheck 0 code))
  )

/-- 04 R133, R135, R146: a fetch at the end of the code section raises `RANGE` with its address; a fetched and decoded word leaves
the state as it was. A firmware start is ignored while the core has a job, fails on a bad record, and else starts its one task in
firmware mode. -/
def Obligations.FetchesAndStarts : Prop :=
  (∀ (s : State) (k : Strm) (i : Instr) (lo hi : BitVec 32),
    let pc := (s.pcOf k).toNat
    let last := lrCodeBase s.lrec (strmCode k) + lrCodeLen s.lrec (strmCode k)
    let two := k ≠ .ctl ∧ (k ≠ .vec ∨ (lo.getLsbD 0 = true ∧ lo.extractLsb' 2 6 ≠ 0x3F))
    (pc = last → exec (.codeFetch k) s = .next (s.faults k .range pc 0)) ∧
    (pc ≠ last → (k = .ctl → s.core.repin = []) → s.codeWord pc = some lo → (two → s.codeWord (pc + 4) = some hi) →
      (¬two → hi = 0) → (k = .vec → (s.core.vec.entry = true → lo.getLsbD 1 = true) ∧ (s.core.vec.pfx ≠ none → lo.getLsbD 1 = false)) →
      decodeWord k (hi ++ lo) = .ok i →
      exec (.codeFetch k) s = .next (if k = .vec then s.mapVec fun v => { v with entry := false } else s))) ∧
  ∀ (s : State) (n : BitVec 8),
    let c := s.coreAt n.toNat
    let ga := gaOf s.pkg c.fw.recp.toNat
    let r : BitVec 4608 := BitVec.ofNat 4608 (leNat (s.mem.read ga 576))
    (c.job ≠ none → exec (.firmwareStart n) s = .next s) ∧
    (c.job = none → s.plainAt ga 576 0 = true →
      (s.recordFail r true ≠ 0 → exec (.firmwareStart n) s =
        .next (s.mapCoreAt n.toNat fun c => { c with fw := { c.fw with go := false, fail := true } })) ∧
      (s.recordFail r true = 0 →
        let j : Job := { Job.new s.nextJob true r c.fw.recp.toNat c.fw.asid c.fw.root 0 0 (lrPrio r) s.chron.toNat with
          st := .running, cores := [n.toNat], admitted := some s.chron.toNat }
        let t : State := { s with jobs := s.jobs ++ [j], nextJob := s.nextJob + 1 }
        exec (.firmwareStart n) s = .next ((t.takeTasks s.nextJob n.toNat (lrSpsize r) [j.freshTask 0 0] fun u => u).onCore n.toNat fun u =>
          (u.mapCore fun c => { c with mode := .firmware, fw := { c.fw with go := true, fail := false } }).goOn)))

/-- 13 R422 to R426, R435, R436: votes and decisions: the package vote of a job that runs in this package alone is sent 64 cycles after
its last task has voted, and decides: it commits when no task and no cause raised a flag. A vote of a decided generation is discarded
at the root, and sent on by any other node (log 33); the root that waits in vain decides with `TIMEOUT`; a decision joins those that wait
in the package, in order (log 33), when it is of the generation that the tree decides next, and is ignored otherwise. -/
def Obligations.VotesAndDecisions : Prop :=
  (∀ (s : State) (id : BitVec 16) (j : Job), s.jobAt id.toNat = some j →
    (j.voted = none ∨ j.sent = true ∨ (∃ v, j.voted = some v ∧ s.chron.toNat < v + 64) → exec (.packageVote id) s = .next s) ∧
    (∀ v, j.voted = some v → v + 64 ≤ s.chron.toNat → j.sent = false → lrSpan j.lrec ≤ 4 → j.decided = [] → j.votes = [] →
      let vs := (s.liveTasks j).filterMap fun t => t.tx.vote
      let fl : Nat := vs.foldl (fun f v => f ||| v.1.toNat) 0 ||| (if j.corr then 4 else 0)
      ∃ t p k, exec (.packageVote id) s = .next t ∧ t.mem = s.mem ∧ t.core = s.core ∧ t.jobAt id.toNat = some k ∧ k.sent = true ∧
        k.decided = [(p, s.chron.toNat)] ∧ pkGen p = j.gen.toNat % 2 ^ 16 ∧ pkFlags p = fl % 2 ^ 16 ∧ pkCommit p = decide (fl % 64 = 0) ∧
        pkCount p = lrTasks j.lrec) ∧
    (j.votes = [] ∨ s.rankOf j.lrec ≠ 0 ∨ s.node.txtmo = 0 ∨ j.first = none ∨
        (∃ f, j.first = some f ∧ s.chron.toNat < f + s.node.txtmo.toNat * 2 ^ 10) → exec (.rootTimeout id) s = .next s) ∧
    (∀ f, j.first = some f → j.votes ≠ [] → s.rankOf j.lrec = 0 → s.node.txtmo ≠ 0 →
      f + s.node.txtmo.toNat * 2 ^ 10 ≤ s.chron.toNat → ∃ t p k, exec (.rootTimeout id) s = .next t ∧ t.mem = s.mem ∧ t.core = s.core ∧
        t.jobAt id.toNat = some k ∧ k.decided = j.decided ++ [(p, s.chron.toNat)] ∧ pkCommit p = false ∧ pkFlags p / 32 % 2 = 1)) ∧
  ∀ (s : State) (p : BitVec 128),
    (s.groupJob (pkGroup p) = none → exec (.votePacket p) s = .next s ∧ exec (.decisionPacket p) s = .next s) ∧
    ∀ j, s.groupJob (pkGroup p) = some j → s.jobAt j.id = some j →
      let old : Nat := (j.treeGen.toNat + 2 ^ 16 - pkGen p) % 2 ^ 16
      (0 < old → old < 2 ^ 15 → exec (.votePacket p) s = .next (if s.rankOf j.lrec = 0 then s
        else { s with node := { s.node with sent := s.node.sent ++ [p] } })) ∧
      (¬(0 < old ∧ old < 2 ^ 15) → j.votes.length + 1 < nodeVotes (s.rankOf j.lrec) (s.packagesOf j) →
        exec (.votePacket p) s = .next { s with jobs := s.jobs.map fun k =>
          if k.id = j.id then { j with votes := j.votes ++ [p], first := some (j.first.getD s.chron.toNat) } else k }) ∧
      (pkGen p ≠ j.treeGen.toNat % 2 ^ 16 → exec (.decisionPacket p) s = .next s) ∧
      (pkGen p = j.treeGen.toNat % 2 ^ 16 → ∃ t k, exec (.decisionPacket p) s = .next t ∧ t.mem = s.mem ∧
        t.core = s.core ∧ t.jobAt j.id = some k ∧ k.decided = j.decided ++ [(p, s.chron.toNat)] ∧ k.first = none ∧ k.votes = [])

/-- 13 R411, R426: a decision is applied once every task has voted or ended, 16 cycles have passed and no pass holds it up: the job
goes to its next generation, S of each region of its address space goes up by one, an abort being remembered but in a stack without a
block of the region, where VPASS follows S (log 31), and the counters of the commit node count it. A job that has ended stays until the
last decision that waits for it is applied.

13 R407, R416, R417: a region is declared once, refused when it is empty, too high or meets another in service, and then has fresh
passes; its retirement, by the register write that clears VV (log 33), takes it out of service and leaves no block of it changed in slot 1; a pass whose pointer has passed the last
block ends, the generations before it forgotten; a pass that is late is finished at once. -/
def Obligations.CommitsAndRegions : Prop :=
  (
  ∀ (s : State) (id : BitVec 16) (j : Job), s.jobAt id.toNat = some j →
    (s.applyReady j = false → exec (.decisionApply id) s = .next s) ∧
    (∀ p c ds, j.decided = (p, c) :: ds → s.applyReady j = true → j.st = .closing →
      ∃ t, exec (.decisionApply id) s = .next t ∧ t.mem = s.mem ∧ t.node.ndec = s.node.ndec + 1 ∧
        (ds = [] → t.jobs = s.jobs.filter fun k => k.id ≠ j.id) ∧
        (ds ≠ [] → ∃ k, t.jobAt id.toNat = some k ∧ k.st = .closing ∧ k.decided = ds ∧ k.gen = j.gen + 1)) ∧
    ∀ p c ds, j.decided = (p, c) :: ds → s.applyReady j = true → j.st ≠ .closing →
      ∃ t k, exec (.decisionApply id) s = .next t ∧ t.mem = s.mem ∧ t.jobAt id.toNat = some k ∧ k.gen = j.gen + 1 ∧ k.applied = some p ∧
        k.decided = ds ∧ k.sent = false ∧ k.voted = none ∧ k.votes = j.votes ∧ k.corr = false ∧
        t.node.ndec = s.node.ndec + 1 ∧ t.node.nabt = s.node.nabt + (if pkCommit p then 0 else 1) ∧ t.core.pad = s.core.pad ∧
        ∀ v n, v < 16 → n < 12 →
          let x := s.vst v n
          let y := t.vst v n
          (v ∉ s.regionsOf j.asid → y = x) ∧
          (v ∈ s.regionsOf j.asid → y.s = x.s + 1 ∧ y.vptr = x.vptr ∧
            (s.blocksIn v n ≠ 0 → y.vpass = x.vpass ∧ y.aborted = if pkCommit p then x.aborted else x.aborted ++ [x.s]) ∧
            (s.blocksIn v n = 0 → y.vpass = y.s ∧ y.aborted = []))
  ) ∧
  (
  ∀ (s : State) (v : BitVec 4) (w : Word),
    let r := s.regions[v.toNat]
    let a : BitVec 28 := w.extractLsb' 12 28
    let mine (x : Nat) : Prop := a.toNat ≤ x / 4096 ∧ x / 4096 < r.limit.toNat
    (r.vv = true → exec (.regionDeclare v w) s = .next s) ∧
    (r.vv = false →
      let bad : Prop := r.limit.toNat ≤ a.toNat ∨ 0x5FE8000000 < r.limit.toNat * 4096 ∨
        ∃ u : Nat, ∃ h : u < 16, u ≠ v.toNat ∧ s.regions[u].rdy = true ∧ s.regions[u].base.toNat < r.limit.toNat ∧
          a.toNat < s.regions[u].limit.toNat
      (bad → exec (.regionDeclare v w) s = .next { s with regions := s.regions.set v.toNat { r with vv := true, base := a } }) ∧
      (¬bad → ∃ t, exec (.regionDeclare v w) s = .next t ∧ t.mem = s.mem ∧ t.core = s.core ∧
        t.regions = s.regions.set v.toNat { r with vv := true, base := a, rdy := true, st := Vector.replicate 12 VStack.reset } ∧
        ∀ b, b ∈ t.blocks ↔ b ∈ s.blocks ∧ ¬mine b.pa)) ∧
    (∃ t, exec (.regionRetire v) s = .next t ∧ t.core = s.core ∧
      t.regions = s.regions.set v.toNat { r with vv := false, rdy := false, st := Vector.replicate 12 VStack.reset } ∧
      (r.rdy = false ∨ s.blocks = [] → t.mem = s.mem) ∧
      (r.rdy = true → ∀ b ∈ t.blocks, ¬(r.base.toNat ≤ b.pa / 4096 ∧ b.pa / 4096 < r.limit.toNat))) ∧
    ∀ k : BitVec 4, k.toNat < 12 →
      let x := s.vst v.toNat k.toNat
      let n : Nat := r.blocksIn k.toNat
      (r.rdy = false ∨ n = 0 ∨ x.vptr.toNat < n → exec (.versionPassEnd v k) s = .next s) ∧
      (r.rdy = true → 0 < n → n ≤ x.vptr.toNat → ∃ t, exec (.versionPassEnd v k) s = .next t ∧ t.mem = s.mem ∧ t.core = s.core ∧
        t.vst v.toNat k.toNat = { x with
          aborted := x.aborted.filter fun g => !(0 < (x.vpass - g).toNat && (x.vpass - g).toNat < 2 ^ 15)
          passes := x.passes + 1, vpass := x.s, vptr := 0 }) ∧
      (r.rdy = false ∨ n ≤ x.vptr.toNat ∨ ((x.s - x.vpass).toNat < 4096 ∧ x.aborted.length < 32) →
        exec (.forcedPass v k) s = .next s) ∧
      (r.rdy = true → x.vptr.toNat < n → 4096 ≤ (x.s - x.vpass).toNat ∨ 32 ≤ x.aborted.length →
        ∃ t, exec (.forcedPass v k) s = .next t ∧ t.mem = s.mem ∧ t.core = s.core ∧
          t.vst v.toNat k.toNat = { x with forced := x.forced + 1, stamp := x.s - 16384, vptr := BitVec.ofNat 32 n })
  )
end

