-- ==== Sys2Proof/Laws/State.lean ====
section
/-! SUPPORT. What each update of the state leaves in each field. -/

namespace Sys2Proof.Machine

@[simp] theorem State.mapCore_core (s : State) (f : Core → Core) : (s.mapCore f).core = f s.core := rfl
@[simp] theorem State.mapCore_chron (s : State) (f : Core → Core) : (s.mapCore f).chron = s.chron := rfl
@[simp] theorem State.mapCore_pkg (s : State) (f : Core → Core) : (s.mapCore f).pkg = s.pkg := rfl
@[simp] theorem State.mapCore_rstep (s : State) (f : Core → Core) : (s.mapCore f).rstep = s.rstep := rfl
@[simp] theorem State.mapCore_powered (s : State) (f : Core → Core) : (s.mapCore f).powered = s.powered := rfl
@[simp] theorem State.mapCore_gated (s : State) (f : Core → Core) : (s.mapCore f).gated = s.gated := rfl
@[simp] theorem State.mapCore_others (s : State) (f : Core → Core) : (s.mapCore f).others = s.others := rfl
@[simp] theorem State.mapCore_turn (s : State) (f : Core → Core) : (s.mapCore f).turn = s.turn := rfl
@[simp] theorem State.mapCore_inbox (s : State) (f : Core → Core) : (s.mapCore f).inbox = s.inbox := rfl
@[simp] theorem State.mapCore_free (s : State) (f : Core → Core) : (s.mapCore f).free = s.free := rfl
@[simp] theorem State.mapCore_mem (s : State) (f : Core → Core) : (s.mapCore f).mem = s.mem := rfl
@[simp] theorem State.mapCore_sectors (s : State) (f : Core → Core) : (s.mapCore f).sectors = s.sectors := rfl
@[simp] theorem State.mapCore_rpoison (s : State) (f : Core → Core) : (s.mapCore f).rpoison = s.rpoison := rfl
@[simp] theorem State.mapCore_dies (s : State) (f : Core → Core) : (s.mapCore f).dies = s.dies := rfl
@[simp] theorem State.mapCore_jobs (s : State) (f : Core → Core) : (s.mapCore f).jobs = s.jobs := rfl
@[simp] theorem State.mapCore_nextJob (s : State) (f : Core → Core) : (s.mapCore f).nextJob = s.nextJob := rfl
@[simp] theorem State.mapCore_chosen (s : State) (f : Core → Core) : (s.mapCore f).chosen = s.chosen := rfl
@[simp] theorem State.mapCore_spaces (s : State) (f : Core → Core) : (s.mapCore f).spaces = s.spaces := rfl
@[simp] theorem State.mapCore_objs (s : State) (f : Core → Core) : (s.mapCore f).objs = s.objs := rfl
@[simp] theorem State.mapCore_recs (s : State) (f : Core → Core) : (s.mapCore f).recs = s.recs := rfl
@[simp] theorem State.mapCore_accs (s : State) (f : Core → Core) : (s.mapCore f).accs = s.accs := rfl
@[simp] theorem State.mapCore_reds (s : State) (f : Core → Core) : (s.mapCore f).reds = s.reds := rfl
@[simp] theorem State.mapCore_colls (s : State) (f : Core → Core) : (s.mapCore f).colls = s.colls := rfl
@[simp] theorem State.mapCore_orphans (s : State) (f : Core → Core) : (s.mapCore f).orphans = s.orphans := rfl
@[simp] theorem State.mapCore_os (s : State) (f : Core → Core) : (s.mapCore f).os = s.os := rfl
@[simp] theorem State.mapCore_carafe (s : State) (f : Core → Core) : (s.mapCore f).carafe = s.carafe := rfl
@[simp] theorem State.mapCore_regions (s : State) (f : Core → Core) : (s.mapCore f).regions = s.regions := rfl
@[simp] theorem State.mapCore_blocks (s : State) (f : Core → Core) : (s.mapCore f).blocks = s.blocks := rfl
@[simp] theorem State.mapCore_node (s : State) (f : Core → Core) : (s.mapCore f).node = s.node := rfl
@[simp] theorem State.mapCore_groups (s : State) (f : Core → Core) : (s.mapCore f).groups = s.groups := rfl
@[simp] theorem State.mapCore_host (s : State) (f : Core → Core) : (s.mapCore f).host = s.host := rfl
@[simp] theorem State.mapCore_mgmt (s : State) (f : Core → Core) : (s.mapCore f).mgmt = s.mgmt := rfl
@[simp] theorem State.mapCore_flash (s : State) (f : Core → Core) : (s.mapCore f).flash = s.flash := rfl
@[simp] theorem State.mapCore_fwver (s : State) (f : Core → Core) : (s.mapCore f).fwver = s.fwver := rfl
@[simp] theorem State.mapCore_fwdigest (s : State) (f : Core → Core) : (s.mapCore f).fwdigest = s.fwdigest := rfl
@[simp] theorem State.mapCore_ports (s : State) (f : Core → Core) : (s.mapCore f).ports = s.ports := rfl
@[simp] theorem State.mapCore_fences (s : State) (f : Core → Core) : (s.mapCore f).fences = s.fences := rfl
@[simp] theorem State.mapCore_signals (s : State) (f : Core → Core) : (s.mapCore f).signals = s.signals := rfl

@[simp] theorem State.mapTask_core_task (s : State) (f : Task → Task) : (s.mapTask f).core.task = f s.core.task := rfl
@[simp] theorem State.mapTask_core_num (s : State) (f : Task → Task) : (s.mapTask f).core.num = s.core.num := rfl
@[simp] theorem State.mapTask_core_mode (s : State) (f : Task → Task) : (s.mapTask f).core.mode = s.core.mode := rfl
@[simp] theorem State.mapTask_core_job (s : State) (f : Task → Task) : (s.mapTask f).core.job = s.core.job := rfl
@[simp] theorem State.mapTask_core_spsize (s : State) (f : Task → Task) : (s.mapTask f).core.spsize = s.core.spsize := rfl
@[simp] theorem State.mapTask_core_others (s : State) (f : Task → Task) : (s.mapTask f).core.others = s.core.others := rfl
@[simp] theorem State.mapTask_core_vec (s : State) (f : Task → Task) : (s.mapTask f).core.vec = s.core.vec := rfl
@[simp] theorem State.mapTask_core_mtx (s : State) (f : Task → Task) : (s.mapTask f).core.mtx = s.core.mtx := rfl
@[simp] theorem State.mapTask_core_cpy (s : State) (f : Task → Task) : (s.mapTask f).core.cpy = s.core.cpy := rfl
@[simp] theorem State.mapTask_core_acc (s : State) (f : Task → Task) : (s.mapTask f).core.acc = s.core.acc := rfl
@[simp] theorem State.mapTask_core_pad (s : State) (f : Task → Task) : (s.mapTask f).core.pad = s.core.pad := rfl
@[simp] theorem State.mapTask_core_hold (s : State) (f : Task → Task) : (s.mapTask f).core.hold = s.core.hold := rfl
@[simp] theorem State.mapTask_core_transit (s : State) (f : Task → Task) : (s.mapTask f).core.transit = s.core.transit := rfl
@[simp] theorem State.mapTask_core_loads (s : State) (f : Task → Task) : (s.mapTask f).core.loads = s.core.loads := rfl
@[simp] theorem State.mapTask_core_ready (s : State) (f : Task → Task) : (s.mapTask f).core.ready = s.core.ready := rfl
@[simp] theorem State.mapTask_core_adds (s : State) (f : Task → Task) : (s.mapTask f).core.adds = s.core.adds := rfl
@[simp] theorem State.mapTask_core_marker (s : State) (f : Task → Task) : (s.mapTask f).core.marker = s.core.marker := rfl
@[simp] theorem State.mapTask_core_writes (s : State) (f : Task → Task) : (s.mapTask f).core.writes = s.core.writes := rfl
@[simp] theorem State.mapTask_core_nms (s : State) (f : Task → Task) : (s.mapTask f).core.nms = s.core.nms := rfl
@[simp] theorem State.mapTask_core_walks (s : State) (f : Task → Task) : (s.mapTask f).core.walks = s.core.walks := rfl
@[simp] theorem State.mapTask_core_stop (s : State) (f : Task → Task) : (s.mapTask f).core.stop = s.core.stop := rfl
@[simp] theorem State.mapTask_core_wstart (s : State) (f : Task → Task) : (s.mapTask f).core.wstart = s.core.wstart := rfl
@[simp] theorem State.mapTask_core_blocked (s : State) (f : Task → Task) : (s.mapTask f).core.blocked = s.core.blocked := rfl
@[simp] theorem State.mapTask_core_stalled (s : State) (f : Task → Task) : (s.mapTask f).core.stalled = s.core.stalled := rfl
@[simp] theorem State.mapTask_core_bar (s : State) (f : Task → Task) : (s.mapTask f).core.bar = s.core.bar := rfl
@[simp] theorem State.mapTask_core_tlb (s : State) (f : Task → Task) : (s.mapTask f).core.tlb = s.core.tlb := rfl
@[simp] theorem State.mapTask_core_code (s : State) (f : Task → Task) : (s.mapTask f).core.code = s.core.code := rfl
@[simp] theorem State.mapTask_core_repin (s : State) (f : Task → Task) : (s.mapTask f).core.repin = s.core.repin := rfl
@[simp] theorem State.mapTask_core_xlt (s : State) (f : Task → Task) : (s.mapTask f).core.xlt = s.core.xlt := rfl
@[simp] theorem State.mapTask_core_fw (s : State) (f : Task → Task) : (s.mapTask f).core.fw = s.core.fw := rfl
@[simp] theorem State.mapTask_core_tvec (s : State) (f : Task → Task) : (s.mapTask f).core.tvec = s.core.tvec := rfl
@[simp] theorem State.mapTask_core_epc (s : State) (f : Task → Task) : (s.mapTask f).core.epc = s.core.epc := rfl
@[simp] theorem State.mapTask_core_ecause (s : State) (f : Task → Task) : (s.mapTask f).core.ecause = s.core.ecause := rfl
@[simp] theorem State.mapTask_chron (s : State) (f : Task → Task) : (s.mapTask f).chron = s.chron := rfl
@[simp] theorem State.mapTask_pkg (s : State) (f : Task → Task) : (s.mapTask f).pkg = s.pkg := rfl
@[simp] theorem State.mapTask_rstep (s : State) (f : Task → Task) : (s.mapTask f).rstep = s.rstep := rfl
@[simp] theorem State.mapTask_powered (s : State) (f : Task → Task) : (s.mapTask f).powered = s.powered := rfl
@[simp] theorem State.mapTask_gated (s : State) (f : Task → Task) : (s.mapTask f).gated = s.gated := rfl
@[simp] theorem State.mapTask_others (s : State) (f : Task → Task) : (s.mapTask f).others = s.others := rfl
@[simp] theorem State.mapTask_turn (s : State) (f : Task → Task) : (s.mapTask f).turn = s.turn := rfl
@[simp] theorem State.mapTask_inbox (s : State) (f : Task → Task) : (s.mapTask f).inbox = s.inbox := rfl
@[simp] theorem State.mapTask_free (s : State) (f : Task → Task) : (s.mapTask f).free = s.free := rfl
@[simp] theorem State.mapTask_mem (s : State) (f : Task → Task) : (s.mapTask f).mem = s.mem := rfl
@[simp] theorem State.mapTask_sectors (s : State) (f : Task → Task) : (s.mapTask f).sectors = s.sectors := rfl
@[simp] theorem State.mapTask_rpoison (s : State) (f : Task → Task) : (s.mapTask f).rpoison = s.rpoison := rfl
@[simp] theorem State.mapTask_dies (s : State) (f : Task → Task) : (s.mapTask f).dies = s.dies := rfl
@[simp] theorem State.mapTask_jobs (s : State) (f : Task → Task) : (s.mapTask f).jobs = s.jobs := rfl
@[simp] theorem State.mapTask_nextJob (s : State) (f : Task → Task) : (s.mapTask f).nextJob = s.nextJob := rfl
@[simp] theorem State.mapTask_chosen (s : State) (f : Task → Task) : (s.mapTask f).chosen = s.chosen := rfl
@[simp] theorem State.mapTask_spaces (s : State) (f : Task → Task) : (s.mapTask f).spaces = s.spaces := rfl
@[simp] theorem State.mapTask_objs (s : State) (f : Task → Task) : (s.mapTask f).objs = s.objs := rfl
@[simp] theorem State.mapTask_recs (s : State) (f : Task → Task) : (s.mapTask f).recs = s.recs := rfl
@[simp] theorem State.mapTask_accs (s : State) (f : Task → Task) : (s.mapTask f).accs = s.accs := rfl
@[simp] theorem State.mapTask_reds (s : State) (f : Task → Task) : (s.mapTask f).reds = s.reds := rfl
@[simp] theorem State.mapTask_colls (s : State) (f : Task → Task) : (s.mapTask f).colls = s.colls := rfl
@[simp] theorem State.mapTask_orphans (s : State) (f : Task → Task) : (s.mapTask f).orphans = s.orphans := rfl
@[simp] theorem State.mapTask_os (s : State) (f : Task → Task) : (s.mapTask f).os = s.os := rfl
@[simp] theorem State.mapTask_carafe (s : State) (f : Task → Task) : (s.mapTask f).carafe = s.carafe := rfl
@[simp] theorem State.mapTask_regions (s : State) (f : Task → Task) : (s.mapTask f).regions = s.regions := rfl
@[simp] theorem State.mapTask_blocks (s : State) (f : Task → Task) : (s.mapTask f).blocks = s.blocks := rfl
@[simp] theorem State.mapTask_node (s : State) (f : Task → Task) : (s.mapTask f).node = s.node := rfl
@[simp] theorem State.mapTask_groups (s : State) (f : Task → Task) : (s.mapTask f).groups = s.groups := rfl
@[simp] theorem State.mapTask_host (s : State) (f : Task → Task) : (s.mapTask f).host = s.host := rfl
@[simp] theorem State.mapTask_mgmt (s : State) (f : Task → Task) : (s.mapTask f).mgmt = s.mgmt := rfl
@[simp] theorem State.mapTask_flash (s : State) (f : Task → Task) : (s.mapTask f).flash = s.flash := rfl
@[simp] theorem State.mapTask_fwver (s : State) (f : Task → Task) : (s.mapTask f).fwver = s.fwver := rfl
@[simp] theorem State.mapTask_fwdigest (s : State) (f : Task → Task) : (s.mapTask f).fwdigest = s.fwdigest := rfl
@[simp] theorem State.mapTask_ports (s : State) (f : Task → Task) : (s.mapTask f).ports = s.ports := rfl
@[simp] theorem State.mapTask_fences (s : State) (f : Task → Task) : (s.mapTask f).fences = s.fences := rfl
@[simp] theorem State.mapTask_signals (s : State) (f : Task → Task) : (s.mapTask f).signals = s.signals := rfl

@[simp] theorem State.mapVec_core_vec (s : State) (f : Vec → Vec) : (s.mapVec f).core.vec = f s.core.vec := rfl
@[simp] theorem State.mapVec_core_num (s : State) (f : Vec → Vec) : (s.mapVec f).core.num = s.core.num := rfl
@[simp] theorem State.mapVec_core_mode (s : State) (f : Vec → Vec) : (s.mapVec f).core.mode = s.core.mode := rfl
@[simp] theorem State.mapVec_core_job (s : State) (f : Vec → Vec) : (s.mapVec f).core.job = s.core.job := rfl
@[simp] theorem State.mapVec_core_spsize (s : State) (f : Vec → Vec) : (s.mapVec f).core.spsize = s.core.spsize := rfl
@[simp] theorem State.mapVec_core_task (s : State) (f : Vec → Vec) : (s.mapVec f).core.task = s.core.task := rfl
@[simp] theorem State.mapVec_core_others (s : State) (f : Vec → Vec) : (s.mapVec f).core.others = s.core.others := rfl
@[simp] theorem State.mapVec_core_mtx (s : State) (f : Vec → Vec) : (s.mapVec f).core.mtx = s.core.mtx := rfl
@[simp] theorem State.mapVec_core_cpy (s : State) (f : Vec → Vec) : (s.mapVec f).core.cpy = s.core.cpy := rfl
@[simp] theorem State.mapVec_core_acc (s : State) (f : Vec → Vec) : (s.mapVec f).core.acc = s.core.acc := rfl
@[simp] theorem State.mapVec_core_pad (s : State) (f : Vec → Vec) : (s.mapVec f).core.pad = s.core.pad := rfl
@[simp] theorem State.mapVec_core_hold (s : State) (f : Vec → Vec) : (s.mapVec f).core.hold = s.core.hold := rfl
@[simp] theorem State.mapVec_core_transit (s : State) (f : Vec → Vec) : (s.mapVec f).core.transit = s.core.transit := rfl
@[simp] theorem State.mapVec_core_loads (s : State) (f : Vec → Vec) : (s.mapVec f).core.loads = s.core.loads := rfl
@[simp] theorem State.mapVec_core_ready (s : State) (f : Vec → Vec) : (s.mapVec f).core.ready = s.core.ready := rfl
@[simp] theorem State.mapVec_core_adds (s : State) (f : Vec → Vec) : (s.mapVec f).core.adds = s.core.adds := rfl
@[simp] theorem State.mapVec_core_marker (s : State) (f : Vec → Vec) : (s.mapVec f).core.marker = s.core.marker := rfl
@[simp] theorem State.mapVec_core_writes (s : State) (f : Vec → Vec) : (s.mapVec f).core.writes = s.core.writes := rfl
@[simp] theorem State.mapVec_core_nms (s : State) (f : Vec → Vec) : (s.mapVec f).core.nms = s.core.nms := rfl
@[simp] theorem State.mapVec_core_walks (s : State) (f : Vec → Vec) : (s.mapVec f).core.walks = s.core.walks := rfl
@[simp] theorem State.mapVec_core_stop (s : State) (f : Vec → Vec) : (s.mapVec f).core.stop = s.core.stop := rfl
@[simp] theorem State.mapVec_core_wstart (s : State) (f : Vec → Vec) : (s.mapVec f).core.wstart = s.core.wstart := rfl
@[simp] theorem State.mapVec_core_blocked (s : State) (f : Vec → Vec) : (s.mapVec f).core.blocked = s.core.blocked := rfl
@[simp] theorem State.mapVec_core_stalled (s : State) (f : Vec → Vec) : (s.mapVec f).core.stalled = s.core.stalled := rfl
@[simp] theorem State.mapVec_core_bar (s : State) (f : Vec → Vec) : (s.mapVec f).core.bar = s.core.bar := rfl
@[simp] theorem State.mapVec_core_tlb (s : State) (f : Vec → Vec) : (s.mapVec f).core.tlb = s.core.tlb := rfl
@[simp] theorem State.mapVec_core_code (s : State) (f : Vec → Vec) : (s.mapVec f).core.code = s.core.code := rfl
@[simp] theorem State.mapVec_core_repin (s : State) (f : Vec → Vec) : (s.mapVec f).core.repin = s.core.repin := rfl
@[simp] theorem State.mapVec_core_xlt (s : State) (f : Vec → Vec) : (s.mapVec f).core.xlt = s.core.xlt := rfl
@[simp] theorem State.mapVec_core_fw (s : State) (f : Vec → Vec) : (s.mapVec f).core.fw = s.core.fw := rfl
@[simp] theorem State.mapVec_core_tvec (s : State) (f : Vec → Vec) : (s.mapVec f).core.tvec = s.core.tvec := rfl
@[simp] theorem State.mapVec_core_epc (s : State) (f : Vec → Vec) : (s.mapVec f).core.epc = s.core.epc := rfl
@[simp] theorem State.mapVec_core_ecause (s : State) (f : Vec → Vec) : (s.mapVec f).core.ecause = s.core.ecause := rfl
@[simp] theorem State.mapVec_chron (s : State) (f : Vec → Vec) : (s.mapVec f).chron = s.chron := rfl
@[simp] theorem State.mapVec_pkg (s : State) (f : Vec → Vec) : (s.mapVec f).pkg = s.pkg := rfl
@[simp] theorem State.mapVec_rstep (s : State) (f : Vec → Vec) : (s.mapVec f).rstep = s.rstep := rfl
@[simp] theorem State.mapVec_powered (s : State) (f : Vec → Vec) : (s.mapVec f).powered = s.powered := rfl
@[simp] theorem State.mapVec_gated (s : State) (f : Vec → Vec) : (s.mapVec f).gated = s.gated := rfl
@[simp] theorem State.mapVec_others (s : State) (f : Vec → Vec) : (s.mapVec f).others = s.others := rfl
@[simp] theorem State.mapVec_turn (s : State) (f : Vec → Vec) : (s.mapVec f).turn = s.turn := rfl
@[simp] theorem State.mapVec_inbox (s : State) (f : Vec → Vec) : (s.mapVec f).inbox = s.inbox := rfl
@[simp] theorem State.mapVec_free (s : State) (f : Vec → Vec) : (s.mapVec f).free = s.free := rfl
@[simp] theorem State.mapVec_mem (s : State) (f : Vec → Vec) : (s.mapVec f).mem = s.mem := rfl
@[simp] theorem State.mapVec_sectors (s : State) (f : Vec → Vec) : (s.mapVec f).sectors = s.sectors := rfl
@[simp] theorem State.mapVec_rpoison (s : State) (f : Vec → Vec) : (s.mapVec f).rpoison = s.rpoison := rfl
@[simp] theorem State.mapVec_dies (s : State) (f : Vec → Vec) : (s.mapVec f).dies = s.dies := rfl
@[simp] theorem State.mapVec_jobs (s : State) (f : Vec → Vec) : (s.mapVec f).jobs = s.jobs := rfl
@[simp] theorem State.mapVec_nextJob (s : State) (f : Vec → Vec) : (s.mapVec f).nextJob = s.nextJob := rfl
@[simp] theorem State.mapVec_chosen (s : State) (f : Vec → Vec) : (s.mapVec f).chosen = s.chosen := rfl
@[simp] theorem State.mapVec_spaces (s : State) (f : Vec → Vec) : (s.mapVec f).spaces = s.spaces := rfl
@[simp] theorem State.mapVec_objs (s : State) (f : Vec → Vec) : (s.mapVec f).objs = s.objs := rfl
@[simp] theorem State.mapVec_recs (s : State) (f : Vec → Vec) : (s.mapVec f).recs = s.recs := rfl
@[simp] theorem State.mapVec_accs (s : State) (f : Vec → Vec) : (s.mapVec f).accs = s.accs := rfl
@[simp] theorem State.mapVec_reds (s : State) (f : Vec → Vec) : (s.mapVec f).reds = s.reds := rfl
@[simp] theorem State.mapVec_colls (s : State) (f : Vec → Vec) : (s.mapVec f).colls = s.colls := rfl
@[simp] theorem State.mapVec_orphans (s : State) (f : Vec → Vec) : (s.mapVec f).orphans = s.orphans := rfl
@[simp] theorem State.mapVec_os (s : State) (f : Vec → Vec) : (s.mapVec f).os = s.os := rfl
@[simp] theorem State.mapVec_carafe (s : State) (f : Vec → Vec) : (s.mapVec f).carafe = s.carafe := rfl
@[simp] theorem State.mapVec_regions (s : State) (f : Vec → Vec) : (s.mapVec f).regions = s.regions := rfl
@[simp] theorem State.mapVec_blocks (s : State) (f : Vec → Vec) : (s.mapVec f).blocks = s.blocks := rfl
@[simp] theorem State.mapVec_node (s : State) (f : Vec → Vec) : (s.mapVec f).node = s.node := rfl
@[simp] theorem State.mapVec_groups (s : State) (f : Vec → Vec) : (s.mapVec f).groups = s.groups := rfl
@[simp] theorem State.mapVec_host (s : State) (f : Vec → Vec) : (s.mapVec f).host = s.host := rfl
@[simp] theorem State.mapVec_mgmt (s : State) (f : Vec → Vec) : (s.mapVec f).mgmt = s.mgmt := rfl
@[simp] theorem State.mapVec_flash (s : State) (f : Vec → Vec) : (s.mapVec f).flash = s.flash := rfl
@[simp] theorem State.mapVec_fwver (s : State) (f : Vec → Vec) : (s.mapVec f).fwver = s.fwver := rfl
@[simp] theorem State.mapVec_fwdigest (s : State) (f : Vec → Vec) : (s.mapVec f).fwdigest = s.fwdigest := rfl
@[simp] theorem State.mapVec_ports (s : State) (f : Vec → Vec) : (s.mapVec f).ports = s.ports := rfl
@[simp] theorem State.mapVec_fences (s : State) (f : Vec → Vec) : (s.mapVec f).fences = s.fences := rfl
@[simp] theorem State.mapVec_signals (s : State) (f : Vec → Vec) : (s.mapVec f).signals = s.signals := rfl

@[simp] theorem State.mapMtx_core_mtx (s : State) (f : Mtx → Mtx) : (s.mapMtx f).core.mtx = f s.core.mtx := rfl
@[simp] theorem State.mapMtx_core_num (s : State) (f : Mtx → Mtx) : (s.mapMtx f).core.num = s.core.num := rfl
@[simp] theorem State.mapMtx_core_mode (s : State) (f : Mtx → Mtx) : (s.mapMtx f).core.mode = s.core.mode := rfl
@[simp] theorem State.mapMtx_core_job (s : State) (f : Mtx → Mtx) : (s.mapMtx f).core.job = s.core.job := rfl
@[simp] theorem State.mapMtx_core_spsize (s : State) (f : Mtx → Mtx) : (s.mapMtx f).core.spsize = s.core.spsize := rfl
@[simp] theorem State.mapMtx_core_task (s : State) (f : Mtx → Mtx) : (s.mapMtx f).core.task = s.core.task := rfl
@[simp] theorem State.mapMtx_core_others (s : State) (f : Mtx → Mtx) : (s.mapMtx f).core.others = s.core.others := rfl
@[simp] theorem State.mapMtx_core_vec (s : State) (f : Mtx → Mtx) : (s.mapMtx f).core.vec = s.core.vec := rfl
@[simp] theorem State.mapMtx_core_cpy (s : State) (f : Mtx → Mtx) : (s.mapMtx f).core.cpy = s.core.cpy := rfl
@[simp] theorem State.mapMtx_core_acc (s : State) (f : Mtx → Mtx) : (s.mapMtx f).core.acc = s.core.acc := rfl
@[simp] theorem State.mapMtx_core_pad (s : State) (f : Mtx → Mtx) : (s.mapMtx f).core.pad = s.core.pad := rfl
@[simp] theorem State.mapMtx_core_hold (s : State) (f : Mtx → Mtx) : (s.mapMtx f).core.hold = s.core.hold := rfl
@[simp] theorem State.mapMtx_core_transit (s : State) (f : Mtx → Mtx) : (s.mapMtx f).core.transit = s.core.transit := rfl
@[simp] theorem State.mapMtx_core_loads (s : State) (f : Mtx → Mtx) : (s.mapMtx f).core.loads = s.core.loads := rfl
@[simp] theorem State.mapMtx_core_ready (s : State) (f : Mtx → Mtx) : (s.mapMtx f).core.ready = s.core.ready := rfl
@[simp] theorem State.mapMtx_core_adds (s : State) (f : Mtx → Mtx) : (s.mapMtx f).core.adds = s.core.adds := rfl
@[simp] theorem State.mapMtx_core_marker (s : State) (f : Mtx → Mtx) : (s.mapMtx f).core.marker = s.core.marker := rfl
@[simp] theorem State.mapMtx_core_writes (s : State) (f : Mtx → Mtx) : (s.mapMtx f).core.writes = s.core.writes := rfl
@[simp] theorem State.mapMtx_core_nms (s : State) (f : Mtx → Mtx) : (s.mapMtx f).core.nms = s.core.nms := rfl
@[simp] theorem State.mapMtx_core_walks (s : State) (f : Mtx → Mtx) : (s.mapMtx f).core.walks = s.core.walks := rfl
@[simp] theorem State.mapMtx_core_stop (s : State) (f : Mtx → Mtx) : (s.mapMtx f).core.stop = s.core.stop := rfl
@[simp] theorem State.mapMtx_core_wstart (s : State) (f : Mtx → Mtx) : (s.mapMtx f).core.wstart = s.core.wstart := rfl
@[simp] theorem State.mapMtx_core_blocked (s : State) (f : Mtx → Mtx) : (s.mapMtx f).core.blocked = s.core.blocked := rfl
@[simp] theorem State.mapMtx_core_stalled (s : State) (f : Mtx → Mtx) : (s.mapMtx f).core.stalled = s.core.stalled := rfl
@[simp] theorem State.mapMtx_core_bar (s : State) (f : Mtx → Mtx) : (s.mapMtx f).core.bar = s.core.bar := rfl
@[simp] theorem State.mapMtx_core_tlb (s : State) (f : Mtx → Mtx) : (s.mapMtx f).core.tlb = s.core.tlb := rfl
@[simp] theorem State.mapMtx_core_code (s : State) (f : Mtx → Mtx) : (s.mapMtx f).core.code = s.core.code := rfl
@[simp] theorem State.mapMtx_core_repin (s : State) (f : Mtx → Mtx) : (s.mapMtx f).core.repin = s.core.repin := rfl
@[simp] theorem State.mapMtx_core_xlt (s : State) (f : Mtx → Mtx) : (s.mapMtx f).core.xlt = s.core.xlt := rfl
@[simp] theorem State.mapMtx_core_fw (s : State) (f : Mtx → Mtx) : (s.mapMtx f).core.fw = s.core.fw := rfl
@[simp] theorem State.mapMtx_core_tvec (s : State) (f : Mtx → Mtx) : (s.mapMtx f).core.tvec = s.core.tvec := rfl
@[simp] theorem State.mapMtx_core_epc (s : State) (f : Mtx → Mtx) : (s.mapMtx f).core.epc = s.core.epc := rfl
@[simp] theorem State.mapMtx_core_ecause (s : State) (f : Mtx → Mtx) : (s.mapMtx f).core.ecause = s.core.ecause := rfl
@[simp] theorem State.mapMtx_chron (s : State) (f : Mtx → Mtx) : (s.mapMtx f).chron = s.chron := rfl
@[simp] theorem State.mapMtx_pkg (s : State) (f : Mtx → Mtx) : (s.mapMtx f).pkg = s.pkg := rfl
@[simp] theorem State.mapMtx_rstep (s : State) (f : Mtx → Mtx) : (s.mapMtx f).rstep = s.rstep := rfl
@[simp] theorem State.mapMtx_powered (s : State) (f : Mtx → Mtx) : (s.mapMtx f).powered = s.powered := rfl
@[simp] theorem State.mapMtx_gated (s : State) (f : Mtx → Mtx) : (s.mapMtx f).gated = s.gated := rfl
@[simp] theorem State.mapMtx_others (s : State) (f : Mtx → Mtx) : (s.mapMtx f).others = s.others := rfl
@[simp] theorem State.mapMtx_turn (s : State) (f : Mtx → Mtx) : (s.mapMtx f).turn = s.turn := rfl
@[simp] theorem State.mapMtx_inbox (s : State) (f : Mtx → Mtx) : (s.mapMtx f).inbox = s.inbox := rfl
@[simp] theorem State.mapMtx_free (s : State) (f : Mtx → Mtx) : (s.mapMtx f).free = s.free := rfl
@[simp] theorem State.mapMtx_mem (s : State) (f : Mtx → Mtx) : (s.mapMtx f).mem = s.mem := rfl
@[simp] theorem State.mapMtx_sectors (s : State) (f : Mtx → Mtx) : (s.mapMtx f).sectors = s.sectors := rfl
@[simp] theorem State.mapMtx_rpoison (s : State) (f : Mtx → Mtx) : (s.mapMtx f).rpoison = s.rpoison := rfl
@[simp] theorem State.mapMtx_dies (s : State) (f : Mtx → Mtx) : (s.mapMtx f).dies = s.dies := rfl
@[simp] theorem State.mapMtx_jobs (s : State) (f : Mtx → Mtx) : (s.mapMtx f).jobs = s.jobs := rfl
@[simp] theorem State.mapMtx_nextJob (s : State) (f : Mtx → Mtx) : (s.mapMtx f).nextJob = s.nextJob := rfl
@[simp] theorem State.mapMtx_chosen (s : State) (f : Mtx → Mtx) : (s.mapMtx f).chosen = s.chosen := rfl
@[simp] theorem State.mapMtx_spaces (s : State) (f : Mtx → Mtx) : (s.mapMtx f).spaces = s.spaces := rfl
@[simp] theorem State.mapMtx_objs (s : State) (f : Mtx → Mtx) : (s.mapMtx f).objs = s.objs := rfl
@[simp] theorem State.mapMtx_recs (s : State) (f : Mtx → Mtx) : (s.mapMtx f).recs = s.recs := rfl
@[simp] theorem State.mapMtx_accs (s : State) (f : Mtx → Mtx) : (s.mapMtx f).accs = s.accs := rfl
@[simp] theorem State.mapMtx_reds (s : State) (f : Mtx → Mtx) : (s.mapMtx f).reds = s.reds := rfl
@[simp] theorem State.mapMtx_colls (s : State) (f : Mtx → Mtx) : (s.mapMtx f).colls = s.colls := rfl
@[simp] theorem State.mapMtx_orphans (s : State) (f : Mtx → Mtx) : (s.mapMtx f).orphans = s.orphans := rfl
@[simp] theorem State.mapMtx_os (s : State) (f : Mtx → Mtx) : (s.mapMtx f).os = s.os := rfl
@[simp] theorem State.mapMtx_carafe (s : State) (f : Mtx → Mtx) : (s.mapMtx f).carafe = s.carafe := rfl
@[simp] theorem State.mapMtx_regions (s : State) (f : Mtx → Mtx) : (s.mapMtx f).regions = s.regions := rfl
@[simp] theorem State.mapMtx_blocks (s : State) (f : Mtx → Mtx) : (s.mapMtx f).blocks = s.blocks := rfl
@[simp] theorem State.mapMtx_node (s : State) (f : Mtx → Mtx) : (s.mapMtx f).node = s.node := rfl
@[simp] theorem State.mapMtx_groups (s : State) (f : Mtx → Mtx) : (s.mapMtx f).groups = s.groups := rfl
@[simp] theorem State.mapMtx_host (s : State) (f : Mtx → Mtx) : (s.mapMtx f).host = s.host := rfl
@[simp] theorem State.mapMtx_mgmt (s : State) (f : Mtx → Mtx) : (s.mapMtx f).mgmt = s.mgmt := rfl
@[simp] theorem State.mapMtx_flash (s : State) (f : Mtx → Mtx) : (s.mapMtx f).flash = s.flash := rfl
@[simp] theorem State.mapMtx_fwver (s : State) (f : Mtx → Mtx) : (s.mapMtx f).fwver = s.fwver := rfl
@[simp] theorem State.mapMtx_fwdigest (s : State) (f : Mtx → Mtx) : (s.mapMtx f).fwdigest = s.fwdigest := rfl
@[simp] theorem State.mapMtx_ports (s : State) (f : Mtx → Mtx) : (s.mapMtx f).ports = s.ports := rfl
@[simp] theorem State.mapMtx_fences (s : State) (f : Mtx → Mtx) : (s.mapMtx f).fences = s.fences := rfl
@[simp] theorem State.mapMtx_signals (s : State) (f : Mtx → Mtx) : (s.mapMtx f).signals = s.signals := rfl

@[simp] theorem State.mapCpy_core_cpy (s : State) (f : Cpy → Cpy) : (s.mapCpy f).core.cpy = f s.core.cpy := rfl
@[simp] theorem State.mapCpy_core_num (s : State) (f : Cpy → Cpy) : (s.mapCpy f).core.num = s.core.num := rfl
@[simp] theorem State.mapCpy_core_mode (s : State) (f : Cpy → Cpy) : (s.mapCpy f).core.mode = s.core.mode := rfl
@[simp] theorem State.mapCpy_core_job (s : State) (f : Cpy → Cpy) : (s.mapCpy f).core.job = s.core.job := rfl
@[simp] theorem State.mapCpy_core_spsize (s : State) (f : Cpy → Cpy) : (s.mapCpy f).core.spsize = s.core.spsize := rfl
@[simp] theorem State.mapCpy_core_task (s : State) (f : Cpy → Cpy) : (s.mapCpy f).core.task = s.core.task := rfl
@[simp] theorem State.mapCpy_core_others (s : State) (f : Cpy → Cpy) : (s.mapCpy f).core.others = s.core.others := rfl
@[simp] theorem State.mapCpy_core_vec (s : State) (f : Cpy → Cpy) : (s.mapCpy f).core.vec = s.core.vec := rfl
@[simp] theorem State.mapCpy_core_mtx (s : State) (f : Cpy → Cpy) : (s.mapCpy f).core.mtx = s.core.mtx := rfl
@[simp] theorem State.mapCpy_core_acc (s : State) (f : Cpy → Cpy) : (s.mapCpy f).core.acc = s.core.acc := rfl
@[simp] theorem State.mapCpy_core_pad (s : State) (f : Cpy → Cpy) : (s.mapCpy f).core.pad = s.core.pad := rfl
@[simp] theorem State.mapCpy_core_hold (s : State) (f : Cpy → Cpy) : (s.mapCpy f).core.hold = s.core.hold := rfl
@[simp] theorem State.mapCpy_core_transit (s : State) (f : Cpy → Cpy) : (s.mapCpy f).core.transit = s.core.transit := rfl
@[simp] theorem State.mapCpy_core_loads (s : State) (f : Cpy → Cpy) : (s.mapCpy f).core.loads = s.core.loads := rfl
@[simp] theorem State.mapCpy_core_ready (s : State) (f : Cpy → Cpy) : (s.mapCpy f).core.ready = s.core.ready := rfl
@[simp] theorem State.mapCpy_core_adds (s : State) (f : Cpy → Cpy) : (s.mapCpy f).core.adds = s.core.adds := rfl
@[simp] theorem State.mapCpy_core_marker (s : State) (f : Cpy → Cpy) : (s.mapCpy f).core.marker = s.core.marker := rfl
@[simp] theorem State.mapCpy_core_writes (s : State) (f : Cpy → Cpy) : (s.mapCpy f).core.writes = s.core.writes := rfl
@[simp] theorem State.mapCpy_core_nms (s : State) (f : Cpy → Cpy) : (s.mapCpy f).core.nms = s.core.nms := rfl
@[simp] theorem State.mapCpy_core_walks (s : State) (f : Cpy → Cpy) : (s.mapCpy f).core.walks = s.core.walks := rfl
@[simp] theorem State.mapCpy_core_stop (s : State) (f : Cpy → Cpy) : (s.mapCpy f).core.stop = s.core.stop := rfl
@[simp] theorem State.mapCpy_core_wstart (s : State) (f : Cpy → Cpy) : (s.mapCpy f).core.wstart = s.core.wstart := rfl
@[simp] theorem State.mapCpy_core_blocked (s : State) (f : Cpy → Cpy) : (s.mapCpy f).core.blocked = s.core.blocked := rfl
@[simp] theorem State.mapCpy_core_stalled (s : State) (f : Cpy → Cpy) : (s.mapCpy f).core.stalled = s.core.stalled := rfl
@[simp] theorem State.mapCpy_core_bar (s : State) (f : Cpy → Cpy) : (s.mapCpy f).core.bar = s.core.bar := rfl
@[simp] theorem State.mapCpy_core_tlb (s : State) (f : Cpy → Cpy) : (s.mapCpy f).core.tlb = s.core.tlb := rfl
@[simp] theorem State.mapCpy_core_code (s : State) (f : Cpy → Cpy) : (s.mapCpy f).core.code = s.core.code := rfl
@[simp] theorem State.mapCpy_core_repin (s : State) (f : Cpy → Cpy) : (s.mapCpy f).core.repin = s.core.repin := rfl
@[simp] theorem State.mapCpy_core_xlt (s : State) (f : Cpy → Cpy) : (s.mapCpy f).core.xlt = s.core.xlt := rfl
@[simp] theorem State.mapCpy_core_fw (s : State) (f : Cpy → Cpy) : (s.mapCpy f).core.fw = s.core.fw := rfl
@[simp] theorem State.mapCpy_core_tvec (s : State) (f : Cpy → Cpy) : (s.mapCpy f).core.tvec = s.core.tvec := rfl
@[simp] theorem State.mapCpy_core_epc (s : State) (f : Cpy → Cpy) : (s.mapCpy f).core.epc = s.core.epc := rfl
@[simp] theorem State.mapCpy_core_ecause (s : State) (f : Cpy → Cpy) : (s.mapCpy f).core.ecause = s.core.ecause := rfl
@[simp] theorem State.mapCpy_chron (s : State) (f : Cpy → Cpy) : (s.mapCpy f).chron = s.chron := rfl
@[simp] theorem State.mapCpy_pkg (s : State) (f : Cpy → Cpy) : (s.mapCpy f).pkg = s.pkg := rfl
@[simp] theorem State.mapCpy_rstep (s : State) (f : Cpy → Cpy) : (s.mapCpy f).rstep = s.rstep := rfl
@[simp] theorem State.mapCpy_powered (s : State) (f : Cpy → Cpy) : (s.mapCpy f).powered = s.powered := rfl
@[simp] theorem State.mapCpy_gated (s : State) (f : Cpy → Cpy) : (s.mapCpy f).gated = s.gated := rfl
@[simp] theorem State.mapCpy_others (s : State) (f : Cpy → Cpy) : (s.mapCpy f).others = s.others := rfl
@[simp] theorem State.mapCpy_turn (s : State) (f : Cpy → Cpy) : (s.mapCpy f).turn = s.turn := rfl
@[simp] theorem State.mapCpy_inbox (s : State) (f : Cpy → Cpy) : (s.mapCpy f).inbox = s.inbox := rfl
@[simp] theorem State.mapCpy_free (s : State) (f : Cpy → Cpy) : (s.mapCpy f).free = s.free := rfl
@[simp] theorem State.mapCpy_mem (s : State) (f : Cpy → Cpy) : (s.mapCpy f).mem = s.mem := rfl
@[simp] theorem State.mapCpy_sectors (s : State) (f : Cpy → Cpy) : (s.mapCpy f).sectors = s.sectors := rfl
@[simp] theorem State.mapCpy_rpoison (s : State) (f : Cpy → Cpy) : (s.mapCpy f).rpoison = s.rpoison := rfl
@[simp] theorem State.mapCpy_dies (s : State) (f : Cpy → Cpy) : (s.mapCpy f).dies = s.dies := rfl
@[simp] theorem State.mapCpy_jobs (s : State) (f : Cpy → Cpy) : (s.mapCpy f).jobs = s.jobs := rfl
@[simp] theorem State.mapCpy_nextJob (s : State) (f : Cpy → Cpy) : (s.mapCpy f).nextJob = s.nextJob := rfl
@[simp] theorem State.mapCpy_chosen (s : State) (f : Cpy → Cpy) : (s.mapCpy f).chosen = s.chosen := rfl
@[simp] theorem State.mapCpy_spaces (s : State) (f : Cpy → Cpy) : (s.mapCpy f).spaces = s.spaces := rfl
@[simp] theorem State.mapCpy_objs (s : State) (f : Cpy → Cpy) : (s.mapCpy f).objs = s.objs := rfl
@[simp] theorem State.mapCpy_recs (s : State) (f : Cpy → Cpy) : (s.mapCpy f).recs = s.recs := rfl
@[simp] theorem State.mapCpy_accs (s : State) (f : Cpy → Cpy) : (s.mapCpy f).accs = s.accs := rfl
@[simp] theorem State.mapCpy_reds (s : State) (f : Cpy → Cpy) : (s.mapCpy f).reds = s.reds := rfl
@[simp] theorem State.mapCpy_colls (s : State) (f : Cpy → Cpy) : (s.mapCpy f).colls = s.colls := rfl
@[simp] theorem State.mapCpy_orphans (s : State) (f : Cpy → Cpy) : (s.mapCpy f).orphans = s.orphans := rfl
@[simp] theorem State.mapCpy_os (s : State) (f : Cpy → Cpy) : (s.mapCpy f).os = s.os := rfl
@[simp] theorem State.mapCpy_carafe (s : State) (f : Cpy → Cpy) : (s.mapCpy f).carafe = s.carafe := rfl
@[simp] theorem State.mapCpy_regions (s : State) (f : Cpy → Cpy) : (s.mapCpy f).regions = s.regions := rfl
@[simp] theorem State.mapCpy_blocks (s : State) (f : Cpy → Cpy) : (s.mapCpy f).blocks = s.blocks := rfl
@[simp] theorem State.mapCpy_node (s : State) (f : Cpy → Cpy) : (s.mapCpy f).node = s.node := rfl
@[simp] theorem State.mapCpy_groups (s : State) (f : Cpy → Cpy) : (s.mapCpy f).groups = s.groups := rfl
@[simp] theorem State.mapCpy_host (s : State) (f : Cpy → Cpy) : (s.mapCpy f).host = s.host := rfl
@[simp] theorem State.mapCpy_mgmt (s : State) (f : Cpy → Cpy) : (s.mapCpy f).mgmt = s.mgmt := rfl
@[simp] theorem State.mapCpy_flash (s : State) (f : Cpy → Cpy) : (s.mapCpy f).flash = s.flash := rfl
@[simp] theorem State.mapCpy_fwver (s : State) (f : Cpy → Cpy) : (s.mapCpy f).fwver = s.fwver := rfl
@[simp] theorem State.mapCpy_fwdigest (s : State) (f : Cpy → Cpy) : (s.mapCpy f).fwdigest = s.fwdigest := rfl
@[simp] theorem State.mapCpy_ports (s : State) (f : Cpy → Cpy) : (s.mapCpy f).ports = s.ports := rfl
@[simp] theorem State.mapCpy_fences (s : State) (f : Cpy → Cpy) : (s.mapCpy f).fences = s.fences := rfl
@[simp] theorem State.mapCpy_signals (s : State) (f : Cpy → Cpy) : (s.mapCpy f).signals = s.signals := rfl

@[simp] theorem State.mapCtl_ctl (s : State) (f : Ctl → Ctl) : (s.mapCtl f).ctl = f s.ctl := rfl
@[simp] theorem State.mapCtl_task_ctl (s : State) (f : Ctl → Ctl) : (s.mapCtl f).core.task.ctl = f s.core.task.ctl := rfl
@[simp] theorem State.mapCtl_task_idx (s : State) (f : Ctl → Ctl) : (s.mapCtl f).core.task.idx = s.core.task.idx := rfl
@[simp] theorem State.mapCtl_task_st (s : State) (f : Ctl → Ctl) : (s.mapCtl f).core.task.st = s.core.task.st := rfl
@[simp] theorem State.mapCtl_task_flags (s : State) (f : Ctl → Ctl) : (s.mapCtl f).core.task.flags = s.core.task.flags := rfl
@[simp] theorem State.mapCtl_task_wins (s : State) (f : Ctl → Ctl) : (s.mapCtl f).core.task.wins = s.core.task.wins := rfl
@[simp] theorem State.mapCtl_task_nfd (s : State) (f : Ctl → Ctl) : (s.mapCtl f).core.task.nfd = s.core.task.nfd := rfl
@[simp] theorem State.mapCtl_task_rkey (s : State) (f : Ctl → Ctl) : (s.mapCtl f).core.task.rkey = s.core.task.rkey := rfl
@[simp] theorem State.mapCtl_task_vshape (s : State) (f : Ctl → Ctl) : (s.mapCtl f).core.task.vshape = s.core.task.vshape := rfl
@[simp] theorem State.mapCtl_task_bnpat (s : State) (f : Ctl → Ctl) : (s.mapCtl f).core.task.bnpat = s.core.task.bnpat := rfl
@[simp] theorem State.mapCtl_task_collseq (s : State) (f : Ctl → Ctl) : (s.mapCtl f).core.task.collseq = s.core.task.collseq := rfl
@[simp] theorem State.mapCtl_task_qseq (s : State) (f : Ctl → Ctl) : (s.mapCtl f).core.task.qseq = s.core.task.qseq := rfl
@[simp] theorem State.mapCtl_task_qmapbase (s : State) (f : Ctl → Ctl) : (s.mapCtl f).core.task.qmapbase = s.core.task.qmapbase := rfl
@[simp] theorem State.mapCtl_task_tx (s : State) (f : Ctl → Ctl) : (s.mapCtl f).core.task.tx = s.core.task.tx := rfl
@[simp] theorem State.mapCtl_task_pins (s : State) (f : Ctl → Ctl) : (s.mapCtl f).core.task.pins = s.core.task.pins := rfl
@[simp] theorem State.mapCtl_task_stampbase (s : State) (f : Ctl → Ctl) : (s.mapCtl f).core.task.stampbase = s.core.task.stampbase := rfl
@[simp] theorem State.mapCtl_task_sync (s : State) (f : Ctl → Ctl) : (s.mapCtl f).core.task.sync = s.core.task.sync := rfl
@[simp] theorem State.mapCtl_task_counts (s : State) (f : Ctl → Ctl) : (s.mapCtl f).core.task.counts = s.core.task.counts := rfl
@[simp] theorem State.mapCtl_task_redLines (s : State) (f : Ctl → Ctl) : (s.mapCtl f).core.task.redLines = s.core.task.redLines := rfl
@[simp] theorem State.mapCtl_task_children (s : State) (f : Ctl → Ctl) : (s.mapCtl f).core.task.children = s.core.task.children := rfl
@[simp] theorem State.mapCtl_task_failures (s : State) (f : Ctl → Ctl) : (s.mapCtl f).core.task.failures = s.core.task.failures := rfl
@[simp] theorem State.mapCtl_task_marked (s : State) (f : Ctl → Ctl) : (s.mapCtl f).core.task.marked = s.core.task.marked := rfl
@[simp] theorem State.mapCtl_task_walkFail (s : State) (f : Ctl → Ctl) : (s.mapCtl f).core.task.walkFail = s.core.task.walkFail := rfl
@[simp] theorem State.mapCtl_task_guards (s : State) (f : Ctl → Ctl) : (s.mapCtl f).core.task.guards = s.core.task.guards := rfl
@[simp] theorem State.mapCtl_task_owed (s : State) (f : Ctl → Ctl) : (s.mapCtl f).core.task.owed = s.core.task.owed := rfl
@[simp] theorem State.mapCtl_task_seq (s : State) (f : Ctl → Ctl) : (s.mapCtl f).core.task.seq = s.core.task.seq := rfl
@[simp] theorem State.mapCtl_core_num (s : State) (f : Ctl → Ctl) : (s.mapCtl f).core.num = s.core.num := rfl
@[simp] theorem State.mapCtl_core_mode (s : State) (f : Ctl → Ctl) : (s.mapCtl f).core.mode = s.core.mode := rfl
@[simp] theorem State.mapCtl_core_job (s : State) (f : Ctl → Ctl) : (s.mapCtl f).core.job = s.core.job := rfl
@[simp] theorem State.mapCtl_core_spsize (s : State) (f : Ctl → Ctl) : (s.mapCtl f).core.spsize = s.core.spsize := rfl
@[simp] theorem State.mapCtl_core_others (s : State) (f : Ctl → Ctl) : (s.mapCtl f).core.others = s.core.others := rfl
@[simp] theorem State.mapCtl_core_vec (s : State) (f : Ctl → Ctl) : (s.mapCtl f).core.vec = s.core.vec := rfl
@[simp] theorem State.mapCtl_core_mtx (s : State) (f : Ctl → Ctl) : (s.mapCtl f).core.mtx = s.core.mtx := rfl
@[simp] theorem State.mapCtl_core_cpy (s : State) (f : Ctl → Ctl) : (s.mapCtl f).core.cpy = s.core.cpy := rfl
@[simp] theorem State.mapCtl_core_acc (s : State) (f : Ctl → Ctl) : (s.mapCtl f).core.acc = s.core.acc := rfl
@[simp] theorem State.mapCtl_core_pad (s : State) (f : Ctl → Ctl) : (s.mapCtl f).core.pad = s.core.pad := rfl
@[simp] theorem State.mapCtl_core_hold (s : State) (f : Ctl → Ctl) : (s.mapCtl f).core.hold = s.core.hold := rfl
@[simp] theorem State.mapCtl_core_transit (s : State) (f : Ctl → Ctl) : (s.mapCtl f).core.transit = s.core.transit := rfl
@[simp] theorem State.mapCtl_core_loads (s : State) (f : Ctl → Ctl) : (s.mapCtl f).core.loads = s.core.loads := rfl
@[simp] theorem State.mapCtl_core_ready (s : State) (f : Ctl → Ctl) : (s.mapCtl f).core.ready = s.core.ready := rfl
@[simp] theorem State.mapCtl_core_adds (s : State) (f : Ctl → Ctl) : (s.mapCtl f).core.adds = s.core.adds := rfl
@[simp] theorem State.mapCtl_core_marker (s : State) (f : Ctl → Ctl) : (s.mapCtl f).core.marker = s.core.marker := rfl
@[simp] theorem State.mapCtl_core_writes (s : State) (f : Ctl → Ctl) : (s.mapCtl f).core.writes = s.core.writes := rfl
@[simp] theorem State.mapCtl_core_nms (s : State) (f : Ctl → Ctl) : (s.mapCtl f).core.nms = s.core.nms := rfl
@[simp] theorem State.mapCtl_core_walks (s : State) (f : Ctl → Ctl) : (s.mapCtl f).core.walks = s.core.walks := rfl
@[simp] theorem State.mapCtl_core_stop (s : State) (f : Ctl → Ctl) : (s.mapCtl f).core.stop = s.core.stop := rfl
@[simp] theorem State.mapCtl_core_wstart (s : State) (f : Ctl → Ctl) : (s.mapCtl f).core.wstart = s.core.wstart := rfl
@[simp] theorem State.mapCtl_core_blocked (s : State) (f : Ctl → Ctl) : (s.mapCtl f).core.blocked = s.core.blocked := rfl
@[simp] theorem State.mapCtl_core_stalled (s : State) (f : Ctl → Ctl) : (s.mapCtl f).core.stalled = s.core.stalled := rfl
@[simp] theorem State.mapCtl_core_bar (s : State) (f : Ctl → Ctl) : (s.mapCtl f).core.bar = s.core.bar := rfl
@[simp] theorem State.mapCtl_core_tlb (s : State) (f : Ctl → Ctl) : (s.mapCtl f).core.tlb = s.core.tlb := rfl
@[simp] theorem State.mapCtl_core_code (s : State) (f : Ctl → Ctl) : (s.mapCtl f).core.code = s.core.code := rfl
@[simp] theorem State.mapCtl_core_repin (s : State) (f : Ctl → Ctl) : (s.mapCtl f).core.repin = s.core.repin := rfl
@[simp] theorem State.mapCtl_core_xlt (s : State) (f : Ctl → Ctl) : (s.mapCtl f).core.xlt = s.core.xlt := rfl
@[simp] theorem State.mapCtl_core_fw (s : State) (f : Ctl → Ctl) : (s.mapCtl f).core.fw = s.core.fw := rfl
@[simp] theorem State.mapCtl_core_tvec (s : State) (f : Ctl → Ctl) : (s.mapCtl f).core.tvec = s.core.tvec := rfl
@[simp] theorem State.mapCtl_core_epc (s : State) (f : Ctl → Ctl) : (s.mapCtl f).core.epc = s.core.epc := rfl
@[simp] theorem State.mapCtl_core_ecause (s : State) (f : Ctl → Ctl) : (s.mapCtl f).core.ecause = s.core.ecause := rfl
@[simp] theorem State.mapCtl_chron (s : State) (f : Ctl → Ctl) : (s.mapCtl f).chron = s.chron := rfl
@[simp] theorem State.mapCtl_pkg (s : State) (f : Ctl → Ctl) : (s.mapCtl f).pkg = s.pkg := rfl
@[simp] theorem State.mapCtl_rstep (s : State) (f : Ctl → Ctl) : (s.mapCtl f).rstep = s.rstep := rfl
@[simp] theorem State.mapCtl_powered (s : State) (f : Ctl → Ctl) : (s.mapCtl f).powered = s.powered := rfl
@[simp] theorem State.mapCtl_gated (s : State) (f : Ctl → Ctl) : (s.mapCtl f).gated = s.gated := rfl
@[simp] theorem State.mapCtl_others (s : State) (f : Ctl → Ctl) : (s.mapCtl f).others = s.others := rfl
@[simp] theorem State.mapCtl_turn (s : State) (f : Ctl → Ctl) : (s.mapCtl f).turn = s.turn := rfl
@[simp] theorem State.mapCtl_inbox (s : State) (f : Ctl → Ctl) : (s.mapCtl f).inbox = s.inbox := rfl
@[simp] theorem State.mapCtl_free (s : State) (f : Ctl → Ctl) : (s.mapCtl f).free = s.free := rfl
@[simp] theorem State.mapCtl_mem (s : State) (f : Ctl → Ctl) : (s.mapCtl f).mem = s.mem := rfl
@[simp] theorem State.mapCtl_sectors (s : State) (f : Ctl → Ctl) : (s.mapCtl f).sectors = s.sectors := rfl
@[simp] theorem State.mapCtl_rpoison (s : State) (f : Ctl → Ctl) : (s.mapCtl f).rpoison = s.rpoison := rfl
@[simp] theorem State.mapCtl_dies (s : State) (f : Ctl → Ctl) : (s.mapCtl f).dies = s.dies := rfl
@[simp] theorem State.mapCtl_jobs (s : State) (f : Ctl → Ctl) : (s.mapCtl f).jobs = s.jobs := rfl
@[simp] theorem State.mapCtl_nextJob (s : State) (f : Ctl → Ctl) : (s.mapCtl f).nextJob = s.nextJob := rfl
@[simp] theorem State.mapCtl_chosen (s : State) (f : Ctl → Ctl) : (s.mapCtl f).chosen = s.chosen := rfl
@[simp] theorem State.mapCtl_spaces (s : State) (f : Ctl → Ctl) : (s.mapCtl f).spaces = s.spaces := rfl
@[simp] theorem State.mapCtl_objs (s : State) (f : Ctl → Ctl) : (s.mapCtl f).objs = s.objs := rfl
@[simp] theorem State.mapCtl_recs (s : State) (f : Ctl → Ctl) : (s.mapCtl f).recs = s.recs := rfl
@[simp] theorem State.mapCtl_accs (s : State) (f : Ctl → Ctl) : (s.mapCtl f).accs = s.accs := rfl
@[simp] theorem State.mapCtl_reds (s : State) (f : Ctl → Ctl) : (s.mapCtl f).reds = s.reds := rfl
@[simp] theorem State.mapCtl_colls (s : State) (f : Ctl → Ctl) : (s.mapCtl f).colls = s.colls := rfl
@[simp] theorem State.mapCtl_orphans (s : State) (f : Ctl → Ctl) : (s.mapCtl f).orphans = s.orphans := rfl
@[simp] theorem State.mapCtl_os (s : State) (f : Ctl → Ctl) : (s.mapCtl f).os = s.os := rfl
@[simp] theorem State.mapCtl_carafe (s : State) (f : Ctl → Ctl) : (s.mapCtl f).carafe = s.carafe := rfl
@[simp] theorem State.mapCtl_regions (s : State) (f : Ctl → Ctl) : (s.mapCtl f).regions = s.regions := rfl
@[simp] theorem State.mapCtl_blocks (s : State) (f : Ctl → Ctl) : (s.mapCtl f).blocks = s.blocks := rfl
@[simp] theorem State.mapCtl_node (s : State) (f : Ctl → Ctl) : (s.mapCtl f).node = s.node := rfl
@[simp] theorem State.mapCtl_groups (s : State) (f : Ctl → Ctl) : (s.mapCtl f).groups = s.groups := rfl
@[simp] theorem State.mapCtl_host (s : State) (f : Ctl → Ctl) : (s.mapCtl f).host = s.host := rfl
@[simp] theorem State.mapCtl_mgmt (s : State) (f : Ctl → Ctl) : (s.mapCtl f).mgmt = s.mgmt := rfl
@[simp] theorem State.mapCtl_flash (s : State) (f : Ctl → Ctl) : (s.mapCtl f).flash = s.flash := rfl
@[simp] theorem State.mapCtl_fwver (s : State) (f : Ctl → Ctl) : (s.mapCtl f).fwver = s.fwver := rfl
@[simp] theorem State.mapCtl_fwdigest (s : State) (f : Ctl → Ctl) : (s.mapCtl f).fwdigest = s.fwdigest := rfl
@[simp] theorem State.mapCtl_ports (s : State) (f : Ctl → Ctl) : (s.mapCtl f).ports = s.ports := rfl
@[simp] theorem State.mapCtl_fences (s : State) (f : Ctl → Ctl) : (s.mapCtl f).fences = s.fences := rfl
@[simp] theorem State.mapCtl_signals (s : State) (f : Ctl → Ctl) : (s.mapCtl f).signals = s.signals := rfl

@[simp] theorem State.mapDie_chron (s : State) (d : Nat) (f : Die → Die) : (s.mapDie d f).chron = s.chron := rfl
@[simp] theorem State.mapDie_pkg (s : State) (d : Nat) (f : Die → Die) : (s.mapDie d f).pkg = s.pkg := rfl
@[simp] theorem State.mapDie_rstep (s : State) (d : Nat) (f : Die → Die) : (s.mapDie d f).rstep = s.rstep := rfl
@[simp] theorem State.mapDie_powered (s : State) (d : Nat) (f : Die → Die) : (s.mapDie d f).powered = s.powered := rfl
@[simp] theorem State.mapDie_gated (s : State) (d : Nat) (f : Die → Die) : (s.mapDie d f).gated = s.gated := rfl
@[simp] theorem State.mapDie_core (s : State) (d : Nat) (f : Die → Die) : (s.mapDie d f).core = s.core := rfl
@[simp] theorem State.mapDie_others (s : State) (d : Nat) (f : Die → Die) : (s.mapDie d f).others = s.others := rfl
@[simp] theorem State.mapDie_turn (s : State) (d : Nat) (f : Die → Die) : (s.mapDie d f).turn = s.turn := rfl
@[simp] theorem State.mapDie_inbox (s : State) (d : Nat) (f : Die → Die) : (s.mapDie d f).inbox = s.inbox := rfl
@[simp] theorem State.mapDie_free (s : State) (d : Nat) (f : Die → Die) : (s.mapDie d f).free = s.free := rfl
@[simp] theorem State.mapDie_mem (s : State) (d : Nat) (f : Die → Die) : (s.mapDie d f).mem = s.mem := rfl
@[simp] theorem State.mapDie_sectors (s : State) (d : Nat) (f : Die → Die) : (s.mapDie d f).sectors = s.sectors := rfl
@[simp] theorem State.mapDie_rpoison (s : State) (d : Nat) (f : Die → Die) : (s.mapDie d f).rpoison = s.rpoison := rfl
@[simp] theorem State.mapDie_jobs (s : State) (d : Nat) (f : Die → Die) : (s.mapDie d f).jobs = s.jobs := rfl
@[simp] theorem State.mapDie_nextJob (s : State) (d : Nat) (f : Die → Die) : (s.mapDie d f).nextJob = s.nextJob := rfl
@[simp] theorem State.mapDie_chosen (s : State) (d : Nat) (f : Die → Die) : (s.mapDie d f).chosen = s.chosen := rfl
@[simp] theorem State.mapDie_spaces (s : State) (d : Nat) (f : Die → Die) : (s.mapDie d f).spaces = s.spaces := rfl
@[simp] theorem State.mapDie_objs (s : State) (d : Nat) (f : Die → Die) : (s.mapDie d f).objs = s.objs := rfl
@[simp] theorem State.mapDie_recs (s : State) (d : Nat) (f : Die → Die) : (s.mapDie d f).recs = s.recs := rfl
@[simp] theorem State.mapDie_accs (s : State) (d : Nat) (f : Die → Die) : (s.mapDie d f).accs = s.accs := rfl
@[simp] theorem State.mapDie_reds (s : State) (d : Nat) (f : Die → Die) : (s.mapDie d f).reds = s.reds := rfl
@[simp] theorem State.mapDie_colls (s : State) (d : Nat) (f : Die → Die) : (s.mapDie d f).colls = s.colls := rfl
@[simp] theorem State.mapDie_orphans (s : State) (d : Nat) (f : Die → Die) : (s.mapDie d f).orphans = s.orphans := rfl
@[simp] theorem State.mapDie_os (s : State) (d : Nat) (f : Die → Die) : (s.mapDie d f).os = s.os := rfl
@[simp] theorem State.mapDie_carafe (s : State) (d : Nat) (f : Die → Die) : (s.mapDie d f).carafe = s.carafe := rfl
@[simp] theorem State.mapDie_regions (s : State) (d : Nat) (f : Die → Die) : (s.mapDie d f).regions = s.regions := rfl
@[simp] theorem State.mapDie_blocks (s : State) (d : Nat) (f : Die → Die) : (s.mapDie d f).blocks = s.blocks := rfl
@[simp] theorem State.mapDie_node (s : State) (d : Nat) (f : Die → Die) : (s.mapDie d f).node = s.node := rfl
@[simp] theorem State.mapDie_groups (s : State) (d : Nat) (f : Die → Die) : (s.mapDie d f).groups = s.groups := rfl
@[simp] theorem State.mapDie_host (s : State) (d : Nat) (f : Die → Die) : (s.mapDie d f).host = s.host := rfl
@[simp] theorem State.mapDie_mgmt (s : State) (d : Nat) (f : Die → Die) : (s.mapDie d f).mgmt = s.mgmt := rfl
@[simp] theorem State.mapDie_flash (s : State) (d : Nat) (f : Die → Die) : (s.mapDie d f).flash = s.flash := rfl
@[simp] theorem State.mapDie_fwver (s : State) (d : Nat) (f : Die → Die) : (s.mapDie d f).fwver = s.fwver := rfl
@[simp] theorem State.mapDie_fwdigest (s : State) (d : Nat) (f : Die → Die) : (s.mapDie d f).fwdigest = s.fwdigest := rfl
@[simp] theorem State.mapDie_ports (s : State) (d : Nat) (f : Die → Die) : (s.mapDie d f).ports = s.ports := rfl
@[simp] theorem State.mapDie_fences (s : State) (d : Nat) (f : Die → Die) : (s.mapDie d f).fences = s.fences := rfl
@[simp] theorem State.mapDie_signals (s : State) (d : Nat) (f : Die → Die) : (s.mapDie d f).signals = s.signals := rfl
@[simp] theorem State.mapJobAt_chron (s : State) (n : Nat) (f : Job → Job) : (s.mapJobAt n f).chron = s.chron := rfl
@[simp] theorem State.mapJobAt_pkg (s : State) (n : Nat) (f : Job → Job) : (s.mapJobAt n f).pkg = s.pkg := rfl
@[simp] theorem State.mapJobAt_rstep (s : State) (n : Nat) (f : Job → Job) : (s.mapJobAt n f).rstep = s.rstep := rfl
@[simp] theorem State.mapJobAt_powered (s : State) (n : Nat) (f : Job → Job) : (s.mapJobAt n f).powered = s.powered := rfl
@[simp] theorem State.mapJobAt_gated (s : State) (n : Nat) (f : Job → Job) : (s.mapJobAt n f).gated = s.gated := rfl
@[simp] theorem State.mapJobAt_core (s : State) (n : Nat) (f : Job → Job) : (s.mapJobAt n f).core = s.core := rfl
@[simp] theorem State.mapJobAt_others (s : State) (n : Nat) (f : Job → Job) : (s.mapJobAt n f).others = s.others := rfl
@[simp] theorem State.mapJobAt_turn (s : State) (n : Nat) (f : Job → Job) : (s.mapJobAt n f).turn = s.turn := rfl
@[simp] theorem State.mapJobAt_inbox (s : State) (n : Nat) (f : Job → Job) : (s.mapJobAt n f).inbox = s.inbox := rfl
@[simp] theorem State.mapJobAt_free (s : State) (n : Nat) (f : Job → Job) : (s.mapJobAt n f).free = s.free := rfl
@[simp] theorem State.mapJobAt_mem (s : State) (n : Nat) (f : Job → Job) : (s.mapJobAt n f).mem = s.mem := rfl
@[simp] theorem State.mapJobAt_sectors (s : State) (n : Nat) (f : Job → Job) : (s.mapJobAt n f).sectors = s.sectors := rfl
@[simp] theorem State.mapJobAt_rpoison (s : State) (n : Nat) (f : Job → Job) : (s.mapJobAt n f).rpoison = s.rpoison := rfl
@[simp] theorem State.mapJobAt_dies (s : State) (n : Nat) (f : Job → Job) : (s.mapJobAt n f).dies = s.dies := rfl
@[simp] theorem State.mapJobAt_nextJob (s : State) (n : Nat) (f : Job → Job) : (s.mapJobAt n f).nextJob = s.nextJob := rfl
@[simp] theorem State.mapJobAt_chosen (s : State) (n : Nat) (f : Job → Job) : (s.mapJobAt n f).chosen = s.chosen := rfl
@[simp] theorem State.mapJobAt_spaces (s : State) (n : Nat) (f : Job → Job) : (s.mapJobAt n f).spaces = s.spaces := rfl
@[simp] theorem State.mapJobAt_objs (s : State) (n : Nat) (f : Job → Job) : (s.mapJobAt n f).objs = s.objs := rfl
@[simp] theorem State.mapJobAt_recs (s : State) (n : Nat) (f : Job → Job) : (s.mapJobAt n f).recs = s.recs := rfl
@[simp] theorem State.mapJobAt_accs (s : State) (n : Nat) (f : Job → Job) : (s.mapJobAt n f).accs = s.accs := rfl
@[simp] theorem State.mapJobAt_reds (s : State) (n : Nat) (f : Job → Job) : (s.mapJobAt n f).reds = s.reds := rfl
@[simp] theorem State.mapJobAt_colls (s : State) (n : Nat) (f : Job → Job) : (s.mapJobAt n f).colls = s.colls := rfl
@[simp] theorem State.mapJobAt_orphans (s : State) (n : Nat) (f : Job → Job) : (s.mapJobAt n f).orphans = s.orphans := rfl
@[simp] theorem State.mapJobAt_os (s : State) (n : Nat) (f : Job → Job) : (s.mapJobAt n f).os = s.os := rfl
@[simp] theorem State.mapJobAt_carafe (s : State) (n : Nat) (f : Job → Job) : (s.mapJobAt n f).carafe = s.carafe := rfl
@[simp] theorem State.mapJobAt_regions (s : State) (n : Nat) (f : Job → Job) : (s.mapJobAt n f).regions = s.regions := rfl
@[simp] theorem State.mapJobAt_blocks (s : State) (n : Nat) (f : Job → Job) : (s.mapJobAt n f).blocks = s.blocks := rfl
@[simp] theorem State.mapJobAt_node (s : State) (n : Nat) (f : Job → Job) : (s.mapJobAt n f).node = s.node := rfl
@[simp] theorem State.mapJobAt_groups (s : State) (n : Nat) (f : Job → Job) : (s.mapJobAt n f).groups = s.groups := rfl
@[simp] theorem State.mapJobAt_host (s : State) (n : Nat) (f : Job → Job) : (s.mapJobAt n f).host = s.host := rfl
@[simp] theorem State.mapJobAt_mgmt (s : State) (n : Nat) (f : Job → Job) : (s.mapJobAt n f).mgmt = s.mgmt := rfl
@[simp] theorem State.mapJobAt_flash (s : State) (n : Nat) (f : Job → Job) : (s.mapJobAt n f).flash = s.flash := rfl
@[simp] theorem State.mapJobAt_fwver (s : State) (n : Nat) (f : Job → Job) : (s.mapJobAt n f).fwver = s.fwver := rfl
@[simp] theorem State.mapJobAt_fwdigest (s : State) (n : Nat) (f : Job → Job) : (s.mapJobAt n f).fwdigest = s.fwdigest := rfl
@[simp] theorem State.mapJobAt_ports (s : State) (n : Nat) (f : Job → Job) : (s.mapJobAt n f).ports = s.ports := rfl
@[simp] theorem State.mapJobAt_fences (s : State) (n : Nat) (f : Job → Job) : (s.mapJobAt n f).fences = s.fences := rfl
@[simp] theorem State.mapJobAt_signals (s : State) (n : Nat) (f : Job → Job) : (s.mapJobAt n f).signals = s.signals := rfl

@[simp] theorem Ctl.skip_pc (c : Ctl) (n : Nat) : (c.skip n).pc = c.pc + BitVec.ofNat 64 n := rfl
@[simp] theorem Ctl.skip_x (c : Ctl) (n : Nat) : (c.skip n).x = c.x := rfl
@[simp] theorem Ctl.skip_p (c : Ctl) (n : Nat) : (c.skip n).p = c.p := rfl
@[simp] theorem Ctl.skip_run (c : Ctl) (n : Nat) : (c.skip n).run = c.run := rfl
@[simp] theorem Strm32.skip_pc (c : Strm32) (n : Nat) : (c.skip n).pc = c.pc + BitVec.ofNat 64 n := rfl
@[simp] theorem Strm32.skip_x (c : Strm32) (n : Nat) : (c.skip n).x = c.x := rfl
@[simp] theorem Strm32.skip_p (c : Strm32) (n : Nat) : (c.skip n).p = c.p := rfl
@[simp] theorem Strm32.skip_draw (c : Strm32) (n : Nat) : (c.skip n).draw = c.draw := rfl
@[simp] theorem Strm32.skip_run (c : Strm32) (n : Nat) : (c.skip n).run = c.run := rfl
@[simp] theorem Ctl.setP_p (c : Ctl) (n : BitVec 3) (v : Bool) : (c.setP n v).p = setPred c.p n v := rfl
@[simp] theorem Ctl.setP_x (c : Ctl) (n : BitVec 3) (v : Bool) : (c.setP n v).x = c.x := rfl
@[simp] theorem Ctl.setP_pc (c : Ctl) (n : BitVec 3) (v : Bool) : (c.setP n v).pc = c.pc := rfl
@[simp] theorem Ctl.setP_run (c : Ctl) (n : BitVec 3) (v : Bool) : (c.setP n v).run = c.run := rfl
@[simp] theorem Strm32.setP_p (c : Strm32) (n : BitVec 3) (v : Bool) : (c.setP n v).p = setPred c.p n v := rfl
@[simp] theorem Strm32.setP_x (c : Strm32) (n : BitVec 3) (v : Bool) : (c.setP n v).x = c.x := rfl
@[simp] theorem Strm32.setP_pc (c : Strm32) (n : BitVec 3) (v : Bool) : (c.setP n v).pc = c.pc := rfl
@[simp] theorem Strm32.setP_draw (c : Strm32) (n : BitVec 3) (v : Bool) : (c.setP n v).draw = c.draw := rfl
@[simp] theorem Strm32.setP_run (c : Strm32) (n : BitVec 3) (v : Bool) : (c.setP n v).run = c.run := rfl

@[simp] theorem Ctl.setX_p (c : Ctl) (r : BitVec 6) (v : Word) : (c.setX r v).p = c.p := by
  unfold Ctl.setX; split <;> rfl
@[simp] theorem Ctl.setX_pc (c : Ctl) (r : BitVec 6) (v : Word) : (c.setX r v).pc = c.pc := by
  unfold Ctl.setX; split <;> rfl
@[simp] theorem Ctl.setX_run (c : Ctl) (r : BitVec 6) (v : Word) : (c.setX r v).run = c.run := by
  unfold Ctl.setX; split <;> rfl
@[simp] theorem Strm32.setX_p (c : Strm32) (r : BitVec 5) (v : Word) : (c.setX r v).p = c.p := by
  unfold Strm32.setX; split <;> rfl
@[simp] theorem Strm32.setX_pc (c : Strm32) (r : BitVec 5) (v : Word) : (c.setX r v).pc = c.pc := by
  unfold Strm32.setX; split <;> rfl
@[simp] theorem Strm32.setX_draw (c : Strm32) (r : BitVec 5) (v : Word) : (c.setX r v).draw = c.draw := by
  unfold Strm32.setX; split <;> rfl
@[simp] theorem Strm32.setX_run (c : Strm32) (r : BitVec 5) (v : Word) : (c.setX r v).run = c.run := by
  unfold Strm32.setX; split <;> rfl

/-- A control register after a write: the value written, for every register but `x0`, which reads as zero. -/
theorem Ctl.getX_setX (c : Ctl) (r q : BitVec 6) (v : Word) :
    (c.setX r v).getX q = if q = r ∧ q ≠ 0 then v else c.getX q := by
  unfold Ctl.setX Ctl.getX
  by_cases hr : r = 0
  · by_cases h0 : q = 0
    · simp only [h0, hr, if_true, ne_eq, not_true_eq_false, and_false, if_false]
    · simp only [h0, hr, if_true, if_false, false_and]
  · simp only [if_neg hr]
    by_cases h0 : q = 0
    · simp only [h0, if_true, ne_eq, not_true_eq_false, and_false, if_false]
    · by_cases hq : q = r
      · simp only [← hq, ne_eq, h0, not_false_eq_true, and_self, if_true, if_false, Vector.getElem_set_self]
      · have h : r.toNat ≠ q.toNat := fun h => hq (BitVec.eq_of_toNat_eq h.symm)
        simp only [if_neg h0, hq, false_and, if_false, Vector.getElem_set_ne _ _ h]

/-- A register of another stream after a write. -/
theorem Strm32.getX_setX (c : Strm32) (r q : BitVec 5) (v : Word) :
    (c.setX r v).getX q = if q = r ∧ q ≠ 0 then v else c.getX q := by
  unfold Strm32.setX Strm32.getX
  by_cases hr : r = 0
  · by_cases h0 : q = 0
    · simp only [h0, hr, if_true, ne_eq, not_true_eq_false, and_false, if_false]
    · simp only [h0, hr, if_true, if_false, false_and]
  · simp only [if_neg hr]
    by_cases h0 : q = 0
    · simp only [h0, if_true, ne_eq, not_true_eq_false, and_false, if_false]
    · by_cases hq : q = r
      · simp only [← hq, ne_eq, h0, not_false_eq_true, and_self, if_true, if_false, Vector.getElem_set_self]
      · have h : r.toNat ≠ q.toNat := fun h => hq (BitVec.eq_of_toNat_eq h.symm)
        simp only [if_neg h0, hq, false_and, if_false, Vector.getElem_set_ne _ _ h]

@[simp] theorem Ctl.skip_getX (c : Ctl) (n : Nat) (r : BitVec 6) : (c.skip n).getX r = c.getX r := rfl
@[simp] theorem Ctl.setP_getX (c : Ctl) (n : BitVec 3) (v : Bool) (r : BitVec 6) : (c.setP n v).getX r = c.getX r := rfl
@[simp] theorem Strm32.skip_getX (c : Strm32) (n : Nat) (r : BitVec 5) : (c.skip n).getX r = c.getX r := rfl
@[simp] theorem Ctl.getX_zero (c : Ctl) : c.getX 0 = 0 := rfl
@[simp] theorem Strm32.getX_zero (c : Strm32) : c.getX 0 = 0 := rfl

end Sys2Proof.Machine
end

