-- ==== Sys2Proof/Laws/Ops.lean ====
section
/-! SUPPORT. The words of a stream as computations over the state: what each building block does when its check passes, waits
or fails, and what a word then leaves. -/

namespace Sys2Proof.Machine

theorem Op.bind_ok {α β : Type} {x : Op α} {f : α → Op β} {s t : State} {a : α} (h : x s = .ok (a, t)) :
    (x >>= f) s = f a t := by
  show (x s >>= fun p => f p.1 p.2) = f a t
  rw [h]; rfl

theorem Op.bind_error {α β : Type} {x : Op α} {f : α → Op β} {s : State} {e : Stop} (h : x s = .error e) :
    (x >>= f) s = .error e := by
  show (x s >>= fun p => f p.1 p.2) = .error e
  rw [h]; rfl

theorem Op.seq_ok {α β : Type} {x : Op α} {y : Op β} {s t : State} {a : α} (h : x s = .ok (a, t)) :
    (do let _ ← x; y) s = y t := Op.bind_ok h

@[simp] theorem Op.pure_run {α : Type} (a : α) (s : State) : (pure a : Op α) s = .ok (a, s) := rfl
@[simp] theorem Op.get_run (s : State) : (get : Op State) s = .ok (s, s) := rfl
@[simp] theorem Op.set_run (s t : State) : (set t : Op PUnit) s = .ok (⟨⟩, t) := rfl
@[simp] theorem Op.modify_run (f : State → State) (s : State) : (modify f : Op PUnit) s = .ok (⟨⟩, f s) := rfl
@[simp] theorem Op.get_bind {β : Type} (f : State → Op β) (s : State) : (get >>= f : Op β) s = f s s := rfl
@[simp] theorem Op.pure_bind {α β : Type} (a : α) (f : α → Op β) (s : State) : (pure a >>= f : Op β) s = f a s := rfl
@[simp] theorem Op.set_bind {β : Type} (t s : State) (f : PUnit → Op β) : (set t >>= f : Op β) s = f ⟨⟩ t := rfl
@[simp] theorem Op.modify_bind {β : Type} (g : State → State) (s : State) (f : PUnit → Op β) :
    (modify g >>= f : Op β) s = f ⟨⟩ (g s) := rfl

@[simp] theorem trapWith_run {α : Type} (c : Cause) (a i : Nat) (s : State) : (trapWith c a i : Op α) s =
    .error (.trap { cause := c, finfo := BitVec.ofNat 32 i, finfox := 0, faddr := BitVec.ofNat 64 a }) := rfl
@[simp] theorem trap_run {α : Type} (c : Cause) (s : State) : (trap c : Op α) s =
    .error (.trap { cause := c, finfo := 0, finfox := 0, faddr := 0 }) := rfl
@[simp] theorem stall_run {α : Type} (s : State) : (stall : Op α) s = .error (.stall .none) := rfl
@[simp] theorem stallBlocked_run {α : Type} (s : State) : (stallBlocked : Op α) s = .error (.stall .blocked) := rfl

@[simp] theorem trapIf_false (c : Cause) (s : State) : (trapIf false c) s = .ok ((), s) := rfl
@[simp] theorem trapIf_true (c : Cause) (s : State) : (trapIf true c) s =
    .error (.trap { cause := c, finfo := 0, finfox := 0, faddr := 0 }) := rfl
@[simp] theorem stallIf_false (s : State) : (stallIf false) s = .ok ((), s) := rfl
@[simp] theorem stallIf_true (s : State) : (stallIf true) s = .error (.stall .none) := rfl

theorem needX_ok {rs : List (BitVec 6)} {s : State} (h : ∀ r ∈ rs, s.core.awaits r = false) : needX rs s = .ok ((), s) := by
  have : rs.any s.core.awaits = false := by
    rw [List.any_eq_false]; intro r hr; rw [h r hr]; exact Bool.false_ne_true
  simp only [needX, Op.get_bind, this]; rfl

theorem rdX_ok {r : BitVec 6} {s : State} (h : s.core.awaits r = false) : rdX r s = .ok (s.ctl.getX r, s) := by
  unfold rdX
  rw [Op.bind_ok (needX_ok (by simpa using h))]; rfl

theorem wrX_ok {r : BitVec 6} {v : Word} {s : State} (h : s.core.awaits r = false) :
    wrX r v s = .ok ((), s.mapCtl fun c => c.setX r v) := by
  unfold wrX
  rw [Op.bind_ok (needX_ok (by simpa using h))]; rfl

/-- What a word leaves when its effect completes. -/
theorem runOp_ok {k : Strm} {op : Op Unit} {s t : State} (h : op s = .ok ((), t)) : runOp k op s = .next t := by
  unfold runOp
  have : op.run s = .ok ((), t) := h
  rw [this]

/-- A word that faults leaves the state but for the record of the stop (01 R42). -/
theorem runOp_trap {k : Strm} {op : Op Unit} {s : State} {t : Trap} (h : op s = .error (.trap t)) :
    runOp k op s = .next (s.takeFault k t) := by
  unfold runOp
  have : op.run s = .error (.trap t) := h
  rw [this]

/-- A word that waits leaves the state but for what the wait notes (04 R165). -/
theorem runOp_stall {k : Strm} {op : Op Unit} {s : State} {n : Note} (h : op s = .error (.stall n)) :
    runOp k op s = .next (s.leave k n) := by
  unfold runOp
  have : op.run s = .error (.stall n) := h
  rw [this]

/-- A control word that completes moves past itself. -/
theorem runCtl_ok {op : Op Unit} {s t : State} (h : op s = .ok ((), t)) : runCtl op s = .next t.advance := by
  unfold runCtl
  exact runOp_ok (by rw [Op.bind_ok h]; rfl)

theorem runCtl_trap {op : Op Unit} {s : State} {t : Trap} (h : op s = .error (.trap t)) :
    runCtl op s = .next (s.takeFault .ctl t) := by
  unfold runCtl
  exact runOp_trap (Op.bind_error h)

theorem runCtl_stall {op : Op Unit} {s : State} {n : Note} (h : op s = .error (.stall n)) :
    runCtl op s = .next (s.leave .ctl n) := by
  unfold runCtl
  exact runOp_stall (Op.bind_error h)

/-- A word that only computes: it waits for its registers, or writes its destination and moves on. -/
theorem aluOp_free {d : BitVec 6} {srcs : List (BitVec 6)} {f : Ctl → Word} {s : State}
    (h : ∀ r ∈ d :: srcs, s.core.awaits r = false) :
    aluOp d srcs f s = .next (s.mapCtl fun c => (c.setX d (f c)).skip 4) := by
  have : (d :: srcs).any s.core.awaits = false := by
    rw [List.any_eq_false]; intro r hr; rw [h r hr]; exact Bool.false_ne_true
  simp only [aluOp, this, Bool.false_eq_true, if_false]

end Sys2Proof.Machine
end

