-- ==== Sys2Proof/Laws/Access.lean ====
section
/-! SUPPORT. Where an access is served, once for each of the kinds of place: the checks that lead there, and the state as it was. -/

namespace Sys2Proof.Machine

/-- A scratchpad range of segments held, below the scratchpad's end (02 R58, R62). -/
theorem padPlace_ok {s : State} {held : Nat → Bool} {ea : Word} {n : Nat} (high : bits ea 55 20 = 0)
    (room : bits ea 19 0 + n ≤ s.padBytes) (all : (segsOf (bits ea 19 0) n).all held = true) :
    padPlace held ea n s = .ok (.pad (bits ea 19 0), s) := by
  unfold padPlace
  simp only [Op.get_bind, high, ne_eq, not_true_eq_false, decide_false, Bool.false_or, decide_eq_true_eq, Nat.not_lt.mpr room,
    if_false, all, Bool.not_true, Bool.false_eq_true, Op.pure_run]

/-- An access of a scratchpad range that the engine holds (02 R58, R62). -/
theorem place_pad {s : State} {st : Strm} (k : AK) (lim : Nat) {ea : Word} {n : Nat} (tag : bits ea 63 56 = 0xFE) (high : bits ea 55 20 = 0)
    (room : bits ea 19 0 + n ≤ s.padBytes) (held : s.core.holdsPad (strmEng st) (bits ea 19 0) n = true) :
    place st k lim ea n s = .ok (.pad (bits ea 19 0), s) := by
  unfold place
  simp only [Op.get_bind, tag, if_true, padPlace_ok high room held]

/-- Pieces at homes within a level, over links that are alive, pass (02 R82, R91). -/
theorem checkHomes_ok {s : State} (k : AK) {lim : Nat} {segs : List Seg} (near : ∀ g ∈ segs, s.homeLevel g.pa ≤ lim)
    (alive : ∀ g ∈ segs, s.linkDead g.pa = false) : checkHomes k lim segs s = .ok ((), s) := by
  have h0 : segs.find? (fun g => decide (lim < s.homeLevel g.pa)) = none :=
    List.find?_eq_none.mpr fun g hg => by simpa using near g hg
  have h1 : segs.find? (fun g => s.linkDead g.pa) = none := List.find?_eq_none.mpr fun g hg => by simp [alive g hg]
  unfold checkHomes
  simp only [Op.get_bind, h0, h1, Op.pure_run]

/-- A range on which the task sees no object passes the class checks, and its home refuses none of it (02 R69). -/
theorem checkClass_none {s : State} (k : AK) {va n : Nat}
    (clear : (s.myObjs.filter fun o => o.va < va + n && va < o.va + o.size && s.objAt (max o.va va) = some o) = []) :
    checkClass k va n s = .ok ([], s) := by
  unfold checkClass
  simp only [Op.get_bind, clear, List.foldlM_nil, Op.pure_run]

/-- A stretch inside the heap is served from memory (02 R58, R59). -/
theorem locate_heap {s : State} {k : AK} {lim va n : Nat} (top : va + n ≤ 2 ^ 48 ∧ va < 2 ^ 48)
    (free : s.guarded va n = false) (nowin : s.core.task.windowAt va = none) (notouch : s.core.task.windowTouches va n = false)
    (heap : s.inHeap va = true) (data : k.fetches = false) (limit : va + n ≤ lrHeapLim s.lrec)
    (homes : checkHomes k lim (s.heapSegs va n) s = .ok ((), s)) :
    locate k lim va n [(va, n)] s = .ok (.mem [s.heapSegs va n], s) := by
  have homes' : checkHomes k lim ([s.heapSegs va n].flatten) s = .ok ((), s) := by simpa using homes
  unfold locate locateIn
  simp only [Op.get_bind, Nat.not_lt.mpr top.1, Nat.not_le.mpr top.2, decide_false, Bool.or_self, Bool.false_eq_true, if_false,
    data, Bool.not_false, Bool.true_and, List.any_cons, List.any_nil, Bool.or_false, free, nowin, notouch, heap, if_true,
    Nat.not_lt.mpr limit, List.map_cons, List.map_nil]
  rw [show (List.map _ (pages va n)) = s.heapSegs va n from rfl, Op.bind_ok homes', Op.pure_run]

/-- An access inside the heap that passes the checks of its homes and classes (02 R58, R59, R69). -/
theorem place_heap {s : State} {st : Strm} {k : AK} {lim : Nat} {ea : Word} {n : Nat} {r : List (Nat × Nat)} (virt : bits ea 63 56 ≠ 0xFE)
    (top : ea.toNat + n ≤ 2 ^ 48 ∧ ea.toNat < 2 ^ 48) (free : s.guarded ea.toNat n = false)
    (nowin : s.core.task.windowAt ea.toNat = none) (notouch : s.core.task.windowTouches ea.toNat n = false)
    (heap : s.inHeap ea.toNat = true) (data : k.fetches = false) (limit : ea.toNat + n ≤ lrHeapLim s.lrec)
    (homes : checkHomes k lim (s.heapSegs ea.toNat n) s = .ok ((), s)) (cls : checkClass k ea.toNat n s = .ok (r, s)) :
    place st k lim ea n s = .ok (.mem (s.heapSegs ea.toNat n) r, s) := by
  unfold place
  simp only [Op.get_bind, virt, if_false]
  rw [Op.bind_ok (locate_heap top free nowin notouch heap data limit homes)]
  simp only [Op.bind_ok cls, Op.pure_run, List.flatten_cons, List.flatten_nil, List.append_nil]

end Sys2Proof.Machine
end

