-- ==== Sys2Proof/Laws/Mem.lean ====
section
/-! SUPPORT. Memory: every operation keeps the canonical form, a read after a write gives the bytes written, a write leaves
every other address alone, and two memories that read alike are equal. -/

namespace Sys2Proof.Machine

theorem Mem.wfFrom_mono {lo hi : Nat} (h : lo ≤ hi) : ∀ {m : Mem}, Mem.wfFrom hi m = true → Mem.wfFrom lo m = true
  | [], _ => rfl
  | (k, v) :: m, w => by
    simp only [Mem.wfFrom, Bool.and_eq_true, decide_eq_true_eq] at w ⊢
    exact ⟨⟨by omega, w.1.2⟩, w.2⟩

/-- Below its first entry a canonical memory reads as zero. -/
theorem Mem.get_below {a : Nat} : ∀ {m : Mem} {lo : Nat}, Mem.wfFrom lo m = true → a < lo → m.get a = 0
  | [], _, _, _ => rfl
  | (k, v) :: m, lo, w, h => by
    simp only [Mem.wfFrom, Bool.and_eq_true, decide_eq_true_eq] at w
    have hk : k ≠ a := by omega
    simp only [Mem.get, if_neg hk]
    exact Mem.get_below w.2 (by omega)

theorem Mem.wfFrom_set {a : Nat} {b : Byte} : ∀ {m : Mem} {lo : Nat}, Mem.wfFrom lo m = true → lo ≤ a →
    Mem.wfFrom lo (m.set a b) = true
  | [], lo, _, h => by
    unfold Mem.set; split
    · rfl
    · next hb => simpa [Mem.wfFrom, h] using hb
  | (k, v) :: m, lo, w, h => by
    have w' := w
    simp only [Mem.wfFrom, Bool.and_eq_true, decide_eq_true_eq] at w'
    unfold Mem.set
    split
    · split
      · exact w
      · next hk hb =>
        simp only [Mem.wfFrom, Bool.and_eq_true, decide_eq_true_eq]
        exact ⟨⟨h, by simpa using hb⟩, ⟨by omega, w'.1.2⟩, w'.2⟩
    · split
      · next hk he =>
        subst he
        split
        · exact Mem.wfFrom_mono (by omega) w'.2
        · next hb =>
          simp only [Mem.wfFrom, Bool.and_eq_true, decide_eq_true_eq]
          exact ⟨⟨h, by simpa using hb⟩, w'.2⟩
      · next hk he =>
        simp only [Mem.wfFrom, Bool.and_eq_true, decide_eq_true_eq]
        exact ⟨⟨w'.1.1, w'.1.2⟩, Mem.wfFrom_set w'.2 (by omega)⟩

/-- Writing a byte keeps the canonical form. -/
theorem Mem.wf_set {m : Mem} (a : Nat) (b : Byte) (w : m.wf = true) : (m.set a b).wf = true :=
  Mem.wfFrom_set w (Nat.zero_le a)

theorem Mem.getFrom_set {a c : Nat} {b : Byte} : ∀ {m : Mem} {lo : Nat}, Mem.wfFrom lo m = true →
    (m.set a b).get c = if c = a then b else m.get c
  | [], _, _ => by
    unfold Mem.set
    split
    · next hb => split <;> simp [Mem.get, hb]
    · simp only [Mem.get]; split <;> split <;> simp_all
  | (k, v) :: m, lo, w => by
    simp only [Mem.wfFrom, Bool.and_eq_true, decide_eq_true_eq] at w
    have low : ∀ x, x < k + 1 → Mem.get m x = 0 := fun x hx => Mem.get_below w.2 hx
    unfold Mem.set
    by_cases h1 : a < k
    · simp only [if_pos h1]
      split
      · next hb =>
        by_cases hc : c = a
        · subst hc
          have : k ≠ c := by omega
          simp only [Mem.get, if_neg this, low c (by omega), if_true, hb]
        · simp only [hc, if_false]
      · by_cases hc : c = a
        · subst hc; simp only [Mem.get, if_true]
        · have : a ≠ c := fun h => hc h.symm
          simp only [hc, if_false]
          conv => lhs; unfold Mem.get
          simp only [if_neg this]
    · by_cases h2 : a = k
      · subst h2
        simp only [Nat.lt_irrefl, if_false, if_true]
        split
        · next hb =>
          by_cases hc : c = a
          · subst hc; simp only [low c (by omega), if_true, hb]
          · have : a ≠ c := fun h => hc h.symm
            simp only [hc, if_false, Mem.get, if_neg this]
        · by_cases hc : c = a
          · subst hc; simp only [Mem.get, if_true]
          · have : a ≠ c := fun h => hc h.symm
            simp only [hc, if_false, Mem.get, if_neg this]
      · simp only [if_neg h1, if_neg h2, Mem.get, Mem.getFrom_set w.2]
        by_cases hc : c = a
        · subst hc
          have : k ≠ c := fun h => h2 h.symm
          simp only [if_neg this, if_true]
        · simp only [hc, if_false]

/-- A byte reads as written; every other byte reads as before. -/
theorem Mem.get_set {m : Mem} (a c : Nat) (b : Byte) (w : m.wf = true) :
    (m.set a b).get c = if c = a then b else m.get c :=
  Mem.getFrom_set w

/-- Writing bytes keeps the canonical form. -/
theorem Mem.wf_write : ∀ (d : List Byte) {m : Mem} (a : Nat), m.wf = true → (m.write a d).wf = true
  | [], _, _, w => w
  | b :: d, _, a, w => Mem.wf_write d (a + 1) (Mem.wf_set a b w)

/-- A byte after a write of several bytes. -/
theorem Mem.get_write : ∀ (d : List Byte) {m : Mem} (a c : Nat), m.wf = true →
    (m.write a d).get c = if a ≤ c ∧ c < a + d.length then d.getD (c - a) 0 else m.get c
  | [], m, a, c, _ => by
    have : ¬(a ≤ c ∧ c < a + ([] : List Byte).length) := by simp
    simp only [Mem.write, if_neg this]
  | b :: d, m, a, c, w => by
    simp only [Mem.write, Mem.get_write d (a + 1) c (Mem.wf_set a b w), Mem.get_set a c b w, List.length_cons]
    by_cases h : a = c
    · subst h
      have h1 : ¬(a + 1 ≤ a ∧ a < a + 1 + d.length) := by omega
      have h2 : a ≤ a ∧ a < a + (d.length + 1) := by omega
      rw [if_neg h1, if_pos h2, if_pos rfl, Nat.sub_self]; rfl
    · have hc : ¬c = a := fun x => h x.symm
      by_cases h1 : a + 1 ≤ c ∧ c < a + 1 + d.length
      · have h2 : a ≤ c ∧ c < a + (d.length + 1) := by omega
        have h3 : c - a = c - (a + 1) + 1 := by omega
        rw [if_pos h1, if_pos h2, h3]; rfl
      · have h2 : ¬(a ≤ c ∧ c < a + (d.length + 1)) := by omega
        rw [if_neg h1, if_neg h2, if_neg hc]

theorem Mem.length_read (m : Mem) : ∀ (n a : Nat), (m.read a n).length = n
  | 0, _ => rfl
  | n + 1, a => by simp [Mem.read, Mem.length_read m n (a + 1)]

/-- What is read depends on the bytes of the range alone. -/
theorem Mem.read_congr {m p : Mem} : ∀ (n a : Nat), (∀ c, a ≤ c → c < a + n → m.get c = p.get c) → m.read a n = p.read a n
  | 0, _, _ => rfl
  | n + 1, a, h => by
    simp only [Mem.read]
    rw [h a (Nat.le_refl a) (by omega), Mem.read_congr n (a + 1) fun c h1 h2 => h c (by omega) (by omega)]

/-- The bytes written are read back. -/
theorem Mem.read_write : ∀ (d : List Byte) {m : Mem} (a : Nat), m.wf = true → (m.write a d).read a d.length = d
  | [], _, _, _ => rfl
  | b :: d, m, a, w => by
    simp only [List.length_cons, Mem.read]
    congr 1
    · rw [Mem.get_write (b :: d) a a w]; simp
    · exact Mem.read_write d (a + 1) (Mem.wf_set a b w)

theorem Mem.wfFrom_filter (p : Host.Cell → Bool) : ∀ {m : Mem} {lo : Nat}, Mem.wfFrom lo m = true →
    Mem.wfFrom lo (List.filter p m) = true
  | [], _, _ => rfl
  | (k, v) :: m, lo, w => by
    simp only [Mem.wfFrom, Bool.and_eq_true, decide_eq_true_eq] at w
    simp only [List.filter_cons]
    split
    · simp only [Mem.wfFrom, Bool.and_eq_true, decide_eq_true_eq]
      exact ⟨w.1, Mem.wfFrom_filter p w.2⟩
    · exact Mem.wfFrom_mono (by omega) (Mem.wfFrom_filter p w.2)

/-- Dropping entries keeps the canonical form. -/
theorem Mem.wf_filter {m : Mem} (p : Host.Cell → Bool) (w : m.wf = true) : Mem.wf (List.filter p m) = true :=
  Mem.wfFrom_filter p w

/-- Erasing a range keeps the canonical form. -/
theorem Mem.wf_erase {m : Mem} (a n : Nat) (w : m.wf = true) : (m.erase a n).wf = true := Mem.wf_filter _ w

/-- Writing cells one by one keeps the canonical form. -/
theorem Mem.wf_foldl_set (f : Host.Cell → Nat × Byte) : ∀ (cs : List Host.Cell) {m : Mem}, m.wf = true →
    (cs.foldl (fun m c => m.set (f c).1 (f c).2) m).wf = true
  | [], _, w => w
  | c :: cs, _, w => Mem.wf_foldl_set f cs (Mem.wf_set (f c).1 (f c).2 w)

theorem Mem.eqFrom_of_get {lo : Nat} : ∀ {m p : Mem}, Mem.wfFrom lo m = true → Mem.wfFrom lo p = true →
    (∀ a, m.get a = p.get a) → m = p
  | [], [], _, _, _ => rfl
  | [], (k, v) :: p, _, w, h => by
    simp only [Mem.wfFrom, Bool.and_eq_true, bne_iff_ne] at w
    have := h k
    simp only [Mem.get, if_true] at this
    exact absurd this.symm w.1.2
  | (k, v) :: m, [], w, _, h => by
    simp only [Mem.wfFrom, Bool.and_eq_true, bne_iff_ne] at w
    have := h k
    simp only [Mem.get, if_true] at this
    exact absurd this w.1.2
  | (k, v) :: m, (j, u) :: p, w, x, h => by
    simp only [Mem.wfFrom, Bool.and_eq_true, decide_eq_true_eq, bne_iff_ne] at w x
    have hk : k = j := by
      rcases Nat.lt_trichotomy k j with hl | he | hg
      · have e := h k
        have hj : j ≠ k := by omega
        simp only [Mem.get, if_true, if_neg hj, Mem.get_below x.2 (show k < j + 1 by omega)] at e
        exact absurd e w.1.2
      · exact he
      · have e := h j
        have hj : k ≠ j := by omega
        simp only [Mem.get, if_true, if_neg hj, Mem.get_below w.2 (show j < k + 1 by omega)] at e
        exact absurd e.symm x.1.2
    subst hk
    have hv : v = u := by have := h k; simpa only [Mem.get, if_true] using this
    subst hv
    congr 1
    refine Mem.eqFrom_of_get w.2 x.2 fun a => ?_
    by_cases ha : a < k + 1
    · rw [Mem.get_below w.2 ha, Mem.get_below x.2 ha]
    · have := h a
      have hn : k ≠ a := by omega
      simpa only [Mem.get, if_neg hn] using this

/-- Memories in canonical form that read alike are the same data. -/
theorem Mem.eq_of_get {m p : Mem} (w : m.wf = true) (x : p.wf = true) (h : ∀ a, m.get a = p.get a) : m = p :=
  Mem.eqFrom_of_get w x h

end Sys2Proof.Machine
end

