-- ==== Sys2Proof/Laws/Phys.lean ====
section
/-! SUPPORT. Ordinary memory: a read gives its bytes and changes nothing, a write stores its bytes and no other. -/

namespace Sys2Proof.Machine

theorem gaOf_gaPa {s : State} {ga : Nat} (h : gaPkg ga = s.pkg.toNat) : gaOf s.pkg (gaPa ga) = ga := by
  unfold gaOf gaPa; unfold gaPkg at h; rw [← h]; omega

theorem settle_none {s : State} {ga n : Nat} (g : Agent)
    (h : (s.accs.any fun a => decide (a.pa < ga + n) && decide (ga < a.pa + redSize a.ty)) = false) : s.settle ga n g = s := by
  unfold State.settle
  have : (s.accs.filter fun a => decide (a.pa < ga + n) && decide (ga < a.pa + redSize a.ty) && s.rounds g a) = [] := by
    rw [List.filter_eq_nil_iff]
    intro a ha
    have := List.any_eq_false.mp h a ha
    simp only [Bool.not_eq_true] at this
    simp [this]
  simp only [this, List.foldl_nil]

/-- The sectors of a range are those that begin in it, and the one that its first byte lies in. -/
theorem mem_sectorsOf {a n x : Nat} : x ∈ sectorsOf a n ↔ n ≠ 0 ∧ x % 64 = 0 ∧ a / 64 ≤ x / 64 ∧ x < a + n := by
  unfold sectorsOf
  by_cases h : n = 0
  · simp [h]
  · simp only [if_neg h, List.mem_map, List.mem_range]
    constructor
    · rintro ⟨i, hi, rfl⟩; omega
    · rintro ⟨-, h1, h2, h3⟩; exact ⟨x / 64 - a / 64, by omega, by omega⟩

/-- What `plainAt` says of a sector of the range. -/
structure PlainSector (s : State) (key : BitVec 8) (sa : Nat) : Prop where
  low : sa < 2 ^ 40
  region : s.regionAt sa = none
  data : (stackOf sa).2 < vmetaBase
  err : (s.sectorAt sa).err = []
  clean : (s.sectorAt sa).poison = false
  key : (s.sectorAt sa).ckey = s.keyMat key

theorem plainAt_iff {s : State} {ga n : Nat} {key : BitVec 8} (h : s.plainAt ga n key = true) :
    gaHost ga = false ∧ gaPkg ga = s.pkg.toNat ∧ gaPa ga + n ≤ 2 ^ 40 ∧
    (∀ sa ∈ sectorsOf (gaPa ga) n, PlainSector s key sa) ∧
    (s.accs.any fun a => decide (a.pa < (ga + n + 127) / 128 * 128) && decide (ga / 128 * 128 < a.pa + redSize a.ty)) = false := by
  unfold State.plainAt at h
  simp only [Bool.and_eq_true, Bool.not_eq_true', decide_eq_true_eq, List.all_eq_true, Option.isNone_iff_eq_none,
    List.isEmpty_iff] at h
  obtain ⟨⟨⟨⟨h1, h2⟩, h3⟩, h4⟩, h5⟩ := h
  exact ⟨h1, h2, h3, fun sa hs => ⟨by have := mem_sectorsOf.mp hs; omega, (h4 sa hs).1.1.1.1, (h4 sa hs).1.1.1.2,
    (h4 sa hs).1.1.2, (h4 sa hs).1.2, (h4 sa hs).2⟩, h5⟩

theorem sectorBytes_plain {s : State} {key : BitVec 8} {sa : Nat} (h : PlainSector s key sa) :
    s.sectorBytes sa = s.mem.read (gaOf s.pkg sa) 64 := by
  unfold State.sectorBytes
  simp only [h.data, if_true]

/-- A sector of ordinary memory is found without error, and gives its bytes. -/
theorem sense_plain {s : State} {key : BitVec 8} {sa : Nat} (h : PlainSector s key sa) (wb : Bool) :
    s.sense sa wb (s.keyMat key) =
      (s, { data := s.mem.read (gaOf s.pkg sa) 64, tags := (s.sectorAt sa).rtag, poison := false }, false) := by
  unfold State.sense
  simp only [h.clean, h.err, Bool.false_eq_true, if_false, List.length_nil, if_true, Sector.under, h.key, sectorBytes_plain h]

theorem readSector_plain {s : State} {key : BitVec 8} {sa : Nat} (h : PlainSector s key sa) (src kind : Nat) (wb : Bool) :
    s.readSector sa src kind wb (s.keyMat key) =
      (s, { data := s.mem.read (gaOf s.pkg sa) 64, tags := (s.sectorAt sa).rtag, poison := false }) := by
  unfold State.readSector
  simp only [sense_plain h, Bool.false_eq_true, if_false]

theorem routeRead_plain {s : State} {key : BitVec 8} {sa : Nat} (h : PlainSector s key sa) : s.routeRead sa = (s, some sa) := by
  have h1 : sa % 2 ^ 40 = sa := Nat.mod_eq_of_lt h.low
  have h2 : ¬ sa / 2 ^ 40 % 2 = 1 := by have := h.low; omega
  unfold State.routeRead
  simp only [h1, h.region, if_neg h2]

theorem routeWrite_plain {s : State} {key : BitVec 8} {sa : Nat} (h : PlainSector s key sa) (g : Agent) (red whole : Bool) :
    s.routeWrite sa g red whole = (s, some sa) := by
  have h1 : sa % 2 ^ 40 = sa := Nat.mod_eq_of_lt h.low
  have h2 : ¬ sa / 2 ^ 40 % 2 = 1 := by have := h.low; omega
  unfold State.routeWrite
  simp only [h1, h.region, if_neg h2]

theorem read_append (m : Mem) : ∀ (k n a : Nat), m.read a k ++ m.read (a + k) n = m.read a (k + n)
  | 0, n, a => by simp [Mem.read]
  | k + 1, n, a => by
    have e : k + 1 + n = (k + n) + 1 := by omega
    rw [e]
    simp only [Mem.read, List.cons_append]
    have e2 : a + (k + 1) = a + 1 + k := by omega
    rw [e2, read_append m k n (a + 1)]

theorem read_drop (m : Mem) : ∀ (k n a : Nat), (m.read a n).drop k = m.read (a + k) (n - k)
  | 0, n, a => by simp
  | k + 1, 0, a => by simp [Mem.read]
  | k + 1, n + 1, a => by
    simp only [Mem.read, List.drop_succ_cons]
    have e2 : a + (k + 1) = a + 1 + k := by omega
    rw [read_drop m k n (a + 1), e2, Nat.succ_sub_succ]

theorem read_take (m : Mem) : ∀ (k n a : Nat), (m.read a n).take k = m.read a (min k n)
  | 0, n, a => by simp [Mem.read]
  | k + 1, 0, a => by simp [Mem.read]
  | k + 1, n + 1, a => by
    have e : min (k + 1) (n + 1) = min k n + 1 := by omega
    simp only [Mem.read, List.take_succ_cons, read_take m k n (a + 1), e]

theorem fold_sectors {α : Type} (f : α → Nat → α) (P : Nat → α → Prop) (a : Nat) (x : α) (h0 : P 0 x) : ∀ m,
    (∀ i y, i < m → P i y → P (i + 1) (f y ((a / 64 + i) * 64))) →
    P m (((List.range m).map fun i => (a / 64 + i) * 64).foldl f x)
  | 0, _ => by simpa using h0
  | m + 1, h => by
    rw [List.range_succ, List.map_append, List.foldl_append]
    exact h m _ (Nat.lt_succ_self m) (fold_sectors f P a x h0 m fun i y hi => h i y (Nat.lt_succ_of_lt hi))

/-- What the first `k` bytes of a read of ordinary memory have given. -/
structure ReadSoFar (s : State) (ga k : Nat) (x : State × PhysRead) : Prop where
  state : x.1 = s
  data : x.2.data = s.mem.read ga k
  bad : x.2.bad = []
  refused : x.2.refused = false

/-- A read of ordinary memory gives its bytes and leaves the state alone. -/
theorem physRead_plain {s : State} {ga n : Nat} {g : Agent} (h : s.plainAt ga n g.key = true) (kind : Nat) :
    ReadSoFar s ga n (s.physRead ga n g kind) := by
  obtain ⟨hh, hp, hl, hs, ha⟩ := plainAt_iff h
  have hset : s.settle (ga / 128 * 128) ((ga + n + 127) / 128 * 128 - ga / 128 * 128) g = s := by
    apply settle_none g
    have e : ga / 128 * 128 + ((ga + n + 127) / 128 * 128 - ga / 128 * 128) = (ga + n + 127) / 128 * 128 := by omega
    rw [e]; exact ha
  unfold State.physRead
  rw [hset]
  show ReadSoFar s ga n (ite _ _ _)
  split
  · next hc => simp [hh, hp] at hc
  unfold sectorsOf
  split
  · next hn => subst hn; exact ⟨rfl, rfl, rfl, rfl⟩
  · next hn =>
    have e : n = min n ((gaPa ga / 64 + ((gaPa ga + n - 1) / 64 - gaPa ga / 64 + 1)) * 64 - gaPa ga) := by omega
    conv => arg 3; rw [e]
    refine fold_sectors _ (fun i x => ReadSoFar s ga (min n ((gaPa ga / 64 + i) * 64 - gaPa ga)) x) _ _ ?_ _ ?_
    · have : min n ((gaPa ga / 64 + 0) * 64 - gaPa ga) = 0 := by omega
      rw [this]; exact ⟨rfl, rfl, rfl, rfl⟩
    · rintro i ⟨t, r⟩ hi ⟨h1, h2, h3, h4⟩
      dsimp only at h1 h2 h3 h4
      subst h1
      have hm : (gaPa ga / 64 + i) * 64 ∈ sectorsOf (gaPa ga) n := mem_sectorsOf.mpr ⟨hn, by omega, by omega, by omega⟩
      have hps := hs _ hm
      simp only [routeRead_plain hps, readSector_plain hps, Bool.false_eq_true, if_false]
      refine ⟨rfl, ?_, h3, h4⟩
      show r.data ++ _ = _
      rw [h2, read_drop, read_take]
      have hg : gaOf t.pkg ((gaPa ga / 64 + i) * 64) + (gaPa ga - (gaPa ga / 64 + i) * 64) =
          ga + min n ((gaPa ga / 64 + i) * 64 - gaPa ga) := by
        have e2 : t.pkg.toNat * 2 ^ 42 + gaPa ga = ga := gaOf_gaPa hp
        show t.pkg.toNat * 2 ^ 42 + _ + _ = _
        generalize t.pkg.toNat * 2 ^ 42 = z at e2 ⊢
        generalize gaPa ga = p at *
        clear hset ha h hs hps hm
        omega
      rw [hg, read_append]
      congr 1
      omega

/-- `t` differs from `s` in memory, sector metadata and the Carafes' stacks alone. -/
def MemOnly (s t : State) : Prop :=
  ∃ m sec st, t = { s with mem := m, sectors := sec, carafe := { s.carafe with stks := st } }

theorem MemOnly.refl (s : State) : MemOnly s s := ⟨s.mem, s.sectors, s.carafe.stks, rfl⟩

theorem MemOnly.trans {s t u : State} (h : MemOnly s t) (k : MemOnly t u) : MemOnly s u := by
  obtain ⟨m, sec, st, rfl⟩ := h
  obtain ⟨m', sec', st', rfl⟩ := k
  exact ⟨m', sec', st', rfl⟩

theorem memOnly_mapStack (s : State) (k : Nat) (f : Stack → Stack) : MemOnly s (s.mapStack k f) := by
  unfold State.mapStack
  split
  · exact ⟨s.mem, s.sectors, _, rfl⟩
  · exact MemOnly.refl s

theorem mapStack_mem (s : State) (k : Nat) (f : Stack → Stack) : (s.mapStack k f).mem = s.mem := by
  unfold State.mapStack; split <;> rfl

theorem mapStack_sectors (s : State) (k : Nat) (f : Stack → Stack) : (s.mapStack k f).sectors = s.sectors := by
  unfold State.mapStack; split <;> rfl

theorem putIn_find_ne {q : Nat} {x : Sector} (h : q ≠ x.pa) : ∀ l : List Sector,
    (putIn x l).find? (fun y => decide (y.pa = q)) = l.find? (fun y => decide (y.pa = q))
  | [] => by
    have hx : decide (x.pa = q) = false := by simpa using fun e => h e.symm
    unfold putIn; split
    · rfl
    · simp only [List.find?_cons, hx]
  | y :: ys => by
    have hx : decide (x.pa = q) = false := by simpa using fun e => h e.symm
    unfold putIn
    split
    · split
      · rfl
      · simp only [List.find?_cons, hx]
    · split
      · next he =>
        have hy : decide (y.pa = q) = false := by rw [← he]; exact hx
        split
        · simp only [List.find?_cons, hy]
        · simp only [List.find?_cons, hx, hy]
      · simp only [List.find?_cons, putIn_find_ne h ys]

theorem sectorAt_putSector_ne {s : State} {x : Sector} {q : Nat} (h : q ≠ x.pa) : (s.putSector x).sectorAt q = s.sectorAt q := by
  unfold State.sectorAt State.putSector
  simp only [putIn_find_ne h]

/-- The bytes of a sector after a write, by position. -/
theorem sector_bytes {s : State} {sa a : Nat} {d : List Byte} {old : List Byte} {base : Nat}
    (hold : ((sectorPart sa a d).length = 64 ∧ (sectorPart sa a d).all Option.isSome = true) ∨ old = s.mem.read base 64)
    {j : Nat} (hj : j < 64) :
    (((List.range 64).map fun i => match (sectorPart sa a d)[i]? with
      | some (some v) => v
      | _ => old.getD i 0).getD j 0) = if a ≤ sa + j ∧ sa + j < a + d.length then d.getD (sa + j - a) 0 else s.mem.get (base + j) := by
  have hp : (sectorPart sa a d)[j]? = some (if (decide (a ≤ sa + j) && decide (sa + j < a + d.length)) = true then d[sa + j - a]? else none) := by
    unfold sectorPart
    simp [List.getElem?_map, List.getElem?_range hj]
  have hget : ((List.range 64).map fun i => match (sectorPart sa a d)[i]? with
      | some (some v) => v
      | _ => old.getD i 0).getD j 0 = (match (sectorPart sa a d)[j]? with
      | some (some v) => v
      | _ => old.getD j 0) := by
    simp [List.getD_eq_getElem?_getD, List.getElem?_map, List.getElem?_range hj]
  rw [hget, hp]
  by_cases hc : a ≤ sa + j ∧ sa + j < a + d.length
  · have h1 : (decide (a ≤ sa + j) && decide (sa + j < a + d.length)) = true := by simp [hc.1, hc.2]
    have h2 : sa + j - a < d.length := by omega
    rw [if_pos h1, if_pos hc, List.getElem?_eq_getElem h2]
    simp [List.getD_eq_getElem?_getD, List.getElem?_eq_getElem h2]
  · have h1 : ¬ (decide (a ≤ sa + j) && decide (sa + j < a + d.length)) = true := by simpa using hc
    rw [if_neg h1, if_neg hc]
    rcases hold with ⟨-, hw⟩ | hold
    · exfalso
      have hm : (none : Option Byte) ∈ sectorPart sa a d := by
        apply List.mem_of_getElem? (i := j)
        rw [hp, if_neg h1]
      have := List.all_eq_true.mp hw _ hm
      simp at this
    · have : ∀ (n b j : Nat), j < n → (s.mem.read b n).getD j 0 = s.mem.get (b + j) := by
        intro n
        induction n with
        | zero => intro b j h; omega
        | succ n ih =>
          intro b j h
          cases j with
          | zero => rfl
          | succ j =>
            have e : b + (j + 1) = b + 1 + j := by omega
            rw [e, ← ih (b + 1) j (by omega)]; rfl
      simpa [hold] using this 64 base j hj

/-- What a write of a sector of ordinary memory leaves. -/
structure WroteSector (s : State) (sa a : Nat) (d : List Byte) (key : BitVec 8) (t : State) : Prop where
  only : MemOnly s t
  wf : s.mem.wf = true → t.mem.wf = true
  get : s.mem.wf = true → ∀ c, t.mem.get c =
    if gaOf s.pkg sa ≤ c ∧ c < gaOf s.pkg sa + 64 ∧ a ≤ sa + (c - gaOf s.pkg sa) ∧ sa + (c - gaOf s.pkg sa) < a + d.length
    then d.getD (sa + (c - gaOf s.pkg sa) - a) 0 else s.mem.get c
  others : ∀ q, q ≠ sa → PlainSector s key q → PlainSector t key q

theorem wrote_put {s u : State} {key : BitVec 8} {sa a : Nat} {d b : List Byte} {y : Sector} (hu : MemOnly s u)
    (hm : u.mem = s.mem) (hsec : u.sectors = s.sectors) (hy : y.pa = sa) (hlen : b.length = 64)
    (hb : ∀ j, j < 64 → b.getD j 0 =
      if a ≤ sa + j ∧ sa + j < a + d.length then d.getD (sa + j - a) 0 else s.mem.get (gaOf s.pkg sa + j)) :
    WroteSector s sa a d key (State.putSector { u with mem := u.mem.write (gaOf u.pkg sa) b } y) := by
  obtain ⟨m, sec, st, rfl⟩ := hu
  dsimp only at hm hsec
  subst hm hsec
  refine ⟨⟨_, _, st, rfl⟩, fun w => Mem.wf_write _ _ w, fun w c => ?_, fun q hq hp => ?_⟩
  · show Mem.get (s.mem.write (gaOf s.pkg sa) b) c = _
    rw [Mem.get_write _ _ _ w, hlen]
    generalize gaOf s.pkg sa = base at hb ⊢
    by_cases hc : base ≤ c ∧ c < base + 64
    · rw [if_pos hc, hb (c - base) (by omega)]
      have e : base + (c - base) = c := by omega
      rw [e]
      by_cases h2 : a ≤ sa + (c - base) ∧ sa + (c - base) < a + d.length
      · rw [if_pos h2, if_pos ⟨hc.1, hc.2, h2.1, h2.2⟩]
      · rw [if_neg h2, if_neg (fun h3 => h2 ⟨h3.2.2.1, h3.2.2.2⟩)]
    · rw [if_neg hc, if_neg (fun h3 => hc ⟨h3.1, h3.2.1⟩)]
  · have e1 : (State.putSector { s with mem := s.mem.write (gaOf s.pkg sa) b, carafe := { s.carafe with stks := st } } y).sectorAt q =
        s.sectorAt q := sectorAt_putSector_ne (by rw [hy]; exact hq)
    exact ⟨hp.low, hp.region, hp.data, e1 ▸ hp.err, e1 ▸ hp.clean, e1 ▸ hp.key⟩

theorem writeSector_plain {s : State} {key : BitVec 8} {sa a : Nat} {d : List Byte} (h : PlainSector s key sa) (tags : BitVec 8)
    (poison : Bool) (src : Nat) (raw : Option Bool) :
    WroteSector s sa a d key (s.writeSector sa (sectorPart sa a d) tags poison (s.keyMat key) src raw) := by
  unfold State.writeSector State.mergeSector
  by_cases hw : (decide ((sectorPart sa a d).length = 64) && (sectorPart sa a d).all Option.isSome) = true
  · simp only [hw, if_true, Bool.false_eq_true, if_false]
    simp only [Bool.and_eq_true, decide_eq_true_eq] at hw
    exact wrote_put (memOnly_mapStack s _ _) (mapStack_mem s _ _) (mapStack_sectors s _ _) rfl (by simp)
      fun j hj => sector_bytes (Or.inl hw) hj
  · simp only [hw, Bool.false_eq_true, if_false, sense_plain h]
    exact wrote_put (memOnly_mapStack s _ _) (mapStack_mem s _ _) (mapStack_sectors s _ _) rfl (by simp)
      fun j hj => sector_bytes (Or.inr rfl) hj

/-- What the first `k` bytes of a write of ordinary memory have left. -/
structure WroteSoFar (s : State) (ga k : Nat) (d : List Byte) (t : State) : Prop where
  only : MemOnly s t
  wf : s.mem.wf = true → t.mem.wf = true
  get : s.mem.wf = true → ∀ c, t.mem.get c = if ga ≤ c ∧ c < ga + k then d.getD (c - ga) 0 else s.mem.get c

/-- The same, of a write that has been taken. -/
def WroteAll (s : State) (ga k : Nat) (d : List Byte) (x : State × PhysWrite) : Prop := x.2 = .done ∧ WroteSoFar s ga k d x.1

/-- A write of ordinary memory is taken, stores its bytes and leaves every other byte alone. -/
theorem physWrite_plain {s : State} {ga : Nat} {d : List Byte} {g : Agent} (h : s.plainAt ga d.length g.key = true) (whole : Bool)
    (tags bad : List Nat) :
    (s.physWrite ga d g whole tags bad).2 = .done ∧ WroteSoFar s ga d.length d (s.physWrite ga d g whole tags bad).1 := by
  obtain ⟨hh, hp, hl, hs, ha⟩ := plainAt_iff h
  have hset : s.settle ga d.length g = s := by
    apply settle_none g
    rw [List.any_eq_false] at ha ⊢
    intro x hx
    have := ha x hx
    simp only [Bool.and_eq_true, decide_eq_true_eq, not_and, Nat.not_lt] at this ⊢
    intro h1
    have := this (by omega)
    omega
  have key : ∀ n, n = d.length → WroteAll s ga n d (s.physWrite ga d g whole tags bad) := by
    intro n hn
    unfold State.physWrite
    rw [hset]
    show WroteAll s ga n d (ite _ _ _)
    rw [if_neg (by simp [hh]), if_neg (by simp [hp])]
    unfold sectorsOf
    split
    · next h0 =>
      refine ⟨rfl, MemOnly.refl s, id, fun _ c => ?_⟩
      have : ¬(ga ≤ c ∧ c < ga + n) := by omega
      rw [if_neg this]; rfl
    · next h0 =>
      have e : n = min n ((gaPa ga / 64 + ((gaPa ga + n - 1) / 64 - gaPa ga / 64 + 1)) * 64 - gaPa ga) := by omega
      rw [e, ← hn]
      refine (fold_sectors _ (fun i (x : State × PhysWrite) => WroteAll s ga (min n ((gaPa ga / 64 + i) * 64 - gaPa ga)) d x ∧
        ∀ sa ∈ sectorsOf (gaPa ga) n, (gaPa ga / 64 + i) * 64 ≤ sa → PlainSector x.1 g.key sa) _ _ ?_ _ ?_).1
      · refine ⟨⟨rfl, MemOnly.refl s, id, fun _ c => ?_⟩, fun sa hsa _ => hs sa (by rw [← hn]; exact hsa)⟩
        have : ¬(ga ≤ c ∧ c < ga + min n ((gaPa ga / 64 + 0) * 64 - gaPa ga)) := by omega
        rw [if_neg this]
      · rintro i ⟨t, r⟩ hi ⟨⟨h1, h2⟩, h3⟩
        dsimp only at h1 h2 h3
        subst h1
        have hm : (gaPa ga / 64 + i) * 64 ∈ sectorsOf (gaPa ga) n := mem_sectorsOf.mpr ⟨by omega, by omega, by omega, by omega⟩
        have hps := h3 _ hm (Nat.le_refl _)
        simp only [routeWrite_plain hps]
        have hkm : t.keyMat g.key = t.keyMat g.key := rfl
        have hw := writeSector_plain (a := gaPa ga) (d := d) hps
          ((List.range 8).foldl (fun (m : BitVec 8) k =>
            if tags.contains (gaOf t.pkg ((gaPa ga / 64 + i) * 64 + 8 * k)) then m ||| (1#8 <<< k) else m) 0)
          (bad.contains (gaOf t.pkg ((gaPa ga / 64 + i) * 64))) g.src none
        have hpk : t.pkg = s.pkg := by obtain ⟨_, _, _, e⟩ := h2.only; rw [e]
        refine ⟨⟨rfl, h2.only.trans hw.only, fun w => hw.wf (h2.wf w), fun w c => ?_⟩, ?_⟩
        · rw [hw.get (h2.wf w) c, h2.get w c, hpk]
          have e2 : s.pkg.toNat * 2 ^ 42 + gaPa ga = ga := gaOf_gaPa hp
          unfold gaOf
          generalize s.pkg.toNat * 2 ^ 42 = z at e2 ⊢
          generalize gaPa ga = p at *
          clear hset ha h hs hps hm h3 hw h2 hkm hpk
          by_cases hA : z + (p / 64 + i) * 64 ≤ c ∧ c < z + (p / 64 + i) * 64 + 64 ∧ p ≤ (p / 64 + i) * 64 + (c - (z + (p / 64 + i) * 64)) ∧
            (p / 64 + i) * 64 + (c - (z + (p / 64 + i) * 64)) < p + d.length
          · rw [if_pos hA, if_pos (by omega)]
            congr 1; omega
          · rw [if_neg hA]
            by_cases hB : ga ≤ c ∧ c < ga + min n ((p / 64 + i) * 64 - p)
            · rw [if_pos hB, if_pos (by omega)]
            · rw [if_neg hB, if_neg (by omega)]
        · intro sa hsa hle
          exact hw.others sa (by omega) (h3 sa hsa (by omega))
  exact key d.length rfl

end Sys2Proof.Machine
end

