-- ==== Sys2Proof/Laws/Flags.lean ====
section
/-! SUPPORT. What applying the queued adds can do, and what recording, reading and writing an access does. -/

namespace Sys2Proof.Machine

/-- `t` differs from `s` in the core's queued adds, its flags and its record of a stop alone. -/
def AddsOnly (s t : State) : Prop :=
  ∃ ad fl st, t = s.mapCore fun c => { c with adds := ad, stop := st, task := { c.task with flags := fl } }

theorem AddsOnly.refl (s : State) : AddsOnly s s := ⟨s.core.adds, s.core.task.flags, s.core.stop, rfl⟩

theorem AddsOnly.trans {s t u : State} (h : AddsOnly s t) (k : AddsOnly t u) : AddsOnly s u := by
  obtain ⟨_, _, _, rfl⟩ := h
  obtain ⟨a, f, p, rfl⟩ := k
  exact ⟨a, f, p, rfl⟩

theorem addsOnly_stopCore (s : State) (e : Eng) (t : Trap) : AddsOnly s (s.stopCore e t) := by
  unfold State.stopCore
  split
  · exact ⟨s.core.adds, s.core.task.flags, _, rfl⟩
  · dsimp only
    split
    · exact AddsOnly.refl s
    · split
      · exact ⟨s.core.adds, s.core.task.flags, _, rfl⟩
      · split
        · exact ⟨s.core.adds, s.core.task.flags, _, rfl⟩
        · exact AddsOnly.refl s

theorem addsOnly_mapFlag (s : State) (f : BitVec 6) (g : Flag → Flag) : AddsOnly s (s.mapFlag f g) :=
  ⟨s.core.adds, _, s.core.stop, rfl⟩

theorem addsOnly_addCount (s : State) (e : Eng) (f : BitVec 6) (n : Nat) : AddsOnly s (s.addCount e f n) := by
  unfold State.addCount
  dsimp only
  split
  · exact (addsOnly_mapFlag s f _).trans (addsOnly_stopCore _ _ _)
  · exact addsOnly_mapFlag s f _

theorem addsOnly_applyAdd (s : State) (a : PendAdd) : AddsOnly s (s.applyAdd a) := by
  unfold State.applyAdd
  dsimp only
  have h : AddsOnly s (s.mapCore fun c => { c with adds := c.adds.filter (fun b => b ≠ a) }) :=
    ⟨_, s.core.task.flags, s.core.stop, rfl⟩
  split
  · exact h.trans (addsOnly_mapFlag _ _ _)
  · exact h.trans (addsOnly_addCount _ _ _ _)

theorem addsOnly_applyAddsFrom : ∀ (n : Nat) (s : State), AddsOnly s (s.applyAddsFrom n)
  | 0, s => AddsOnly.refl s
  | n + 1, s => by
    unfold State.applyAddsFrom
    split
    · exact (addsOnly_applyAdd s _).trans (addsOnly_applyAddsFrom n _)
    · exact AddsOnly.refl s

/-- Applying the queued adds changes flags, the queue itself and, on an overflow, the record of a stop. -/
theorem addsOnly_applyAdds (s : State) : AddsOnly s s.applyAdds := addsOnly_applyAddsFrom _ s

theorem applyAdds_nil {s : State} (h : s.core.adds = []) : s.applyAdds = s := by
  unfold State.applyAdds; rw [h]; rfl

/-- Recording an access adds to the records and changes nothing else. -/
theorem record_ok {s : State} (st : Strm) (k : AccKind) (segs : List Seg) (h : s.roomFor) :
    ∃ r, record st k segs s = .ok ((), { s with recs := r }) := by
  unfold record
  simp only [Op.get_bind]
  split
  · exact ⟨_, rfl⟩
  · exact ⟨_, rfl⟩
  · next h0 _ =>
    rcases h with h | h
    · exact absurd h h0
    · simp only [h, Bool.false_eq_true, if_false]; exact ⟨_, rfl⟩

/-- A read of one piece of ordinary memory. -/
theorem readSegs_one {s : State} {st : Strm} {kind : Nat} {g : Seg} (h : s.plainAt g.pa g.len s.key = true) :
    ∃ tags, readSegs st kind [g] s = .ok ((s.mem.read g.pa g.len, [], tags), s) := by
  have hr := physRead_plain (g := s.agent st) (n := g.len) (ga := g.pa) h kind
  unfold readSegs
  simp only [List.forIn_cons, List.forIn_nil, bind_assoc, pure_bind, Op.get_bind, Op.set_bind, hr.state, hr.refused, hr.bad, hr.data,
    Bool.false_eq_true, if_false, List.map_nil, List.nil_append, Op.pure_run]
  exact ⟨_, rfl⟩

/-- A load of one piece of ordinary memory reads its bytes. -/
theorem readPlace_mem {s : State} {st : Strm} {n : Nat} {g : Seg} {r : List (Nat × Nat)} (h : s.plainAt g.pa g.len s.key = true)
    (hr : s.roomFor) : ∃ rc, readPlace st n (.mem [g] r) s = .ok (s.mem.read g.pa g.len, { s with recs := rc }) := by
  obtain ⟨rc, hrec⟩ := record_ok st .rd [g] hr
  obtain ⟨tags, hread⟩ := readSegs_one (s := { s with recs := rc }) (st := st) (kind := 0) (g := g) h
  refine ⟨rc, ?_⟩
  unfold readPlace
  simp only [Op.bind_ok hrec, Op.bind_ok hread, Op.pure_run]

end Sys2Proof.Machine
end

