-- ==== Sys2Proof/Laws/PerInstr.lean ====
section
/-! SUPPORT. Decoding an encoded instruction gives it back: one lemma for each constructor. -/

namespace Sys2Proof

theorem fld_lo {m n lo len : Nat} (x : BitVec m) (y : BitVec n) (h : lo + len ≤ n) :
    (x ++ y).extractLsb' lo len = y.extractLsb' lo len := by
  apply BitVec.eq_of_getLsbD_eq
  intro i hi
  have : lo + i < n := by omega
  simp [BitVec.getLsbD_append, hi, this]

theorem fld_hi {m n lo len : Nat} (x : BitVec m) (y : BitVec n) (h : n ≤ lo) :
    (x ++ y).extractLsb' lo len = x.extractLsb' (lo - n) len := by
  apply BitVec.eq_of_getLsbD_eq
  intro i hi
  have : ¬ lo + i < n := by omega
  have h2 : lo + i - n = lo - n + i := by omega
  simp [BitVec.getLsbD_append, hi, this, h2]

theorem fld_all {n : Nat} (x : BitVec n) : x.extractLsb' 0 n = x := by simp

theorem finish_ok {z : Bool} {i : Instr} (hz : z = true) (h : WellFormed i = true) : finish z i = .ok i := by
  subst hz
  unfold WellFormed at h
  unfold finish
  simp only [Bool.and_eq_true, Bool.not_eq_true'] at h
  simp only [h.1, h.2, Bool.not_true, Bool.or_self, Bool.false_eq_true, if_false]

namespace Laws.RoundTrip

set_option linter.unusedSimpArgs false

/-- A row with a word belongs to a stream, and the stream's decoder reads the row back from its word; a row without one
belongs to none. -/
def Statement (i : Instr) : Prop :=
  (encode i).isSome = (streamOf i).isSome ∧
  ∀ c k (hi : BitVec 32), WellFormed i = true → encode i = some c → streamOf i = some k →
    decodeWord k (c.bits hi) = .ok (rowOf i)

theorem noWord {i : Instr} (he : encode i = none) (hs : streamOf i = none) : Statement i :=
  ⟨by rw [he, hs]; rfl, fun c k hi _ h => by rw [he] at h; cases h⟩

theorem ctl {i : Instr} {v : BitVec 32} (he : encode i = some (.w32 v)) (hs : streamOf i = some .ctl)
    (h : ∀ w, w = v → WellFormed i = true → decodeCtl w = .ok (rowOf i)) : Statement i := by
  refine ⟨by rw [he, hs]; rfl, fun c k hi wf hc hk => ?_⟩
  rw [he] at hc; rw [hs] at hk; cases hc; cases hk
  have : fld (hi ++ v) 0 32 = v := by simp (disch := decide) only [fld, fld_lo, fld_all]
  simp only [decodeWord, Code.bits, this]
  exact h v rfl wf

theorem vec32 {i : Instr} {v : BitVec 32} (he : encode i = some (.w32 v)) (hs : streamOf i = some .vec)
    (h0 : fld v 0 1 = 0#1) (h : ∀ w, w = v → fld w 0 1 = 0#1 → WellFormed i = true → decodeVec32 w = .ok (rowOf i)) :
    Statement i := by
  refine ⟨by rw [he, hs]; rfl, fun c k hi wf hc hk => ?_⟩
  rw [he] at hc; rw [hs] at hk; cases hc; cases hk
  have h1 : fld (hi ++ v) 0 1 = 0#1 := by rw [← h0]; simp (disch := decide) only [fld, fld_lo]
  have h2 : fld (hi ++ v) 0 32 = v := by simp (disch := decide) only [fld, fld_lo, fld_all]
  simp only [decodeWord, Code.bits, h1, h2]
  exact h v rfl h0 wf

theorem vec64 {i : Instr} {v : BitVec 64} (he : encode i = some (.w64 v)) (hs : streamOf i = some .vec)
    (h0 : fld v 0 1 = 1#1) (h : ∀ w, w = v → fld w 0 1 = 1#1 → WellFormed i = true → decodeVec64 w = .ok (rowOf i)) :
    Statement i := by
  refine ⟨by rw [he, hs]; rfl, fun c k hi wf hc hk => ?_⟩
  rw [he] at hc; rw [hs] at hk; cases hc; cases hk
  simp only [decodeWord, Code.bits, h0]
  exact h v rfl h0 wf

theorem w64 {i : Instr} {v : BitVec 64} {k : Strm} (he : encode i = some (.w64 v)) (hs : streamOf i = some k)
    (h : ∀ w, w = v → WellFormed i = true → decodeWord k w = .ok (rowOf i)) : Statement i := by
  refine ⟨by rw [he, hs]; rfl, fun c k hi wf hc hk => ?_⟩
  rw [he] at hc; rw [hs] at hk; cases hc; cases hk
  exact h v rfl wf


theorem join_all {a b : Nat} (x : BitVec (a + b)) : (x.extractLsb' b a ++ x.extractLsb' 0 b : BitVec (a + b)) = x := by
  apply BitVec.eq_of_getLsbD_eq
  intro i hi
  by_cases h : i < b
  · simp [BitVec.getLsbD_append, h]
  · have h3 : i - b < a := by omega
    have h4 : b + (i - b) = i := by omega
    simp [BitVec.getLsbD_append, h, h3, h4]

theorem join_low {a b n : Nat} (p : BitVec n) (x : BitVec a) (y : BitVec b) :
    (p ++ x ++ y : BitVec (n + a + b)).extractLsb' 0 (a + b) = (x ++ y : BitVec (a + b)) := by
  apply BitVec.eq_of_getLsbD_eq
  intro i hi
  by_cases h : i < b
  · have h1 : i < a + b := hi
    simp [BitVec.getLsbD_append, BitVec.getElem_append, h, h1]
  · have h3 : i - b < a := by omega
    simp [BitVec.getLsbD_append, BitVec.getElem_append, h, h3, hi]

theorem scal_word (e : Strm64) (w : BitVec 64) {n : BitVec 7} (h : fld w 0 7 = n)
    (hn : n = 0x18 ∨ n = 0x19 ∨ n = 0x1a ∨ n = 0x1b ∨ n = 0x1c ∨ n = 0x1d ∨ n = 0x1e ∨ n = 0x1f) :
    decodeWord (match e with | .mtx => .mtx | .cpy => .cpy | .ast => .ast) w = decodeScal64 e w := by
  subst h
  rcases hn with h | h | h | h | h | h | h | h <;> cases e <;> simp only [decodeWord, decodeCpy, decodeMtx, decodeAst] <;>
    rw [h] <;> exact if_neg (by decide)

theorem flag_word (e : Eng64) (w : BitVec 64) {n : BitVec 7} (h : fld w 0 7 = n) (hn : n = 0x10 ∨ n = 0x11 ∨ n = 0x12) :
    decodeWord (match e with | .mtx => .mtx | .cpy => .cpy) w = decodeFlag64 e w := by
  subst h
  rcases hn with h | h | h <;> cases e <;> simp only [decodeWord, decodeCpy, decodeMtx] <;>
    rw [h] <;> exact if_pos (by decide)

theorem add (d a b : BitVec 6) : Statement (.add d a b) := ctl rfl rfl fun w hw wf => by
  have h0 : fld w 25 7 = 1#7 := by simp (disch := decide) only [hw, fld, fld_lo, fld_hi, fld_all, Nat.reduceSub] <;> rfl
  have h1 : fld w 0 7 = 0#7 := by simp (disch := decide) only [hw, fld, fld_lo, fld_hi, fld_all, Nat.reduceSub] <;> rfl
  unfold decodeCtl; rw [h0, h1]
  refine Eq.trans (b := finish _ _) rfl ?_
  simp (disch := decide) only [hw, fld, fld_lo, fld_hi, fld_all, Nat.reduceSub]
  exact finish_ok rfl wf
theorem sub (d a b : BitVec 6) : Statement (.sub d a b) := ctl rfl rfl fun w hw wf => by
  have h0 : fld w 25 7 = 1#7 := by simp (disch := decide) only [hw, fld, fld_lo, fld_hi, fld_all, Nat.reduceSub] <;> rfl
  have h1 : fld w 0 7 = 1#7 := by simp (disch := decide) only [hw, fld, fld_lo, fld_hi, fld_all, Nat.reduceSub] <;> rfl
  unfold decodeCtl; rw [h0, h1]
  refine Eq.trans (b := finish _ _) rfl ?_
  simp (disch := decide) only [hw, fld, fld_lo, fld_hi, fld_all, Nat.reduceSub]
  exact finish_ok rfl wf
theorem mul (d a b : BitVec 6) : Statement (.mul d a b) := ctl rfl rfl fun w hw wf => by
  have h0 : fld w 25 7 = 1#7 := by simp (disch := decide) only [hw, fld, fld_lo, fld_hi, fld_all, Nat.reduceSub] <;> rfl
  have h1 : fld w 0 7 = 2#7 := by simp (disch := decide) only [hw, fld, fld_lo, fld_hi, fld_all, Nat.reduceSub] <;> rfl
  unfold decodeCtl; rw [h0, h1]
  refine Eq.trans (b := finish _ _) rfl ?_
  simp (disch := decide) only [hw, fld, fld_lo, fld_hi, fld_all, Nat.reduceSub]
  exact finish_ok rfl wf
theorem mulhI64 (d a b : BitVec 6) : Statement (.mulhI64 d a b) := ctl rfl rfl fun w hw wf => by
  have h0 : fld w 25 7 = 1#7 := by simp (disch := decide) only [hw, fld, fld_lo, fld_hi, fld_all, Nat.reduceSub] <;> rfl
  have h1 : fld w 0 7 = 3#7 := by simp (disch := decide) only [hw, fld, fld_lo, fld_hi, fld_all, Nat.reduceSub] <;> rfl
  unfold decodeCtl; rw [h0, h1]
  refine Eq.trans (b := finish _ _) rfl ?_
  simp (disch := decide) only [hw, fld, fld_lo, fld_hi, fld_all, Nat.reduceSub]
  exact finish_ok rfl wf
theorem mulhN64 (d a b : BitVec 6) : Statement (.mulhN64 d a b) := ctl rfl rfl fun w hw wf => by
  have h0 : fld w 25 7 = 1#7 := by simp (disch := decide) only [hw, fld, fld_lo, fld_hi, fld_all, Nat.reduceSub] <;> rfl
  have h1 : fld w 0 7 = 4#7 := by simp (disch := decide) only [hw, fld, fld_lo, fld_hi, fld_all, Nat.reduceSub] <;> rfl
  unfold decodeCtl; rw [h0, h1]
  refine Eq.trans (b := finish _ _) rfl ?_
  simp (disch := decide) only [hw, fld, fld_lo, fld_hi, fld_all, Nat.reduceSub]
  exact finish_ok rfl wf
theorem divI64 (d a b : BitVec 6) : Statement (.divI64 d a b) := ctl rfl rfl fun w hw wf => by
  have h0 : fld w 25 7 = 1#7 := by simp (disch := decide) only [hw, fld, fld_lo, fld_hi, fld_all, Nat.reduceSub] <;> rfl
  have h1 : fld w 0 7 = 5#7 := by simp (disch := decide) only [hw, fld, fld_lo, fld_hi, fld_all, Nat.reduceSub] <;> rfl
  unfold decodeCtl; rw [h0, h1]
  refine Eq.trans (b := finish _ _) rfl ?_
  simp (disch := decide) only [hw, fld, fld_lo, fld_hi, fld_all, Nat.reduceSub]
  exact finish_ok rfl wf
theorem divN64 (d a b : BitVec 6) : Statement (.divN64 d a b) := ctl rfl rfl fun w hw wf => by
  have h0 : fld w 25 7 = 1#7 := by simp (disch := decide) only [hw, fld, fld_lo, fld_hi, fld_all, Nat.reduceSub] <;> rfl
  have h1 : fld w 0 7 = 6#7 := by simp (disch := decide) only [hw, fld, fld_lo, fld_hi, fld_all, Nat.reduceSub] <;> rfl
  unfold decodeCtl; rw [h0, h1]
  refine Eq.trans (b := finish _ _) rfl ?_
  simp (disch := decide) only [hw, fld, fld_lo, fld_hi, fld_all, Nat.reduceSub]
  exact finish_ok rfl wf
theorem remI64 (d a b : BitVec 6) : Statement (.remI64 d a b) := ctl rfl rfl fun w hw wf => by
  have h0 : fld w 25 7 = 1#7 := by simp (disch := decide) only [hw, fld, fld_lo, fld_hi, fld_all, Nat.reduceSub] <;> rfl
  have h1 : fld w 0 7 = 7#7 := by simp (disch := decide) only [hw, fld, fld_lo, fld_hi, fld_all, Nat.reduceSub] <;> rfl
  unfold decodeCtl; rw [h0, h1]
  refine Eq.trans (b := finish _ _) rfl ?_
  simp (disch := decide) only [hw, fld, fld_lo, fld_hi, fld_all, Nat.reduceSub]
  exact finish_ok rfl wf
theorem remN64 (d a b : BitVec 6) : Statement (.remN64 d a b) := ctl rfl rfl fun w hw wf => by
  have h0 : fld w 25 7 = 1#7 := by simp (disch := decide) only [hw, fld, fld_lo, fld_hi, fld_all, Nat.reduceSub] <;> rfl
  have h1 : fld w 0 7 = 8#7 := by simp (disch := decide) only [hw, fld, fld_lo, fld_hi, fld_all, Nat.reduceSub] <;> rfl
  unfold decodeCtl; rw [h0, h1]
  refine Eq.trans (b := finish _ _) rfl ?_
  simp (disch := decide) only [hw, fld, fld_lo, fld_hi, fld_all, Nat.reduceSub]
  exact finish_ok rfl wf
theorem and (d a b : BitVec 6) : Statement (.and d a b) := ctl rfl rfl fun w hw wf => by
  have h0 : fld w 25 7 = 1#7 := by simp (disch := decide) only [hw, fld, fld_lo, fld_hi, fld_all, Nat.reduceSub] <;> rfl
  have h1 : fld w 0 7 = 9#7 := by simp (disch := decide) only [hw, fld, fld_lo, fld_hi, fld_all, Nat.reduceSub] <;> rfl
  unfold decodeCtl; rw [h0, h1]
  refine Eq.trans (b := finish _ _) rfl ?_
  simp (disch := decide) only [hw, fld, fld_lo, fld_hi, fld_all, Nat.reduceSub]
  exact finish_ok rfl wf
theorem or (d a b : BitVec 6) : Statement (.or d a b) := ctl rfl rfl fun w hw wf => by
  have h0 : fld w 25 7 = 1#7 := by simp (disch := decide) only [hw, fld, fld_lo, fld_hi, fld_all, Nat.reduceSub] <;> rfl
  have h1 : fld w 0 7 = 10#7 := by simp (disch := decide) only [hw, fld, fld_lo, fld_hi, fld_all, Nat.reduceSub] <;> rfl
  unfold decodeCtl; rw [h0, h1]
  refine Eq.trans (b := finish _ _) rfl ?_
  simp (disch := decide) only [hw, fld, fld_lo, fld_hi, fld_all, Nat.reduceSub]
  exact finish_ok rfl wf
theorem xor (d a b : BitVec 6) : Statement (.xor d a b) := ctl rfl rfl fun w hw wf => by
  have h0 : fld w 25 7 = 1#7 := by simp (disch := decide) only [hw, fld, fld_lo, fld_hi, fld_all, Nat.reduceSub] <;> rfl
  have h1 : fld w 0 7 = 11#7 := by simp (disch := decide) only [hw, fld, fld_lo, fld_hi, fld_all, Nat.reduceSub] <;> rfl
  unfold decodeCtl; rw [h0, h1]
  refine Eq.trans (b := finish _ _) rfl ?_
  simp (disch := decide) only [hw, fld, fld_lo, fld_hi, fld_all, Nat.reduceSub]
  exact finish_ok rfl wf
theorem andn (d a b : BitVec 6) : Statement (.andn d a b) := ctl rfl rfl fun w hw wf => by
  have h0 : fld w 25 7 = 1#7 := by simp (disch := decide) only [hw, fld, fld_lo, fld_hi, fld_all, Nat.reduceSub] <;> rfl
  have h1 : fld w 0 7 = 12#7 := by simp (disch := decide) only [hw, fld, fld_lo, fld_hi, fld_all, Nat.reduceSub] <;> rfl
  unfold decodeCtl; rw [h0, h1]
  refine Eq.trans (b := finish _ _) rfl ?_
  simp (disch := decide) only [hw, fld, fld_lo, fld_hi, fld_all, Nat.reduceSub]
  exact finish_ok rfl wf
theorem shl (d a b : BitVec 6) : Statement (.shl d a b) := ctl rfl rfl fun w hw wf => by
  have h0 : fld w 25 7 = 1#7 := by simp (disch := decide) only [hw, fld, fld_lo, fld_hi, fld_all, Nat.reduceSub] <;> rfl
  have h1 : fld w 0 7 = 13#7 := by simp (disch := decide) only [hw, fld, fld_lo, fld_hi, fld_all, Nat.reduceSub] <;> rfl
  unfold decodeCtl; rw [h0, h1]
  refine Eq.trans (b := finish _ _) rfl ?_
  simp (disch := decide) only [hw, fld, fld_lo, fld_hi, fld_all, Nat.reduceSub]
  exact finish_ok rfl wf
theorem shr (d a b : BitVec 6) : Statement (.shr d a b) := ctl rfl rfl fun w hw wf => by
  have h0 : fld w 25 7 = 1#7 := by simp (disch := decide) only [hw, fld, fld_lo, fld_hi, fld_all, Nat.reduceSub] <;> rfl
  have h1 : fld w 0 7 = 14#7 := by simp (disch := decide) only [hw, fld, fld_lo, fld_hi, fld_all, Nat.reduceSub] <;> rfl
  unfold decodeCtl; rw [h0, h1]
  refine Eq.trans (b := finish _ _) rfl ?_
  simp (disch := decide) only [hw, fld, fld_lo, fld_hi, fld_all, Nat.reduceSub]
  exact finish_ok rfl wf
theorem sar (d a b : BitVec 6) : Statement (.sar d a b) := ctl rfl rfl fun w hw wf => by
  have h0 : fld w 25 7 = 1#7 := by simp (disch := decide) only [hw, fld, fld_lo, fld_hi, fld_all, Nat.reduceSub] <;> rfl
  have h1 : fld w 0 7 = 15#7 := by simp (disch := decide) only [hw, fld, fld_lo, fld_hi, fld_all, Nat.reduceSub] <;> rfl
  unfold decodeCtl; rw [h0, h1]
  refine Eq.trans (b := finish _ _) rfl ?_
  simp (disch := decide) only [hw, fld, fld_lo, fld_hi, fld_all, Nat.reduceSub]
  exact finish_ok rfl wf
theorem rol (d a b : BitVec 6) : Statement (.rol d a b) := ctl rfl rfl fun w hw wf => by
  have h0 : fld w 25 7 = 1#7 := by simp (disch := decide) only [hw, fld, fld_lo, fld_hi, fld_all, Nat.reduceSub] <;> rfl
  have h1 : fld w 0 7 = 16#7 := by simp (disch := decide) only [hw, fld, fld_lo, fld_hi, fld_all, Nat.reduceSub] <;> rfl
  unfold decodeCtl; rw [h0, h1]
  refine Eq.trans (b := finish _ _) rfl ?_
  simp (disch := decide) only [hw, fld, fld_lo, fld_hi, fld_all, Nat.reduceSub]
  exact finish_ok rfl wf
theorem minI64 (d a b : BitVec 6) : Statement (.minI64 d a b) := ctl rfl rfl fun w hw wf => by
  have h0 : fld w 25 7 = 1#7 := by simp (disch := decide) only [hw, fld, fld_lo, fld_hi, fld_all, Nat.reduceSub] <;> rfl
  have h1 : fld w 0 7 = 17#7 := by simp (disch := decide) only [hw, fld, fld_lo, fld_hi, fld_all, Nat.reduceSub] <;> rfl
  unfold decodeCtl; rw [h0, h1]
  refine Eq.trans (b := finish _ _) rfl ?_
  simp (disch := decide) only [hw, fld, fld_lo, fld_hi, fld_all, Nat.reduceSub]
  exact finish_ok rfl wf
theorem minN64 (d a b : BitVec 6) : Statement (.minN64 d a b) := ctl rfl rfl fun w hw wf => by
  have h0 : fld w 25 7 = 1#7 := by simp (disch := decide) only [hw, fld, fld_lo, fld_hi, fld_all, Nat.reduceSub] <;> rfl
  have h1 : fld w 0 7 = 18#7 := by simp (disch := decide) only [hw, fld, fld_lo, fld_hi, fld_all, Nat.reduceSub] <;> rfl
  unfold decodeCtl; rw [h0, h1]
  refine Eq.trans (b := finish _ _) rfl ?_
  simp (disch := decide) only [hw, fld, fld_lo, fld_hi, fld_all, Nat.reduceSub]
  exact finish_ok rfl wf
theorem maxI64 (d a b : BitVec 6) : Statement (.maxI64 d a b) := ctl rfl rfl fun w hw wf => by
  have h0 : fld w 25 7 = 1#7 := by simp (disch := decide) only [hw, fld, fld_lo, fld_hi, fld_all, Nat.reduceSub] <;> rfl
  have h1 : fld w 0 7 = 19#7 := by simp (disch := decide) only [hw, fld, fld_lo, fld_hi, fld_all, Nat.reduceSub] <;> rfl
  unfold decodeCtl; rw [h0, h1]
  refine Eq.trans (b := finish _ _) rfl ?_
  simp (disch := decide) only [hw, fld, fld_lo, fld_hi, fld_all, Nat.reduceSub]
  exact finish_ok rfl wf
theorem maxN64 (d a b : BitVec 6) : Statement (.maxN64 d a b) := ctl rfl rfl fun w hw wf => by
  have h0 : fld w 25 7 = 1#7 := by simp (disch := decide) only [hw, fld, fld_lo, fld_hi, fld_all, Nat.reduceSub] <;> rfl
  have h1 : fld w 0 7 = 20#7 := by simp (disch := decide) only [hw, fld, fld_lo, fld_hi, fld_all, Nat.reduceSub] <;> rfl
  unfold decodeCtl; rw [h0, h1]
  refine Eq.trans (b := finish _ _) rfl ?_
  simp (disch := decide) only [hw, fld, fld_lo, fld_hi, fld_all, Nat.reduceSub]
  exact finish_ok rfl wf
theorem clz (d a : BitVec 6) : Statement (.clz d a) := ctl rfl rfl fun w hw wf => by
  have h0 : fld w 25 7 = 1#7 := by simp (disch := decide) only [hw, fld, fld_lo, fld_hi, fld_all, Nat.reduceSub] <;> rfl
  have h1 : fld w 0 7 = 21#7 := by simp (disch := decide) only [hw, fld, fld_lo, fld_hi, fld_all, Nat.reduceSub] <;> rfl
  unfold decodeCtl; rw [h0, h1]
  refine Eq.trans (b := finish _ _) rfl ?_
  simp (disch := decide) only [hw, fld, fld_lo, fld_hi, fld_all, Nat.reduceSub]
  exact finish_ok rfl wf
theorem ctz (d a : BitVec 6) : Statement (.ctz d a) := ctl rfl rfl fun w hw wf => by
  have h0 : fld w 25 7 = 1#7 := by simp (disch := decide) only [hw, fld, fld_lo, fld_hi, fld_all, Nat.reduceSub] <;> rfl
  have h1 : fld w 0 7 = 22#7 := by simp (disch := decide) only [hw, fld, fld_lo, fld_hi, fld_all, Nat.reduceSub] <;> rfl
  unfold decodeCtl; rw [h0, h1]
  refine Eq.trans (b := finish _ _) rfl ?_
  simp (disch := decide) only [hw, fld, fld_lo, fld_hi, fld_all, Nat.reduceSub]
  exact finish_ok rfl wf
theorem popc (d a : BitVec 6) : Statement (.popc d a) := ctl rfl rfl fun w hw wf => by
  have h0 : fld w 25 7 = 1#7 := by simp (disch := decide) only [hw, fld, fld_lo, fld_hi, fld_all, Nat.reduceSub] <;> rfl
  have h1 : fld w 0 7 = 23#7 := by simp (disch := decide) only [hw, fld, fld_lo, fld_hi, fld_all, Nat.reduceSub] <;> rfl
  unfold decodeCtl; rw [h0, h1]
  refine Eq.trans (b := finish _ _) rfl ?_
  simp (disch := decide) only [hw, fld, fld_lo, fld_hi, fld_all, Nat.reduceSub]
  exact finish_ok rfl wf
theorem movXP (d : BitVec 6) (n : BitVec 3) : Statement (.movXP d n) := ctl rfl rfl fun w hw wf => by
  have h0 : fld w 25 7 = 1#7 := by simp (disch := decide) only [hw, fld, fld_lo, fld_hi, fld_all, Nat.reduceSub] <;> rfl
  have h1 : fld w 0 7 = 24#7 := by simp (disch := decide) only [hw, fld, fld_lo, fld_hi, fld_all, Nat.reduceSub] <;> rfl
  unfold decodeCtl; rw [h0, h1]
  refine Eq.trans (b := finish _ _) rfl ?_
  simp (disch := decide) only [hw, fld, fld_lo, fld_hi, fld_all, Nat.reduceSub]
  exact finish_ok rfl wf
theorem movPX (p : BitVec 3) (a : BitVec 6) : Statement (.movPX p a) := ctl rfl rfl fun w hw wf => by
  have h0 : fld w 25 7 = 1#7 := by simp (disch := decide) only [hw, fld, fld_lo, fld_hi, fld_all, Nat.reduceSub] <;> rfl
  have h1 : fld w 0 7 = 25#7 := by simp (disch := decide) only [hw, fld, fld_lo, fld_hi, fld_all, Nat.reduceSub] <;> rfl
  unfold decodeCtl; rw [h0, h1]
  refine Eq.trans (b := finish _ _) rfl ?_
  simp (disch := decide) only [hw, fld, fld_lo, fld_hi, fld_all, Nat.reduceSub]
  exact finish_ok rfl wf
theorem addImm (d a : BitVec 6) (i : BitVec 13) : Statement (.addImm d a i) := ctl rfl rfl fun w hw wf => by
  have h0 : fld w 25 7 = 2#7 := by simp (disch := decide) only [hw, fld, fld_lo, fld_hi, fld_all, Nat.reduceSub] <;> rfl
  unfold decodeCtl; rw [h0]
  refine Eq.trans (b := finish _ _) rfl ?_
  simp (disch := decide) only [hw, fld, fld_lo, fld_hi, fld_all, Nat.reduceSub]
  exact finish_ok rfl wf
theorem mulImm (d a : BitVec 6) (i : BitVec 13) : Statement (.mulImm d a i) := ctl rfl rfl fun w hw wf => by
  have h0 : fld w 25 7 = 3#7 := by simp (disch := decide) only [hw, fld, fld_lo, fld_hi, fld_all, Nat.reduceSub] <;> rfl
  unfold decodeCtl; rw [h0]
  refine Eq.trans (b := finish _ _) rfl ?_
  simp (disch := decide) only [hw, fld, fld_lo, fld_hi, fld_all, Nat.reduceSub]
  exact finish_ok rfl wf
theorem andImm (d a : BitVec 6) (i : BitVec 13) : Statement (.andImm d a i) := ctl rfl rfl fun w hw wf => by
  have h0 : fld w 25 7 = 4#7 := by simp (disch := decide) only [hw, fld, fld_lo, fld_hi, fld_all, Nat.reduceSub] <;> rfl
  unfold decodeCtl; rw [h0]
  refine Eq.trans (b := finish _ _) rfl ?_
  simp (disch := decide) only [hw, fld, fld_lo, fld_hi, fld_all, Nat.reduceSub]
  exact finish_ok rfl wf
theorem orImm (d a : BitVec 6) (i : BitVec 13) : Statement (.orImm d a i) := ctl rfl rfl fun w hw wf => by
  have h0 : fld w 25 7 = 5#7 := by simp (disch := decide) only [hw, fld, fld_lo, fld_hi, fld_all, Nat.reduceSub] <;> rfl
  unfold decodeCtl; rw [h0]
  refine Eq.trans (b := finish _ _) rfl ?_
  simp (disch := decide) only [hw, fld, fld_lo, fld_hi, fld_all, Nat.reduceSub]
  exact finish_ok rfl wf
theorem xorImm (d a : BitVec 6) (i : BitVec 13) : Statement (.xorImm d a i) := ctl rfl rfl fun w hw wf => by
  have h0 : fld w 25 7 = 6#7 := by simp (disch := decide) only [hw, fld, fld_lo, fld_hi, fld_all, Nat.reduceSub] <;> rfl
  unfold decodeCtl; rw [h0]
  refine Eq.trans (b := finish _ _) rfl ?_
  simp (disch := decide) only [hw, fld, fld_lo, fld_hi, fld_all, Nat.reduceSub]
  exact finish_ok rfl wf
theorem shlImm (d a h : BitVec 6) : Statement (.shlImm d a h) := ctl rfl rfl fun w hw wf => by
  have h0 : fld w 25 7 = 7#7 := by simp (disch := decide) only [hw, fld, fld_lo, fld_hi, fld_all, Nat.reduceSub] <;> rfl
  have h1 : fld w 11 2 = 0#2 := by simp (disch := decide) only [hw, fld, fld_lo, fld_hi, fld_all, Nat.reduceSub] <;> rfl
  unfold decodeCtl; rw [h0, h1]
  refine Eq.trans (b := finish _ _) rfl ?_
  simp (disch := decide) only [hw, fld, fld_lo, fld_hi, fld_all, Nat.reduceSub]
  exact finish_ok rfl wf
theorem shrImm (d a h : BitVec 6) : Statement (.shrImm d a h) := ctl rfl rfl fun w hw wf => by
  have h0 : fld w 25 7 = 7#7 := by simp (disch := decide) only [hw, fld, fld_lo, fld_hi, fld_all, Nat.reduceSub] <;> rfl
  have h1 : fld w 11 2 = 1#2 := by simp (disch := decide) only [hw, fld, fld_lo, fld_hi, fld_all, Nat.reduceSub] <;> rfl
  unfold decodeCtl; rw [h0, h1]
  refine Eq.trans (b := finish _ _) rfl ?_
  simp (disch := decide) only [hw, fld, fld_lo, fld_hi, fld_all, Nat.reduceSub]
  exact finish_ok rfl wf
theorem sarImm (d a h : BitVec 6) : Statement (.sarImm d a h) := ctl rfl rfl fun w hw wf => by
  have h0 : fld w 25 7 = 7#7 := by simp (disch := decide) only [hw, fld, fld_lo, fld_hi, fld_all, Nat.reduceSub] <;> rfl
  have h1 : fld w 11 2 = 2#2 := by simp (disch := decide) only [hw, fld, fld_lo, fld_hi, fld_all, Nat.reduceSub] <;> rfl
  unfold decodeCtl; rw [h0, h1]
  refine Eq.trans (b := finish _ _) rfl ?_
  simp (disch := decide) only [hw, fld, fld_lo, fld_hi, fld_all, Nat.reduceSub]
  exact finish_ok rfl wf
theorem rolImm (d a h : BitVec 6) : Statement (.rolImm d a h) := ctl rfl rfl fun w hw wf => by
  have h0 : fld w 25 7 = 7#7 := by simp (disch := decide) only [hw, fld, fld_lo, fld_hi, fld_all, Nat.reduceSub] <;> rfl
  have h1 : fld w 11 2 = 3#2 := by simp (disch := decide) only [hw, fld, fld_lo, fld_hi, fld_all, Nat.reduceSub] <;> rfl
  unfold decodeCtl; rw [h0, h1]
  refine Eq.trans (b := finish _ _) rfl ?_
  simp (disch := decide) only [hw, fld, fld_lo, fld_hi, fld_all, Nat.reduceSub]
  exact finish_ok rfl wf
theorem cmp (p c : BitVec 3) (a b : BitVec 6) (u : BitVec 1) : Statement (.cmp p c a b u) := ctl rfl rfl fun w hw wf => by
  have h0 : fld w 25 7 = 8#7 := by simp (disch := decide) only [hw, fld, fld_lo, fld_hi, fld_all, Nat.reduceSub] <;> rfl
  unfold decodeCtl; rw [h0]
  refine Eq.trans (b := finish _ _) rfl ?_
  simp (disch := decide) only [hw, fld, fld_lo, fld_hi, fld_all, Nat.reduceSub]
  exact finish_ok rfl wf
theorem cmpImm (p c : BitVec 3) (a : BitVec 6) (u : BitVec 1) (i : BitVec 12) : Statement (.cmpImm p c a u i) := ctl rfl rfl fun w hw wf => by
  have h0 : fld w 25 7 = 9#7 := by simp (disch := decide) only [hw, fld, fld_lo, fld_hi, fld_all, Nat.reduceSub] <;> rfl
  unfold decodeCtl; rw [h0]
  refine Eq.trans (b := finish _ _) rfl ?_
  simp (disch := decide) only [hw, fld, fld_lo, fld_hi, fld_all, Nat.reduceSub]
  exact finish_ok rfl wf
theorem sel (d a b : BitVec 6) (p : BitVec 3) : Statement (.sel d a b p) := ctl rfl rfl fun w hw wf => by
  have h0 : fld w 25 7 = 10#7 := by simp (disch := decide) only [hw, fld, fld_lo, fld_hi, fld_all, Nat.reduceSub] <;> rfl
  unfold decodeCtl; rw [h0]
  refine Eq.trans (b := finish _ _) rfl ?_
  simp (disch := decide) only [hw, fld, fld_lo, fld_hi, fld_all, Nat.reduceSub]
  exact finish_ok rfl wf
theorem li (d : BitVec 6) (i : BitVec 19) : Statement (.li d i) := ctl rfl rfl fun w hw wf => by
  have h0 : fld w 25 7 = 11#7 := by simp (disch := decide) only [hw, fld, fld_lo, fld_hi, fld_all, Nat.reduceSub] <;> rfl
  unfold decodeCtl; rw [h0]
  refine Eq.trans (b := finish _ _) rfl ?_
  simp (disch := decide) only [hw, fld, fld_lo, fld_hi, fld_all, Nat.reduceSub]
  exact finish_ok rfl wf
theorem lih (d : BitVec 6) (h : BitVec 2) (i : BitVec 16) : Statement (.lih d h i) := ctl rfl rfl fun w hw wf => by
  have h0 : fld w 25 7 = 12#7 := by simp (disch := decide) only [hw, fld, fld_lo, fld_hi, fld_all, Nat.reduceSub] <;> rfl
  unfold decodeCtl; rw [h0]
  refine Eq.trans (b := finish _ _) rfl ?_
  simp (disch := decide) only [hw, fld, fld_lo, fld_hi, fld_all, Nat.reduceSub]
  exact finish_ok rfl wf
theorem bfx (d a b c : BitVec 6) (s : BitVec 1) : Statement (.bfx d a b c s) := ctl rfl rfl fun w hw wf => by
  have h0 : fld w 25 7 = 13#7 := by simp (disch := decide) only [hw, fld, fld_lo, fld_hi, fld_all, Nat.reduceSub] <;> rfl
  unfold decodeCtl; rw [h0]
  refine Eq.trans (b := finish _ _) rfl ?_
  simp (disch := decide) only [hw, fld, fld_lo, fld_hi, fld_all, Nat.reduceSub]
  exact finish_ok rfl wf
theorem bfi (d a b c : BitVec 6) (s : BitVec 1) : Statement (.bfi d a b c s) := ctl rfl rfl fun w hw wf => by
  have h0 : fld w 25 7 = 14#7 := by simp (disch := decide) only [hw, fld, fld_lo, fld_hi, fld_all, Nat.reduceSub] <;> rfl
  unfold decodeCtl; rw [h0]
  refine Eq.trans (b := finish _ _) rfl ?_
  simp (disch := decide) only [hw, fld, fld_lo, fld_hi, fld_all, Nat.reduceSub]
  exact finish_ok rfl wf
theorem fsh (d a b c : BitVec 6) (s : BitVec 1) : Statement (.fsh d a b c s) := ctl rfl rfl fun w hw wf => by
  have h0 : fld w 25 7 = 15#7 := by simp (disch := decide) only [hw, fld, fld_lo, fld_hi, fld_all, Nat.reduceSub] <;> rfl
  unfold decodeCtl; rw [h0]
  refine Eq.trans (b := finish _ _) rfl ?_
  simp (disch := decide) only [hw, fld, fld_lo, fld_hi, fld_all, Nat.reduceSub]
  exact finish_ok rfl wf
theorem br (o : BitVec 25) : Statement (.br o) := ctl rfl rfl fun w hw wf => by
  have h0 : fld w 25 7 = 16#7 := by simp (disch := decide) only [hw, fld, fld_lo, fld_hi, fld_all, Nat.reduceSub] <;> rfl
  unfold decodeCtl; rw [h0]
  refine Eq.trans (b := finish _ _) rfl ?_
  simp (disch := decide) only [hw, fld, fld_lo, fld_hi, fld_all, Nat.reduceSub]
  exact finish_ok rfl wf
theorem call (d : BitVec 6) (o : BitVec 19) : Statement (.call d o) := ctl rfl rfl fun w hw wf => by
  have h0 : fld w 25 7 = 17#7 := by simp (disch := decide) only [hw, fld, fld_lo, fld_hi, fld_all, Nat.reduceSub] <;> rfl
  unfold decodeCtl; rw [h0]
  refine Eq.trans (b := finish _ _) rfl ?_
  simp (disch := decide) only [hw, fld, fld_lo, fld_hi, fld_all, Nat.reduceSub]
  exact finish_ok rfl wf
theorem bc (p : BitVec 3) (n : BitVec 1) (o : BitVec 21) : Statement (.bc p n o) := ctl rfl rfl fun w hw wf => by
  have h0 : fld w 25 7 = 18#7 := by simp (disch := decide) only [hw, fld, fld_lo, fld_hi, fld_all, Nat.reduceSub] <;> rfl
  unfold decodeCtl; rw [h0]
  refine Eq.trans (b := finish _ _) rfl ?_
  simp (disch := decide) only [hw, fld, fld_lo, fld_hi, fld_all, Nat.reduceSub]
  exact finish_ok rfl wf
theorem loop (a : BitVec 6) (o : BitVec 19) : Statement (.loop a o) := ctl rfl rfl fun w hw wf => by
  have h0 : fld w 25 7 = 19#7 := by simp (disch := decide) only [hw, fld, fld_lo, fld_hi, fld_all, Nat.reduceSub] <;> rfl
  unfold decodeCtl; rw [h0]
  refine Eq.trans (b := finish _ _) rfl ?_
  simp (disch := decide) only [hw, fld, fld_lo, fld_hi, fld_all, Nat.reduceSub]
  exact finish_ok rfl wf
theorem ret (a : BitVec 6) : Statement (.ret a) := ctl rfl rfl fun w hw wf => by
  have h0 : fld w 25 7 = 20#7 := by simp (disch := decide) only [hw, fld, fld_lo, fld_hi, fld_all, Nat.reduceSub] <;> rfl
  unfold decodeCtl; rw [h0]
  refine Eq.trans (b := finish _ _) rfl ?_
  simp (disch := decide) only [hw, fld, fld_lo, fld_hi, fld_all, Nat.reduceSub]
  exact finish_ok rfl wf
theorem ld (d a : BitVec 6) (t : BitVec 3) (u : BitVec 2) (o : BitVec 8) : Statement (.ld d a t u o) := ctl rfl rfl fun w hw wf => by
  have h0 : fld w 25 7 = 24#7 := by simp (disch := decide) only [hw, fld, fld_lo, fld_hi, fld_all, Nat.reduceSub] <;> rfl
  unfold decodeCtl; rw [h0]
  refine Eq.trans (b := finish _ _) rfl ?_
  simp (disch := decide) only [hw, fld, fld_lo, fld_hi, fld_all, Nat.reduceSub]
  exact finish_ok rfl wf
theorem ldIndex (d a b : BitVec 6) (t : BitVec 3) (u : BitVec 2) : Statement (.ldIndex d a b t u) := ctl rfl rfl fun w hw wf => by
  have h0 : fld w 25 7 = 25#7 := by simp (disch := decide) only [hw, fld, fld_lo, fld_hi, fld_all, Nat.reduceSub] <;> rfl
  unfold decodeCtl; rw [h0]
  refine Eq.trans (b := finish _ _) rfl ?_
  simp (disch := decide) only [hw, fld, fld_lo, fld_hi, fld_all, Nat.reduceSub]
  exact finish_ok rfl wf
theorem st (s a : BitVec 6) (t : BitVec 3) (u : BitVec 2) (o : BitVec 8) : Statement (.st s a t u o) := ctl rfl rfl fun w hw wf => by
  have h0 : fld w 25 7 = 26#7 := by simp (disch := decide) only [hw, fld, fld_lo, fld_hi, fld_all, Nat.reduceSub] <;> rfl
  unfold decodeCtl; rw [h0]
  refine Eq.trans (b := finish _ _) rfl ?_
  simp (disch := decide) only [hw, fld, fld_lo, fld_hi, fld_all, Nat.reduceSub]
  exact finish_ok rfl wf
theorem stIndex (s a b : BitVec 6) (t : BitVec 3) (u : BitVec 2) : Statement (.stIndex s a b t u) := ctl rfl rfl fun w hw wf => by
  have h0 : fld w 25 7 = 27#7 := by simp (disch := decide) only [hw, fld, fld_lo, fld_hi, fld_all, Nat.reduceSub] <;> rfl
  unfold decodeCtl; rw [h0]
  refine Eq.trans (b := finish _ _) rfl ?_
  simp (disch := decide) only [hw, fld, fld_lo, fld_hi, fld_all, Nat.reduceSub]
  exact finish_ok rfl wf
theorem redAdd (v a : BitVec 6) (t : BitVec 4) (s : BitVec 3) : Statement (.redAdd v a t s) := ctl rfl rfl fun w hw wf => by
  have h0 : fld w 25 7 = 28#7 := by simp (disch := decide) only [hw, fld, fld_lo, fld_hi, fld_all, Nat.reduceSub] <;> rfl
  have h1 : fld w 10 3 = 0#3 := by simp (disch := decide) only [hw, fld, fld_lo, fld_hi, fld_all, Nat.reduceSub] <;> rfl
  unfold decodeCtl; rw [h0, h1]
  refine Eq.trans (b := finish _ _) rfl ?_
  simp (disch := decide) only [hw, fld, fld_lo, fld_hi, fld_all, Nat.reduceSub]
  exact finish_ok rfl wf
theorem redMin (v a : BitVec 6) (t : BitVec 4) (s : BitVec 3) : Statement (.redMin v a t s) := ctl rfl rfl fun w hw wf => by
  have h0 : fld w 25 7 = 28#7 := by simp (disch := decide) only [hw, fld, fld_lo, fld_hi, fld_all, Nat.reduceSub] <;> rfl
  have h1 : fld w 10 3 = 1#3 := by simp (disch := decide) only [hw, fld, fld_lo, fld_hi, fld_all, Nat.reduceSub] <;> rfl
  unfold decodeCtl; rw [h0, h1]
  refine Eq.trans (b := finish _ _) rfl ?_
  simp (disch := decide) only [hw, fld, fld_lo, fld_hi, fld_all, Nat.reduceSub]
  exact finish_ok rfl wf
theorem redMax (v a : BitVec 6) (t : BitVec 4) (s : BitVec 3) : Statement (.redMax v a t s) := ctl rfl rfl fun w hw wf => by
  have h0 : fld w 25 7 = 28#7 := by simp (disch := decide) only [hw, fld, fld_lo, fld_hi, fld_all, Nat.reduceSub] <;> rfl
  have h1 : fld w 10 3 = 2#3 := by simp (disch := decide) only [hw, fld, fld_lo, fld_hi, fld_all, Nat.reduceSub] <;> rfl
  unfold decodeCtl; rw [h0, h1]
  refine Eq.trans (b := finish _ _) rfl ?_
  simp (disch := decide) only [hw, fld, fld_lo, fld_hi, fld_all, Nat.reduceSub]
  exact finish_ok rfl wf
theorem redAnd (v a : BitVec 6) (t : BitVec 4) (s : BitVec 3) : Statement (.redAnd v a t s) := ctl rfl rfl fun w hw wf => by
  have h0 : fld w 25 7 = 28#7 := by simp (disch := decide) only [hw, fld, fld_lo, fld_hi, fld_all, Nat.reduceSub] <;> rfl
  have h1 : fld w 10 3 = 3#3 := by simp (disch := decide) only [hw, fld, fld_lo, fld_hi, fld_all, Nat.reduceSub] <;> rfl
  unfold decodeCtl; rw [h0, h1]
  refine Eq.trans (b := finish _ _) rfl ?_
  simp (disch := decide) only [hw, fld, fld_lo, fld_hi, fld_all, Nat.reduceSub]
  exact finish_ok rfl wf
theorem redOr (v a : BitVec 6) (t : BitVec 4) (s : BitVec 3) : Statement (.redOr v a t s) := ctl rfl rfl fun w hw wf => by
  have h0 : fld w 25 7 = 28#7 := by simp (disch := decide) only [hw, fld, fld_lo, fld_hi, fld_all, Nat.reduceSub] <;> rfl
  have h1 : fld w 10 3 = 4#3 := by simp (disch := decide) only [hw, fld, fld_lo, fld_hi, fld_all, Nat.reduceSub] <;> rfl
  unfold decodeCtl; rw [h0, h1]
  refine Eq.trans (b := finish _ _) rfl ?_
  simp (disch := decide) only [hw, fld, fld_lo, fld_hi, fld_all, Nat.reduceSub]
  exact finish_ok rfl wf
theorem redXor (v a : BitVec 6) (t : BitVec 4) (s : BitVec 3) : Statement (.redXor v a t s) := ctl rfl rfl fun w hw wf => by
  have h0 : fld w 25 7 = 28#7 := by simp (disch := decide) only [hw, fld, fld_lo, fld_hi, fld_all, Nat.reduceSub] <;> rfl
  have h1 : fld w 10 3 = 5#3 := by simp (disch := decide) only [hw, fld, fld_lo, fld_hi, fld_all, Nat.reduceSub] <;> rfl
  unfold decodeCtl; rw [h0, h1]
  refine Eq.trans (b := finish _ _) rfl ?_
  simp (disch := decide) only [hw, fld, fld_lo, fld_hi, fld_all, Nat.reduceSub]
  exact finish_ok rfl wf
theorem fork (k : BitVec 4) : Statement (.fork k) := ctl rfl rfl fun w hw wf => by
  have h0 : fld w 25 7 = 32#7 := by simp (disch := decide) only [hw, fld, fld_lo, fld_hi, fld_all, Nat.reduceSub] <;> rfl
  unfold decodeCtl; rw [h0]
  refine Eq.trans (b := finish _ _) rfl ?_
  simp (disch := decide) only [hw, fld, fld_lo, fld_hi, fld_all, Nat.reduceSub]
  exact finish_ok rfl wf
theorem addf (f a : BitVec 6) : Statement (.addf f a) := ctl rfl rfl fun w hw wf => by
  have h0 : fld w 25 7 = 35#7 := by simp (disch := decide) only [hw, fld, fld_lo, fld_hi, fld_all, Nat.reduceSub] <;> rfl
  have h1 : fld w 18 1 = 0#1 := by simp (disch := decide) only [hw, fld, fld_lo, fld_hi, fld_all, Nat.reduceSub] <;> rfl
  unfold decodeCtl; rw [h0, h1]
  refine Eq.trans (b := finish _ _) rfl ?_
  simp (disch := decide) only [hw, fld, fld_lo, fld_hi, fld_all, Nat.reduceSub]
  exact finish_ok rfl wf
theorem addfImm (f : BitVec 6) (i : BitVec 18) : Statement (.addfImm f i) := ctl rfl rfl fun w hw wf => by
  have h0 : fld w 25 7 = 35#7 := by simp (disch := decide) only [hw, fld, fld_lo, fld_hi, fld_all, Nat.reduceSub] <;> rfl
  have h1 : fld w 18 1 = 1#1 := by simp (disch := decide) only [hw, fld, fld_lo, fld_hi, fld_all, Nat.reduceSub] <;> rfl
  unfold decodeCtl; rw [h0, h1]
  refine Eq.trans (b := finish _ _) rfl ?_
  simp (disch := decide) only [hw, fld, fld_lo, fld_hi, fld_all, Nat.reduceSub]
  exact finish_ok rfl wf
theorem give (f a b : BitVec 6) : Statement (.give f a b) := ctl rfl rfl fun w hw wf => by
  have h0 : fld w 25 7 = 36#7 := by simp (disch := decide) only [hw, fld, fld_lo, fld_hi, fld_all, Nat.reduceSub] <;> rfl
  have h1 : fld w 18 1 = 0#1 := by simp (disch := decide) only [hw, fld, fld_lo, fld_hi, fld_all, Nat.reduceSub] <;> rfl
  unfold decodeCtl; rw [h0, h1]
  refine Eq.trans (b := finish _ _) rfl ?_
  simp (disch := decide) only [hw, fld, fld_lo, fld_hi, fld_all, Nat.reduceSub]
  exact finish_ok rfl wf
theorem giveAcc (f : BitVec 6) (c n : BitVec 4) : Statement (.giveAcc f c n) := ctl rfl rfl fun w hw wf => by
  have h0 : fld w 25 7 = 36#7 := by simp (disch := decide) only [hw, fld, fld_lo, fld_hi, fld_all, Nat.reduceSub] <;> rfl
  have h1 : fld w 18 1 = 1#1 := by simp (disch := decide) only [hw, fld, fld_lo, fld_hi, fld_all, Nat.reduceSub] <;> rfl
  unfold decodeCtl; rw [h0, h1]
  refine Eq.trans (b := finish _ _) rfl ?_
  simp (disch := decide) only [hw, fld, fld_lo, fld_hi, fld_all, Nat.reduceSub]
  exact finish_ok rfl wf
theorem waitf (f a : BitVec 6) : Statement (.waitf f a) := ctl rfl rfl fun w hw wf => by
  have h0 : fld w 25 7 = 37#7 := by simp (disch := decide) only [hw, fld, fld_lo, fld_hi, fld_all, Nat.reduceSub] <;> rfl
  have h1 : fld w 18 1 = 0#1 := by simp (disch := decide) only [hw, fld, fld_lo, fld_hi, fld_all, Nat.reduceSub] <;> rfl
  unfold decodeCtl; rw [h0, h1]
  refine Eq.trans (b := finish _ _) rfl ?_
  simp (disch := decide) only [hw, fld, fld_lo, fld_hi, fld_all, Nat.reduceSub]
  exact finish_ok rfl wf
theorem waitfImm (f : BitVec 6) (i : BitVec 18) : Statement (.waitfImm f i) := ctl rfl rfl fun w hw wf => by
  have h0 : fld w 25 7 = 37#7 := by simp (disch := decide) only [hw, fld, fld_lo, fld_hi, fld_all, Nat.reduceSub] <;> rfl
  have h1 : fld w 18 1 = 1#1 := by simp (disch := decide) only [hw, fld, fld_lo, fld_hi, fld_all, Nat.reduceSub] <;> rfl
  unfold decodeCtl; rw [h0, h1]
  refine Eq.trans (b := finish _ _) rfl ?_
  simp (disch := decide) only [hw, fld, fld_lo, fld_hi, fld_all, Nat.reduceSub]
  exact finish_ok rfl wf
theorem flagcfg (f : BitVec 6) (k : BitVec 1) (c r : BitVec 2) : Statement (.flagcfg f k c r) := ctl rfl rfl fun w hw wf => by
  have h0 : fld w 25 7 = 38#7 := by simp (disch := decide) only [hw, fld, fld_lo, fld_hi, fld_all, Nat.reduceSub] <;> rfl
  unfold decodeCtl; rw [h0]
  refine Eq.trans (b := finish _ _) rfl ?_
  simp (disch := decide) only [hw, fld, fld_lo, fld_hi, fld_all, Nat.reduceSub]
  exact finish_ok rfl wf
theorem fstat (d f : BitVec 6) : Statement (.fstat d f) := ctl rfl rfl fun w hw wf => by
  have h0 : fld w 25 7 = 39#7 := by simp (disch := decide) only [hw, fld, fld_lo, fld_hi, fld_all, Nat.reduceSub] <;> rfl
  unfold decodeCtl; rw [h0]
  refine Eq.trans (b := finish _ _) rfl ?_
  simp (disch := decide) only [hw, fld, fld_lo, fld_hi, fld_all, Nat.reduceSub]
  exact finish_ok rfl wf
theorem ssync (d a : BitVec 6) (s : BitVec 3) : Statement (.ssync d a s) := ctl rfl rfl fun w hw wf => by
  have h0 : fld w 25 7 = 40#7 := by simp (disch := decide) only [hw, fld, fld_lo, fld_hi, fld_all, Nat.reduceSub] <;> rfl
  unfold decodeCtl; rw [h0]
  refine Eq.trans (b := finish _ _) rfl ?_
  simp (disch := decide) only [hw, fld, fld_lo, fld_hi, fld_all, Nat.reduceSub]
  exact finish_ok rfl wf
theorem tokpass (a b : BitVec 6) (s : BitVec 3) : Statement (.tokpass a b s) := ctl rfl rfl fun w hw wf => by
  have h0 : fld w 25 7 = 41#7 := by simp (disch := decide) only [hw, fld, fld_lo, fld_hi, fld_all, Nat.reduceSub] <;> rfl
  unfold decodeCtl; rw [h0]
  refine Eq.trans (b := finish _ _) rfl ?_
  simp (disch := decide) only [hw, fld, fld_lo, fld_hi, fld_all, Nat.reduceSub]
  exact finish_ok rfl wf
theorem mfence (d : BitVec 6) (s e : BitVec 3) : Statement (.mfence d s e) := ctl rfl rfl fun w hw wf => by
  have h0 : fld w 25 7 = 42#7 := by simp (disch := decide) only [hw, fld, fld_lo, fld_hi, fld_all, Nat.reduceSub] <;> rfl
  unfold decodeCtl; rw [h0]
  refine Eq.trans (b := finish _ _) rfl ?_
  simp (disch := decide) only [hw, fld, fld_lo, fld_hi, fld_all, Nat.reduceSub]
  exact finish_ok rfl wf
theorem chron (d : BitVec 6) : Statement (.chron d) := ctl rfl rfl fun w hw wf => by
  have h0 : fld w 25 7 = 43#7 := by simp (disch := decide) only [hw, fld, fld_lo, fld_hi, fld_all, Nat.reduceSub] <;> rfl
  unfold decodeCtl; rw [h0]
  refine Eq.trans (b := finish _ _) rfl ?_
  simp (disch := decide) only [hw, fld, fld_lo, fld_hi, fld_all, Nat.reduceSub]
  exact finish_ok rfl wf
theorem ipf (a b : BitVec 6) (l : BitVec 1) : Statement (.ipf a b l) := ctl rfl rfl fun w hw wf => by
  have h0 : fld w 25 7 = 44#7 := by simp (disch := decide) only [hw, fld, fld_lo, fld_hi, fld_all, Nat.reduceSub] <;> rfl
  unfold decodeCtl; rw [h0]
  refine Eq.trans (b := finish _ _) rfl ?_
  simp (disch := decide) only [hw, fld, fld_lo, fld_hi, fld_all, Nat.reduceSub]
  exact finish_ok rfl wf
theorem ipin (d a b : BitVec 6) : Statement (.ipin d a b) := ctl rfl rfl fun w hw wf => by
  have h0 : fld w 25 7 = 45#7 := by simp (disch := decide) only [hw, fld, fld_lo, fld_hi, fld_all, Nat.reduceSub] <;> rfl
  unfold decodeCtl; rw [h0]
  refine Eq.trans (b := finish _ _) rfl ?_
  simp (disch := decide) only [hw, fld, fld_lo, fld_hi, fld_all, Nat.reduceSub]
  exact finish_ok rfl wf
theorem iunpin (a b : BitVec 6) : Statement (.iunpin a b) := ctl rfl rfl fun w hw wf => by
  have h0 : fld w 25 7 = 46#7 := by simp (disch := decide) only [hw, fld, fld_lo, fld_hi, fld_all, Nat.reduceSub] <;> rfl
  unfold decodeCtl; rw [h0]
  refine Eq.trans (b := finish _ _) rfl ?_
  simp (disch := decide) only [hw, fld, fld_lo, fld_hi, fld_all, Nat.reduceSub]
  exact finish_ok rfl wf
theorem csrr (d : BitVec 6) (c : BitVec 12) : Statement (.csrr d c) := ctl rfl rfl fun w hw wf => by
  have h0 : fld w 25 7 = 48#7 := by simp (disch := decide) only [hw, fld, fld_lo, fld_hi, fld_all, Nat.reduceSub] <;> rfl
  unfold decodeCtl; rw [h0]
  refine Eq.trans (b := finish _ _) rfl ?_
  simp (disch := decide) only [hw, fld, fld_lo, fld_hi, fld_all, Nat.reduceSub]
  exact finish_ok rfl wf
theorem csrw (a : BitVec 6) (c : BitVec 12) : Statement (.csrw a c) := ctl rfl rfl fun w hw wf => by
  have h0 : fld w 25 7 = 49#7 := by simp (disch := decide) only [hw, fld, fld_lo, fld_hi, fld_all, Nat.reduceSub] <;> rfl
  unfold decodeCtl; rw [h0]
  refine Eq.trans (b := finish _ _) rfl ?_
  simp (disch := decide) only [hw, fld, fld_lo, fld_hi, fld_all, Nat.reduceSub]
  exact finish_ok rfl wf
theorem trap (a : BitVec 6) (c : BitVec 13) : Statement (.trap a c) := ctl rfl rfl fun w hw wf => by
  have h0 : fld w 25 7 = 50#7 := by simp (disch := decide) only [hw, fld, fld_lo, fld_hi, fld_all, Nat.reduceSub] <;> rfl
  unfold decodeCtl; rw [h0]
  refine Eq.trans (b := finish _ _) rfl ?_
  simp (disch := decide) only [hw, fld, fld_lo, fld_hi, fld_all, Nat.reduceSub]
  exact finish_ok rfl wf
theorem launch (f a : BitVec 6) : Statement (.launch f a) := ctl rfl rfl fun w hw wf => by
  have h0 : fld w 25 7 = 52#7 := by simp (disch := decide) only [hw, fld, fld_lo, fld_hi, fld_all, Nat.reduceSub] <;> rfl
  unfold decodeCtl; rw [h0]
  refine Eq.trans (b := finish _ _) rfl ?_
  simp (disch := decide) only [hw, fld, fld_lo, fld_hi, fld_all, Nat.reduceSub]
  exact finish_ok rfl wf
theorem wincfg (w : BitVec 4) (a : BitVec 6) : Statement (.wincfg w a) := ctl rfl rfl fun w hw wf => by
  have h0 : fld w 25 7 = 64#7 := by simp (disch := decide) only [hw, fld, fld_lo, fld_hi, fld_all, Nat.reduceSub] <;> rfl
  unfold decodeCtl; rw [h0]
  refine Eq.trans (b := finish _ _) rfl ?_
  simp (disch := decide) only [hw, fld, fld_lo, fld_hi, fld_all, Nat.reduceSub]
  exact finish_ok rfl wf
theorem winoff (w : BitVec 4) : Statement (.winoff w) := ctl rfl rfl fun w hw wf => by
  have h0 : fld w 25 7 = 65#7 := by simp (disch := decide) only [hw, fld, fld_lo, fld_hi, fld_all, Nat.reduceSub] <;> rfl
  unfold decodeCtl; rw [h0]
  refine Eq.trans (b := finish _ _) rfl ?_
  simp (disch := decide) only [hw, fld, fld_lo, fld_hi, fld_all, Nat.reduceSub]
  exact finish_ok rfl wf
theorem winq (d a : BitVec 6) : Statement (.winq d a) := ctl rfl rfl fun w hw wf => by
  have h0 : fld w 25 7 = 66#7 := by simp (disch := decide) only [hw, fld, fld_lo, fld_hi, fld_all, Nat.reduceSub] <;> rfl
  unfold decodeCtl; rw [h0]
  refine Eq.trans (b := finish _ _) rfl ?_
  simp (disch := decide) only [hw, fld, fld_lo, fld_hi, fld_all, Nat.reduceSub]
  exact finish_ok rfl wf
theorem tlbinv (a b : BitVec 6) (s : BitVec 3) : Statement (.tlbinv a b s) := ctl rfl rfl fun w hw wf => by
  have h0 : fld w 25 7 = 72#7 := by simp (disch := decide) only [hw, fld, fld_lo, fld_hi, fld_all, Nat.reduceSub] <;> rfl
  have h1 : fld w 3 1 = 0#1 := by simp (disch := decide) only [hw, fld, fld_lo, fld_hi, fld_all, Nat.reduceSub] <;> rfl
  unfold decodeCtl; rw [h0, h1]
  refine Eq.trans (b := finish _ _) rfl ?_
  simp (disch := decide) only [hw, fld, fld_lo, fld_hi, fld_all, Nat.reduceSub]
  exact finish_ok rfl wf
theorem tlbinvr (c a b : BitVec 6) (s : BitVec 3) : Statement (.tlbinvr c a b s) := ctl rfl rfl fun w hw wf => by
  have h0 : fld w 25 7 = 72#7 := by simp (disch := decide) only [hw, fld, fld_lo, fld_hi, fld_all, Nat.reduceSub] <;> rfl
  have h1 : fld w 3 1 = 1#1 := by simp (disch := decide) only [hw, fld, fld_lo, fld_hi, fld_all, Nat.reduceSub] <;> rfl
  unfold decodeCtl; rw [h0, h1]
  refine Eq.trans (b := finish _ _) rfl ?_
  simp (disch := decide) only [hw, fld, fld_lo, fld_hi, fld_all, Nat.reduceSub]
  exact finish_ok rfl wf
theorem pgsplit (c a b : BitVec 6) (z : BitVec 3) : Statement (.pgsplit c a b z) := ctl rfl rfl fun w hw wf => by
  have h0 : fld w 25 7 = 73#7 := by simp (disch := decide) only [hw, fld, fld_lo, fld_hi, fld_all, Nat.reduceSub] <;> rfl
  unfold decodeCtl; rw [h0]
  refine Eq.trans (b := finish _ _) rfl ?_
  simp (disch := decide) only [hw, fld, fld_lo, fld_hi, fld_all, Nat.reduceSub]
  exact finish_ok rfl wf
theorem pgdup (c a b : BitVec 6) : Statement (.pgdup c a b) := ctl rfl rfl fun w hw wf => by
  have h0 : fld w 25 7 = 74#7 := by simp (disch := decide) only [hw, fld, fld_lo, fld_hi, fld_all, Nat.reduceSub] <;> rfl
  unfold decodeCtl; rw [h0]
  refine Eq.trans (b := finish _ _) rfl ?_
  simp (disch := decide) only [hw, fld, fld_lo, fld_hi, fld_all, Nat.reduceSub]
  exact finish_ok rfl wf
theorem pgcoll (c a b : BitVec 6) (w : BitVec 1) : Statement (.pgcoll c a b w) := ctl rfl rfl fun w hw wf => by
  have h0 : fld w 25 7 = 75#7 := by simp (disch := decide) only [hw, fld, fld_lo, fld_hi, fld_all, Nat.reduceSub] <;> rfl
  unfold decodeCtl; rw [h0]
  refine Eq.trans (b := finish _ _) rfl ?_
  simp (disch := decide) only [hw, fld, fld_lo, fld_hi, fld_all, Nat.reduceSub]
  exact finish_ok rfl wf
theorem pgmove (c a b : BitVec 6) (f : BitVec 1) : Statement (.pgmove c a b f) := ctl rfl rfl fun w hw wf => by
  have h0 : fld w 25 7 = 76#7 := by simp (disch := decide) only [hw, fld, fld_lo, fld_hi, fld_all, Nat.reduceSub] <;> rfl
  unfold decodeCtl; rw [h0]
  refine Eq.trans (b := finish _ _) rfl ?_
  simp (disch := decide) only [hw, fld, fld_lo, fld_hi, fld_all, Nat.reduceSub]
  exact finish_ok rfl wf
theorem pgprot (c a b : BitVec 6) : Statement (.pgprot c a b) := ctl rfl rfl fun w hw wf => by
  have h0 : fld w 25 7 = 77#7 := by simp (disch := decide) only [hw, fld, fld_lo, fld_hi, fld_all, Nat.reduceSub] <;> rfl
  unfold decodeCtl; rw [h0]
  refine Eq.trans (b := finish _ _) rfl ?_
  simp (disch := decide) only [hw, fld, fld_lo, fld_hi, fld_all, Nat.reduceSub]
  exact finish_ok rfl wf
theorem walkstat (d a b : BitVec 6) : Statement (.walkstat d a b) := ctl rfl rfl fun w hw wf => by
  have h0 : fld w 25 7 = 78#7 := by simp (disch := decide) only [hw, fld, fld_lo, fld_hi, fld_all, Nat.reduceSub] <;> rfl
  unfold decodeCtl; rw [h0]
  refine Eq.trans (b := finish _ _) rfl ?_
  simp (disch := decide) only [hw, fld, fld_lo, fld_hi, fld_all, Nat.reduceSub]
  exact finish_ok rfl wf
theorem keyret (a : BitVec 6) : Statement (.keyret a) := ctl rfl rfl fun w hw wf => by
  have h0 : fld w 25 7 = 79#7 := by simp (disch := decide) only [hw, fld, fld_lo, fld_hi, fld_all, Nat.reduceSub] <;> rfl
  unfold decodeCtl; rw [h0]
  refine Eq.trans (b := finish _ _) rfl ?_
  simp (disch := decide) only [hw, fld, fld_lo, fld_hi, fld_all, Nat.reduceSub]
  exact finish_ok rfl wf
theorem publish (a : BitVec 6) (s : BitVec 3) : Statement (.publish a s) := ctl rfl rfl fun w hw wf => by
  have h0 : fld w 25 7 = 80#7 := by simp (disch := decide) only [hw, fld, fld_lo, fld_hi, fld_all, Nat.reduceSub] <;> rfl
  unfold decodeCtl; rw [h0]
  refine Eq.trans (b := finish _ _) rfl ?_
  simp (disch := decide) only [hw, fld, fld_lo, fld_hi, fld_all, Nat.reduceSub]
  exact finish_ok rfl wf
theorem pubwait (d : BitVec 6) : Statement (.pubwait d) := ctl rfl rfl fun w hw wf => by
  have h0 : fld w 25 7 = 81#7 := by simp (disch := decide) only [hw, fld, fld_lo, fld_hi, fld_all, Nat.reduceSub] <;> rfl
  unfold decodeCtl; rw [h0]
  refine Eq.trans (b := finish _ _) rfl ?_
  simp (disch := decide) only [hw, fld, fld_lo, fld_hi, fld_all, Nat.reduceSub]
  exact finish_ok rfl wf
theorem reftag (a : BitVec 6) (o : BitVec 13) : Statement (.reftag a o) := ctl rfl rfl fun w hw wf => by
  have h0 : fld w 25 7 = 82#7 := by simp (disch := decide) only [hw, fld, fld_lo, fld_hi, fld_all, Nat.reduceSub] <;> rfl
  unfold decodeCtl; rw [h0]
  refine Eq.trans (b := finish _ _) rfl ?_
  simp (disch := decide) only [hw, fld, fld_lo, fld_hi, fld_all, Nat.reduceSub]
  exact finish_ok rfl wf
theorem stref (s a : BitVec 6) (o : BitVec 13) : Statement (.stref s a o) := ctl rfl rfl fun w hw wf => by
  have h0 : fld w 25 7 = 83#7 := by simp (disch := decide) only [hw, fld, fld_lo, fld_hi, fld_all, Nat.reduceSub] <;> rfl
  unfold decodeCtl; rw [h0]
  refine Eq.trans (b := finish _ _) rfl ?_
  simp (disch := decide) only [hw, fld, fld_lo, fld_hi, fld_all, Nat.reduceSub]
  exact finish_ok rfl wf
theorem refclr (a : BitVec 6) (o : BitVec 13) : Statement (.refclr a o) := ctl rfl rfl fun w hw wf => by
  have h0 : fld w 25 7 = 84#7 := by simp (disch := decide) only [hw, fld, fld_lo, fld_hi, fld_all, Nat.reduceSub] <;> rfl
  unfold decodeCtl; rw [h0]
  refine Eq.trans (b := finish _ _) rfl ?_
  simp (disch := decide) only [hw, fld, fld_lo, fld_hi, fld_all, Nat.reduceSub]
  exact finish_ok rfl wf
theorem objinit (a b : BitVec 6) (c : BitVec 2) : Statement (.objinit a b c) := ctl rfl rfl fun w hw wf => by
  have h0 : fld w 25 7 = 85#7 := by simp (disch := decide) only [hw, fld, fld_lo, fld_hi, fld_all, Nat.reduceSub] <;> rfl
  unfold decodeCtl; rw [h0]
  refine Eq.trans (b := finish _ _) rfl ?_
  simp (disch := decide) only [hw, fld, fld_lo, fld_hi, fld_all, Nat.reduceSub]
  exact finish_ok rfl wf
theorem retract (a : BitVec 6) : Statement (.retract a) := ctl rfl rfl fun w hw wf => by
  have h0 : fld w 25 7 = 86#7 := by simp (disch := decide) only [hw, fld, fld_lo, fld_hi, fld_all, Nat.reduceSub] <;> rfl
  unfold decodeCtl; rw [h0]
  refine Eq.trans (b := finish _ _) rfl ?_
  simp (disch := decide) only [hw, fld, fld_lo, fld_hi, fld_all, Nat.reduceSub]
  exact finish_ok rfl wf
theorem txvote (a b : BitVec 6) : Statement (.txvote a b) := ctl rfl rfl fun w hw wf => by
  have h0 : fld w 25 7 = 89#7 := by simp (disch := decide) only [hw, fld, fld_lo, fld_hi, fld_all, Nat.reduceSub] <;> rfl
  unfold decodeCtl; rw [h0]
  refine Eq.trans (b := finish _ _) rfl ?_
  simp (disch := decide) only [hw, fld, fld_lo, fld_hi, fld_all, Nat.reduceSub]
  exact finish_ok rfl wf
theorem txwait (d : BitVec 6) : Statement (.txwait d) := ctl rfl rfl fun w hw wf => by
  have h0 : fld w 25 7 = 90#7 := by simp (disch := decide) only [hw, fld, fld_lo, fld_hi, fld_all, Nat.reduceSub] <;> rfl
  unfold decodeCtl; rw [h0]
  refine Eq.trans (b := finish _ _) rfl ?_
  simp (disch := decide) only [hw, fld, fld_lo, fld_hi, fld_all, Nat.reduceSub]
  exact finish_ok rfl wf
theorem txstat (d : BitVec 6) : Statement (.txstat d) := ctl rfl rfl fun w hw wf => by
  have h0 : fld w 25 7 = 91#7 := by simp (disch := decide) only [hw, fld, fld_lo, fld_hi, fld_all, Nat.reduceSub] <;> rfl
  unfold decodeCtl; rw [h0]
  refine Eq.trans (b := finish _ _) rfl ?_
  simp (disch := decide) only [hw, fld, fld_lo, fld_hi, fld_all, Nat.reduceSub]
  exact finish_ok rfl wf
theorem txkey (d : BitVec 6) : Statement (.txkey d) := ctl rfl rfl fun w hw wf => by
  have h0 : fld w 25 7 = 92#7 := by simp (disch := decide) only [hw, fld, fld_lo, fld_hi, fld_all, Nat.reduceSub] <;> rfl
  unfold decodeCtl; rw [h0]
  refine Eq.trans (b := finish _ _) rfl ?_
  simp (disch := decide) only [hw, fld, fld_lo, fld_hi, fld_all, Nat.reduceSub]
  exact finish_ok rfl wf
theorem txseqStep (d : BitVec 6) : Statement (.txseqStep d) := ctl rfl rfl fun w hw wf => by
  have h0 : fld w 25 7 = 93#7 := by simp (disch := decide) only [hw, fld, fld_lo, fld_hi, fld_all, Nat.reduceSub] <;> rfl
  have h1 : fld w 0 3 = 0#3 := by simp (disch := decide) only [hw, fld, fld_lo, fld_hi, fld_all, Nat.reduceSub] <;> rfl
  unfold decodeCtl; rw [h0, h1]
  refine Eq.trans (b := finish _ _) rfl ?_
  simp (disch := decide) only [hw, fld, fld_lo, fld_hi, fld_all, Nat.reduceSub]
  exact finish_ok rfl wf
theorem txseqCbase (d : BitVec 6) : Statement (.txseqCbase d) := ctl rfl rfl fun w hw wf => by
  have h0 : fld w 25 7 = 93#7 := by simp (disch := decide) only [hw, fld, fld_lo, fld_hi, fld_all, Nat.reduceSub] <;> rfl
  have h1 : fld w 0 3 = 1#3 := by simp (disch := decide) only [hw, fld, fld_lo, fld_hi, fld_all, Nat.reduceSub] <;> rfl
  unfold decodeCtl; rw [h0, h1]
  refine Eq.trans (b := finish _ _) rfl ?_
  simp (disch := decide) only [hw, fld, fld_lo, fld_hi, fld_all, Nat.reduceSub]
  exact finish_ok rfl wf
theorem txseqQbase (d : BitVec 6) : Statement (.txseqQbase d) := ctl rfl rfl fun w hw wf => by
  have h0 : fld w 25 7 = 93#7 := by simp (disch := decide) only [hw, fld, fld_lo, fld_hi, fld_all, Nat.reduceSub] <;> rfl
  have h1 : fld w 0 3 = 2#3 := by simp (disch := decide) only [hw, fld, fld_lo, fld_hi, fld_all, Nat.reduceSub] <;> rfl
  unfold decodeCtl; rw [h0, h1]
  refine Eq.trans (b := finish _ _) rfl ?_
  simp (disch := decide) only [hw, fld, fld_lo, fld_hi, fld_all, Nat.reduceSub]
  exact finish_ok rfl wf
theorem txseqCount (d : BitVec 6) : Statement (.txseqCount d) := ctl rfl rfl fun w hw wf => by
  have h0 : fld w 25 7 = 93#7 := by simp (disch := decide) only [hw, fld, fld_lo, fld_hi, fld_all, Nat.reduceSub] <;> rfl
  have h1 : fld w 0 3 = 3#3 := by simp (disch := decide) only [hw, fld, fld_lo, fld_hi, fld_all, Nat.reduceSub] <;> rfl
  unfold decodeCtl; rw [h0, h1]
  refine Eq.trans (b := finish _ _) rfl ?_
  simp (disch := decide) only [hw, fld, fld_lo, fld_hi, fld_all, Nat.reduceSub]
  exact finish_ok rfl wf
theorem nmSgdf (d a b c : BitVec 6) : Statement (.nmSgdf d a b c) := ctl rfl rfl fun w hw wf => by
  have h0 : fld w 25 7 = 96#7 := by simp (disch := decide) only [hw, fld, fld_lo, fld_hi, fld_all, Nat.reduceSub] <;> rfl
  unfold decodeCtl; rw [h0]
  refine Eq.trans (b := finish _ _) rfl ?_
  simp (disch := decide) only [hw, fld, fld_lo, fld_hi, fld_all, Nat.reduceSub]
  exact finish_ok rfl wf
theorem nmfence (d : BitVec 6) (s : BitVec 3) : Statement (.nmfence d s) := ctl rfl rfl fun w hw wf => by
  have h0 : fld w 25 7 = 97#7 := by simp (disch := decide) only [hw, fld, fld_lo, fld_hi, fld_all, Nat.reduceSub] <;> rfl
  have h1 : fld w 9 1 = 0#1 := by simp (disch := decide) only [hw, fld, fld_lo, fld_hi, fld_all, Nat.reduceSub] <;> rfl
  unfold decodeCtl; rw [h0, h1]
  refine Eq.trans (b := finish _ _) rfl ?_
  simp (disch := decide) only [hw, fld, fld_lo, fld_hi, fld_all, Nat.reduceSub]
  exact finish_ok rfl wf
theorem nmfenceArray (d : BitVec 6) (s : BitVec 3) : Statement (.nmfenceArray d s) := ctl rfl rfl fun w hw wf => by
  have h0 : fld w 25 7 = 97#7 := by simp (disch := decide) only [hw, fld, fld_lo, fld_hi, fld_all, Nat.reduceSub] <;> rfl
  have h1 : fld w 9 1 = 1#1 := by simp (disch := decide) only [hw, fld, fld_lo, fld_hi, fld_all, Nat.reduceSub] <;> rfl
  unfold decodeCtl; rw [h0, h1]
  refine Eq.trans (b := finish _ _) rfl ?_
  simp (disch := decide) only [hw, fld, fld_lo, fld_hi, fld_all, Nat.reduceSub]
  exact finish_ok rfl wf
theorem pfxRnd (k f s : BitVec 1) (m : BitVec 3) (t : BitVec 1) : Statement (.pfxRnd k f s m t) := vec32 rfl rfl (by simp (disch := decide) only [fld, fld_lo, fld_all] <;> rfl) fun w hw hz wf => by
  have h0 : fld w 2 6 = 63#6 := by simp (disch := decide) only [hw, fld, fld_lo, fld_hi, fld_all, Nat.reduceSub] <;> rfl
  have h1 : fld w 8 1 = 0#1 := by simp (disch := decide) only [hw, fld, fld_lo, fld_hi, fld_all, Nat.reduceSub] <;> rfl
  unfold decodeVec32; rw [hz, h0, h1, if_neg (by decide)]
  refine Eq.trans (b := finish _ _) rfl ?_
  simp (disch := decide) only [hw, fld, fld_lo, fld_hi, fld_all, Nat.reduceSub]
  exact finish_ok rfl wf
theorem pfxMsk (z : BitVec 1) (k : BitVec 3) (t : BitVec 1) : Statement (.pfxMsk z k t) := vec32 rfl rfl (by simp (disch := decide) only [fld, fld_lo, fld_all] <;> rfl) fun w hw hz wf => by
  have h0 : fld w 2 6 = 63#6 := by simp (disch := decide) only [hw, fld, fld_lo, fld_hi, fld_all, Nat.reduceSub] <;> rfl
  have h1 : fld w 8 1 = 1#1 := by simp (disch := decide) only [hw, fld, fld_lo, fld_hi, fld_all, Nat.reduceSub] <;> rfl
  unfold decodeVec32; rw [hz, h0, h1, if_neg (by decide)]
  refine Eq.trans (b := finish _ _) rfl ?_
  simp (disch := decide) only [hw, fld, fld_lo, fld_hi, fld_all, Nat.reduceSub]
  exact finish_ok rfl wf
theorem vadd (d : BitVec 5) (a b : BitVec 6) (y : BitVec 3) (t : BitVec 1) : Statement (.vadd d a b y t) := vec32 rfl rfl (by simp (disch := decide) only [fld, fld_lo, fld_all] <;> rfl) fun w hw hz wf => by
  have h0 : fld w 2 6 = 1#6 := by simp (disch := decide) only [hw, fld, fld_lo, fld_hi, fld_all, Nat.reduceSub] <;> rfl
  have h1 : fld w 8 4 = 0#4 := by simp (disch := decide) only [hw, fld, fld_lo, fld_hi, fld_all, Nat.reduceSub] <;> rfl
  unfold decodeVec32; rw [hz, h0, h1, if_neg (by decide)]
  refine Eq.trans (b := finish _ _) rfl ?_
  simp (disch := decide) only [hw, fld, fld_lo, fld_hi, fld_all, Nat.reduceSub]
  exact finish_ok rfl wf
theorem vsub (d : BitVec 5) (a b : BitVec 6) (y : BitVec 3) (t : BitVec 1) : Statement (.vsub d a b y t) := vec32 rfl rfl (by simp (disch := decide) only [fld, fld_lo, fld_all] <;> rfl) fun w hw hz wf => by
  have h0 : fld w 2 6 = 1#6 := by simp (disch := decide) only [hw, fld, fld_lo, fld_hi, fld_all, Nat.reduceSub] <;> rfl
  have h1 : fld w 8 4 = 1#4 := by simp (disch := decide) only [hw, fld, fld_lo, fld_hi, fld_all, Nat.reduceSub] <;> rfl
  unfold decodeVec32; rw [hz, h0, h1, if_neg (by decide)]
  refine Eq.trans (b := finish _ _) rfl ?_
  simp (disch := decide) only [hw, fld, fld_lo, fld_hi, fld_all, Nat.reduceSub]
  exact finish_ok rfl wf
theorem vmul (d : BitVec 5) (a b : BitVec 6) (y : BitVec 3) (t : BitVec 1) : Statement (.vmul d a b y t) := vec32 rfl rfl (by simp (disch := decide) only [fld, fld_lo, fld_all] <;> rfl) fun w hw hz wf => by
  have h0 : fld w 2 6 = 1#6 := by simp (disch := decide) only [hw, fld, fld_lo, fld_hi, fld_all, Nat.reduceSub] <;> rfl
  have h1 : fld w 8 4 = 2#4 := by simp (disch := decide) only [hw, fld, fld_lo, fld_hi, fld_all, Nat.reduceSub] <;> rfl
  unfold decodeVec32; rw [hz, h0, h1, if_neg (by decide)]
  refine Eq.trans (b := finish _ _) rfl ?_
  simp (disch := decide) only [hw, fld, fld_lo, fld_hi, fld_all, Nat.reduceSub]
  exact finish_ok rfl wf
theorem vdiv (d : BitVec 5) (a b : BitVec 6) (y : BitVec 3) (t : BitVec 1) : Statement (.vdiv d a b y t) := vec32 rfl rfl (by simp (disch := decide) only [fld, fld_lo, fld_all] <;> rfl) fun w hw hz wf => by
  have h0 : fld w 2 6 = 1#6 := by simp (disch := decide) only [hw, fld, fld_lo, fld_hi, fld_all, Nat.reduceSub] <;> rfl
  have h1 : fld w 8 4 = 3#4 := by simp (disch := decide) only [hw, fld, fld_lo, fld_hi, fld_all, Nat.reduceSub] <;> rfl
  unfold decodeVec32; rw [hz, h0, h1, if_neg (by decide)]
  refine Eq.trans (b := finish _ _) rfl ?_
  simp (disch := decide) only [hw, fld, fld_lo, fld_hi, fld_all, Nat.reduceSub]
  exact finish_ok rfl wf
theorem vmin (d : BitVec 5) (a b : BitVec 6) (y : BitVec 3) (t : BitVec 1) : Statement (.vmin d a b y t) := vec32 rfl rfl (by simp (disch := decide) only [fld, fld_lo, fld_all] <;> rfl) fun w hw hz wf => by
  have h0 : fld w 2 6 = 1#6 := by simp (disch := decide) only [hw, fld, fld_lo, fld_hi, fld_all, Nat.reduceSub] <;> rfl
  have h1 : fld w 8 4 = 4#4 := by simp (disch := decide) only [hw, fld, fld_lo, fld_hi, fld_all, Nat.reduceSub] <;> rfl
  unfold decodeVec32; rw [hz, h0, h1, if_neg (by decide)]
  refine Eq.trans (b := finish _ _) rfl ?_
  simp (disch := decide) only [hw, fld, fld_lo, fld_hi, fld_all, Nat.reduceSub]
  exact finish_ok rfl wf
theorem vmax (d : BitVec 5) (a b : BitVec 6) (y : BitVec 3) (t : BitVec 1) : Statement (.vmax d a b y t) := vec32 rfl rfl (by simp (disch := decide) only [fld, fld_lo, fld_all] <;> rfl) fun w hw hz wf => by
  have h0 : fld w 2 6 = 1#6 := by simp (disch := decide) only [hw, fld, fld_lo, fld_hi, fld_all, Nat.reduceSub] <;> rfl
  have h1 : fld w 8 4 = 5#4 := by simp (disch := decide) only [hw, fld, fld_lo, fld_hi, fld_all, Nat.reduceSub] <;> rfl
  unfold decodeVec32; rw [hz, h0, h1, if_neg (by decide)]
  refine Eq.trans (b := finish _ _) rfl ?_
  simp (disch := decide) only [hw, fld, fld_lo, fld_hi, fld_all, Nat.reduceSub]
  exact finish_ok rfl wf
theorem vcps (d : BitVec 5) (a b : BitVec 6) (y : BitVec 3) (t : BitVec 1) : Statement (.vcps d a b y t) := vec32 rfl rfl (by simp (disch := decide) only [fld, fld_lo, fld_all] <;> rfl) fun w hw hz wf => by
  have h0 : fld w 2 6 = 1#6 := by simp (disch := decide) only [hw, fld, fld_lo, fld_hi, fld_all, Nat.reduceSub] <;> rfl
  have h1 : fld w 8 4 = 6#4 := by simp (disch := decide) only [hw, fld, fld_lo, fld_hi, fld_all, Nat.reduceSub] <;> rfl
  unfold decodeVec32; rw [hz, h0, h1, if_neg (by decide)]
  refine Eq.trans (b := finish _ _) rfl ?_
  simp (disch := decide) only [hw, fld, fld_lo, fld_hi, fld_all, Nat.reduceSub]
  exact finish_ok rfl wf
theorem vsqrt (d : BitVec 5) (a : BitVec 6) (y : BitVec 3) (t : BitVec 1) : Statement (.vsqrt d a y t) := vec32 rfl rfl (by simp (disch := decide) only [fld, fld_lo, fld_all] <;> rfl) fun w hw hz wf => by
  have h0 : fld w 2 6 = 2#6 := by simp (disch := decide) only [hw, fld, fld_lo, fld_hi, fld_all, Nat.reduceSub] <;> rfl
  have h1 : fld w 8 4 = 0#4 := by simp (disch := decide) only [hw, fld, fld_lo, fld_hi, fld_all, Nat.reduceSub] <;> rfl
  unfold decodeVec32; rw [hz, h0, h1, if_neg (by decide)]
  refine Eq.trans (b := finish _ _) rfl ?_
  simp (disch := decide) only [hw, fld, fld_lo, fld_hi, fld_all, Nat.reduceSub]
  exact finish_ok rfl wf
theorem vrcp (d : BitVec 5) (a : BitVec 6) (y : BitVec 3) (t : BitVec 1) : Statement (.vrcp d a y t) := vec32 rfl rfl (by simp (disch := decide) only [fld, fld_lo, fld_all] <;> rfl) fun w hw hz wf => by
  have h0 : fld w 2 6 = 2#6 := by simp (disch := decide) only [hw, fld, fld_lo, fld_hi, fld_all, Nat.reduceSub] <;> rfl
  have h1 : fld w 8 4 = 1#4 := by simp (disch := decide) only [hw, fld, fld_lo, fld_hi, fld_all, Nat.reduceSub] <;> rfl
  unfold decodeVec32; rw [hz, h0, h1, if_neg (by decide)]
  refine Eq.trans (b := finish _ _) rfl ?_
  simp (disch := decide) only [hw, fld, fld_lo, fld_hi, fld_all, Nat.reduceSub]
  exact finish_ok rfl wf
theorem vexp2 (d : BitVec 5) (a : BitVec 6) (y : BitVec 3) (t : BitVec 1) : Statement (.vexp2 d a y t) := vec32 rfl rfl (by simp (disch := decide) only [fld, fld_lo, fld_all] <;> rfl) fun w hw hz wf => by
  have h0 : fld w 2 6 = 2#6 := by simp (disch := decide) only [hw, fld, fld_lo, fld_hi, fld_all, Nat.reduceSub] <;> rfl
  have h1 : fld w 8 4 = 2#4 := by simp (disch := decide) only [hw, fld, fld_lo, fld_hi, fld_all, Nat.reduceSub] <;> rfl
  unfold decodeVec32; rw [hz, h0, h1, if_neg (by decide)]
  refine Eq.trans (b := finish _ _) rfl ?_
  simp (disch := decide) only [hw, fld, fld_lo, fld_hi, fld_all, Nat.reduceSub]
  exact finish_ok rfl wf
theorem vlog2 (d : BitVec 5) (a : BitVec 6) (y : BitVec 3) (t : BitVec 1) : Statement (.vlog2 d a y t) := vec32 rfl rfl (by simp (disch := decide) only [fld, fld_lo, fld_all] <;> rfl) fun w hw hz wf => by
  have h0 : fld w 2 6 = 2#6 := by simp (disch := decide) only [hw, fld, fld_lo, fld_hi, fld_all, Nat.reduceSub] <;> rfl
  have h1 : fld w 8 4 = 3#4 := by simp (disch := decide) only [hw, fld, fld_lo, fld_hi, fld_all, Nat.reduceSub] <;> rfl
  unfold decodeVec32; rw [hz, h0, h1, if_neg (by decide)]
  refine Eq.trans (b := finish _ _) rfl ?_
  simp (disch := decide) only [hw, fld, fld_lo, fld_hi, fld_all, Nat.reduceSub]
  exact finish_ok rfl wf
theorem vabs (d : BitVec 5) (a : BitVec 6) (y : BitVec 3) (t : BitVec 1) : Statement (.vabs d a y t) := vec32 rfl rfl (by simp (disch := decide) only [fld, fld_lo, fld_all] <;> rfl) fun w hw hz wf => by
  have h0 : fld w 2 6 = 2#6 := by simp (disch := decide) only [hw, fld, fld_lo, fld_hi, fld_all, Nat.reduceSub] <;> rfl
  have h1 : fld w 8 4 = 4#4 := by simp (disch := decide) only [hw, fld, fld_lo, fld_hi, fld_all, Nat.reduceSub] <;> rfl
  unfold decodeVec32; rw [hz, h0, h1, if_neg (by decide)]
  refine Eq.trans (b := finish _ _) rfl ?_
  simp (disch := decide) only [hw, fld, fld_lo, fld_hi, fld_all, Nat.reduceSub]
  exact finish_ok rfl wf
theorem vneg (d : BitVec 5) (a : BitVec 6) (y : BitVec 3) (t : BitVec 1) : Statement (.vneg d a y t) := vec32 rfl rfl (by simp (disch := decide) only [fld, fld_lo, fld_all] <;> rfl) fun w hw hz wf => by
  have h0 : fld w 2 6 = 2#6 := by simp (disch := decide) only [hw, fld, fld_lo, fld_hi, fld_all, Nat.reduceSub] <;> rfl
  have h1 : fld w 8 4 = 5#4 := by simp (disch := decide) only [hw, fld, fld_lo, fld_hi, fld_all, Nat.reduceSub] <;> rfl
  unfold decodeVec32; rw [hz, h0, h1, if_neg (by decide)]
  refine Eq.trans (b := finish _ _) rfl ?_
  simp (disch := decide) only [hw, fld, fld_lo, fld_hi, fld_all, Nat.reduceSub]
  exact finish_ok rfl wf
theorem vcmp (m : BitVec 3) (a b : BitVec 6) (y : BitVec 3) (c : BitVec 4) (t : BitVec 1) : Statement (.vcmp m a b y c t) := vec32 rfl rfl (by simp (disch := decide) only [fld, fld_lo, fld_all] <;> rfl) fun w hw hz wf => by
  have h0 : fld w 2 6 = 3#6 := by simp (disch := decide) only [hw, fld, fld_lo, fld_hi, fld_all, Nat.reduceSub] <;> rfl
  unfold decodeVec32; rw [hz, h0, if_neg (by decide)]
  refine Eq.trans (b := finish _ _) rfl ?_
  simp (disch := decide) only [hw, fld, fld_lo, fld_hi, fld_all, Nat.reduceSub]
  exact finish_ok rfl wf
theorem vsel (d : BitVec 5) (a b : BitVec 6) (k : BitVec 3) (t : BitVec 1) : Statement (.vsel d a b k t) := vec32 rfl rfl (by simp (disch := decide) only [fld, fld_lo, fld_all] <;> rfl) fun w hw hz wf => by
  have h0 : fld w 2 6 = 4#6 := by simp (disch := decide) only [hw, fld, fld_lo, fld_hi, fld_all, Nat.reduceSub] <;> rfl
  have h1 : fld w 8 4 = 0#4 := by simp (disch := decide) only [hw, fld, fld_lo, fld_hi, fld_all, Nat.reduceSub] <;> rfl
  unfold decodeVec32; rw [hz, h0, h1, if_neg (by decide)]
  refine Eq.trans (b := finish _ _) rfl ?_
  simp (disch := decide) only [hw, fld, fld_lo, fld_hi, fld_all, Nat.reduceSub]
  exact finish_ok rfl wf
theorem viadd (d : BitVec 5) (a b : BitVec 6) (y : BitVec 3) (t : BitVec 1) : Statement (.viadd d a b y t) := vec32 rfl rfl (by simp (disch := decide) only [fld, fld_lo, fld_all] <;> rfl) fun w hw hz wf => by
  have h0 : fld w 2 6 = 5#6 := by simp (disch := decide) only [hw, fld, fld_lo, fld_hi, fld_all, Nat.reduceSub] <;> rfl
  have h1 : fld w 8 4 = 0#4 := by simp (disch := decide) only [hw, fld, fld_lo, fld_hi, fld_all, Nat.reduceSub] <;> rfl
  unfold decodeVec32; rw [hz, h0, h1, if_neg (by decide)]
  refine Eq.trans (b := finish _ _) rfl ?_
  simp (disch := decide) only [hw, fld, fld_lo, fld_hi, fld_all, Nat.reduceSub]
  exact finish_ok rfl wf
theorem visub (d : BitVec 5) (a b : BitVec 6) (y : BitVec 3) (t : BitVec 1) : Statement (.visub d a b y t) := vec32 rfl rfl (by simp (disch := decide) only [fld, fld_lo, fld_all] <;> rfl) fun w hw hz wf => by
  have h0 : fld w 2 6 = 5#6 := by simp (disch := decide) only [hw, fld, fld_lo, fld_hi, fld_all, Nat.reduceSub] <;> rfl
  have h1 : fld w 8 4 = 1#4 := by simp (disch := decide) only [hw, fld, fld_lo, fld_hi, fld_all, Nat.reduceSub] <;> rfl
  unfold decodeVec32; rw [hz, h0, h1, if_neg (by decide)]
  refine Eq.trans (b := finish _ _) rfl ?_
  simp (disch := decide) only [hw, fld, fld_lo, fld_hi, fld_all, Nat.reduceSub]
  exact finish_ok rfl wf
theorem vimul (d : BitVec 5) (a b : BitVec 6) (y : BitVec 3) (t : BitVec 1) : Statement (.vimul d a b y t) := vec32 rfl rfl (by simp (disch := decide) only [fld, fld_lo, fld_all] <;> rfl) fun w hw hz wf => by
  have h0 : fld w 2 6 = 5#6 := by simp (disch := decide) only [hw, fld, fld_lo, fld_hi, fld_all, Nat.reduceSub] <;> rfl
  have h1 : fld w 8 4 = 2#4 := by simp (disch := decide) only [hw, fld, fld_lo, fld_hi, fld_all, Nat.reduceSub] <;> rfl
  unfold decodeVec32; rw [hz, h0, h1, if_neg (by decide)]
  refine Eq.trans (b := finish _ _) rfl ?_
  simp (disch := decide) only [hw, fld, fld_lo, fld_hi, fld_all, Nat.reduceSub]
  exact finish_ok rfl wf
theorem vshl (d : BitVec 5) (a b : BitVec 6) (y : BitVec 3) (t : BitVec 1) : Statement (.vshl d a b y t) := vec32 rfl rfl (by simp (disch := decide) only [fld, fld_lo, fld_all] <;> rfl) fun w hw hz wf => by
  have h0 : fld w 2 6 = 5#6 := by simp (disch := decide) only [hw, fld, fld_lo, fld_hi, fld_all, Nat.reduceSub] <;> rfl
  have h1 : fld w 8 4 = 3#4 := by simp (disch := decide) only [hw, fld, fld_lo, fld_hi, fld_all, Nat.reduceSub] <;> rfl
  unfold decodeVec32; rw [hz, h0, h1, if_neg (by decide)]
  refine Eq.trans (b := finish _ _) rfl ?_
  simp (disch := decide) only [hw, fld, fld_lo, fld_hi, fld_all, Nat.reduceSub]
  exact finish_ok rfl wf
theorem vshr (d : BitVec 5) (a b : BitVec 6) (y : BitVec 3) (t : BitVec 1) : Statement (.vshr d a b y t) := vec32 rfl rfl (by simp (disch := decide) only [fld, fld_lo, fld_all] <;> rfl) fun w hw hz wf => by
  have h0 : fld w 2 6 = 5#6 := by simp (disch := decide) only [hw, fld, fld_lo, fld_hi, fld_all, Nat.reduceSub] <;> rfl
  have h1 : fld w 8 4 = 4#4 := by simp (disch := decide) only [hw, fld, fld_lo, fld_hi, fld_all, Nat.reduceSub] <;> rfl
  unfold decodeVec32; rw [hz, h0, h1, if_neg (by decide)]
  refine Eq.trans (b := finish _ _) rfl ?_
  simp (disch := decide) only [hw, fld, fld_lo, fld_hi, fld_all, Nat.reduceSub]
  exact finish_ok rfl wf
theorem vsar (d : BitVec 5) (a b : BitVec 6) (y : BitVec 3) (t : BitVec 1) : Statement (.vsar d a b y t) := vec32 rfl rfl (by simp (disch := decide) only [fld, fld_lo, fld_all] <;> rfl) fun w hw hz wf => by
  have h0 : fld w 2 6 = 5#6 := by simp (disch := decide) only [hw, fld, fld_lo, fld_hi, fld_all, Nat.reduceSub] <;> rfl
  have h1 : fld w 8 4 = 5#4 := by simp (disch := decide) only [hw, fld, fld_lo, fld_hi, fld_all, Nat.reduceSub] <;> rfl
  unfold decodeVec32; rw [hz, h0, h1, if_neg (by decide)]
  refine Eq.trans (b := finish _ _) rfl ?_
  simp (disch := decide) only [hw, fld, fld_lo, fld_hi, fld_all, Nat.reduceSub]
  exact finish_ok rfl wf
theorem vand (d : BitVec 5) (a b : BitVec 6) (y : BitVec 3) (t : BitVec 1) : Statement (.vand d a b y t) := vec32 rfl rfl (by simp (disch := decide) only [fld, fld_lo, fld_all] <;> rfl) fun w hw hz wf => by
  have h0 : fld w 2 6 = 5#6 := by simp (disch := decide) only [hw, fld, fld_lo, fld_hi, fld_all, Nat.reduceSub] <;> rfl
  have h1 : fld w 8 4 = 6#4 := by simp (disch := decide) only [hw, fld, fld_lo, fld_hi, fld_all, Nat.reduceSub] <;> rfl
  unfold decodeVec32; rw [hz, h0, h1, if_neg (by decide)]
  refine Eq.trans (b := finish _ _) rfl ?_
  simp (disch := decide) only [hw, fld, fld_lo, fld_hi, fld_all, Nat.reduceSub]
  exact finish_ok rfl wf
theorem vor (d : BitVec 5) (a b : BitVec 6) (y : BitVec 3) (t : BitVec 1) : Statement (.vor d a b y t) := vec32 rfl rfl (by simp (disch := decide) only [fld, fld_lo, fld_all] <;> rfl) fun w hw hz wf => by
  have h0 : fld w 2 6 = 5#6 := by simp (disch := decide) only [hw, fld, fld_lo, fld_hi, fld_all, Nat.reduceSub] <;> rfl
  have h1 : fld w 8 4 = 7#4 := by simp (disch := decide) only [hw, fld, fld_lo, fld_hi, fld_all, Nat.reduceSub] <;> rfl
  unfold decodeVec32; rw [hz, h0, h1, if_neg (by decide)]
  refine Eq.trans (b := finish _ _) rfl ?_
  simp (disch := decide) only [hw, fld, fld_lo, fld_hi, fld_all, Nat.reduceSub]
  exact finish_ok rfl wf
theorem vxor (d : BitVec 5) (a b : BitVec 6) (y : BitVec 3) (t : BitVec 1) : Statement (.vxor d a b y t) := vec32 rfl rfl (by simp (disch := decide) only [fld, fld_lo, fld_all] <;> rfl) fun w hw hz wf => by
  have h0 : fld w 2 6 = 5#6 := by simp (disch := decide) only [hw, fld, fld_lo, fld_hi, fld_all, Nat.reduceSub] <;> rfl
  have h1 : fld w 8 4 = 8#4 := by simp (disch := decide) only [hw, fld, fld_lo, fld_hi, fld_all, Nat.reduceSub] <;> rfl
  unfold decodeVec32; rw [hz, h0, h1, if_neg (by decide)]
  refine Eq.trans (b := finish _ _) rfl ?_
  simp (disch := decide) only [hw, fld, fld_lo, fld_hi, fld_all, Nat.reduceSub]
  exact finish_ok rfl wf
theorem vpopc (d : BitVec 5) (a : BitVec 6) (y : BitVec 3) (t : BitVec 1) : Statement (.vpopc d a y t) := vec32 rfl rfl (by simp (disch := decide) only [fld, fld_lo, fld_all] <;> rfl) fun w hw hz wf => by
  have h0 : fld w 2 6 = 6#6 := by simp (disch := decide) only [hw, fld, fld_lo, fld_hi, fld_all, Nat.reduceSub] <;> rfl
  have h1 : fld w 8 4 = 0#4 := by simp (disch := decide) only [hw, fld, fld_lo, fld_hi, fld_all, Nat.reduceSub] <;> rfl
  unfold decodeVec32; rw [hz, h0, h1, if_neg (by decide)]
  refine Eq.trans (b := finish _ _) rfl ?_
  simp (disch := decide) only [hw, fld, fld_lo, fld_hi, fld_all, Nat.reduceSub]
  exact finish_ok rfl wf
theorem vclz (d : BitVec 5) (a : BitVec 6) (y : BitVec 3) (t : BitVec 1) : Statement (.vclz d a y t) := vec32 rfl rfl (by simp (disch := decide) only [fld, fld_lo, fld_all] <;> rfl) fun w hw hz wf => by
  have h0 : fld w 2 6 = 6#6 := by simp (disch := decide) only [hw, fld, fld_lo, fld_hi, fld_all, Nat.reduceSub] <;> rfl
  have h1 : fld w 8 4 = 1#4 := by simp (disch := decide) only [hw, fld, fld_lo, fld_hi, fld_all, Nat.reduceSub] <;> rfl
  unfold decodeVec32; rw [hz, h0, h1, if_neg (by decide)]
  refine Eq.trans (b := finish _ _) rfl ?_
  simp (disch := decide) only [hw, fld, fld_lo, fld_hi, fld_all, Nat.reduceSub]
  exact finish_ok rfl wf
theorem vcmpInt (m : BitVec 3) (a b : BitVec 6) (y : BitVec 3) (c : BitVec 4) (t : BitVec 1) : Statement (.vcmpInt m a b y c t) := vec32 rfl rfl (by simp (disch := decide) only [fld, fld_lo, fld_all] <;> rfl) fun w hw hz wf => by
  have h0 : fld w 2 6 = 7#6 := by simp (disch := decide) only [hw, fld, fld_lo, fld_hi, fld_all, Nat.reduceSub] <;> rfl
  unfold decodeVec32; rw [hz, h0, if_neg (by decide)]
  refine Eq.trans (b := finish _ _) rfl ?_
  simp (disch := decide) only [hw, fld, fld_lo, fld_hi, fld_all, Nat.reduceSub]
  exact finish_ok rfl wf
theorem vfma (d : BitVec 5) (a b c : BitVec 6) (y : BitVec 3) (t : BitVec 1) : Statement (.vfma d a b c y t) := vec64 rfl rfl (by simp (disch := decide) only [fld, fld_lo, fld_all] <;> rfl) fun w hw hz wf => by
  have h0 : fld w 2 6 = 8#6 := by simp (disch := decide) only [hw, fld, fld_lo, fld_hi, fld_all, Nat.reduceSub] <;> rfl
  have h1 : fld w 8 4 = 0#4 := by simp (disch := decide) only [hw, fld, fld_lo, fld_hi, fld_all, Nat.reduceSub] <;> rfl
  unfold decodeVec64; rw [hz, h0, h1]; rw [if_neg (by decide)]
  refine Eq.trans (b := finish _ _) rfl ?_
  simp (disch := decide) only [hw, fld, fld_lo, fld_hi, fld_all, Nat.reduceSub]
  exact finish_ok rfl wf
theorem vfms (d : BitVec 5) (a b c : BitVec 6) (y : BitVec 3) (t : BitVec 1) : Statement (.vfms d a b c y t) := vec64 rfl rfl (by simp (disch := decide) only [fld, fld_lo, fld_all] <;> rfl) fun w hw hz wf => by
  have h0 : fld w 2 6 = 8#6 := by simp (disch := decide) only [hw, fld, fld_lo, fld_hi, fld_all, Nat.reduceSub] <;> rfl
  have h1 : fld w 8 4 = 1#4 := by simp (disch := decide) only [hw, fld, fld_lo, fld_hi, fld_all, Nat.reduceSub] <;> rfl
  unfold decodeVec64; rw [hz, h0, h1]; rw [if_neg (by decide)]
  refine Eq.trans (b := finish _ _) rfl ?_
  simp (disch := decide) only [hw, fld, fld_lo, fld_hi, fld_all, Nat.reduceSub]
  exact finish_ok rfl wf
theorem vnfma (d : BitVec 5) (a b c : BitVec 6) (y : BitVec 3) (t : BitVec 1) : Statement (.vnfma d a b c y t) := vec64 rfl rfl (by simp (disch := decide) only [fld, fld_lo, fld_all] <;> rfl) fun w hw hz wf => by
  have h0 : fld w 2 6 = 8#6 := by simp (disch := decide) only [hw, fld, fld_lo, fld_hi, fld_all, Nat.reduceSub] <;> rfl
  have h1 : fld w 8 4 = 2#4 := by simp (disch := decide) only [hw, fld, fld_lo, fld_hi, fld_all, Nat.reduceSub] <;> rfl
  unfold decodeVec64; rw [hz, h0, h1]; rw [if_neg (by decide)]
  refine Eq.trans (b := finish _ _) rfl ?_
  simp (disch := decide) only [hw, fld, fld_lo, fld_hi, fld_all, Nat.reduceSub]
  exact finish_ok rfl wf
theorem vimad (d : BitVec 5) (a b c : BitVec 6) (y : BitVec 3) (t : BitVec 1) : Statement (.vimad d a b c y t) := vec64 rfl rfl (by simp (disch := decide) only [fld, fld_lo, fld_all] <;> rfl) fun w hw hz wf => by
  have h0 : fld w 2 6 = 9#6 := by simp (disch := decide) only [hw, fld, fld_lo, fld_hi, fld_all, Nat.reduceSub] <;> rfl
  have h1 : fld w 8 4 = 0#4 := by simp (disch := decide) only [hw, fld, fld_lo, fld_hi, fld_all, Nat.reduceSub] <;> rfl
  unfold decodeVec64; rw [hz, h0, h1]; rw [if_neg (by decide)]
  refine Eq.trans (b := finish _ _) rfl ?_
  simp (disch := decide) only [hw, fld, fld_lo, fld_hi, fld_all, Nat.reduceSub]
  exact finish_ok rfl wf
theorem vbfx (d : BitVec 5) (a : BitVec 6) (y : BitVec 3) (o : BitVec 6) (k : BitVec 7) (t : BitVec 1) : Statement (.vbfx d a y o k t) := vec64 rfl rfl (by simp (disch := decide) only [fld, fld_lo, fld_all] <;> rfl) fun w hw hz wf => by
  have h0 : fld w 2 6 = 10#6 := by simp (disch := decide) only [hw, fld, fld_lo, fld_hi, fld_all, Nat.reduceSub] <;> rfl
  have h1 : fld w 8 4 = 0#4 := by simp (disch := decide) only [hw, fld, fld_lo, fld_hi, fld_all, Nat.reduceSub] <;> rfl
  unfold decodeVec64; rw [hz, h0, h1]; rw [if_neg (by decide)]
  refine Eq.trans (b := finish _ _) rfl ?_
  simp (disch := decide) only [hw, fld, fld_lo, fld_hi, fld_all, Nat.reduceSub]
  exact finish_ok rfl wf
theorem vbfi (d : BitVec 5) (a : BitVec 6) (y : BitVec 3) (o : BitVec 6) (k : BitVec 7) (t : BitVec 1) : Statement (.vbfi d a y o k t) := vec64 rfl rfl (by simp (disch := decide) only [fld, fld_lo, fld_all] <;> rfl) fun w hw hz wf => by
  have h0 : fld w 2 6 = 10#6 := by simp (disch := decide) only [hw, fld, fld_lo, fld_hi, fld_all, Nat.reduceSub] <;> rfl
  have h1 : fld w 8 4 = 1#4 := by simp (disch := decide) only [hw, fld, fld_lo, fld_hi, fld_all, Nat.reduceSub] <;> rfl
  unfold decodeVec64; rw [hz, h0, h1]; rw [if_neg (by decide)]
  refine Eq.trans (b := finish _ _) rfl ?_
  simp (disch := decide) only [hw, fld, fld_lo, fld_hi, fld_all, Nat.reduceSub]
  exact finish_ok rfl wf
theorem vfsh (d : BitVec 5) (a b : BitVec 6) (y : BitVec 3) (o : BitVec 6) (k : BitVec 7) (t : BitVec 1) : Statement (.vfsh d a b y o k t) := vec64 rfl rfl (by simp (disch := decide) only [fld, fld_lo, fld_all] <;> rfl) fun w hw hz wf => by
  have h0 : fld w 2 6 = 10#6 := by simp (disch := decide) only [hw, fld, fld_lo, fld_hi, fld_all, Nat.reduceSub] <;> rfl
  have h1 : fld w 8 4 = 2#4 := by simp (disch := decide) only [hw, fld, fld_lo, fld_hi, fld_all, Nat.reduceSub] <;> rfl
  unfold decodeVec64; rw [hz, h0, h1]; rw [if_neg (by decide)]
  refine Eq.trans (b := finish _ _) rfl ?_
  simp (disch := decide) only [hw, fld, fld_lo, fld_hi, fld_all, Nat.reduceSub]
  exact finish_ok rfl wf
theorem vcvt (d : BitVec 5) (a : BitVec 6) (dt st : BitVec 5) (t : BitVec 1) : Statement (.vcvt d a dt st t) := vec64 rfl rfl (by simp (disch := decide) only [fld, fld_lo, fld_all] <;> rfl) fun w hw hz wf => by
  have h0 : fld w 2 6 = 11#6 := by simp (disch := decide) only [hw, fld, fld_lo, fld_hi, fld_all, Nat.reduceSub] <;> rfl
  unfold decodeVec64; rw [hz, h0]; rw [if_neg (by decide)]
  refine Eq.trans (b := finish _ _) rfl ?_
  simp (disch := decide) only [hw, fld, fld_lo, fld_hi, fld_all, Nat.reduceSub]
  exact finish_ok rfl wf
theorem vredsum (d : BitVec 5) (a : BitVec 6) (y : BitVec 3) (g r t : BitVec 1) : Statement (.vredsum d a y g r t) := vec32 rfl rfl (by simp (disch := decide) only [fld, fld_lo, fld_all] <;> rfl) fun w hw hz wf => by
  have h0 : fld w 2 6 = 12#6 := by simp (disch := decide) only [hw, fld, fld_lo, fld_hi, fld_all, Nat.reduceSub] <;> rfl
  have h1 : fld w 9 2 = 0#2 := by simp (disch := decide) only [hw, fld, fld_lo, fld_hi, fld_all, Nat.reduceSub] <;> rfl
  unfold decodeVec32; rw [hz, h0, h1, if_neg (by decide)]
  refine Eq.trans (b := finish _ _) rfl ?_
  simp (disch := decide) only [hw, fld, fld_lo, fld_hi, fld_all, Nat.reduceSub]
  exact finish_ok rfl wf
theorem vredmax (d : BitVec 5) (a : BitVec 6) (y : BitVec 3) (g r t : BitVec 1) : Statement (.vredmax d a y g r t) := vec32 rfl rfl (by simp (disch := decide) only [fld, fld_lo, fld_all] <;> rfl) fun w hw hz wf => by
  have h0 : fld w 2 6 = 12#6 := by simp (disch := decide) only [hw, fld, fld_lo, fld_hi, fld_all, Nat.reduceSub] <;> rfl
  have h1 : fld w 9 2 = 1#2 := by simp (disch := decide) only [hw, fld, fld_lo, fld_hi, fld_all, Nat.reduceSub] <;> rfl
  unfold decodeVec32; rw [hz, h0, h1, if_neg (by decide)]
  refine Eq.trans (b := finish _ _) rfl ?_
  simp (disch := decide) only [hw, fld, fld_lo, fld_hi, fld_all, Nat.reduceSub]
  exact finish_ok rfl wf
theorem vredmin (d : BitVec 5) (a : BitVec 6) (y : BitVec 3) (g r t : BitVec 1) : Statement (.vredmin d a y g r t) := vec32 rfl rfl (by simp (disch := decide) only [fld, fld_lo, fld_all] <;> rfl) fun w hw hz wf => by
  have h0 : fld w 2 6 = 12#6 := by simp (disch := decide) only [hw, fld, fld_lo, fld_hi, fld_all, Nat.reduceSub] <;> rfl
  have h1 : fld w 9 2 = 2#2 := by simp (disch := decide) only [hw, fld, fld_lo, fld_hi, fld_all, Nat.reduceSub] <;> rfl
  unfold decodeVec32; rw [hz, h0, h1, if_neg (by decide)]
  refine Eq.trans (b := finish _ _) rfl ?_
  simp (disch := decide) only [hw, fld, fld_lo, fld_hi, fld_all, Nat.reduceSub]
  exact finish_ok rfl wf
theorem vmov (d : BitVec 5) (a : BitVec 6) (t : BitVec 1) : Statement (.vmov d a t) := vec32 rfl rfl (by simp (disch := decide) only [fld, fld_lo, fld_all] <;> rfl) fun w hw hz wf => by
  have h0 : fld w 2 6 = 13#6 := by simp (disch := decide) only [hw, fld, fld_lo, fld_hi, fld_all, Nat.reduceSub] <;> rfl
  have h1 : fld w 8 4 = 0#4 := by simp (disch := decide) only [hw, fld, fld_lo, fld_hi, fld_all, Nat.reduceSub] <;> rfl
  unfold decodeVec32; rw [hz, h0, h1, if_neg (by decide)]
  refine Eq.trans (b := finish _ _) rfl ?_
  simp (disch := decide) only [hw, fld, fld_lo, fld_hi, fld_all, Nat.reduceSub]
  exact finish_ok rfl wf
theorem vbcast (d s : BitVec 5) (t : BitVec 1) : Statement (.vbcast d s t) := vec32 rfl rfl (by simp (disch := decide) only [fld, fld_lo, fld_all] <;> rfl) fun w hw hz wf => by
  have h0 : fld w 2 6 = 13#6 := by simp (disch := decide) only [hw, fld, fld_lo, fld_hi, fld_all, Nat.reduceSub] <;> rfl
  have h1 : fld w 8 4 = 1#4 := by simp (disch := decide) only [hw, fld, fld_lo, fld_hi, fld_all, Nat.reduceSub] <;> rfl
  unfold decodeVec32; rw [hz, h0, h1, if_neg (by decide)]
  refine Eq.trans (b := finish _ _) rfl ?_
  simp (disch := decide) only [hw, fld, fld_lo, fld_hi, fld_all, Nat.reduceSub]
  exact finish_ok rfl wf
theorem vtrans (d : BitVec 5) (a : BitVec 6) (t : BitVec 1) : Statement (.vtrans d a t) := vec32 rfl rfl (by simp (disch := decide) only [fld, fld_lo, fld_all] <;> rfl) fun w hw hz wf => by
  have h0 : fld w 2 6 = 13#6 := by simp (disch := decide) only [hw, fld, fld_lo, fld_hi, fld_all, Nat.reduceSub] <;> rfl
  have h1 : fld w 8 4 = 2#4 := by simp (disch := decide) only [hw, fld, fld_lo, fld_hi, fld_all, Nat.reduceSub] <;> rfl
  unfold decodeVec32; rw [hz, h0, h1, if_neg (by decide)]
  refine Eq.trans (b := finish _ _) rfl ?_
  simp (disch := decide) only [hw, fld, fld_lo, fld_hi, fld_all, Nat.reduceSub]
  exact finish_ok rfl wf
theorem vrotRow (d : BitVec 5) (a : BitVec 6) (s : BitVec 5) (t : BitVec 1) : Statement (.vrotRow d a s t) := vec32 rfl rfl (by simp (disch := decide) only [fld, fld_lo, fld_all] <;> rfl) fun w hw hz wf => by
  have h0 : fld w 2 6 = 13#6 := by simp (disch := decide) only [hw, fld, fld_lo, fld_hi, fld_all, Nat.reduceSub] <;> rfl
  have h1 : fld w 8 4 = 3#4 := by simp (disch := decide) only [hw, fld, fld_lo, fld_hi, fld_all, Nat.reduceSub] <;> rfl
  unfold decodeVec32; rw [hz, h0, h1, if_neg (by decide)]
  refine Eq.trans (b := finish _ _) rfl ?_
  simp (disch := decide) only [hw, fld, fld_lo, fld_hi, fld_all, Nat.reduceSub]
  exact finish_ok rfl wf
theorem vrotCol (d : BitVec 5) (a : BitVec 6) (s : BitVec 5) (t : BitVec 1) : Statement (.vrotCol d a s t) := vec32 rfl rfl (by simp (disch := decide) only [fld, fld_lo, fld_all] <;> rfl) fun w hw hz wf => by
  have h0 : fld w 2 6 = 13#6 := by simp (disch := decide) only [hw, fld, fld_lo, fld_hi, fld_all, Nat.reduceSub] <;> rfl
  have h1 : fld w 8 4 = 4#4 := by simp (disch := decide) only [hw, fld, fld_lo, fld_hi, fld_all, Nat.reduceSub] <;> rfl
  unfold decodeVec32; rw [hz, h0, h1, if_neg (by decide)]
  refine Eq.trans (b := finish _ _) rfl ?_
  simp (disch := decide) only [hw, fld, fld_lo, fld_hi, fld_all, Nat.reduceSub]
  exact finish_ok rfl wf
theorem vperm (d : BitVec 5) (a b : BitVec 6) (t : BitVec 1) : Statement (.vperm d a b t) := vec32 rfl rfl (by simp (disch := decide) only [fld, fld_lo, fld_all] <;> rfl) fun w hw hz wf => by
  have h0 : fld w 2 6 = 13#6 := by simp (disch := decide) only [hw, fld, fld_lo, fld_hi, fld_all, Nat.reduceSub] <;> rfl
  have h1 : fld w 8 4 = 5#4 := by simp (disch := decide) only [hw, fld, fld_lo, fld_hi, fld_all, Nat.reduceSub] <;> rfl
  unfold decodeVec32; rw [hz, h0, h1, if_neg (by decide)]
  refine Eq.trans (b := finish _ _) rfl ?_
  simp (disch := decide) only [hw, fld, fld_lo, fld_hi, fld_all, Nat.reduceSub]
  exact finish_ok rfl wf
theorem vbcastImm (d : BitVec 5) (i : BitVec 32) (h t : BitVec 1) : Statement (.vbcastImm d i h t) := vec64 rfl rfl (by simp (disch := decide) only [fld, fld_lo, fld_all] <;> rfl) fun w hw hz wf => by
  have h0 : fld w 2 6 = 14#6 := by simp (disch := decide) only [hw, fld, fld_lo, fld_hi, fld_all, Nat.reduceSub] <;> rfl
  unfold decodeVec64; rw [hz, h0]; rw [if_neg (by decide)]
  refine Eq.trans (b := finish _ _) rfl ?_
  simp (disch := decide) only [hw, fld, fld_lo, fld_hi, fld_all, Nat.reduceSub]
  rw [join_all]
  exact finish_ok rfl wf
theorem vshapeset (r : BitVec 7) (c : BitVec 12) (w : BitVec 2) (t : BitVec 1) : Statement (.vshapeset r c w t) := vec32 rfl rfl (by simp (disch := decide) only [fld, fld_lo, fld_all] <;> rfl) fun w hw hz wf => by
  have h0 : fld w 2 6 = 15#6 := by simp (disch := decide) only [hw, fld, fld_lo, fld_hi, fld_all, Nat.reduceSub] <;> rfl
  unfold decodeVec32; rw [hz, h0, if_neg (by decide)]
  refine Eq.trans (b := finish _ _) rfl ?_
  simp (disch := decide) only [hw, fld, fld_lo, fld_hi, fld_all, Nat.reduceSub]
  exact finish_ok rfl wf
theorem bnet (d : BitVec 5) (a b : BitVec 6) (p : BitVec 3) (t : BitVec 1) : Statement (.bnet d a b p t) := vec32 rfl rfl (by simp (disch := decide) only [fld, fld_lo, fld_all] <;> rfl) fun w hw hz wf => by
  have h0 : fld w 2 6 = 16#6 := by simp (disch := decide) only [hw, fld, fld_lo, fld_hi, fld_all, Nat.reduceSub] <;> rfl
  have h1 : fld w 8 4 = 0#4 := by simp (disch := decide) only [hw, fld, fld_lo, fld_hi, fld_all, Nat.reduceSub] <;> rfl
  unfold decodeVec32; rw [hz, h0, h1, if_neg (by decide)]
  refine Eq.trans (b := finish _ _) rfl ?_
  simp (disch := decide) only [hw, fld, fld_lo, fld_hi, fld_all, Nat.reduceSub]
  exact finish_ok rfl wf
theorem bnload (a : BitVec 6) (p : BitVec 3) (t : BitVec 1) : Statement (.bnload a p t) := vec32 rfl rfl (by simp (disch := decide) only [fld, fld_lo, fld_all] <;> rfl) fun w hw hz wf => by
  have h0 : fld w 2 6 = 17#6 := by simp (disch := decide) only [hw, fld, fld_lo, fld_hi, fld_all, Nat.reduceSub] <;> rfl
  have h1 : fld w 8 4 = 0#4 := by simp (disch := decide) only [hw, fld, fld_lo, fld_hi, fld_all, Nat.reduceSub] <;> rfl
  unfold decodeVec32; rw [hz, h0, h1, if_neg (by decide)]
  refine Eq.trans (b := finish _ _) rfl ?_
  simp (disch := decide) only [hw, fld, fld_lo, fld_hi, fld_all, Nat.reduceSub]
  exact finish_ok rfl wf
theorem vld (d a s : BitVec 5) (w u : BitVec 2) (o : BitVec 20) (t : BitVec 1) : Statement (.vld d a s w u o t) := vec64 rfl rfl (by simp (disch := decide) only [fld, fld_lo, fld_all] <;> rfl) fun w hw hz wf => by
  have h0 : fld w 2 6 = 18#6 := by simp (disch := decide) only [hw, fld, fld_lo, fld_hi, fld_all, Nat.reduceSub] <;> rfl
  unfold decodeVec64; rw [hz, h0]; rw [if_neg (by decide)]
  refine Eq.trans (b := finish _ _) rfl ?_
  simp (disch := decide) only [hw, fld, fld_lo, fld_hi, fld_all, Nat.reduceSub]
  exact finish_ok rfl wf
theorem vst (d a s : BitVec 5) (w u : BitVec 2) (o : BitVec 20) (t : BitVec 1) : Statement (.vst d a s w u o t) := vec64 rfl rfl (by simp (disch := decide) only [fld, fld_lo, fld_all] <;> rfl) fun w hw hz wf => by
  have h0 : fld w 2 6 = 19#6 := by simp (disch := decide) only [hw, fld, fld_lo, fld_hi, fld_all, Nat.reduceSub] <;> rfl
  unfold decodeVec64; rw [hz, h0]; rw [if_neg (by decide)]
  refine Eq.trans (b := finish _ _) rfl ?_
  simp (disch := decide) only [hw, fld, fld_lo, fld_hi, fld_all, Nat.reduceSub]
  exact finish_ok rfl wf
theorem vlda (d : BitVec 5) (c : BitVec 4) (r k : BitVec 6) (t : BitVec 1) : Statement (.vlda d c r k t) := vec32 rfl rfl (by simp (disch := decide) only [fld, fld_lo, fld_all] <;> rfl) fun w hw hz wf => by
  have h0 : fld w 2 6 = 20#6 := by simp (disch := decide) only [hw, fld, fld_lo, fld_hi, fld_all, Nat.reduceSub] <;> rfl
  have h1 : fld w 10 1 = 0#1 := by simp (disch := decide) only [hw, fld, fld_lo, fld_hi, fld_all, Nat.reduceSub] <;> rfl
  unfold decodeVec32; rw [hz, h0, h1, if_neg (by decide)]
  refine Eq.trans (b := finish _ _) rfl ?_
  simp (disch := decide) only [hw, fld, fld_lo, fld_hi, fld_all, Nat.reduceSub]
  exact finish_ok rfl wf
theorem vsta (d : BitVec 5) (c : BitVec 4) (r k : BitVec 6) (t : BitVec 1) : Statement (.vsta d c r k t) := vec32 rfl rfl (by simp (disch := decide) only [fld, fld_lo, fld_all] <;> rfl) fun w hw hz wf => by
  have h0 : fld w 2 6 = 20#6 := by simp (disch := decide) only [hw, fld, fld_lo, fld_hi, fld_all, Nat.reduceSub] <;> rfl
  have h1 : fld w 10 1 = 1#1 := by simp (disch := decide) only [hw, fld, fld_lo, fld_hi, fld_all, Nat.reduceSub] <;> rfl
  unfold decodeVec32; rw [hz, h0, h1, if_neg (by decide)]
  refine Eq.trans (b := finish _ _) rfl ?_
  simp (disch := decide) only [hw, fld, fld_lo, fld_hi, fld_all, Nat.reduceSub]
  exact finish_ok rfl wf
theorem vrand (d : BitVec 5) (y : BitVec 3) (t : BitVec 1) : Statement (.vrand d y t) := vec32 rfl rfl (by simp (disch := decide) only [fld, fld_lo, fld_all] <;> rfl) fun w hw hz wf => by
  have h0 : fld w 2 6 = 21#6 := by simp (disch := decide) only [hw, fld, fld_lo, fld_hi, fld_all, Nat.reduceSub] <;> rfl
  have h1 : fld w 8 4 = 0#4 := by simp (disch := decide) only [hw, fld, fld_lo, fld_hi, fld_all, Nat.reduceSub] <;> rfl
  unfold decodeVec32; rw [hz, h0, h1, if_neg (by decide)]
  refine Eq.trans (b := finish _ _) rfl ?_
  simp (disch := decide) only [hw, fld, fld_lo, fld_hi, fld_all, Nat.reduceSub]
  exact finish_ok rfl wf
theorem vrandF (d : BitVec 5) (y : BitVec 3) (t : BitVec 1) : Statement (.vrandF d y t) := vec32 rfl rfl (by simp (disch := decide) only [fld, fld_lo, fld_all] <;> rfl) fun w hw hz wf => by
  have h0 : fld w 2 6 = 21#6 := by simp (disch := decide) only [hw, fld, fld_lo, fld_hi, fld_all, Nat.reduceSub] <;> rfl
  have h1 : fld w 8 4 = 1#4 := by simp (disch := decide) only [hw, fld, fld_lo, fld_hi, fld_all, Nat.reduceSub] <;> rfl
  unfold decodeVec32; rw [hz, h0, h1, if_neg (by decide)]
  refine Eq.trans (b := finish _ _) rfl ?_
  simp (disch := decide) only [hw, fld, fld_lo, fld_hi, fld_all, Nat.reduceSub]
  exact finish_ok rfl wf
theorem vmaskp (m : BitVec 3) (s : BitVec 5) (t : BitVec 1) : Statement (.vmaskp m s t) := vec32 rfl rfl (by simp (disch := decide) only [fld, fld_lo, fld_all] <;> rfl) fun w hw hz wf => by
  have h0 : fld w 2 6 = 21#6 := by simp (disch := decide) only [hw, fld, fld_lo, fld_hi, fld_all, Nat.reduceSub] <;> rfl
  have h1 : fld w 8 4 = 2#4 := by simp (disch := decide) only [hw, fld, fld_lo, fld_hi, fld_all, Nat.reduceSub] <;> rfl
  unfold decodeVec32; rw [hz, h0, h1, if_neg (by decide)]
  refine Eq.trans (b := finish _ _) rfl ?_
  simp (disch := decide) only [hw, fld, fld_lo, fld_hi, fld_all, Nat.reduceSub]
  exact finish_ok rfl wf
theorem mand (d a b : BitVec 3) (t : BitVec 1) : Statement (.mand d a b t) := vec32 rfl rfl (by simp (disch := decide) only [fld, fld_lo, fld_all] <;> rfl) fun w hw hz wf => by
  have h0 : fld w 2 6 = 22#6 := by simp (disch := decide) only [hw, fld, fld_lo, fld_hi, fld_all, Nat.reduceSub] <;> rfl
  have h1 : fld w 8 4 = 0#4 := by simp (disch := decide) only [hw, fld, fld_lo, fld_hi, fld_all, Nat.reduceSub] <;> rfl
  unfold decodeVec32; rw [hz, h0, h1, if_neg (by decide)]
  refine Eq.trans (b := finish _ _) rfl ?_
  simp (disch := decide) only [hw, fld, fld_lo, fld_hi, fld_all, Nat.reduceSub]
  exact finish_ok rfl wf
theorem mor (d a b : BitVec 3) (t : BitVec 1) : Statement (.mor d a b t) := vec32 rfl rfl (by simp (disch := decide) only [fld, fld_lo, fld_all] <;> rfl) fun w hw hz wf => by
  have h0 : fld w 2 6 = 22#6 := by simp (disch := decide) only [hw, fld, fld_lo, fld_hi, fld_all, Nat.reduceSub] <;> rfl
  have h1 : fld w 8 4 = 1#4 := by simp (disch := decide) only [hw, fld, fld_lo, fld_hi, fld_all, Nat.reduceSub] <;> rfl
  unfold decodeVec32; rw [hz, h0, h1, if_neg (by decide)]
  refine Eq.trans (b := finish _ _) rfl ?_
  simp (disch := decide) only [hw, fld, fld_lo, fld_hi, fld_all, Nat.reduceSub]
  exact finish_ok rfl wf
theorem mxor (d a b : BitVec 3) (t : BitVec 1) : Statement (.mxor d a b t) := vec32 rfl rfl (by simp (disch := decide) only [fld, fld_lo, fld_all] <;> rfl) fun w hw hz wf => by
  have h0 : fld w 2 6 = 22#6 := by simp (disch := decide) only [hw, fld, fld_lo, fld_hi, fld_all, Nat.reduceSub] <;> rfl
  have h1 : fld w 8 4 = 2#4 := by simp (disch := decide) only [hw, fld, fld_lo, fld_hi, fld_all, Nat.reduceSub] <;> rfl
  unfold decodeVec32; rw [hz, h0, h1, if_neg (by decide)]
  refine Eq.trans (b := finish _ _) rfl ?_
  simp (disch := decide) only [hw, fld, fld_lo, fld_hi, fld_all, Nat.reduceSub]
  exact finish_ok rfl wf
theorem mnot (d a : BitVec 3) (t : BitVec 1) : Statement (.mnot d a t) := vec32 rfl rfl (by simp (disch := decide) only [fld, fld_lo, fld_all] <;> rfl) fun w hw hz wf => by
  have h0 : fld w 2 6 = 22#6 := by simp (disch := decide) only [hw, fld, fld_lo, fld_hi, fld_all, Nat.reduceSub] <;> rfl
  have h1 : fld w 8 4 = 3#4 := by simp (disch := decide) only [hw, fld, fld_lo, fld_hi, fld_all, Nat.reduceSub] <;> rfl
  unfold decodeVec32; rw [hz, h0, h1, if_neg (by decide)]
  refine Eq.trans (b := finish _ _) rfl ?_
  simp (disch := decide) only [hw, fld, fld_lo, fld_hi, fld_all, Nat.reduceSub]
  exact finish_ok rfl wf
theorem mpopc (d : BitVec 5) (a : BitVec 3) (t : BitVec 1) : Statement (.mpopc d a t) := vec32 rfl rfl (by simp (disch := decide) only [fld, fld_lo, fld_all] <;> rfl) fun w hw hz wf => by
  have h0 : fld w 2 6 = 22#6 := by simp (disch := decide) only [hw, fld, fld_lo, fld_hi, fld_all, Nat.reduceSub] <;> rfl
  have h1 : fld w 8 4 = 4#4 := by simp (disch := decide) only [hw, fld, fld_lo, fld_hi, fld_all, Nat.reduceSub] <;> rfl
  unfold decodeVec32; rw [hz, h0, h1, if_neg (by decide)]
  refine Eq.trans (b := finish _ _) rfl ?_
  simp (disch := decide) only [hw, fld, fld_lo, fld_hi, fld_all, Nat.reduceSub]
  exact finish_ok rfl wf
theorem mfirst (d : BitVec 5) (a : BitVec 3) (t : BitVec 1) : Statement (.mfirst d a t) := vec32 rfl rfl (by simp (disch := decide) only [fld, fld_lo, fld_all] <;> rfl) fun w hw hz wf => by
  have h0 : fld w 2 6 = 22#6 := by simp (disch := decide) only [hw, fld, fld_lo, fld_hi, fld_all, Nat.reduceSub] <;> rfl
  have h1 : fld w 8 4 = 5#4 := by simp (disch := decide) only [hw, fld, fld_lo, fld_hi, fld_all, Nat.reduceSub] <;> rfl
  unfold decodeVec32; rw [hz, h0, h1, if_neg (by decide)]
  refine Eq.trans (b := finish _ _) rfl ?_
  simp (disch := decide) only [hw, fld, fld_lo, fld_hi, fld_all, Nat.reduceSub]
  exact finish_ok rfl wf
theorem vqskip (q : BitVec 3) (c : BitVec 6) (t : BitVec 1) : Statement (.vqskip q c t) := vec32 rfl rfl (by simp (disch := decide) only [fld, fld_lo, fld_all] <;> rfl) fun w hw hz wf => by
  have h0 : fld w 2 6 = 23#6 := by simp (disch := decide) only [hw, fld, fld_lo, fld_hi, fld_all, Nat.reduceSub] <;> rfl
  unfold decodeVec32; rw [hz, h0, if_neg (by decide)]
  refine Eq.trans (b := finish _ _) rfl ?_
  simp (disch := decide) only [hw, fld, fld_lo, fld_hi, fld_all, Nat.reduceSub]
  exact finish_ok rfl wf
theorem vecAddf (f : BitVec 6) (a : BitVec 5) (t : BitVec 1) : Statement (.vecAddf f a t) := vec32 rfl rfl (by simp (disch := decide) only [fld, fld_lo, fld_all] <;> rfl) fun w hw hz wf => by
  have h0 : fld w 2 6 = 25#6 := by simp (disch := decide) only [hw, fld, fld_lo, fld_hi, fld_all, Nat.reduceSub] <;> rfl
  have h1 : fld w 25 1 = 0#1 := by simp (disch := decide) only [hw, fld, fld_lo, fld_hi, fld_all, Nat.reduceSub] <;> rfl
  unfold decodeVec32; rw [hz, h0, h1, if_neg (by decide)]
  refine Eq.trans (b := finish _ _) rfl ?_
  simp (disch := decide) only [hw, fld, fld_lo, fld_hi, fld_all, Nat.reduceSub]
  exact finish_ok rfl wf
theorem vecAddfImm (f : BitVec 6) (i : BitVec 17) (t : BitVec 1) : Statement (.vecAddfImm f i t) := vec32 rfl rfl (by simp (disch := decide) only [fld, fld_lo, fld_all] <;> rfl) fun w hw hz wf => by
  have h0 : fld w 2 6 = 25#6 := by simp (disch := decide) only [hw, fld, fld_lo, fld_hi, fld_all, Nat.reduceSub] <;> rfl
  have h1 : fld w 25 1 = 1#1 := by simp (disch := decide) only [hw, fld, fld_lo, fld_hi, fld_all, Nat.reduceSub] <;> rfl
  unfold decodeVec32; rw [hz, h0, h1, if_neg (by decide)]
  refine Eq.trans (b := finish _ _) rfl ?_
  simp (disch := decide) only [hw, fld, fld_lo, fld_hi, fld_all, Nat.reduceSub]
  exact finish_ok rfl wf
theorem vecWaitf (f : BitVec 6) (a : BitVec 5) (t : BitVec 1) : Statement (.vecWaitf f a t) := vec32 rfl rfl (by simp (disch := decide) only [fld, fld_lo, fld_all] <;> rfl) fun w hw hz wf => by
  have h0 : fld w 2 6 = 26#6 := by simp (disch := decide) only [hw, fld, fld_lo, fld_hi, fld_all, Nat.reduceSub] <;> rfl
  have h1 : fld w 25 1 = 0#1 := by simp (disch := decide) only [hw, fld, fld_lo, fld_hi, fld_all, Nat.reduceSub] <;> rfl
  unfold decodeVec32; rw [hz, h0, h1, if_neg (by decide)]
  refine Eq.trans (b := finish _ _) rfl ?_
  simp (disch := decide) only [hw, fld, fld_lo, fld_hi, fld_all, Nat.reduceSub]
  exact finish_ok rfl wf
theorem vecWaitfImm (f : BitVec 6) (i : BitVec 17) (t : BitVec 1) : Statement (.vecWaitfImm f i t) := vec32 rfl rfl (by simp (disch := decide) only [fld, fld_lo, fld_all] <;> rfl) fun w hw hz wf => by
  have h0 : fld w 2 6 = 26#6 := by simp (disch := decide) only [hw, fld, fld_lo, fld_hi, fld_all, Nat.reduceSub] <;> rfl
  have h1 : fld w 25 1 = 1#1 := by simp (disch := decide) only [hw, fld, fld_lo, fld_hi, fld_all, Nat.reduceSub] <;> rfl
  unfold decodeVec32; rw [hz, h0, h1, if_neg (by decide)]
  refine Eq.trans (b := finish _ _) rfl ?_
  simp (disch := decide) only [hw, fld, fld_lo, fld_hi, fld_all, Nat.reduceSub]
  exact finish_ok rfl wf
theorem vecGive (f : BitVec 6) (a b : BitVec 5) (t : BitVec 1) : Statement (.vecGive f a b t) := vec32 rfl rfl (by simp (disch := decide) only [fld, fld_lo, fld_all] <;> rfl) fun w hw hz wf => by
  have h0 : fld w 2 6 = 27#6 := by simp (disch := decide) only [hw, fld, fld_lo, fld_hi, fld_all, Nat.reduceSub] <;> rfl
  have h1 : fld w 25 1 = 0#1 := by simp (disch := decide) only [hw, fld, fld_lo, fld_hi, fld_all, Nat.reduceSub] <;> rfl
  unfold decodeVec32; rw [hz, h0, h1, if_neg (by decide)]
  refine Eq.trans (b := finish _ _) rfl ?_
  simp (disch := decide) only [hw, fld, fld_lo, fld_hi, fld_all, Nat.reduceSub]
  exact finish_ok rfl wf
theorem vecGiveAcc (f : BitVec 6) (c n : BitVec 4) (t : BitVec 1) : Statement (.vecGiveAcc f c n t) := vec32 rfl rfl (by simp (disch := decide) only [fld, fld_lo, fld_all] <;> rfl) fun w hw hz wf => by
  have h0 : fld w 2 6 = 27#6 := by simp (disch := decide) only [hw, fld, fld_lo, fld_hi, fld_all, Nat.reduceSub] <;> rfl
  have h1 : fld w 25 1 = 1#1 := by simp (disch := decide) only [hw, fld, fld_lo, fld_hi, fld_all, Nat.reduceSub] <;> rfl
  unfold decodeVec32; rw [hz, h0, h1, if_neg (by decide)]
  refine Eq.trans (b := finish _ _) rfl ?_
  simp (disch := decide) only [hw, fld, fld_lo, fld_hi, fld_all, Nat.reduceSub]
  exact finish_ok rfl wf
theorem vscalLi (d : BitVec 5) (i : BitVec 19) (t : BitVec 1) : Statement (.vscalLi d i t) := vec32 rfl rfl (by simp (disch := decide) only [fld, fld_lo, fld_all] <;> rfl) fun w hw hz wf => by
  have h0 : fld w 2 6 = 32#6 := by simp (disch := decide) only [hw, fld, fld_lo, fld_hi, fld_all, Nat.reduceSub] <;> rfl
  unfold decodeVec32; rw [hz, h0, if_neg (by decide)]
  refine Eq.trans (b := finish _ _) rfl ?_
  simp (disch := decide) only [hw, fld, fld_lo, fld_hi, fld_all, Nat.reduceSub]
  exact finish_ok rfl wf
theorem vscalLi64 (d : BitVec 5) (i : BitVec 49) (t : BitVec 1) : Statement (.vscalLi64 d i t) := vec64 rfl rfl (by simp (disch := decide) only [fld, fld_lo, fld_all] <;> rfl) fun w hw hz wf => by
  have h0 : fld w 2 6 = 32#6 := by simp (disch := decide) only [hw, fld, fld_lo, fld_hi, fld_all, Nat.reduceSub] <;> rfl
  unfold decodeVec64; rw [hz, h0]; rw [if_neg (by decide)]
  refine Eq.trans (b := finish _ _) rfl ?_
  simp (disch := decide) only [hw, fld, fld_lo, fld_hi, fld_all, Nat.reduceSub]
  rw [join_all]
  exact finish_ok rfl wf
theorem vscalAdd (d a b : BitVec 5) (t : BitVec 1) : Statement (.vscalAdd d a b t) := vec32 rfl rfl (by simp (disch := decide) only [fld, fld_lo, fld_all] <;> rfl) fun w hw hz wf => by
  have h0 : fld w 2 6 = 33#6 := by simp (disch := decide) only [hw, fld, fld_lo, fld_hi, fld_all, Nat.reduceSub] <;> rfl
  have h1 : fld w 19 3 = 0#3 := by simp (disch := decide) only [hw, fld, fld_lo, fld_hi, fld_all, Nat.reduceSub] <;> rfl
  unfold decodeVec32; rw [hz, h0, h1, if_neg (by decide)]
  refine Eq.trans (b := finish _ _) rfl ?_
  simp (disch := decide) only [hw, fld, fld_lo, fld_hi, fld_all, Nat.reduceSub]
  exact finish_ok rfl wf
theorem vscalAddImm (d a : BitVec 5) (i : BitVec 11) (t : BitVec 1) : Statement (.vscalAddImm d a i t) := vec32 rfl rfl (by simp (disch := decide) only [fld, fld_lo, fld_all] <;> rfl) fun w hw hz wf => by
  have h0 : fld w 2 6 = 33#6 := by simp (disch := decide) only [hw, fld, fld_lo, fld_hi, fld_all, Nat.reduceSub] <;> rfl
  have h1 : fld w 19 3 = 4#3 := by simp (disch := decide) only [hw, fld, fld_lo, fld_hi, fld_all, Nat.reduceSub] <;> rfl
  unfold decodeVec32; rw [hz, h0, h1, if_neg (by decide)]
  refine Eq.trans (b := finish _ _) rfl ?_
  simp (disch := decide) only [hw, fld, fld_lo, fld_hi, fld_all, Nat.reduceSub]
  exact finish_ok rfl wf
theorem vscalSub (d a b : BitVec 5) (t : BitVec 1) : Statement (.vscalSub d a b t) := vec32 rfl rfl (by simp (disch := decide) only [fld, fld_lo, fld_all] <;> rfl) fun w hw hz wf => by
  have h0 : fld w 2 6 = 33#6 := by simp (disch := decide) only [hw, fld, fld_lo, fld_hi, fld_all, Nat.reduceSub] <;> rfl
  have h1 : fld w 19 3 = 1#3 := by simp (disch := decide) only [hw, fld, fld_lo, fld_hi, fld_all, Nat.reduceSub] <;> rfl
  unfold decodeVec32; rw [hz, h0, h1, if_neg (by decide)]
  refine Eq.trans (b := finish _ _) rfl ?_
  simp (disch := decide) only [hw, fld, fld_lo, fld_hi, fld_all, Nat.reduceSub]
  exact finish_ok rfl wf
theorem vscalSubImm (d a : BitVec 5) (i : BitVec 11) (t : BitVec 1) : Statement (.vscalSubImm d a i t) := vec32 rfl rfl (by simp (disch := decide) only [fld, fld_lo, fld_all] <;> rfl) fun w hw hz wf => by
  have h0 : fld w 2 6 = 33#6 := by simp (disch := decide) only [hw, fld, fld_lo, fld_hi, fld_all, Nat.reduceSub] <;> rfl
  have h1 : fld w 19 3 = 5#3 := by simp (disch := decide) only [hw, fld, fld_lo, fld_hi, fld_all, Nat.reduceSub] <;> rfl
  unfold decodeVec32; rw [hz, h0, h1, if_neg (by decide)]
  refine Eq.trans (b := finish _ _) rfl ?_
  simp (disch := decide) only [hw, fld, fld_lo, fld_hi, fld_all, Nat.reduceSub]
  exact finish_ok rfl wf
theorem vscalShl (d a b : BitVec 5) (t : BitVec 1) : Statement (.vscalShl d a b t) := vec32 rfl rfl (by simp (disch := decide) only [fld, fld_lo, fld_all] <;> rfl) fun w hw hz wf => by
  have h0 : fld w 2 6 = 33#6 := by simp (disch := decide) only [hw, fld, fld_lo, fld_hi, fld_all, Nat.reduceSub] <;> rfl
  have h1 : fld w 19 3 = 2#3 := by simp (disch := decide) only [hw, fld, fld_lo, fld_hi, fld_all, Nat.reduceSub] <;> rfl
  unfold decodeVec32; rw [hz, h0, h1, if_neg (by decide)]
  refine Eq.trans (b := finish _ _) rfl ?_
  simp (disch := decide) only [hw, fld, fld_lo, fld_hi, fld_all, Nat.reduceSub]
  exact finish_ok rfl wf
theorem vscalShlImm (d a : BitVec 5) (i : BitVec 6) (t : BitVec 1) : Statement (.vscalShlImm d a i t) := vec32 rfl rfl (by simp (disch := decide) only [fld, fld_lo, fld_all] <;> rfl) fun w hw hz wf => by
  have h0 : fld w 2 6 = 33#6 := by simp (disch := decide) only [hw, fld, fld_lo, fld_hi, fld_all, Nat.reduceSub] <;> rfl
  have h1 : fld w 19 3 = 6#3 := by simp (disch := decide) only [hw, fld, fld_lo, fld_hi, fld_all, Nat.reduceSub] <;> rfl
  unfold decodeVec32; rw [hz, h0, h1, if_neg (by decide)]
  refine Eq.trans (b := finish _ _) rfl ?_
  simp (disch := decide) only [hw, fld, fld_lo, fld_hi, fld_all, Nat.reduceSub]
  exact finish_ok rfl wf
theorem vscalAnd (d a b : BitVec 5) (t : BitVec 1) : Statement (.vscalAnd d a b t) := vec32 rfl rfl (by simp (disch := decide) only [fld, fld_lo, fld_all] <;> rfl) fun w hw hz wf => by
  have h0 : fld w 2 6 = 33#6 := by simp (disch := decide) only [hw, fld, fld_lo, fld_hi, fld_all, Nat.reduceSub] <;> rfl
  have h1 : fld w 19 3 = 3#3 := by simp (disch := decide) only [hw, fld, fld_lo, fld_hi, fld_all, Nat.reduceSub] <;> rfl
  unfold decodeVec32; rw [hz, h0, h1, if_neg (by decide)]
  refine Eq.trans (b := finish _ _) rfl ?_
  simp (disch := decide) only [hw, fld, fld_lo, fld_hi, fld_all, Nat.reduceSub]
  exact finish_ok rfl wf
theorem vscalAndImm (d a : BitVec 5) (i : BitVec 11) (t : BitVec 1) : Statement (.vscalAndImm d a i t) := vec32 rfl rfl (by simp (disch := decide) only [fld, fld_lo, fld_all] <;> rfl) fun w hw hz wf => by
  have h0 : fld w 2 6 = 33#6 := by simp (disch := decide) only [hw, fld, fld_lo, fld_hi, fld_all, Nat.reduceSub] <;> rfl
  have h1 : fld w 19 3 = 7#3 := by simp (disch := decide) only [hw, fld, fld_lo, fld_hi, fld_all, Nat.reduceSub] <;> rfl
  unfold decodeVec32; rw [hz, h0, h1, if_neg (by decide)]
  refine Eq.trans (b := finish _ _) rfl ?_
  simp (disch := decide) only [hw, fld, fld_lo, fld_hi, fld_all, Nat.reduceSub]
  exact finish_ok rfl wf
theorem vscalCmp (p c : BitVec 3) (u : BitVec 1) (a b : BitVec 5) (t : BitVec 1) : Statement (.vscalCmp p c u a b t) := vec32 rfl rfl (by simp (disch := decide) only [fld, fld_lo, fld_all] <;> rfl) fun w hw hz wf => by
  have h0 : fld w 2 6 = 34#6 := by simp (disch := decide) only [hw, fld, fld_lo, fld_hi, fld_all, Nat.reduceSub] <;> rfl
  have h1 : fld w 19 1 = 0#1 := by simp (disch := decide) only [hw, fld, fld_lo, fld_hi, fld_all, Nat.reduceSub] <;> rfl
  unfold decodeVec32; rw [hz, h0, h1, if_neg (by decide)]
  refine Eq.trans (b := finish _ _) rfl ?_
  simp (disch := decide) only [hw, fld, fld_lo, fld_hi, fld_all, Nat.reduceSub]
  exact finish_ok rfl wf
theorem vscalCmpImm (p c : BitVec 3) (u : BitVec 1) (a : BitVec 5) (i : BitVec 11) (t : BitVec 1) : Statement (.vscalCmpImm p c u a i t) := vec32 rfl rfl (by simp (disch := decide) only [fld, fld_lo, fld_all] <;> rfl) fun w hw hz wf => by
  have h0 : fld w 2 6 = 34#6 := by simp (disch := decide) only [hw, fld, fld_lo, fld_hi, fld_all, Nat.reduceSub] <;> rfl
  have h1 : fld w 19 1 = 1#1 := by simp (disch := decide) only [hw, fld, fld_lo, fld_hi, fld_all, Nat.reduceSub] <;> rfl
  unfold decodeVec32; rw [hz, h0, h1, if_neg (by decide)]
  refine Eq.trans (b := finish _ _) rfl ?_
  simp (disch := decide) only [hw, fld, fld_lo, fld_hi, fld_all, Nat.reduceSub]
  exact finish_ok rfl wf
theorem vscalBr (o : BitVec 24) (t : BitVec 1) : Statement (.vscalBr o t) := vec32 rfl rfl (by simp (disch := decide) only [fld, fld_lo, fld_all] <;> rfl) fun w hw hz wf => by
  have h0 : fld w 2 6 = 35#6 := by simp (disch := decide) only [hw, fld, fld_lo, fld_hi, fld_all, Nat.reduceSub] <;> rfl
  unfold decodeVec32; rw [hz, h0, if_neg (by decide)]
  refine Eq.trans (b := finish _ _) rfl ?_
  simp (disch := decide) only [hw, fld, fld_lo, fld_hi, fld_all, Nat.reduceSub]
  exact finish_ok rfl wf
theorem vscalBc (p : BitVec 3) (n : BitVec 1) (o : BitVec 20) (t : BitVec 1) : Statement (.vscalBc p n o t) := vec32 rfl rfl (by simp (disch := decide) only [fld, fld_lo, fld_all] <;> rfl) fun w hw hz wf => by
  have h0 : fld w 2 6 = 36#6 := by simp (disch := decide) only [hw, fld, fld_lo, fld_hi, fld_all, Nat.reduceSub] <;> rfl
  unfold decodeVec32; rw [hz, h0, if_neg (by decide)]
  refine Eq.trans (b := finish _ _) rfl ?_
  simp (disch := decide) only [hw, fld, fld_lo, fld_hi, fld_all, Nat.reduceSub]
  exact finish_ok rfl wf
theorem vscalLoop (a : BitVec 5) (o : BitVec 19) (t : BitVec 1) : Statement (.vscalLoop a o t) := vec32 rfl rfl (by simp (disch := decide) only [fld, fld_lo, fld_all] <;> rfl) fun w hw hz wf => by
  have h0 : fld w 2 6 = 37#6 := by simp (disch := decide) only [hw, fld, fld_lo, fld_hi, fld_all, Nat.reduceSub] <;> rfl
  unfold decodeVec32; rw [hz, h0, if_neg (by decide)]
  refine Eq.trans (b := finish _ _) rfl ?_
  simp (disch := decide) only [hw, fld, fld_lo, fld_hi, fld_all, Nat.reduceSub]
  exact finish_ok rfl wf
theorem vscalRend (t : BitVec 1) : Statement (.vscalRend t) := vec32 rfl rfl (by simp (disch := decide) only [fld, fld_lo, fld_all] <;> rfl) fun w hw hz wf => by
  have h0 : fld w 2 6 = 38#6 := by simp (disch := decide) only [hw, fld, fld_lo, fld_hi, fld_all, Nat.reduceSub] <;> rfl
  unfold decodeVec32; rw [hz, h0, if_neg (by decide)]
  refine Eq.trans (b := finish _ _) rfl ?_
  simp (disch := decide) only [hw, fld, fld_lo, fld_hi, fld_all, Nat.reduceSub]
  exact finish_ok rfl wf
theorem vscalNop (t : BitVec 1) : Statement (.vscalNop t) := vec32 rfl rfl (by simp (disch := decide) only [fld, fld_lo, fld_all] <;> rfl) fun w hw hz wf => by
  have h0 : fld w 2 6 = 39#6 := by simp (disch := decide) only [hw, fld, fld_lo, fld_hi, fld_all, Nat.reduceSub] <;> rfl
  unfold decodeVec32; rw [hz, h0, if_neg (by decide)]
  refine Eq.trans (b := finish _ _) rfl ?_
  simp (disch := decide) only [hw, fld, fld_lo, fld_hi, fld_all, Nat.reduceSub]
  exact finish_ok rfl wf
theorem cpy (sc : BitVec 3) (u : BitVec 2) (d a b : BitVec 5) (ev : BitVec 14) (k : BitVec 1) : Statement (.cpy sc u d a b ev k) := w64 rfl rfl fun w hw wf => by
  have h0 : fld w 0 7 = 1#7 := by simp (disch := decide) only [hw, fld, fld_lo, fld_hi, fld_all, Nat.reduceSub] <;> rfl
  unfold decodeWord decodeCpy; rw [h0]
  refine Eq.trans (b := finish _ _) rfl ?_
  simp (disch := decide) only [hw, fld, fld_lo, fld_hi, fld_all, Nat.reduceSub]
  exact finish_ok rfl wf
theorem cpys (sc : BitVec 3) (u : BitVec 2) (d a b c : BitVec 5) (s : BitVec 20) : Statement (.cpys sc u d a b c s) := w64 rfl rfl fun w hw wf => by
  have h0 : fld w 0 7 = 2#7 := by simp (disch := decide) only [hw, fld, fld_lo, fld_hi, fld_all, Nat.reduceSub] <;> rfl
  unfold decodeWord decodeCpy; rw [h0]
  refine Eq.trans (b := finish _ _) rfl ?_
  simp (disch := decide) only [hw, fld, fld_lo, fld_hi, fld_all, Nat.reduceSub]
  exact finish_ok rfl wf
theorem chain (n : BitVec 3) (a : BitVec 5) : Statement (.chain n a) := w64 rfl rfl fun w hw wf => by
  have h0 : fld w 0 7 = 3#7 := by simp (disch := decide) only [hw, fld, fld_lo, fld_hi, fld_all, Nat.reduceSub] <;> rfl
  unfold decodeWord decodeCpy; rw [h0]
  refine Eq.trans (b := finish _ _) rfl ?_
  simp (disch := decide) only [hw, fld, fld_lo, fld_hi, fld_all, Nat.reduceSub]
  exact finish_ok rfl wf
theorem chstop (n : BitVec 3) : Statement (.chstop n) := w64 rfl rfl fun w hw wf => by
  have h0 : fld w 0 7 = 4#7 := by simp (disch := decide) only [hw, fld, fld_lo, fld_hi, fld_all, Nat.reduceSub] <;> rfl
  unfold decodeWord decodeCpy; rw [h0]
  refine Eq.trans (b := finish _ _) rfl ?_
  simp (disch := decide) only [hw, fld, fld_lo, fld_hi, fld_all, Nat.reduceSub]
  exact finish_ok rfl wf
theorem gather (sc : BitVec 3) (u : BitVec 2) (d a b c : BitVec 5) (w : BitVec 11) (ev : BitVec 14) : Statement (.gather sc u d a b c w ev) := w64 rfl rfl fun w hw wf => by
  have h0 : fld w 0 7 = 5#7 := by simp (disch := decide) only [hw, fld, fld_lo, fld_hi, fld_all, Nat.reduceSub] <;> rfl
  unfold decodeWord decodeCpy; rw [h0]
  refine Eq.trans (b := finish _ _) rfl ?_
  simp (disch := decide) only [hw, fld, fld_lo, fld_hi, fld_all, Nat.reduceSub]
  exact finish_ok rfl wf
theorem scatter (sc : BitVec 3) (u : BitVec 2) (d a b c : BitVec 5) (w : BitVec 11) (ev : BitVec 14) : Statement (.scatter sc u d a b c w ev) := w64 rfl rfl fun w hw wf => by
  have h0 : fld w 0 7 = 6#7 := by simp (disch := decide) only [hw, fld, fld_lo, fld_hi, fld_all, Nat.reduceSub] <;> rfl
  unfold decodeWord decodeCpy; rw [h0]
  refine Eq.trans (b := finish _ _) rfl ?_
  simp (disch := decide) only [hw, fld, fld_lo, fld_hi, fld_all, Nat.reduceSub]
  exact finish_ok rfl wf
theorem bind (sc : BitVec 3) (u : BitVec 2) (n : BitVec 3) (a b : BitVec 5) (w : BitVec 11) (ev : BitVec 14) : Statement (.bind sc u n a b w ev) := w64 rfl rfl fun w hw wf => by
  have h0 : fld w 0 7 = 7#7 := by simp (disch := decide) only [hw, fld, fld_lo, fld_hi, fld_all, Nat.reduceSub] <;> rfl
  unfold decodeWord decodeCpy; rw [h0]
  refine Eq.trans (b := finish _ _) rfl ?_
  simp (disch := decide) only [hw, fld, fld_lo, fld_hi, fld_all, Nat.reduceSub]
  exact finish_ok rfl wf
theorem collAllReduce (sc : BitVec 3) (u : BitVec 2) (a : BitVec 5) (ev : BitVec 14) : Statement (.collAllReduce sc u a ev) := w64 rfl rfl fun w hw wf => by
  have h0 : fld w 0 7 = 8#7 := by simp (disch := decide) only [hw, fld, fld_lo, fld_hi, fld_all, Nat.reduceSub] <;> rfl
  unfold decodeWord decodeCpy; rw [h0]
  refine Eq.trans (b := finish _ _) rfl ?_
  simp (disch := decide) only [hw, fld, fld_lo, fld_hi, fld_all, Nat.reduceSub]
  exact finish_ok rfl wf
theorem nmirror (sc : BitVec 3) (u : BitVec 2) (d a b c : BitVec 5) (ev : BitVec 14) : Statement (.nmirror sc u d a b c ev) := w64 rfl rfl fun w hw wf => by
  have h0 : fld w 0 7 = 9#7 := by simp (disch := decide) only [hw, fld, fld_lo, fld_hi, fld_all, Nat.reduceSub] <;> rfl
  unfold decodeWord decodeCpy; rw [h0]
  refine Eq.trans (b := finish _ _) rfl ?_
  simp (disch := decide) only [hw, fld, fld_lo, fld_hi, fld_all, Nat.reduceSub]
  exact finish_ok rfl wf
theorem addf64 (e : Eng64) (f : BitVec 6) (o : FlagSrc) : Statement (.addf64 e f o) := by
  cases o with
  | reg a =>
    refine w64 rfl rfl fun w hw wf => ?_
    simp only [encFlag64, encFlagSrc] at hw
    have h0 : fld w 0 7 = 16#7 := by simp (disch := decide) only [hw, fld, fld_lo, fld_hi, fld_all, Nat.reduceSub] <;> rfl
    have h1 : fld w 38 1 = 0#1 := by simp (disch := decide) only [hw, fld, fld_lo, fld_hi, fld_all, Nat.reduceSub] <;> rfl
    refine (flag_word e w h0 (by decide)).trans ?_; unfold decodeFlag64; rw [h0, h1]
    refine Eq.trans (b := finish _ _) rfl ?_
    simp (disch := decide) only [hw, fld, fld_lo, fld_hi, fld_all, Nat.reduceSub]
    exact finish_ok rfl wf
  | imm v =>
    refine w64 rfl rfl fun w hw wf => ?_
    simp only [encFlag64, encFlagSrc] at hw
    have h0 : fld w 0 7 = 16#7 := by simp (disch := decide) only [hw, fld, fld_lo, fld_hi, fld_all, Nat.reduceSub] <;> rfl
    have h1 : fld w 38 1 = 1#1 := by simp (disch := decide) only [hw, fld, fld_lo, fld_hi, fld_all, Nat.reduceSub] <;> rfl
    refine (flag_word e w h0 (by decide)).trans ?_; unfold decodeFlag64; rw [h0, h1]
    refine Eq.trans (b := finish _ _) rfl ?_
    simp (disch := decide) only [hw, fld, fld_lo, fld_hi, fld_all, Nat.reduceSub]
    exact finish_ok rfl wf
theorem waitf64 (e : Eng64) (f : BitVec 6) (o : FlagSrc) : Statement (.waitf64 e f o) := by
  cases o with
  | reg a =>
    refine w64 rfl rfl fun w hw wf => ?_
    simp only [encFlag64, encFlagSrc] at hw
    have h0 : fld w 0 7 = 17#7 := by simp (disch := decide) only [hw, fld, fld_lo, fld_hi, fld_all, Nat.reduceSub] <;> rfl
    have h1 : fld w 38 1 = 0#1 := by simp (disch := decide) only [hw, fld, fld_lo, fld_hi, fld_all, Nat.reduceSub] <;> rfl
    refine (flag_word e w h0 (by decide)).trans ?_; unfold decodeFlag64; rw [h0, h1]
    refine Eq.trans (b := finish _ _) rfl ?_
    simp (disch := decide) only [hw, fld, fld_lo, fld_hi, fld_all, Nat.reduceSub]
    exact finish_ok rfl wf
  | imm v =>
    refine w64 rfl rfl fun w hw wf => ?_
    simp only [encFlag64, encFlagSrc] at hw
    have h0 : fld w 0 7 = 17#7 := by simp (disch := decide) only [hw, fld, fld_lo, fld_hi, fld_all, Nat.reduceSub] <;> rfl
    have h1 : fld w 38 1 = 1#1 := by simp (disch := decide) only [hw, fld, fld_lo, fld_hi, fld_all, Nat.reduceSub] <;> rfl
    refine (flag_word e w h0 (by decide)).trans ?_; unfold decodeFlag64; rw [h0, h1]
    refine Eq.trans (b := finish _ _) rfl ?_
    simp (disch := decide) only [hw, fld, fld_lo, fld_hi, fld_all, Nat.reduceSub]
    exact finish_ok rfl wf
theorem give64 (e : Eng64) (f : BitVec 6) (r : GiveSrc) : Statement (.give64 e f r) := by
  cases r with
  | pad a b =>
    refine w64 rfl rfl fun w hw wf => ?_
    have h0 : fld w 0 7 = 18#7 := by simp (disch := decide) only [hw, fld, fld_lo, fld_hi, fld_all, Nat.reduceSub] <;> rfl
    have h1 : fld w 38 1 = 0#1 := by simp (disch := decide) only [hw, fld, fld_lo, fld_hi, fld_all, Nat.reduceSub] <;> rfl
    refine (flag_word e w h0 (by decide)).trans ?_; unfold decodeFlag64; rw [h0, h1]
    refine Eq.trans (b := finish _ _) (if_neg (by decide)) ?_
    simp (disch := decide) only [hw, fld, fld_lo, fld_hi, fld_all, Nat.reduceSub]
    exact finish_ok rfl wf
  | acc n c =>
    refine w64 rfl rfl fun w hw wf => ?_
    have h0 : fld w 0 7 = 18#7 := by simp (disch := decide) only [hw, fld, fld_lo, fld_hi, fld_all, Nat.reduceSub] <;> rfl
    have h1 : fld w 38 1 = 1#1 := by simp (disch := decide) only [hw, fld, fld_lo, fld_hi, fld_all, Nat.reduceSub] <;> rfl
    refine (flag_word e w h0 (by decide)).trans ?_; unfold decodeFlag64; rw [h0, h1]
    refine Eq.trans (b := finish _ _) (if_pos (by decide)) ?_
    simp (disch := decide) only [hw, fld, fld_lo, fld_hi, fld_all, Nat.reduceSub]
    exact finish_ok rfl wf
theorem scalLi (e : Strm64) (d : BitVec 5) (i : BitVec 32) : Statement (.scalLi e d i) := w64 rfl rfl fun w hw wf => by
  have h0 : fld w 0 7 = 24#7 := by simp (disch := decide) only [hw, fld, fld_lo, fld_hi, fld_all, Nat.reduceSub] <;> rfl
  refine (scal_word e w h0 (by decide)).trans ?_; unfold decodeScal64; rw [h0]
  refine Eq.trans (b := finish _ _) rfl ?_
  simp (disch := decide) only [hw, fld, fld_lo, fld_hi, fld_all, Nat.reduceSub]
  exact finish_ok rfl wf
theorem scalAdd (e : Strm64) (d a : BitVec 5) (o : Opd16) : Statement (.scalAdd e d a o) := by
  cases o with
  | reg b =>
    refine w64 rfl rfl fun w hw wf => ?_
    simp only [encArith64, encOpd16] at hw
    have h0 : fld w 0 7 = 25#7 := by simp (disch := decide) only [hw, fld, fld_lo, fld_hi, fld_all, Nat.reduceSub] <;> rfl
    have h1 : fld w 32 2 = 0#2 := by simp (disch := decide) only [hw, fld, fld_lo, fld_hi, fld_all, Nat.reduceSub] <;> rfl
    have h2 : fld w 34 1 = 0#1 := by simp (disch := decide) only [hw, fld, fld_lo, fld_hi, fld_all, Nat.reduceSub] <;> rfl
    refine (scal_word e w h0 (by decide)).trans ?_; unfold decodeScal64; rw [h0, h1, h2]
    refine Eq.trans (b := finish _ _) rfl ?_
    simp (disch := decide) only [hw, fld, fld_lo, fld_hi, fld_all, Nat.reduceSub]
    exact finish_ok rfl wf
  | imm i =>
    refine w64 rfl rfl fun w hw wf => ?_
    simp only [encArith64, encOpd16] at hw
    have h0 : fld w 0 7 = 25#7 := by simp (disch := decide) only [hw, fld, fld_lo, fld_hi, fld_all, Nat.reduceSub] <;> rfl
    have h1 : fld w 32 2 = 0#2 := by simp (disch := decide) only [hw, fld, fld_lo, fld_hi, fld_all, Nat.reduceSub] <;> rfl
    have h2 : fld w 34 1 = 1#1 := by simp (disch := decide) only [hw, fld, fld_lo, fld_hi, fld_all, Nat.reduceSub] <;> rfl
    refine (scal_word e w h0 (by decide)).trans ?_; unfold decodeScal64; rw [h0, h1, h2]
    refine Eq.trans (b := finish _ _) rfl ?_
    simp (disch := decide) only [hw, fld, fld_lo, fld_hi, fld_all, Nat.reduceSub]
    exact finish_ok rfl wf
theorem scalSub (e : Strm64) (d a : BitVec 5) (o : Opd16) : Statement (.scalSub e d a o) := by
  cases o with
  | reg b =>
    refine w64 rfl rfl fun w hw wf => ?_
    simp only [encArith64, encOpd16] at hw
    have h0 : fld w 0 7 = 25#7 := by simp (disch := decide) only [hw, fld, fld_lo, fld_hi, fld_all, Nat.reduceSub] <;> rfl
    have h1 : fld w 32 2 = 1#2 := by simp (disch := decide) only [hw, fld, fld_lo, fld_hi, fld_all, Nat.reduceSub] <;> rfl
    have h2 : fld w 34 1 = 0#1 := by simp (disch := decide) only [hw, fld, fld_lo, fld_hi, fld_all, Nat.reduceSub] <;> rfl
    refine (scal_word e w h0 (by decide)).trans ?_; unfold decodeScal64; rw [h0, h1, h2]
    refine Eq.trans (b := finish _ _) rfl ?_
    simp (disch := decide) only [hw, fld, fld_lo, fld_hi, fld_all, Nat.reduceSub]
    exact finish_ok rfl wf
  | imm i =>
    refine w64 rfl rfl fun w hw wf => ?_
    simp only [encArith64, encOpd16] at hw
    have h0 : fld w 0 7 = 25#7 := by simp (disch := decide) only [hw, fld, fld_lo, fld_hi, fld_all, Nat.reduceSub] <;> rfl
    have h1 : fld w 32 2 = 1#2 := by simp (disch := decide) only [hw, fld, fld_lo, fld_hi, fld_all, Nat.reduceSub] <;> rfl
    have h2 : fld w 34 1 = 1#1 := by simp (disch := decide) only [hw, fld, fld_lo, fld_hi, fld_all, Nat.reduceSub] <;> rfl
    refine (scal_word e w h0 (by decide)).trans ?_; unfold decodeScal64; rw [h0, h1, h2]
    refine Eq.trans (b := finish _ _) rfl ?_
    simp (disch := decide) only [hw, fld, fld_lo, fld_hi, fld_all, Nat.reduceSub]
    exact finish_ok rfl wf
theorem scalShl (e : Strm64) (d a : BitVec 5) (o : Opd16) : Statement (.scalShl e d a o) := by
  cases o with
  | reg b =>
    refine w64 rfl rfl fun w hw wf => ?_
    simp only [encArith64, encOpd16] at hw
    have h0 : fld w 0 7 = 25#7 := by simp (disch := decide) only [hw, fld, fld_lo, fld_hi, fld_all, Nat.reduceSub] <;> rfl
    have h1 : fld w 32 2 = 2#2 := by simp (disch := decide) only [hw, fld, fld_lo, fld_hi, fld_all, Nat.reduceSub] <;> rfl
    have h2 : fld w 34 1 = 0#1 := by simp (disch := decide) only [hw, fld, fld_lo, fld_hi, fld_all, Nat.reduceSub] <;> rfl
    refine (scal_word e w h0 (by decide)).trans ?_; unfold decodeScal64; rw [h0, h1, h2]
    refine Eq.trans (b := finish _ _) rfl ?_
    simp (disch := decide) only [hw, fld, fld_lo, fld_hi, fld_all, Nat.reduceSub]
    exact finish_ok rfl wf
  | imm i =>
    refine w64 rfl rfl fun w hw wf => ?_
    simp only [encArith64, encOpd16] at hw
    have h0 : fld w 0 7 = 25#7 := by simp (disch := decide) only [hw, fld, fld_lo, fld_hi, fld_all, Nat.reduceSub] <;> rfl
    have h1 : fld w 32 2 = 2#2 := by simp (disch := decide) only [hw, fld, fld_lo, fld_hi, fld_all, Nat.reduceSub] <;> rfl
    have h2 : fld w 34 1 = 1#1 := by simp (disch := decide) only [hw, fld, fld_lo, fld_hi, fld_all, Nat.reduceSub] <;> rfl
    refine (scal_word e w h0 (by decide)).trans ?_; unfold decodeScal64; rw [h0, h1, h2]
    refine Eq.trans (b := finish _ _) rfl ?_
    simp (disch := decide) only [hw, fld, fld_lo, fld_hi, fld_all, Nat.reduceSub]
    exact finish_ok rfl wf
theorem scalAnd (e : Strm64) (d a : BitVec 5) (o : Opd16) : Statement (.scalAnd e d a o) := by
  cases o with
  | reg b =>
    refine w64 rfl rfl fun w hw wf => ?_
    simp only [encArith64, encOpd16] at hw
    have h0 : fld w 0 7 = 25#7 := by simp (disch := decide) only [hw, fld, fld_lo, fld_hi, fld_all, Nat.reduceSub] <;> rfl
    have h1 : fld w 32 2 = 3#2 := by simp (disch := decide) only [hw, fld, fld_lo, fld_hi, fld_all, Nat.reduceSub] <;> rfl
    have h2 : fld w 34 1 = 0#1 := by simp (disch := decide) only [hw, fld, fld_lo, fld_hi, fld_all, Nat.reduceSub] <;> rfl
    refine (scal_word e w h0 (by decide)).trans ?_; unfold decodeScal64; rw [h0, h1, h2]
    refine Eq.trans (b := finish _ _) rfl ?_
    simp (disch := decide) only [hw, fld, fld_lo, fld_hi, fld_all, Nat.reduceSub]
    exact finish_ok rfl wf
  | imm i =>
    refine w64 rfl rfl fun w hw wf => ?_
    simp only [encArith64, encOpd16] at hw
    have h0 : fld w 0 7 = 25#7 := by simp (disch := decide) only [hw, fld, fld_lo, fld_hi, fld_all, Nat.reduceSub] <;> rfl
    have h1 : fld w 32 2 = 3#2 := by simp (disch := decide) only [hw, fld, fld_lo, fld_hi, fld_all, Nat.reduceSub] <;> rfl
    have h2 : fld w 34 1 = 1#1 := by simp (disch := decide) only [hw, fld, fld_lo, fld_hi, fld_all, Nat.reduceSub] <;> rfl
    refine (scal_word e w h0 (by decide)).trans ?_; unfold decodeScal64; rw [h0, h1, h2]
    refine Eq.trans (b := finish _ _) rfl ?_
    simp (disch := decide) only [hw, fld, fld_lo, fld_hi, fld_all, Nat.reduceSub]
    exact finish_ok rfl wf
theorem scalCmp (e : Strm64) (p c : BitVec 3) (u : BitVec 1) (a : BitVec 5) (o : Opd16) : Statement (.scalCmp e p c u a o) := by
  cases o with
  | reg b =>
    refine w64 rfl rfl fun w hw wf => ?_
    simp only [encOpd16] at hw
    have h0 : fld w 0 7 = 26#7 := by simp (disch := decide) only [hw, fld, fld_lo, fld_hi, fld_all, Nat.reduceSub] <;> rfl
    have h1 : fld w 36 1 = 0#1 := by simp (disch := decide) only [hw, fld, fld_lo, fld_hi, fld_all, Nat.reduceSub] <;> rfl
    refine (scal_word e w h0 (by decide)).trans ?_; unfold decodeScal64; rw [h0, h1]
    refine Eq.trans (b := finish _ _) rfl ?_
    simp (disch := decide) only [hw, fld, fld_lo, fld_hi, fld_all, Nat.reduceSub]
    exact finish_ok rfl wf
  | imm i =>
    refine w64 rfl rfl fun w hw wf => ?_
    simp only [encOpd16] at hw
    have h0 : fld w 0 7 = 26#7 := by simp (disch := decide) only [hw, fld, fld_lo, fld_hi, fld_all, Nat.reduceSub] <;> rfl
    have h1 : fld w 36 1 = 1#1 := by simp (disch := decide) only [hw, fld, fld_lo, fld_hi, fld_all, Nat.reduceSub] <;> rfl
    refine (scal_word e w h0 (by decide)).trans ?_; unfold decodeScal64; rw [h0, h1]
    refine Eq.trans (b := finish _ _) rfl ?_
    simp (disch := decide) only [hw, fld, fld_lo, fld_hi, fld_all, Nat.reduceSub]
    exact finish_ok rfl wf
theorem scalBr (e : Strm64) (o : BitVec 32) : Statement (.scalBr e o) := w64 rfl rfl fun w hw wf => by
  have h0 : fld w 0 7 = 27#7 := by simp (disch := decide) only [hw, fld, fld_lo, fld_hi, fld_all, Nat.reduceSub] <;> rfl
  refine (scal_word e w h0 (by decide)).trans ?_; unfold decodeScal64; rw [h0]
  refine Eq.trans (b := finish _ _) rfl ?_
  simp (disch := decide) only [hw, fld, fld_lo, fld_hi, fld_all, Nat.reduceSub]
  exact finish_ok rfl wf
theorem scalBc (e : Strm64) (p : BitVec 3) (n : BitVec 1) (o : BitVec 32) : Statement (.scalBc e p n o) := w64 rfl rfl fun w hw wf => by
  have h0 : fld w 0 7 = 28#7 := by simp (disch := decide) only [hw, fld, fld_lo, fld_hi, fld_all, Nat.reduceSub] <;> rfl
  refine (scal_word e w h0 (by decide)).trans ?_; unfold decodeScal64; rw [h0]
  refine Eq.trans (b := finish _ _) rfl ?_
  simp (disch := decide) only [hw, fld, fld_lo, fld_hi, fld_all, Nat.reduceSub]
  exact finish_ok rfl wf
theorem scalLoop (e : Strm64) (a : BitVec 5) (o : BitVec 32) : Statement (.scalLoop e a o) := w64 rfl rfl fun w hw wf => by
  have h0 : fld w 0 7 = 29#7 := by simp (disch := decide) only [hw, fld, fld_lo, fld_hi, fld_all, Nat.reduceSub] <;> rfl
  refine (scal_word e w h0 (by decide)).trans ?_; unfold decodeScal64; rw [h0]
  refine Eq.trans (b := finish _ _) rfl ?_
  simp (disch := decide) only [hw, fld, fld_lo, fld_hi, fld_all, Nat.reduceSub]
  exact finish_ok rfl wf
theorem scalRend (e : Strm64) : Statement (.scalRend e) := w64 rfl rfl fun w hw wf => by
  have h0 : fld w 0 7 = 30#7 := by simp (disch := decide) only [hw, fld, fld_lo, fld_hi, fld_all, Nat.reduceSub] <;> rfl
  refine (scal_word e w h0 (by decide)).trans ?_; unfold decodeScal64; rw [h0]
  refine Eq.trans (b := finish _ _) rfl ?_
  simp (disch := decide) only [hw, fld, fld_lo, fld_hi, fld_all, Nat.reduceSub]
  exact finish_ok rfl wf
theorem scalNop (e : Strm64) : Statement (.scalNop e) := w64 rfl rfl fun w hw wf => by
  have h0 : fld w 0 7 = 31#7 := by simp (disch := decide) only [hw, fld, fld_lo, fld_hi, fld_all, Nat.reduceSub] <;> rfl
  refine (scal_word e w h0 (by decide)).trans ?_; unfold decodeScal64; rw [h0]
  refine Eq.trans (b := finish _ _) rfl ?_
  simp (disch := decide) only [hw, fld, fld_lo, fld_hi, fld_all, Nat.reduceSub]
  exact finish_ok rfl wf
theorem mma (acc da db : BitVec 4) (init : Init) (sat flush rel : BitVec 1) (stamp : Option (BitVec 20)) : Statement (.mma acc da db init sat flush rel stamp) := by
  refine w64 rfl rfl fun w hw wf => ?_
  cases init <;> cases stamp <;> (
    simp only [encMc, encStamp, encInit] at hw
    have h0 : fld w 0 7 = 1#7 := by simp (disch := decide) only [hw, fld, fld_lo, fld_hi, fld_all, Nat.reduceSub] <;> rfl
    unfold decodeWord decodeMtx decodeInit; rw [h0]
    refine Eq.trans (b := finish _ _) rfl ?_
    simp (disch := decide) only [hw, fld, fld_lo, fld_hi, fld_all, Nat.reduceSub]
    exact finish_ok rfl wf)
theorem mmas (acc da db sa sb : BitVec 4) (init : Init) (mode : BitVec 3) (sat flush ksel rel : BitVec 1) (stamp : Option (BitVec 20)) : Statement (.mmas acc da db sa sb init mode sat flush ksel rel stamp) := by
  refine w64 rfl rfl fun w hw wf => ?_
  cases init <;> cases stamp <;> (
    simp only [encMc, encStamp, encInit] at hw
    have h0 : fld w 0 7 = 2#7 := by simp (disch := decide) only [hw, fld, fld_lo, fld_hi, fld_all, Nat.reduceSub] <;> rfl
    unfold decodeWord decodeMtx decodeInit; rw [h0]
    refine Eq.trans (b := finish _ _) rfl ?_
    simp (disch := decide) only [hw, fld, fld_lo, fld_hi, fld_all, Nat.reduceSub]
    exact finish_ok rfl wf)
theorem mmai (acc da db : BitVec 4) (init : Init) (sat rel : BitVec 1) (stamp : Option (BitVec 20)) : Statement (.mmai acc da db init sat rel stamp) := by
  refine w64 rfl rfl fun w hw wf => ?_
  cases init <;> cases stamp <;> (
    simp only [encMc, encStamp, encInit] at hw
    have h0 : fld w 0 7 = 3#7 := by simp (disch := decide) only [hw, fld, fld_lo, fld_hi, fld_all, Nat.reduceSub] <;> rfl
    unfold decodeWord decodeMtx decodeInit; rw [h0]
    refine Eq.trans (b := finish _ _) rfl ?_
    simp (disch := decide) only [hw, fld, fld_lo, fld_hi, fld_all, Nat.reduceSub]
    exact finish_ok rfl wf)
theorem mmaj (scl : BitVec 1) (acc da db sa sb : BitVec 4) (init : Init) (mode : BitVec 3) (sat flush ksel rel : BitVec 1) (stamp : Option (BitVec 20)) : Statement (.mmaj scl acc da db sa sb init mode sat flush ksel rel stamp) := by
  refine w64 rfl rfl fun w hw wf => ?_
  cases init <;> cases stamp <;> (
    simp only [encMc, encStamp, encInit] at hw
    have h0 : fld w 0 7 = 4#7 := by simp (disch := decide) only [hw, fld, fld_lo, fld_hi, fld_all, Nat.reduceSub] <;> rfl
    unfold decodeWord decodeMtx decodeInit; rw [h0]
    refine Eq.trans (b := finish _ _) rfl ?_
    simp (disch := decide) only [hw, fld, fld_lo, fld_hi, fld_all, Nat.reduceSub]
    exact finish_ok rfl wf)
theorem mtile (d : BitVec 4) (a b : BitVec 5) : Statement (.mtile d a b) := w64 rfl rfl fun w hw wf => by
  have h0 : fld w 0 7 = 5#7 := by simp (disch := decide) only [hw, fld, fld_lo, fld_hi, fld_all, Nat.reduceSub] <;> rfl
  have h1 : fld w 32 2 = 0#2 := by simp (disch := decide) only [hw, fld, fld_lo, fld_hi, fld_all, Nat.reduceSub] <;> rfl
  unfold decodeWord decodeMtx; rw [h0, h1]
  refine Eq.trans (b := finish _ _) rfl ?_
  simp (disch := decide) only [hw, fld, fld_lo, fld_hi, fld_all, Nat.reduceSub]
  exact finish_ok rfl wf
theorem mtileAddr (d : BitVec 4) (a : BitVec 5) : Statement (.mtileAddr d a) := w64 rfl rfl fun w hw wf => by
  have h0 : fld w 0 7 = 5#7 := by simp (disch := decide) only [hw, fld, fld_lo, fld_hi, fld_all, Nat.reduceSub] <;> rfl
  have h1 : fld w 32 2 = 1#2 := by simp (disch := decide) only [hw, fld, fld_lo, fld_hi, fld_all, Nat.reduceSub] <;> rfl
  unfold decodeWord decodeMtx; rw [h0, h1]
  refine Eq.trans (b := finish _ _) rfl ?_
  simp (disch := decide) only [hw, fld, fld_lo, fld_hi, fld_all, Nat.reduceSub]
  exact finish_ok rfl wf
theorem mtileAdd (d : BitVec 4) (a : BitVec 5) : Statement (.mtileAdd d a) := w64 rfl rfl fun w hw wf => by
  have h0 : fld w 0 7 = 5#7 := by simp (disch := decide) only [hw, fld, fld_lo, fld_hi, fld_all, Nat.reduceSub] <;> rfl
  have h1 : fld w 32 2 = 2#2 := by simp (disch := decide) only [hw, fld, fld_lo, fld_hi, fld_all, Nat.reduceSub] <;> rfl
  unfold decodeWord decodeMtx; rw [h0, h1]
  refine Eq.trans (b := finish _ _) rfl ?_
  simp (disch := decide) only [hw, fld, fld_lo, fld_hi, fld_all, Nat.reduceSub]
  exact finish_ok rfl wf
theorem mtileLd (d : BitVec 4) (a : BitVec 5) (o : BitVec 16) : Statement (.mtileLd d a o) := w64 rfl rfl fun w hw wf => by
  have h0 : fld w 0 7 = 5#7 := by simp (disch := decide) only [hw, fld, fld_lo, fld_hi, fld_all, Nat.reduceSub] <;> rfl
  have h1 : fld w 32 2 = 3#2 := by simp (disch := decide) only [hw, fld, fld_lo, fld_hi, fld_all, Nat.reduceSub] <;> rfl
  unfold decodeWord decodeMtx; rw [h0, h1]
  refine Eq.trans (b := finish _ _) rfl ?_
  simp (disch := decide) only [hw, fld, fld_lo, fld_hi, fld_all, Nat.reduceSub]
  exact finish_ok rfl wf
theorem azero (n c : BitVec 4) : Statement (.azero n c) := w64 rfl rfl fun w hw wf => by
  have h0 : fld w 0 7 = 6#7 := by simp (disch := decide) only [hw, fld, fld_lo, fld_hi, fld_all, Nat.reduceSub] <;> rfl
  unfold decodeWord decodeMtx; rw [h0]
  refine Eq.trans (b := finish _ _) rfl ?_
  simp (disch := decide) only [hw, fld, fld_lo, fld_hi, fld_all, Nat.reduceSub]
  exact finish_ok rfl wf
theorem afade (n : BitVec 4) (a : BitVec 5) (sat flush : BitVec 1) : Statement (.afade n a sat flush) := w64 rfl rfl fun w hw wf => by
  have h0 : fld w 0 7 = 7#7 := by simp (disch := decide) only [hw, fld, fld_lo, fld_hi, fld_all, Nat.reduceSub] <;> rfl
  unfold decodeWord decodeMtx; rw [h0]
  refine Eq.trans (b := finish _ _) rfl ?_
  simp (disch := decide) only [hw, fld, fld_lo, fld_hi, fld_all, Nat.reduceSub]
  exact finish_ok rfl wf
theorem ald (n ds : BitVec 4) (flush ia : BitVec 1) : Statement (.ald n ds flush ia) := w64 rfl rfl fun w hw wf => by
  have h0 : fld w 0 7 = 8#7 := by simp (disch := decide) only [hw, fld, fld_lo, fld_hi, fld_all, Nat.reduceSub] <;> rfl
  unfold decodeWord decodeMtx; rw [h0]
  refine Eq.trans (b := finish _ _) rfl ?_
  simp (disch := decide) only [hw, fld, fld_lo, fld_hi, fld_all, Nat.reduceSub]
  exact finish_ok rfl wf
theorem ast (n ds : BitVec 4) (mode : BitVec 3) (sat flush ksel ia : BitVec 1) : Statement (.ast n ds mode sat flush ksel ia) := w64 rfl rfl fun w hw wf => by
  have h0 : fld w 0 7 = 9#7 := by simp (disch := decide) only [hw, fld, fld_lo, fld_hi, fld_all, Nat.reduceSub] <;> rfl
  unfold decodeWord decodeMtx; rw [h0]
  refine Eq.trans (b := finish _ _) rfl ?_
  simp (disch := decide) only [hw, fld, fld_lo, fld_hi, fld_all, Nat.reduceSub]
  exact finish_ok rfl wf
theorem aspill (n : BitVec 4) (a : BitVec 5) : Statement (.aspill n a) := w64 rfl rfl fun w hw wf => by
  have h0 : fld w 0 7 = 10#7 := by simp (disch := decide) only [hw, fld, fld_lo, fld_hi, fld_all, Nat.reduceSub] <;> rfl
  unfold decodeWord decodeMtx; rw [h0]
  refine Eq.trans (b := finish _ _) rfl ?_
  simp (disch := decide) only [hw, fld, fld_lo, fld_hi, fld_all, Nat.reduceSub]
  exact finish_ok rfl wf
theorem afill (n : BitVec 4) (a : BitVec 5) : Statement (.afill n a) := w64 rfl rfl fun w hw wf => by
  have h0 : fld w 0 7 = 11#7 := by simp (disch := decide) only [hw, fld, fld_lo, fld_hi, fld_all, Nat.reduceSub] <;> rfl
  unfold decodeWord decodeMtx; rw [h0]
  refine Eq.trans (b := finish _ _) rfl ?_
  simp (disch := decide) only [hw, fld, fld_lo, fld_hi, fld_all, Nat.reduceSub]
  exact finish_ok rfl wf
theorem qinit (a b c : BitVec 5) (n : BitVec 6) (ndb : BitVec 2) (npb : BitVec 4) (ty z : BitVec 1) : Statement (.qinit a b c n ndb npb ty z) := w64 rfl rfl fun w hw wf => by
  have h0 : fld w 0 7 = 1#7 := by simp (disch := decide) only [hw, fld, fld_lo, fld_hi, fld_all, Nat.reduceSub] <;> rfl
  unfold decodeWord decodeAst; rw [h0]
  refine Eq.trans (b := finish _ _) rfl ?_
  simp (disch := decide) only [hw, fld, fld_lo, fld_hi, fld_all, Nat.reduceSub]
  exact finish_ok rfl wf
theorem qmap (a : BitVec 5) : Statement (.qmap a) := w64 rfl rfl fun w hw wf => by
  have h0 : fld w 0 7 = 2#7 := by simp (disch := decide) only [hw, fld, fld_lo, fld_hi, fld_all, Nat.reduceSub] <;> rfl
  have h1 : fld w 32 1 = 0#1 := by simp (disch := decide) only [hw, fld, fld_lo, fld_hi, fld_all, Nat.reduceSub] <;> rfl
  unfold decodeWord decodeAst; rw [h0, h1]
  refine Eq.trans (b := finish _ _) (if_neg (by decide)) ?_
  simp (disch := decide) only [hw, fld, fld_lo, fld_hi, fld_all, Nat.reduceSub]
  exact finish_ok rfl wf
theorem qmapSt (a : BitVec 5) : Statement (.qmapSt a) := w64 rfl rfl fun w hw wf => by
  have h0 : fld w 0 7 = 2#7 := by simp (disch := decide) only [hw, fld, fld_lo, fld_hi, fld_all, Nat.reduceSub] <;> rfl
  have h1 : fld w 32 1 = 1#1 := by simp (disch := decide) only [hw, fld, fld_lo, fld_hi, fld_all, Nat.reduceSub] <;> rfl
  unfold decodeWord decodeAst; rw [h0, h1]
  refine Eq.trans (b := finish _ _) (if_pos (by decide)) ?_
  simp (disch := decide) only [hw, fld, fld_lo, fld_hi, fld_all, Nat.reduceSub]
  exact finish_ok rfl wf
theorem qldg (g : BitVec 3) (a : BitVec 5) (k : BitVec 2) (ty : BitVec 1) : Statement (.qldg g a k ty) := w64 rfl rfl fun w hw wf => by
  have h0 : fld w 0 7 = 3#7 := by simp (disch := decide) only [hw, fld, fld_lo, fld_hi, fld_all, Nat.reduceSub] <;> rfl
  unfold decodeWord decodeAst; rw [h0]
  refine Eq.trans (b := finish _ _) rfl ?_
  simp (disch := decide) only [hw, fld, fld_lo, fld_hi, fld_all, Nat.reduceSub]
  exact finish_ok rfl wf
theorem qgate (g : BitVec 3) (a b : BitVec 5) : Statement (.qgate g a b) := w64 rfl rfl fun w hw wf => by
  have h0 : fld w 0 7 = 4#7 := by simp (disch := decide) only [hw, fld, fld_lo, fld_hi, fld_all, Nat.reduceSub] <;> rfl
  unfold decodeWord decodeAst; rw [h0]
  refine Eq.trans (b := finish _ _) rfl ?_
  simp (disch := decide) only [hw, fld, fld_lo, fld_hi, fld_all, Nat.reduceSub]
  exact finish_ok rfl wf
theorem qdiag (g : BitVec 3) (a b : BitVec 5) : Statement (.qdiag g a b) := w64 rfl rfl fun w hw wf => by
  have h0 : fld w 0 7 = 5#7 := by simp (disch := decide) only [hw, fld, fld_lo, fld_hi, fld_all, Nat.reduceSub] <;> rfl
  unfold decodeWord decodeAst; rw [h0]
  refine Eq.trans (b := finish _ _) rfl ?_
  simp (disch := decide) only [hw, fld, fld_lo, fld_hi, fld_all, Nat.reduceSub]
  exact finish_ok rfl wf
theorem qswap (a b : BitVec 5) : Statement (.qswap a b) := w64 rfl rfl fun w hw wf => by
  have h0 : fld w 0 7 = 6#7 := by simp (disch := decide) only [hw, fld, fld_lo, fld_hi, fld_all, Nat.reduceSub] <;> rfl
  unfold decodeWord decodeAst; rw [h0]
  refine Eq.trans (b := finish _ _) rfl ?_
  simp (disch := decide) only [hw, fld, fld_lo, fld_hi, fld_all, Nat.reduceSub]
  exact finish_ok rfl wf
theorem qperm (a : BitVec 5) : Statement (.qperm a) := w64 rfl rfl fun w hw wf => by
  have h0 : fld w 0 7 = 7#7 := by simp (disch := decide) only [hw, fld, fld_lo, fld_hi, fld_all, Nat.reduceSub] <;> rfl
  unfold decodeWord decodeAst; rw [h0]
  refine Eq.trans (b := finish _ _) rfl ?_
  simp (disch := decide) only [hw, fld, fld_lo, fld_hi, fld_all, Nat.reduceSub]
  exact finish_ok rfl wf
theorem qprob (d a b c : BitVec 5) : Statement (.qprob d a b c) := w64 rfl rfl fun w hw wf => by
  have h0 : fld w 0 7 = 8#7 := by simp (disch := decide) only [hw, fld, fld_lo, fld_hi, fld_all, Nat.reduceSub] <;> rfl
  unfold decodeWord decodeAst; rw [h0]
  refine Eq.trans (b := finish _ _) rfl ?_
  simp (disch := decide) only [hw, fld, fld_lo, fld_hi, fld_all, Nat.reduceSub]
  exact finish_ok rfl wf
theorem qnorm (d c : BitVec 5) : Statement (.qnorm d c) := w64 rfl rfl fun w hw wf => by
  have h0 : fld w 0 7 = 9#7 := by simp (disch := decide) only [hw, fld, fld_lo, fld_hi, fld_all, Nat.reduceSub] <;> rfl
  unfold decodeWord decodeAst; rw [h0]
  refine Eq.trans (b := finish _ _) rfl ?_
  simp (disch := decide) only [hw, fld, fld_lo, fld_hi, fld_all, Nat.reduceSub]
  exact finish_ok rfl wf
theorem qsample (d a c : BitVec 5) : Statement (.qsample d a c) := w64 rfl rfl fun w hw wf => by
  have h0 : fld w 0 7 = 10#7 := by simp (disch := decide) only [hw, fld, fld_lo, fld_hi, fld_all, Nat.reduceSub] <;> rfl
  unfold decodeWord decodeAst; rw [h0]
  refine Eq.trans (b := finish _ _) rfl ?_
  simp (disch := decide) only [hw, fld, fld_lo, fld_hi, fld_all, Nat.reduceSub]
  exact finish_ok rfl wf
theorem qscale (a : BitVec 5) : Statement (.qscale a) := w64 rfl rfl fun w hw wf => by
  have h0 : fld w 0 7 = 11#7 := by simp (disch := decide) only [hw, fld, fld_lo, fld_hi, fld_all, Nat.reduceSub] <;> rfl
  unfold decodeWord decodeAst; rw [h0]
  refine Eq.trans (b := finish _ _) rfl ?_
  simp (disch := decide) only [hw, fld, fld_lo, fld_hi, fld_all, Nat.reduceSub]
  exact finish_ok rfl wf
theorem join : Statement .join := ctl rfl rfl fun w hw wf => by
  have h0 : fld w 25 7 = 33#7 := by simp (disch := decide) only [hw, fld, fld_lo, fld_hi, fld_all, Nat.reduceSub] <;> rfl
  unfold decodeCtl; rw [h0]
  refine Eq.trans (b := finish _ _) rfl ?_
  simp (disch := decide) only [hw, fld, fld_lo, fld_hi, fld_all, Nat.reduceSub]
  exact finish_ok rfl wf
theorem rend : Statement .rend := ctl rfl rfl fun w hw wf => by
  have h0 : fld w 25 7 = 34#7 := by simp (disch := decide) only [hw, fld, fld_lo, fld_hi, fld_all, Nat.reduceSub] <;> rfl
  unfold decodeCtl; rw [h0]
  refine Eq.trans (b := finish _ _) rfl ?_
  simp (disch := decide) only [hw, fld, fld_lo, fld_hi, fld_all, Nat.reduceSub]
  exact finish_ok rfl wf
theorem eret : Statement .eret := ctl rfl rfl fun w hw wf => by
  have h0 : fld w 25 7 = 51#7 := by simp (disch := decide) only [hw, fld, fld_lo, fld_hi, fld_all, Nat.reduceSub] <;> rfl
  unfold decodeCtl; rw [h0]
  refine Eq.trans (b := finish _ _) rfl ?_
  simp (disch := decide) only [hw, fld, fld_lo, fld_hi, fld_all, Nat.reduceSub]
  exact finish_ok rfl wf
theorem txopen : Statement .txopen := ctl rfl rfl fun w hw wf => by
  have h0 : fld w 25 7 = 88#7 := by simp (disch := decide) only [hw, fld, fld_lo, fld_hi, fld_all, Nat.reduceSub] <;> rfl
  unfold decodeCtl; rw [h0]
  refine Eq.trans (b := finish _ _) rfl ?_
  simp (disch := decide) only [hw, fld, fld_lo, fld_hi, fld_all, Nat.reduceSub]
  exact finish_ok rfl wf
theorem txclose : Statement .txclose := ctl rfl rfl fun w hw wf => by
  have h0 : fld w 25 7 = 94#7 := by simp (disch := decide) only [hw, fld, fld_lo, fld_hi, fld_all, Nat.reduceSub] <;> rfl
  unfold decodeCtl; rw [h0]
  refine Eq.trans (b := finish _ _) rfl ?_
  simp (disch := decide) only [hw, fld, fld_lo, fld_hi, fld_all, Nat.reduceSub]
  exact finish_ok rfl wf
theorem qsync : Statement .qsync := w64 rfl rfl fun w hw wf => by
  have h0 : fld w 0 7 = 12#7 := by simp (disch := decide) only [hw, fld, fld_lo, fld_hi, fld_all, Nat.reduceSub] <;> rfl
  unfold decodeWord decodeAst; rw [h0]
  refine Eq.trans (b := finish _ _) rfl ?_
  simp (disch := decide) only [hw, fld, fld_lo, fld_hi, fld_all, Nat.reduceSub]
  exact finish_ok rfl wf
theorem rkeyWrite (a : BitVec 6) : Statement (.rkeyWrite a) := ctl rfl rfl fun w hw wf => by
  have h0 : fld w 25 7 = 49#7 := by simp (disch := decide) only [hw, fld, fld_lo, fld_hi, fld_all, Nat.reduceSub] <;> rfl
  unfold decodeCtl; rw [h0]
  refine Eq.trans (b := finish _ _) rfl ?_
  simp (disch := decide) only [hw, fld, fld_lo, fld_hi, fld_all, Nat.reduceSub]
  exact finish_ok rfl wf
theorem nfdWrite (k : BitVec 3) (a : BitVec 6) : Statement (.nfdWrite k a) := ctl rfl rfl fun w hw wf => by
  have h0 : fld w 25 7 = 49#7 := by simp (disch := decide) only [hw, fld, fld_lo, fld_hi, fld_all, Nat.reduceSub] <;> rfl
  have h1 : fld w 0 12 = (0x008#9 ++ k : BitVec 12) := by rw [hw]; exact join_low _ _ _
  unfold decodeCtl; rw [h0, h1]
  refine Eq.trans (b := finish _ _) rfl ?_
  simp (disch := decide) only [hw, fld, fld_lo, fld_hi, fld_all, Nat.reduceSub]
  exact finish_ok rfl wf
theorem pageWalk (die : BitVec 2) (asid : BitVec 16) (va : BitVec 48) : Statement (.pageWalk die asid va) := noWord rfl rfl
theorem reachWalkComplete : Statement .reachWalkComplete := noWord rfl rfl
theorem nmMom (d a b c : BitVec 6) : Statement (.nmMom d a b c) := ctl rfl rfl fun w hw wf => by
  have h0 : fld w 25 7 = 96#7 := by simp (disch := decide) only [hw, fld, fld_lo, fld_hi, fld_all, Nat.reduceSub] <;> rfl
  unfold decodeCtl; rw [h0]
  refine Eq.trans (b := finish _ _) rfl ?_
  simp (disch := decide) only [hw, fld, fld_lo, fld_hi, fld_all, Nat.reduceSub]
  exact finish_ok rfl wf
theorem nmAdamw (d a b c : BitVec 6) : Statement (.nmAdamw d a b c) := ctl rfl rfl fun w hw wf => by
  have h0 : fld w 25 7 = 96#7 := by simp (disch := decide) only [hw, fld, fld_lo, fld_hi, fld_all, Nat.reduceSub] <;> rfl
  unfold decodeCtl; rw [h0]
  refine Eq.trans (b := finish _ _) rfl ?_
  simp (disch := decide) only [hw, fld, fld_lo, fld_hi, fld_all, Nat.reduceSub]
  exact finish_ok rfl wf
theorem nmAxpy (d a b c : BitVec 6) : Statement (.nmAxpy d a b c) := ctl rfl rfl fun w hw wf => by
  have h0 : fld w 25 7 = 96#7 := by simp (disch := decide) only [hw, fld, fld_lo, fld_hi, fld_all, Nat.reduceSub] <;> rfl
  unfold decodeCtl; rw [h0]
  refine Eq.trans (b := finish _ _) rfl ?_
  simp (disch := decide) only [hw, fld, fld_lo, fld_hi, fld_all, Nat.reduceSub]
  exact finish_ok rfl wf
theorem nmScale (d a b c : BitVec 6) : Statement (.nmScale d a b c) := ctl rfl rfl fun w hw wf => by
  have h0 : fld w 25 7 = 96#7 := by simp (disch := decide) only [hw, fld, fld_lo, fld_hi, fld_all, Nat.reduceSub] <;> rfl
  unfold decodeCtl; rw [h0]
  refine Eq.trans (b := finish _ _) rfl ?_
  simp (disch := decide) only [hw, fld, fld_lo, fld_hi, fld_all, Nat.reduceSub]
  exact finish_ok rfl wf
theorem nmFill (d a b c : BitVec 6) : Statement (.nmFill d a b c) := ctl rfl rfl fun w hw wf => by
  have h0 : fld w 25 7 = 96#7 := by simp (disch := decide) only [hw, fld, fld_lo, fld_hi, fld_all, Nat.reduceSub] <;> rfl
  unfold decodeCtl; rw [h0]
  refine Eq.trans (b := finish _ _) rfl ?_
  simp (disch := decide) only [hw, fld, fld_lo, fld_hi, fld_all, Nat.reduceSub]
  exact finish_ok rfl wf
theorem nmCopy (d a b c : BitVec 6) : Statement (.nmCopy d a b c) := ctl rfl rfl fun w hw wf => by
  have h0 : fld w 25 7 = 96#7 := by simp (disch := decide) only [hw, fld, fld_lo, fld_hi, fld_all, Nat.reduceSub] <;> rfl
  unfold decodeCtl; rw [h0]
  refine Eq.trans (b := finish _ _) rfl ?_
  simp (disch := decide) only [hw, fld, fld_lo, fld_hi, fld_all, Nat.reduceSub]
  exact finish_ok rfl wf
theorem nmCast (d a b c : BitVec 6) : Statement (.nmCast d a b c) := ctl rfl rfl fun w hw wf => by
  have h0 : fld w 25 7 = 96#7 := by simp (disch := decide) only [hw, fld, fld_lo, fld_hi, fld_all, Nat.reduceSub] <;> rfl
  unfold decodeCtl; rw [h0]
  refine Eq.trans (b := finish _ _) rfl ?_
  simp (disch := decide) only [hw, fld, fld_lo, fld_hi, fld_all, Nat.reduceSub]
  exact finish_ok rfl wf
theorem nmClamp (d a b c : BitVec 6) : Statement (.nmClamp d a b c) := ctl rfl rfl fun w hw wf => by
  have h0 : fld w 25 7 = 96#7 := by simp (disch := decide) only [hw, fld, fld_lo, fld_hi, fld_all, Nat.reduceSub] <;> rfl
  unfold decodeCtl; rw [h0]
  refine Eq.trans (b := finish _ _) rfl ?_
  simp (disch := decide) only [hw, fld, fld_lo, fld_hi, fld_all, Nat.reduceSub]
  exact finish_ok rfl wf
theorem nmRecode (d a b c : BitVec 6) : Statement (.nmRecode d a b c) := ctl rfl rfl fun w hw wf => by
  have h0 : fld w 25 7 = 96#7 := by simp (disch := decide) only [hw, fld, fld_lo, fld_hi, fld_all, Nat.reduceSub] <;> rfl
  unfold decodeCtl; rw [h0]
  refine Eq.trans (b := finish _ _) rfl ?_
  simp (disch := decide) only [hw, fld, fld_lo, fld_hi, fld_all, Nat.reduceSub]
  exact finish_ok rfl wf
theorem nmScrub (d a b c : BitVec 6) : Statement (.nmScrub d a b c) := ctl rfl rfl fun w hw wf => by
  have h0 : fld w 25 7 = 96#7 := by simp (disch := decide) only [hw, fld, fld_lo, fld_hi, fld_all, Nat.reduceSub] <;> rfl
  unfold decodeCtl; rw [h0]
  refine Eq.trans (b := finish _ _) rfl ?_
  simp (disch := decide) only [hw, fld, fld_lo, fld_hi, fld_all, Nat.reduceSub]
  exact finish_ok rfl wf
theorem nmFold (d a b c : BitVec 6) : Statement (.nmFold d a b c) := ctl rfl rfl fun w hw wf => by
  have h0 : fld w 25 7 = 96#7 := by simp (disch := decide) only [hw, fld, fld_lo, fld_hi, fld_all, Nat.reduceSub] <;> rfl
  unfold decodeCtl; rw [h0]
  refine Eq.trans (b := finish _ _) rfl ?_
  simp (disch := decide) only [hw, fld, fld_lo, fld_hi, fld_all, Nat.reduceSub]
  exact finish_ok rfl wf
theorem nmCkpt (d a b c : BitVec 6) : Statement (.nmCkpt d a b c) := ctl rfl rfl fun w hw wf => by
  have h0 : fld w 25 7 = 96#7 := by simp (disch := decide) only [hw, fld, fld_lo, fld_hi, fld_all, Nat.reduceSub] <;> rfl
  unfold decodeCtl; rw [h0]
  refine Eq.trans (b := finish _ _) rfl ?_
  simp (disch := decide) only [hw, fld, fld_lo, fld_hi, fld_all, Nat.reduceSub]
  exact finish_ok rfl wf
theorem nmComplete : Statement .nmComplete := noWord rfl rfl
theorem collAllGather (sc : BitVec 3) (u : BitVec 2) (a : BitVec 5) (ev : BitVec 14) : Statement (.collAllGather sc u a ev) := w64 rfl rfl fun w hw wf => by
  have h0 : fld w 0 7 = 8#7 := by simp (disch := decide) only [hw, fld, fld_lo, fld_hi, fld_all, Nat.reduceSub] <;> rfl
  unfold decodeWord decodeCpy; rw [h0]
  refine Eq.trans (b := finish _ _) rfl ?_
  simp (disch := decide) only [hw, fld, fld_lo, fld_hi, fld_all, Nat.reduceSub]
  exact finish_ok rfl wf
theorem collReduceScatter (sc : BitVec 3) (u : BitVec 2) (a : BitVec 5) (ev : BitVec 14) : Statement (.collReduceScatter sc u a ev) := w64 rfl rfl fun w hw wf => by
  have h0 : fld w 0 7 = 8#7 := by simp (disch := decide) only [hw, fld, fld_lo, fld_hi, fld_all, Nat.reduceSub] <;> rfl
  unfold decodeWord decodeCpy; rw [h0]
  refine Eq.trans (b := finish _ _) rfl ?_
  simp (disch := decide) only [hw, fld, fld_lo, fld_hi, fld_all, Nat.reduceSub]
  exact finish_ok rfl wf
theorem chainRecordRun (c : BitVec 3) : Statement (.chainRecordRun c) := noWord rfl rfl
theorem copyRelease (k : BitVec 4) : Statement (.copyRelease k) := noWord rfl rfl
theorem copyDelivery (k : BitVec 4) : Statement (.copyDelivery k) := noWord rfl rfl
theorem streamEntryArrival (k : BitVec 4) : Statement (.streamEntryArrival k) := noWord rfl rfl
theorem stampedIssue (e : Eng64) (k : BitVec 8) : Statement (.stampedIssue e k) := noWord rfl rfl
theorem collectiveRun (k : BitVec 8) (remote : List RemotePart) (dead : Bool) : Statement (.collectiveRun k remote dead) := noWord rfl rfl
theorem matrixCommandRun (sib : Bool) : Statement (.matrixCommandRun sib) := noWord rfl rfl
theorem astroCollectiveRun (die : BitVec 2) (remote : List RemoteShare) (dead : Bool) : Statement (.astroCollectiveRun die remote dead) := noWord rfl rfl
theorem hostSubmit (recva : BitVec 42) (sasid : BitVec 16) : Statement (.hostSubmit recva sasid) := noWord rfl rfl
theorem jobAdmission : Statement .jobAdmission := noWord rfl rfl
theorem barrierRelease (sc : BitVec 3) (job : BitVec 16) (remote : RemoteArrivals) : Statement (.barrierRelease sc job remote) := noWord rfl rfl
theorem exchangeEnd : Statement .exchangeEnd := noWord rfl rfl
theorem preemptRequest (job : BitVec 16) : Statement (.preemptRequest job) := noWord rfl rfl
theorem preemptTimeout (job : BitVec 16) : Statement (.preemptTimeout job) := noWord rfl rfl
theorem spilledJobResume (job : BitVec 16) : Statement (.spilledJobResume job) := noWord rfl rfl
theorem timeLimit (job : BitVec 16) : Statement (.timeLimit job) := noWord rfl rfl
theorem deadlock : Statement .deadlock := noWord rfl rfl
theorem faultFrameWrite : Statement .faultFrameWrite := noWord rfl rfl
theorem resume (core : BitVec 8) : Statement (.resume core) := noWord rfl rfl
theorem aresume (die : BitVec 2) : Statement (.aresume die) := noWord rfl rfl
theorem areaLimitWrite (off : BitVec 12) (v : BitVec 64) : Statement (.areaLimitWrite off v) := noWord rfl rfl
theorem firmwareStart (core : BitVec 8) : Statement (.firmwareStart core) := noWord rfl rfl
theorem redApply : Statement .redApply := noWord rfl rfl
theorem chronAlign (port : BitVec 4) (stamp : BitVec 64) : Statement (.chronAlign port stamp) := noWord rfl rfl
theorem carafeRead (pa : BitVec 41) (src : BitVec 16) (kind : BitVec 4) (key : BitVec 8) : Statement (.carafeRead pa src kind key) := noWord rfl rfl
theorem carafeWrite (pa : BitVec 41) (src : BitVec 16) (key : BitVec 8) (mask : BitVec 64) (data : BitVec 512) (tags : BitVec 8) : Statement (.carafeWrite pa src key mask data tags) := noWord rfl rfl
theorem writeReachesArray (stack : BitVec 4) : Statement (.writeReachesArray stack) := noWord rfl rfl
theorem scrubPeriodEnd : Statement .scrubPeriodEnd := noWord rfl rfl
theorem patrolRead (stack : BitVec 4) : Statement (.patrolRead stack) := noWord rfl rfl
theorem keySlotWrite (off : BitVec 16) (v : BitVec 64) : Statement (.keySlotWrite off v) := noWord rfl rfl
theorem regionDeclare (v : BitVec 4) (w : BitVec 64) : Statement (.regionDeclare v w) := noWord rfl rfl
theorem regionRetire (v : BitVec 4) : Statement (.regionRetire v) := noWord rfl rfl
theorem versionPassEnd (v stack : BitVec 4) : Statement (.versionPassEnd v stack) := noWord rfl rfl
theorem forcedPass (v stack : BitVec 4) : Statement (.forcedPass v stack) := noWord rfl rfl
theorem packageVote (job : BitVec 16) : Statement (.packageVote job) := noWord rfl rfl
theorem votePacket (p : BitVec 128) : Statement (.votePacket p) := noWord rfl rfl
theorem rootTimeout (job : BitVec 16) : Statement (.rootTimeout job) := noWord rfl rfl
theorem decisionPacket (p : BitVec 128) : Statement (.decisionPacket p) := noWord rfl rfl
theorem decisionApply (job : BitVec 16) : Statement (.decisionApply job) := noWord rfl rfl
theorem hostRead (pa : BitVec 40) : Statement (.hostRead pa) := noWord rfl rfl
theorem hostWrite (pa : BitVec 40) (mask : BitVec 64) (data : BitVec 512) : Statement (.hostWrite pa mask data) := noWord rfl rfl
theorem mailboxAttest (op : BitVec 8) : Statement (.mailboxAttest op) := noWord rfl rfl
theorem mailboxResponse : Statement .mailboxResponse := noWord rfl rfl
theorem hostBarrierArrive (slot : BitVec 4) : Statement (.hostBarrierArrive slot) := noWord rfl rfl
theorem imageChunk (q : BitVec 32) (off : BitVec 64) (bytes : List (BitVec 8)) : Statement (.imageChunk q off bytes) := noWord rfl rfl
theorem imageCommit (q : BitVec 32) : Statement (.imageCommit q) := noWord rfl rfl
theorem attestationRequest (q : BitVec 32) (nonce : BitVec 512) : Statement (.attestationRequest q nonce) := noWord rfl rfl
theorem telemetryRequest (q : BitVec 32) : Statement (.telemetryRequest q) := noWord rfl rfl
theorem podMembership (q : BitVec 32) (group : BitVec 16) (members : List (BitVec 12)) : Statement (.podMembership q group members) := noWord rfl rfl
theorem statusRequest (q : BitVec 32) : Statement (.statusRequest q) := noWord rfl rfl
theorem flitReceive (port : BitVec 4) (body : FlitBody) (crcOk : Bool) (fec : BitVec 32) : Statement (.flitReceive port body crcOk fec) := noWord rfl rfl
theorem portDead (port : BitVec 4) : Statement (.portDead port) := noWord rfl rfl
theorem coldReset (failed : BitVec 256) : Statement (.coldReset failed) := noWord rfl rfl
theorem warmReset (failed : BitVec 256) : Statement (.warmReset failed) := noWord rfl rfl
theorem sramError (place : SramPlace) : Statement (.sramError place) := noWord rfl rfl
theorem thermalThrottle : Statement .thermalThrottle := noWord rfl rfl
theorem thermalShutdown : Statement .thermalShutdown := noWord rfl rfl
theorem registerWrite (off : BitVec 41) (v : BitVec 64) : Statement (.registerWrite off v) := noWord rfl rfl
theorem codeFetch (k : Strm) : Statement (.codeFetch k) := noWord rfl rfl
theorem loadDataReturn : Statement .loadDataReturn := noWord rfl rfl
theorem writeCompletesAtHome : Statement .writeCompletesAtHome := noWord rfl rfl
theorem vectorCompletion : Statement .vectorCompletion := noWord rfl rfl
theorem commandCycle (stack : BitVec 4) (pair : BitVec 5) (col : Bool) : Statement (.commandCycle stack pair col) := noWord rfl rfl
theorem endedByTheOs (job : BitVec 16) (st cause : BitVec 8) (src : BitVec 16) (va : BitVec 64) : Statement (.endedByTheOs job st cause src va) := noWord rfl rfl
theorem fencingOffOfACore (core : BitVec 8) : Statement (.fencingOffOfACore core) := noWord rfl rfl
theorem portTrained (port : BitVec 4) (peer : BitVec 12) : Statement (.portTrained port peer) := noWord rfl rfl
theorem powerLoss (flashWrite : Bool) : Statement (.powerLoss flashWrite) := noWord rfl rfl
theorem fallBelowLimits : Statement .fallBelowLimits := noWord rfl rfl

end Laws.RoundTrip

end Sys2Proof
end

