-- ==== Sys2Proof/Tests/Slice0.lean ====
section
/-! SUPPORT. Tests of the model against the manual, one step or one word each, and states that meet the hypotheses of the statements:
`meets_<statement>` shows that its hypotheses hold together, clause by clause at the edges of their ranges. -/

namespace Sys2Proof.Tests

open Sys2Proof Sys2Proof.Machine

set_option Elab.async false
/-! ### Well-formedness -/

/-- An ill-formed term for each check of `illegalForm`: operations of a type that no table lists (04 R149, 05 R184, R204). -/
theorem test_wf_illegal : [Instr.redAdd 1 2 8 3, .redMin 1 2 4 3, .redMax 1 2 15 3, .redAnd 1 2 0 3, .redOr 1 2 1 3, .redXor 1 2 4 3,
    .vdiv 1 2 3 1 0, .vsqrt 1 2 2 0, .vrcp 1 2 3 0, .vexp2 1 2 1 0, .vlog2 1 2 2 0, .vrandF 1 1 0].all
    (fun i => illegalForm i && !WellFormed i) = true := by decide +kernel

/-- An ill-formed term for each check of `reservedForm` on the control and copy words: scope 7, codes of `COND` and `U`, a carrier
on a count flag, a page size, a class, a `MODE` (00 R7, 01 R12, 04 R141, R153, 07 R249, 09 R307, 12 R400). -/
theorem test_wf_reserved : [Instr.cmp 0 6 1 2 0, .cmp 0 0 1 2 1, .cmpImm 0 7 1 0 5, .redAdd 1 2 0 7, .redMin 1 2 0 7, .redMax 1 2 0 7,
    .redAnd 1 2 2 7, .redOr 1 2 3 7, .redXor 1 2 2 7, .flagcfg 1 0 0 1, .ssync 1 2 7, .tokpass 1 2 7, .mfence 1 7 0, .tlbinv 1 2 7,
    .tlbinvr 1 2 3 7, .pgsplit 1 2 3 7, .publish 1 7, .objinit 1 2 0, .nmfence 1 7, .nmfenceArray 1 7, .cpy 7 0 1 2 3 0 0,
    .cpys 7 0 1 2 3 4 0, .gather 7 0 1 2 3 4 0 0, .scatter 7 0 1 2 3 4 0 0, .bind 7 0 1 2 3 0 0, .collAllReduce 7 0 1 0,
    .collAllGather 7 0 1 0, .collReduceScatter 7 0 1 0, .nmirror 7 0 1 2 3 4 0, .scalCmp .cpy 0 1 1 2 (.imm 0),
    .mmas 0 1 2 3 4 .keep 7 0 0 0 0 none, .mmaj 1 0 1 2 3 4 .keep 7 0 0 0 0 none, .mmaj 0 0 1 2 3 0 .keep 0 0 0 0 0 none,
    .ast 0 1 7 0 0 0 0].all (fun i => reservedForm i && !illegalForm i && !WellFormed i) = true := by decide +kernel

/-- The same on the vector words: a source above `q7`, an integer type of a floating form, `COND`, a conversion type (05 R177, R180,
R181, R188, R193, R209). -/
theorem test_wf_reserved_vector : [Instr.pfxRnd 0 0 0 7 0, .vadd 1 40 2 0 0, .vsub 1 2 63 0 0, .vmul 1 2 3 4 0, .vdiv 1 40 3 0 0,
    .vmin 1 2 3 7 0, .vmax 1 2 41 0 0, .vcps 1 2 3 5 0, .vsqrt 1 2 4 0, .vrcp 1 40 0 0, .vexp2 1 40 0 0, .vlog2 1 40 0 0, .vabs 1 2 4 0,
    .vneg 1 50 0 0, .vcmp 1 2 3 0 8 0, .vcmpInt 1 2 3 0 6 0, .vsel 1 40 2 0 0, .viadd 1 2 40 0 0, .visub 1 40 2 0 0, .vimul 1 2 40 0 0,
    .vshl 1 40 2 0 0, .vshr 1 40 2 0 0, .vsar 1 40 2 0 0, .vand 1 40 2 0 0, .vor 1 40 2 0 0, .vxor 1 40 2 0 0, .vpopc 1 40 0 0,
    .vclz 1 40 0 0, .vfma 1 2 3 40 0 0, .vfms 1 2 3 4 6 0, .vnfma 1 40 3 4 0 0, .vimad 1 2 3 40 0 0, .vbfx 1 40 0 0 1 0, .vbfi 1 40 0 0 1 0,
    .vfsh 1 2 40 0 0 1 0, .vcvt 1 2 12 0 0, .vcvt 1 2 0 24 0, .vredsum 1 2 4 0 0 0, .vredmax 1 40 0 1 0 0, .vredmin 1 2 5 0 0 0,
    .vmov 1 40 0, .vtrans 1 40 0, .vrotRow 1 40 2 0, .vrotCol 1 40 2 0, .vperm 1 40 2 0, .bnet 1 2 40 0 0, .bnload 40 0 0,
    .vscalCmp 0 6 0 1 2 0, .vscalCmpImm 0 0 1 1 2 0].all (fun i => reservedForm i && !WellFormed i) = true := by decide +kernel

/-- Neighbours of those that the tables list. -/
theorem test_wf_good : [Instr.redAdd 1 2 7 6, .redMin 1 2 3 3, .redAnd 1 2 2 3, .vdiv 1 2 3 3 0, .vsqrt 1 2 0 0, .vrandF 1 3 0,
    .cmp 0 5 1 2 1, .cmp 0 1 1 2 0, .flagcfg 1 1 0 1, .flagcfg 1 0 3 0, .ssync 1 2 6, .pgsplit 1 2 3 6, .objinit 1 2 3, .vadd 1 39 31 3 0,
    .vcmp 1 2 3 0 7 0, .vcmpInt 1 2 3 0 5 0, .vcvt 1 2 11 23 0, .vredsum 1 2 7 1 0 0, .mmaj 0 0 1 2 0 0 .keep 0 1 1 0 0 none,
    .ast 0 1 6 0 0 0 0, .join, .rend, .jobAdmission].all WellFormed = true := by decide +kernel

/-! ### Decoding: words written out bit by bit in the spec -/

/-- 04 R145's example program, and 01 R24's words. -/
theorem test_decode_control : decodeWord .ctl 0x16480005 = .ok (.li 9 5) ∧ decodeWord .ctl 0x16500000 = .ok (.li 10 0) ∧
    decodeWord .ctl 0x02514480 = .ok (.add 10 10 9) ∧ decodeWord .ctl 0x264FFFFF = .ok (.loop 9 0x7FFFF) ∧
    decodeWord .ctl 0x1241400F = .ok (.cmpImm 1 0 10 0 15) ∧ decodeWord .ctl 0x24400002 = .ok (.bc 1 0 2) ∧
    decodeWord .ctl 0x64000001 = .ok (.trap 0 1) ∧ decodeWord .ctl 0x44000000 = .ok .rend ∧ decodeWord .ctl 0x40000001 = .ok (.fork 1) ∧
    decodeWord .ctl 0x42000000 = .ok .join ∧ decodeWord .ctl 0x66000000 = .ok .eret ∧ decodeWord .ctl 0x66000001 = .error .reserved := by
  refine ⟨rfl, rfl, rfl, rfl, rfl, rfl, rfl, rfl, rfl, rfl, rfl, rfl⟩

/-- The words of the examples of chapters 07, 08, 11, 12 and 13. -/
theorem test_decode_units : decodeWord .ctl 0x92B28A90 = .ok (.pgsplit 22 20 21 1) ∧ decodeWord .ctl 0x96B28B88 = .ok (.pgcoll 22 20 23 1) ∧
    decodeWord .ctl 0x80410000 = .ok (.wincfg 2 8) ∧ decodeWord .ctl 0x84292000 = .ok (.winq 5 9) ∧
    decodeWord .ctl 0xC061049C = .ok (.nmSgdf 12 8 9 14) ∧ decodeWord .ctl 0xC2801000 = .ok (.nmfence 16 4) ∧
    decodeWord .ctl 0xAA0104C0 = .ok (.objinit 8 9 2) ∧ decodeWord .ctl 0xA6510002 = .ok (.stref 10 8 2) ∧
    decodeWord .ctl 0xA0010C00 = .ok (.publish 8 3) ∧ decodeWord .ctl 0xA2300000 = .ok (.pubwait 6) ∧
    decodeWord .ctl 0xB0000000 = .ok .txopen ∧ decodeWord .ctl 0xB202CA00 = .ok (.txvote 22 20) ∧
    decodeWord .ctl 0xB4B80000 = .ok (.txwait 23) ∧ decodeWord .ctl 0xBC000000 = .ok .txclose := by
  refine ⟨rfl, rfl, rfl, rfl, rfl, rfl, rfl, rfl, rfl, rfl, rfl, rfl, rfl, rfl⟩

/-- The words of the examples of chapters 05, 06, 09 and 10. -/
theorem test_decode_streams : decodeWord .vec 0x0200903E = .ok (.vshapeset 1 4 2 1) ∧ decodeWord .vec 0x0A010049 = .ok (.vld 1 8 0 2 0 0 0) ∧
    decodeWord .vec 0x08210206 = .ok (.vmul 1 1 2 0 1) ∧ decodeWord .vec 0x2021850C = .ok (.vcmp 1 1 3 0 5 0) ∧
    decodeWord .vec 0x04FC = .ok (.pfxRnd 0 0 0 2 0) ∧ decodeWord .cpy 0x1B169502 = .ok (.cpys 3 0 10 9 11 12 0) ∧
    decodeWord .cpy 0x1E = .ok (.scalRend .cpy) ∧ decodeWord .mtx 0x10010101 = .ok (.mma 1 0 1 .zero 0 0 0 none) ∧
    decodeWord .mtx 0x2C020021001 = .ok (.mma 0 1 2 (.fade 11) 0 0 0 none) ∧ decodeWord .mtx 0x400000089 = .ok (.ast 1 4 0 0 0 0 0) ∧
    decodeWord .mtx 0x0010000300008085 = .ok (.mtileLd 1 8 16) ∧ decodeWord .ast 0x000020450342C001 = .ok (.qinit 12 1 13 5 1 0 0 1) ∧
    decodeWord .ast 0x100009003 = .ok (.qldg 0 9 1 0) ∧ decodeWord .ast 0x0820F004 = .ok (.qgate 1 15 16) ∧
    decodeWord .ast 0x04652A08 = .ok (.qprob 20 18 18 17) := by
  refine ⟨rfl, rfl, rfl, rfl, rfl, rfl, rfl, rfl, rfl, rfl, rfl, rfl, rfl, rfl, rfl⟩

/-- 04 R135: the words of zeros and of ones are illegal on every stream. -/
theorem test_decode_illegal : decodeWord .ctl 0 = .error .illegal ∧ decodeWord .ctl (BitVec.allOnes 64) = .error .illegal ∧
    decodeWord .vec 0 = .error .illegal ∧ decodeWord .mtx 0 = .error .illegal ∧ decodeWord .cpy 0 = .error .illegal ∧
    decodeWord .ast 0 = .error .illegal := by refine ⟨rfl, rfl, rfl, rfl, rfl, rfl⟩

/-! ### Small states -/

/-- A launch record: one task on core 0, code of 4 KiB at 0x10000 for every stream, a heap at [0x100000, 0x200000). -/
def rec0 : BitVec 4608 := (fetchRecord &&& ~~~(1#4608 <<< 22)) ||| (0x100000#4608 <<< (8 * 0x18)) ||| (0x200000#4608 <<< (8 * 0x20))

/-- The same record for a `TXN` job. -/
def recTx : BitVec 4608 := rec0 ||| (1#4608 <<< 22)

def job0 : Job := { Job.new 0 false rec0 0 0 0 0 0 0 0 with st := .running, cores := [0], admitted := some 0 }

/-- Core 0 runs that job; its registers hold `f`. -/
def labX (f : Nat → Word) : State :=
  { State.reset with
    jobs := [job0], nextJob := 1
    core := { State.reset.core with
      job := some 0, spsize := 1, code := [{ asid := 0, key := 0, va := 0x10000, data := 0, pinned := false }]
      task := { State.reset.core.task with
        ctl := { State.reset.core.task.ctl with pc := 0x10000, run := .running, x := Vector.ofFn fun i => f i.val } } } }

def lab : State := labX fun n => BitVec.ofNat 64 (3 * n)

/-- Register `n` holds the `n`-th word of a list, the others zero. -/
def labL (l : List Word) : State := labX fun n => l.getD n 0

/-- The same package in firmware mode. -/
def labFw : State := { lab with core := { lab.core with mode := .firmware, epc := 0x10FFC, tvec := 0x10083 } }

/-- Bytes in the heap and in the scratchpad. -/
def data (s : State) : State := ({ s with mem := s.mem.write 0x100000 ((List.range 64).map fun i => BitVec.ofNat 8 (37 * i + 11)) }).mapCore
  fun c => { c with pad := c.pad.write 0x100 ((List.range 64).map fun i => BitVec.ofNat 8 (91 * i + 5)) }

/-- A word of code at 0x10000, at which a stream is about to issue. -/
def coded (k : Strm) (w n : Nat) : State :=
  let s : State := { lab with
    mem := Mem.write [] 0x10000 (natLe n w), turn := some k
    core := { lab.core with code := [{ asid := 0, key := 0, va := 0x10000, data := BitVec.ofNat 1024 w, pinned := false }] } }
  match k with
  | .ctl => s
  | .vec => s.mapVec fun v => { v with s := { v.s with pc := 0x10000, run := .running }, entry := true }
  | k => s.mapStrm k fun r => { r with pc := 0x10000, run := .running }

def nx (o : Host.Outcome State Fault Refusal) : State := match o with
  | .next s => s
  | _ => State.reset

def goes (o : Host.Outcome State Fault Refusal) : Bool := match o with
  | .next _ => true
  | _ => false

def okay {α : Type} (e : Except Stop α) : Bool := match e with
  | .ok _ => true
  | .error _ => false

theorem ok_of {α : Type} {e : Except Stop α} (h : okay e = true) : ∃ x, e = .ok x := by
  cases e with
  | ok x => exact ⟨x, rfl⟩
  | error => simp [okay] at h

theorem ok_pair {α : Type} {f : Op α} {s : State} (h : okay (f s) = true) : ∃ x t, f s = .ok (x, t) :=
  (ok_of h).elim fun p e => ⟨p.1, p.2, e⟩

theorem ok_bind {α β : Type} {f : Op α} {g : α → Op β} {s : State} (h : okay ((f >>= g) s) = true) :
    ∃ x t, f s = .ok (x, t) ∧ okay (g x t) = true := by
  cases e : f s with
  | ok p => exact ⟨p.1, p.2, rfl, by simpa [bind, StateT.bind, e, Except.bind] using h⟩
  | error => simp [bind, StateT.bind, e, Except.bind, okay] at h

/-- The checks of an access that the heap serves, with nothing to refuse it. -/
def heapOk (s : State) (k : AK) (lim : Nat) (ea : Word) (n : Nat) (segs : List Seg) : Bool :=
  decide (bits ea 63 56 ≠ 0xFE) && decide (ea.toNat + n ≤ 2 ^ 48 ∧ ea.toNat < 2 ^ 48) && !s.guarded ea.toNat n &&
  decide (s.core.task.windowAt ea.toNat = none) && !s.core.task.windowTouches ea.toNat n && s.inHeap ea.toNat && !k.fetches &&
  decide (ea.toNat + n ≤ lrHeapLim s.lrec) && segs.all (fun g => decide (s.homeLevel g.pa ≤ lim) && !s.linkDead g.pa) &&
  decide ((s.myObjs.filter fun o => o.va < ea.toNat + n && ea.toNat < o.va + o.size && s.objAt (max o.va ea.toNat) = some o) = []) &&
  decide (s.heapSegs ea.toNat n = segs)

theorem served_heap {s : State} {st : Strm} {k : AK} {lim : Nat} {ea : Word} {n : Nat} {segs : List Seg}
    (h : heapOk s k lim ea n segs = true) : s.served st k lim ea n (.mem segs []) := by
  simp only [heapOk, Bool.and_eq_true, decide_eq_true_eq, Bool.not_eq_true', List.all_eq_true] at h
  obtain ⟨⟨⟨⟨⟨⟨⟨⟨⟨⟨h0, h1⟩, h2⟩, h3⟩, h4⟩, h5⟩, h6⟩, h7⟩, h8⟩, h9⟩, rfl⟩ := h
  exact place_heap h0 h1 h2 h3 h4 h5 h6 h7 (checkHomes_ok k (fun g m => (h8 g m).1) fun g m => (h8 g m).2) (checkClass_none k h9)

/-- The checks of an access that the scratchpad serves. -/
def padOk (s : State) (st : Strm) (ea : Word) (n off : Nat) : Bool :=
  decide (bits ea 63 56 = 0xFE ∧ bits ea 55 20 = 0 ∧ bits ea 19 0 + n ≤ s.padBytes) && s.core.holdsPad (strmEng st) (bits ea 19 0) n &&
  decide (bits ea 19 0 = off)

theorem served_pad {s : State} {st : Strm} {k : AK} {lim : Nat} {ea : Word} {n off : Nat} (h : padOk s st ea n off = true) :
    s.served st k lim ea n (.pad off) := by
  simp only [padOk, Bool.and_eq_true, decide_eq_true_eq] at h
  obtain ⟨⟨⟨h0, h1, h2⟩, h3⟩, rfl⟩ := h
  exact place_pad k lim h0 h1 h2 h3

/-- An access that is served at a place, with nothing left behind. -/
def servedB (s : State) (st : Strm) (k : AK) (lim : Nat) (ea : Word) (n : Nat) (p : Place) : Bool := match place st k lim ea n s with
  | .ok (q, t) => decide (q = p) && decide (t = s)
  | .error _ => false

theorem served_of {s : State} {st : Strm} {k : AK} {lim : Nat} {ea : Word} {n : Nat} {p : Place} (h : servedB s st k lim ea n p = true) :
    s.served st k lim ea n p := by
  unfold servedB at h
  split at h
  · rename_i q t e
    simp only [Bool.and_eq_true, decide_eq_true_eq] at h
    obtain ⟨rfl, rfl⟩ := h
    exact e
  · cases h

/-- An operation that succeeds where its state meets a condition. -/
def check (p : State → Bool) : Op Unit := fun s => if p s then .ok ((), s) else .error (.trap { cause := .range, finfo := 0, finfox := 0, faddr := 0 })

theorem check_ok {p : State → Bool} {s : State} (h : okay (check p s) = true) : p s = true := by
  by_cases c : p s = true
  · exact c
  · simp [check, c, okay] at h

/-! ### Witnesses: the step, reset, memory, control words -/

theorem meets_StepRuns_inbox : ({ lab with inbox := [.join] } : State).inbox = .join :: [] := rfl

/-- Each stream at a word of its own length; a vector bundle of one word and one of two at an entry. -/
theorem meets_StepRuns_ctl : (coded .ctl 0x02514480 4).aboutToIssue .ctl = true ∧
    ((coded .ctl 0x02514480 4).beginTurn .ctl).codeWord 0x10000 = some 0x02514480 := by decide +kernel

theorem meets_StepRuns_vec : (coded .vec 0x0200903E 4).aboutToIssue .vec = true ∧
    ((coded .vec 0x0200903E 4).beginTurn .vec).codeWord 0x10000 = some 0x0200903E ∧ (0x0200903E#32).getLsbD 0 = false ∧
    (0x0200903E#32).getLsbD 1 = true ∧ (coded .vec 0x0A01004B 8).aboutToIssue .vec = true ∧
    ((coded .vec 0x0A01004B 8).beginTurn .vec).codeWord 0x10000 = some 0x0A01004B ∧
    ((coded .vec 0x0A01004B 8).beginTurn .vec).codeWord 0x10004 = some 0 ∧ (0x0A01004B#32).getLsbD 0 = true ∧
    (0x0A01004B#32).getLsbD 1 = true := by decide +kernel

theorem meets_StepRuns_64 : (coded .cpy 0x1E 8).aboutToIssue .cpy = true ∧
    ((coded .cpy 0x1E 8).beginTurn .cpy).codeWord 0x10000 = some 0x1E ∧ ((coded .cpy 0x1E 8).beginTurn .cpy).codeWord 0x10004 = some 0 ∧
    (coded .mtx 0x10010101 8).aboutToIssue .mtx = true ∧
    ((coded .mtx 0x10010101 8).beginTurn .mtx).codeWord 0x10000 = some 0x10010101 := by decide +kernel

theorem test_step_add : (nx (step (coded .ctl 0x02514480 4))).ctl.x.toList.getD 10 0 = 30 + 27 ∧
    (nx (step (coded .ctl 0x02514480 4))).ctl.pc = 0x10004 := by decide +kernel

theorem meets_DecodeAndEncodeAgree : [Instr.add 1 2 3, .vbcastImm 1 5 1 0, .mmas 0 1 2 3 4 .keep 5 0 0 0 0 none, .cpy 4 0 1 2 3 0 0,
    .qinit 1 2 3 4 0 0 0 1].all (fun i => WellFormed i && (encode i).isSome && (streamOf i).isSome) = true := by decide +kernel

theorem meets_MemoryStaysCanonical : (coded .ctl 0x02514480 4).mem.wf = true ∧ goes (step (coded .ctl 0x02514480 4)) = true := by
  decide +kernel

def atEnd : State := { lab.mapCtl fun c => { c with pc := 0x11000 } with turn := some .ctl }

theorem meets_SectionEnd : atEnd.aboutToIssue .ctl = true ∧ (atEnd.beginTurn .ctl).ctl.pc.toNat =
    lrCodeBase (atEnd.beginTurn .ctl).lrec 0 + lrCodeLen (atEnd.beginTurn .ctl).lrec 0 := by decide +kernel

/-- The code section is [0x10000, 0x11000): `EPC` at its last word, and one past it. -/
theorem meets_ExceptionReturn : lab.core.mode = .job ∧ labFw.core.mode = .firmware ∧ labFw.core.epc = 0x10FFC ∧
    lrCodeBase labFw.lrec 0 = 0x10000 ∧ lrCodeLen labFw.lrec 0 = 0x1000 ∧ (0x66000000#32).extractLsb' 25 7 = 0x33 ∧
    (0x66000000#32).extractLsb' 0 25 = 0 ∧ (0x66000001#32).extractLsb' 25 7 = 0x33 := by decide +kernel

theorem test_eret : (nx (exec .eret labFw)).ctl.pc = 0x10FFC ∧
    (nx (exec .eret { labFw with core := { labFw.core with epc := 0x11000 } })).core.stop.map StopRec.cause = some .range := by decide +kernel

theorem meets_freeX : lab.freeX [1, 2, 3, 63, 0] := by unfold State.freeX; decide +kernel

theorem meets_ControlRegisterArithmetic : lab.freeX [1, 2, 3] := by unfold State.freeX; decide +kernel

theorem meets_ControlOtherForms_compares : WellFormed (.cmp 1 5 2 3 1) = true ∧ WellFormed (.cmpImm 1 0 2 0 5) = true ∧
    WellFormed (.cmp 1 0 2 3 0) = true := by decide +kernel

/-- 04 R143, the limits of `BFX` and `BFI`: (63, 1), (0, 64) in, (64, 1), (0, 0), (0, 65), (63, 2) out; of `FSH`: (127, 1), (64, 64) in,
(0, 0), (65, 64) and (0, 65) out. -/
theorem test_field_limits : [((63, 1), true), ((0, 64), true), ((0, 1), true), ((64, 1), false), ((0, 0), false), ((0, 65), false),
    ((63, 2), false)].all (fun q => (nx (exec (.bfx 1 2 3 4 0) (labL [0, 0, 7, q.1.1, q.1.2]))).core.stop.isNone == q.2) = true ∧
    [((127, 1), true), ((64, 64), true), ((0, 64), true), ((0, 0), false), ((65, 64), false), ((0, 65), false)].all (fun q =>
      (nx (exec (.fsh 1 2 3 4 0) (labL [0, 0, 7, 9, q.1.1 + 256 * q.1.2]))).core.stop.isNone == q.2) = true := by decide +kernel

/-- 04 R143's example: `BFI.s` clamps, `BFI.n` clamps higher, and `BFX` reads the field back with and without its sign. -/
theorem test_bitfields : (nx (exec (.bfi 9 5 6 7 1) (labL [0, 0, 0, 0, 0, 300, 8, 8]))).ctl.x.toList.getD 9 0 = 0x7F00 ∧
    (nx (exec (.bfi 9 5 6 7 0) (labL [0, 0, 0, 0, 0, 300, 8, 8]))).ctl.x.toList.getD 9 0 = 0xFF00 ∧
    (nx (exec (.bfx 1 9 6 7 1) (labL [0, 0, 0, 0, 0, 300, 8, 8, 0, 0xFF00]))).ctl.x.toList.getD 1 0 = BitVec.allOnes 64 ∧
    (nx (exec (.bfx 1 9 6 7 0) (labL [0, 0, 0, 0, 0, 300, 8, 8, 0, 0xFF00]))).ctl.x.toList.getD 1 0 = 0xFF := by decide +kernel

/-- 04 R137: division by zero, the greatest negative quotient, shifts by the low six bits, a wrap. -/
theorem test_arithmetic : (nx (exec (.divI64 1 2 3) (labL [0, 0, 7, 0]))).ctl.x.toList.getD 1 0 = BitVec.allOnes 64 ∧
    (nx (exec (.remN64 1 2 3) (labL [0, 0, 7, 0]))).ctl.x.toList.getD 1 0 = 7 ∧
    (nx (exec (.divI64 1 2 3) (labL [0, 0, 0x8000000000000000, BitVec.allOnes 64]))).ctl.x.toList.getD 1 0 = 0x8000000000000000 ∧
    (nx (exec (.shl 1 2 3) (labL [0, 0, 3, 65]))).ctl.x.toList.getD 1 0 = 6 ∧
    (nx (exec (.add 2 2 3) (labL [0, 0, BitVec.allOnes 64, 2]))).ctl.x.toList.getD 2 0 = 1 ∧
    (nx (exec (.add 0 2 3) (labL [0, 0, 5, 2]))).ctl.getX 0 = 0 := by decide +kernel

/-- Targets of branches and of `RET`: the first and last word of the section, and one past it; a misaligned `RET`. -/
theorem meets_BranchesAndTraps : lab.freeX [1] ∧ lab.core.mode = .job ∧ lab.core.stop = none ∧ labFw.core.mode = .firmware ∧
    lab.ctl.pc = 0x10000 := by
  unfold State.freeX; decide +kernel

theorem test_branches : (nx (exec (.ret 1) (labL [0, 0x10FFC]))).ctl.pc = 0x10FFC ∧
    (nx (exec (.ret 1) (labL [0, 0x11000]))).core.stop.map StopRec.cause = some .range ∧
    (nx (exec (.ret 1) (labL [0, 0x10002]))).core.stop.map StopRec.cause = some .align ∧
    (nx (exec (.loop 1 0x7FFFF) (labL [0, 2]))).core.stop.map StopRec.cause = some .range ∧
    (nx (exec (.loop 1 0x7FFFF) (labL [0, 2]))).ctl.x.toList.getD 1 0 = 2 ∧
    (nx (exec (.loop 1 4) (labL [0, 2]))).ctl.pc = 0x10010 ∧ (nx (exec (.loop 1 4) (labL [0, 1]))).ctl.pc = 0x10004 := by decide +kernel

theorem test_trap : (nx (exec (.trap 0 7) labFw)).ctl.pc = 0x10080 ∧ (nx (exec (.trap 0 7) labFw)).core.epc = 0x10004 ∧
    (nx (exec (.trap 0 7) lab)).core.stop.map StopRec.finfo = some 0x80000007 := by decide +kernel

/-! ### Witnesses: faults, memory, loads, stores -/

def stop0 : StopRec := {
  cause := .range, eng := .ctl, pend := false, multi := false, src := 2, finfo := 0, finfox := 0, faddr := 0, fchron := 0
  wstart := 16, framed := false }

def stopped (r : StopRec) : State := lab.mapCore fun c => { c with stop := some r }

def blockedAt (b n : Nat) : State := ({ lab with turn := none, chron := BitVec.ofNat 64 n }).mapCore fun c => { c with
  blocked := b, stalled := #v[true, false, false, false] }

/-- A first fault, a second of the same cycle with a lower and with a higher source; 64 cycles of a deadlock, and 63. -/
theorem meets_FaultsOfACore : lab.core.stop = none ∧ (stopped stop0).core.stop = some stop0 ∧ stop0.fchron = (stopped stop0).chron ∧
    (blockedAt 5 69).core.blocked + 64 ≤ (blockedAt 5 69).chron.toNat ∧ (blockedAt 5 69).stuck = true ∧
    (blockedAt 5 68).chron.toNat < (blockedAt 5 68).core.blocked + 64 ∧
    (stopped stop0).plainAt (gaOf lab.pkg (lab.os.framebase.toNat * 4096 + 512 * lab.core.num)) 512 0 = true ∧
    (stopped stop0).mem.wf = true ∧ (stopped stop0).aframeDue = false ∧ (stopped { stop0 with framed := true }).aframeDue = false ∧
    ((stopped stop0).coreAt 0).stop ≠ none ∧ ((stopped stop0).coreAt 255).stop = none := by decide +kernel

def sectored : State := { data lab with sectors := [
  { pa := 0x100000, rtag := 3, raw := false, poison := false, err := [(2, 0x10)], ckey := none },
  { pa := 0x100040, rtag := 0, raw := false, poison := true, err := [], ckey := none }] }

/-- Sectors with one symbol in error, poisoned, clean, and past the DRAM; a spare copy. -/
theorem meets_OrdinaryMemoryAndCarafe : lab.plainAt 0x100000 64 (Agent.key (lab.agent .ctl)) = true ∧
    (sectored.sectorAt 0x100000).err.length = 1 ∧ (sectored.sectorAt 0x100000).poison = false ∧
    (sectored.sectorAt 0x100040).poison = true ∧ (sectored.sectorAt 0x100080).err = [] ∧ sectored.regionAt 0x100000 = none ∧
    dramSize ≤ (2 ^ 40 - 64) % 2 ^ 40 ∧ 0x100000 % 2 ^ 40 < dramSize := by decide +kernel

def a1 : State := data (labL [0, 0x100010, 3])
def a2 : State := data (labL [0, 0xFE0000000001FFF8, 1])

/-- A byte load of memory; a doubleword load at the last place of the scratchpad; a misaligned one. -/
theorem meets_Loads_memory : a1.served .ctl .load 6 0x100011 1 (.mem [{ va := 0x100011, pa := 0x100011, len := 1 }] []) :=
  served_heap (by decide +kernel)

theorem meets_Loads_pad : a2.served .ctl .load 6 0xFE0000000001FFF8 8 (.pad 0x1FFF8) := served_pad (by decide +kernel)

theorem meets_Loads : a1.freeX [3, 1] ∧ a1.plainAt 0x100011 1 a1.key = true ∧ a1.core.task.redLines = [] ∧
    a1.core.nmOverlap (.mem [{ va := 0x100011, pa := 0x100011, len := 1 }] []) = false ∧ a1.recs = [] ∧
    (0x100011#64).toNat % 2 ≠ 0 := by unfold State.freeX; decide +kernel

theorem test_load_sign : (nx (exec (.ld 3 1 5 0 0) (data (labL [0, 0xFE00000000000106])))).ctl.x.toList.getD 3 0 = 0xFFFFFFFFFFFF8227 := by
  decide +kernel

theorem meets_Loads_return : (({ lab with core := { lab.core with loads := [(3, .x 5 77), (4, .x 5 78)] } } : State)).core.loads =
    (3, .x 5 77) :: [(4, .x 5 78)] := rfl

theorem meets_Stores_memory : a1.served .ctl .store 6 0x100010 8 (.mem [{ va := 0x100010, pa := 0x100010, len := 8 }] []) :=
  served_heap (by decide +kernel)

theorem meets_Stores_pad : a2.served .ctl .store 6 0xFE0000000001FFF8 8 (.pad 0x1FFF8) := served_pad (by decide +kernel)

theorem meets_Stores : a1.plainAt 0x100010 8 a1.key = true ∧ a1.mem.wf = true ∧
    a1.core.nmOverlap (.mem [{ va := 0x100010, pa := 0x100010, len := 8 }] []) = false ∧ a1.recs = [] := by decide +kernel

/-! ### Witnesses: flags, streams, barriers, reductions, control registers, children, windows -/

/-- A flag as given. -/
def flag (s : State) (f : BitVec 6) (v : BitVec 40) (c : Eng) (h : Bool) (r : Eng) : State :=
  s.mapFlag f fun _ => { value := v, cons := c, hold := h, carr := r }

def held (s : State) (e : Eng) : State := s.mapCore fun c => { c with hold := Vector.replicate 240 e }

/-- Flag 5 carries ranges of control to the vector engine, flag 6 counts to the end of its range. -/
def flagged : State := flag (flag (labL [0, 0xFE0000000001F000, 0x1000]) 5 0 .vec true .ctl) 6 0xFFFFFFFFF0 .ctl false .ctl

def ranged (l : List Transit) : State := flagged.mapCore fun c => { c with transit := l }

theorem meets_FlagsRaisedAndAwaited_raised : flagged.addsTo .ctl 6 15 (.addfImm 6 15) ∧ flagged.addsTo .ctl 6 16 (.addfImm 6 16) ∧
    (flagged.core.task.flagAt 6).value.toNat + 15 = 2 ^ 40 - 1 ∧ flagged.addsTo .vec 6 1 (.vecAddfImm 6 1 0) ∧
    flagged.addsTo .cpy 6 1 (.addf64 .cpy 6 (.imm 1)) ∧ flagged.addsTo .ctl 5 1 (.addfImm 5 1) :=
  ⟨.inr (.inl ⟨15, rfl, rfl, rfl⟩), .inr (.inl ⟨16, rfl, rfl, rfl⟩), by decide +kernel,
    .inr (.inr (.inr (.inl ⟨1, 0, rfl, rfl, rfl, rfl⟩))), .inr (.inr (.inr (.inr (.inr ⟨.cpy, 1, rfl, rfl, rfl⟩)))),
    .inr (.inl ⟨1, rfl, rfl, rfl⟩)⟩

theorem meets_FlagsRaisedAndAwaited_state : flagged.outstanding .ctl flagged.core.task.seq = false ∧ flagged.core.adds = [] ∧
    flagged.core.pendingRange 5 = false ∧ (ranged [{ flag := 5, first := 4, count := 1 }]).core.pendingRange 5 = true ∧
    (flagged.core.task.flagAt 5).hold = true ∧ (flagged.core.task.flagAt 5).carr = .ctl := by decide +kernel

theorem test_flag_saturates : ((nx (exec (.addfImm 6 15) flagged)).core.task.flagAt 6).value = 0xFFFFFFFFFF ∧
    (nx (exec (.addfImm 6 15) flagged)).core.stop = none ∧ ((nx (exec (.addfImm 6 16) flagged)).core.task.flagAt 6).value = 0xFFFFFFFFFF ∧
    (nx (exec (.addfImm 6 16) flagged)).core.stop.map StopRec.cause = some .range := by decide +kernel

/-- A wait for just the value, for one more, by another engine, and for 4 and 5 of a holding flag. -/
theorem meets_FlagsRaisedAndAwaited_awaited : (flag lab 7 9 .ctl false .ctl).waitsFor .ctl 7 9 (.waitfImm 7 9) ∧
    (flag lab 7 9 .ctl false .ctl).waitsFor .ctl 7 10 (.waitfImm 7 10) ∧ flagged.waitsFor .ctl 5 1 (.waitfImm 5 1) ∧
    flagged.waitsFor .vec 5 4 (.vecWaitfImm 5 4 0) ∧ flagged.waitsFor .vec 5 5 (.vecWaitfImm 5 5 0) :=
  ⟨.inr (.inl ⟨9, rfl, rfl, rfl⟩), .inr (.inl ⟨10, rfl, rfl, rfl⟩), .inr (.inl ⟨1, rfl, rfl, rfl⟩),
    .inr (.inr (.inr (.inl ⟨4, 0, rfl, rfl, rfl, rfl⟩))), .inr (.inr (.inr (.inl ⟨5, 0, rfl, rfl, rfl, rfl⟩)))⟩

theorem test_waitf : ((nx (exec (.waitfImm 7 9) (flag lab 7 9 .ctl false .ctl))).core.task.flagAt 7).value = 0 ∧
    (nx (exec (.waitfImm 7 10) (flag lab 7 9 .ctl false .ctl))).ctl.pc = 0x10000 ∧
    (nx (exec (.waitfImm 5 1) flagged)).core.stop.map StopRec.cause = some .flagOwner := by decide +kernel

theorem meets_FlagsGivenAndConfigured_given : flagged.givesPad .ctl 5 0xFE0000000001F000 0x1000 (.give 5 1 2) ∧
    flagged.givesAccs .ctl 5 14 2 (.giveAcc 5 14 1) ∧ flagged.givesAccs .ctl 5 15 2 (.giveAcc 5 15 1) :=
  ⟨.inl ⟨1, 2, rfl, rfl, by unfold State.freeX; decide +kernel, by decide +kernel, by decide +kernel⟩,
    ⟨14, 1, rfl, rfl, .inl ⟨rfl, rfl⟩⟩, ⟨15, 1, rfl, rfl, .inl ⟨rfl, rfl⟩⟩⟩

/-- The last segment of the scratchpad, held by the giver; four ranges in transit, and three. -/
theorem meets_FlagsGivenAndConfigured_state : flagged.padBytes = 0x20000 ∧ flagged.core.holds .ctl 31 = true ∧ flagged.core.holds .vec 31 = false ∧
    (ranged [⟨7, 9, 1⟩, ⟨7, 10, 1⟩, ⟨7, 11, 1⟩, ⟨7, 12, 1⟩]).core.transit.length = 4 ∧
    (ranged [⟨7, 9, 1⟩, ⟨7, 10, 1⟩, ⟨7, 11, 1⟩]).core.pendingRange 5 = false := by decide +kernel

theorem test_give : (nx (exec (.give 5 1 2) flagged)).core.transit = [{ flag := 5, first := 31, count := 1 }] ∧
    (nx (exec (.giveAcc 5 15 1) flagged)).core.stop.map StopRec.cause = some .range ∧
    (nx (exec (.give 5 1 2) (ranged [⟨7, 9, 1⟩, ⟨7, 10, 1⟩, ⟨7, 11, 1⟩, ⟨7, 12, 1⟩]))).core.transit.length = 4 := by decide +kernel

theorem meets_FlagsGivenAndConfigured_configured : flagged.anyForked = false ∧ (flagged.core.task.flagAt 7).value = 0 ∧ flagged.core.given 7 = [] ∧
    (BitVec.ofNat 5 (lrKmask flagged.lrec)) = 31 ∧ (held flagged .ctl).freeX [3] := by
  unfold State.freeX; decide +kernel

theorem test_flagcfg : (nx (exec (.flagcfg 7 1 1 0) flagged)).core.task.flagAt 7 = { value := 0, cons := .vec, hold := true, carr := .ctl } ∧
    (nx (exec (.flagcfg 6 1 1 0) flagged)).core.stop.map StopRec.cause = some .range := by decide +kernel

/-- A stream forked, or ended but not joined. -/
def forked (s : State) (r : Run) : State := s.mapVec fun v => { v with s := { v.s with run := r } }

theorem meets_ForkAndJoin : BitVec.ofNat 5 (lrKmask lab.lrec) = 31 ∧ lab.forked .vec = false ∧ (forked lab .running).forked .vec = true ∧
    (forked lab .running).joined = false ∧ lab.joined = true ∧ (forked lab .ended).joined = true := by decide +kernel

/-- The task owns the Astrolabe of its die, which is idle; another job's stream runs there. -/
theorem meets_ForkAndJoin_astro : lab.ownsAstro = true ∧ lab.astroBusy = false ∧ lab.core.num < 256 ∧ lab.forked .ast = false ∧
    ({ lab with dies := lab.dies.map fun d => { d with astro := { d.astro with core := some 3, s := { d.astro.s with run := .running } } } } : State).astroBusy = true := by
  decide +kernel

theorem test_fork_astro : (nx (exec (.fork 8) lab)).astro.core = some 0 ∧ (nx (exec (.fork 8) lab)).astro.s.run = .running := by decide +kernel

theorem test_fork : (nx (exec (.fork 7) lab)).core.vec.s.run = .running ∧ (nx (exec (.fork 7) lab)).core.vec.entry = true ∧
    (nx (exec (.fork 1) (forked lab .running))).core.stop.map StopRec.cause = some .range ∧
    (nx (exec (.fork 0) lab)).core.stop.map StopRec.cause = some .range := by decide +kernel

def inTx (s : State) (n : BitVec 2) : State := s.mapTask fun t => { t with tx := { t.tx with st := n, step := 7, cbase := 4, qbase := 5 } }

/-- A second task of the job, not started. -/
def twoTasks : State := { lab with
  jobs := [{ job0 with lrec := rec0 + (1#4608 <<< 64) }]
  core := { lab.core with others := [{ Task.reset with idx := 1, st := .fresh, ctl := { Ctl.reset with pc := 0x10000, run := .running } }] } }

theorem meets_EndsOfStreams : lab.core.vec.pfx = none ∧ lab.astro.st = none ∧ (inTx lab 1).core.task.tx.st = 1 ∧
    (inTx lab 3).core.task.tx.st = 3 ∧ (forked lab .running).joined = false ∧ twoTasks.joined = true ∧ twoTasks.core.task.children = [] ∧
    twoTasks.core.walks = [] ∧ twoTasks.core.task.walkFail = [] ∧ twoTasks.core.task.nmFails = none ∧ twoTasks.core.task.failures = [] ∧
    twoTasks.core.task.st = .resident ∧ (twoTasks.nextTask.map fun n => n.st) = some .fresh := by decide +kernel

theorem meets_EndsOfStreams_failure : ((lab.mapTask fun t => { t with
    failures := [{ eng := .ctl, seq := 1, kind := .lost, level := 3, va := 0x100000, count := 1 }] }).core.task.failures.map Failure.kind) = [.lost] := rfl

theorem test_rend : (nx (exec .rend (inTx lab 1))).core.stop.map StopRec.cause = some .txState ∧
    (nx (exec .rend twoTasks)).core.task.idx = 1 := by decide +kernel

/-- X at the end of its range and past it; the widest scope of the job, and one wider. -/
theorem meets_Barriers_arrival : (labL [0, 0, 0xFFFFF]).freeX [3, 2] ∧ lrSpan lab.lrec = 4 ∧ lab.nextTask = none ∧ lab.core.arrived = [] ∧
    lab.core.task.st = .resident := by unfold State.freeX; decide +kernel

theorem test_ssync : (nx (exec (.ssync 3 2 4) (labL [0, 0, 0xFFFFF]))).core.task.sync = some { sc := 4, x := 0xFFFFF, rd := 3 } ∧
    (nx (exec (.ssync 3 2 4) (labL [0, 0, 0x100000]))).core.stop.map StopRec.cause = some .range ∧
    (nx (exec (.ssync 3 2 5) lab)).core.stop.map StopRec.cause = some .range := by decide +kernel

/-- Arrived in cycle 10 with X = 5; the release was in 12 and the exchange ends in 17. -/
def arrived (n : Nat) : State := ({ lab with chron := BitVec.ofNat 64 n }).mapCore fun c => { c with
  bar := { c.bar with arr := some 10 }, task := { c.task with sync := some { sc := 1, x := 5, rd := 7 } } }

def exchanging (n : Nat) : State := (arrived n).mapCore fun c => { c with bar := { c.bar with till := some 17 } }

theorem meets_Barriers_release_core : (arrived 12).coresOf 0 = [(arrived 12).core] ∧ (arrived 12).core.live = [(arrived 12).core.task] ∧
    (exchanging 17).core.live = [(exchanging 17).core.task] := ⟨rfl, rfl, rfl⟩

theorem meets_Barriers_release : (arrived 12).core.bar.arr = some 10 ∧ (arrived 12).chron = 12 ∧ (arrived 11).chron = 11 ∧ (arrived 12).objs = [] ∧
    ((arrived 12).jobAt 0).isSome = true ∧ (exchanging 17).tillDue (exchanging 17).core = true ∧
    (exchanging 16).tillDue (exchanging 16).core = false := by decide +kernel

theorem test_release : (nx (exec (.barrierRelease 1 0 ⟨true, 0, 0⟩) (arrived 11))).core.bar.arr = some 10 ∧
    (nx (exec (.barrierRelease 1 0 ⟨true, 0, 0⟩) (arrived 12))).core.bar.till = some 17 ∧
    (nx (exec (.barrierRelease 1 0 ⟨true, 0, 0⟩) (arrived 12))).core.task.stampbase = 12 ∧
    (nx (exec .exchangeEnd (exchanging 17))).ctl.pc = 0x10004 := by decide +kernel

theorem meets_Reductions : a1.served .ctl .red 4 0x100010 4 (.mem [{ va := 0x100010, pa := 0x100010, len := 4 }] []) :=
  served_heap (by decide +kernel)

theorem meets_Reductions_state : a1.freeX [2, 1] ∧ redSize 0 = 4 ∧ redSize 3 = 8 ∧ a1.recs = [] ∧ lrSpan a1.lrec = 4 := by
  unfold State.freeX; decide +kernel

def redMsg (ty : Nat) (v : Word) : RedMsg := {
  core := 0, away := false, job := 0, asid := 0, seq := 0, task := 0, cnt := Counts.zero, pa := 0x100010, va := 0x100010, key := 0, op := 0, ty := ty, val := v, fail := none }

def reducing (m : RedMsg) : State := { a1 with reds := [m] }

theorem meets_Reductions_home : (reducing (redMsg 3 5)).plainAt 0x100010 8 0 = true ∧ (reducing (redMsg 3 5)).mem.wf = true ∧
    (reducing (redMsg 4 0x3FF0000000000000)).sliceFull 0x100010 4 = false ∧ (redMsg 3 5).pa % 8 = 0 ∧ redSize 4 = 8 := by decide +kernel

theorem test_reduction : leNat ((nx (exec .redApply (reducing (redMsg 0 0xFFFFFFFF)))).mem.read 0x100010 4) =
    (leNat (a1.mem.read 0x100010 4) + 0xFFFFFFFF) % 2 ^ 32 ∧ (nx (exec .redApply (reducing (redMsg 4 0x3FF0000000000000)))).accs.length = 1 := by
  decide +kernel

/-- A code line at 0x10000 that the core's TLB translates. -/
def codeAt (x1 x2 : Word) : State := (labL [0, x1, x2]).mapCore fun c => { c with
  tlb := [{ asid := 0, va := 0x10000, size := 0, leaf := 0x1001F, line := 0, demoted := false }] }

theorem meets_PinsAndControlRegisters : (codeAt 0x10000 128).freeX [3, 1, 2] ∧ (codeAt 0x10000 128).codeLines 0x10000 128 = [0x10000] ∧
    (codeAt 0x10000 0).codeLines 0x10000 0 = [] ∧ (codeAt 0x10000 0x100000).core.task.pins = [] := by
  unfold State.freeX; decide +kernel

/-- A second line of the page, which the code cache does not hold, and the first, which it does. -/
theorem meets_PinsAndControlRegisters_lines : (codeAt 0x10080 128).codeLines 0x10080 128 = [0x10080] ∧
    (codeAt 0x10080 128).fetchBarred 0x10080 = false ∧ ((codeAt 0x10080 128).core.codeLine 0 0 0x10080).isSome = false ∧
    ((codeAt 0x10000 128).core.codeLine 0 0 0x10000).isSome = true ∧ (codeAt 0x10080 128).plainAt 0x10080 128 0 = true := by decide +kernel

theorem meets_PinsAndControlRegisters_served :
    (codeAt 0x10080 128).served .ctl .fetch 6 0x10080 4 (.mem [{ va := 0x10080, pa := 0x10080, len := 4 }] []) ∧
    (codeAt 0x10080 128).served .ctl .ipin 6 0x10080 128 (.mem [{ va := 0x10080, pa := 0x10080, len := 128 }] []) :=
  ⟨served_of (by decide +kernel), served_of (by decide +kernel)⟩

theorem test_ipf : (nx (exec (.ipf 1 2 0) (codeAt 0x10080 128))).core.code.map CodeLine.va = [0x10000, 0x10080] ∧
    (nx (exec (.ipin 3 1 2) (codeAt 0x10080 128))).core.code.map CodeLine.pinned = [false, true] := by decide +kernel

theorem test_ipin : (nx (exec (.ipin 3 1 2) (codeAt 0x10000 128))).core.task.pins = [0x10000] ∧
    (nx (exec (.ipin 3 1 2) (codeAt 0x10000 128))).ctl.x.toList.getD 3 0 = 1 ∧
    (nx (exec (.ipin 3 1 2) (codeAt 0x10000 0x100001))).core.stop.map StopRec.cause = some .range := by decide +kernel

/-- A CSR without a meaning, one that no word writes, a privileged one, and each write that its owner takes or does not. -/
theorem meets_PinsAndControlRegisters_registers : csrOf 0xA00 = none ∧ csrOf 0xF00 = some (.cap 0xF00) ∧ csrOf 0x048 = some .rkey ∧ lab.csrOpen .rkey true = true ∧
    lab.csrTakes .rkey 5 = true ∧ (forked lab .running).csrTakes .rkey 5 = false ∧ lab.csrOpen .winen true = false ∧
    lab.csrTakes .qmapbase 64 = true ∧ lab.csrTakes .qmapbase 63 = false ∧ (inTx lab 1).csrTakes .txstep 3 = false := by decide +kernel

def launching (r : BitVec 4608) (n : Nat) : State := { labL [0, 0x100000] with
  mem := Mem.write [] 0x100000 (natLe 576 r.toNat)
  spaces := [{ asid := 0, root := 0, host := true, key := 0, clsmap := 0 }]
  core := { (labL [0, 0x100000]).core with task := { (labL [0, 0x100000]).core.task with
    children := (List.range n).map fun i => { flag := BitVec.ofNat 6 (i + 4), job := 3, va := 0x30000, done := false } } } }

theorem meets_LaunchOfAChild : (launching rec0 15).served .ctl .load 6 0x100000 576 (.mem [{ va := 0x100000, pa := 0x100000, len := 576 }] []) :=
  served_heap (by decide +kernel)

/-- Fifteen children under way and sixteen; a record that passes, one with a reserved bit, one wider than its parent's. -/
theorem meets_LaunchOfAChild_state : (launching rec0 15).freeX [1] ∧ (launching rec0 15).plainAt 0x100000 576 0 = true ∧
    (launching rec0 15).recordFail rec0 false = 0 ∧ (launching rec0 0).recordFail (rec0 ||| (1#4608 <<< 3)) false ≠ 0 ∧
    ((launching rec0 16).core.task.children.filter fun c => !c.done).length = 16 ∧ ((launching rec0 15).core.task.flagAt 3).hold = false ∧
    ((launching rec0 15).core.task.flagAt 3).cons = .ctl ∧ (launching rec0 15).core.task.windowTouches 0x100000 576 = false ∧
    (launching rec0 15).job.isSome = true ∧ (∀ c ∈ (launching rec0 15).core.task.children, c.flag ≠ 3) := by
  unfold State.freeX; decide +kernel

theorem test_launch : (nx (exec (.launch 3 1) (launching rec0 15))).jobs.length = 2 := by decide +kernel

/-- A causal window of a page at 0x70000000. -/
def causal : BitVec 1024 := BitVec.ofNat 1024 (leNat ([0x70000003, 1, 4, 0, 0, 0, 0, 0, 0xFFF0000000000000].flatMap fun w => natLe 8 w))

def windowed (d : BitVec 1024) : State := ({ labL [0, 0x70000000, 0x100000] with mem := Mem.write [] 0x100000 (natLe 128 d.toNat) }).mapTask
  fun t => { t with wins := Vector.ofFn fun i => if i.val = 3 then { en := true, img := causal, theta := [] } else Window.reset }

theorem meets_WindowWords : (windowed causal).served .ctl .load 6 0x100000 128 (.mem [{ va := 0x100000, pa := 0x100000, len := 128 }] []) :=
  served_heap (by decide +kernel)

theorem meets_WindowWords_accepted : wAccepted (windowed causal).core.task.nfd causal := by unfold wAccepted; decide +kernel

theorem meets_WindowWords_state : (windowed causal).freeX [3, 2, 1] ∧ (windowed causal).plainAt 0x100000 128 0 = true ∧
    (windowed causal).anyForkedA = false ∧ (windowed causal).outstanding .ctl 0 = false ∧ (windowed causal).recs = [] ∧
    (windowed causal).core.task.redLines = [] ∧
    (windowed causal).core.task.windowTouches 0x100000 128 = false ∧ (windowed causal).core.task.windowAt 0x70000000 = some 3 ∧
    (windowed causal).core.task.windowAt 0x70000FFF = some 3 ∧
    (windowed causal).core.task.windowAt 0x70001000 = none ∧ causal.getLsbD 0 = true ∧ (causal ^^^ 1).getLsbD 0 = false := by
  unfold State.freeX; decide +kernel

theorem test_winq : (nx (exec (.winq 3 1) (windowed causal))).ctl.x.toList.getD 3 0 = 0x27 := by decide +kernel

theorem test_winq_none : (nx (exec (.winq 3 2) (windowed causal))).ctl.x.toList.getD 3 0 = 0 := by decide +kernel

/-! ### Witnesses: the vector engine -/

/-- A vector engine whose registers hold `f`, with the mask 5 in `m1`, and a shape. -/
def vecS (rows cols wl : Nat) (f : Nat → VReg) : State := (lab.mapTask fun t => { t with
  vshape := BitVec.ofNat 22 (rows + cols * 256 + wl * 2 ^ 20) }).mapVec fun v => { v with
    v := Vector.ofFn fun i => f i.val
    m := Vector.ofFn fun i => if i.val = 1 then 5 else 0
    s := { v.s with x := Vector.ofFn fun i => if i.val = 7 then 0x10000 else if i.val = 8 then 0xFE00000000000100 else if i.val = 9 then 0x10 else 3 } }

def elems (w : Nat) (l : List Nat) : VReg := BitVec.ofNat 16384 (packNat w l)

/-- Four elements of 32 bits: 1.0, a negative one, an infinity and a subnormal; integers of both signs in register 2. -/
def vec4 : State := vecS 1 4 2 fun n => if n = 1 then elems 32 [0x3F800000, 0xBF000001, 0x7F800000, 5]
  else if n = 2 then elems 32 [0x7FFFFFFF, 0x80000000, 1, 0xFFFFFFFF] else if n = 3 then elems 32 [1, 2, 3, 4] else 0

/-- The same behind a prefix. -/
def prefixed (r : Option (Bool × Bool × Bool × BitVec 3)) (m : Option (Bool × BitVec 3)) (s : State) : State :=
  s.mapVec fun v => { v with pfx := some { base := 0x10000, rnd := r, msk := m } }

theorem popped_regs (s : State) (n : Nat) : ∀ fs : List (BitVec 6), (∀ f ∈ fs, f.toNat < 32) →
    s.popped n fs = some (fs.map fun f => s.core.vec.v.toList.getD f.toNat 0, s)
  | [], _ => rfl
  | f :: fs, h => by
    have h1 := popped_regs s n fs fun g m => h g (List.mem_cons_of_mem f m)
    have h2 : f.toNat < 32 := h f List.mem_cons_self
    simp only [State.popped, h2, if_true, h1, Option.map_some, List.map_cons]

theorem vecFree_none {s : State} {vs : List (BitVec 5)} {ms : List (BitVec 3)} {xs : List (BitVec 5)} (h : s.core.vec.out = []) :
    s.vecFree vs ms xs := fun o m => by rw [h] at m; cases m

theorem reads_regs {s : State} {r : PfxRule} {t : BitVec 1} {w : Option Nat} {srcs : List (BitVec 6)} (ds : List (BitVec 5))
    (hb : s.begins r t) (ho : s.core.vec.out = []) (hs : shapeFits (shRows s.core.task.vshape) (shCols s.core.task.vshape)
      (s.core.task.vshape.toNat / 2 ^ 20 % 4) = true) (hw : w.all (fun k => decide (k = s.elemBits)) = true)
    (hr : ∀ f ∈ srcs, f.toNat < 32) : s.reads r t w ds srcs (srcs.map fun f => s.core.vec.v.toList.getD f.toNat 0) s :=
  ⟨hb, ⟨hs, fun k h => by subst h; simpa using hw⟩, vecFree_none ho, popped_regs s _ srcs hr⟩

theorem begins_none {s : State} {r : PfxRule} {t : BitVec 1} (h : s.core.vec.pfx = none) : s.begins r t := fun p e => by rw [h] at e; cases e

theorem begins_some {s : State} {r : PfxRule} {p : Pfx} (h : s.core.vec.pfx = some p) (k : r.takes p = true) : s.begins r 0 :=
  fun q e => by rw [h] at e; cases e; exact ⟨rfl, k⟩

/-- Integer words of two and three sources, under no prefix and under a mask and `SAT`; a source from a stream register. -/
theorem meets_VectorIntegers : vec4.reads .sat 0 (some (viW 6)) [4] [1, 2, 3] ([1, 2, 3].map fun n => vec4.core.vec.v.toList.getD n 0) vec4 :=
  reads_regs [4] (begins_none rfl) rfl (by decide +kernel) (by decide +kernel) (by decide)

theorem meets_VectorIntegers_prefixed : (prefixed (some (false, false, true, 0)) (some (true, 1)) vec4).reads .sat 0 (some (viW 6)) [4] [1, 2]
    ([1, 2].map fun n => vec4.core.vec.v.toList.getD n 0) (prefixed (some (false, false, true, 0)) (some (true, 1)) vec4) :=
  reads_regs [4] (begins_some rfl (by decide +kernel)) rfl (by decide +kernel) (by decide +kernel) (by decide)

def queued (l : List QEntry) : State := vec4.mapVec fun v => { v with q := Vector.ofFn fun i => if i.val = 2 then l else [] }

theorem meets_VectorIntegers_stream : (queued [⟨16, 9⟩, ⟨4, 7⟩]).popped 16 [34, 2] = some ([9, vec4.core.vec.v.toList.getD 2 0], (queued [⟨16, 9⟩, ⟨4, 7⟩]).mapVec
    fun v => { v with q := v.q.set! 2 [⟨4, 7⟩] }) := rfl

def lastOut (s : State) (w : Nat) : List Nat := match s.core.vec.out.getLast? with
  | some (_, [.v _ x]) => (List.range 4).map (vget x w)
  | _ => []

/-- 05 R190: sums wrap, clamp under `SAT`, and stay under the mask; R191: a field at its limits and past them. -/
theorem test_vector_integers : lastOut (nx (exec (.viadd 4 2 3 6 0) vec4)) 32 = [0x80000000, 0x80000002, 4, 3] ∧
    lastOut (nx (exec (.viadd 4 2 3 6 0) (prefixed (some (false, false, true, 0)) (some (true, 1)) vec4))) 32 = [0x7FFFFFFF, 0, 4, 0] ∧
    lastOut (nx (exec (.vbfx 4 2 6 31 1 0) vec4)) 32 = [0, 0xFFFFFFFF, 0, 0xFFFFFFFF] ∧
    (nx (exec (.vbfx 4 2 6 31 2 0) vec4)).core.stop.map StopRec.cause = some .range ∧
    (nx (exec (.vbfx 4 2 6 0 0 0) vec4)).core.stop.map StopRec.cause = some .range := by decide +kernel

theorem meets_VectorFloats : vec4.reads .all 0 (some (vfmt 0).width) [4] [1, 2, 3] ([1, 2, 3].map fun n => vec4.core.vec.v.toList.getD n 0) vec4 :=
  reads_regs [4] (begins_none rfl) rfl (by decide +kernel) (by decide +kernel) (by decide)

theorem meets_VectorFloats_random : ∃ rb u, vec4.roundBits = some (rb, u) ∧ ∃ rc v,
    (prefixed (some (false, true, false, 5)) none vec4).roundBits = some (rc, v) := ⟨_, _, rfl, _, _, rfl⟩

/-- 05 R184, 03 R112: 1.0 + 1.0, inf times a subnormal, −0.5.. doubled; the subnormal flushed. -/
theorem test_vector_floats : lastOut (nx (exec (.vadd 4 1 1 0 0) vec4)) 32 = [0x40000000, 0xBF800001, 0x7F800000, 10] ∧
    lastOut (nx (exec (.vadd 4 1 1 0 0) (prefixed (some (false, true, false, 0)) none vec4))) 32 = [0x40000000, 0xBF800001, 0x7F800000, 0] := by
  decide +kernel

theorem meets_VectorMasks : vec4.reads .flush 0 (some (vfmt 0).width) [] [1, 2] ([1, 2].map fun n => vec4.core.vec.v.toList.getD n 0) vec4 ∧
    vec4.vecFree [] [1] [] ∧ vec4.begins .none 0 :=
  ⟨reads_regs [] (begins_none rfl) rfl (by decide +kernel) (by decide +kernel) (by decide), vecFree_none rfl, begins_none rfl⟩

theorem meets_VectorLayout : vec4.reads .none 0 none [4] [1, 2] ([1, 2].map fun n => vec4.core.vec.v.toList.getD n 0) vec4 ∧
    (vecS 2 2 2 fun _ => 3).reads .none 0 none [4] [1] [3] (vecS 2 2 2 fun _ => 3) :=
  ⟨reads_regs [4] (begins_none rfl) rfl (by decide +kernel) (by decide +kernel) (by decide),
    reads_regs [4] (begins_none rfl) rfl (by decide +kernel) (by decide +kernel) (by decide)⟩

/-- 05 R168: the shape that fills a register, and one element more; 05 R194: a square shape and another. -/
theorem test_shapes : shapeFits 64 32 0 = true ∧ shapeFits 64 33 0 = false ∧ shapeFits 16 32 2 = true ∧
    (nx (exec (.vtrans 4 1 0) vec4)).core.stop.map StopRec.cause = some .shape ∧
    lastOut (nx (exec (.vtrans 4 1 0) (vecS 2 2 2 fun _ => elems 32 [1, 2, 3, 4]))) 32 = [1, 3, 2, 4] ∧
    lastOut (nx (exec (.vredsum 4 3 6 1 0 0) vec4)) 32 = [10, 0, 0, 0] := by decide +kernel

theorem meets_VectorLayout_network : (vecS 1 4 2 fun _ => 3).popped 2048 [1, 2] = some ([3, 3], vecS 1 4 2 fun _ => 3) ∧
    (queued [⟨56, 9⟩]).popped 56 [34] = some ([9], (queued [⟨56, 9⟩]).mapVec fun v => { v with q := v.q.set! 2 [] }) := ⟨rfl, rfl⟩

/-- A full register of either type, one element of 64 bits too many, an unset descriptor. -/
theorem meets_VectorConversionAndDraws_conversion : vec4.begins .all 0 ∧ vec4.elems * (vecTy vec4.core.task.nfd 6).width ≤ 16384 ∧
    (vecS 16 32 2 fun _ => 0).elems * (vecTy vec4.core.task.nfd 0).width = 16384 ∧
    16384 < (vecS 16 32 2 fun _ => 0).elems * (vecTy vec4.core.task.nfd 3).width ∧ nfdUnset vec4.core.task.nfd 16 = true ∧
    vec4.popped (vec4.elems * (vecTy vec4.core.task.nfd 0).width / 8) [1] = some ([vec4.core.vec.v.toList.getD 1 0], vec4) := by
  refine ⟨begins_none rfl, by decide +kernel, by decide +kernel, by decide +kernel, by decide +kernel, rfl⟩

/-- The probability 2^16 of `VMASKP`, and one more; the step key outside a step and in one. -/
theorem meets_VectorConversionAndDraws_draws : (∃ g u, vec4.draws 4 = some (g, u)) ∧ vec4.begins .ksel 0 ∧ (vec4.core.vec.s.getX 7).toNat = 0x10000 ∧
    (prefixed (some (true, false, false, 0)) none vec4).begins .ksel 0 ∧ (prefixed (some (true, false, false, 0)) none vec4).vctl.ksel = true ∧
    (prefixed (some (true, false, false, 0)) none vec4).core.task.tx.st = 0 ∧
    ∃ g u, (prefixed (some (true, false, false, 0)) none (inTx vec4 1)).draws 4 = some (g, u) :=
  ⟨⟨_, _, rfl⟩, begins_none rfl, rfl, begins_some rfl (by decide +kernel), rfl, rfl, ⟨_, _, rfl⟩⟩

/-- Two rows of three elements of two bytes in the scratchpad; an accumulator that the engine holds. -/
def vecPad : State := held (vecS 2 3 1 fun n => if n = 1 then elems 16 [1, 2, 3, 4, 5, 6] else 0) .vec

theorem meets_VectorMemory : vecPad.reads .mask 0 (some 16) [1] [] [] vecPad ∧
    (∀ r, r < 2 → vecPad.served .vec .vld 6 (0xFE00000000000104 + BitVec.ofNat 64 r * 0x10) 6 (.pad (0x104 + 16 * r))) ∧
    ∀ r, r < 2 → vecPad.served .vec .vst 6 (0xFE00000000000104 + BitVec.ofNat 64 r * 0x10) 6 (.pad (0x104 + 16 * r)) := by
  refine ⟨reads_regs [1] (begins_none rfl) rfl (by decide +kernel) (by decide +kernel) (by decide), fun r h => ?_, fun r h => ?_⟩ <;>
    obtain rfl | rfl : r = 0 ∨ r = 1 := by omega
  all_goals exact served_pad (by decide +kernel)

theorem meets_VectorMemory_accumulators : vecPad.core.holds .vec 226 = true ∧ (vecS 2 3 2 fun _ => 0).elemBits = 32 ∧
    vecPad.core.pad.wf = true ∧ (vecS 2 3 2 fun _ => 0).core.holds .vec 226 = false := by decide +kernel

theorem test_vst : (nx (exec (.vst 1 8 9 1 0 4 0) vecPad)).core.pad.read 0x104 6 = [1, 0, 2, 0, 3, 0] ∧
    (nx (exec (.vst 1 8 9 1 0 4 0) vecPad)).core.pad.read 0x114 6 = [4, 0, 5, 0, 6, 0] ∧
    (nx (exec (.vsta 1 2 62 62 0) (held (vecS 2 3 2 fun _ => 0) .vec))).core.stop.map StopRec.cause = some .range := by decide +kernel

/-- A second `PFX.MSK`, `PFX.RND` behind it; a skip of as many entries as are there, and of one more; a full pipeline. -/
theorem meets_VectorPrefixesAndPipeline : (prefixed none (some (true, 1)) lab).core.vec.pfx = some { base := 0x10000, rnd := none, msk := some (true, 1) } ∧
    lab.core.vec.pfx = none ∧ (queued [⟨16, 9⟩, ⟨4, 7⟩]).core.vec.q.toList.getD 2 [] = [⟨16, 9⟩, ⟨4, 7⟩] ∧
    (lab.mapVec fun v => { v with out := [(3, [.m 3 77]), (4, [.x 2 9])] }).core.vec.out = (3, [.m 3 77]) :: [(4, [.x 2 9])] :=
  ⟨rfl, rfl, rfl, rfl⟩

theorem test_prefixes : (nx (exec (.pfxMsk 1 2 0) (prefixed none (some (true, 1)) lab))).core.stop.map StopRec.cause = some .badPrefix ∧
    (nx (exec (.pfxMsk 1 2 0) lab)).core.vec.pfx.isSome = true ∧
    (nx (exec (.vscalNop 1) (prefixed none (some (true, 1)) lab))).core.stop.map StopRec.cause = some .orphanPrefix ∧
    (nx (exec (.vqskip 2 1 0) (queued [⟨16, 9⟩, ⟨4, 7⟩]))).core.vec.skip = 0 ∧
    (nx (exec (.vqskip 2 2 0) (queued [⟨16, 9⟩, ⟨4, 7⟩]))).core.vec.skip = 2 := by decide +kernel

/-- A branch target inside the section that is an entry, one that is none, and one outside. -/
theorem meets_StreamScalars : (coded .vec 0x0200903E 4).codeWord 0x10000 = some 0x0200903E ∧ (0x0200903E#32).getLsbD 1 = true ∧
    (coded .vec 0x02009038 4).codeWord 0x10000 = some 0x02009038 ∧ (0x02009038#32).getLsbD 1 = false ∧
    (coded .vec 0x0200903E 4).core.vec.s.pc = 0x10000 ∧ (coded .vec 0x0200903E 4).core.vec.pfx = none ∧
    (coded .vec 0x0200903E 4).core.vec.out = [] ∧ lrCodeBase lab.lrec 1 = 0x10000 ∧ lrCodeLen lab.lrec 1 = 0x1000 := by decide +kernel

theorem test_stream_branches : (nx (exec (.vscalBr 0 0) (coded .vec 0x0200903E 4))).core.vec.s.pc = 0x10000 ∧
    (nx (exec (.vscalBr 0 0) (coded .vec 0x02009038 4))).core.stop.map StopRec.cause = some .range ∧
    (nx (exec (.vscalBr 0x400 0) (coded .vec 0x0200903E 4))).core.stop.map StopRec.cause = some .range ∧
    (nx (exec (.scalBr .cpy 0x1FF) (coded .cpy 0x1E 8))).core.cpy.s.pc = 0x10FF8 ∧
    (nx (exec (.scalBr .cpy 0x200) (coded .cpy 0x1E 8))).core.stop.map StopRec.cause = some .range := by decide +kernel

/-! ### Witnesses: translation, fences, objects, transactions, near-memory commands -/

def writing (s : State) : State := s.mapCore fun c => { c with writes := [{ eng := .ctl, seq := 0, level := 4, va := 0, pa := 0, len := 4, fail := none }] }

/-- One address space with a leaf of 2 MiB at 0x60000000, entry at 0x42800, and registers; firmware mode. -/
def paged (leaf : Nat) (x1 x2 x3 : Word) : State :=
  let s := labL [0, x1, x2, x3]
  let e : TlbEntry := { asid := 5, va := 0x60000000, size := 2, leaf := 0x4000002F, line := 0x102800, demoted := false }
  { s with
    mem := (((Mem.write [] 0x40000 (natLe 8 0x41001)).write 0x41008 (natLe 8 0x42001)).write 0x42800 (natLe 8 leaf))
    spaces := [{ asid := 5, root := 0x40000, host := true, key := 0, clsmap := 0 }]
    dies := s.dies.map fun d => { d with tlb := [e, { e with va := 0x60400000 }] }
    core := { s.core with mode := .firmware, tlb := [e] } }

/-- A 4 KiB page at 0x60001000, entry at 0x43008, frame 0x44000. -/
def paged4 (x2 : Word) : State := { paged 0x43001 0x60001000 x2 5 with
  mem := ((paged 0x43001 0 0 0).mem.write 0x43008 (natLe 8 0x44007)).write 0x44000 (natLe 8 0x1122334455667788) }

theorem meets_TranslationWords : (paged 0x4000000F 0x600C0000 5 0x1000).freeX [1, 2, 3] ∧ lab.core.mode = .job ∧
    (paged 0x4000000F 0 0 0).core.mode = .firmware ∧ (paged 0x4000000F 0 0 0).outstanding .ctl 0 = false ∧
    (paged 0x4000000F 0x600C0000 5 0x1000).inUse 2 5 0x40000 ∧ (paged 0x4000000F 0 0 0).inTransit 5 0x600C0000 4096 none = false ∧
    (paged 0x4000000F 0 0 0).xltAlone 5 ∧ (paged 0x4000000F 0 0 0).cleanTables := by
  unfold State.freeX State.inUse State.xltAlone State.cleanTables; decide +kernel

/-- A word that has dropped its entries and waits, with a copy of the page under way and without. -/
def shot (away : Bool) : State := (paged 0x4000000F 0x600C0000 5 0x1000).mapCore fun c => { c with
  xlt := some (XltWait.new 0 0x60000000 4096 1)
  nms := if away then [{ ctl := 0, dst := [⟨0x60000FFF, 0x40000FFF, 1⟩], src := [], aux := [], dref := [], aref := [], prm := 0, opt := 0, seq := 0 }] else [] }

theorem meets_TranslationWords_waiting : (shot true).inTransit 0 0x60000000 4096 none = true ∧ (shot true).inTransit 0 0x60001000 4096 none = false ∧
    (shot false).inTransit 0 0x60000000 4096 none = false ∧ (shot false).outstanding .ctl 0 = false ∧ (shot false).freeX [1, 2, 3] ∧
    ((writing (paged 0x4000000F 0 0 0)).mapTask fun t => { t with seq := 5 }).outstanding .ctl 5 = true := by
  unfold State.freeX; decide +kernel

theorem test_shootdown_waits : (nx (exec (.tlbinv 1 2 4) (shot true))).core.xlt.isSome = true ∧
    (nx (exec (.tlbinv 1 2 4) (shot false))).core.xlt = none ∧ (nx (exec (.tlbinv 1 2 4) (shot false))).ctl.pc = 0x10004 := by decide +kernel

/-- Lengths 1 and 2^47 in, 0 and 2^47 + 1 out; key 255 in use by no job, 256 no key. -/
theorem test_shootdown : ((nx (exec (.tlbinvr 3 1 2 4) (paged 0x4000000F 0x600C0000 5 1))).dieAt 0).tlb.length = 1 ∧
    (nx (exec (.tlbinvr 3 1 2 4) (paged 0x4000000F 0 5 (2 ^ 47)))).core.stop = none ∧
    (nx (exec (.tlbinvr 3 1 2 4) (paged 0x4000000F 0 5 (2 ^ 47 + 1)))).core.stop.map StopRec.cause = some .range ∧
    (nx (exec (.tlbinvr 3 1 2 4) (paged 0x4000000F 0 5 0))).core.stop.map StopRec.cause = some .range ∧
    (nx (exec (.keyret 1) (paged 0x4000000F 255 5 0))).core.stop = none ∧
    (nx (exec (.keyret 1) (paged 0x4000000F 256 5 0))).core.stop.map StopRec.cause = some .range := by decide +kernel

/-- The page that registers 1 and 3 name, with what a page operation needs of its table; `still` when nothing is in transit. -/
def pageIn (s : State) (still : Bool) : Bool := match pageOf 1 3 false s with
  | .ok (p, _) => decide (p.pa % 8 = 0) && s.plainAt (gaOf s.pkg p.tableAt.1) p.tableAt.2 0 &&
      s.inTransit p.asid p.va p.bytes (some (gaOf s.pkg p.frame)) == !still
  | .error _ => false

/-- Pages of both sizes, out of and in the duplicate state, and one that is moving; their operands at hand. -/
theorem meets_PageOperationsAndWalks : pageIn (paged 0x4000000F 0x600C0000 0x1D 5) true = true ∧
    pageIn (paged 0x4000002F 0x600C0000 0 5) true = true ∧
    pageIn (paged 0x4000010F 0x600C0000 0 5) true = true ∧ pageIn (paged4 0x46000) true = true ∧
    (paged 0x4000000F 0x600C0000 0x1D 5).freeX [1, 2, 3] ∧ (paged 0x4000000F 0 0 0).mem.wf = true ∧ splitTable 2 1 = some true ∧
    splitTable 0 0 = none ∧ (paged4 0x46000).accs = [] ∧ (paged4 0x46000).sectors = [] := by
  unfold State.freeX; decide +kernel

/-- The page of 2 MiB at 0x60000000. -/
def page2M : Page := { asid := 5, root := 0x40000, leaf := 0x4000000F, size := 2, pa := 0x42800, va := 0x60000000, frame := 0x40000000 }

theorem meets_PageOperationsAndWalks_page : (paged 0x4000000F 0x600C0000 0x1D 5).onPage 1 3 page2M :=
  ⟨5, 0x4000000F, by decide +kernel, by decide +kernel, by decide +kernel, rfl, by decide +kernel, rfl⟩

/-- A 4 KiB page moves to another frame, both in ordinary memory; while an access is in transit it does not yet. -/
theorem meets_PageOperationsAndWalks_moves : splitTable 3 2 = some false ∧ (paged4 0x46000).versioned 0x44000 4096 = false ∧
    (paged4 0x46000).versioned 0x46000 4096 = false ∧ pageIn ({ paged4 0x46000 with core := { (paged4 0x46000).core with nms := [
      { ctl := 0, dst := [⟨0x60001000, 0x44000, 1⟩], src := [], aux := [], dref := [], aref := [], prm := 0, opt := 0, seq := 0 }] } }) false = true ∧
    (paged 0 0 0 0).regions.toList.all (fun r => !r.rdy) = true ∧ (paged 0 0 0 0).sectors = [] := by decide +kernel

theorem test_moves : leNat ((nx (exec (.pgmove 3 1 2 1) (paged4 0x46000))).mem.read 0x46000 8) = 0x1122334455667788 ∧
    (nx (exec (.pgmove 3 1 2 1) (paged4 0x46000))).pte 0x43008 = 0x46007 ∧
    (nx (exec (.pgdup 3 1 2) (paged4 0x46000))).pte 0x43008 = 0x46027 ∧
    leNat ((nx (exec (.pgdup 3 1 2) (paged4 0x46000))).mem.read 0x46000 8) = 0x1122334455667788 := by decide +kernel

theorem test_pages : (nx (exec (.pgprot 3 1 2) (paged 0x4000000F 0x600C0000 0x09 5))).core.stop.map StopRec.cause = some .range ∧
    (nx (exec (.pgcoll 3 1 2 0) (paged 0x4000000F 0x600C0000 0 5))).core.stop.map StopRec.cause = some .range ∧
    (nx (exec (.pgsplit 3 1 2 0) (paged4 0x46000))).core.stop.map StopRec.cause = some .range := by decide +kernel

/-- Two requests for a page; a leaf, and an absent one. -/
def walking (leaf : Nat) : State := { paged leaf 0 0 0 with dies := (paged leaf 0 0 0).dies.map fun d => { d with
  reqs := [{ core := 0, asid := 5, va := 0x60000000 }, { core := 0, asid := 5, va := 0x60400000 }] } }

theorem meets_PageOperationsAndWalks_walk : (walking 0x4000000F).rootOf 5 = some 0x40000 ∧ (∃ e size pa, (walking 0x4000000F).walk 0x40000 0x60000000 = .leaf e size pa ∧
    e.getLsbD 6 = false) ∧ ∃ l w e, (walking 0x4000000E).walk 0x40000 0x60000000 = .absent l w e :=
  ⟨by decide +kernel, ⟨_, _, _, rfl, by decide +kernel⟩, ⟨_, _, _, rfl⟩⟩

def failure (e : Eng) (n : Nat) (k : FailKind) (l : Nat) : Failure := { eng := e, seq := n, kind := k, level := l, va := 0x100000, count := 2 }

def failing : State := (labL []).mapTask fun t => { t with
  seq := 5, failures := [failure .ctl 0 .lost 3, failure .vec 1 .refused 4, failure .ctl 2 .nm 4, failure .ctl 3 .refused 6] }

theorem meets_Fences : failing.freeX [3] ∧ failing.outstanding .ctl 5 = false ∧ (writing failing).outstanding .ctl 5 = true ∧
    lrSpan failing.lrec = 4 := by unfold State.freeX; decide +kernel

theorem test_fences : (nx (exec (.mfence 3 4 0) failing)).core.task.failures = [failure .vec 1 .refused 4, failure .ctl 2 .nm 4, failure .ctl 3 .refused 6] ∧
    (nx (exec (.mfence 3 5 0) failing)).core.stop.map StopRec.cause = some .range ∧
    (nx (exec (.mfence 3 4 0) (writing failing))).core.marker = some 5 ∧ fenceWord [] = 0 := by decide +kernel

def obj (va : Nat) (cls : BitVec 2) : Obj := { job := 0, va := va, size := 256, owner := 0, otask := 0, cls := cls, pcls := 2, scope := 4,
                                               pend := false, epoch := 0, token := 0, made := Counts.zero, pass := none, retract := false }

/-- Objects in the heap: one of a class at 0x100100, one of class 1 at 0x110000. -/
def objects (o : Obj) (x1 x2 : Word) : State := { labL [0, x1, x2] with objs := [o, obj 0x110000 1] }

theorem meets_PublicationAndWalks : (objects (obj 0x100100 2) 0x100100 0).freeX [1, 2, 3] ∧
    (objects (obj 0x100100 2) 0x100100 0).headerAt 0x100100 = some (obj 0x100100 2) ∧
    (objects (obj 0x100100 2) 0x100100 0).inHeap 0x100100 = true ∧ (objects (obj 0x100100 2) 0 0).mayLoad (obj 0x100100 2) = true ∧
    (objects (obj 0x100100 2) 0 0).classOf (obj 0x100100 2) = 2 ∧ (objects (obj 0x100100 0) 0 0).mayLoad (obj 0x100100 0) = true ∧
    lrTasks lab.lrec = 1 ∧ (objects (obj 0x100100 0) 0 0).headerAt 0x100180 = none ∧
    commonLevel lab.core.num ((lab.job.map fun j => j.place 0).getD 0) = 1 := by unfold State.freeX; decide +kernel

theorem meets_PublicationAndWalks_tokpass : (objects (obj 0x100100 2) 0x100200 0).served .ctl .load 6 0x100200 16
      (.mem [{ va := 0x100200, pa := 0x100200, len := 16 }] []) ∧ (objects (obj 0x100100 2) 0x100200 0).headerAt 0x100200 = none :=
  ⟨served_heap (by decide +kernel), by decide +kernel⟩

theorem checkClass_shared {s : State} {va n : Nat} {o : Obj} (k : AK) (hk : k.writes = false)
    (one : (s.myObjs.filter fun o => o.va < va + n && va < o.va + o.size && s.objAt (max o.va va) = some o) = [o])
    (shared : s.classOf o ≠ 0) (inside : s.inScope o = true) : checkClass k va n s = .ok ([], s) := by
  unfold checkClass checkObj
  simp only [Op.get_bind, one, List.foldlM_cons, List.foldlM_nil, hk, shared, inside, Bool.false_and, Bool.false_eq_true, if_false, if_true,
    Op.pure_bind, Op.pure_run, bind_assoc, pure_bind, Bool.not_true, Bool.not_false]

/-- The header of a shared object of class 2 whose token the task holds. -/
theorem meets_PublicationAndWalks_pass : (objects (obj 0x100100 2) 0x100100 0).served .ctl .load 6 0x100100 16
    (.mem [{ va := 0x100100, pa := 0x100100, len := 16 }] []) := by
  have h : (objects (obj 0x100100 2) 0x100100 0).heapSegs 0x100100 16 = [{ va := 0x100100, pa := 0x100100, len := 16 }] := by decide +kernel
  have k := place_heap (s := objects (obj 0x100100 2) 0x100100 0) (st := .ctl) (k := .load) (lim := 6) (ea := 0x100100) (n := 16) (r := [])
    (by decide) (by decide) (by decide +kernel) (by decide +kernel) (by decide +kernel) (by decide +kernel) rfl (by decide +kernel)
    (checkHomes_ok _ (by decide +kernel) (by decide +kernel))
    (checkClass_shared .load rfl (o := obj 0x100100 2) (by decide +kernel) (by decide +kernel) (by decide +kernel))
  exact h ▸ k

theorem test_publication : (nx (exec (.tokpass 1 2 4) (objects (obj 0x100100 2) 0x100100 0))).objs.map Obj.pass = [some (0, 4, 0), none] ∧
    (nx (exec (.tokpass 1 2 1) (objects (obj 0x100100 2) 0x100100 0))).core.stop.map StopRec.cause = some .range ∧
    (nx (exec (.tokpass 1 2 4) (objects (obj 0x100100 2) 0x100100 1))).core.stop.map StopRec.cause = some .range ∧
    (nx (exec (.publish 1 4) (objects (obj 0x100100 0) 0x100100 0))).core.walks = [{ root := 0x100100, sc := 4 }] ∧
    (nx (exec (.publish 1 5) (objects (obj 0x100100 0) 0x100100 0))).core.stop.map StopRec.cause = some .range ∧
    (nx (exec (.retract 1) (objects (obj 0x100100 0) 0x100100 0))).core.stop.map StopRec.cause = some .range := by decide +kernel

/-- A walk from the root, whose word 4 is tagged and holds `v`, or is not tagged. -/
def reaching (tag : BitVec 8) (v : Nat) : State := { objects (obj 0x100100 0) 0 0 with
  mem := Mem.write [] 0x100120 (natLe 8 v)
  sectors := [{ pa := 0x100100, rtag := tag, raw := false, poison := false, err := [], ckey := none }]
  core := { (objects (obj 0x100100 0) 0 0).core with walks := [{ root := 0x100100, sc := 4 }] } }

theorem checkClass_own {s : State} {va n : Nat} {o : Obj} (k : AK) (hk : k.writes = false)
    (one : (s.myObjs.filter fun o => o.va < va + n && va < o.va + o.size && s.objAt (max o.va va) = some o) = [o])
    (priv : s.classOf o = 0) (mine : o.otask = s.core.task.idx) : checkClass k va n s = .ok ([], s) := by
  unfold checkClass checkObj
  simp only [Op.get_bind, one, List.foldlM_cons, List.foldlM_nil, hk, priv, mine, Bool.false_and, Bool.false_eq_true, if_false, if_true,
    Op.pure_bind, Op.pure_run, bind_assoc, pure_bind]

theorem meets_PublicationAndWalks_walk : (reaching 0x10 0x123400).served .ctl .load 6 0x100100 256 (.mem [{ va := 0x100100, pa := 0x100100, len := 256 }] []) := by
  have h : (reaching 0x10 0x123400).heapSegs 0x100100 256 = [{ va := 0x100100, pa := 0x100100, len := 256 }] := by decide +kernel
  have k := place_heap (s := reaching 0x10 0x123400) (st := .ctl) (k := .load) (lim := 6) (ea := 0x100100) (n := 256) (r := []) (by decide)
    (by decide) (by decide +kernel) (by decide +kernel) (by decide +kernel) (by decide +kernel) rfl (by decide +kernel)
    (checkHomes_ok _ (by decide +kernel) (by decide +kernel))
    (checkClass_own .load rfl (o := obj 0x100100 0) (by decide +kernel) (by decide +kernel) (by decide +kernel))
  exact h ▸ k

theorem meets_PublicationAndWalks_walk_state : (reaching 0x10 0x123400).plainAt 0x100100 256 0 = true ∧
    (reaching 0x10 0x123400).headerAt 0x123400 = none ∧ (reaching 0 0).recs = [] ∧
    (reaching 0x10 0x123400).headerAt 0x100100 = some (obj 0x100100 0) := by decide +kernel

theorem test_walks : (nx (exec .reachWalkComplete (reaching 0 0))).core.task.marked = 1 ∧
    (nx (exec .reachWalkComplete (reaching 0x10 0x123400))).core.task.walkFail = [(.escape, 0x100120)] := by decide +kernel

/-- A word of the heap outside every object that holds the address of an object. -/
def referring (x1 : Word) (a : Word) (n : Word) : State := { labL [0, x1, a, n] with
  objs := [obj 0x100100 0, obj 0x110000 1], mem := Mem.write [] 0x120008 (natLe 8 0x110000) }

theorem meets_ReferencesAndObjects : (referring 0x110000 0x120000 128).served .ctl .store 6 0x120008 8 (.mem [{ va := 0x120008, pa := 0x120008, len := 8 }] []) :=
  served_heap (by decide +kernel)

theorem meets_ReferencesAndObjects_state : (referring 0x110000 0x120000 128).freeX [1, 2, 3] ∧ (referring 0x110000 0x120000 128).mem.wf = true ∧
    (referring 0 0 0).plainAt 0x120008 8 0 = true ∧ (referring 0 0 0).recs = [] ∧
    (referring 0 0 0).core.nmOverlap (.mem [{ va := 0x120008, pa := 0x120008, len := 8 }] []) = false ∧
    (referring 0 0 0).headerAt 0x110000 = some (obj 0x110000 1) ∧ (referring 0 0 0).mayLoad (obj 0x110000 1) = true ∧
    (referring 0 0 0).objAt 0x120008 = none ∧ (referring 0 0 0).headerAt 0x110080 = none ∧
    leNat ((referring 0 0 0).mem.read 0x120008 8) = 0x110000 := by unfold State.freeX; decide +kernel

theorem meets_ReferencesAndObjects_both : (referring 0x110000 0x120000 128).roomForBoth { va := 0x120008, pa := 0x120008, len := 8 } ∨
    (referring 0x110000 0x120000 128).recs = [] := .inr rfl

theorem test_references : ((nx (exec (.stref 1 2 1) (referring 0x110000 0x120000 128))).sectorAt 0x120000).rtag = 2 ∧
    (nx (exec (.stref 1 2 1) (referring 0x110080 0x120000 128))).core.stop.map StopRec.cause = some .range ∧
    ((nx (exec (.stref 1 2 1) (referring 0 0x120000 128))).sectorAt 0x120000).rtag = 0 ∧
    (nx (exec (.stref 1 2 1) (referring 0 0x120004 128))).core.stop.map StopRec.cause = some .align := by decide +kernel

/-- The last line of the heap, and one line too many. -/
theorem meets_ReferencesAndObjects_objects : (referring 0 0x1FFF80 128).inHeap 0x1FFF80 = true ∧ lrHeapLim lab.lrec = 0x200000 ∧
    (referring 0 0 0).core.task.windowTouches 0x1FFF80 128 = false ∧ (referring 0 0 0).guarded 0x1FFF80 128 = false ∧
    (referring 0 0 0).lineFree 0x1FFF80 128 0x1FFF80 = true ∧ (referring 0 0 0).plainAt 0x1FFF80 16 0 = true := by decide +kernel

theorem test_objinit : (nx (exec (.objinit 2 3 2) (referring 0 0x1FFF80 128))).objs.length = 3 ∧
    (nx (exec (.objinit 2 3 2) (referring 0 0x1FFF80 256))).objs.length = 2 ∧
    (nx (exec (.objinit 2 3 2) (referring 0 0x1FFF90 128))).core.stop.map StopRec.cause = some .align := by decide +kernel

/-- A `TXN` job in a state of its transaction, with the packet of a decision applied. -/
def txJob (n : BitVec 2) (x1 x2 : Word) (p : Option (BitVec 128)) : State := inTx { labL [0, x1, x2] with
  jobs := [{ job0 with lrec := recTx, applied := p, gen := 1 }] } n

/-- A decision to commit and one to abort, with both ends of the retry count's range not reached. -/
def packet (c : Bool) : BitVec 128 := if c then 0x00010001000300040005000600070040 else 0x00010002000300040005000600070005

theorem meets_Transactions : (txJob 0 0 0 none).freeX [1, 2, 3] ∧ lrTxn (txJob 0 0 0 none).lrec = true ∧ lrTxn lab.lrec = false ∧
    (txJob 0 0 0 none).anyForkedA = false ∧ (txJob 0 0 0 none).sharesCore = false ∧ (txJob 0 0 0 none).applying = false ∧
    (txJob 0 0 0 none).outstanding .ctl 0 = false ∧ (txJob 2 0 0 none).appliedOf = none ∧
    (txJob 2 0 0 (some (packet true))).appliedOf = some (packet true) ∧ pkCommit (packet true) = true ∧ pkCommit (packet false) = false := by
  unfold State.freeX; decide +kernel

/-- Votes at the ends of their ranges; a commit counts the step, an abort the retry. -/
theorem test_transactions : (nx (exec (.txvote 1 2) (txJob 1 0xFF07 0xFFFFFFFF none))).core.task.tx.st = 2 ∧
    (nx (exec (.txvote 1 2) (txJob 1 0x10000 0 none))).core.stop.map StopRec.cause = some .range ∧
    (nx (exec (.txvote 1 2) (txJob 1 8 0 none))).core.stop.map StopRec.cause = some .range ∧
    (nx (exec (.txvote 1 2) (txJob 1 0 0x100000000 none))).core.stop.map StopRec.cause = some .range ∧
    (nx (exec (.txwait 3) (txJob 2 0 0 (some (packet true))))).core.task.tx.step = 8 ∧
    (nx (exec (.txwait 3) (txJob 2 0 0 (some (packet false))))).core.task.tx.retry = 1 ∧
    (nx (exec .txopen lab)).core.stop.map StopRec.cause = some .txState := by decide +kernel

/-- `NM.FILL` of n elements of binary32 at scope `.pkg`; its operands in `x1` to `x4`. -/
def fillCtl (n : Nat) : Word := BitVec.ofNat 64 (6 + 4 * 2 ^ 21 + n * 2 ^ 32)
def filling (ctl : Word) : State := data (labL [0, ctl, 0x100000, 0, 0x3F800000])

theorem meets_NearMemory : (∃ t, nmCheck (fillCtl 16) 0x100000 0 0x3F800000 (filling (fillCtl 16)) = .ok ((), t)) ∧
    (∃ x t, nmRange .nmWr (fillCtl 16) 0x100000 (nmDstLen (fillCtl 16)) (filling (fillCtl 16)) = .ok (x, t)) ∧
    ∃ x t, nmRange .nmRd (fillCtl 16) 0 (nmSrcLen (fillCtl 16)) (filling (fillCtl 16)) = .ok (x, t) := by
  refine ⟨?_, ok_pair (by decide +kernel), ok_pair (by decide +kernel)⟩
  obtain ⟨_, t, h⟩ := ok_pair (f := nmCheck (fillCtl 16) 0x100000 0 0x3F800000) (s := filling (fillCtl 16)) (by decide +kernel)
  exact ⟨t, h⟩

theorem meets_NearMemory_state : (filling (fillCtl 16)).freeX [1, 2, 3, 4] ∧ (filling (fillCtl 16)).recs = [] ∧
    (filling (fillCtl 16)).core.nms = [] ∧ nmReadOnly (fillCtl 16) = false ∧ nmDstLen (fillCtl 16) = 64 := by
  unfold State.freeX; decide +kernel

/-- A command without a record of its own: nothing is read, and no older command is in its way. -/
theorem meets_NearMemory_record : nmRecord (fillCtl 16) 0x100000 0 0x3F800000 (filling (fillCtl 16)) =
      .ok (0, { filling (fillCtl 16) with recs := (filling (fillCtl 16)).recs }) ∧ (filling (fillCtl 16)).queued .ctl < 16 ∧
    (filling (fillCtl 16)).nmBehind ⟨fillCtl 16, [⟨0x100000, 0x100000, 64⟩], [], [], [], [], 0x3F800000, 0, 0, none⟩ = false :=
  ⟨rfl, by decide +kernel, by decide +kernel⟩

/-- A reserved bit, a count of 0, a scope below `.die`, codes 0 and 14, a type 2 of two. -/
theorem test_near_memory_refusals : [(fillCtl 16 ||| 0x1000000, Cause.reservedField), (fillCtl 0, .range), (fillCtl 16 ^^^ 0xC00000, .range),
    (fillCtl 16 ^^^ 6, .range), (fillCtl 16 ^^^ 8, .range), (fillCtl 16 ||| 0x200, .range)].all (fun q =>
      (nx (exec (.nmSgdf 1 2 3 4) (filling q.1))).core.stop.map StopRec.cause == some q.2) = true := by decide +kernel

def fillCmd : NmCmd := { ctl := fillCtl 16 ||| 0x114000, dst := [⟨0x100000, 0x100000, 64⟩], src := [], aux := [], dref := [], aref := [],
                         prm := 0x3F800001, opt := 0, seq := 0 }

def filled : State := (data (labL [])).mapCore fun c => { c with nms := [fillCmd] }

theorem meets_NearMemory_completion : filled.core.nms = [fillCmd] ∧ nmCode fillCmd.ctl = 6 ∧ nmSize fillCmd.ctl = 4 ∧ filled.mem.wf = true ∧
    filled.plainAt 0x100000 64 filled.key = true ∧ filled.core.adds = [] ∧ fillCmd.ctl.getLsbD 20 = true := by decide +kernel

theorem test_fill : (nx (exec .nmComplete filled)).mem.read 0x10003C 4 = natLe 4 0x3F800001 ∧
    ((nx (exec .nmComplete filled)).core.task.flagAt (nmFlag fillCmd.ctl)).value = 64 := by decide +kernel

/-! ### Witnesses: the copy engine -/

/-- A copy engine that holds the whole scratchpad, with its registers. -/
def copying (l : List Word) : State := (held (data (labL [])) .cpy).mapCpy fun g => { g with s := { g.s with
  x := Vector.ofFn fun i => l.getD i.val 0, run := .running, pc := 0x10000 } }

theorem ok_two {α β : Type} {f : Op α} {g : Op β} {s : State} (h : okay ((f >>= fun _ => g) s) = true) :
    ∃ x t y v, f s = .ok (x, t) ∧ g t = .ok (y, v) := by
  obtain ⟨x, t, e, k⟩ := ok_bind h
  obtain ⟨y, v, e'⟩ := ok_pair k
  exact ⟨x, t, y, v, e, e'⟩

theorem ok_three {α β γ : Type} {f : Op α} {g : Op β} {h : Op γ} {s : State} (k : okay ((f >>= fun _ => g >>= fun _ => h) s) = true) :
    ∃ x t y v z r, f s = .ok (x, t) ∧ g t = .ok (y, v) ∧ h v = .ok (z, r) := by
  obtain ⟨x, t, e, k⟩ := ok_bind k
  obtain ⟨y, v, z, r, e1, e2⟩ := ok_two k
  exact ⟨x, t, y, v, z, r, e, e1, e2⟩

/-- From the scratchpad to the heap and a mirror in the same line: a source and two destinations. -/
def mirrored : State := copying [0, 0x100400, 0xFE00000000000120, 32, 0x100420]

theorem meets_CopyTransfers : ∃ x t y v z r, mirrored.sources .cpy .cpyRd 4 0xFE00000000000120 32 x t ∧ t.dests .cpy .cpyWr 4 0x100400 32 y v ∧
    v.dests .cpy .cpyWr 4 0x100420 32 z r := ok_three (by decide +kernel)

theorem meets_CopyTransfers_state : mirrored.core.cpy.s.getX 3 = 32 ∧ eaMeet 0x100400 32 0xFE00000000000120 32 = false ∧
    eaMeet 0x100400 32 0x100420 32 = false ∧ bits 0x100400#64 63 56 ≠ 0xFE ∧ eaMeet 0x100400 32 0x10041F 32 = true ∧ lrSpan mirrored.lrec = 4 := by
  decide +kernel

/-- Two ranges of the scratchpad. -/
theorem meets_CopyTransfers_pad : (copying [0, 0xFE00000000000200, 0xFE00000000000120, 64]).served .cpy .cpyRd 4 0xFE00000000000120 64 (.pad 0x120) ∧
    (copying [0, 0xFE00000000000200, 0xFE00000000000120, 64]).served .cpy .cpyWr 4 0xFE00000000000200 64 (.pad 0x200) ∧
    eaMeet 0xFE00000000000200 64 0xFE00000000000120 64 = false ∧ (copying []).queued .cpy < 16 :=
  ⟨served_pad (by decide +kernel), served_pad (by decide +kernel), by decide +kernel, by decide +kernel⟩

theorem meets_CopyTransfers_event : (flag lab 5 0 .ctl true .cpy).eventOnHold 0x45 ∧ ¬lab.eventOnHold 0 :=
  ⟨⟨5, .inl (by decide +kernel), by decide +kernel⟩, fun ⟨f, e, _⟩ => by rcases e with e | e <;> revert e <;> revert f <;> decide +kernel⟩

/-- A length of 2^28 (its end is past the heap), of 0 and of 2^28 + 1; scopes 4 and 5; events on a holding flag. -/
theorem test_copies : (nx (exec (.cpy 4 0 1 2 3 0 1) mirrored)).core.cpy.queue.length = 1 ∧
    (nx (exec (.nmirror 4 0 1 2 3 4 0) mirrored)).core.cpy.queue.length = 1 ∧
    (nx (exec (.cpy 5 0 1 2 3 0 1) mirrored)).core.stop.map StopRec.cause = some .range ∧
    (nx (exec (.cpy 4 0 1 2 0 0 1) mirrored)).core.stop.map StopRec.cause = some .range ∧
    (nx (exec (.bind 4 0 2 1 3 7 0) (copying [0, 0x100000, 0, 0x10000001]))).core.stop.map StopRec.cause = some .range ∧
    (nx (exec (.bind 4 0 2 1 3 7 0) (copying [0, 0x100000, 0, 0x10000000]))).core.stop.map StopRec.cause = some .heapLimit ∧
    (nx (exec (.cpy 4 0 1 2 3 0x45 1) (flag mirrored 5 0 .ctl true .cpy))).core.stop.map StopRec.cause = some .flagOwner := by decide +kernel

/-- A list of three rows at 0x300; the table and the result in the scratchpad. -/
def gathering (n : Word) : State := (copying [0, 0xFE00000000000200, 0xFE00000000000100, 0, 0, 0xFE00000000000300, n]).mapCore fun c =>
  { c with pad := c.pad.write 0x300 [2, 0, 0, 0, 0, 0, 0, 0, 5, 0, 0, 0] }

theorem meets_GathersAndStampedCopies_gathers : (gathering 3).served .cpy .cpyRd 4 0xFE00000000000300 12 (.pad 0x300) ∧
    (∃ rows t y v, (gathering 3).rowSources 4 0xFE00000000000100 8 [2, 0, 5] rows t ∧ t.dests .cpy .cpyWr 4 0xFE00000000000200 24 y v) ∧
    ∃ x t rows v, (gathering 3).sources .cpy .cpyRd 4 0xFE00000000000100 24 x t ∧ t.rowDests 4 0xFE00000000000200 8 [2, 0, 5] rows v :=
  ⟨served_pad (by decide +kernel), ok_two (by decide +kernel), ok_two (by decide +kernel)⟩

/-- 65536 rows of one byte in, 65537 out; an unaligned list, and one in memory. -/
theorem test_gathers : (nx (exec (.gather 4 0 1 2 5 6 7 0) (gathering 3))).core.cpy.queue.length = 1 ∧
    (nx (exec (.scatter 4 0 1 2 5 6 7 0) (gathering 3))).core.cpy.queue.length = 1 ∧
    (nx (exec (.gather 4 0 1 2 5 6 0 0) (gathering 65537))).core.stop.map StopRec.cause = some .range ∧
    (nx (exec (.gather 4 0 1 2 5 0 0 0) (gathering 3))).core.stop.map StopRec.cause = some .range ∧
    (nx (exec (.gather 4 0 1 2 4 6 7 0) (gathering 3))).core.stop.map StopRec.cause = some .range := by decide +kernel

/-- A stamped copy of 128 bytes to the task's own core. -/
def stamping (off n peer : Word) : State := copying [0, off, 0xFE00000000000200, n, peer]

theorem meets_GathersAndStampedCopies_stamped : (stamping 0x1FF80 128 0).job.isSome = true ∧ (stamping 0 0 0).padBytes = 0x20000 ∧
    ((stamping 0 0 0).job.map fun j => commonLevel 0 (j.place 0)) = some 1 ∧ ((stamping 0 0 0).job.map fun j => (j.tasksOn (j.place 0)).length) = some 1 ∧
    ((stamping 0 0 0).job.map fun j => lrTasks j.lrec) = some 1 := by decide +kernel

/-- The last line of the peer's scratchpad and one past it; lengths 64, 2^20 and 2^20 + 128; a task that the job does not have. -/
theorem test_stamped_copies : (nx (exec (.cpys 1 0 1 2 3 4 77) (stamping 0x1FF80 128 0))).core.cpy.stamped.length = 1 ∧
    (nx (exec (.cpys 1 0 1 2 3 4 77) (stamping 0x20000 128 0))).core.stop.map StopRec.cause = some .range ∧
    (nx (exec (.cpys 1 0 1 2 3 4 77) (stamping 0x1FF40 128 0))).core.stop.map StopRec.cause = some .align ∧
    (nx (exec (.cpys 1 0 1 2 3 4 77) (stamping 0 64 0))).core.stop.map StopRec.cause = some .range ∧
    (nx (exec (.cpys 1 0 1 2 3 4 77) (stamping 0 128 1))).core.stop.map StopRec.cause = some .range ∧
    (nx (exec (.cpys 5 0 1 2 3 4 77) (stamping 0 128 0))).core.stop.map StopRec.cause = some .range := by decide +kernel

/-- A transfer record: kind, scope, next, source, destination, length; one repetition. -/
def recBytes (kind sc : Nat) (next src dst len : Nat) : List Byte :=
  natLe 8 (1 + kind * 16 + sc * 2 ^ 20) ++ natLe 8 next ++ natLe 8 src ++ natLe 8 dst ++ natLe 8 len ++ natLe 8 (1 + 2 ^ 32) ++ natLe 16 0

/-- A chain of one record at 0x101000, in ordinary memory, and its head in `x7`. -/
def chaining (r : List Byte) (head : Word) : State := { copying [0, 0, 0, 0, 0, 0, 0, head] with mem := (data (labL [])).mem.write 0x101000 r }

def padRec (kind : Nat) : List Byte := recBytes kind 4 0 0xFE00000000000120 0xFE00000000000200 64

/-- A walk whose second record has a reserved bit, behind a first that it has guarded. -/
theorem meets_Chains_fault : (walkChain (List.range 224) 4097 0x101000 [] (chaining (recBytes 0 4 0x101008 0xFE00000000000120 0xFE00000000000200 64)
      0x101000)) matches .error (.trapIn _ _) := by decide +kernel

theorem test_chain_fault : (nx (exec (.chain 2 7) (chaining (recBytes 0 4 0x101008 0xFE00000000000120 0xFE00000000000200 64) 0x101000))).core.task.guards =
      [0x101000] ∧ ((chaining (padRec 0) 0x101000).core.holds .cpy 223) = true := by decide +kernel

theorem meets_Chains_walk : ∃ recs v, walkChain (List.range 224) 4097 0x101000 [] (chaining (padRec 0) 0x101000) = .ok (recs, v) ∧ recs ≠ [] := by
  obtain ⟨recs, v, h, k⟩ := ok_bind (g := fun recs => check fun _ => decide (recs ≠ []))
    (f := walkChain (List.range 224) 4097 0x101000 []) (s := chaining (padRec 0) 0x101000) (by decide +kernel)
  exact ⟨recs, v, h, by simpa using check_ok k⟩

def chained (kind : Nat) : State := nx (exec (.chain 2 7) (chaining (padRec kind) 0x101000))

theorem meets_Chains : ((chaining (padRec 0) 0).chan 2).active = false ∧ ((chained 0).chan 2).active = true ∧ (chained 0).core.stop = none ∧
    ((chained 0).chan 2).walked = true ∧ (chained 0).chanReady 2 = true ∧ (chained 0).chanReady 3 = false ∧
    (chained 0).core.task.guards = [0x101000] := by decide +kernel

theorem meets_Chains_records : (∃ r t, readXferRecord 0x101000 (chained 0) = .ok (r, t)) ∧ ((chained 0).chan 2).record = 0x101000 ∧
    ((chained 0).chan 2).prog = 0 := ⟨ok_pair (by decide +kernel), by decide +kernel⟩

theorem test_chains : (nx (exec (.chainRecordRun 2) (chained 0))).core.pad.read 0x200 32 = (chained 0).core.pad.read 0x120 32 ∧
    (nx (exec (.chain 2 7) (chaining (padRec 0) 0x101008))).core.stop.map StopRec.cause = some .align ∧
    (nx (exec (.chain 2 7) (chaining (padRec 0) 0))).core.stop = none ∧
    (nx (exec (.chstop 2) (chained 0))).core.stop.map StopRec.cause = some .privilege := by decide +kernel

/-- A collective's descriptor: an all-gather of four elements of one participant between scratchpad ranges. -/
def collDesc (np rsv : Nat) : List Byte :=
  natLe 8 (16 + 256 + np * 2 ^ 16 + rsv) ++ natLe 8 4 ++ natLe 8 0xFE00000000000120 ++ natLe 8 0xFE00000000000200 ++ natLe 32 0

def collecting (np rsv : Nat) : State := chaining (collDesc np rsv) 0x101000

theorem meets_CopyCollectives : (collecting 1 0).served .cpy .cpyRd 6 0x101000 64 (.mem [{ va := 0x101000, pa := 0x101000, len := 64 }] []) :=
  served_heap (by decide +kernel)

theorem meets_CopyCollectives_descriptor : ∃ d t, readPlace .cpy 64 (.mem [{ va := 0x101000, pa := 0x101000, len := 64 }] []) (collecting 1 0) = .ok (d, t) :=
  ok_pair (by decide +kernel)

theorem meets_CopyCollectives_state : (collecting 1 0).sharesCore = false ∧ (collecting 1 0).colls = [] ∧
    collReserved (BitVec.ofNat 512 (leNat (collDesc 1 0))) = false ∧ collBad (BitVec.ofNat 512 (leNat (collDesc 1 0))) = false ∧
    collReserved (BitVec.ofNat 512 (leNat (collDesc 1 (2 ^ 12)))) = true ∧ collBad (BitVec.ofNat 512 (leNat (collDesc 0 0))) = true := by decide +kernel

def collected : State := nx (execCollAllGather 4 0 7 0 (collecting 1 0))

theorem meets_CopyCollectives_run : (collected.colls.map fun c => (c.broken, c.cut, c.who)) = [(false, false, [(0, 0)])] ∧
    collected.core.cpy.queue.length = 1 ∧ collected.core.adds = [] ∧ collected.core.pad.wf = true ∧
    (collected.core.cpy.queue.map fun x => (x.seq, collNpart x.desc, collRank x.desc, collKind x.desc)) = [(0, 1, 0, 1)] := by decide +kernel

theorem test_collective : (nx (exec (.collectiveRun 0 [] false) collected)).core.pad.read 0x200 16 = collected.core.pad.read 0x120 16 ∧
    (nx (exec (.collectiveRun 0 [] false) collected)).colls.map (fun c => (c.who, c.ran)) = [([], true)] ∧
    (nx (exec (.collAllGather 4 0 7 0) (collecting 0 0))).core.stop.map StopRec.cause = some .range ∧
    (nx (exec (.collAllGather 4 0 7 0) (collecting 1 (2 ^ 12)))).core.stop.map StopRec.cause = some .reservedField := by decide +kernel

/-- A transfer between scratchpad ranges in the queue, then read; a release flag at the end of its range. -/
def queuedCopy (ev : BitVec 14) : State := nx (exec (.cpy 4 0 1 2 3 ev 1) (copying [0, 0xFE00000000000200, 0xFE00000000000120, 64]))

theorem meets_CopyEvents_releases_kind : ((queuedCopy 0x45).core.cpy.queue.map fun x => (x.moved, x.isColl, x.bound.isNone, x.rel)) =
    [(false, false, true, some 5)] := by decide +kernel

theorem meets_CopyEvents_releases : (queuedCopy 0x45).core.cpy.queue.all (queuedCopy 0x45).core.copyReady = true ∧ (queuedCopy 0x45).core.adds = [] ∧
    (queuedCopy 0x45).core.pad.wf = true ∧ ((queuedCopy 0x45).core.cpy.queue[1]?).isNone = true := by decide +kernel

theorem meets_CopyEvents_releases_ranges : ((queuedCopy 0x45).core.cpy.queue.map fun x => (x.source, x.dst, x.dst2)) =
    [([.pad 0x120 64], [.pad 0x200 64], [])] := by decide +kernel

theorem meets_CopyEvents_deliveries : ((nx (exec (.copyRelease 0) (queuedCopy 0x45))).core.cpy.queue.map fun x => (x.moved, x.chan, x.bad)) = [(true, none, [])] := by
  decide +kernel

theorem test_copy_events : ((nx (exec (.copyRelease 0) (queuedCopy 0x45))).core.task.flagAt 5).value = 64 ∧
    (nx (exec (.copyRelease 0) (queuedCopy 0x45))).core.pad.read 0x200 32 = (queuedCopy 0x45).core.pad.read 0x120 32 ∧
    (nx (exec (.copyDelivery 0) (queuedCopy 0))).core.cpy.queue.length = 1 ∧
    (nx (exec (.copyDelivery 0) (nx (exec (.copyRelease 0) (queuedCopy 0))))).core.cpy.queue.length = 0 := by decide +kernel

/-- A stamped copy with T = 77 in an exchange phase that ends in `till`, in cycle `now`; it lands later. -/
def stamped (till now : Nat) : State :=
  let s := nx (exec (.cpys 1 0 1 2 3 4 77) (stamping 0x400 128 0))
  { s with chron := BitVec.ofNat 64 now, core := { s.core with bar := { s.core.bar with till := some till } } }

theorem meets_CopyEvents_stamped : (stamped 500 77).core.cpy.stamped.all (fun x => (stamped 500 77).stampReady (.copy (stamped 500 77).core x)) = true ∧
    (stamped 500 76).core.cpy.stamped.all (fun x => !(stamped 500 76).stampReady (.copy (stamped 500 76).core x)) = true ∧
    (stamped 500 77).core.cpy.stamped.all (fun x => !x.void && !x.moved && ((stamped 500 77).judge (.copy (stamped 500 77).core x)).isNone) = true ∧
    (stamped 77 77).core.cpy.stamped.all (fun x => decide (77 < (Cmd.copy (stamped 77 77).core x).done)) = true ∧
    (stamped 500 77).core.stop = none ∧ (stamped 500 77).sharesCore = false := by decide +kernel

theorem test_stamped_issue : ((nx (exec (.stampedIssue .cpy 0) (stamped 500 77))).core.cpy.stamped.map fun x => x.moved) = [true] ∧
    (nx (exec (.stampedIssue .cpy 0) (stamped 77 77))).core.stop.map StopRec.cause = some .scheduleMiss ∧
    ((nx (exec (.stampedIssue .cpy 0) (stamped 500 76))).core.cpy.stamped.map fun x => x.moved) = [false] := by decide +kernel

def landed : State := { nx (execStampedIssue .cpy 0 (stamped 500 77)) with chron := 400 }

theorem meets_CopyEvents_landing : (landed.landing.map fun x => (x.src, x.peer, x.rel, x.del)) = [([.pad 0x200 128], some (0, 0x400), none, none)] ∧
    (landed.coreAt 0).pad.wf = true ∧ (landed.core.cpy.queue[0]?).isNone = true := by decide +kernel

/-- A bound transfer of two entries of 32 bytes, with a vector stream and without one. -/
def bound (r : Run) : State := forked (nx (exec (.bind 4 0 2 2 3 31 0) (copying [0, 0, 0xFE00000000000120, 64]))) r

theorem meets_CopyEvents_entries : ((bound .running).core.cpy.queue.map fun x => (x.bound, x.done, x.len, x.src)) = [(some (2, 32), 0, 64, [.pad 0x120 64])] ∧
    (bound .running).takesEntries = true ∧ (bound .running).core.cpy.queue.all (bound .running).entryReady = true := by decide +kernel

theorem test_stream_entries : ((nx (exec (.streamEntryArrival 0) (bound .running))).core.vec.q.toList.getD 2 []).map QEntry.len = [32] ∧
    ((nx (exec (.streamEntryArrival 0) (bound .running))).core.cpy.queue.map fun x => x.done) = [32] := by decide +kernel

/-! ### Witnesses: the matrix engine and the Astrolabe -/

/-- A tile descriptor in scratchpad or memory: address, format, kind, rows, columns, stride (09 R294). -/
def tileAt (addr fmt kind rows cols stride : Nat) : BitVec 128 :=
  BitVec.ofNat 128 (addr + fmt * 2 ^ 52 + kind * 2 ^ 60 + (rows - 1) * 2 ^ 64 + (cols - 1) * 2 ^ 80 + stride * 2 ^ 96)

/-- A matrix engine that holds everything, with descriptors and registers. -/
def matrices (ds : List (BitVec 128)) (xs : List Word) : State := (held (data (labL [])) .mtx).mapMtx fun g => { g with
  d := Vector.ofFn fun i => ds.getD i.val 0
  s := { g.s with x := Vector.ofFn fun i => xs.getD i.val 0, run := .running, pc := 0x10000 } }

/-- Tiles of 2 × 3 and 3 × 2 elements of 32 bits in the scratchpad, and the first one again. -/
def tiled : State := matrices [0, tileAt 0x100 0 0 2 3 12, tileAt 0x120 0 0 3 2 8, tileAt 0x100 0 0 65 3 12, tileAt 0x102 0 0 2 3 12] []

theorem meets_TileDescriptors : (matrices [] [0, 0xFE00000000000100]).served .mtx .load 6 0xFE00000000000100 16 (.pad 0x100) :=
  served_pad (by decide +kernel)

theorem meets_TileDescriptors_values : tdReserved (tileAt 0x100 0 0 2 3 12) = false ∧ tdReserved (tileAt 0x100 0 7 2 3 12) = true ∧
    ((matrices [] [0, 0x100, 0x0000000C00020001]).core.mtx.s.getX 2 ++ (matrices [] [0, 0x100, 0]).core.mtx.s.getX 1 : BitVec 128) =
      tileAt 0x100 0 0 2 3 12 := by decide +kernel

/-- 09 R311: an address at the end of its range and past it, a sum that wraps at 2^48, a reserved value, a misaligned load. -/
theorem test_tiles : (nx (exec (.mtile 3 1 2) (matrices [] [0, 0x100, 0x0000000C00020001]))).tileReg 3 = tileAt 0x100 0 0 2 3 12 ∧
    ((nx (exec (.mtileAddr 3 1) (matrices [] [0, 0xFFFFFFFFFFFF]))).tileReg 3).extractLsb' 0 48 = 0xFFFFFFFFFFFF ∧
    (nx (exec (.mtileAddr 3 1) (matrices [] [0, 0x1000000000000]))).core.stop.map StopRec.cause = some .range ∧
    ((nx (exec (.mtileAdd 1 1) (matrices [0, tileAt 0x100 0 0 2 3 12] [0, 0xFFFFFFFFFFFF]))).tileReg 1) = tileAt 0xFF 0 0 2 3 12 ∧
    (nx (exec (.mtile 3 1 2) (matrices [] [0, 0x7000000000000100, 0]))).core.stop.map StopRec.cause = some .reservedField ∧
    (nx (exec (.mtileLd 3 1 8) (matrices [] [0, 0xFE00000000000100]))).core.stop.map StopRec.cause = some .align := by decide +kernel

def mmaWord : Instr := .mma 5 1 2 .zero 0 0 0 none

theorem meets_MatrixProducts : productIs mmaWord 5 1 2 none false false .zero 0 0 0 none ∧
    productIs (.mmai 5 1 2 .keep 0 1 none) 5 1 2 none true false .keep 0 0 1 none ∧
    productIs (.mmas 5 1 2 3 4 .keep 5 1 1 0 0 none) 5 1 2 (some (3, 4)) false false .keep 5 0 0 none ∧
    productIs (.mmaj 0 5 1 2 0 0 .keep 0 0 0 0 0 (some 9)) 5 1 2 none false true .keep 0 0 0 (some 9) :=
  ⟨.inl ⟨0, 0, rfl, rfl, rfl, rfl, rfl, rfl⟩, .inr (.inr (.inl ⟨0, rfl, rfl, rfl, rfl, rfl, rfl⟩)),
    .inr (.inl ⟨3, 4, 1, 1, rfl, rfl, rfl, rfl⟩), .inr (.inr (.inr ⟨0, 0, 0, 0, 0, rfl, rfl, rfl, rfl⟩))⟩

/-- The whole way of a product: both tiles open and are placed, their pieces are held, readable and recorded. -/
def productChecks : Op Unit := do
  let a ← openTile (tiled.tileReg 1)
  let b ← openTile (tiled.tileReg 2)
  let _ ← drawKey false
  let (ta, tb, _) ← locateOperands (tiled.tileReg 1) (tiled.tileReg 2) a b none
  let _ ← classTile .tile ta
  holdTiles [ta, tb] [5]
  readable (tileSegs [ta, tb])
  record .mtx .rd (tileSegs [ta, tb])
  check fun _ => decide (a.dims = (2, 3)) && decide (b.dims = (3, 2)) && pairOk false false a.ty b.ty

theorem meets_MatrixProducts_placed : okay (productChecks tiled) = true := by decide +kernel

/-- A tile of binary32 in the scratchpad. -/
def padTileAt (addr rows cols : Nat) : Tile := {
  src := (List.range rows).map fun p => .pad (addr + p * (4 * cols)) (4 * cols), fmt := 0, nfd := 0, tr := false, rows := rows, cols := cols, size := 4 }

theorem meets_MatrixProducts_pad : tiled.padOperand (tiled.tileReg 1) (padTileAt 0x100 2 3) ∧
    tiled.padOperand (tiled.tileReg 2) (padTileAt 0x120 3 2) ∧ tiled.mtxHolds [padTileAt 0x100 2 3, padTileAt 0x120 3 2] 5 ∧
    pairOk false false (padTileAt 0x100 2 3).ty (padTileAt 0x120 3 2).ty = true ∧ (padTileAt 0x100 2 3).dims.2 = (padTileAt 0x120 3 2).dims.1 ∧
    tiled.queued .mtx < 16 := by
  unfold State.padOperand State.mtxHolds; decide +kernel

def productsFull (n : Nat) : State := tiled.mapMtx fun x => { x with queue := (List.range n).map fun i => { MCmd.new mmaWord with seq := i } }

/-- Fifteen commands in the queue and sixteen; shapes that do not fit; an operand that does not pair; an operand in memory. -/
theorem test_products : (nx (exec mmaWord tiled)).core.mtx.queue.length = 1 ∧ (nx (exec mmaWord (productsFull 16))).core.mtx.queue.length = 16 ∧
    (nx (exec mmaWord (productsFull 15))).core.mtx.queue.length = 16 ∧
    ((nx (exec (.mma 5 1 1 .zero 0 0 0 none) tiled)).core.stop.map fun r => (r.cause, r.finfo, r.finfox)) = some (.shape, 0x20001, 2) ∧
    (nx (exec (.mmai 5 1 2 .zero 0 0 none) tiled)).core.stop.map StopRec.cause = some .range ∧
    (nx (exec (.mma 5 1 2 .zero 0 0 1 (some 7)) tiled)).core.stop.map StopRec.cause = some .range ∧
    (nx (exec (.mmaj 0 5 1 2 0 0 .keep 0 0 0 0 0 none) tiled)).core.stop.map StopRec.cause = some .range := by decide +kernel

/-- A tile of 64 rows opens, and one of 65; the accumulators are held, and one is not. -/
def loadChecks : Op Unit := do
  let a ← openTile (tiled.tileReg 1)
  let l ← locateTiles .tile [(tiled.tileReg 1, a)]
  let u ← classTile .tile (l.headD a)
  holdTiles [u] [5]
  readable (tileSegs [u])
  record .mtx .rd (tileSegs [u])

def storeChecks : Op Unit := do
  let a ← openTile (tiled.tileReg 1)
  let l ← locateTiles .store [(tiled.tileReg 1, a)]
  let u ← classTile .store (l.headD a)
  holdTiles [u] [5]
  record .mtx .wr (tileSegs [u])

theorem meets_AccumulatorCommands : okay (loadChecks tiled) = true ∧ okay (storeChecks tiled) = true ∧
    okay (openTile (tiled.tileReg 3) tiled) = true ∧ tdTag (tiled.tileReg 1) = false ∧ tiled.core.holds .mtx 229 = true ∧
    lab.core.holds .mtx 229 = false ∧ tiled.core.mtx.queue = [] ∧ tiled.jobMode = true := by decide +kernel

def spilling : State := { matrices [] [0, 0x100000] with core := { (matrices [] [0, 0x100000]).core with mode := .firmware } }

theorem meets_AccumulatorCommands_images : spilling.jobMode = false ∧
    (∃ p t, imageSpan .store 3 0x100000 spilling = .ok (p, t)) ∧ ∃ p t, imageSpan .load 3 0x100000 spilling = .ok (p, t) :=
  ⟨by decide +kernel, ok_pair (by decide +kernel), ok_pair (by decide +kernel)⟩

/-- A run to accumulator 15 and past it; a tile of 65 rows; a spill in job mode. -/
theorem test_accumulators : (nx (exec (.azero 14 1) tiled)).core.mtx.queue.length = 1 ∧
    (nx (exec (.azero 15 1) tiled)).core.stop.map StopRec.cause = some .range ∧
    (nx (exec (.ald 5 3 0 0) tiled)).core.stop.map StopRec.cause = some .shape ∧
    (nx (exec (.azero 5 0) lab)).core.stop.map StopRec.cause = some .segmentHolder ∧
    (nx (exec (.aspill 3 1) tiled)).core.stop.map StopRec.cause = some .privilege := by decide +kernel

/-- A command in the queue; accumulator elements all 1.0. -/
def queuedCmd (m : MCmd) : State := tiled.mapMtx fun x => { x with queue := [m] }

def tileOf (n : BitVec 4) : Tile := match (do
    let a ← openTile (tiled.tileReg n)
    let l ← locateTiles .tile [(tiled.tileReg n, a)]
    return l.headD a : Op Tile) tiled with
  | .ok (t, _) => t
  | .error _ => { src := [], fmt := 0, nfd := 0, tr := false, rows := 0, cols := 0, size := 0 }

def mmaCmd : MCmd := { MCmd.new mmaWord with seq := 7, ta := some (tileOf 1), tb := some (tileOf 2) }

theorem meets_MatrixRuns : (queuedCmd mmaCmd).mmDue = none ∧ (queuedCmd mmaCmd).core.mtx.queue = [mmaCmd] ∧ mmRel mmaCmd.i = false ∧
    (queuedCmd mmaCmd).core.adds = [] ∧ (queuedCmd mmaCmd).core.mtx.stamped = [] ∧
    mmaCmd.overlaps { MCmd.new (.mma 5 1 2 .zero 0 0 0 (some 9)) with seq := 3 } = true := ⟨rfl, rfl, rfl, rfl, rfl, by decide +kernel⟩

/-- A queue whose head waits for a stamped product to accumulator 5 while its second command waits for nothing, and one in which
all wait; a stamped product that is due. -/
def held5 (q : List MCmd) : State := tiled.mapMtx fun x => { x with
  queue := q, stamped := [{ MCmd.new (.mma 5 1 2 .zero 0 0 0 (some 900)) with seq := 3 }] }

def azeroCmd : MCmd := { MCmd.new (.azero 7 0) with seq := 8 }

theorem meets_MatrixRuns_order : (held5 [mmaCmd]).mmDue = none ∧ (held5 [mmaCmd]).core.mtx.queue.all (fun m =>
      (held5 [mmaCmd]).core.mtx.stamped.any fun q => !q.void && decide (q.seq < m.seq) && m.overlaps q) = true ∧
    (held5 [mmaCmd, azeroCmd]).core.mtx.queue = [mmaCmd] ++ azeroCmd :: [] ∧
    ((held5 [mmaCmd, azeroCmd]).core.mtx.queue ++ (held5 [mmaCmd, azeroCmd]).core.mtx.stamped).all (fun q =>
      decide (8 ≤ q.seq) || !azeroCmd.overlaps q) = true ∧
    mmRel (.mma 5 1 2 .zero 0 0 1 none) = true := by decide +kernel

theorem meets_MatrixRuns_due :
    let m := { MCmd.new (.mma 5 1 2 .zero 0 0 0 (some 9)) with seq := 3, ta := some (tileOf 1), tb := some (tileOf 2), res := some 7 }
    let s : State := { tiled.mapMtx fun x => { x with stamped := [m] } with chron := 900 }
    s.mmDue = some m ∧ (mmCtlOf m).map Prod.fst = some 5 ∧ s.core.adds = [] := by decide +kernel

/-- Tiles read from the scratchpad, once more as the scales of a product. -/
theorem meets_MatrixRuns_scales :
    let m := { mmaCmd with i := .mmas 5 1 2 3 4 .zero 0 0 0 0 0 none, sa := some (tileOf 1), sb := some (tileOf 2) }
    (mmCtlOf m).map Prod.fst = some 5 ∧ (queuedCmd m).readTile (tileOf 1) = (queuedCmd m, ((queuedCmd m).readTile (tileOf 1)).2.1, []) ∧
    (queuedCmd m).readTile (tileOf 2) = (queuedCmd m, ((queuedCmd m).readTile (tileOf 2)).2.1, []) ∧
    (tileOf 1).src.all (fun p => match p with | .pad _ _ => true | _ => false) = true := by decide +kernel

/-- The image of an accumulator in memory. -/
def imageAt : Span := .mem [{ va := 0x100000, pa := 0x100000, len := 16384 }] []

theorem meets_MatrixRuns_images : imageAt.len = 16384 ∧ tiled.plainAt 0x100000 16384 tiled.key = true ∧
    tiled.core.pad.wf = true ∧ tiled.mem.wf = true ∧ (tileOf 1).src.length = (tileOf 1).rows ∧ 0 < (tileOf 1).size ∧
    (tileOf 1).src.all (fun p => p.len == (tileOf 1).cols * (tileOf 1).size) = true := by decide +kernel

theorem meets_MatrixRuns_tiles : (tileOf 1).src = [.pad 0x100 12, .pad 0x10C 12] ∧ (tileOf 2).dims = (3, 2) ∧ (tileOf 1).dims = (2, 3) ∧
    ((queuedCmd mmaCmd).readTile (tileOf 1)).2.2 = [] ∧ (mmCtlOf mmaCmd).isSome = true := by decide +kernel

theorem test_azero : (nx (execMatrixCommandRun false (queuedCmd { MCmd.new (.azero 3 1) with seq := 7 }))).core.mtx.queue.length = 0 ∧
    (nx (execMatrixCommandRun true (queuedCmd { MCmd.new (.azero 3 1) with seq := 7 }))).core.mtx.queue.length = 1 := by decide +kernel

/-- A state of three qubits in one share of eight amplitudes at 0x100000, and a gate of one qubit. -/
def qstate : QState := { n := 3, ndb := 0, npb := 0, ty := 0, share := 0x100000, rank := 0, group := 5, map := mapOf [2, 0, 1], dies := [0] }

def gateX : Gate := { k := 1, ty := 0, m := [(0, 0), (0x3F800000, 0), (0x3F800000, 0), (0, 0)] }

def image (l : List Nat) : List Byte := (List.range 64).map fun i => BitVec.ofNat 8 (l.getD i 0xFF)

/-- An Astrolabe with that state, its map image and another at 0x100100 and 0x100140. -/
def quantum (st : Option QState) (xs : List Word) : State := ({ labL [] with
  mem := ((Mem.write [] 0x100000 (natLe 4 0x3F800000)).write 0x100100 (image [1, 0, 2])).write 0x100140 (image [1, 1, 2]) }).mapAstro fun a =>
    { a with core := some 0, st := st, g := Vector.ofFn fun i => if i.val = 2 then gateX else a.g[i], s := { a.s with
      x := Vector.ofFn fun i => xs.getD i.val 0, run := .running, pc := 0x10000 } }

/-- The share's line has been read and written in this superstep. -/
def visited : State :=
  let s := quantum (some qstate) []
  let r : AccRec := {
    line := 0x100000, va := 0x100000, job := 0, task := 0, core := 0, strm := .ast, kind := .rd, cnt := s.core.task.counts }
  { s with recs := [r, { r with kind := .wr }] }

theorem meets_QubitWords : (∃ p t d u, place .ast .load 6 0x100100 64 (quantum (some qstate) []) = .ok (p, t) ∧ readPlace .ast 64 p t = .ok (d, u)) ∧
    (∃ p t u, place .ast .store 6 0x100100 64 (quantum (some qstate) []) = .ok (p, t) ∧ writePlace .ast (mapImage qstate.phys) p t = .ok ((), u)) ∧
    (∃ no t, shareAccess qstate true true (qstate.offsets fun _ => true) visited = .ok (no, t)) ∧
    ∃ no t, shareAccess qstate true true (qstate.offsets (controlled qstate.phys 4)) visited = .ok (no, t) := by
  refine ⟨?_, ?_, ok_pair (by decide +kernel), ok_pair (by decide +kernel)⟩
  · obtain ⟨p, t, e, k⟩ := ok_bind (f := place .ast .load 6 0x100100 64) (g := readPlace .ast 64) (s := quantum (some qstate) []) (by decide +kernel)
    obtain ⟨d, u, e'⟩ := ok_pair k
    exact ⟨p, t, d, u, e, e'⟩
  · obtain ⟨p, t, e, k⟩ := ok_bind (f := place .ast .store 6 0x100100 64) (g := writePlace .ast (mapImage qstate.phys))
      (s := quantum (some qstate) []) (by decide +kernel)
    obtain ⟨_, u, e'⟩ := ok_pair k
    exact ⟨p, t, u, e, e'⟩

theorem meets_QubitWords_images : imageOk 3 (image [1, 0, 2]) = true ∧ imageOk 3 (image [1, 1, 2]) = false ∧ gateX.k ≠ 0 ∧ gateX.ty = qstate.ty ∧
    (quantum none []).astro.st = none ∧ (quantum (some qstate) []).astro.st = some qstate ∧
    (quantum (some qstate) []).gate 2 = gateX := by decide +kernel

/-- The last qubit and one past it; a permutation and an image that is none; a control that is the target. -/
theorem test_qubits : ((nx (exec (.qswap 1 2) (quantum (some qstate) [0, 0, 2]))).astro.st.map QState.phys) = some [1, 0, 2] ∧
    (nx (exec (.qswap 1 2) (quantum (some qstate) [0, 0, 3]))).astro.stop.map AStop.cause = some .qmap ∧
    (nx (exec (.qmap 1) (quantum (some qstate) [0, 0x100140]))).astro.stop.map AStop.cause = some .qmap ∧
    ((nx (exec (.qmap 1) (quantum (some qstate) [0, 0x100100]))).astro.st.map QState.phys) = some [1, 0, 2] ∧
    (nx (exec (.qdiag 2 1 2) (quantum (some qstate) [0, 1, 2]))).astro.stop.map AStop.cause = some .range ∧
    (nx (exec (.qscale 1) (quantum none []))).astro.stop.map AStop.cause = some .range := by decide +kernel

theorem meets_QubitCollectives : qLimits lab.lrec 4 0 0 (ampSize 0) 0 5 = true ∧ qLimits lab.lrec 0 0 0 (ampSize 0) 0 5 = false ∧
    (quantum (some qstate) []).agrees false 5 [] ([12] ++ qstate.phys) ∧ (quantum none []).agrees true 5 [0x100000, 0, 5] [1, 4, 0, 0, 0, 1, 0] := by
  unfold State.agrees; decide +kernel

theorem meets_QubitCollectives_gate : ∃ ts t, gateCheck qstate gateX 1 4 (quantum (some qstate) []) = .ok (ts, t) := ok_pair (by decide +kernel)

theorem meets_QubitCollectives_results : (∃ st t no u, resultPlace 0 (quantum (some qstate) []) = .ok (st, t) ∧
    shareAccess qstate true false (qstate.offsets fun _ => true) t = .ok (no, u)) ∧
    ∃ no t, shareAccess (qinitState 4 0 0 0 0x100000 0 5) false true (List.range 16) (quantum none []) = .ok (no, t) :=
  ⟨ok_two (by decide +kernel), ok_pair (by decide +kernel)⟩

/-- A stream that waits alone at `QSYNC`, at `QINIT` and at `QNORM`. -/
def waiting (i : Instr) (xs : List Word) (st : Option QState) : State := nx (exec i (quantum st xs))

theorem meets_QubitRuns : (waiting .qsync [] (some qstate)).astro.wait.map (fun w => (w.bad, w.cut)) = some (false, false) ∧
    (waiting .qsync [] (some qstate)).astro.core = some 0 ∧ (waiting .qsync [] (some qstate)).astro.stop = none ∧
    (waiting .qsync [] (some qstate)).astro.part.map QState.parts = some 1 ∧ (waiting .qsync [] (some qstate)).core.die = 0 ∧
    (waiting (.qinit 1 2 3 4 0 0 0 1) [0, 0x100000, 0, 5] none).astro.part.map QState.parts = some 1 := by decide +kernel

theorem test_qubit_runs : (nx (execAstroCollectiveRun 0 [] false (waiting (.qinit 1 2 3 4 0 0 0 1) [0, 0x100000, 0, 5] none))).astro.st.map QState.n = some 4 ∧
    (nx (execAstroCollectiveRun 0 [] false (waiting (.qnorm 4 0) [] (some qstate)))).astro.s.getX 4 = 0x3FF0000000000000 := by decide +kernel

theorem meets_QubitRuns_resume : (quantum none []).plainAt (gaOf lab.pkg ((quantum none []).aframeAt 0)) 9216 (osAgent 0x600).key = true := by
  decide +kernel

/-! ### Witnesses: jobs, the host, resets, the ports, commits -/

/-- A second job that waits, of priority `p`. -/
def waitingJob (p : Nat) : Job := Job.new 1 false rec0 0 0 0 0 0 p 0

def withJobs (l : List Job) : State := { lab with jobs := l, nextJob := 2 }

/-- Every core but the one in use fenced off. -/
def crowded (p : Nat) : State := { withJobs [{ job0 with prio := 2 }, waitingJob p] with fences := BitVec.allOnes 256 - 1 }

def spilledJob : Job := { waitingJob 2 with st := .spilled, cores := [3], spill := [{ Core.reset 3 with job := some 1 }] }

/-- Nothing to admit; a job whose cores are free; one that must wait for room; one spilled. -/
theorem meets_HubTurns : lab.chosenJob.isNone = true ∧ (withJobs [job0, waitingJob 2]).chosenJob.map Job.id = some 1 ∧
    (withJobs [job0, waitingJob 2]).neverFits (waitingJob 2) = false ∧ (withJobs [job0, waitingJob 2]).slotOk (waitingJob 2) = true ∧
    ((withJobs [job0, waitingJob 2]).coresFor (waitingJob 2)).isSome = true ∧ ((crowded 7).coresFor (waitingJob 7)).isNone = true ∧
    ((withJobs [job0, spilledJob]).coresFor spilledJob).isSome = true ∧ ((withJobs [job0, spilledJob]).jobAt 1).map Job.st = some .spilled ∧
    ((withJobs [job0]).jobAt 9).isNone = true := by decide +kernel

/-- One spilled core with nothing in its die; the frame slots of a job in ordinary memory. -/
theorem meets_HubTurns_resume : spilledJob.frames = [] ∧ spilledJob.spill.length = 1 ∧ spilledJob.aspill = [] ∧
    (withJobs [job0, spilledJob]).chosen = none ∧ lab.alone (waitingJob 2) = true := by decide +kernel

theorem test_resume : ((nx (exec (.spilledJobResume 1) (withJobs [job0, spilledJob]))).coreAt 3).job = some 1 ∧
    (nx (exec (.spilledJobResume 1) (withJobs [job0, spilledJob]))).jobs.map Job.st = [.running, .running] := by decide +kernel

theorem test_admission : (nx (execJobAdmission (withJobs [job0, waitingJob 2]))).jobs.map Job.st = [.running, .running] := by decide +kernel

def preempted (n : Nat) : State := { withJobs [{ job0 with preq := some 5 }] with chron := BitVec.ofNat 64 n }

/-- Two to the 16 cycles after a request, and one cycle less; the frames written. -/
theorem meets_JobRequestsAndEnds : ((preempted 65541).jobAt 0).map (fun j => (j.preq, j.st, j.fw)) = some (some 5, .running, false) ∧
    5 + 2 ^ 16 ≤ (preempted 65541).chron.toNat ∧ ((preempted 65540).jobAt 0).map (preempted 65540).timeoutDue = some false ∧
    (preempted 65541).core.stop = none ∧ (preempted 65541).core.live ≠ [] ∧ (preempted 65541).core.bar.till = none ∧ (preempted 65541).astrosOf 0 = [] ∧
    ((preempted 65541).mapCore fun c => { c with stop := some { stop0 with framed := true } }).allFramed 0 = true ∧
    ((preempted 65541).slotsOf 0).all (fun x => (preempted 65541).plainAt (gaOf (preempted 65541).pkg x.1) x.2 0) = true ∧
    (lab.jobAt 0).map (fun j => (j.st, j.fw, j.preq)) = some (.running, false, none) := by decide +kernel

theorem meets_JobRequestsAndEnds_cores : (preempted 65541).coresOf 0 = [(preempted 65541).core] := rfl

/-- A job with its completion area in the heap. -/
def endingJob : Job := { job0 with lrec := (rec0 &&& ~~~(0xFFFFFFFFFFFFFFFF#4608 <<< (8 * 0x38))) ||| (0x1FFFC0#4608 <<< (8 * 0x38)) }

theorem meets_JobRequestsAndEnds_end : lrCompl endingJob.lrec = 0x1FFFC0 ∧ lrHeapBase endingJob.lrec ≤ 0x1FFFC0 ∧ 0x1FFFC0 + 64 ≤ lrHeapLim endingJob.lrec ∧
    (withJobs [endingJob]).plainAt 0x1FFFC0 64 0 = true ∧ lrTxn endingJob.lrec = false ∧ endingJob.parent = none ∧
    (withJobs [endingJob]).mem.wf = true ∧ (withJobs [endingJob]).accs = [] := by decide +kernel

theorem test_job_ends : ((withJobs [endingJob]).endJob 0 2 0x38 5 11 0x123456).jobs = [] ∧
    ((withJobs [endingJob]).endJob 0 2 0x38 5 11 0x123456).core.job = none := by decide +kernel

/-- An address space of the host with a page of 2 MiB at 0x60000000, which holds a launch record. -/
def hosted : State := { lab with
  mem := (((Mem.write [] 0x40000 (natLe 8 0x41001)).write 0x41008 (natLe 8 0x42001)).write 0x42800 (natLe 8 0x4000000F)).write 0x40000000
    (natLe 576 rec0.toNat)
  spaces := [{ asid := 3, root := 0x40000, host := true, key := 0, clsmap := 0 }] }

theorem meets_HostInterface : hosted.hostUp = true ∧ ({ hosted with powered := false } : State).hostUp = false ∧
    (hosted.hostRecord { asid := 3, root := 0x40000, host := true, key := 0, clsmap := 0 } 0x60000000).2.isSome = true ∧
    ((hosted.spaces.find? fun x => decide (x.asid = 3) && x.host)).isSome = true ∧ hosted.recordFail rec0 false = 0 ∧
    hosted.queueDepth (lrPrio rec0) < 4096 ∧ hosted.plainAt 0x100000 64 0 = true ∧ hosted.host.mbgo = false ∧
    dramSize ≤ (2 ^ 40 - 1) / 64 * 64 := by decide +kernel

/-- 14 R440, R441: a submission without its address space is dropped; a write stores the bytes of its mask. -/
theorem test_host : (nx (execHostSubmit 0x1800000 4 hosted)).host.hrefused = 1 ∧
    (nx (execHostWrite 0x180000 5 0x332211 hosted)).mem.read 0x180000 4 = [0x11, 0, 0x33, 0] := by decide +kernel

theorem meets_ManagementPort : lab.portOn = true ∧ lab.mgmt.answers = [] ∧ lab.romWaits = false ∧ ({ lab with rstep := 0 } : State).romWaits = true ∧
    frameMax + 0 < imageMax := by decide +kernel

/-- 14 R448: a chunk of the greatest length, and one longer; the same number again. -/
theorem test_management : (nx (execImageChunk 7 0 (List.replicate frameMax 5) lab)).mgmt.chunks.length = 1 ∧
    (nx (execImageChunk 7 0 (List.replicate (frameMax + 1) 5) lab)).mgmt.chunks.length = 0 ∧
    (nx (execStatusRequest 7 (nx (execStatusRequest 7 lab)))).mgmt.answers =
      (nx (execStatusRequest 7 lab)).mgmt.answers ++ (nx (execStatusRequest 7 lab)).mgmt.answers := by decide +kernel

/-- An offset without a register, the last register of its area, one past it, and a limit that lifts its stall. -/
theorem test_registers : (match execAreaLimitWrite 0x78 5 lab with | .fault .noSuchRegister => true | _ => false) = true ∧
    (match execAreaLimitWrite 0x5C 5 lab with | .fault .noSuchRegister => true | _ => false) = true ∧
    (nx (execAreaLimitWrite 0x58 0x5000 lab)).os.rsplim.toList = [0, 0, 0, 5] ∧
    (match execRegisterWrite 0x700100 5 lab with | .fault .noSuchRegister => true | _ => false) = true := by decide +kernel

theorem meets_RegisterWrites : (0x58#12).toNat % 8 = 0 ∧ (0x58#12).toNat < 0x60 ∧ (0x5C#12).toNat % 8 ≠ 0 ∧ 0x78 ≤ (0x78#12).toNat ∧
    lab.hostUp = true ∧ ({ lab with rstep := 6 } : State).hostUp = false ∧
    lab.regions[15].vv = false ∧ (0xFFFFFFFFFFFFFFFF#64).getLsbD 8 = true := by decide +kernel

/-- A port that is up, one that is dead, one that has failed seven times and eight. -/
def ported (up dead : Bool) (tries : Nat) : State := { lab with ports := lab.ports.map fun p => { p with up := up, dead := dead, tries := tries } }

theorem meets_PodPorts : (ported true false 0).ports[0].up = true ∧ (ported false true 0).ports[0].dead = true ∧
    (ported true false 7).ports[0].tries = 7 ∧ gaPkg 0x100000 = lab.pkg.toNat ∧ gaPa 0x100000 / 64 * 64 % 2 ^ 40 < dramSize := by decide +kernel

/-- A job over two packages in group 0, and none. -/
theorem meets_PodPorts_reductions : ((ported true false 0).jobs.find? fun j => 4 < lrSpan j.lrec) = none ∧
    (({ ported true false 0 with jobs := [{ job0 with lrec := recTx ^^^ (2#4608 <<< 19) }] } : State).jobs.find? fun j =>
      decide (4 < lrSpan j.lrec) && decide (lrGroup j.lrec = 0) && decide (j.st ≠ .waiting)).isSome = true := by decide +kernel

theorem test_ports : (nx (execFlitReceive 0 (.align 3) false 1 (ported true false 7))).ports[0].dead = false ∧
    (nx (execFlitReceive 0 (.align 3) false 1 (ported true false 8))).ports[0].dead = true ∧
    (nx (execPortTrained 0 3 (ported false true 0))).ports[0].up = false := by decide +kernel

theorem meets_ResetsPowerAndErrors : lab.hostUp = true ∧ lab.regionAt 0 = none ∧ (lab.coreAt 3).job = none ∧ lab.core.job ≠ none ∧
    fwImageOk [] = false ∧ lab.core.code.length = 1 ∧ lab.jobCores = [0] ∧ State.reset.jobCores = [] ∧
    State.reset.core.job = none ∧ State.reset.core.stop = none ∧ (lab.endAll 3).orphans = [] ∧ dramSize ≤ (2 ^ 40 - 1) / 128 * 128 := by decide +kernel

theorem test_error_places : (nx (exec (.sramError (.codeLine 0 0)) lab)).core.code = [] ∧ (nx (exec (.sramError (.codeLine 0 1)) lab)).core.code.length = 1 ∧
    (nx (exec (.sramError (.directory 0)) lab)).core.stop.map StopRec.finfo = some 6 ∧
    (nx (exec (.sramError (.directory 1)) lab)).core.stop = none ∧ (nx (exec (.sramError .hub) lab)).core.stop.map StopRec.finfo = some 7 ∧
    ((nx (exec (.sramError (.registers 0)) State.reset)).mem.read (gaOf State.reset.pkg (State.reset.frameAt 0)) 1) =
      [BitVec.ofNat 8 Cause.machineCheck.code] := by decide +kernel

theorem test_errors : ((nx (execSramError (.dirtyLine 0x100000) lab)).sectorAt 0x100040).poison = true ∧
    (nx (execSramError (.scratchpad 0) lab)).core.stop.map (fun r => (r.cause, r.finfo)) = some (.machineCheck, 3) ∧
    (nx (execPowerLoss true { lab with flash := [1, 2] })).flash = [] ∧ (nx (execPowerLoss false { lab with flash := [1, 2] })).flash = [1, 2] := by
  decide +kernel

theorem meets_FetchesAndStarts : (coded .ctl 0x02514480 4).codeWord 0x10000 = some 0x02514480 ∧ (coded .ctl 0x02514480 4).ctl.pc = 0x10000 ∧
    (lab.coreAt 0).job ≠ none ∧ (hosted.coreAt 3).job = none ∧ (lab.mapCtl fun c => { c with pc := 0x11000 }).ctl.pc = 0x11000 ∧
    hosted.recordFail rec0 true = 0 ∧ hosted.plainAt 0x40000000 576 0 = true := by decide +kernel

def voting (f : Job → Job) (now : Nat) : State := { withJobs [f { job0 with lrec := recTx, gen := 3 }] with chron := BitVec.ofNat 64 now }

/-- 64 cycles after the last vote, and 63; the root's wait at its end. -/
theorem meets_VotesAndDecisions : ((voting (fun j => { j with voted := some 4936 }) 5000).jobAt 0).map (fun j => (j.voted, j.sent, j.decided.isEmpty)) =
      some (some 4936, false, true) ∧ 4936 + 64 ≤ (voting id 5000).chron.toNat ∧ (voting id 5000).rankOf recTx = 0 ∧
    ((voting (fun j => { j with first := some 100, votes := [5] }) (100 + 3 * 2 ^ 10)).jobAt 0).map (fun j => (j.first, j.votes.length)) = some (some 100, 1) ∧
    100 + 3 * 2 ^ 10 ≤ (voting id (100 + 3 * 2 ^ 10)).chron.toNat ∧ lrSpan recTx = 4 := by decide +kernel

theorem test_votes : ((nx (execPackageVote 0 (voting (fun j => { j with voted := some 4936 }) 5000))).jobAt 0).map (fun j => j.decided.map fun d => pkCommit d.1) = some [true] ∧
    ((nx (execPackageVote 0 (voting (fun j => { j with voted := some 4936, corr := true }) 5000))).jobAt 0).map (fun j => j.decided.map fun d => pkCommit d.1) = some [false] ∧
    ((nx (execPackageVote 0 (voting (fun j => { j with voted := some 4937 }) 5000))).jobAt 0).map (fun j => j.decided.isEmpty) = some true := by
  decide +kernel

/-- A job over two packages: a packet of its generation, of the one before, and of one 2^15 on. -/
def grouped : State := { withJobs [{ job0 with lrec := recTx ^^^ (2#4608 <<< 19), gen := 3 }] with groups := [{ num := 0, pkgs := [0, 1] }] }

/-- A waiting part of a job over two packages. -/
theorem meets_JobRequestsAndEnds_refused : grouped.alone { job0 with lrec := recTx ^^^ (2#4608 <<< 19) } = false ∧ (waitingJob 2).st = .waiting := by
  decide +kernel

theorem meets_VotesAndDecisions_packets : (grouped.groupJob 0).map Job.id = some 0 ∧ (lab.groupJob 0).isNone = true ∧
    pkGen 3 = 3 ∧ (3 + 2 ^ 16 - pkGen 2) % 2 ^ 16 = 1 ∧ (3 + 2 ^ 16 - pkGen (3 + 2 ^ 15)) % 2 ^ 16 = 2 ^ 15 ∧
    (grouped.groupJob 0).map (fun j => decide (j.votes.length + 1 < nodeVotes (grouped.rankOf j.lrec) (grouped.packagesOf j))) = some true := by
  decide +kernel

/-- A decision taken, with all tasks past their vote, 16 cycles ago. -/
def deciding (p : BitVec 128) (now : Nat) : State := ({ withJobs [{ job0 with lrec := recTx, gen := 1, decided := [(p, 100)] }] with
  chron := BitVec.ofNat 64 now } : State).mapTask fun t => { t with tx := { t.tx with st := 2, vote := some (0, 0) } }

theorem meets_CommitsAndRegions : ((deciding (packet true) 116).jobAt 0).map (deciding (packet true) 116).applyReady = some true ∧
    ((deciding (packet true) 115).jobAt 0).map (deciding (packet true) 115).applyReady = some false := by decide +kernel

/-- A region declared over one page, empty, too high, and beside another in service. -/
def regioned (base limit : BitVec 28) (rdy : Bool) : State := { lab with regions := Vector.ofFn fun i =>
  if i.val = 1 then { lab.regions[1] with vv := rdy, rdy := rdy, base := base, limit := limit }
  else if i.val = 2 then { lab.regions[2] with limit := 0x101 } else lab.regions[i] }

theorem meets_CommitsAndRegions_regions : (regioned 0x100 0x101 true).regions[1].rdy = true ∧ (regioned 0 0 false).regions[2].vv = false ∧
    (regioned 0 0 false).regions[2].limit = 0x101 ∧ 0x101 * 4096 ≤ 0x5FE8000000 := by decide +kernel

theorem test_regions : (nx (execRegionDeclare 2 0x100001 (regioned 0 0 false))).regions[2].rdy = true ∧
    (nx (execRegionDeclare 2 0x101001 (regioned 0 0 false))).regions[2].rdy = false ∧
    (nx (execRegionDeclare 2 0x100001 (regioned 0x100 0x101 true))).regions[2].rdy = false ∧
    (nx (execRegionDeclare 2 0x100001 (regioned 0x101 0x102 true))).regions[2].rdy = true := by decide +kernel

/-! ### Further witnesses: words that wait, sectors, barriers, launch records, vector rows -/

/-- A word that waits at issue, which no fetch gives: its code line has been dropped. -/
def readied : State := (coded .ctl 0x02514480 4).mapCore fun c => { c with ready := [(.ctl, 0x10000, .add 10 9 10)], code := [] }

theorem meets_StepRuns_ready : readied.aboutToIssue .ctl = true ∧ ((readied.beginTurn .ctl).readyWord .ctl) = some (.add 10 9 10) ∧
    ((coded .ctl 0x02514480 4).beginTurn .ctl).readyWord .ctl = none ∧
    ((coded .ctl 0x02514480 4).beginTurn .ctl).core.task.owed = false := by decide +kernel

theorem test_ready_word : ((nx (step readied)).ctl.x.toList.getD 10 0, (nx (step readied)).core.ready) = (27 + 30, []) := by decide +kernel

/-- Two and three symbols in error in a sector that holds its bytes plainly; a stack with no log ring and with one. -/
def broken (l : List (Nat × BitVec 16)) (n : BitVec 5) : State := { data lab with
  sectors := [{ pa := 0x100000, rtag := 3, raw := true, poison := false, err := l, ckey := none }]
  carafe := { (data lab).carafe with elogbase := 0x200, elogsz := n } }

theorem meets_OrdinaryMemoryAndCarafe_log : (broken [(2, 0x10), (31, 0x8001)] 12).logsPlainly 0x100000 :=
  .inr ⟨by decide +kernel, by decide +kernel, nofun⟩

theorem meets_OrdinaryMemoryAndCarafe_uncorrectable :
    (broken [(2, 0x10), (31, 0x8001)] 0).carafe.elogsz = 0 ∧
    ((broken [(2, 0x10), (31, 0x8001)] 12).sectorAt 0x100000).ckey = none ∧
    ((broken [(2, 0x10), (31, 0x8001)] 12).sectorAt 0x100000).raw = true ∧
    3 ≤ ((broken [(2, 1), (3, 1), (4, 1)] 12).sectorAt 0x100000).err.length ∧ (broken [] 12).mem.wf = true := by
  decide +kernel

theorem test_uncorrectable : let t := nx (exec (.carafeRead 0x100000 7 1 0) (broken [(2, 0x10), (31, 0x8001)] 12))
    (t.sectorAt 0x100000).poison = true ∧ t.mem.get 0x100004 = (broken [] 0).mem.get 0x100004 ^^^ 0x10 ∧
    t.mem.get 0x10003F = (broken [] 0).mem.get 0x10003F ^^^ 0x80 := by decide +kernel

/-- The first task arrives while the second is fresh, and while it has been saved at its own arrival; a version region holds the
slots, so that a save stores nothing and a restore reads free values. -/
def bothTasks (st : TaskSt) : State :=
  let r : State := regioned 0x140 0x144 true
  { r with
    jobs := [{ job0 with lrec := (rec0 ^^^ (0x30000#4608 <<< (8 * 0x40)) ||| (0x140000#4608 <<< (8 * 0x40))) + (1#4608 <<< 64) }]
    core := { twoTasks.core with others := twoTasks.core.others.map fun t => { t with st := st } } }

def restores (s : State) (y : Sync) : Bool := match (s.syncs y).nextTask, (s.syncs y).saveTask with
  | some n, .ok u => (u.restoreTask n).isOk
  | _, _ => false

theorem meets_Barriers_switch : (((bothTasks .fresh).syncs ⟨4, 1, 3⟩).nextTask.map Task.st) = some .fresh ∧
    ((bothTasks .fresh).syncs ⟨4, 1, 3⟩).saveTask.isOk = true ∧ restores (bothTasks .saved) ⟨4, 1, 3⟩ = true := by decide +kernel

/-- Two cores of a quad that have arrived, in cycles 4 and 10, at a barrier of scope `sc`. -/
def gathered (sc now : Nat) (j : Job) (gs : List Group) : State :=
  let c := { (arrived 0).core with task := { (arrived 0).core.task with sync := some { sc := sc, x := 5, rd := 7 } } }
  { lab with jobs := [j], groups := gs, chron := BitVec.ofNat 64 now, core := c, others := [{ c with num := 1, bar := { c.bar with arr := some 4 } }] }

theorem meets_Barriers_gathered : ((gathered 2 16 job0 []).coresOf 0).map Core.num = [0, 1] ∧
    ((gathered 2 16 job0 []).coresOf 0).all (fun c => decide (unitOf 2 c.num = 0) && !c.live.isEmpty &&
      decide (c.arrival = some { idx := 0, sc := 2, x := 5 })) = true ∧ lastArrival ((gathered 2 16 job0 []).coresOf 0) + latency 2 = 16 ∧
    (gathered 2 16 job0 []).objs = [] ∧ ((gathered 2 16 job0 []).jobAt 0).isSome = true ∧
    (gathered 5 16 job0 []).alone job0 = true ∧ lastArrival ((gathered 5 58 job0 []).coresOf 0) + 48 = 58 ∧
    (gathered 5 16 { job0 with lrec := recTx ^^^ (2#4608 <<< 19) } [{ num := 0, pkgs := [0, 1] }]).alone
      { job0 with lrec := recTx ^^^ (2#4608 <<< 19) } = false := by decide +kernel

theorem test_quad_release : ((nx (exec (.barrierRelease 2 0 ⟨true, 0, 0⟩) (gathered 2 16 job0 []))).coreAt 1).bar.till = some 21 ∧
    ((nx (exec (.barrierRelease 2 0 ⟨true, 0, 0⟩) (gathered 2 15 job0 []))).coreAt 1).bar.till = none := by decide +kernel

/-- The row of version 2, and the row of a reserved bit behind it; a record with both. -/
theorem meets_LaunchOfAChild_rows : (launching rec0 0).failsRow (rec0 + 1) 1 ∧ ¬(launching rec0 0).failsRow rec0 1 ∧
    ¬(launching rec0 0).failsRow (rec0 &&& ~~~(7#4608 <<< 19)) 1 ∧ (launching rec0 0).failsRow (rec0 &&& ~~~(7#4608 <<< 19)) 3 :=
  ⟨show bits (rec0 + 1) 15 0 ≠ 1 by decide +kernel, show ¬bits rec0 15 0 ≠ 1 by decide +kernel,
    show ¬bits (rec0 &&& ~~~(7#4608 <<< 19)) 15 0 ≠ 1 by decide +kernel,
    .inl (show bits (rec0 &&& ~~~(7#4608 <<< 19)) 21 19 = 0 by decide +kernel)⟩

theorem test_record_rows : [rec0 + 1, rec0 ||| (1#4608 <<< (8 * 0x48 + 16)), rec0 &&& ~~~(7#4608 <<< 19),
      rec0 ^^^ (1#4608 <<< 64)].map (fun r => (launching rec0 0).recordFail r false) = [1, 2, 3, 5] := by decide +kernel

/-- Rows in the heap and in a causal window. -/
def vecHeap (ea : Word) : State := { vecPad with mem := vecPad.mem }.mapVec fun v => { v with s := v.s.setX 8 ea }

theorem meets_VectorMemory_heap (k : AK) (h : k = .vld ∨ k = .vst) : ∀ r, r < 2 →
    (vecHeap 0x100000).served .vec k 6 (0x100004 + BitVec.ofNat 64 r * 0x10) 6
      (.mem [{ va := 0x100004 + 16 * r, pa := 0x100004 + 16 * r, len := 6 }] []) := by
  intro r _
  obtain rfl | rfl : r = 0 ∨ r = 1 := by omega
  all_goals obtain rfl | rfl := h; all_goals exact served_heap (by decide +kernel)

/-- A row in a causal window; one row in the heap with no record kept so far. -/
def vecWindow : State := (windowed causal).mapTask fun t => { t with vshape := BitVec.ofNat 22 (1 + 3 * 256 + 1 * 2 ^ 20) }

theorem meets_VectorMemory_window : servedB vecWindow .vec .vld 6 0x70000002 6 (.win 3 0x70000002 0x47FFC83D295A53A5) = true ∧
    vecWindow.core.task.windowAt 0x70000002 = some 3 ∧ shRows vecWindow.core.task.vshape = 1 ∧ vecWindow.elemBits = 16 ∧
    vecWindow.recs = [] ∧ vecWindow.maskRegs = [] := by decide +kernel

theorem meets_VectorMemory_heap_plain : (vecHeap 0x100000).plainAt 0x100004 6 (vecHeap 0x100000).key = true ∧
    (vecHeap 0x100000).plainAt 0x100014 6 (vecHeap 0x100000).key = true ∧ (vecHeap 0x100000).mem.wf = true ∧
    (vecHeap 0x100000).core.pad.wf = true := by decide +kernel

theorem test_vst_heap : (nx (exec (.vst 1 8 9 1 0 4 0) (vecHeap 0x100000))).mem.read 0x100014 6 = [4, 0, 5, 0, 6, 0] ∧
    (nx (exec (.vst 1 8 9 1 0 2 0) ((vecHeap 0x70000000).mapTask fun t => { t with
      wins := (windowed causal).core.task.wins }))).core.stop.map StopRec.cause = some .ephemerisStore := by decide +kernel

/-- A word that takes neither prefix, one that takes the mask alone, one that takes both. -/
theorem meets_VectorPrefixesAndPipeline_taken : vecTakes (.vscalNop 0) = some (.none, 0) ∧ vecTakes (.vld 1 2 3 0 0 0 0) = some (.mask, 0) ∧
    vecTakes (.vadd 1 2 3 0 1) = some (.all, 1) ∧
    PfxRule.mask.takes { base := 0, rnd := some (true, false, false, 0), msk := none } = false ∧
    (prefixed (some (true, false, false, 0)) none lab).core.vec.pfx.isSome = true := by decide +kernel

/-! ### Further witnesses: translation, fences, objects, near-memory commands -/

/-- The die's directory names core 0 for the line of the page's entry; another core's operation on the address space is under way. -/
def named : State := { paged 0x4000000F 0x600C0000 5 0x1000 with dies := (paged 0x4000000F 0x600C0000 5 0x1000).dies.map fun d => { d with
  dir := [{ asid := 5, pa := 0x42800, cores := 1, spans := [] }] } }

def rival : State := { named with others := [{ Core.reset 1 with xlt := some (XltWait.new 5 0x60000000 4096 1) }] }

theorem meets_TranslationWords_directory : named.dirNames named.core 5 0x42800 ∧ (named.walked 0x40000 0x600C0000).sectors = named.sectors ∧
    (∃ k ∈ rival.others, k.stop = none ∧ ∃ w, k.xlt = some w ∧ w.asid = 5 ∧ w.stage ≠ 0) := by
  unfold State.dirNames; exact ⟨by decide +kernel, by decide +kernel, _, .head _, rfl, _, rfl, rfl, by decide⟩

theorem test_one_at_a_time : ((nx (exec (.tlbinv 1 2 3) rival)).core.xlt.map XltWait.stage, (nx (exec (.tlbinv 1 2 3) rival)).ctl.pc) =
    (some 0, 0x10000) ∧ (nx (exec (.tlbinv 1 2 3) named)).core.tlb = [] := by decide +kernel

theorem meets_PageOperationsAndWalks_walked : (paged 0x4000000F 0x600C0000 0x1D 5).walked 0x40000 0x600C0000 = paged 0x4000000F 0x600C0000 0x1D 5 := by
  decide +kernel

/-- The earliest in program order of the lowest engine; a sum of counts that saturates. -/
theorem test_fence_word : fenceWord [failure .vec 1 .refused 4, failure .ctl 3 .lost 4, failure .ctl 2 .nm 4] =
      BitVec.ofNat 64 (7 + 6 * 64 + 0x100000 * 65536) ∧
    (fenceWord [{ failure .vec 1 .lost 3 with count := 1020 }, failure .mtx 7 .lost 3, failure .mtx 8 .lost 3]).extractLsb' 6 10 = 1023 := by
  decide +kernel

/-- A job whose class map lies in its heap. -/
def mapped (s : State) : State := { s with jobs := s.jobs.map fun j => { j with clsmap := 0x180000 } }

theorem meets_PublicationAndWalks_headed : (mapped (reaching 0 0)).mapSegs { job0 with clsmap := 0x180000 } (obj 0x100100 0) =
      [{ va := 0x180010, pa := 0x180010, len := 16 }] ∧ (mapped (reaching 0 0)).plainAt 0x180010 16 0 = true ∧
    (mapped (reaching 0 0)).plainAt 0x100100 16 0 = true ∧ (mapped (reaching 0 0)).jobAt 0 = some { job0 with clsmap := 0x180000 } ∧
    (reaching 0 0).cleanTables ∧ (referring 0 0 0).cleanTables := by unfold State.cleanTables; decide +kernel

/-- Commands of every kind of one piece each, at scope `.die`. -/
def pieceCtl (code n : Nat) : Word := BitVec.ofNat 64 (code + 3 * 2 ^ 21 + n * 2 ^ 32)

def piece (ga len : Nat) : Seg := { va := ga, pa := ga, len := len }

def pieceCmd (code n : Nat) : NmCmd :=
  let c := pieceCtl code n
  { ctl := c, dst := [piece 0x100000 (nmDstLen c)], src := if nmHasSrc c then [piece 0x110000 (nmSrcLen c)] else []
    aux := if nmHasRec c then [piece 0x120000 (nmAuxLen c)] else [], dref := [], aref := [], prm := 1, opt := 0, seq := 0 }

theorem meets_NearMemory_spans : ∀ code ∈ List.range' 1 13, (pieceCmd code 64).spans (piece 0x100000 (nmDstLen (pieceCtl code 64)))
    (piece 0x110000 (nmSrcLen (pieceCtl code 64))) (piece 0x120000 (nmAuxLen (pieceCtl code 64))) := by
  unfold NmCmd.spans; decide +kernel

theorem meets_NearMemory_plain : lab.plainAt 0x100000 256 lab.key = true ∧ lab.plainAt 0x110000 256 lab.key = true ∧
    lab.plainAt 0x120000 512 lab.key = true ∧ sectored.readableAt 0x100000 64 := by unfold State.readableAt; decide +kernel

/-- A fold of a region's block; a recode and a scrub. -/
theorem meets_NearMemory_fold : (regioned 0x100 0x101 true).regionAt 0x100000 = some 1 ∧ nmDstLen (pieceCtl 0x0C 4096) = 4096 ∧
    gaPkg 0x100000 = lab.pkg.toNat ∧ lab.linkDead 0x100000 = false := by decide +kernel

/-- Checks that pass and leave the state alone. -/
def passes (f : Op Unit) (s : State) : Bool := match f s with
  | .ok (_, t) => decide (t = s)
  | .error _ => false

theorem passes_ok {f : Op Unit} {s : State} (h : passes f s = true) : f s = .ok ((), s) := by
  unfold passes at h
  split at h
  · rename_i e; simp only [decide_eq_true_eq] at h; exact h ▸ e
  · cases h

theorem meets_NearMemory_refused : (flag (filling 0) 0 0 .ctl true .ctl).nmPasses (pieceCtl 6 16) 0x100000 0 0x3F800000 ∧
    ((flag (filling 0) 0 0 .ctl true .ctl).core.task.flagAt (nmFlag (pieceCtl 6 16))).hold = true ∧
    (windowed causal).nmPasses (pieceCtl 0x0B 64) 0x70000000 0 0 ∧ nmReadOnly (pieceCtl 0x0B 64) = true ∧
    (windowed causal).core.task.windowAt 0x70000000 = some 3 :=
  ⟨passes_ok (by decide +kernel), by decide +kernel, passes_ok (by decide +kernel), by decide +kernel, by decide +kernel⟩

theorem test_pieces : let run (code : Nat) := nx (exec .nmComplete (sectored.mapCore fun c => { c with nms := [pieceCmd code 64] }))
    ((run 0x0B).sectorAt 0x100000).err = [] ∧ ((run 0x0B).sectorAt 0x100000).rtag = 3 ∧
    (run 7).mem.get 0x100000 = sectored.mem.get 0x110000 ∧ ((run 0x0A).sectorAt 0x100000).poison = false := by decide +kernel

/-! ### Further witnesses: chains, entries, collectives -/

/-- A sector of the record moves, and then there is none left. -/
theorem meets_Chains_sectors : ∃ r t v, readXferRecord 0x101000 (chained 0) = .ok (r, t) ∧ State.sectorsRun 2 r 1 t v ∧ recKind r = 0 := by
  obtain ⟨r, t, h, k⟩ := ok_bind (g := fun r => check (fun t => decide ((t.chan 2).prog = 0 ∧ recKind r = 0 ∧ 0 < recLen r)) >>= fun _ => runSector 2 r 0)
    (f := readXferRecord 0x101000) (s := chained 0) (by decide +kernel)
  obtain ⟨_, u, e, k⟩ := ok_bind k
  have c : check _ t = .ok ((), u) := e
  simp only [check] at c
  split at c
  · rename_i p
    simp only [decide_eq_true_eq] at p
    cases c
    obtain ⟨_, v, e⟩ := ok_pair k
    exact ⟨r, t, v, h, ⟨by rw [p.1]; exact p.2.2, v, by rw [p.1]; exact e, rfl⟩, p.2.1⟩
  · cases c

/-- Chains of a record of entries, whose second sector meets an object of another task, and of a stamped record. -/
def kindRec (kind flags src dst len : Nat) : List Byte :=
  natLe 8 (1 + kind * 16 + 4 * 2 ^ 20 + flags) ++ natLe 8 0 ++ natLe 8 src ++ natLe 8 dst ++ natLe 8 len ++ natLe 8 (1 + 2 ^ 32) ++ natLe 16 0

def chainedKind (r : List Byte) : State :=
  nx (exec (.chain 2 7) { chaining r 0x101000 with objs := [{ obj 0x100100 0 with otask := 1 }] })

def chainedEntries : State := forked ((nx (execChainRecordRun 2 (chainedKind (kindRec 1 (2 * 2 ^ 24) 0x1000C0 63 128)))).mapTask fun t =>
  { t with counts := t.counts.bump 4 }) .running

def chainedStamped : State := chainedKind (kindRec 2 (2 ^ 23 + 77 * 2 ^ 32) 0xFE00000000000200 0x400 128)

theorem meets_Chains_kinds : chainedStamped.chanReady 2 = true ∧ (chainedStamped.chan 2).walked = true ∧
    (chainedKind (kindRec 1 (2 * 2 ^ 24) 0x1000C0 63 128)).chanReady 2 = true := by decide +kernel

theorem test_chained_stamped : let t := nx (exec (.chainRecordRun 2) chainedStamped)
    (t.chan 2).tail = true ∧ t.chanReady 2 = false ∧ t.core.cpy.stamped.length = 1 := by decide +kernel

theorem meets_CopyEvents_chain : (chainedEntries.core.cpy.queue.map fun x => (x.bound, x.chan, x.done, x.part, x.len)) = [(some (2, 64), some 2, 0, [], 128)] ∧
    chainedEntries.core.cpy.queue.all chainedEntries.entryReady = true := by decide +kernel

theorem meets_CopyEvents_chain_fault : let t := nx (exec (.streamEntryArrival 0) chainedEntries)
    (t.core.cpy.queue.map fun x => (x.done, x.part)) = [(64, [])] ∧ t.core.cpy.queue.all t.entryReady = true ∧
    t.core.cpy.queue.all (fun x => match entrySector 2 x 128 1 64 t with | .error (.trap _) => true | _ => false) = true := by decide +kernel

theorem test_chained_entries : let t := nx (exec (.streamEntryArrival 0) (nx (exec (.streamEntryArrival 0) chainedEntries)))
    (t.chan 2).halted = true ∧ (t.chan 2).prog = 1 ∧ t.core.stop.map StopRec.cause = some .scopeVisibility := by decide +kernel

theorem meets_CopyCollectives_served : collected.gathering.map (fun c => decide (c.who = [(collected.core.num, 0)])) = [true] ∧
    (collected.partOf (collected.core.num, 0)).map (fun x => (x.src, x.dst, x.rel, x.del)) = some ([.pad 0x120 32], [.pad 0x200 32], none, none) ∧
    collected.core.cpy.inFlight < 16 ∧ (collecting 1 0).colls.find? ((collecting 1 0).myColl 4) = none := by decide +kernel

/-! ### Further witnesses: accumulators, jobs, decisions, errors -/

/-- The same tiles in an engine that holds none of their segments, or not the accumulator. -/
theorem meets_AccumulatorCommands_missing : ¬(held tiled .ctl).mtxHolds [tileOf 1] 5 ∧
    ¬(tiled.mapCore fun c => { c with hold := c.hold.set 229 .ctl }).mtxHolds [tileOf 1] 5 ∧ tiled.mtxHolds [tileOf 1] 5 := by
  unfold State.mtxHolds; decide +kernel

theorem test_missing : (nx (exec (.ald 5 1 0 0) (held tiled .ctl))).core.stop.map StopRec.cause = some .segmentHolder ∧
    (nx (exec (.ast 5 1 0 0 0 0 0) (tiled.mapCore fun c => { c with hold := c.hold.set 229 .ctl }))).core.stop.map StopRec.cause =
      some .segmentHolder ∧ (nx (exec (.ast 5 1 0 0 0 0 0) tiled)).core.stop = none := by decide +kernel

/-- A job that ends with no decision at hand, and two that keep it on as closing. -/
def closing (ds : List (BitVec 128 × Nat)) : State := { withJobs [{ job0 with lrec := recTx, gen := 1, st := .closing, decided := ds }] with
  chron := 5000, core := Core.reset 0 }

theorem meets_CommitsAndRegions_closing : [[(packet true, 100)], [(packet true, 100), (packet false, 120)]].map (fun ds =>
      ((closing ds).jobAt 0).map fun j => (j.st, (closing ds).applyReady j)) = [some (.closing, true), some (.closing, true)] := by decide +kernel

theorem test_closing : ([[(packet true, 100)], [(packet true, 100), (packet false, 120)]].map fun ds =>
      ((nx (execDecisionApply 0 (closing ds))).jobs.map fun j => (j.gen, j.decided.length), (nx (execDecisionApply 0 (closing ds))).node.ndec)) =
    [([], 1), ([(2, 1)], 1)] := by decide +kernel

theorem meets_JobRequestsAndEnds_open : (lab.jobAt 0).map (fun j => (j.decided, j.parent.isNone, lrTxn j.lrec)) = some ([], true, false) ∧
    lab.accs = [] := by decide +kernel

/-- A line of another package's memory, and one of this package. -/
theorem meets_ResetsPowerAndErrors_lines : gaPkg (0x40000100000 / 128 * 128) ≠ lab.pkg.toNat ∧ gaHost 0x40000100000 = false ∧
    gaPkg 0x100000 = lab.pkg.toNat ∧ lab.regionAt 0x100000 = none := by decide +kernel

theorem test_remote_line : (nx (execSramError (.dirtyLine 0x40000100008) lab)).rpoison = [0x40000100000, 0x40000100040] ∧
    (nx (execSramError (.dirtyLine 0x40000100008) lab)).sectors = lab.sectors := by decide +kernel

/-- The reset state is sound. -/
theorem test_reset_memWf : State.reset.memWf = true := by decide +kernel

end Sys2Proof.Tests
end

/-! ### Decoding and encoding agree (O4) -/

namespace Sys2Proof
namespace Laws.RoundTrip

/-- The round trip holds of every row of the opcode table. -/
theorem statement_of_instr : ∀ i : Instr, Statement i
  | .add .. => add .. | .sub .. => sub .. | .mul .. => mul .. | .mulhI64 .. => mulhI64 .. | .mulhN64 .. => mulhN64 ..
  | .divI64 .. => divI64 .. | .divN64 .. => divN64 .. | .remI64 .. => remI64 .. | .remN64 .. => remN64 .. | .and .. => and ..
  | .or .. => or .. | .xor .. => xor .. | .andn .. => andn .. | .shl .. => shl .. | .shr .. => shr .. | .sar .. => sar ..
  | .rol .. => rol .. | .minI64 .. => minI64 .. | .minN64 .. => minN64 .. | .maxI64 .. => maxI64 .. | .maxN64 .. => maxN64 ..
  | .clz .. => clz .. | .ctz .. => ctz .. | .popc .. => popc .. | .movXP .. => movXP .. | .movPX .. => movPX .. | .addImm .. => addImm ..
  | .mulImm .. => mulImm .. | .andImm .. => andImm .. | .orImm .. => orImm .. | .xorImm .. => xorImm .. | .shlImm .. => shlImm ..
  | .shrImm .. => shrImm .. | .sarImm .. => sarImm .. | .rolImm .. => rolImm .. | .cmp .. => cmp .. | .cmpImm .. => cmpImm ..
  | .sel .. => sel .. | .li .. => li .. | .lih .. => lih .. | .bfx .. => bfx .. | .bfi .. => bfi .. | .fsh .. => fsh .. | .br .. => br ..
  | .call .. => call .. | .bc .. => bc .. | .loop .. => loop .. | .ret .. => ret .. | .ld .. => ld .. | .ldIndex .. => ldIndex ..
  | .st .. => st .. | .stIndex .. => stIndex .. | .redAdd .. => redAdd .. | .redMin .. => redMin .. | .redMax .. => redMax ..
  | .redAnd .. => redAnd .. | .redOr .. => redOr .. | .redXor .. => redXor .. | .fork .. => fork .. | .addf .. => addf ..
  | .addfImm .. => addfImm .. | .give .. => give .. | .giveAcc .. => giveAcc .. | .waitf .. => waitf .. | .waitfImm .. => waitfImm ..
  | .flagcfg .. => flagcfg .. | .fstat .. => fstat .. | .ssync .. => ssync .. | .tokpass .. => tokpass .. | .mfence .. => mfence ..
  | .chron .. => chron .. | .ipf .. => ipf .. | .ipin .. => ipin .. | .iunpin .. => iunpin .. | .csrr .. => csrr .. | .csrw .. => csrw ..
  | .trap .. => trap .. | .launch .. => launch .. | .wincfg .. => wincfg .. | .winoff .. => winoff .. | .winq .. => winq ..
  | .tlbinv .. => tlbinv .. | .tlbinvr .. => tlbinvr .. | .pgsplit .. => pgsplit .. | .pgdup .. => pgdup .. | .pgcoll .. => pgcoll ..
  | .pgmove .. => pgmove .. | .pgprot .. => pgprot .. | .walkstat .. => walkstat .. | .keyret .. => keyret .. | .publish .. => publish ..
  | .pubwait .. => pubwait .. | .reftag .. => reftag .. | .stref .. => stref .. | .refclr .. => refclr .. | .objinit .. => objinit ..
  | .retract .. => retract .. | .txvote .. => txvote .. | .txwait .. => txwait .. | .txstat .. => txstat .. | .txkey .. => txkey ..
  | .txseqStep .. => txseqStep .. | .txseqCbase .. => txseqCbase .. | .txseqQbase .. => txseqQbase .. | .txseqCount .. => txseqCount ..
  | .nmSgdf .. => nmSgdf .. | .nmfence .. => nmfence .. | .nmfenceArray .. => nmfenceArray .. | .pfxRnd .. => pfxRnd ..
  | .pfxMsk .. => pfxMsk .. | .vadd .. => vadd .. | .vsub .. => vsub .. | .vmul .. => vmul .. | .vdiv .. => vdiv .. | .vmin .. => vmin ..
  | .vmax .. => vmax .. | .vcps .. => vcps .. | .vsqrt .. => vsqrt .. | .vrcp .. => vrcp .. | .vexp2 .. => vexp2 ..
  | .vlog2 .. => vlog2 .. | .vabs .. => vabs .. | .vneg .. => vneg .. | .vcmp .. => vcmp .. | .vsel .. => vsel .. | .viadd .. => viadd ..
  | .visub .. => visub .. | .vimul .. => vimul .. | .vshl .. => vshl .. | .vshr .. => vshr .. | .vsar .. => vsar .. | .vand .. => vand ..
  | .vor .. => vor .. | .vxor .. => vxor .. | .vpopc .. => vpopc .. | .vclz .. => vclz .. | .vcmpInt .. => vcmpInt ..
  | .vfma .. => vfma .. | .vfms .. => vfms .. | .vnfma .. => vnfma .. | .vimad .. => vimad .. | .vbfx .. => vbfx .. | .vbfi .. => vbfi ..
  | .vfsh .. => vfsh .. | .vcvt .. => vcvt .. | .vredsum .. => vredsum .. | .vredmax .. => vredmax .. | .vredmin .. => vredmin ..
  | .vmov .. => vmov .. | .vbcast .. => vbcast .. | .vtrans .. => vtrans .. | .vrotRow .. => vrotRow .. | .vrotCol .. => vrotCol ..
  | .vperm .. => vperm .. | .vbcastImm .. => vbcastImm .. | .vshapeset .. => vshapeset .. | .bnet .. => bnet .. | .bnload .. => bnload ..
  | .vld .. => vld .. | .vst .. => vst .. | .vlda .. => vlda .. | .vsta .. => vsta .. | .vrand .. => vrand .. | .vrandF .. => vrandF ..
  | .vmaskp .. => vmaskp .. | .mand .. => mand .. | .mor .. => mor .. | .mxor .. => mxor .. | .mnot .. => mnot .. | .mpopc .. => mpopc ..
  | .mfirst .. => mfirst .. | .vqskip .. => vqskip .. | .vecAddf .. => vecAddf .. | .vecAddfImm .. => vecAddfImm ..
  | .vecWaitf .. => vecWaitf .. | .vecWaitfImm .. => vecWaitfImm .. | .vecGive .. => vecGive .. | .vecGiveAcc .. => vecGiveAcc ..
  | .vscalLi .. => vscalLi .. | .vscalLi64 .. => vscalLi64 .. | .vscalAdd .. => vscalAdd .. | .vscalAddImm .. => vscalAddImm ..
  | .vscalSub .. => vscalSub .. | .vscalSubImm .. => vscalSubImm .. | .vscalShl .. => vscalShl .. | .vscalShlImm .. => vscalShlImm ..
  | .vscalAnd .. => vscalAnd .. | .vscalAndImm .. => vscalAndImm .. | .vscalCmp .. => vscalCmp .. | .vscalCmpImm .. => vscalCmpImm ..
  | .vscalBr .. => vscalBr .. | .vscalBc .. => vscalBc .. | .vscalLoop .. => vscalLoop .. | .vscalRend .. => vscalRend ..
  | .vscalNop .. => vscalNop .. | .cpy .. => cpy .. | .cpys .. => cpys .. | .chain .. => chain .. | .chstop .. => chstop ..
  | .gather .. => gather .. | .scatter .. => scatter .. | .bind .. => bind .. | .collAllReduce .. => collAllReduce ..
  | .nmirror .. => nmirror .. | .addf64 .. => addf64 .. | .waitf64 .. => waitf64 .. | .give64 .. => give64 .. | .scalLi .. => scalLi ..
  | .scalAdd .. => scalAdd .. | .scalSub .. => scalSub .. | .scalShl .. => scalShl .. | .scalAnd .. => scalAnd ..
  | .scalCmp .. => scalCmp .. | .scalBr .. => scalBr .. | .scalBc .. => scalBc .. | .scalLoop .. => scalLoop ..
  | .scalRend .. => scalRend .. | .scalNop .. => scalNop .. | .mma .. => mma .. | .mmas .. => mmas .. | .mmai .. => mmai ..
  | .mmaj .. => mmaj .. | .mtile .. => mtile .. | .mtileAddr .. => mtileAddr .. | .mtileAdd .. => mtileAdd .. | .mtileLd .. => mtileLd ..
  | .azero .. => azero .. | .afade .. => afade .. | .ald .. => ald .. | .ast .. => ast .. | .aspill .. => aspill ..
  | .afill .. => afill .. | .qinit .. => qinit .. | .qmap .. => qmap .. | .qmapSt .. => qmapSt .. | .qldg .. => qldg ..
  | .qgate .. => qgate .. | .qdiag .. => qdiag .. | .qswap .. => qswap .. | .qperm .. => qperm .. | .qprob .. => qprob ..
  | .qnorm .. => qnorm .. | .qsample .. => qsample .. | .qscale .. => qscale .. | .join => join | .rend => rend | .eret => eret
  | .txopen => txopen | .txclose => txclose | .qsync => qsync | .rkeyWrite .. => rkeyWrite .. | .nfdWrite .. => nfdWrite ..
  | .pageWalk .. => pageWalk .. | .reachWalkComplete => reachWalkComplete | .nmMom .. => nmMom .. | .nmAdamw .. => nmAdamw ..
  | .nmAxpy .. => nmAxpy .. | .nmScale .. => nmScale .. | .nmFill .. => nmFill .. | .nmCopy .. => nmCopy .. | .nmCast .. => nmCast ..
  | .nmClamp .. => nmClamp .. | .nmRecode .. => nmRecode .. | .nmScrub .. => nmScrub .. | .nmFold .. => nmFold ..
  | .nmCkpt .. => nmCkpt .. | .nmComplete => nmComplete | .collAllGather .. => collAllGather ..
  | .collReduceScatter .. => collReduceScatter .. | .chainRecordRun .. => chainRecordRun .. | .copyRelease .. => copyRelease ..
  | .copyDelivery .. => copyDelivery .. | .streamEntryArrival .. => streamEntryArrival .. | .stampedIssue .. => stampedIssue ..
  | .collectiveRun .. => collectiveRun .. | .matrixCommandRun .. => matrixCommandRun .. | .astroCollectiveRun .. => astroCollectiveRun ..
  | .hostSubmit .. => hostSubmit .. | .jobAdmission => jobAdmission | .barrierRelease .. => barrierRelease ..
  | .exchangeEnd => exchangeEnd | .preemptRequest .. => preemptRequest .. | .preemptTimeout .. => preemptTimeout ..
  | .spilledJobResume .. => spilledJobResume .. | .timeLimit .. => timeLimit .. | .deadlock => deadlock
  | .faultFrameWrite => faultFrameWrite | .resume .. => resume .. | .aresume .. => aresume .. | .areaLimitWrite .. => areaLimitWrite ..
  | .firmwareStart .. => firmwareStart .. | .redApply => redApply | .chronAlign .. => chronAlign .. | .carafeRead .. => carafeRead ..
  | .carafeWrite .. => carafeWrite .. | .writeReachesArray .. => writeReachesArray .. | .scrubPeriodEnd => scrubPeriodEnd
  | .patrolRead .. => patrolRead .. | .keySlotWrite .. => keySlotWrite .. | .regionDeclare .. => regionDeclare ..
  | .regionRetire .. => regionRetire .. | .versionPassEnd .. => versionPassEnd .. | .forcedPass .. => forcedPass ..
  | .packageVote .. => packageVote .. | .votePacket .. => votePacket .. | .rootTimeout .. => rootTimeout ..
  | .decisionPacket .. => decisionPacket .. | .decisionApply .. => decisionApply .. | .hostRead .. => hostRead ..
  | .hostWrite .. => hostWrite .. | .mailboxAttest .. => mailboxAttest .. | .mailboxResponse => mailboxResponse
  | .hostBarrierArrive .. => hostBarrierArrive .. | .imageChunk .. => imageChunk .. | .imageCommit .. => imageCommit ..
  | .attestationRequest .. => attestationRequest .. | .telemetryRequest .. => telemetryRequest .. | .podMembership .. => podMembership ..
  | .statusRequest .. => statusRequest .. | .flitReceive .. => flitReceive .. | .portDead .. => portDead ..
  | .coldReset .. => coldReset .. | .warmReset .. => warmReset .. | .sramError .. => sramError .. | .thermalThrottle => thermalThrottle
  | .thermalShutdown => thermalShutdown | .registerWrite .. => registerWrite .. | .codeFetch .. => codeFetch ..
  | .loadDataReturn => loadDataReturn | .writeCompletesAtHome => writeCompletesAtHome | .vectorCompletion => vectorCompletion
  | .commandCycle .. => commandCycle .. | .endedByTheOs .. => endedByTheOs .. | .fencingOffOfACore .. => fencingOffOfACore ..
  | .portTrained .. => portTrained .. | .powerLoss .. => powerLoss .. | .fallBelowLimits => fallBelowLimits
end Laws.RoundTrip

/-- A decoder's answer is sound when an instruction that it gives is well-formed. -/
def SoundDec (d : Dec) : Prop := ∀ i, d = .ok i → WellFormed i = true

theorem soundDec_error (e : DecodeErr) : SoundDec (.error e) := fun _ h => nomatch h

/-- `finish` answers with an instruction only behind both checks of `WellFormed`. -/
theorem soundDec_finish (z : Bool) (i : Instr) : SoundDec (finish z i) := by
  intro j h
  unfold finish at h
  split at h
  · cases h
  split at h
  · cases h
  · cases h
    simp_all [WellFormed]

theorem soundDec_decodeCtl (w : BitVec 32) : SoundDec (decodeCtl w) := by
  unfold decodeCtl
  repeat' split
  all_goals simp only [soundDec_finish, soundDec_error]

theorem soundDec_decodeVec32 (w : BitVec 32) : SoundDec (decodeVec32 w) := by
  unfold decodeVec32
  repeat' split
  all_goals simp only [soundDec_finish, soundDec_error]

theorem soundDec_decodeVec64 (w : BitVec 64) : SoundDec (decodeVec64 w) := by
  unfold decodeVec64
  dsimp only
  repeat' split
  all_goals simp only [soundDec_finish, soundDec_error]

theorem soundDec_decodeFlag64 (e : Eng64) (w : BitVec 64) : SoundDec (decodeFlag64 e w) := by
  unfold decodeFlag64
  dsimp only
  split
  all_goals try split
  all_goals simp only [soundDec_finish, soundDec_error]

theorem soundDec_decodeScal64 (e : Strm64) (w : BitVec 64) : SoundDec (decodeScal64 e w) := by
  unfold decodeScal64
  dsimp only
  repeat' split
  all_goals simp only [soundDec_finish, soundDec_error]

theorem soundDec_decodeCpy (w : BitVec 64) : SoundDec (decodeCpy w) := by
  unfold decodeCpy
  dsimp only
  repeat' split
  all_goals simp only [soundDec_finish, soundDec_decodeFlag64, soundDec_decodeScal64]

theorem soundDec_decodeMtx (w : BitVec 64) : SoundDec (decodeMtx w) := by
  unfold decodeMtx
  dsimp only
  repeat' split
  all_goals simp only [soundDec_finish, soundDec_decodeFlag64, soundDec_decodeScal64]

theorem soundDec_decodeAst (w : BitVec 64) : SoundDec (decodeAst w) := by
  unfold decodeAst
  dsimp only
  repeat' split
  all_goals simp only [soundDec_finish, soundDec_error, soundDec_decodeScal64]

theorem soundDec_decodeWord (k : Strm) (w : BitVec 64) : SoundDec (decodeWord k w) := by
  cases k with
  | ctl => exact soundDec_decodeCtl _
  | vec =>
    simp only [decodeWord]
    split
    · exact soundDec_decodeVec64 w
    · exact soundDec_decodeVec32 _
  | mtx => exact soundDec_decodeMtx w
  | cpy => exact soundDec_decodeCpy w
  | ast => exact soundDec_decodeAst w

/-- Settles O4: the round trip of every row, and no decoder answers with an instruction but through `finish`. -/
theorem decodeAndEncodeAgree : Obligations.DecodeAndEncodeAgree :=
  ⟨Laws.RoundTrip.statement_of_instr, soundDec_decodeWord⟩

end Sys2Proof

/-! ### Writes of device registers (O55) -/

namespace Sys2Proof.Machine

/-! The areas of device register space, each with what serves a doubleword written in it (00 R6). -/

theorem toNat_offset {o : Nat} (h : o < 2 ^ 41) : (BitVec.ofNat 41 o).toNat = o := by
  rw [BitVec.toNat_ofNat, Nat.mod_eq_of_lt h]

theorem registerWrite_bar {o : Nat} (s : State) (v : Word) (h : o < 2 ^ 40) :
    exec (.registerWrite (BitVec.ofNat 41 (2 ^ 40 + o)) v) s = s.barWrite (o / 8 * 8) v := by
  have ho : (2 ^ 40 + o) / 8 * 8 - 2 ^ 40 = o / 8 * 8 := by omega
  simp only [exec, execRegisterWrite, toNat_offset (o := 2 ^ 40 + o) (by omega), ho]
  rw [if_pos (by omega)]

theorem registerWrite_os {o : Nat} (s : State) (v : Word) (h : o % 8 = 0) (hlt : o < 0x78) :
    exec (.registerWrite (BitVec.ofNat 41 (0x300000 + o)) v) s = s.osWrite o v := by
  have ho : (0x300000 + o) / 8 * 8 = 0x300000 + o := by omega
  simp only [exec, execRegisterWrite, toNat_offset (o := 0x300000 + o) (by omega), ho, Bool.and_eq_true, decide_eq_true_eq]
  rw [if_neg (by omega), if_pos (by omega), Nat.add_sub_cancel_left]

theorem registerWrite_fw {n i : Nat} (s : State) (v : Word) (hn : n < 256) (hi : i < 4) :
    exec (.registerWrite (BitVec.ofNat 41 (0x400000 + 8 * i + 32 * n)) v) s = s.fwWrite n i v := by
  have ho : (0x400000 + 8 * i + 32 * n) / 8 * 8 = 0x400000 + 8 * i + 32 * n := by omega
  have hq : (0x400000 + 8 * i + 32 * n - 0x400000) / 32 = n := by omega
  have hr : (0x400000 + 8 * i + 32 * n) % 32 / 8 = i := by omega
  simp only [exec, execRegisterWrite, toNat_offset (o := 0x400000 + 8 * i + 32 * n) (by omega), ho, hq, hr,
    Bool.and_eq_true, decide_eq_true_eq]
  rw [if_neg (by omega), if_neg (by omega), if_pos (by omega)]

theorem registerWrite_common {o : Nat} (s : State) (v : Word) (h : o % 8 = 0) (hlt : o < 0x10000) :
    exec (.registerWrite (BitVec.ofNat 41 (0x500000 + o)) v) s = s.commonWrite o v := by
  have ho : (0x500000 + o) / 8 * 8 = 0x500000 + o := by omega
  simp only [exec, execRegisterWrite, toNat_offset (o := 0x500000 + o) (by omega), ho, Bool.and_eq_true, decide_eq_true_eq]
  rw [if_neg (by omega), if_neg (by omega), if_neg (by omega), if_pos (by omega), Nat.add_sub_cancel_left]

theorem registerWrite_stack {o : Nat} (s : State) (v : Word) (h : 0x510000 ≤ o) (hlt : o < 0x5D0000) :
    exec (.registerWrite (BitVec.ofNat 41 o) v) s = .next s := by
  simp only [exec, execRegisterWrite, toNat_offset (o := o) (by omega), Bool.and_eq_true, decide_eq_true_eq]
  rw [if_neg (by omega), if_neg (by omega), if_neg (by omega), if_neg (by omega), if_pos (by omega)]

theorem registerWrite_outside {o : Nat} (s : State) (v : Word) (hlt : o < 2 ^ 40) (h : o < 0x300000 ∨ 0x700100 ≤ o) :
    exec (.registerWrite (BitVec.ofNat 41 o) v) s = .fault .noSuchRegister := by
  simp only [exec, execRegisterWrite, toNat_offset (o := o) (by omega), Bool.and_eq_true, decide_eq_true_eq]
  iterate 8 rw [if_neg (by omega)]

/-! What the areas do with the doubleword. -/

theorem osWrite_ge {o : Nat} (s : State) (v : Word) (h : 0x78 ≤ o) : s.osWrite o v = .fault .noSuchRegister := by
  unfold State.osWrite
  iterate 4 rw [if_neg (by omega)]

theorem areaLimitWrite_fault (s : State) (off : BitVec 12) (v : Word) (h : off.toNat % 8 ≠ 0 ∨ 0x78 ≤ off.toNat) :
    exec (.areaLimitWrite off v) s = .fault .noSuchRegister := by
  simp only [exec, execAreaLimitWrite]
  split
  · exact osWrite_ge s v (h.resolve_left (not_not_intro ‹_›))
  · rfl

theorem areaLimitWrite_ofNat {o : Nat} (s : State) (v : Word) (h : o % 8 = 0) (hlt : o < 0x1000) :
    exec (.areaLimitWrite (BitVec.ofNat 12 o) v) s = s.osWrite o v := by
  have ho : (BitVec.ofNat 12 o).toNat = o := by rw [BitVec.toNat_ofNat, Nat.mod_eq_of_lt (by omega)]
  simp only [exec, execAreaLimitWrite, ho, if_pos h]

theorem set!_eq_set {α : Type} {n i : Nat} (x : Vector α n) (y : α) (h : i < n) : x.set! i y = x.set i y := by
  ext j hj
  simp [Vector.set!_eq_setIfInBounds, Vector.getElem_setIfInBounds, Vector.getElem_set]

theorem osWrite_rspbase {d : Nat} (s : State) (v : Word) (h : d < 4) : s.osWrite (0x20 + 16 * d) v =
    .next { s with os := { s.os with rspbase := s.os.rspbase.set d (v.extractLsb' 12 28) } } := by
  unfold State.osWrite State.writeOsArea
  rw [if_pos (by omega)]
  split
  all_goals try omega
  have hd : (0x20 + 16 * d - 0x20) / 16 = d := by omega
  rw [if_pos (by omega), hd, set!_eq_set _ _ h]

theorem getLsbD_clearBit {n d e : Nat} (x : BitVec n) (h : e < n) :
    (x &&& ~~~(1#n <<< d)).getLsbD e = (x.getLsbD e && !decide (e = d)) := by
  have hbit : (1#n <<< d).getLsbD e = decide (e = d) := by
    rw [BitVec.getLsbD_shiftLeft, BitVec.getLsbD_one]
    grind
  rw [BitVec.getLsbD_and, BitVec.getLsbD_not, hbit]
  simp [h]

/-- A greater limit of a reach spill area lifts the stall of its die alone (01 R49). -/
theorem osWrite_rsplim {d : Nat} (s : State) (v : Word) (h : d < 4) : ∃ t, s.osWrite (0x28 + 16 * d) v = .next t ∧
    t.os.rsplim = s.os.rsplim.set d (v.extractLsb' 12 28) ∧
    ∀ e : Nat, e < 4 → t.os.rspfull.getLsbD e =
      (s.os.rspfull.getLsbD e && !(decide (e = d) && decide (s.os.rsplim[d] < v.extractLsb' 12 28))) := by
  unfold State.osWrite State.writeOsArea
  rw [if_pos (by omega)]
  refine ⟨_, rfl, ?_⟩
  split
  all_goals try omega
  have hd : (0x28 + 16 * d - 0x20) / 16 = d := by omega
  rw [if_neg (by omega), hd]
  have hold : s.os.rsplim.toList.getD d 0 = s.os.rsplim[d] := by simp [List.getD_eq_getElem?_getD, h]
  refine ⟨set!_eq_set _ _ h, fun e he => ?_⟩
  have hult : s.os.rsplim[d].ult (v.extractLsb' 12 28) = decide (s.os.rsplim[d] < v.extractLsb' 12 28) := rfl
  simp only [hold, hult]
  by_cases hlt : s.os.rsplim[d] < v.extractLsb' 12 28
  · simp only [hlt, decide_true, if_true, getLsbD_clearBit _ he, Bool.and_true]
  · simp only [hlt, decide_false, Bool.false_eq_true, if_false, Bool.and_false, Bool.not_false, Bool.and_true]

theorem fwWrite_start (s : State) (n : BitVec 8) (v : Word) (hv : v.getLsbD 0 = true) :
    s.fwWrite n.toNat 3 v = exec (.firmwareStart n) s := by
  have hn : BitVec.ofNat 8 n.toNat = n := by rw [BitVec.ofNat_toNat, BitVec.setWidth_eq]
  exact (if_pos hv).trans (by rw [hn]; rfl)

theorem commonWrite_key {o : Nat} (s : State) (v : Word) (h : 0x1000 ≤ o) (hlt : o < 0x5000) :
    s.commonWrite o v = execKeySlotWrite (BitVec.ofNat 16 o) v s := by
  simp only [State.commonWrite, Bool.and_eq_true, decide_eq_true_eq]
  rw [if_neg (by omega), if_neg (by omega), if_neg (by omega), if_pos ⟨h, hlt⟩]

theorem commonWrite_region {n : Nat} (s : State) (v : Word) (hn : n < 16) (hv : v.getLsbD 0 = true) :
    s.commonWrite (0x6000 + 32 * n) v = execRegionDeclare (BitVec.ofNat 4 n) v s := by
  have hq : (0x6000 + 32 * n - 0x6000) / 32 = n := by omega
  have hr : (0x6000 + 32 * n) % 32 / 8 = 0 := by omega
  simp only [State.commonWrite, Bool.and_eq_true, decide_eq_true_eq, hq, hr]
  rw [if_neg (by omega), if_neg (by omega), if_neg (by omega), if_neg (by omega), if_neg (by omega), if_pos (by omega)]
  exact if_pos hv

theorem barWrite_hostDown {o : Nat} (s : State) (v : Word) (hs : s.hostUp = false) (h : o < 0x3313) : s.barWrite o v = .next s := by
  simp [State.barWrite, hs, h]

theorem barWrite_submit (s : State) (v : Word) (hs : s.hostUp = true) :
    s.barWrite 0 v = execHostSubmit (v.extractLsb' 6 42) (v.extractLsb' 48 16) s := by
  simp [State.barWrite, hs]

theorem barWrite_arrive {n : Nat} (s : State) (v : Word) (hs : s.hostUp = true) (hn : n < 16) (hv : v.getLsbD 0 = true) :
    s.barWrite (0x110 + 32 * n) v = execHostBarrierArrive (BitVec.ofNat 4 n) s := by
  have hq : (0x110 + 32 * n - 0x100) / 32 = n := by omega
  have hr : (0x110 + 32 * n) % 32 / 8 = 2 := by omega
  simp only [State.barWrite, hs, hq, hr, Bool.not_true, Bool.false_and, Bool.false_eq_true, if_false, Bool.and_eq_true,
    decide_eq_true_eq]
  rw [if_neg (by omega), if_neg (by omega), if_pos (by omega)]
  exact if_pos hv

theorem barWrite_mailbox (s : State) (v : Word) (hs : s.hostUp = true) (hv : v.getLsbD 8 = true) :
    s.barWrite 0x1000 v = execMailboxAttest (v.extractLsb' 0 8) s := by
  simp [State.barWrite, hs, bit, hv]

theorem deviceWord_key {o : Nat} (s : State) (h : 0x501000 ≤ o) (hlt : o < 0x505000) : s.deviceWord o = 0 := by
  have hw : s.commonWord (o / 8 * 8 - 0x500000) = 0 := by
    simp only [State.commonWord, Bool.and_eq_true, decide_eq_true_eq]
    iterate 5 rw [if_neg (by omega)]
  simp only [State.deviceWord, Bool.and_eq_true, decide_eq_true_eq]
  rw [if_neg (by omega), if_neg (by omega), if_neg (by omega), if_pos (by omega), hw]
  rfl

/-- Settles O55: every clause is the area its offset lies in, and what that area does with the doubleword. -/
theorem registerWrites : Obligations.RegisterWrites := by
  intro s v at_ a
  refine ⟨fun off => areaLimitWrite_fault s off v, rfl, rfl, rfl, rfl, rfl, rfl, rfl, fun d h => ⟨?_, ?_⟩, fun o h hlt => ?_,
    fun n hv => ?_, fun o h hlt h8 => ?_, fun n hv => ?_, rfl, rfl, fun o h hlt => registerWrite_stack s v h hlt,
    fun o h hs => ?_, fun hs => ⟨?_, fun n hv => ?_, fun hv => ?_⟩, rfl, rfl, fun o => deviceWord_key s,
    fun o => registerWrite_outside s v⟩
  · rw [areaLimitWrite_ofNat s v (by omega) (by omega), osWrite_rspbase s v h]
  · rw [areaLimitWrite_ofNat s v (by omega) (by omega)]
    exact osWrite_rsplim s v h
  · rw [areaLimitWrite_ofNat s v h (by omega)]
    exact registerWrite_os s v h hlt
  · rw [registerWrite_fw (i := 3) s v n.isLt (by decide)]
    exact fwWrite_start s n v hv
  · exact (registerWrite_common s v h8 (by omega)).trans (commonWrite_key s v h hlt)
  · rw [show 0x506000 + 32 * n.toNat = 0x500000 + (0x6000 + 32 * n.toNat) by omega, registerWrite_common s v (by omega) (by omega),
      commonWrite_region s v n.isLt hv, BitVec.ofNat_toNat, BitVec.setWidth_eq]
    rfl
  · rw [registerWrite_bar s v (by omega), barWrite_hostDown s v hs (by omega)]
  · exact (registerWrite_bar (o := 0) s v (by decide)).trans (barWrite_submit s v hs)
  · rw [Nat.add_assoc, registerWrite_bar s v (by omega), show (0x110 + 32 * n.toNat) / 8 * 8 = 0x110 + 32 * n.toNat by omega,
      barWrite_arrive s v hs n.isLt hv, BitVec.ofNat_toNat, BitVec.setWidth_eq]
    rfl
  · exact (registerWrite_bar (o := 0x1000) s v (by decide)).trans (barWrite_mailbox s v hs hv)

end Sys2Proof.Machine

/-! ### Memory stays canonical (O5) -/

namespace Sys2Proof.Machine

/-- The memory of a state has its canonical form (log 5). -/
def State.Canon (s : State) : Prop := s.mem.wf = true

/-- What a waiting word leaves behind holds no state but one of canonical memory. -/
def Note.Canon : Note → Prop
  | .acted s => s.Canon
  | _ => True

/-- A word that waits or faults hands on only states of canonical memory. -/
def Stop.Canon : Stop → Prop
  | .stall n => n.Canon
  | .trapIn s _ => s.Canon
  | _ => True

/-- A device's access for a job leaves canonical memory, whether it succeeds or fails. -/
inductive JobRes.Canon : JobRes → Prop
  | ok {t : State} (h : t.Canon) : JobRes.Canon (.ok t)
  | error {p : State × JobErr} (h : p.1.Canon) : JobRes.Canon (.error p)

/-- A fetch leaves canonical memory. -/
inductive Fetched.Canon : Fetched → Prop
  | word {i : Instr} {t : State} (h : t.Canon) : Fetched.Canon (.word i t)
  | stop {t : State} (h : t.Canon) : Fetched.Canon (.stop t)

/-- What a run of a computation leaves has canonical memory. -/
def RunCanon {α : Type} : Except Stop (α × State) → Prop
  | .ok (_, t) => t.Canon
  | .error e => e.Canon

/-- A computation over the state keeps memory canonical. -/
def Op.Canon {α : Type} (x : Op α) : Prop := ∀ s : State, s.Canon → RunCanon (x s)

/-- An outcome goes on in a state of canonical memory, if it goes on. -/
inductive Out.Canon : Out → Prop
  | next {t : State} (h : t.Canon) : Out.Canon (.next t)
  | fault {f : Fault} : Out.Canon (.fault f)
  | refused {r : Refusal} : Out.Canon (.refused r)

/-- The state that a function answers with, if it answers, has canonical memory. -/
def OptCanon (o : Option State) : Prop := ∀ t, o = some t → t.Canon

/-- The outcome of an event, if one is due, goes on in a state of canonical memory. -/
def OptOutCanon (o : Option Out) : Prop := ∀ x, o = some x → x.Canon

namespace State.Canon

variable {s t : State} {α β : Type}

theorem write (h : s.Canon) {a : Nat} {d : List Byte} : (s.mem.write a d).wf = true := Mem.wf_write d a h

/-- Whatever else of a state changes, its memory is canonical if it stays the same. -/
theorem of_mem (h : s.Canon) (e : t.mem = s.mem) : t.Canon := by
  unfold State.Canon
  rwa [e]

theorem of_write {a : Nat} {d : List Byte} (h : s.Canon) (e : t.mem = s.mem.write a d) : t.Canon := by
  unfold State.Canon
  rw [e]
  exact h.write

theorem getD {o : Option State} (h : s.Canon) (ho : OptCanon o) : (o.getD s).Canon := by
  cases o with
  | none => exact h
  | some t => exact ho t rfl

theorem ite {c : Prop} [Decidable c] (hs : s.Canon) (ht : t.Canon) : (if c then s else t).Canon := by
  split
  · exact hs
  · exact ht

theorem foldl {f : State → β → State} {l : List β} (h : s.Canon) (hf : ∀ t b, t.Canon → (f t b).Canon) :
    (l.foldl f s).Canon := by
  induction l generalizing s with
  | nil => exact h
  | cons b l ih => exact ih (hf s b h)

theorem foldl_fst {f : State × α → β → State × α} {p : State × α} {l : List β} (h : p.1.Canon)
    (hf : ∀ q b, q.1.Canon → (f q b).1.Canon) : (l.foldl f p).1.Canon := by
  induction l generalizing p with
  | nil => exact h
  | cons b l ih => exact ih (hf p b h)

theorem ite_fst {c : Prop} [Decidable c] {p q : State × α} (hp : p.1.Canon) (hq : q.1.Canon) :
    (if c then p else q).1.Canon := by
  split
  · exact hp
  · exact hq

theorem of_fst {p : State × α} {a : α} (e : p = (t, a)) (h : p.1.Canon) : t.Canon := by
  rw [e] at h
  exact h

end State.Canon

theorem JobRes.Canon.ite {c : Prop} [Decidable c] {r r' : JobRes} (h : r.Canon) (h' : r'.Canon) :
    JobRes.Canon (if c then r else r') := by
  split
  · exact h
  · exact h'

theorem JobRes.Canon.of_ok {r : JobRes} {t : State} (h : r.Canon) (e : r = .ok t) : t.Canon := by
  cases h with
  | ok h => exact Except.ok.inj e ▸ h
  | error h => cases e

theorem JobRes.Canon.of_error {r : JobRes} {p : State × JobErr} (h : r.Canon) (e : r = .error p) : p.1.Canon := by
  cases h with
  | ok h => cases e
  | error h => exact Except.error.inj e ▸ h

theorem Out.Canon.ite {c : Prop} [Decidable c] {x y : Out} (hx : x.Canon) (hy : y.Canon) : Out.Canon (if c then x else y) := by
  split
  · exact hx
  · exact hy

theorem Out.Canon.of_next {x : Out} {t : State} (h : x.Canon) (e : x = .next t) : t.Canon := by
  cases h with
  | next h => exact Host.Outcome.next.inj e ▸ h
  | fault => cases e
  | refused => cases e

theorem Fetched.Canon.of_word {r : Fetched} {i : Instr} {t : State} (h : r.Canon) (e : r = .word i t) : t.Canon := by
  cases h with
  | word h => exact (Fetched.word.inj e).2 ▸ h
  | stop h => cases e

theorem Fetched.Canon.of_stop {r : Fetched} {t : State} (h : r.Canon) (e : r = .stop t) : t.Canon := by
  cases h with
  | word h => cases e
  | stop h => exact Fetched.stop.inj e ▸ h

namespace OptCanon

variable {a b : Option State}

theorem none : OptCanon none := fun _ e => nomatch e

theorem some {s : State} (h : s.Canon) : OptCanon (some s) := fun _ e => Option.some.inj e ▸ h

theorem ite {c : Prop} [Decidable c] (ha : OptCanon a) (hb : OptCanon b) : OptCanon (if c then a else b) := by
  split
  · exact ha
  · exact hb

theorem findSome {β : Type} {f : β → Option State} {l : List β} (hf : ∀ b, OptCanon (f b)) : OptCanon (l.findSome? f) := by
  intro t e
  obtain ⟨b, _, hb⟩ := List.exists_of_findSome?_eq_some e
  exact hf b t hb

end OptCanon

namespace OptOutCanon

variable {a b : Option Out}

theorem none : OptOutCanon none := fun _ e => nomatch e

theorem some {x : Out} (h : x.Canon) : OptOutCanon (some x) := fun _ e => Option.some.inj e ▸ h

theorem ite {c : Prop} [Decidable c] (ha : OptOutCanon a) (hb : OptOutCanon b) : OptOutCanon (if c then a else b) := by
  split
  · exact ha
  · exact hb

theorem orElse (ha : OptOutCanon a) (hb : OptOutCanon b) : OptOutCanon (a <|> b) := by
  cases a with
  | none => exact hb
  | some x => exact ha

theorem findSome {β : Type} {f : β → Option Out} {l : List β} (hf : ∀ b, OptOutCanon (f b)) :
    OptOutCanon (l.findSome? f) := by
  intro t e
  obtain ⟨b, _, hb⟩ := List.exists_of_findSome?_eq_some e
  exact hf b t hb

theorem map {β : Type} {f : β → Out} {o : Option β} (hf : ∀ b, (f b).Canon) : OptOutCanon (o.map f) := by
  intro x e
  obtain ⟨b, _, rfl⟩ := Option.map_eq_some_iff.mp e
  exact hf b

theorem mapState {f : State → Out} {o : Option State} (h : OptCanon o) (hf : ∀ t, t.Canon → (f t).Canon) :
    OptOutCanon (o.map f) := by
  intro x e
  obtain ⟨t, ht, rfl⟩ := Option.map_eq_some_iff.mp e
  exact hf t (h t ht)

end OptOutCanon

namespace Op.Canon

variable {α β : Type} {x y : Op α} {f : α → Op β}

theorem pure {a : α} : Op.Canon (pure a : Op α) := fun _ h => h

theorem bind (hx : Op.Canon x) (hf : ∀ a, Op.Canon (f a)) : Op.Canon (x >>= f) := by
  intro s h
  have hs := hx s h
  cases e : x s with
  | ok p =>
    rw [e] at hs
    rw [Op.bind_ok e]
    exact hf p.1 p.2 hs
  | error k =>
    rw [e] at hs
    rw [Op.bind_error e]
    exact hs

theorem get {f : State → Op β} (hf : ∀ s, s.Canon → Op.Canon (f s)) : Op.Canon (get >>= f) := fun s h => hf s h s h

theorem set {t : State} (h : t.Canon) : Op.Canon (set t : Op PUnit) := fun _ _ => h

theorem modify {g : State → State} (hg : ∀ s, s.Canon → (g s).Canon) : Op.Canon (modify g : Op PUnit) := hg

theorem throw {e : Stop} (h : e.Canon) : Op.Canon (throw e : Op α) := fun _ _ => h

theorem ite {c : Prop} [Decidable c] (hx : Op.Canon x) (hy : Op.Canon y) : Op.Canon (if c then x else y) := by
  split
  · exact hx
  · exact hy

/-- A word that stops at a check, or goes on behind it. -/
theorem guard {c : Prop} [Decidable c] {x : Op Unit} {f : Unit → Op β} (hx : Op.Canon x) (hf : ∀ a, Op.Canon (f a)) :
    Op.Canon (if c then x >>= f else f ()) :=
  ite (bind hx hf) (hf ())

theorem ok {s t : State} {a : α} (hx : Op.Canon x) (h : s.Canon) (e : x s = .ok (a, t)) : t.Canon := by
  have := hx s h
  rwa [e] at this

theorem error {s : State} {k : Stop} (hx : Op.Canon x) (h : s.Canon) (e : x s = .error k) : k.Canon := by
  have := hx s h
  rwa [e] at this

theorem trapIn {s t : State} {k : Trap} (hx : Op.Canon x) (h : s.Canon) (e : x s = .error (.trapIn t k)) : t.Canon := hx.error h e

theorem note {s : State} {n : Note} (hx : Op.Canon x) (h : s.Canon) (e : x s = .error (.stall n)) : n.Canon := hx.error h e

theorem acted {s t : State} (hx : Op.Canon x) (h : s.Canon) (e : x s = .error (.stall (.acted t))) : t.Canon := hx.error h e

theorem mapM {g : β → Op α} (hg : ∀ b, Op.Canon (g b)) (l : List β) : Op.Canon (l.mapM g) := by
  induction l with
  | nil => exact pure
  | cons b l ih =>
    rw [List.mapM_cons]
    exact bind (hg b) fun _ => bind ih fun _ => pure

theorem forM {g : β → Op PUnit} (hg : ∀ b, Op.Canon (g b)) (l : List β) : Op.Canon (l.forM g) := by
  induction l with
  | nil => exact pure
  | cons b l ih => exact bind (hg b) fun _ => ih

theorem flatMapM {g : β → Op (List α)} (hg : ∀ b, Op.Canon (g b)) (l : List β) : Op.Canon (l.flatMapM g) := by
  have loop (acc : List (List α)) : Op.Canon (List.flatMapM.loop g l acc) := by
    induction l generalizing acc with
    | nil => exact pure
    | cons b l ih => exact bind (hg b) fun _ => ih _
  exact loop []

theorem foldlM {g : α → β → Op α} (hg : ∀ a b, Op.Canon (g a b)) {a : α} (l : List β) : Op.Canon (l.foldlM g a) := by
  induction l generalizing a with
  | nil => exact pure
  | cons b l ih => exact bind (hg a b) fun _ => ih

theorem forIn {g : β → α → Op (ForInStep α)} (hg : ∀ b a, Op.Canon (g b a)) {a : α} (l : List β) :
    Op.Canon (forIn l a g) := by
  induction l generalizing a with
  | nil => exact pure
  | cons b l ih =>
    rw [List.forIn_cons]
    refine bind (hg b a) fun r => ?_
    cases r with
    | done _ => exact pure
    | yield _ => exact ih

end Op.Canon

/-! #### Physical memory: sectors, errors, versions -/

theorem State.Canon.putSector {s : State} {x : Sector} (h : s.Canon) : (s.putSector x).Canon := h

theorem State.Canon.mapStack {s : State} {k : Nat} {f : Stack → Stack} (h : s.Canon) : (s.mapStack k f).Canon := by
  unfold State.mapStack
  split
  · exact h
  · exact h

theorem State.Canon.sense {s : State} {pa : Nat} {wb : Bool} {key : Option (BitVec 512)} (h : s.Canon) :
    (s.sense pa wb key).1.Canon := by
  unfold State.sense
  extract_lets x d miss t
  have ht : t.Canon := .ite h h
  clear_value t miss
  split
  · exact h
  · split
    · exact h
    · split
      · split
        exact .ite h.mapStack.putSector h.mapStack
      · split
        split
        · exact State.Canon.putSector (.of_write ht rfl)
        · exact ht

theorem State.Canon.mergeSector {s : State} {pa : Nat} {b : List (Option Byte)} {tags : BitVec 8} {poison : Bool}
    {key : Option (BitVec 512)} {raw : Option Bool} (h : s.Canon) : (s.mergeSector pa b tags poison key raw).1.Canon := by
  unfold State.mergeSector
  extract_lets whole
  split
  next e =>
    have ht := State.Canon.of_fst e (by
      split
      · exact h
      · exact h.sense)
    extract_lets d wm
    clear_value d wm
    split
    extract_lets u
    have hu : u.Canon := ht.mapStack
    clear_value u
    exact State.Canon.putSector (.of_write hu rfl)

theorem State.Canon.corrAt {s : State} {pa : Nat} (h : s.Canon) : (s.corrAt pa).Canon := by
  unfold State.corrAt
  split
  · exact h
  · exact h

/-- What a recursion on a number answers with keeps a property that each of its steps keeps. -/
theorem brecOn_induction {α : Type} {F : ∀ n, Nat.below (motive := fun _ => α) n → α} {P : α → Prop} (zero : P (F 0 ⟨⟩))
    (succ : ∀ n b, P b.1 → P (F (n + 1) b)) (n : Nat) : P (Nat.brecOn n F) := by
  induction n with
  | zero => exact zero
  | succ n ih => exact succ n ⟨_, _⟩ ih

theorem State.Canon.logDetection {n : Nat} {s : State} {pa src kind : Nat} (h : s.Canon) :
    (State.logDetection n s pa src kind).Canon := by
  delta State.logDetection
  refine brecOn_induction (P := fun g : State → Nat → Nat → Nat → State => ∀ (s : State) pa src kind, s.Canon → (g s pa src kind).Canon)
    (fun _ _ _ _ h => h) ?_ n s pa src kind h
  intro f b ih s pa src kind h
  delta State.logDetection._f
  change State.Canon (match stackOf pa with | (k, la) => _)
  split
  refine .corrAt (.ite h.mapStack (.foldl h.mapStack fun _ _ h => ?_))
  split
  refine .ite h ?_
  extract_lets sa
  split
  next e =>
    have ht := State.Canon.of_fst e h.mergeSector
    exact .ite (ih _ _ _ _ ht) ht

theorem State.Canon.logError {s : State} {pa src kind : Nat} (h : s.Canon) : (s.logError pa src kind).Canon := h.logDetection

theorem State.Canon.readSector {s : State} {pa src kind : Nat} {wb : Bool} {key : Option (BitVec 512)} (h : s.Canon) :
    (s.readSector pa src kind wb key).1.Canon := by
  unfold State.readSector
  split
  next e =>
    have ht := State.Canon.of_fst e h.sense
    exact State.Canon.ite ht.logError ht

theorem State.Canon.writeSector {s : State} {pa : Nat} {b : List (Option Byte)} {tags : BitVec 8} {poison : Bool}
    {key : Option (BitVec 512)} {src : Nat} {raw : Option Bool} (h : s.Canon) :
    (s.writeSector pa b tags poison key src raw).Canon := by
  unfold State.writeSector
  split
  next e =>
    have ht := State.Canon.of_fst e h.mergeSector
    exact State.Canon.ite ht.logError ht

theorem State.Canon.putBlock {s : State} {b : VBlock} (h : s.Canon) : (s.putBlock b).Canon := h

theorem State.Canon.mapVStack {s : State} {v k : Nat} {f : VStack → VStack} (h : s.Canon) : (s.mapVStack v k f).Canon := by
  unfold State.mapVStack
  split
  · split
    · exact h
    · exact h
  · exact h

theorem State.Canon.touchBlock {s : State} {v pa : Nat} (h : s.Canon) : (s.touchBlock v pa).1.Canon :=
  State.Canon.ite h.putBlock.mapVStack h.putBlock

theorem State.Canon.copyBlock {s : State} {src dst source : Nat} (h : s.Canon) : (s.copyBlock src dst source).Canon := by
  unfold State.copyBlock
  refine h.foldl fun _ _ ht => ?_
  split
  next e => exact State.Canon.putSector (State.Canon.of_fst e ht.readSector).write

theorem State.Canon.routeRead {s : State} {pa : Nat} (h : s.Canon) : (s.routeRead pa).1.Canon := by
  unfold State.routeRead
  extract_lets p
  cases s.regionAt p with
  | none => exact h
  | some v => exact h.touchBlock

theorem State.Canon.routeWrite {s : State} {pa : Nat} {g : Agent} {red whole : Bool} (h : s.Canon) :
    (s.routeWrite pa g red whole).1.Canon := by
  unfold State.routeWrite
  extract_lets p
  cases s.regionAt p with
  | none => exact h
  | some v =>
    have hb : (s.touchBlock v p).1.Canon := h.touchBlock
    exact State.Canon.ite_fst h (State.Canon.ite_fst hb (State.Canon.putBlock (.ite hb hb.copyBlock)))

theorem State.Canon.roundOut {s : State} {a : RedAcc} (h : s.Canon) : (s.roundOut a).Canon :=
  State.Canon.ite (State.Canon.writeSector h) h.write

theorem State.Canon.settle {s : State} {ga n : Nat} {g : Agent} (h : s.Canon) : (s.settle ga n g).Canon :=
  h.foldl fun _ _ ht => ht.roundOut

theorem State.Canon.physRead {s : State} {ga n : Nat} {g : Agent} {kind : Nat} (h : s.Canon) :
    (s.physRead ga n g kind).1.Canon := by
  unfold State.physRead
  refine State.Canon.ite_fst h.settle (h.settle.foldl_fst fun _ _ ht => ?_)
  split
  · split
    next e => exact State.Canon.of_fst e ht.routeRead
    next e =>
      have hu := State.Canon.of_fst e ht.routeRead
      split
      next e' => exact State.Canon.of_fst e' hu.readSector

theorem State.Canon.physWrite {s : State} {ga : Nat} {d : List Byte} {g : Agent} {whole : Bool} {tags bad : List Nat}
    (h : s.Canon) : (s.physWrite ga d g whole tags bad).1.Canon := by
  unfold State.physWrite
  refine State.Canon.ite_fst h.settle.write (State.Canon.ite_fst h.settle.write (h.settle.foldl_fst fun _ _ ht => ?_))
  split
  · split
    next e => exact State.Canon.of_fst e ht.routeWrite
    next e => exact (State.Canon.of_fst e ht.routeWrite).writeSector

/-! #### Results, faults and waiting -/

theorem Op.Canon.stall {α : Type} : (Machine.stall : Op α).Canon := .throw trivial

theorem Op.Canon.stallBlocked {α : Type} : (stallBlocked : Op α).Canon := .throw trivial

theorem Op.Canon.trapWith {α : Type} {c : Cause} {faddr finfo : Nat} : (trapWith c faddr finfo : Op α).Canon := .throw trivial

theorem Op.Canon.trap {α : Type} {c : Cause} : (trap c : Op α).Canon := .trapWith

theorem Op.Canon.trapKeep {α : Type} {c : Cause} {faddr finfo : Nat} : (trapKeep c faddr finfo : Op α).Canon :=
  .get fun _ ht => .throw ht

theorem Op.Canon.trapIf {b : Bool} {c : Cause} : (trapIf b c).Canon := .ite .trap .pure

theorem Op.Canon.stallIf {b : Bool} : (stallIf b).Canon := .ite .stall .pure

theorem State.Canon.mapCore {s : State} {f : Core → Core} (h : s.Canon) : (s.mapCore f).Canon := h

theorem State.Canon.mapTask {s : State} {f : Task → Task} (h : s.Canon) : (s.mapTask f).Canon := h

theorem State.Canon.mapCtl {s : State} {f : Ctl → Ctl} (h : s.Canon) : (s.mapCtl f).Canon := h.mapTask

theorem State.Canon.advance {s : State} (h : s.Canon) : s.advance.Canon := h.mapCtl

theorem State.Canon.mapVec {s : State} {f : Vec → Vec} (h : s.Canon) : (s.mapVec f).Canon := h.mapCore

theorem State.Canon.mapMtx {s : State} {f : Mtx → Mtx} (h : s.Canon) : (s.mapMtx f).Canon := h.mapCore

theorem State.Canon.mapCpy {s : State} {f : Cpy → Cpy} (h : s.Canon) : (s.mapCpy f).Canon := h.mapCore

theorem State.Canon.mapDie {s : State} {d : Nat} {f : Die → Die} (h : s.Canon) : (s.mapDie d f).Canon := h

theorem State.Canon.mapAstro {s : State} {f : Astro → Astro} (h : s.Canon) : (s.mapAstro f).Canon := h.mapDie

theorem State.Canon.mapStrm {s : State} {k : Strm} {f : Strm32 → Strm32} (h : s.Canon) : (s.mapStrm k f).Canon := by
  unfold State.mapStrm
  split
  · exact h
  · exact h.mapVec
  · exact h.mapMtx
  · exact h.mapCpy
  · exact h.mapAstro

theorem State.Canon.mapJobAt {s : State} {n : Nat} {f : Job → Job} (h : s.Canon) : (s.mapJobAt n f).Canon := h

theorem State.Canon.mapJob {s : State} {f : Job → Job} (h : s.Canon) : (s.mapJob f).Canon := by
  unfold State.mapJob
  split
  · exact h.mapJobAt
  · exact h

theorem State.Canon.focus {s : State} {n : Nat} (h : s.Canon) : (s.focus n).Canon := State.Canon.ite h h

theorem State.Canon.mapCoreAt {s : State} {n : Nat} {f : Core → Core} (h : s.Canon) : (s.mapCoreAt n f).Canon :=
  State.Canon.ite h.mapCore h

theorem State.Canon.eachCore {s : State} {f : Core → Core} (h : s.Canon) : (s.eachCore f).Canon :=
  h.mapCore.foldl fun _ _ ht => ht.mapCoreAt

theorem State.Canon.onCore {s : State} {n : Nat} {f : State → State} (h : s.Canon) (hf : ∀ t : State, t.Canon → (f t).Canon) :
    (s.onCore n f).Canon :=
  (hf _ h.focus).focus

theorem State.Canon.stopCore {s : State} {e : Eng} {t : Trap} (h : s.Canon) : (s.stopCore e t).Canon := by
  unfold State.stopCore
  split
  · exact h.mapCore
  · exact State.Canon.ite h (State.Canon.ite h.mapCore (State.Canon.ite h.mapCore h))

theorem State.Canon.stopAstro {s : State} {t : Trap} (h : s.Canon) : (s.stopAstro t).Canon := h.mapAstro

theorem State.Canon.takeFault {s : State} {k : Strm} {t : Trap} (h : s.Canon) : (s.takeFault k t).Canon := by
  unfold State.takeFault
  split
  · exact h.stopAstro
  · exact h.stopCore

theorem State.Canon.block {s : State} {k : Strm} (h : s.Canon) : (s.block k).Canon := by
  unfold State.block
  split
  · exact h
  · exact h.mapCore

theorem State.Canon.leave {s : State} {k : Strm} {x : Note} (h : s.Canon) (hx : x.Canon) : (s.leave k x).Canon := by
  unfold State.leave
  split
  · exact h
  · exact h.block
  · exact h.mapDie
  · exact h.mapCore
  · exact hx
  · exact State.Canon.ite h h

theorem Op.Canon.queueRoom {e : Eng} : (queueRoom e).Canon := .get fun _ _ => .stallIf

theorem Op.Canon.runOp {k : Strm} {op : Op Unit} {s : State} (hop : op.Canon) (h : s.Canon) : (runOp k op s).Canon := by
  unfold Machine.runOp
  split
  next e => exact .next (Op.Canon.ok hop h e)
  next e => exact .next (h.leave (Op.Canon.note hop h e))
  · exact .next h.takeFault
  next e => exact .next (Op.Canon.trapIn hop h e).takeFault
  · exact .fault

theorem Op.Canon.runCtl {op : Op Unit} {s : State} (hop : op.Canon) (h : s.Canon) : (runCtl op s).Canon :=
  Op.Canon.runOp (.bind hop fun _ => .modify fun _ ht => ht.advance) h

theorem Op.Canon.needX {rs : List (BitVec 6)} : (needX rs).Canon := .get fun _ _ => .ite .stall .pure

theorem Op.Canon.rdX {r : BitVec 6} : (rdX r).Canon := .bind .needX fun _ => .get fun _ _ => .pure

theorem Op.Canon.wrX {r : BitVec 6} {v : Word} : (wrX r v).Canon := .bind .needX fun _ => .modify fun _ ht => ht.mapCtl

theorem State.Canon.aluOp {d : BitVec 6} {srcs : List (BitVec 6)} {f : Ctl → Word} {s : State} (h : s.Canon) :
    (aluOp d srcs f s).Canon :=
  .ite (.next h) (.next h.mapCtl)

theorem Op.Canon.scopeOk {sc : BitVec 3} : (scopeOk sc).Canon := .get fun _ _ => .trapIf

theorem Op.Canon.nextSeq : nextSeq.Canon := .get fun _ ht => .bind (.set ht.mapTask) fun _ => .pure

/-! #### Accesses of the streams -/

theorem State.Canon.readPte {s : State} {pa src : Nat} (h : s.Canon) : (s.readPte pa src).1.Canon := by
  unfold State.readPte
  split
  next e => exact State.Canon.of_fst e h.routeRead
  next e =>
    have ht := State.Canon.of_fst e h.routeRead
    split
    next e' => exact State.Canon.of_fst e' ht.readSector

theorem State.Canon.walkReads {s : State} {src va n k : Nat} (h : s.Canon) : (s.walkReads src va n k).Canon := by
  induction n generalizing s k with
  | zero => exact h
  | succ lvl ih =>
    unfold State.walkReads
    exact State.Canon.ite h.readPte (State.Canon.ite (State.Canon.ite (h.readPte.foldl fun _ _ ht =>
      ht.readPte) h.readPte) (ih h.readPte))

theorem State.Canon.walked {s : State} {root va : Nat} (h : s.Canon) : (s.walked root va).Canon := h.walkReads

theorem State.Canon.fillCore {s : State} {core : Nat} {x : TlbEntry} (h : s.Canon) : (s.fillCore core x).Canon :=
  h.mapCoreAt.mapDie

theorem Op.Canon.checkLeaf {k : AK} {va : Nat} {x : TlbEntry} : (checkLeaf k va x).Canon :=
  .ite .trapWith (.ite (.ite .pure .trapWith) (.ite (.ite .pure .trapWith) (.ite .pure .trapWith)))

theorem Op.Canon.decideHit {k : AK} {va : Nat} {hits : List TlbEntry} : (decideHit k va hits).Canon := by
  unfold Machine.decideHit
  extract_lets
  split
  · exact .stall
  · exact .ite (.bind .checkLeaf fun _ => .pure) (.bind (.modify fun _ ht => ht.mapCore) fun _ => .trapKeep)

theorem Op.Canon.trapWalked {α : Type} {root va : Nat} {c : Cause} {faddr finfo : Nat} :
    (trapWalked root va c faddr finfo : Op α).Canon :=
  .get fun _ ht => .ite .trapWith (.bind (.set ht.walked) fun _ => .trapKeep)

theorem Op.Canon.keeping {α : Type} {st : Strm} {m : Op α} (hm : m.Canon) : (keeping st m).Canon := by
  intro s h
  have hr := hm s h
  unfold Machine.keeping
  split
  next => exact h
  next e => exact h.leave (hm.note h e)
  next => exact hr

theorem Op.Canon.translate {k : AK} {va : Nat} : (translate k va).Canon := by
  unfold Machine.translate
  refine .get fun _ ht => .ite .decideHit ?_
  split
  · exact .bind (.set ht.fillCore) fun _ => .decideHit
  · split
    · exact .trapWalked
    · exact .ite .stall (.throw trivial)

theorem Op.Canon.checkObj {k : AK} {va n : Nat} {o : Obj} : (checkObj k va n o).Canon :=
  .get fun _ _ => .ite .trapWith (.ite .stall (.ite (.ite .pure .trapWith) (.ite .trapWith (.ite .pure (.ite .trapWith (.ite
    .pure .pure))))))

theorem Op.Canon.checkClass {k : AK} {va n : Nat} : (checkClass k va n).Canon :=
  .get fun _ _ => .foldlM (fun _ => fun _ => .bind .checkObj fun _ => .pure) _

theorem Op.Canon.windowFault {k : AK} {w va : Nat} : (windowFault k w va).Canon :=
  .ite .trapWith (.ite .trapWith (.ite .trapWith .pure))

theorem Op.Canon.checkHomes {k : AK} {lim : Nat} {segs : List Seg} : (checkHomes k lim segs).Canon := by
  unfold Machine.checkHomes
  refine .get fun _ _ => ?_
  split
  · exact .trapWith
  · split
    · exact .ite .trapWith .pure
    · exact .pure

theorem Op.Canon.locateIn {x : Bool} {k : AK} {lim va n : Nat} {rows : List (Nat × Nat)} :
    (locateIn x k lim va n rows).Canon := by
  unfold Machine.locateIn
  refine .get fun _ _ => .ite .trap ?_
  split
  · exact .bind .windowFault fun _ => .ite .trapWith (.ite .trap .pure)
  · refine .ite .trapWith (.ite (.ite .trapWith (.ite .trapWith (.bind .checkHomes fun _ =>
      .pure))) (.ite .trapWith (.bind (.mapM (fun _ => .mapM (fun _ => ?_) _) _) fun _ => .bind .checkHomes fun _ => .pure)))
    split
    · exact .bind .translate fun _ => .pure

theorem Op.Canon.locate {k : AK} {lim va n : Nat} {rows : List (Nat × Nat)} : (locate k lim va n rows).Canon :=
  .get fun _ _ => .locateIn

theorem Op.Canon.padPlace {held : Nat → Bool} {ea : Word} {n : Nat} : (padPlace held ea n).Canon :=
  .get fun _ _ => .ite .trap (.ite .trap .pure)

theorem Op.Canon.place {st : Strm} {k : AK} {lim : Nat} {ea : Word} {n : Nat} : (place st k lim ea n).Canon := by
  unfold Machine.place
  refine .get fun _ _ => .ite .padPlace (.bind .locate fun _ => ?_)
  split
  · exact .pure
  · exact .bind .checkClass fun _ => .pure

theorem Op.Canon.placeUnder {key : Option Word} {k : AK} {lim : Nat} {ea : Word} {n : Nat} :
    (placeUnder key k lim ea n).Canon := by
  unfold Machine.placeUnder
  refine .bind .locateIn fun _ => ?_
  split
  · exact .pure
  · exact .bind .checkClass fun _ => .pure

theorem Op.Canon.record {st : Strm} {kind : AccKind} {segs : List Seg} : (record st kind segs).Canon :=
  .get fun _ ht => .ite (.throw trivial) (.set ht)

theorem Op.Canon.readSegs {st : Strm} {kind : Nat} {segs : List Seg} : (readSegs st kind segs).Canon := by
  unfold Machine.readSegs
  refine .bind (.forIn (fun _ => fun _ => .get fun _ ht => ?_) _) fun _ => .pure
  split
  next e => exact .bind (.set (State.Canon.of_fst e ht.physRead)) fun _ => .guard .trapKeep fun _ => .pure

theorem Op.Canon.readPlace {st : Strm} {n : Nat} {x : Place} : (readPlace st n x).Canon := by
  unfold Machine.readPlace
  split
  · exact .get fun _ _ => .pure
  · exact .get fun _ _ => .pure
  · refine .bind .record fun _ => .bind .readSegs fun _ => ?_
    split
    · split
      · exact .pure
      · exact .trapKeep

theorem Op.Canon.writeSegs {st : Strm} {segs : List Seg} {refused : List (Nat × Nat)} {whole : Bool} {tags bad : List Nat}
    {d : List Byte} : (writeSegs st segs refused whole tags bad d).Canon := by
  unfold Machine.writeSegs
  refine .bind .nextSeq fun _ => .bind (.forIn (fun _ => fun _ => .get fun _ ht => .ite (.bind (.set ht.mapCore) fun _ =>
    .pure) (.ite (.bind (.set ht.mapCore) fun _ => .pure) ?_)) _) fun _ => .pure
  split
  next e => exact .bind (.set (State.Canon.of_fst e ht.physWrite).mapCore) fun _ => .pure

theorem Op.Canon.writePlace {st : Strm} {d : List Byte} {x : Place} : (writePlace st d x).Canon := by
  unfold Machine.writePlace
  split
  · exact .modify fun _ ht => ht.mapCore
  · exact .pure
  · exact .bind .record fun _ => .writeSegs

/-! #### Event flags -/

theorem State.Canon.mapFlag {s : State} {f : BitVec 6} {g : Flag → Flag} (h : s.Canon) : (s.mapFlag f g).Canon := h.mapTask

theorem State.Canon.addCount {s : State} {e : Eng} {f : BitVec 6} {n : Nat} (h : s.Canon) : (s.addCount e f n).Canon :=
  State.Canon.ite h.mapFlag.stopCore h.mapFlag

theorem State.Canon.applyAdd {s : State} {a : PendAdd} (h : s.Canon) : (s.applyAdd a).Canon :=
  State.Canon.ite h.mapCore.mapFlag h.mapCore.addCount

theorem State.Canon.applyAddsFrom {s : State} {n : Nat} (h : s.Canon) : (s.applyAddsFrom n).Canon := by
  induction n generalizing s with
  | zero => exact h
  | succ k ih =>
    unfold State.applyAddsFrom
    split
    · exact ih h.applyAdd
    · exact h

theorem State.Canon.applyAdds {s : State} (h : s.Canon) : s.applyAdds.Canon := h.applyAddsFrom

theorem Op.Canon.addf {e : Eng} {f : BitVec 6} {n : Word} : (addf e f n).Canon :=
  .get fun _ _ => .ite (.guard .trap fun _ => .bind .trapIf fun _ => .bind .queueRoom fun _ => .bind .nextSeq fun _ =>
    .get fun _ ht => .ite (.bind (.set ht.mapFlag) fun _ => .bind .trapKeep fun _ => .modify fun _ hu =>
    hu.mapCore.applyAdds) (.modify fun _ hv => hv.mapCore.applyAdds)) (.bind .trapIf fun _ => .bind .queueRoom fun _ =>
    .bind .nextSeq fun _ => .get fun _ hw => .ite (.bind (.set hw.mapFlag) fun _ => .bind .trapKeep fun _ => .modify fun _ hx =>
    hx.mapCore.applyAdds) (.modify fun _ hy => hy.mapCore.applyAdds))

theorem Op.Canon.giveEntries {e : Eng} {f : BitVec 6} {aligned : Bool} {first count : Nat} :
    (giveEntries e f aligned first count).Canon :=
  .get fun _ _ => .bind .trapIf fun _ => .bind .trapIf fun _ => .bind .trapIf fun _ => .bind .trapIf fun _ =>
    .guard .stallBlocked fun _ => .modify fun _ ht => ht.mapCore

theorem Op.Canon.givePad {e : Eng} {f : BitVec 6} {ea len : Word} : (givePad e f ea len).Canon :=
  .get fun _ _ => .bind .trapIf fun _ => .bind .trapIf fun _ => .giveEntries

theorem Op.Canon.giveAccs {e : Eng} {f : BitVec 6} {first count : Nat} : (giveAccs e f first count).Canon :=
  .bind .trapIf fun _ => .giveEntries

theorem Op.Canon.waitf {e : Eng} {f : BitVec 6} {t : Word} : (waitf e f t).Canon :=
  .get fun _ _ => .bind .trapIf fun _ => .bind .trapIf fun _ => .guard .stallBlocked fun _ => .modify fun _ ht =>
    State.Canon.ite ht.mapFlag.mapCore.mapTask ht.mapFlag.mapCore

/-! #### Integer words of the control stream -/

theorem State.Canon.alu3 {d a b : BitVec 6} {f : Word → Word → Word} {s : State} (h : s.Canon) : (alu3 d a b f s).Canon := h.aluOp

theorem State.Canon.alu2 {d a : BitVec 6} {f : Word → Word} {s : State} (h : s.Canon) : (alu2 d a f s).Canon := h.aluOp

theorem State.Canon.fieldOp {d : BitVec 6} {srcs : List (BitVec 6)} {ok : Ctl → Bool} {f : Ctl → Word} {s : State} (h : s.Canon) :
    (fieldOp d srcs ok f s).Canon :=
  Op.Canon.runCtl (.bind .needX fun _ => .get fun _ _ => .bind .trapIf fun _ => .modify fun _ ht => ht.mapCtl) h

theorem State.Canon.execMovPX {p : BitVec 3} {a : BitVec 6} {s : State} (h : s.Canon) : (execMovPX p a s).Canon :=
  .ite (.next h) (.next h.mapCtl)

theorem State.Canon.execCmp {p c : BitVec 3} {a b : BitVec 6} {u : BitVec 1} {s : State} (h : s.Canon) :
    (execCmp p c a b u s).Canon :=
  .ite (.next h) (.next h.mapCtl)

theorem State.Canon.execCmpImm {p c : BitVec 3} {a : BitVec 6} {u : BitVec 1} {i : BitVec 12} {s : State} (h : s.Canon) :
    (execCmpImm p c a u i s).Canon :=
  .ite (.next h) (.next h.mapCtl)

/-! #### Branches of the control stream -/

theorem Op.Canon.jump {t : Word} : (jump t).Canon := .get fun _ _ => .bind .trapIf fun _ => .modify fun _ ht => ht.mapCtl

theorem State.Canon.execBr {o : BitVec 25} {s : State} (h : s.Canon) : (execBr o s).Canon :=
  Op.Canon.runOp (.get fun _ _ => .jump) h

theorem State.Canon.execCall {d : BitVec 6} {o : BitVec 19} {s : State} (h : s.Canon) : (execCall d o s).Canon :=
  Op.Canon.runOp (.get fun _ _ => .bind .needX fun _ => .bind .jump fun _ => .wrX) h

theorem State.Canon.execBc {p : BitVec 3} {n : BitVec 1} {o : BitVec 21} {s : State} (h : s.Canon) : (execBc p n o s).Canon :=
  Op.Canon.runOp (.get fun _ _ => .ite .jump (.modify fun _ ht => ht.advance)) h

theorem State.Canon.execLoop {a : BitVec 6} {o : BitVec 19} {s : State} (h : s.Canon) : (execLoop a o s).Canon :=
  Op.Canon.runOp (.bind .rdX fun _ => .get fun _ _ => .ite (.bind .jump fun _ => .wrX) (.bind (.modify fun _ ht =>
    ht.advance) fun _ => .wrX)) h

theorem State.Canon.execRet {a : BitVec 6} {s : State} (h : s.Canon) : (execRet a s).Canon :=
  Op.Canon.runOp (.bind .rdX fun _ => .bind .trapIf fun _ => .jump) h

theorem State.Canon.execChron {d : BitVec 6} {s : State} (h : s.Canon) : (execChron d s).Canon := .ite (.next h) (.next h.mapCtl)

theorem State.Canon.execTrap {a : BitVec 6} {c : BitVec 13} {s : State} (h : s.Canon) : (execTrap a c s).Canon :=
  Op.Canon.runOp (.bind .rdX fun _ => .get fun _ _ => .ite (.modify fun _ ht => ht.advance.stopCore) (.modify fun _ hu =>
    hu.mapCore)) h

theorem State.Canon.execEret {s : State} (h : s.Canon) : (execEret s).Canon :=
  Op.Canon.runOp (.get fun _ _ => .bind .trapIf fun _ => .jump) h

/-! #### The fetch -/

theorem State.Canon.addCode {s : State} {x : CodeLine} (h : s.Canon) : (s.addCode x).Canon := by
  have ht : State.Canon (if s.core.code.length < 512 then s
      else { s.mapCore fun c => { c with code := c.evict s.free } with free := s.free + 1 }) :=
    .ite h (h.mapCore.of_mem (s := s.mapCore fun c => { c with code := c.evict s.free }) rfl)
  exact ht.mapCore

theorem Op.Canon.codeData {st : Strm} {k : AK} {va : Nat} : (codeData st k va).Canon := by
  unfold Machine.codeData
  refine .get fun _ _ => .guard .trapWith fun _ => ?_
  split
  · exact .pure
  · refine .bind .place fun _ => ?_
    split
    · refine .get fun _ hu => ?_
      extract_lets
      split
      next e =>
        have hv := State.Canon.of_fst e hu.physRead
        exact .bind (.set hv) fun _ => .guard .trapKeep fun _ => .guard .trapKeep fun _ => .guard (.modify fun _ hw =>
          hw.addCode) fun _ => .pure
    · exact .trapWith

theorem Op.Canon.fetch4 {st : Strm} {va : Nat} : (fetch4 st va).Canon := .bind .codeData fun _ => .pure

theorem Op.Canon.skipFault {op : Op Unit} (hop : op.Canon) : (skipFault op).Canon := by
  intro s h
  have hr := hop s h
  unfold Machine.skipFault
  split
  next => exact h
  next e => exact hop.trapIn h e
  next => exact hr

theorem Op.Canon.pinResident {va : Nat} : (pinResident va).Canon :=
  .skipFault (.bind .codeData fun _ => .modify fun _ ht => ht.mapCore)

theorem Op.Canon.reloadPins : reloadPins.Canon :=
  .get fun _ _ => .bind (.forM (fun _ => .pinResident) _) fun _ => .modify fun _ ht => State.Canon.ite ht ht.mapCore

theorem Op.Canon.vecTarget {pc : Word} {lo : BitVec 32} : (vecTarget pc lo).Canon := by
  unfold Machine.vecTarget
  refine .get fun _ _ => .bind .trapIf fun _ => ?_
  split
  · exact .guard .trapWith fun _ => .modify fun _ hu => hu.mapVec
  · exact .modify fun _ hv => hv.mapVec

theorem Op.Canon.oweRange : oweRange.Canon := .get fun _ ht => .ite (.bind (.set ht.mapTask) fun _ => .trapKeep) .pure

theorem Op.Canon.fetchDecode {st : Strm} : (fetchDecode st).Canon := by
  unfold Machine.fetchDecode
  refine .get fun _ _ => .guard .trapWith fun _ => .ite (.bind .oweRange fun _ => .bind .reloadPins fun _ => .bind
    .fetch4 fun _ => .guard .vecTarget fun _ => .ite (.bind .fetch4 fun _ => ?_) (.bind .pure fun _ => ?_)) (.bind
    .fetch4 fun _ => .guard .vecTarget fun _ => .ite (.bind .fetch4 fun _ => ?_) (.bind .pure fun _ => ?_))
  all_goals
    dsimp only
    split
    · exact .pure
    · exact .get fun _ _ => .trap

theorem State.Canon.fetch {st : Strm} {s : State} (h : s.Canon) : (fetch st s).Canon := by
  unfold Machine.fetch
  split
  next e => exact .word (Op.Canon.ok .fetchDecode h e)
  next e => exact .stop (h.leave (Op.Canon.note .fetchDecode h e))
  · exact .stop h.takeFault
  next e => exact .stop (Op.Canon.trapIn .fetchDecode h e).takeFault
  · exact .stop h

theorem State.Canon.nextWord {k : Strm} {s : State} (h : s.Canon) : (nextWord k s).Canon := by
  unfold Machine.nextWord
  split
  · exact .word h
  · exact h.fetch

theorem State.Canon.keepWord {s : State} {k : Strm} {i : Instr} {t : State} (ht : t.Canon) : (s.keepWord k i t).Canon :=
  State.Canon.ite ht ht.mapCore

theorem State.Canon.execCodeFetch {k : Strm} {s : State} (h : s.Canon) : (execCodeFetch k s).Canon := by
  unfold Machine.execCodeFetch
  split
  next e => exact .next (Fetched.Canon.of_word h.fetch e)
  next e => exact .next (Fetched.Canon.of_stop h.fetch e)

/-! #### Loads, stores and reductions -/

theorem Op.Canon.needAlign {ea : Word} {n : Nat} : (needAlign ea n).Canon := .ite .pure .trapWith

theorem Op.Canon.loadAt {d : BitVec 6} {t : BitVec 3} {ea : Word} : (loadAt d t ea).Canon := by
  unfold Machine.loadAt
  refine .bind .needAlign fun _ => .bind .place fun _ => .get fun _ _ => .guard .trapWith fun _ => .guard .stall fun _ =>
    .bind .readPlace fun _ => ?_
  split
  · exact .bind .nextSeq fun _ => .modify fun _ hu => hu.mapCore
  · exact .modify fun _ hv => hv.mapCtl

theorem Op.Canon.storeAt {v : BitVec 6} {t : BitVec 3} {ea : Word} : (storeAt v t ea).Canon :=
  .bind .needAlign fun _ => .bind .place fun _ => .get fun _ _ => .guard .stall fun _ => .writePlace

theorem State.Canon.execLd {d a : BitVec 6} {t : BitVec 3} {b : BitVec 2} {o : BitVec 8} {s : State} (h : s.Canon) :
    (execLd d a t b o s).Canon :=
  Op.Canon.runCtl (.bind .needX fun _ => .get fun _ _ => .loadAt) h

theorem State.Canon.execLdIndex {d a b : BitVec 6} {t : BitVec 3} {c : BitVec 2} {s : State} (h : s.Canon) :
    (execLdIndex d a b t c s).Canon :=
  Op.Canon.runCtl (.bind .needX fun _ => .get fun _ _ => .loadAt) h

theorem State.Canon.execSt {v a : BitVec 6} {t : BitVec 3} {b : BitVec 2} {o : BitVec 8} {s : State} (h : s.Canon) :
    (execSt v a t b o s).Canon :=
  Op.Canon.runCtl (.bind .needX fun _ => .get fun _ _ => .storeAt) h

theorem State.Canon.execStIndex {v a b : BitVec 6} {t : BitVec 3} {c : BitVec 2} {s : State} (h : s.Canon) :
    (execStIndex v a b t c s).Canon :=
  Op.Canon.runCtl (.bind .needX fun _ => .get fun _ _ => .storeAt) h

theorem State.Canon.red {op : Nat} {v a : BitVec 6} {t : BitVec 4} {sc : BitVec 3} {s : State} (h : s.Canon) :
    (red op v a t sc s).Canon := by
  unfold Machine.red
  refine Op.Canon.runCtl (.bind .needX fun _ => .bind .scopeOk fun _ => .bind .trapIf fun _ => .get fun _ _ =>
    .bind .needAlign fun _ => .bind .trapIf fun _ => .bind .place fun _ => ?_) h
  split
  · exact .bind .queueRoom fun _ => .bind .record fun _ => .bind .nextSeq fun _ => .modify fun _ hu => State.Canon.mapTask hu
  · exact .trap

theorem State.Canon.spillOne {s : State} {ga ty : Nat} (h : s.Canon) : (s.spillOne ga ty).Canon := by
  unfold State.spillOne
  split
  · exact h
  · exact h

theorem State.Canon.homeRead {s : State} {ga n : Nat} {key : BitVec 8} (h : s.Canon) : (s.homeRead ga n key).1.Canon := by
  unfold State.homeRead
  refine State.Canon.ite_fst ?_ h
  extract_lets
  split
  next e => exact State.Canon.of_fst e h.readSector

theorem State.Canon.homeWrite {s : State} {ga n v : Nat} {key : BitVec 8} (h : s.Canon) : (s.homeWrite ga n v key).Canon :=
  State.Canon.ite h.writeSector h.write

theorem State.Canon.roundAll {s : State} {ga n : Nat} {key : BitVec 8} (h : s.Canon) : (s.roundAll ga n key).Canon :=
  h.foldl fun _ _ ht => ht.roundOut

theorem State.Canon.redEnter {s : State} {m : RedMsg} (h : s.Canon) : (s.redEnter m).Canon := by
  unfold State.redEnter
  refine .ite ?_ ?_
  · extract_lets t
    have ht : t.Canon := h.roundAll
    split
    next e => exact (State.Canon.of_fst e ht.homeRead).homeWrite
  · extract_lets t u _
    have ht : t.Canon := .ite h.spillOne h
    have hu : u.Canon := ht.roundAll
    split
    · exact .ite ht ht
    · split
      next e => exact (State.Canon.of_fst e hu.homeRead).of_mem rfl

theorem State.Canon.fail {s : State} {f : Failure} (h : s.Canon) : (s.fail f).Canon := h.mapTask

theorem State.Canon.execRedApply {s : State} (h : s.Canon) : (execRedApply s).Canon := by
  unfold Machine.execRedApply
  split
  · exact .next h
  · split
    · exact .next (State.Canon.ite h (State.Canon.onCore h (fun _ ht => ht.fail.applyAdds)))
    · split
      · exact .next (State.Canon.ite h (State.Canon.onCore h (fun _ ht => ht.fail.applyAdds)))
      · split
        · exact .next (State.Canon.ite h (State.Canon.onCore h (fun _ hu => hu.fail.applyAdds)))
        · exact .ite (.next (State.Canon.ite h h)) (.next (State.Canon.onCore (State.Canon.redEnter h) (fun _ hu =>
            hu.applyAdds)))

theorem State.Canon.execLoadDataReturn {s : State} (h : s.Canon) : (execLoadDataReturn s).Canon := by
  unfold Machine.execLoadDataReturn
  split
  · exact .next h
  · refine .next ?_
    split
    · exact h.mapCore.mapCtl.applyAdds
    · exact h.mapCore.applyAdds

theorem State.Canon.execWriteCompletesAtHome {s : State} (h : s.Canon) : (execWriteCompletesAtHome s).Canon := by
  unfold Machine.execWriteCompletesAtHome
  split
  · exact .next h
  · refine .next ?_
    split
    · exact h.mapCore.fail.applyAdds
    · exact h.mapCore.applyAdds

/-! #### Windows -/

theorem Op.Canon.ctlQuiet : ctlQuiet.Canon := .get fun _ _ => .ite .stall .pure

theorem Op.Canon.readRecord {ea : Word} {n : Nat} : (readRecord ea n).Canon :=
  .get fun _ _ => .guard .trapWith fun _ => .bind .place fun _ => .guard .trapWith fun _ => .readPlace

theorem Op.Canon.configure {w : Nat} {va : Word} : (configure w va).Canon :=
  .bind .needAlign fun _ => .bind .readRecord fun _ => .ite .pure (.get fun _ _ => .guard .trapWith fun _ =>
    .guard .trapWith fun _ => .guard .trapWith fun _ => .guard .trapWith fun _ => .guard .trapWith fun _ =>
    .guard .trapWith fun _ => .guard .trapWith fun _ => .ite (.bind .needAlign fun _ => .guard .trapWith fun _ =>
    .guard .trapWith fun _ => .bind .readRecord fun _ => .pure) .pure)

theorem State.Canon.setWin {s : State} {w : Nat} {x : Window} (h : s.Canon) : (s.setWin w x).Canon := h.mapTask

theorem Op.Canon.winGuard : winGuard.Canon := .get fun _ _ => .bind .trapIf fun _ => .ctlQuiet

theorem State.Canon.execWincfg {w : BitVec 4} {a : BitVec 6} {s : State} (h : s.Canon) : (execWincfg w a s).Canon :=
  Op.Canon.runCtl (.bind .needX fun _ => .bind .winGuard fun _ => .get fun _ _ => .bind .configure fun _ => .modify fun _ ht =>
    ht.setWin) h

theorem State.Canon.execWinoff {w : BitVec 4} {s : State} (h : s.Canon) : (execWinoff w s).Canon :=
  Op.Canon.runCtl (.bind .winGuard fun _ => .modify fun _ ht => ht.setWin) h

theorem State.Canon.configStep {s : State} (h : s.Canon) : s.configStep.Canon := by
  unfold State.configStep
  extract_lets
  split
  next e => exact (Op.Canon.ok .configure h e).setWin.mapCore
  next e => exact h.leave (Op.Canon.note .configure h e)
  · exact h.takeFault
  next e => exact (Op.Canon.trapIn .configure h e).takeFault
  · exact h

/-! #### Decisions and regions -/

theorem State.Canon.takeDecision {s : State} {id : Nat} {p : BitVec 128} (h : s.Canon) : (s.takeDecision id p).Canon := by
  unfold State.takeDecision
  extract_lets g t
  have ht : t.Canon := h.mapJobAt
  exact .ite ht ht

theorem State.Canon.rootDecide {s : State} {j : Job} {more : Nat} (h : s.Canon) : (s.rootDecide j more).Canon :=
  State.Canon.takeDecision (State.Canon.ite h h)

theorem State.Canon.receiveVote {s : State} {id : Nat} {p : BitVec 128} (h : s.Canon) : (s.receiveVote id p).Canon := by
  unfold State.receiveVote
  split
  · exact h
  · extract_lets old _ j t u _
    have ht : t.Canon := h.mapJobAt
    have hu : u.Canon := ht.mapJobAt
    exact .ite (.ite h h) (.ite ht (.ite ht.rootDecide hu))

theorem State.Canon.sendVote {s : State} {j : Job} {more : Nat} (h : s.Canon) : (s.sendVote j more).Canon :=
  State.Canon.ite h h.mapJobAt.receiveVote

theorem State.Canon.noteVotes {s : State} (h : s.Canon) : s.noteVotes.Canon := by
  unfold State.noteVotes
  split
  · exact h
  · exact State.Canon.ite h.mapJobAt h

theorem State.Canon.closeVote {s : State} {id : Nat} (h : s.Canon) : (s.closeVote id).Canon := by
  unfold State.closeVote
  split
  · exact h
  · exact State.Canon.ite h.sendVote.mapJobAt (State.Canon.ite h.mapJobAt h)

theorem State.Canon.preemptVote {s : State} {j : Job} (h : s.Canon) : (s.preemptVote j).Canon := State.Canon.ite h.sendVote h

theorem State.Canon.applyDecision {s : State} {j : Job} {p : BitVec 128} (h : s.Canon) : (s.applyDecision j p).Canon := by
  unfold State.applyDecision
  extract_lets t _ u clear clearC v
  have ht : t.Canon := .foldl h fun _ _ h => .foldl h fun _ _ h => h.mapVStack
  have hu : u.Canon := ht.of_mem rfl
  have hv : v.Canon := hu.mapJobAt
  exact .ite hu (.foldl hv fun _ _ h => h.mapCoreAt)

theorem State.Canon.visitBlock {s : State} {v pa : Nat} (h : s.Canon) : (s.visitBlock v pa).Canon := h.putBlock

theorem State.Canon.execVersionPassEnd {v k : BitVec 4} {s : State} (h : s.Canon) : (execVersionPassEnd v k s).Canon :=
  .next (State.Canon.ite h.mapVStack h)

theorem State.Canon.execForcedPass {v k : BitVec 4} {s : State} (h : s.Canon) : (execForcedPass v k s).Canon :=
  .ite (.next h) (.next ((h.foldl fun _ _ ht => ht.visitBlock).mapVStack))

/-! #### Jobs -/

theorem State.Canon.jobWalks {s : State} {r : BitVec 4608} {root va n : Nat} (h : s.Canon) : (s.jobWalks r root va n).Canon :=
  h.foldl fun _ _ ht => State.Canon.ite ht ht.walkReads

theorem State.Canon.jobWrite {s : State} {j : Job} {k : AK} {va : Nat} {d : List Byte} (h : s.Canon) :
    (s.jobWrite j k va d).Canon := by
  unfold State.jobWrite
  split
  · exact .error h.jobWalks
  · exact .ok (h.jobWalks.foldl_fst fun _ _ ht => ht.physWrite)

theorem State.Canon.unfork {s : State} (h : s.Canon) : s.unfork.Canon :=
  State.Canon.ite h.mapStrm.mapStrm.mapStrm.mapTask.mapAstro h.mapStrm.mapStrm.mapStrm

theorem State.Canon.saveTask {s : State} (h : s.Canon) : s.saveTask.Canon := by
  unfold State.saveTask
  have hw := @State.Canon.jobWrite
  generalize @State.jobWrite = write at hw ⊢
  as_aux_lemma =>
    split
    · exact .ok h
    · extract_lets
      split
      next e => exact .error ((hw h).of_error e)
      next e => exact .ok (State.Canon.mapTask (State.Canon.unfork (State.Canon.of_mem ((hw h).of_ok e) rfl)))

theorem State.Canon.swapTask {s : State} {t : Task} (h : s.Canon) : (s.swapTask t).Canon := h.mapCore

theorem State.Canon.slotSector {s : State} {j : Job} {ga : Nat} (h : s.Canon) : (s.slotSector j ga).1.Canon := by
  unfold State.slotSector
  split
  next e =>
    have ht := State.Canon.of_fst e h.physRead
    exact State.Canon.ite_fst (ht.of_mem rfl) ht

theorem State.Canon.slotBytes {s : State} {j : Job} {segs : List Seg} (h : s.Canon) : (s.slotBytes j segs).1.Canon := by
  unfold State.slotBytes
  split
  next e => exact State.Canon.of_fst e (h.foldl_fst fun _ _ ht => ht.foldl_fst fun _ _ hu => hu.slotSector)

theorem State.Canon.restoreTask {s : State} {t : Task} (h : s.Canon) : (s.restoreTask t).Canon := by
  unfold State.restoreTask
  split
  · exact .ok h
  · extract_lets
    split
    · exact .error h.jobWalks
    · split
      next e => exact .ok (State.Canon.of_fst e h.jobWalks.slotBytes).swapTask.mapCore

theorem State.Canon.startTask {s : State} {t : Task} (h : s.Canon) : (s.startTask t).Canon := h.swapTask.mapCore

theorem State.Canon.freeCores {s : State} {id : Nat} (h : s.Canon) : (s.freeCores id).Canon :=
  State.Canon.foldl h fun _ _ ht => ht.mapCoreAt

theorem State.Canon.childDone {s : State} {child : Nat} {p : Nat × Nat × Nat × BitVec 6} (h : s.Canon) :
    (s.childDone child p).Canon := by
  unfold State.childDone
  split
  · split
    · exact State.Canon.ite (h.mapCoreAt.onCore (fun _ ht => ht.stopCore)) h.mapCoreAt
    · exact h.mapJobAt

theorem State.Canon.leaveSpace {s : State} {id : Nat} {asid : BitVec 16} (h : s.Canon) : (s.leaveSpace id asid).Canon :=
  State.Canon.ite h (State.Canon.of_mem h.eachCore rfl)

theorem State.Canon.endOne {s : State} {id st cause src sub va : Nat} (h : s.Canon) :
    (s.endOne id st cause src sub va).Canon := by
  unfold State.endOne
  split
  · exact h
  · next j _ =>
    extract_lets t u v _ w
    have ht : t.Canon := .foldl h fun _ _ h => h.roundOut
    have hu : u.Canon := by
      have hw := ht.jobWrite (j := j) (k := .store) (va := lrCompl j.lrec) (d := j.complBytes t.chron.toNat st cause src sub va)
      unfold u
      split
      next e => exact hw.of_ok e
      next e => exact (hw.of_error e).of_mem rfl
    have hv : v.Canon := hu.closeVote.freeCores.leaveSpace
    clear_value v
    have hw : w.Canon := hv.of_mem rfl
    split
    · exact hw.childDone
    · exact hw

theorem State.Canon.endJob {s : State} {id st cause src sub va : Nat} (h : s.Canon) : (s.endJob id st cause src sub va).Canon :=
  (h.foldl fun _ _ ht => ht.endOne).endOne

theorem State.Canon.slotFail {s : State} {e : JobErr} (h : s.Canon) : (s.slotFail e).Canon := by
  unfold State.slotFail
  split
  · exact h.endJob
  · exact h

theorem State.Canon.takeTasks {s : State} {id n sp : Nat} {ts : List Task} {sched : State → State} (h : s.Canon)
    (hsched : ∀ t : State, t.Canon → (sched t).Canon) : (s.takeTasks id n sp ts sched).Canon :=
  h.onCore (fun _ ht => hsched _ ht.mapCore)

/-! #### Fork, join and flags of the control stream -/

theorem State.Canon.leaveAstro {s : State} (h : s.Canon) : s.leaveAstro.Canon := by
  unfold State.leaveAstro
  split
  · exact h.mapCoreAt
  · exact h

theorem State.Canon.startStream {s : State} {k : Strm} (h : s.Canon) : (s.startStream k).Canon := by
  unfold State.startStream
  split
  · exact h
  · exact h.mapVec
  · exact h.mapMtx
  · exact h.mapCpy
  · exact h.leaveAstro.mapAstro

theorem State.Canon.execFork {k : BitVec 4} {s : State} (h : s.Canon) : (execFork k s).Canon :=
  Op.Canon.runCtl (.bind .trapIf fun _ => .get fun _ _ => .bind .trapIf fun _ => .bind .trapIf fun _ => .guard .stall fun _ =>
    .modify fun _ ht => ht.foldl fun _ _ hu => hu.startStream) h

theorem Op.Canon.joinWait : joinWait.Canon := .get fun _ _ => .ite .stallBlocked .pure

theorem State.Canon.joinEnd {s : State} (h : s.Canon) : s.joinEnd.Canon := h.mapTask.mapCore

theorem State.Canon.passHoldings {s : State} {es : List Eng} (h : s.Canon) : (s.passHoldings es).Canon := h.mapCore.mapTask

theorem State.Canon.join {s : State} (h : s.Canon) : s.join.Canon := h.joinEnd.passHoldings.unfork

theorem State.Canon.execJoin {s : State} (h : s.Canon) : (execJoin s).Canon :=
  Op.Canon.runCtl (.bind .joinWait fun _ => .modify fun _ ht => ht.join) h

theorem Op.Canon.raiseWalkFail : raiseWalkFail.Canon := by
  unfold Machine.raiseWalkFail
  refine .get fun _ ht => ?_
  split
  · exact .pure
  · exact .bind (.set ht.mapTask) fun _ => .trapKeep

theorem Op.Canon.raiseNmFail : raiseNmFail.Canon := by
  unfold Machine.raiseNmFail
  refine .get fun _ ht => ?_
  split
  · exact .pure
  · exact .bind (.set ht.mapTask) fun _ => .trapKeep

theorem Op.Canon.walksWait : walksWait.Canon := .get fun _ _ => .guard .stall fun _ => .raiseWalkFail

theorem State.Canon.zeroDraws {s : State} (h : s.Canon) : s.zeroDraws.Canon := h.mapStrm.mapStrm.mapStrm

theorem State.Canon.txClose {s : State} (h : s.Canon) : s.txClose.Canon := h.mapTask.zeroDraws

theorem State.Canon.observe {s : State} (h : s.Canon) : s.observe.Canon :=
  State.Canon.ite h (State.Canon.ite h.mapCore (h.mapCore.foldl fun _ _ ht => ht.mapCoreAt))

theorem State.Canon.retire {s : State} (h : s.Canon) : s.retire.Canon := by
  unfold State.retire
  split
  · exact h
  · exact h.mapTask.mapJob.observe

theorem State.Canon.runTask {s : State} {t : Task} (h : s.Canon) : (s.runTask t).Canon := by
  unfold State.runTask
  refine State.Canon.ite h.startTask ?_
  split
  next e => exact (JobRes.Canon.of_ok h.restoreTask e).retire
  next e => exact (JobRes.Canon.of_error h.restoreTask e).slotFail

theorem State.Canon.syncRange {s : State} {t : Task} (h : s.Canon) : (s.syncRange t).Canon := by
  unfold State.syncRange
  refine State.Canon.ite h.mapCore.mapTask.stopCore ?_
  split
  next e => exact (JobRes.Canon.of_ok h.mapCore.restoreTask e).mapTask.stopCore
  next e => exact (JobRes.Canon.of_error h.mapCore.restoreTask e).slotFail

theorem State.Canon.arrive {s : State} (h : s.Canon) : s.arrive.Canon := by
  unfold State.arrive
  split
  · exact h
  · exact State.Canon.ite h.syncRange (State.Canon.ite h.mapCore h.mapCore)

theorem State.Canon.finishJob {s : State} {id : Nat} (h : s.Canon) : (s.finishJob id).Canon := by
  unfold State.finishJob
  refine State.Canon.ite ?_ h
  split
  · exact h.endJob
  · exact h.endJob

theorem State.Canon.goOn {s : State} (h : s.Canon) : s.goOn.Canon := by
  unfold State.goOn
  split
  · exact h.runTask
  · refine State.Canon.ite ?_ h.arrive
    extract_lets
    split
    · exact h.mapCore.finishJob
    · exact h.mapCore

theorem State.Canon.endTask {s : State} (h : s.Canon) : s.endTask.Canon := by
  unfold State.endTask
  split
  · exact h.endJob
  · exact h.passHoldings.unfork.mapTask.mapJob.noteVotes.goOn

theorem State.Canon.execRend {s : State} (h : s.Canon) : (execRend s).Canon :=
  Op.Canon.runOp (.get fun _ _ => .bind .trapIf fun _ => .bind .joinWait fun _ => .guard .stallBlocked fun _ =>
    .bind .walksWait fun _ => .bind .raiseNmFail fun _ => .modify fun _ ht => State.Canon.endTask
    (State.Canon.ite ht.joinEnd.txClose ht.joinEnd)) h

theorem State.Canon.execSsync {d a : BitVec 6} {sc : BitVec 3} {s : State} (h : s.Canon) : (execSsync d a sc s).Canon := by
  unfold Machine.execSsync
  refine Op.Canon.runOp (.bind .needX fun _ => .get fun _ _ => .bind .trapIf fun _ => .bind .scopeOk fun _ =>
    .bind .trapIf fun _ => .bind .joinWait fun _ => .bind .walksWait fun _ => .bind .raiseNmFail fun _ => .modify fun _ hu =>
    ?_) h
  extract_lets
  split
  · exact hu.joinEnd.mapCore.arrive
  · split
    next e => exact (JobRes.Canon.of_ok hu.joinEnd.mapCore.saveTask e).runTask
    next e => exact (JobRes.Canon.of_error hu.joinEnd.mapCore.saveTask e).slotFail

theorem State.Canon.execFlagcfg {f : BitVec 6} {k : BitVec 1} {c r : BitVec 2} {s : State} (h : s.Canon) :
    (execFlagcfg f k c r s).Canon :=
  Op.Canon.runCtl (.bind .ctlQuiet fun _ => .get fun _ _ => .bind .trapIf fun _ => .modify fun _ ht => ht.mapFlag) h

theorem State.Canon.execAddf {f a : BitVec 6} {s : State} (h : s.Canon) : (execAddf f a s).Canon :=
  Op.Canon.runCtl (.bind .rdX fun _ => .addf) h

theorem State.Canon.execAddfImm {f : BitVec 6} {i : BitVec 18} {s : State} (h : s.Canon) : (execAddfImm f i s).Canon :=
  Op.Canon.runCtl .addf h

theorem State.Canon.execGive {f a b : BitVec 6} {s : State} (h : s.Canon) : (execGive f a b s).Canon :=
  Op.Canon.runCtl (.bind .rdX fun _ => .bind .rdX fun _ => .givePad) h

theorem State.Canon.execGiveAcc {f : BitVec 6} {c n : BitVec 4} {s : State} (h : s.Canon) : (execGiveAcc f c n s).Canon :=
  Op.Canon.runCtl .giveAccs h

theorem State.Canon.execWaitf {f a : BitVec 6} {s : State} (h : s.Canon) : (execWaitf f a s).Canon :=
  Op.Canon.runCtl (.bind .rdX fun _ => .waitf) h

theorem State.Canon.execWaitfImm {f : BitVec 6} {i : BitVec 18} {s : State} (h : s.Canon) : (execWaitfImm f i s).Canon :=
  Op.Canon.runCtl .waitf h

/-! #### Reach walks and references -/

theorem Op.Canon.fence {d : BitVec 6} {sc : Nat} {es : List Eng} {nm array : Bool} : (fence d sc es nm array).Canon :=
  .bind .needX fun _ => .get fun _ _ => .guard (.throw trivial) fun _ => .modify fun _ ht => ht.mapCore.mapTask.mapCtl

theorem State.Canon.execMfence {d : BitVec 6} {sc e : BitVec 3} {s : State} (h : s.Canon) : (execMfence d sc e s).Canon :=
  Op.Canon.runCtl (.bind .scopeOk fun _ => .fence) h

theorem State.Canon.execNmfence {d : BitVec 6} {sc : BitVec 3} {s : State} (h : s.Canon) : (execNmfence d sc s).Canon :=
  Op.Canon.runCtl (.bind .scopeOk fun _ => .fence) h

theorem State.Canon.execNmfenceArray {d : BitVec 6} {sc : BitVec 3} {s : State} (h : s.Canon) : (execNmfenceArray d sc s).Canon :=
  Op.Canon.runCtl (.bind .trapIf fun _ => .bind .scopeOk fun _ => .fence) h

theorem State.Canon.mapObj {s : State} {va : Nat} {f : Obj → Obj} (h : s.Canon) : (s.mapObj va f).Canon := h

theorem Op.Canon.validRef {v : Nat} : (validRef v).Canon := by
  unfold Machine.validRef
  refine .get fun _ _ => .guard .trapWith fun _ => ?_
  split
  · exact .trapWith
  · exact .ite .pure .trapWith

theorem State.Canon.execTokpass {a b : BitVec 6} {sc : BitVec 3} {s : State} (h : s.Canon) : (execTokpass a b sc s).Canon := by
  unfold Machine.execTokpass
  refine Op.Canon.runCtl (.bind .needX fun _ => .bind .scopeOk fun _ => .bind .trapIf fun _ => .get fun _ _ =>
    .bind .trapIf fun _ => .bind .trapIf fun _ => .bind .place fun _ => .get fun _ _ => ?_) h
  split
  · exact .guard .trapWith fun _ => .modify fun _ hv => hv.mapObj
  · exact .trapWith

theorem State.Canon.putMap {s : State} {j : Job} {o : Obj} (h : s.Canon) : (s.putMap j o).Canon := by
  unfold State.putMap
  extract_lets
  split
  next e => exact (JobRes.Canon.of_ok h.jobWrite e).of_mem rfl
  next e => exact JobRes.Canon.of_error h.jobWrite e

theorem State.Canon.putHeader {s : State} {j : Job} {o : Obj} (h : s.Canon) : (s.putHeader j o).Canon := h.physWrite.putMap

theorem State.Canon.execPublish {a : BitVec 6} {sc : BitVec 3} {s : State} (h : s.Canon) : (execPublish a sc s).Canon :=
  Op.Canon.runCtl (.bind .needX fun _ => .bind .trapIf fun _ => .bind .scopeOk fun _ => .get fun _ _ => .bind .trapIf fun _ =>
    .bind .validRef fun _ => .guard .trapWith fun _ => .guard .stall fun _ => .guard .stall fun _ => .modify fun _ ht =>
    ht.mapCore) h

theorem Op.Canon.taggedWords {o : Obj} : (taggedWords o).Canon := by
  unfold Machine.taggedWords
  refine .bind .place fun _ => ?_
  split
  · refine .bind .record fun _ => .bind .readSegs fun _ => ?_
    split
    · split
      · exact .trapKeep
      · exact .pure
  · exact .trapWith

theorem Op.Canon.reachSet {sc n : Nat} {l l₂ : List Nat} : (reachSet sc n l l₂).Canon := by
  induction n generalizing l l₂ with
  | zero => exact .pure
  | succ k ih =>
    cases l with
    | nil => exact .pure
    | cons va todo =>
      unfold Machine.reachSet
      refine .get fun _ _ => ?_
      split
      · exact ih
      · refine .bind .taggedWords fun _ => .get fun _ _ => ?_
        split
        · exact .trapKeep
        · exact ih

theorem State.Canon.markSet {s : State} {sc : Nat} {set : List Nat} (h : s.Canon) : (s.markSet sc set).Canon := by
  unfold State.markSet
  split
  · exact h
  · refine State.Canon.mapTask (h.foldl fun _ _ ht => ?_)
    extract_lets
    split
    · exact ht.mapObj.putHeader
    · exact ht.mapObj

theorem State.Canon.execReachWalkComplete {s : State} (h : s.Canon) : (execReachWalkComplete s).Canon := by
  unfold Machine.execReachWalkComplete
  split
  · exact .next h
  · split
    next e => exact .next (Op.Canon.ok .reachSet h e).markSet.mapCore
    next e => exact .next (h.leave (Op.Canon.note .reachSet h e))
    · exact .next h.mapCore.mapTask
    next e => exact .next (Op.Canon.trapIn .reachSet h e).mapCore.mapTask
    · exact .fault

theorem State.Canon.execPubwait {d : BitVec 6} {s : State} (h : s.Canon) : (execPubwait d s).Canon :=
  Op.Canon.runCtl (.bind .needX fun _ => .bind .walksWait fun _ => .modify fun _ ht => ht.mapCtl.mapTask) h

theorem Op.Canon.refPlace {ea : Word} : (refPlace ea).Canon := by
  unfold Machine.refPlace
  refine .bind .needAlign fun _ => .bind .trapIf fun _ => .bind .place fun _ => ?_
  split
  · exact .pure
  · exact .trap

theorem Op.Canon.refCheck {ea v : Nat} : (refCheck ea v).Canon :=
  .ite (.bind .validRef fun _ => .get fun _ _ => .ite .trapWith .pure) .pure

theorem Op.Canon.refWrite {segs : List Seg} {refused : List (Nat × Nat)} {v : List Byte} {tag : Bool} :
    (refWrite segs refused v tag).Canon :=
  .bind .record fun _ => .writeSegs

theorem State.Canon.execStref {v a : BitVec 6} {o : BitVec 13} {s : State} (h : s.Canon) : (execStref v a o s).Canon := by
  unfold Machine.execStref
  refine Op.Canon.runCtl (.bind .needX fun _ => .get fun _ _ => .bind .refPlace fun _ => ?_) h
  split
  · exact .guard .stall fun _ => .bind .refCheck fun _ => .refWrite

theorem State.Canon.execReftag {a : BitVec 6} {o : BitVec 13} {s : State} (h : s.Canon) : (execReftag a o s).Canon := by
  unfold Machine.execReftag
  refine Op.Canon.runCtl (.bind .needX fun _ => .get fun _ _ => .bind .refPlace fun _ => ?_) h
  split
  · exact .guard .stall fun _ => .bind .readPlace fun _ => .bind .refCheck fun _ => .refWrite

theorem Op.Canon.wordKept {g : Seg} : (wordKept g).Canon := by
  unfold Machine.wordKept
  refine .get fun _ ht => ?_
  split
  next e => exact .ite .pure (.bind (.set (State.Canon.of_fst e ht.physRead)) fun _ => .pure)

theorem State.Canon.execRefclr {a : BitVec 6} {o : BitVec 13} {s : State} (h : s.Canon) : (execRefclr a o s).Canon := by
  unfold Machine.execRefclr
  refine Op.Canon.runCtl (.bind .needX fun _ => .get fun _ _ => .bind .refPlace fun _ => ?_) h
  split
  · exact .guard .stall fun _ => .bind (.flatMapM (fun _ => .wordKept) _) fun _ => .refWrite

theorem State.Canon.execObjinit {a b : BitVec 6} {pc : BitVec 2} {s : State} (h : s.Canon) : (execObjinit a b pc s).Canon := by
  unfold Machine.execObjinit
  refine Op.Canon.runCtl (.bind .needX fun _ => .get fun _ _ => .guard .trapWith fun _ => .guard .trapWith fun _ =>
    .bind .walksWait fun _ => .get fun _ _ => .guard .trapWith fun _ => .bind .record fun _ => .bind .writeSegs fun _ =>
    .modify fun _ hv => ?_) h
  extract_lets
  split
  · exact State.Canon.putMap hv
  · exact hv

theorem State.Canon.execRetract {a : BitVec 6} {s : State} (h : s.Canon) : (execRetract a s).Canon :=
  Op.Canon.runCtl (.bind .needX fun _ => .get fun _ _ => .bind .validRef fun _ => .guard .trapWith fun _ =>
    .guard .trapWith fun _ => .modify fun _ ht => ht.mapObj) h

/-! #### Barriers -/

theorem State.Canon.replaceObj {s : State} {j : Job} {o p : Obj} (h : s.Canon) : (s.replaceObj j o p).Canon :=
  State.Canon.ite h (State.Canon.putHeader h)

theorem State.Canon.releaseObj {s : State} {j : Job} {sc : Nat} {ts : List Task} {o : Obj} (h : s.Canon) :
    (s.releaseObj j sc ts o).Canon := by
  unfold State.releaseObj
  refine State.Canon.ite h ?_
  split
  · exact h.replaceObj
  · exact h.replaceObj

theorem State.Canon.releaseObjs {s : State} {j : Job} {sc : Nat} {ts : List Task} (h : s.Canon) : (s.releaseObjs j sc ts).Canon :=
  h.foldl fun _ _ ht => ht.releaseObj

theorem State.Canon.release {s : State} {id : Nat} {a : Arrival} {b : Nat} {cs : List Core} {r : RemoteArrivals} (h : s.Canon) :
    (s.release id a b cs r).Canon := by
  unfold State.release
  split
  · exact h
  · extract_lets conf live t u v
    have hu : u.Canon := h.releaseObjs.foldl fun _ _ ht => ht.mapCoreAt
    clear_value u
    have hv : v.Canon := .ite hu hu
    clear_value v
    split
    · exact .ite hv hv
    · exact hv

theorem State.Canon.mismatch {s : State} {cs : List Core} (h : s.Canon) : (s.mismatch cs).Canon := by
  unfold State.mismatch
  refine h.foldl fun _ _ ht => ht.onCore (fun _ hu => ?_)
  split
  · exact hu.syncRange
  · exact hu

theorem State.Canon.network {s : State} {id core : Nat} {r : RemoteArrivals} (h : s.Canon) : OptCanon (s.network id core r) := by
  unfold State.network
  split
  · exact .none
  · split
    · split
      · exact .none
      · exact .some h.mismatch
      · exact .ite (.some h.release) .none
      · refine .ite (.some h.mismatch) ?_
        split
        · exact .ite .none (.some h.release)
        · exact .some h.mismatch
        · exact .none

theorem State.Canon.answered {s : State} {id sc : Nat} {r : RemoteArrivals} (h : s.Canon) : OptCanon (s.answered id sc r) :=
  .findSome (fun _ => h.network)

theorem State.Canon.execBarrierRelease {sc : BitVec 3} {job : BitVec 16} {r : RemoteArrivals} {s : State} (h : s.Canon) :
    (execBarrierRelease sc job r s).Canon :=
  .next (State.Canon.getD h h.answered)

theorem State.Canon.saveAll {s : State} (h : s.Canon) : s.saveAll.Canon := by
  unfold State.saveAll
  refine State.Canon.ite ?_ h.passHoldings.mapCore
  split
  next e => exact JobRes.Canon.of_ok h.passHoldings.mapCore.saveTask e
  next e => exact (JobRes.Canon.of_error h.passHoldings.mapCore.saveTask e).slotFail

theorem State.Canon.takeBoundary {s : State} {j : Job} (h : s.Canon) : (s.takeBoundary j).Canon :=
  State.Canon.ite (h.preemptVote.foldl fun _ _ ht => ht.onCore (fun _ hu => hu.saveAll)) (((h.preemptVote.foldl fun _ _ hv =>
    hv.onCore (fun _ hw => hw.saveAll)).mapJobAt).freeCores)

theorem State.Canon.endSync {s : State} {conf : Option (Nat × Nat)} (h : s.Canon) : (s.endSync conf).Canon := by
  unfold State.endSync
  split
  · exact h.retire
  · exact h.mapTask.mapJob.stopCore

theorem State.Canon.endExchange {s : State} (h : s.Canon) : s.endExchange.Canon := by
  unfold State.endExchange
  extract_lets conf t u saved
  have hu : u.Canon := h.passHoldings.unfork.mapCore
  clear_value u
  have hsaved : saved.Canon := by
    unfold saved
    split
    · exact hu.saveTask
    · exact .ok hu
  clear_value saved
  split
  · exact hu
  next first _ _ =>
    refine .ite hu.endSync ?_
    split
    · cases hsaved with
      | error ht => exact State.Canon.slotFail ht
    · cases hsaved with
      | ok ht =>
        have hr := ht.restoreTask (t := first)
        split
        next e => exact State.Canon.slotFail (hr.of_error e)
        next e => exact (hr.of_ok e).endSync

theorem State.Canon.execExchangeEnd {s : State} (h : s.Canon) : (execExchangeEnd s).Canon := by
  unfold Machine.execExchangeEnd
  refine .ite (.next h) ?_
  split
  · exact .next h
  · exact .ite (.next h.endExchange) (.ite (.next h.takeBoundary) (.next h))

/-! #### Fault frames -/

theorem State.Canon.writeFrame {s : State} {r : StopRec} (h : s.Canon) : (s.writeFrame r).Canon := by
  unfold State.writeFrame
  have hw := @State.Canon.physWrite
  generalize @State.physWrite = write at hw ⊢
  as_aux_lemma => exact State.Canon.mapCore (.of_mem (hw h) rfl)

theorem State.Canon.execResume {core : BitVec 8} {s : State} (h : s.Canon) : (execResume core s).Canon := by
  unfold Machine.execResume
  have hr := @State.Canon.physRead
  generalize @State.physRead = read at hr ⊢
  as_aux_lemma =>
    extract_lets n
    split
    · exact .next h
    · exact .next (State.Canon.mapCoreAt (hr h))

/-! #### The hub -/

theorem State.Canon.bindSlot {s : State} {j : Job} (h : s.Canon) : (s.bindSlot j).Canon := by
  unfold State.bindSlot
  refine State.Canon.ite h ?_
  split
  · exact h
  · exact h

theorem State.Canon.unchoose {s : State} {id : Nat} (h : s.Canon) : (s.unchoose id).Canon := State.Canon.ite h h

theorem State.Canon.admitJob {s : State} {j : Job} {cores : List Nat} (h : s.Canon) : (s.admitJob j cores).Canon :=
  (h.bindSlot.mapJobAt.unchoose.foldl fun _ _ ht => ht.takeTasks (fun _ hu => hu)).foldl fun _ _ hv => hv.onCore (fun _ hw =>
    State.Canon.ite hw hw.goOn)

theorem State.putArea_eq :
    @State.putArea = fun s pa n v => (s.physWrite (gaOf s.pkg pa) (natLe n v) (osAgent 0x600) false [] []).1 := rfl

theorem State.Canon.putArea {s : State} {pa n v : Nat} (h : s.Canon) : (s.putArea pa n v).Canon := by
  rw [State.putArea_eq]
  exact h.physWrite

theorem State.getArea_eq : @State.getArea = fun s pa n =>
    match s.physRead (gaOf s.pkg pa) n (osAgent 0x600) 0 with
    | (s, r) => (s, leNat r.data) := rfl

theorem State.Canon.getArea {s : State} {pa n : Nat} (h : s.Canon) : (s.getArea pa n).1.Canon := by
  rw [State.getArea_eq]
  have hr := @State.Canon.physRead
  generalize @State.physRead = read at hr ⊢
  as_aux_lemma => exact hr h

theorem State.Canon.unspill {s : State} {j : Job} (h : s.Canon) : (s.unspill j).Canon :=
  ((((h.foldl fun _ _ ht => ht.mapCoreAt).foldl fun _ _ hu => (hu.onCore (fun _ hv => hv.leaveAstro)).mapDie).foldl fun _ _ hw =>
    hw.putArea).unchoose).mapJobAt

theorem State.Canon.requestPreempt {s : State} {id : Nat} (h : s.Canon) : (s.requestPreempt id).Canon :=
  ((h.foldl fun _ _ ht => ht.mapCoreAt).foldl fun _ _ hu => hu.mapDie).mapJobAt

theorem State.Canon.hubTurn {s : State} {here : Bool} (h : s.Canon) : OptCanon (s.hubTurn here) := by
  unfold State.hubTurn
  split
  · exact .none
  · refine .ite (.some h.unchoose.endJob) ?_
    split
    · exact .ite (.some (State.Canon.ite h.unspill h.admitJob)) (.ite .none (.some h))
    · refine .ite .none ?_
      split
      · exact .some (State.Canon.requestPreempt h)
      · exact .ite .none (.some h)

theorem State.Canon.execJobAdmission {s : State} (h : s.Canon) : (execJobAdmission s).Canon :=
  .next (State.Canon.getD h h.hubTurn)

theorem State.Canon.execSpilledJobResume {job : BitVec 16} {s : State} (h : s.Canon) : (execSpilledJobResume job s).Canon := by
  unfold Machine.execSpilledJobResume
  refine .next ?_
  split
  · exact State.Canon.ite h.unspill h
  · exact h

theorem State.Canon.execPreemptRequest {job : BitVec 16} {s : State} (h : s.Canon) : (execPreemptRequest job s).Canon := by
  unfold Machine.execPreemptRequest
  refine .next ?_
  split
  · exact State.Canon.ite h.requestPreempt h
  · exact h

theorem State.Canon.stopJob {s : State} {j : Job} (h : s.Canon) : (s.stopJob j).Canon := by
  unfold State.stopJob
  refine (h.preemptVote.foldl fun _ _ ht => ht.onCore (fun _ hu => ?_)).foldl fun _ _ hv => ?_
  · split
    · exact hu.stopCore
    · exact hu.mapCore
  · split
    · exact State.Canon.ite (hv.onCore (fun _ hw => hw.stopAstro)) hv
    · exact hv

theorem State.Canon.spillJob {s : State} {j : Job} (h : s.Canon) : (s.spillJob j).Canon := by
  unfold State.spillJob
  have hg := @State.Canon.getArea
  generalize @State.getArea = get at hg ⊢
  as_aux_lemma =>
    split
    next e =>
      exact State.Canon.freeCores (State.Canon.mapJobAt (State.Canon.of_fst e (h.foldl_fst fun _ _ h => hg h)))

theorem State.Canon.execPreemptTimeout {job : BitVec 16} {s : State} (h : s.Canon) : (execPreemptTimeout job s).Canon := by
  unfold Machine.execPreemptTimeout
  refine .next ?_
  split
  · exact State.Canon.ite h (State.Canon.ite h.preemptVote.spillJob h.stopJob)
  · exact h

theorem State.Canon.execTimeLimit {job : BitVec 16} {s : State} (h : s.Canon) : (execTimeLimit job s).Canon := by
  unfold Machine.execTimeLimit
  refine .next ?_
  split
  · exact State.Canon.ite h.endJob h
  · exact h

theorem State.Canon.execEndedByTheOs {job : BitVec 16} {st cause : BitVec 8} {src : BitVec 16} {va : BitVec 64} {s : State}
    (h : s.Canon) : (execEndedByTheOs job st cause src va s).Canon := by
  unfold Machine.execEndedByTheOs
  refine .next ?_
  split
  · exact State.Canon.ite h (State.Canon.ite h.unchoose.endJob h.endJob)
  · exact h

theorem State.Canon.execFencingOffOfACore {core : BitVec 8} {s : State} (h : s.Canon) : (execFencingOffOfACore core s).Canon :=
  .next (State.Canon.foldl h fun _ _ ht => ht.endJob)

theorem State.Canon.writeOsArea {s : State} {off : Nat} {v : Word} (h : s.Canon) : (s.writeOsArea off v).Canon := by
  unfold State.writeOsArea
  split
  · exact h
  · exact h
  · exact h
  · exact h
  · exact State.Canon.ite h h

theorem State.Canon.execFirmwareStart {core : BitVec 8} {s : State} (h : s.Canon) : (execFirmwareStart core s).Canon := by
  unfold Machine.execFirmwareStart
  refine .ite (.next h) ?_
  split
  next e =>
    have ht := State.Canon.of_fst e h.physRead
    exact .ite (.next ht.mapCoreAt) (.next (State.Canon.onCore (State.Canon.takeTasks (ht.of_mem rfl) (fun _ hu =>
      hu)) (fun _ hv => hv.mapCore.goOn)))

/-! #### Transactions -/

theorem Op.Canon.txNeed {ok : List (BitVec 2)} : (txNeed ok).Canon := .get fun _ _ => .trapIf

theorem State.Canon.mapTx {s : State} {f : Tx → Tx} (h : s.Canon) : (s.mapTx f).Canon := h.mapTask

theorem State.Canon.execTxopen {s : State} (h : s.Canon) : (execTxopen s).Canon :=
  Op.Canon.runCtl (.bind .txNeed fun _ => .get fun _ _ => .bind .trapIf fun _ => .bind .trapIf fun _ => .bind .ctlQuiet fun _ =>
    .bind .stallIf fun _ => .modify fun _ ht => ht.mapTask.zeroDraws) h

theorem State.Canon.execTxvote {a b : BitVec 6} {s : State} (h : s.Canon) : (execTxvote a b s).Canon :=
  Op.Canon.runCtl (.bind .txNeed fun _ => .bind .needX fun _ => .get fun _ _ => .bind .trapIf fun _ => .bind .trapIf fun _ =>
    .bind .ctlQuiet fun _ => .modify fun _ ht => ht.mapTx.noteVotes) h

theorem State.Canon.execTxwait {d : BitVec 6} {s : State} (h : s.Canon) : (execTxwait d s).Canon := by
  unfold Machine.execTxwait
  refine Op.Canon.runCtl (.bind .txNeed fun _ => .bind .needX fun _ => .get fun _ _ => ?_) h
  split
  · exact .stall
  · exact .modify fun _ hu => hu.mapTask.mapCtl

theorem State.Canon.execTxclose {s : State} (h : s.Canon) : (execTxclose s).Canon :=
  Op.Canon.runCtl (.bind .txNeed fun _ => .get fun _ _ => .bind .trapIf fun _ => .modify fun _ ht => ht.txClose) h

theorem State.Canon.txRead {ok : List (BitVec 2)} {d : BitVec 6} {f : State → Word} {s : State} (h : s.Canon) :
    (txRead ok d f s).Canon :=
  Op.Canon.runCtl (.bind .txNeed fun _ => .bind .needX fun _ => .modify fun _ ht => ht.mapCtl) h

theorem State.Canon.execPackageVote {job : BitVec 16} {s : State} (h : s.Canon) : (execPackageVote job s).Canon := by
  unfold Machine.execPackageVote
  refine .next ?_
  split
  · exact State.Canon.ite h.sendVote h
  · exact h

theorem State.Canon.execVotePacket {p : BitVec 128} {s : State} (h : s.Canon) : (execVotePacket p s).Canon := by
  unfold Machine.execVotePacket
  refine .next ?_
  split
  · exact h.receiveVote
  · exact h

theorem State.Canon.execRootTimeout {job : BitVec 16} {s : State} (h : s.Canon) : (execRootTimeout job s).Canon := by
  unfold Machine.execRootTimeout
  refine .next ?_
  split
  · exact State.Canon.ite h.rootDecide h
  · exact h

theorem State.Canon.execDecisionPacket {p : BitVec 128} {s : State} (h : s.Canon) : (execDecisionPacket p s).Canon := by
  unfold Machine.execDecisionPacket
  refine .next ?_
  split
  · exact State.Canon.ite h (State.Canon.takeDecision (State.Canon.ite h h))
  · exact h

theorem State.Canon.execDecisionApply {job : BitVec 16} {s : State} (h : s.Canon) : (execDecisionApply job s).Canon := by
  unfold Machine.execDecisionApply
  refine .next ?_
  split
  · split
    · exact State.Canon.ite h.applyDecision h
    · exact h
  · exact h

theorem State.Canon.mapRegion {s : State} {v : Nat} {f : Region → Region} (h : s.Canon) : (s.mapRegion v f).Canon := by
  unfold State.mapRegion
  split
  · exact h
  · exact h

theorem State.Canon.execRegionDeclare {v : BitVec 4} {w : Word} {s : State} (h : s.Canon) : (execRegionDeclare v w s).Canon := by
  unfold Machine.execRegionDeclare
  refine .next ?_
  split
  · exact h
  · exact State.Canon.ite h (State.Canon.ite h.mapRegion (State.Canon.mapRegion h))

theorem State.Canon.retireBlock {s : State} {v pa : Nat} (h : s.Canon) : (s.retireBlock v pa).Canon :=
  State.Canon.ite h.copyBlock h

theorem State.Canon.execRegionRetire {v : BitVec 4} {s : State} (h : s.Canon) : (execRegionRetire v s).Canon := by
  unfold Machine.execRegionRetire
  refine .next ?_
  split
  · exact h
  · exact State.Canon.mapRegion (State.Canon.of_mem (h.foldl fun _ _ ht => ht.retireBlock) rfl)

/-! #### Translation -/

theorem State.Canon.execPageWalk {die : BitVec 2} {asid : BitVec 16} {va : BitVec 48} {s : State} (h : s.Canon) :
    (execPageWalk die asid va s).Canon := by
  unfold Machine.execPageWalk
  refine .next (State.Canon.ite h.mapDie ?_)
  split
  · exact h.mapDie
  · extract_lets
    split
    · exact State.Canon.ite h.mapDie.walkReads (h.mapDie.walkReads.mapDie.foldl fun _ _ ht => ht.fillCore)
    · exact h.mapDie.walkReads

theorem Op.Canon.xltOpen : xltOpen.Canon := .get fun _ _ => .bind .trapIf fun _ => .ctlQuiet

theorem Op.Canon.xltTurn {asid : BitVec 16} : (xltTurn asid).Canon :=
  .get fun _ ht => .ite (.ite (.throw ht.mapCore) (.set ht.mapCore)) .pure

theorem Op.Canon.asidOf {acted : Bool} {v : Word} : (asidOf acted v).Canon := by
  unfold Machine.asidOf
  refine .get fun _ _ => ?_
  split
  · split
    · extract_lets
      split
      · exact .bind .xltTurn fun _ => .pure
      · exact .bind .trap fun _ => .pure
    · extract_lets
      split
      · exact .pure
      · exact .bind .trap fun _ => .pure
  · exact .bind .trap fun _ => .pure

theorem State.Canon.shootDie {s : State} {root : Nat} {asid : BitVec 16} {va n d : Nat} (h : s.Canon) :
    (s.shootDie root asid va n d).Canon := by
  unfold State.shootDie
  split
  · exact ((h.foldl fun _ _ ht => ht.walkReads).mapDie).foldl fun _ _ hu => hu.mapCoreAt

theorem State.Canon.shoot {s : State} {root : Nat} {asid : BitVec 16} {va n : Nat} {dies : List Nat} (h : s.Canon) :
    (s.shoot root asid va n dies).Canon :=
  h.foldl fun _ _ ht => ht.shootDie

theorem Op.Canon.afterShoot {w : XltWait} : (afterShoot w).Canon := .get fun _ ht => .ite (.throw ht.mapCore) (.set ht.mapCore)

theorem Op.Canon.shootOnce {act : Op XltWait} (hact : act.Canon) : (shootOnce act).Canon := by
  unfold Machine.shootOnce
  refine .get fun _ _ => ?_
  split
  · exact .afterShoot
  · exact .bind hact fun _ => .afterShoot

theorem Op.Canon.shootOp {root : Nat} {asid : BitVec 16} {va n : Nat} {dies : List Nat} : (shootOp root asid va n dies).Canon :=
  .bind (.modify fun _ ht => ht.shoot) fun _ => .pure

theorem Op.Canon.shootScope {sc : BitVec 3} : (shootScope sc).Canon := .get fun _ _ => .bind .trapIf fun _ => .pure

theorem State.Canon.execTlbinv {a b : BitVec 6} {sc : BitVec 3} {s : State} (h : s.Canon) : (execTlbinv a b sc s).Canon := by
  unfold Machine.execTlbinv
  refine Op.Canon.runCtl (.bind .needX fun _ => .bind .xltOpen fun _ => .shootOnce (.get fun _ _ => .bind .shootScope fun _ =>
    .bind .asidOf fun _ => ?_)) h
  split
  · exact .shootOp

theorem State.Canon.execTlbinvr {c a b : BitVec 6} {sc : BitVec 3} {s : State} (h : s.Canon) :
    (execTlbinvr c a b sc s).Canon := by
  unfold Machine.execTlbinvr
  refine Op.Canon.runCtl (.bind .needX fun _ => .bind .xltOpen fun _ => .shootOnce (.get fun _ _ => .bind .shootScope fun _ =>
    .bind .asidOf fun _ => ?_)) h
  split
  · exact .bind .trapIf fun _ => .shootOp

theorem Op.Canon.pageOf {a c : BitVec 6} {acted : Bool} : (pageOf a c acted).Canon := by
  unfold Machine.pageOf
  refine .get fun _ _ => .bind .asidOf fun _ => ?_
  split
  · refine .guard .trap fun _ => ?_
    split
    · exact .guard .trapWalked fun _ => .bind (.modify fun _ hu => State.Canon.ite hu hu.walked) fun _ => .pure
    · exact .bind .trapWalked fun _ => .pure

theorem Op.Canon.withPage {α : Type} {a c : BitVec 6} {acted : Bool} {f : Page → Op α} (hf : ∀ (x : Page), (f x).Canon) :
    (withPage a c acted f).Canon :=
  .bind .pageOf fun _ => .keeping (hf _)

theorem State.Canon.writePte {s : State} {pa : Nat} {e : BitVec 64} (h : s.Canon) : (s.writePte pa e).Canon := by
  unfold State.writePte
  extract_lets
  split
  next e' => exact State.Canon.of_fst e' h.routeWrite
  next e' => exact (State.Canon.of_fst e' h.routeWrite).writeSector

theorem State.Canon.mapLeaf {s : State} {p : Page} {f : Nat → BitVec 64 → BitVec 64} (h : s.Canon) : (s.mapLeaf p f).Canon :=
  State.Canon.ite (h.foldl fun _ _ ht => ht.writePte) h.writePte

theorem Op.Canon.globalFrame {v : Word} {n : Nat} : (globalFrame v n).Canon :=
  .bind .trapIf fun _ => .bind .trapIf fun _ => .bind .trapIf fun _ => .pure

theorem Op.Canon.localFrame {v : Word} {n : Nat} : (localFrame v n).Canon := .bind .trapIf fun _ => .bind .trapIf fun _ => .pure

theorem State.Canon.copyRead {s : State} {ga source : Nat} (h : s.Canon) : (s.copyRead ga source).1.Canon := by
  unfold State.copyRead
  refine State.Canon.ite_fst h ?_
  split
  next e => exact State.Canon.of_fst e h.routeRead
  next e =>
    have ht := State.Canon.of_fst e h.routeRead
    extract_lets
    split
    next e' => exact State.Canon.of_fst e' ht.readSector

theorem State.Canon.copyWrite {s : State} {ga : Nat} {d : List Byte} {poison : Bool} {key : Option (BitVec 512)} (h : s.Canon) :
    (s.copyWrite ga d poison key).Canon :=
  State.Canon.ite h.write (State.Canon.ite h (State.Canon.putSector h.write))

theorem State.Canon.copySector {s : State} {src dst source : Nat} {key : Option (BitVec 512)} (h : s.Canon) :
    (s.copySector src dst source key).Canon := by
  unfold State.copySector
  split
  next e => exact State.Canon.of_fst e h.copyRead
  next e => exact (State.Canon.of_fst e h.copyRead).copyWrite

theorem State.Canon.copyPage {s : State} {src dst n : Nat} {key : Option (BitVec 512)} (h : s.Canon) :
    (s.copyPage src dst n key).Canon := by
  unfold State.copyPage
  dsimp only
  split
  · exact h.foldl fun _ _ h => h.copySector
  · refine .foldl ?_ fun _ _ h => h.putSector
    exact Mem.wf_foldl_set id _ (Mem.wf_erase _ _ (h.foldl fun _ _ h => h.readSector))

theorem State.Canon.demote {s : State} {p : Page} (h : s.Canon) : (s.demote p).Canon :=
  h.foldl fun _ _ ht => ht.mapDie.foldl fun _ _ hu => hu.mapCoreAt

theorem State.Canon.splitLeaf {s : State} {p : Page} {sz table : Nat} {new : Bool} (h : s.Canon) :
    (s.splitLeaf p sz table new).Canon :=
  State.Canon.ite (State.Canon.writePte (State.Canon.foldl h fun _ _ ht => ht.writePte)) h.mapLeaf

theorem State.Canon.execPgsplit {c a b : BitVec 6} {z : BitVec 3} {s : State} (h : s.Canon) : (execPgsplit c a b z s).Canon := by
  unfold Machine.execPgsplit
  refine Op.Canon.runCtl (.bind .needX fun _ => .bind .xltOpen fun _ => .withPage (fun _ => ?_)) h
  split
  · exact .trap
  · exact .get fun _ _ => .ite (.bind .localFrame fun _ => .modify fun _ ht => ht.splitLeaf.demote) (.bind (.bind
      .trapIf fun _ => .pure) fun _ => .modify fun _ hu => hu.splitLeaf.demote)

theorem State.Canon.roundPage {s : State} {ga n : Nat} (h : s.Canon) : (s.roundPage ga n).Canon :=
  h.foldl fun _ _ ht => ht.roundOut

theorem State.Canon.dupPage {s : State} {p : Page} {dst : Nat} (h : s.Canon) : (s.dupPage p dst).Canon :=
  h.roundPage.copyPage.mapLeaf.shoot

theorem State.Canon.execPgdup {c a b : BitVec 6} {s : State} (h : s.Canon) : (execPgdup c a b s).Canon :=
  Op.Canon.runCtl (.bind .needX fun _ => .bind .xltOpen fun _ => .get fun _ _ => .bind (.shootOnce (.withPage (fun _ =>
    .bind .trapIf fun _ => .bind .localFrame fun _ => .bind (.modify fun _ ht => ht.mapLeaf.shoot) fun _ => .pure))) fun _ =>
    .ite (.bind .pageOf fun _ => .bind (.modify fun _ hu => hu.dupPage) fun _ => .afterShoot) .pure) h

theorem State.Canon.execPgcoll {c a b : BitVec 6} {w : BitVec 1} {s : State} (h : s.Canon) : (execPgcoll c a b w s).Canon := by
  unfold Machine.execPgcoll
  refine Op.Canon.runCtl (.bind .needX fun _ => .bind .xltOpen fun _ => .shootOnce (.withPage (fun _ => .bind .trapIf fun _ =>
    .get fun _ _ => .bind .globalFrame fun _ => ?_))) h
  split
  · exact .bind (.modify fun _ hu => hu.mapLeaf.shoot) fun _ => .pure

theorem State.Canon.movePage {s : State} {p : Page} {pkg pa : Nat} {copy : Bool} (h : s.Canon) :
    (s.movePage p pkg pa copy).Canon := by
  unfold State.movePage
  have hc := @State.Canon.copyPage
  generalize @State.copyPage = copyPage at hc ⊢
  as_aux_lemma => exact State.Canon.mapLeaf (.ite (.of_mem (hc h) rfl) h)

theorem State.Canon.execPgmove {c a b : BitVec 6} {f : BitVec 1} {s : State} (h : s.Canon) : (execPgmove c a b f s).Canon := by
  unfold Machine.execPgmove
  refine Op.Canon.runCtl (.bind .needX fun _ => .bind .xltOpen fun _ => .get fun _ _ => .withPage (fun _ =>
    .bind (.bind .trapIf fun _ => .globalFrame) fun _ => ?_)) h
  split
  · exact .bind .trapIf fun _ => .bind (.shootOnce (.bind (.modify fun _ hu => hu.mapLeaf.shoot) fun _ => .pure)) fun _ =>
      .modify fun _ hv => hv.movePage

theorem State.Canon.execPgprot {c a b : BitVec 6} {s : State} (h : s.Canon) : (execPgprot c a b s).Canon :=
  Op.Canon.runCtl (.bind .needX fun _ => .bind .xltOpen fun _ => .shootOnce (.withPage (fun _ => .get fun _ _ =>
    .bind .trapIf fun _ => .bind (.modify fun _ ht => ht.mapLeaf.shoot) fun _ => .pure))) h

theorem State.Canon.execWalkstat {d a b : BitVec 6} {s : State} (h : s.Canon) : (execWalkstat d a b s).Canon := by
  unfold Machine.execWalkstat
  refine Op.Canon.runCtl (.bind .needX fun _ => .bind .xltOpen fun _ => .get fun _ _ => .bind .asidOf fun _ => ?_) h
  split
  · exact .modify fun _ hu => hu.walked.mapCtl

theorem State.Canon.execKeyret {a : BitVec 6} {s : State} (h : s.Canon) : (execKeyret a s).Canon :=
  Op.Canon.runCtl (.bind .needX fun _ => .bind .xltOpen fun _ => .get fun _ _ => .bind .trapIf fun _ => .modify fun _ ht =>
    State.Canon.of_mem ht.eachCore rfl) h

/-! #### System words -/

theorem Op.Canon.codeRange {a b : BitVec 6} : (codeRange a b).Canon :=
  .bind .needX fun _ => .get fun _ _ => .bind .trapIf fun _ => .pure

theorem State.Canon.execIpf {a b : BitVec 6} {l : BitVec 1} {s : State} (h : s.Canon) : (execIpf a b l s).Canon :=
  Op.Canon.runCtl (.bind .codeRange fun _ => .ite (.forM (fun _ => .skipFault (.bind .codeData fun _ => .pure)) _) .pure) h

theorem Op.Canon.pinLine {va : Nat} : (pinLine va).Canon := by
  unfold Machine.pinLine
  refine .get fun _ ht => ?_
  split
  next e => exact .bind (.set (Op.Canon.ok .place ht e).mapTask) fun _ => .pinResident
  · exact .throw ht
  next e => exact .throw (Op.Canon.error .place ht e)

theorem Op.Canon.pinLines {l : List Nat} {n : Nat} : (pinLines l n).Canon := by
  induction l generalizing n with
  | nil => exact .pure
  | cons l ls ih =>
    unfold Machine.pinLines
    exact .get fun _ _ => .ite (.bind .pinResident fun _ => ih) (.ite .pure (.bind .pinLine fun _ => ih))

theorem State.Canon.execIpin {d a b : BitVec 6} {s : State} (h : s.Canon) : (execIpin d a b s).Canon :=
  Op.Canon.runCtl (.bind .needX fun _ => .bind .codeRange fun _ => .bind .pinLines fun _ => .modify fun _ ht => ht.mapCtl) h

theorem State.Canon.execIunpin {a b : BitVec 6} {s : State} (h : s.Canon) : (execIunpin a b s).Canon :=
  Op.Canon.runCtl (.bind .needX fun _ => .get fun _ _ => .bind .trapIf fun _ => .modify fun _ ht => ht.mapCore) h

theorem Op.Canon.csrCheck {c : BitVec 12} {write : Bool} : (csrCheck c write).Canon := by
  unfold Machine.csrCheck
  refine .get fun _ _ => ?_
  split
  · exact .bind .trap fun _ => .pure
  · exact .bind .trapIf fun _ => .bind .trapIf fun _ => .pure

theorem State.Canon.execCsrr {d : BitVec 6} {c : BitVec 12} {s : State} (h : s.Canon) : (execCsrr d c s).Canon :=
  Op.Canon.runCtl (.bind .csrCheck fun _ => .bind .needX fun _ => .modify fun _ ht => ht.mapCtl) h

theorem Op.Canon.csrWriteCheck {r : Csr} {v : Word} : (csrWriteCheck r v).Canon := by
  unfold Machine.csrWriteCheck
  refine .get fun _ _ => ?_
  split
  · exact .trapIf
  · exact .trapIf
  · exact .ite .trapWith .pure
  · exact .trapIf
  · exact .trapIf
  · exact .pure

theorem State.Canon.csrSet {s : State} {r : Csr} {v : Word} (h : s.Canon) : (s.csrSet r v).Canon := by
  unfold State.csrSet
  split
  · exact h.mapCore
  · exact h.mapCore
  · exact h.mapCore
  · exact h.mapTask
  · exact h.mapTask.zeroDraws
  · exact h.mapTask
  · exact h.mapTask
  · exact h.mapJob
  · exact h.mapJob
  · exact h.mapTx
  · exact h.mapTask
  · exact h

theorem State.Canon.csrWrite {a : BitVec 6} {c : BitVec 12} {s : State} (h : s.Canon) : (csrWrite a c s).Canon :=
  Op.Canon.runCtl (.bind .csrCheck fun _ => .bind .needX fun _ => .bind .ctlQuiet fun _ => .get fun _ _ =>
    .bind .csrWriteCheck fun _ => .modify fun _ ht => ht.csrSet) h

theorem Op.Canon.readLaunch {va : Word} : (readLaunch va).Canon := by
  unfold Machine.readLaunch
  refine .get fun _ _ => .guard .trapWith fun _ => .bind .place fun _ => ?_
  split
  · refine .bind .readSegs fun _ => ?_
    split
    · split
      · exact .pure
      · exact .trapKeep
  · exact .trapWith

theorem State.Canon.enqueueChild {s : State} {p : Job} {f : BitVec 6} {va : Nat} {r : BitVec 4608} (h : s.Canon) :
    (s.enqueueChild p f va r).Canon :=
  State.Canon.mapTask h

theorem State.Canon.execLaunch {f a : BitVec 6} {s : State} (h : s.Canon) : (execLaunch f a s).Canon := by
  unfold Machine.execLaunch
  refine Op.Canon.runCtl (.bind .needX fun _ => .get fun _ _ => .bind .needAlign fun _ => .bind .trapIf fun _ =>
    .bind .trapIf fun _ => .bind .stallIf fun _ => .bind .ctlQuiet fun _ => .bind .readLaunch fun _ => .get fun _ _ =>
    .guard .trapKeep fun _ => .guard .trapKeep fun _ => ?_) h
  split
  · exact .modify fun _ hv => hv.enqueueChild
  · exact .pure

/-! #### The frame of a vector word -/

theorem Op.Canon.vecOpen {r : PfxRule} {t : BitVec 1} : (vecOpen r t).Canon := by
  unfold Machine.vecOpen
  refine .get fun _ _ => ?_
  split
  · exact .pure
  · exact .guard .trapWith fun _ => .guard .trapWith fun _ => .pure

theorem State.Canon.vecDone {s : State} {n : Nat} (h : s.Canon) : (s.vecDone n).Canon := h.mapVec

theorem Op.Canon.vecOp {r : PfxRule} {t : BitVec 1} {n : Nat} {body : VCtl → Op Unit} {s : State}
    (hbody : ∀ (x : VCtl), (body x).Canon) (h : s.Canon) : (vecOp r t n body s).Canon :=
  Op.Canon.runOp (.bind .vecOpen fun _ => .bind (hbody _) fun _ => .modify fun _ ht => ht.vecDone) h

theorem Op.Canon.needV {rs : List (BitVec 5)} : (needV rs).Canon := .get fun _ _ => .stallIf

theorem Op.Canon.needM {rs : List (BitVec 3)} : (needM rs).Canon := .get fun _ _ => .stallIf

theorem Op.Canon.needVX {rs : List (BitVec 5)} : (needVX rs).Canon := .get fun _ _ => .stallIf

theorem Op.Canon.rdVX {r : BitVec 5} : (rdVX r).Canon := .bind .needVX fun _ => .get fun _ _ => .pure

theorem Op.Canon.vecResult {ws : List RegWrite} : (vecResult ws).Canon := .bind .nextSeq fun _ => .modify fun _ ht => ht.mapVec

theorem Op.Canon.vecShape {tw : Option Nat} : (vecShape tw).Canon := .get fun _ _ => .guard .trapWith fun _ => .pure

theorem Op.Canon.vecSources {fs : List (BitVec 6 × Nat)} : (vecSources fs).Canon := by
  unfold Machine.vecSources
  refine .bind .needV fun _ => .get fun _ _ => .guard .stallBlocked fun _ => .mapM (fun _ => .get fun _ hu => ?_) _
  split
  · exact .pure
  · split
    · exact .stallBlocked
    · exact .guard .trapWith fun _ => .bind (.set hu.mapVec) fun _ => .pure

theorem Op.Canon.drawKey {ksel : Bool} : (drawKey ksel).Canon := .get fun _ _ => .ite (.bind .trapIf fun _ => .pure) .pure

theorem Op.Canon.vecDraw {ksel : Bool} {domain : Nat} : (vecDraw ksel domain).Canon :=
  .bind .drawKey fun _ => .get fun _ ht => .bind (.set ht.mapVec) fun _ => .pure

theorem Op.Canon.vecRound {c : VCtl} : (vecRound c).Canon := .ite (.bind .vecDraw fun _ => .pure) .pure

theorem Op.Canon.vecMask {c : VCtl} : (vecMask c).Canon := by
  unfold Machine.vecMask
  split
  · exact .pure
  · exact .bind .needM fun _ => .get fun _ _ => .pure

theorem Op.Canon.elementwise {r : PfxRule} {t : BitVec 1} {n : Nat} {d : BitVec 5} {tw : Option Nat} {srcs : List (BitVec 6)}
    {rounds : Bool} {pre : Nat → Op Unit} {f : VCtl → Nat → List Nat → Nat → Nat → Nat} {s : State}
    (hpre : ∀ (x : Nat), (pre x).Canon) (h : s.Canon) : (elementwise r t n d tw srcs rounds pre f s).Canon :=
  Op.Canon.vecOp (fun _ => .bind .vecShape fun _ => .bind (hpre _) fun _ => .bind .needV fun _ => .bind .vecMask fun _ =>
    .get fun _ _ => .bind .vecSources fun _ => .ite (.bind .vecRound fun _ => .vecResult) (.bind .pure fun _ => .vecResult)) h

theorem State.Canon.elementMask {r : PfxRule} {t : BitVec 1} {d : BitVec 3} {tw : Option Nat} {srcs : List (BitVec 6)}
    {f : VCtl → Nat → List Nat → Bool} {s : State} (h : s.Canon) : (elementMask r t d tw srcs f s).Canon :=
  Op.Canon.vecOp (fun _ => .bind .vecShape fun _ => .bind .needM fun _ => .bind .vecMask fun _ => .get fun _ _ =>
    .bind .vecSources fun _ => .vecResult) h

theorem State.Canon.execVectorCompletion {s : State} (h : s.Canon) : (execVectorCompletion s).Canon := by
  unfold Machine.execVectorCompletion
  split
  · exact .next h
  · exact .next h.mapVec.applyAdds

/-! #### Elementwise vector words -/

theorem State.Canon.fpOp {n : Nat} {d : BitVec 5} {srcs : List (BitVec 6)} {y : BitVec 3} {t : BitVec 1}
    {f : Bool → List Exact → Exact} {s : State} (h : s.Canon) : (fpOp n d srcs y t f s).Canon :=
  Op.Canon.elementwise (fun _ => .pure) h

theorem State.Canon.fpExact {d : BitVec 5} {srcs : List (BitVec 6)} {y : BitVec 3} {t : BitVec 1} {f : Fmt → List Nat → Nat}
    {s : State} (h : s.Canon) : (fpExact d srcs y t f s).Canon :=
  Op.Canon.elementwise (fun _ => .pure) h

theorem State.Canon.intOp {r : PfxRule} {n : Nat} {d : BitVec 5} {srcs : List (BitVec 6)} {y : BitVec 3} {t : BitVec 1}
    {f : VCtl → Nat → List Nat → Nat} {s : State} (h : s.Canon) : (intOp r n d srcs y t f s).Canon :=
  Op.Canon.elementwise (fun _ => .pure) h

theorem State.Canon.execVsel {d : BitVec 5} {a b : BitVec 6} {k : BitVec 3} {t : BitVec 1} {s : State} (h : s.Canon) :
    (execVsel d a b k t s).Canon :=
  Op.Canon.vecOp (fun _ => .bind .vecShape fun _ => .bind .needV fun _ => .bind .needM fun _ => .get fun _ _ =>
    .bind .vecSources fun _ => .vecResult) h

theorem Op.Canon.vfieldOk {o k lim : Nat} : (vfieldOk o k lim).Canon := .trapIf

theorem State.Canon.execVbfx {d : BitVec 5} {a : BitVec 6} {y : BitVec 3} {o : BitVec 6} {k : BitVec 7} {t : BitVec 1} {s : State}
    (h : s.Canon) : (execVbfx d a y o k t s).Canon :=
  Op.Canon.elementwise (fun _ => .vfieldOk) h

theorem State.Canon.execVbfi {d : BitVec 5} {a : BitVec 6} {y : BitVec 3} {o : BitVec 6} {k : BitVec 7} {t : BitVec 1} {s : State}
    (h : s.Canon) : (execVbfi d a y o k t s).Canon :=
  Op.Canon.elementwise (fun _ => .vfieldOk) h

theorem State.Canon.execVfsh {d : BitVec 5} {a b : BitVec 6} {y : BitVec 3} {o : BitVec 6} {k : BitVec 7} {t : BitVec 1}
    {s : State} (h : s.Canon) : (execVfsh d a b y o k t s).Canon :=
  Op.Canon.elementwise (fun _ => .bind .vfieldOk fun _ => .trapIf) h

theorem State.Canon.execVcvt {d : BitVec 5} {a : BitVec 6} {dt st : BitVec 5} {t : BitVec 1} {s : State} (h : s.Canon) :
    (execVcvt d a dt st t s).Canon :=
  Op.Canon.vecOp (fun _ => .get fun _ _ => .guard .trapWith fun _ => .guard .trapWith fun _ => .bind .trapIf fun _ =>
    .bind .needV fun _ => .bind .vecMask fun _ => .bind .vecSources fun _ => .bind .vecRound fun _ => .vecResult) h

theorem State.Canon.vecReduce {r : PfxRule} {d : BitVec 5} {a : BitVec 6} {w : Nat} {col t : BitVec 1} {rounds : Bool}
    {f : VCtl → List Nat → Nat → Nat} {s : State} (h : s.Canon) : (vecReduce r d a w col t rounds f s).Canon :=
  Op.Canon.vecOp (fun _ => .bind .vecShape fun _ => .bind .needV fun _ => .bind .vecMask fun _ => .get fun _ _ =>
    .bind .vecSources fun _ => .ite (.bind .vecRound fun _ => .vecResult) (.bind .pure fun _ => .vecResult)) h

theorem State.Canon.execVredsum {d : BitVec 5} {a : BitVec 6} {y : BitVec 3} {g r t : BitVec 1} {s : State} (h : s.Canon) :
    (execVredsum d a y g r t s).Canon := by
  unfold Machine.execVredsum
  split
  · exact h.vecReduce
  · exact h.vecReduce

theorem State.Canon.redBest {greater : Bool} {d : BitVec 5} {a : BitVec 6} {y : BitVec 3} {g r t : BitVec 1} {s : State}
    (h : s.Canon) : (redBest greater d a y g r t s).Canon := by
  unfold Machine.redBest
  split
  · exact h.vecReduce
  · exact h.vecReduce

theorem State.Canon.execVmov {d : BitVec 5} {a : BitVec 6} {t : BitVec 1} {s : State} (h : s.Canon) : (execVmov d a t s).Canon :=
  Op.Canon.elementwise (fun _ => .pure) h

theorem State.Canon.execVbcast {d r : BitVec 5} {t : BitVec 1} {s : State} (h : s.Canon) : (execVbcast d r t s).Canon :=
  .ite (.next h) (Op.Canon.elementwise (fun _ => .pure) h)

theorem State.Canon.execVbcastImm {d : BitVec 5} {i : BitVec 32} {sh t : BitVec 1} {s : State} (h : s.Canon) :
    (execVbcastImm d i sh t s).Canon :=
  Op.Canon.elementwise (fun _ => .pure) h

theorem State.Canon.vecLayout {d : BitVec 5} {a : BitVec 6} {t : BitVec 1} {rs : List (BitVec 5)} {square : Bool}
    {f : Vec → Nat → Nat → Nat → Nat → Nat} {s : State} (h : s.Canon) : (vecLayout d a t rs square f s).Canon :=
  Op.Canon.vecOp (fun _ => .bind .vecShape fun _ => .guard .trapWith fun _ => .bind .needV fun _ => .bind .needVX fun _ =>
    .get fun _ _ => .bind .vecSources fun _ => .vecResult) h

theorem State.Canon.execVperm {d : BitVec 5} {a b : BitVec 6} {t : BitVec 1} {s : State} (h : s.Canon) :
    (execVperm d a b t s).Canon :=
  Op.Canon.vecOp (fun _ => .bind .vecShape fun _ => .bind .needV fun _ => .get fun _ _ => .bind .vecSources fun _ => .vecResult) h

theorem State.Canon.execVshapeset {r : BitVec 7} {c : BitVec 12} {wl : BitVec 2} {t : BitVec 1} {s : State} (h : s.Canon) :
    (execVshapeset r c wl t s).Canon :=
  Op.Canon.vecOp (fun _ => .guard .trapWith fun _ => .modify fun _ ht => ht.mapTask) h

theorem State.Canon.execBnet {d : BitVec 5} {a b : BitVec 6} {p : BitVec 3} {t : BitVec 1} {s : State} (h : s.Canon) :
    (execBnet d a b p t s).Canon :=
  Op.Canon.vecOp (fun _ => .bind .needV fun _ => .get fun _ _ => .bind .vecSources fun _ => .bind (.modify fun _ ht =>
    ht) fun _ => .vecResult) h

theorem State.Canon.execBnload {a : BitVec 6} {p : BitVec 3} {t : BitVec 1} {s : State} (h : s.Canon) :
    (execBnload a p t s).Canon :=
  Op.Canon.vecOp (fun _ => .bind .vecSources fun _ => .modify fun _ ht => ht.mapTask) h

theorem State.Canon.maskOp {d : BitVec 3} {srcs : List (BitVec 3)} {t : BitVec 1} {f : List MReg → MReg} {s : State} (h : s.Canon)
    : (maskOp d srcs t f s).Canon :=
  Op.Canon.vecOp (fun _ => .bind .vecShape fun _ => .bind .needM fun _ => .get fun _ _ => .vecResult) h

theorem State.Canon.maskScalar {d : BitVec 5} {a : BitVec 3} {t : BitVec 1} {f : MReg → Nat → Word} {s : State} (h : s.Canon) :
    (maskScalar d a t f s).Canon :=
  Op.Canon.vecOp (fun _ => .bind .vecShape fun _ => .bind .needM fun _ => .bind .needVX fun _ => .get fun _ _ => .vecResult) h

/-! #### Vector memory words -/

theorem State.Canon.prefixWord {f : Pfx → Pfx} {bad : Pfx → Bool} {s : State} (h : s.Canon) : (prefixWord f bad s).Canon :=
  Op.Canon.runOp (.get fun _ _ => .guard .trapWith fun _ => .modify fun _ ht => ht.mapVec) h

theorem Op.Canon.vecRows {k : AK} {a s : BitVec 5} {o : BitVec 20} {v : BitVec 22} {act : Nat → Bool} :
    (vecRows k a s o v act).Canon :=
  .bind .needVX fun _ => .get fun _ _ => .bind (.mapM (fun _ => .bind .needAlign fun _ => .bind .place fun _ =>
    .pure) _) fun _ => .pure

theorem Op.Canon.vecMemShape {wl : BitVec 2} : (vecMemShape wl).Canon := .vecShape

theorem State.Canon.execVld {d a s : BitVec 5} {w b : BitVec 2} {o : BitVec 20} {t : BitVec 1} {u : State} (hu : u.Canon) :
    (execVld d a s w b o t u).Canon := by
  unfold Machine.execVld
  refine Op.Canon.vecOp (fun _ => .bind .vecMemShape fun _ => .bind .needV fun _ => .bind .vecMask fun _ =>
    .bind .vecRows fun _ => .bind (.mapM (fun _ => ?_) _) fun _ => .get fun _ _ => .vecResult) hu
  split
  · exact .bind .readPlace fun _ => .pure

theorem State.Canon.execVst {d a s : BitVec 5} {w b : BitVec 2} {o : BitVec 20} {t : BitVec 1} {u : State} (hu : u.Canon) :
    (execVst d a s w b o t u).Canon := by
  unfold Machine.execVst
  refine Op.Canon.vecOp (fun _ => .bind .vecMemShape fun _ => .bind .needV fun _ => .bind .vecMask fun _ =>
    .bind .vecRows fun _ => .get fun _ _ => .forM (fun _ => ?_) _) hu
  split
  · exact .writePlace

theorem Op.Canon.vecAccShape {c : BitVec 4} {row col : BitVec 6} : (vecAccShape c row col).Canon :=
  .bind .vecShape fun _ => .guard .trapWith fun _ => .bind .trapIf fun _ => .get fun _ _ => .bind .trapIf fun _ => .pure

theorem State.Canon.execVlda {d : BitVec 5} {c : BitVec 4} {r k : BitVec 6} {t : BitVec 1} {s : State} (h : s.Canon) :
    (execVlda d c r k t s).Canon :=
  Op.Canon.vecOp (fun _ => .bind .vecAccShape fun _ => .bind .needV fun _ => .bind .vecMask fun _ => .get fun _ _ => .vecResult) h

theorem State.Canon.execVsta {d : BitVec 5} {c : BitVec 4} {r k : BitVec 6} {t : BitVec 1} {s : State} (h : s.Canon) :
    (execVsta d c r k t s).Canon :=
  Op.Canon.vecOp (fun _ => .bind .vecAccShape fun _ => .bind .needV fun _ => .bind .vecMask fun _ => .get fun _ ht =>
    .set ht.mapCore) h

theorem State.Canon.vecDrawOp {d : BitVec 5} {w : Nat} {t : BitVec 1} {f : Mix → Nat} {s : State} (h : s.Canon) :
    (vecDrawOp d w t f s).Canon :=
  Op.Canon.vecOp (fun _ => .bind .vecShape fun _ => .bind .needV fun _ => .bind .vecMask fun _ => .bind .vecDraw fun _ =>
    .get fun _ _ => .vecResult) h

theorem State.Canon.execVmaskp {m : BitVec 3} {r : BitVec 5} {t : BitVec 1} {s : State} (h : s.Canon) :
    (execVmaskp m r t s).Canon :=
  Op.Canon.vecOp (fun _ => .bind .vecShape fun _ => .bind .rdVX fun _ => .bind .trapIf fun _ => .bind .needM fun _ =>
    .bind .vecMask fun _ => .bind .vecDraw fun _ => .get fun _ _ => .vecResult) h

theorem State.Canon.execVqskip {q : BitVec 3} {c : BitVec 6} {t : BitVec 1} {s : State} (h : s.Canon) :
    (execVqskip q c t s).Canon := by
  unfold Machine.execVqskip
  split
  · exact .ite (.next h.mapVec) (.next h.mapVec.block)
  · exact Op.Canon.vecOp (fun _ => .pure) h

theorem State.Canon.execVecAddf {f : BitVec 6} {a : BitVec 5} {t : BitVec 1} {s : State} (h : s.Canon) :
    (execVecAddf f a t s).Canon :=
  Op.Canon.vecOp (fun _ => .bind .rdVX fun _ => .addf) h

theorem State.Canon.execVecAddfImm {f : BitVec 6} {i : BitVec 17} {t : BitVec 1} {s : State} (h : s.Canon) :
    (execVecAddfImm f i t s).Canon :=
  Op.Canon.vecOp (fun _ => .addf) h

theorem State.Canon.execVecWaitf {f : BitVec 6} {a : BitVec 5} {t : BitVec 1} {s : State} (h : s.Canon) :
    (execVecWaitf f a t s).Canon :=
  Op.Canon.vecOp (fun _ => .bind .rdVX fun _ => .waitf) h

theorem State.Canon.execVecWaitfImm {f : BitVec 6} {i : BitVec 17} {t : BitVec 1} {s : State} (h : s.Canon) :
    (execVecWaitfImm f i t s).Canon :=
  Op.Canon.vecOp (fun _ => .waitf) h

theorem State.Canon.execVecGive {f : BitVec 6} {a b : BitVec 5} {t : BitVec 1} {s : State} (h : s.Canon) :
    (execVecGive f a b t s).Canon :=
  Op.Canon.vecOp (fun _ => .bind .rdVX fun _ => .bind .rdVX fun _ => .givePad) h

theorem State.Canon.execVecGiveAcc {f : BitVec 6} {c n : BitVec 4} {t : BitVec 1} {s : State} (h : s.Canon) :
    (execVecGiveAcc f c n t s).Canon :=
  Op.Canon.vecOp (fun _ => .giveAccs) h

theorem State.Canon.vscal {d : BitVec 5} {srcs : List (BitVec 5)} {t : BitVec 1} {n : Nat} {f : Strm32 → Word} {s : State}
    (h : s.Canon) : (vscal d srcs t n f s).Canon :=
  Op.Canon.vecOp (fun _ => .bind .needVX fun _ => .modify fun _ ht => ht.mapVec) h

theorem State.Canon.vscalCompare {p : BitVec 3} {srcs : List (BitVec 5)} {t : BitVec 1} {f : Strm32 → Bool} {s : State}
    (h : s.Canon) : (vscalCompare p srcs t f s).Canon :=
  Op.Canon.vecOp (fun _ => .bind .needVX fun _ => .modify fun _ ht => ht.mapVec) h

theorem Op.Canon.vecJump {dest : Word} : (vecJump dest).Canon :=
  .get fun _ _ => .bind .trapIf fun _ => .bind .fetch4 fun _ => .bind .trapIf fun _ => .modify fun _ ht => ht.mapVec

theorem Op.Canon.vecFall : vecFall.Canon := .modify fun _ ht => ht.vecDone

theorem State.Canon.execVscalBr {o : BitVec 24} {t : BitVec 1} {s : State} (h : s.Canon) : (execVscalBr o t s).Canon :=
  Op.Canon.runOp (.bind .vecOpen fun _ => .get fun _ _ => .vecJump) h

theorem State.Canon.execVscalBc {p : BitVec 3} {n : BitVec 1} {o : BitVec 20} {t : BitVec 1} {s : State} (h : s.Canon) :
    (execVscalBc p n o t s).Canon :=
  Op.Canon.runOp (.bind .vecOpen fun _ => .get fun _ _ => .ite .vecJump .vecFall) h

theorem State.Canon.execVscalLoop {a : BitVec 5} {o : BitVec 19} {t : BitVec 1} {s : State} (h : s.Canon) :
    (execVscalLoop a o t s).Canon :=
  Op.Canon.runOp (.bind .vecOpen fun _ => .bind .rdVX fun _ => .get fun _ _ => .ite (.bind .vecJump fun _ => .modify fun _ ht =>
    ht.mapVec) (.bind .vecFall fun _ => .modify fun _ hu => hu.mapVec)) h

theorem State.Canon.execVscalRend {t : BitVec 1} {s : State} (h : s.Canon) : (execVscalRend t s).Canon :=
  Op.Canon.vecOp (fun _ => .modify fun _ ht => ht.mapVec) h

theorem State.Canon.execVscalNop {t : BitVec 1} {s : State} (h : s.Canon) : (execVscalNop t s).Canon :=
  Op.Canon.vecOp (fun _ => .pure) h

/-! #### The frame of a 64-bit word -/

theorem Op.Canon.op64 {k : Strm} {body : Op Unit} {s : State} (hbody : body.Canon) (h : s.Canon) : (op64 k body s).Canon :=
  Op.Canon.runOp (.bind hbody fun _ => .modify fun _ ht => ht.mapStrm) h

theorem Op.Canon.rdS {k : Strm} {r : BitVec 5} : (rdS k r).Canon := .get fun _ _ => .pure

theorem State.Canon.execAddf64 {e : Eng64} {f : BitVec 6} {o : FlagSrc} {s : State} (h : s.Canon) :
    (execAddf64 e f o s).Canon := by
  unfold Machine.execAddf64
  refine Op.Canon.op64 ?_ h
  split
  · exact .bind .rdS fun _ => .addf
  · exact .bind .pure fun _ => .addf

theorem State.Canon.execWaitf64 {e : Eng64} {f : BitVec 6} {o : FlagSrc} {s : State} (h : s.Canon) :
    (execWaitf64 e f o s).Canon := by
  unfold Machine.execWaitf64
  refine Op.Canon.op64 ?_ h
  split
  · exact .bind .rdS fun _ => .waitf
  · exact .bind .pure fun _ => .waitf

theorem State.Canon.execGive64 {e : Eng64} {f : BitVec 6} {r : GiveSrc} {s : State} (h : s.Canon) :
    (execGive64 e f r s).Canon := by
  unfold Machine.execGive64
  refine Op.Canon.op64 ?_ h
  split
  · exact .bind .rdS fun _ => .bind .rdS fun _ => .givePad
  · exact .giveAccs

theorem State.Canon.scal64 {e : Strm64} {d : BitVec 5} {f : Strm32 → Word} {s : State} (h : s.Canon) : (scal64 e d f s).Canon :=
  Op.Canon.op64 (.modify fun _ ht => ht.mapStrm) h

theorem State.Canon.execScalCmp {e : Strm64} {p c : BitVec 3} {u : BitVec 1} {a : BitVec 5} {o : Opd16} {s : State} (h : s.Canon)
    : (execScalCmp e p c u a o s).Canon :=
  Op.Canon.op64 (.modify fun _ ht => ht.mapStrm) h

theorem Op.Canon.jump64 {k : Strm} {dest : Word} : (jump64 k dest).Canon :=
  .get fun _ _ => .bind .trapIf fun _ => .modify fun _ ht => ht.mapStrm

theorem Op.Canon.fall64 {k : Strm} : (fall64 k).Canon := .modify fun _ ht => ht.mapStrm

theorem State.Canon.execScalBr {e : Strm64} {o : BitVec 32} {s : State} (h : s.Canon) : (execScalBr e o s).Canon :=
  Op.Canon.runOp (.get fun _ _ => .jump64) h

theorem State.Canon.execScalBc {e : Strm64} {p : BitVec 3} {n : BitVec 1} {o : BitVec 32} {s : State} (h : s.Canon) :
    (execScalBc e p n o s).Canon :=
  Op.Canon.runOp (.get fun _ _ => .ite .jump64 .fall64) h

theorem State.Canon.execScalLoop {e : Strm64} {a : BitVec 5} {o : BitVec 32} {s : State} (h : s.Canon) :
    (execScalLoop e a o s).Canon :=
  Op.Canon.runOp (.get fun _ _ => .ite (.bind .jump64 fun _ => .modify fun _ ht => ht.mapStrm) (.bind .fall64 fun _ =>
    .modify fun _ hu => hu.mapStrm)) h

theorem State.Canon.execScalNop {e : Strm64} {s : State} (h : s.Canon) : (execScalNop e s).Canon := Op.Canon.op64 .pure h

/-! #### Stacks of memory -/

theorem State.Canon.visitAt {s : State} {pa : Nat} (h : s.Canon) : (s.visitAt pa).Canon := by
  unfold State.visitAt
  split
  · exact h
  · split
    next e => exact (State.Canon.of_fst e h.touchBlock).visitBlock

theorem State.Canon.ckptMark {s : State} {ga n : Nat} (h : s.Canon) : (s.ckptMark ga n).Canon := by
  unfold State.ckptMark
  refine State.Canon.ite h (h.foldl fun _ _ ht => ?_)
  split
  next e => exact State.Canon.of_fst e ht.routeRead
  next e =>
    have hu := State.Canon.of_fst e ht.routeRead
    split
    · exact hu.mapStack.visitAt

theorem State.Canon.execCarafeRead {pa : BitVec 41} {src : BitVec 16} {kind : BitVec 4} {key : BitVec 8} {s : State} (h : s.Canon)
    : (execCarafeRead pa src kind key s).Canon := by
  unfold Machine.execCarafeRead
  refine .next (State.Canon.ite h ?_)
  split
  next e =>
    have ht := State.Canon.of_fst e h.routeRead
    split
    · exact ht
    · split
      next e' =>
        have hu := State.Canon.of_fst e' ht.readSector
        exact State.Canon.ite hu.ckptMark hu

theorem State.Canon.execCarafeWrite {pa : BitVec 41} {src : BitVec 16} {key : BitVec 8} {mask : BitVec 64} {data : BitVec 512}
    {tags : BitVec 8} {s : State} (h : s.Canon) : (execCarafeWrite pa src key mask data tags s).Canon := by
  unfold Machine.execCarafeWrite
  refine .next (State.Canon.ite h ?_)
  split
  next e =>
    have ht := State.Canon.of_fst e h.routeWrite
    split
    · exact ht
    · exact ht.writeSector

theorem State.Canon.execWriteReachesArray {k : BitVec 4} {s : State} (h : s.Canon) : (execWriteReachesArray k s).Canon :=
  .next h.mapStack

theorem State.Canon.execScrubPeriodEnd {s : State} (h : s.Canon) : (execScrubPeriodEnd s).Canon := .next h

theorem State.Canon.execPatrolRead {k : BitVec 4} {s : State} (h : s.Canon) : (execPatrolRead k s).Canon := by
  unfold Machine.execPatrolRead
  refine .next ?_
  split
  · exact h
  · split
    · exact h
    · extract_lets pa
      split
      next e => exact (State.Canon.of_fst e h.readSector).mapStack

theorem State.Canon.execKeySlotWrite {off : BitVec 16} {v : BitVec 64} {s : State} (h : s.Canon) :
    (execKeySlotWrite off v s).Canon :=
  .next (State.Canon.ite h (State.Canon.ite h h))

theorem State.Canon.execCommandCycle {k : BitVec 4} {pair : BitVec 5} {col : Bool} {s : State} (h : s.Canon) :
    (execCommandCycle k pair col s).Canon :=
  .next h.mapStack

/-! #### Spans of the copy engine -/

theorem State.Canon.readSeg {s : State} {st : Strm} {kind p : Nat} {g : Seg} (h : s.Canon) : (s.readSeg st kind p g).1.Canon := by
  unfold State.readSeg
  split
  next e =>
    have ht := State.Canon.of_fst e h.physRead
    exact State.Canon.ite ht.ckptMark ht

theorem State.Canon.readSpan {s : State} {st : Strm} {kind p : Nat} {x : Span} (h : s.Canon) :
    (s.readSpan st kind p x).1.Canon := by
  unfold State.readSpan
  split
  · exact h
  · exact h
  · split
    next e =>
      refine State.Canon.of_fst e (h.foldl_fst fun _ _ ht => ?_)
      split
      next e' => exact State.Canon.of_fst e' ht.readSeg

theorem State.Canon.readSpans {s : State} {st : Strm} {kind p : Nat} {l : List Span} (h : s.Canon) :
    (s.readSpans st kind p l).1.Canon := by
  unfold State.readSpans
  split
  next e =>
    refine State.Canon.of_fst e (h.foldl_fst fun _ _ ht => ?_)
    split
    next e' => exact State.Canon.of_fst e' ht.readSpan

theorem State.Canon.writeSeg {s : State} {st : Strm} {seq : Nat} {refused : Bool} {bad : List (Nat × Nat)} {p : Nat} {g : Seg}
    {d : List Byte} (h : s.Canon) : (s.writeSeg st seq refused bad p g d).1.Canon := by
  unfold State.writeSeg
  refine State.Canon.ite_fst h (State.Canon.ite_fst h ?_)
  split
  next e => exact State.Canon.of_fst e h.physWrite

theorem State.Canon.writeSpan {s : State} {st : Strm} {seq : Nat} {bad : List (Nat × Nat)} {p : Nat} {d : List Byte} {x : Span}
    (h : s.Canon) : (s.writeSpan st seq bad p d x).1.Canon := by
  unfold State.writeSpan
  split
  · exact h.mapCore
  · exact h
  · split
    next e =>
      refine State.Canon.of_fst e (h.foldl_fst fun _ _ ht => ?_)
      split
      next e' => exact State.Canon.of_fst e' ht.writeSeg

theorem State.Canon.writeSpans {s : State} {st : Strm} {seq : Nat} {bad : List (Nat × Nat)} {p : Nat} {d : List Byte}
    {l : List Span} (h : s.Canon) : (s.writeSpans st seq bad p d l).1.Canon := by
  unfold State.writeSpans
  split
  next e =>
    refine State.Canon.of_fst e (h.foldl_fst fun _ _ ht => ?_)
    split
    next e' => exact State.Canon.of_fst e' ht.writeSpan

theorem Op.Canon.readable {segs : List Seg} : (readable segs).Canon := by
  unfold Machine.readable
  refine .get fun _ _ => ?_
  split
  · exact .trapWith
  · exact .pure

theorem Op.Canon.takeSource {st : Strm} {n : Nat} {p : Place} : (takeSource st n p).Canon :=
  .bind .readable fun _ => .bind .record fun _ => .pure

theorem Op.Canon.takeDest {st : Strm} {n : Nat} {p : Place} : (takeDest st n p).Canon := .bind .record fun _ => .pure

theorem Op.Canon.sourceSpan {st : Strm} {k : AK} {lim : Nat} {ea : Word} {n : Nat} : (sourceSpan st k lim ea n).Canon :=
  .bind .place fun _ => .takeSource

theorem Op.Canon.destSpan {st : Strm} {k : AK} {lim : Nat} {ea : Word} {n : Nat} : (destSpan st k lim ea n).Canon :=
  .bind .place fun _ => .takeDest

/-! #### Copy words -/

theorem Op.Canon.readNow {p : Span} : (readNow p).Canon := by
  unfold Machine.readNow
  refine .get fun _ ht => .bind .stallIf fun _ => ?_
  split
  next e =>
    have hu := State.Canon.of_fst e ht.readSpan
    refine .bind (.set hu) fun _ => ?_
    split
    · exact .pure
    · exact .trapKeep

theorem Op.Canon.copyScope {sc : BitVec 3} : (copyScope sc).Canon := .bind .trapIf fun _ => .scopeOk

theorem Op.Canon.copyLen {n : Nat} : (copyLen n).Canon := .trapIf

theorem Op.Canon.countFlag {f : Option (BitVec 6)} : (countFlag f).Canon := by
  unfold Machine.countFlag
  refine .get fun _ _ => ?_
  split
  · exact .trapIf
  · exact .pure

theorem Op.Canon.countFlags {ev : BitVec 14} : (countFlags ev).Canon := .bind .countFlag fun _ => .countFlag

theorem Op.Canon.pushXfer {x : Xfer} : (pushXfer x).Canon :=
  .bind .queueRoom fun _ => .bind .nextSeq fun _ => .modify fun _ ht => ht.mapCpy

theorem State.Canon.execCpy {sc : BitVec 3} {u : BitVec 2} {d a b : BitVec 5} {ev : BitVec 14} {k : BitVec 1} {s : State}
    (h : s.Canon) : (execCpy sc u d a b ev k s).Canon :=
  Op.Canon.op64 (.bind .rdS fun _ => .bind .rdS fun _ => .bind .rdS fun _ => .bind .copyLen fun _ => .bind .countFlags fun _ =>
    .bind .copyScope fun _ => .bind .trapIf fun _ => .bind .sourceSpan fun _ => .bind .destSpan fun _ => .pushXfer) h

theorem State.Canon.execNmirror {sc : BitVec 3} {u : BitVec 2} {d a b c : BitVec 5} {ev : BitVec 14} {s : State} (h : s.Canon) :
    (execNmirror sc u d a b c ev s).Canon :=
  Op.Canon.op64 (.bind .rdS fun _ => .bind .rdS fun _ => .bind .rdS fun _ => .bind .rdS fun _ => .bind .copyLen fun _ =>
    .bind .countFlags fun _ => .bind .copyScope fun _ => .bind .trapIf fun _ => .bind .sourceSpan fun _ =>
    .bind .destSpan fun _ => .bind .destSpan fun _ => .pushXfer) h

theorem Op.Canon.indexList {sc : BitVec 3} {ea : Word} {n : Nat} : (indexList sc ea n).Canon :=
  .bind .trapIf fun _ => .bind .needAlign fun _ => .bind .sourceSpan fun _ => .bind .readNow fun _ => .pure

theorem Op.Canon.rowLimits {cnt : Word} {w : BitVec 11} : (rowLimits cnt w).Canon := .bind .trapIf fun _ => .pure

theorem State.Canon.execGather {sc : BitVec 3} {u : BitVec 2} {d a b c : BitVec 5} {w : BitVec 11} {ev : BitVec 14} {s : State}
    (h : s.Canon) : (execGather sc u d a b c w ev s).Canon := by
  unfold Machine.execGather
  refine Op.Canon.op64 (.bind .rdS fun _ => .bind .rdS fun _ => .bind .rdS fun _ => .bind .rdS fun _ => .bind .rowLimits fun _ =>
    ?_) h
  split
  · refine .bind .countFlags fun _ => .bind .copyScope fun _ => .bind .indexList fun _ => ?_
    split
    · exact .bind (.mapM (fun _ => .sourceSpan) _) fun _ => .bind .destSpan fun _ => .pushXfer

theorem State.Canon.execScatter {sc : BitVec 3} {u : BitVec 2} {d a b c : BitVec 5} {w : BitVec 11} {ev : BitVec 14} {s : State}
    (h : s.Canon) : (execScatter sc u d a b c w ev s).Canon := by
  unfold Machine.execScatter
  refine Op.Canon.op64 (.bind .rdS fun _ => .bind .rdS fun _ => .bind .rdS fun _ => .bind .rdS fun _ => .bind .rowLimits fun _ =>
    ?_) h
  split
  · refine .bind .countFlags fun _ => .bind .copyScope fun _ => .bind .indexList fun _ => ?_
    split
    · exact .bind .sourceSpan fun _ => .bind (.mapM (fun _ => .destSpan) _) fun _ => .pushXfer

theorem State.Canon.execBind {sc : BitVec 3} {u : BitVec 2} {n : BitVec 3} {a b : BitVec 5} {w : BitVec 11} {ev : BitVec 14}
    {s : State} (h : s.Canon) : (execBind sc u n a b w ev s).Canon :=
  Op.Canon.op64 (.bind .rdS fun _ => .bind .rdS fun _ => .bind .copyLen fun _ => .bind .countFlags fun _ =>
    .bind .copyScope fun _ => .bind .sourceSpan fun _ => .pushXfer) h

theorem Op.Canon.stampedCheck {sc peer : Nat} {runs : List (Word × Nat)} {off : Nat} : (stampedCheck sc peer runs off).Canon := by
  unfold Machine.stampedCheck
  refine .get fun _ _ => ?_
  split
  · exact .trap
  · exact .bind .trapIf fun _ => .bind .trapIf fun _ => .bind .trapIf fun _ => .guard .trap fun _ => .bind .trapIf fun _ => .pure

theorem State.Canon.execCpys {sc : BitVec 3} {u : BitVec 2} {d a b c : BitVec 5} {st : BitVec 20} {s : State} (h : s.Canon) :
    (execCpys sc u d a b c st s).Canon :=
  Op.Canon.op64 (.bind .rdS fun _ => .bind .rdS fun _ => .bind .rdS fun _ => .bind .rdS fun _ => .bind .scopeOk fun _ =>
    .bind .stampedCheck fun _ => .bind .queueRoom fun _ => .bind .nextSeq fun _ => .modify fun _ ht => ht.mapCpy) h

theorem Op.Canon.recordSegs {va : Nat} : (recordSegs va).Canon :=
  .get fun _ _ => .ite .trapWith (.ite (.bind .pure fun _ => .guard .trapWith fun _ => .bind .readable fun _ =>
    .pure) (.bind .translate fun _ => .guard .trapWith fun _ => .bind .readable fun _ => .pure))

theorem Op.Canon.readXferRecord {va : Nat} : (readXferRecord va).Canon := by
  unfold Machine.readXferRecord
  refine .bind .recordSegs fun _ => .bind .readSegs fun _ => ?_
  split
  · split
    · exact .pure
    · exact .trapKeep

theorem Op.Canon.chanPlace {c : Chan} {k : AK} {sc : Nat} {ea : Word} {n : Nat} : (c.place k sc ea n).Canon :=
  .ite .padPlace .placeUnder

theorem Op.Canon.checkRecord {held : List Nat} {r : BitVec 512} {va : Nat} : (checkRecord held r va).Canon := by
  unfold Machine.checkRecord
  refine .guard .trapWith fun _ => .guard .trapWith fun _ => .bind .countFlag fun _ => .bind .countFlag fun _ =>
    .ite (.bind .stampedCheck fun _ => .forM (fun _ => ?_) _) (.forM (fun _ => ?_) _)
  · split
    · exact .bind .padPlace fun _ => .pure
  · split
    · exact .ite (.bind .padPlace fun _ => .ite (.bind .padPlace fun _ => .pure) .pure) (.ite (.bind .padPlace fun _ =>
        .pure) .pure)

theorem Op.Canon.walkRecord {held : List Nat} {va : Nat} {seen : List (Nat × BitVec 512)} : (walkRecord held va seen).Canon := by
  unfold Machine.walkRecord
  exact .guard .trapWith fun _ => .guard .trapWith fun _ => .bind .readXferRecord fun _ =>
    .ite .pure (.bind .checkRecord fun _ => .bind (.modify fun _ ht => ht.mapTask) fun _ => .pure)

theorem Op.Canon.walkChain {held : List Nat} {n k : Nat} {l : List (Nat × BitVec 512)} : (walkChain held n k l).Canon := by
  induction n generalizing k l with
  | zero => exact .pure
  | succ f ih =>
    unfold Machine.walkChain
    refine .ite .pure (.bind (.keeping .walkRecord) fun _ => ?_)
    split
    · exact .pure
    · exact ih

theorem State.Canon.mapChan {s : State} {n : Nat} {f : Chan → Chan} (h : s.Canon) : (s.mapChan n f).Canon := h.mapCpy

theorem Op.Canon.startChain {n va : Nat} {c : Chan} : (startChain n va c).Canon :=
  .bind .walkChain fun _ => .modify fun _ ht => ht.mapChan

theorem State.Canon.haltChain {s : State} {n : Nat} {c : Chan} (h : s.Canon) : (s.haltChain n c).Canon := h.mapChan

theorem State.Canon.execChain {n : BitVec 3} {a : BitVec 5} {s : State} (h : s.Canon) : (execChain n a s).Canon := by
  unfold Machine.execChain
  extract_lets va q c skip fail
  have hskip {t : State} (ht : t.Canon) : (skip t).Canon := ht.mapStrm.mapTask
  have hfail {t : State} {k : Trap} (ht : t.Canon) : (fail t k).Canon :=
    .next (State.Canon.takeFault (hskip (State.Canon.haltChain (n := n.toNat) (c := c) ht)))
  split
  · exact .next h
  · split
    next e => exact .next (hskip (Op.Canon.ok .startChain h e))
    next e => exact .next (h.leave (Op.Canon.note .startChain h e))
    · exact hfail h
    next e => exact hfail (Op.Canon.trapIn .startChain h e)
    · exact .fault

theorem State.Canon.execChstop {n : BitVec 3} {s : State} (h : s.Canon) : (execChstop n s).Canon :=
  Op.Canon.op64 (.get fun _ ht => .bind .trapIf fun _ => .set ht.mapChan) h

/-! #### Copy transfers -/

theorem State.Canon.mapXfer {s : State} {seq : Nat} {f : Xfer → Xfer} (h : s.Canon) : (s.mapXfer seq f).Canon := h.mapCpy

theorem State.Canon.dropXfer {s : State} {seq : Nat} (h : s.Canon) : (s.dropXfer seq).Canon := h.mapCpy

theorem State.Canon.addEvent {s : State} {f : Option (BitVec 6)} {n : Nat} (h : s.Canon) : (s.addEvent f n).Canon := by
  unfold State.addEvent
  split
  · exact h.addCount
  · exact h

theorem State.Canon.reportBad {s : State} {bad : List (Nat × Nat)} (h : s.Canon) : (s.reportBad bad).Canon := by
  unfold State.reportBad
  split
  · exact h
  · exact h.stopCore

theorem State.Canon.addFails {s : State} {l : List Failure} (h : s.Canon) : (s.addFails l).Canon := h.mapTask

theorem Op.Canon.moveBytes {x : Xfer} {n : Nat} {acc : State × List (Nat × Nat) × List Failure} {p : Nat} (hacc : acc.1.Canon) :
    (State.moveBytes x n acc p).1.Canon := by
  unfold State.moveBytes
  split
  next e =>
    have ht := State.Canon.of_fst e hacc.readSpans
    extract_lets
    split
    next e' =>
      have hu := State.Canon.of_fst e' ht.writeSpans
      split
      next e'' => exact State.Canon.of_fst e'' hu.writeSpans

theorem State.Canon.moveXfer {s : State} {x : Xfer} (h : s.Canon) : (s.moveXfer x).Canon := by
  unfold State.moveXfer
  split
  next e =>
    refine State.Canon.mapXfer (State.Canon.of_fst e (State.Canon.ite_fst ?_ (Op.Canon.moveBytes h)))
    split
    next e' => exact State.Canon.of_fst e' (h.foldl_fst fun _ _ ht => Op.Canon.moveBytes ht)

theorem State.Canon.execCopyRelease {k : BitVec 4} {s : State} (h : s.Canon) : (execCopyRelease k s).Canon := by
  unfold Machine.execCopyRelease
  split
  · exact .next h
  · exact .ite (.next h) (.next (State.Canon.applyAdds (State.Canon.addEvent (State.Canon.ite h.mapXfer h.moveXfer))))

theorem State.Canon.clearOwn {s : State} {va : Nat} {r : BitVec 512} (h : s.Canon) : (s.clearOwn va r).Canon := by
  unfold State.clearOwn
  split
  · exact h
  · split
    next e => exact JobRes.Canon.of_ok h.jobWrite e
    next e => exact (JobRes.Canon.of_error h.jobWrite e).stopCore

theorem State.Canon.nextRecord {s : State} {n : Nat} {r : BitVec 512} (h : s.Canon) : (s.nextRecord n r).Canon := h.mapChan

theorem State.Canon.endRecord {s : State} {n : Nat} {r : BitVec 512} {rel : Bool} {bad : List (Nat × Nat)} (h : s.Canon) :
    (s.endRecord n r rel bad).Canon :=
  State.Canon.ite (State.Canon.applyAdds (State.Canon.nextRecord (State.Canon.clearOwn (State.Canon.addEvent
    (State.Canon.ite h.addEvent h))))) (State.Canon.applyAdds (State.Canon.reportBad (State.Canon.mapChan
    (State.Canon.nextRecord (State.Canon.clearOwn (State.Canon.addEvent (State.Canon.ite h.addEvent h)))))))

theorem State.Canon.endXfer {s : State} {x : Xfer} (h : s.Canon) : (s.endXfer x).Canon := by
  unfold State.endXfer
  split
  · exact h.dropXfer.addFails.endRecord
  · exact h.dropXfer.addFails.addEvent.reportBad.applyAdds

theorem State.Canon.landCopy {s : State} {x : Xfer} (h : s.Canon) : (s.landCopy x).Canon := by
  unfold State.landCopy
  split
  · split
    · refine State.Canon.applyAdds ?_
      split
      · exact h.mapCoreAt.mapCpy.addEvent.addEvent.clearOwn.mapCpy
      · exact h.mapCoreAt.mapCpy.addEvent.addEvent

theorem State.Canon.execCopyDelivery {k : BitVec 4} {s : State} (h : s.Canon) : (execCopyDelivery k s).Canon := by
  unfold Machine.execCopyDelivery
  extract_lets
  split
  · exact .next (State.Canon.ite h.endXfer h)
  · split
    · exact .next h.landCopy
    · exact .next h

theorem Op.Canon.recSource {c : Chan} {r : BitVec 512} {lo hi : Nat} : (recSource c r lo hi).Canon := by
  unfold Machine.recSource
  refine .mapM (fun _ => ?_) _
  split
  · exact .bind .chanPlace fun _ => .takeSource

theorem Op.Canon.recDest {c : Chan} {r : BitVec 512} {lo hi : Nat} : (recDest c r lo hi).Canon := by
  unfold Machine.recDest
  refine .mapM (fun _ => ?_) _
  split
  · exact .bind .chanPlace fun _ => .takeDest

theorem State.Canon.haltSector {s : State} {n k : Nat} (h : s.Canon) : (s.haltSector n k).Canon := h.mapChan

theorem State.Canon.pushEntry {s : State} {q : BitVec 3} {d : List Byte} (h : s.Canon) : (s.pushEntry q d).Canon :=
  State.Canon.ite h.mapVec h

theorem State.Canon.gather {s : State} {x : Xfer} {p : Nat} {src : List Span} (h : s.Canon) : (s.gather x p src).Canon := by
  unfold State.gather
  split
  next e => exact (State.Canon.of_fst e h.readSpans).mapXfer

theorem State.Canon.deliver {s : State} {seq : Nat} {q : BitVec 3} {hi : Nat} (h : s.Canon) : (s.deliver seq q hi).Canon :=
  h.pushEntry.mapXfer

theorem Op.Canon.entrySector {n : Nat} {x : Xfer} {hi k p : Nat} : (entrySector n x hi k p).Canon :=
  .get fun _ _ => .bind .recSource fun _ => .modify fun _ ht => ht.gather.mapChan

theorem State.Canon.runEntry {n : Nat} {q : BitVec 3} {seq hi k : Nat} {s : State} (h : s.Canon) :
    (runEntry n q seq hi k s).Canon := by
  induction k generalizing s with
  | zero => exact .next h
  | succ f ih =>
    unfold Machine.runEntry
    split
    · exact .next h
    · refine .ite (.next h.deliver) ?_
      split
      next e => exact ih (Op.Canon.ok .entrySector h e)
      next e => exact .next (h.leave (Op.Canon.note .entrySector h e))
      · exact .next h.haltSector.takeFault
      next e => exact .next (Op.Canon.trapIn .entrySector h e).haltSector.takeFault
      · exact .fault

theorem State.Canon.execStreamEntryArrival {k : BitVec 4} {s : State} (h : s.Canon) : (execStreamEntryArrival k s).Canon := by
  unfold Machine.execStreamEntryArrival
  split
  · exact .next h
  · split
    · exact .next h
    · refine .ite (.next h) ?_
      split
      · exact .next h.gather.deliver
      · exact h.runEntry

theorem Op.Canon.runSector {n : Nat} {r : BitVec 512} {k : Nat} : (runSector n r k).Canon := by
  unfold Machine.runSector
  refine .get fun _ _ => .bind .recSource fun _ => .bind .recDest fun _ => .modify fun _ hu => ?_
  split
  next e =>
    have hv := State.Canon.of_fst e hu.readSpans
    split
    next e' => exact (State.Canon.of_fst e' hv.writeSpans).addFails.mapChan

theorem State.Canon.runSectors {n : Nat} {r : BitVec 512} {k : Nat} {s : State} (h : s.Canon) : (runSectors n r k s).Canon := by
  induction k generalizing s with
  | zero => exact .next h
  | succ f ih =>
    unfold Machine.runSectors
    refine .ite (.next h.endRecord) ?_
    split
    next e => exact ih (Op.Canon.ok .runSector h e)
    next e => exact .next (h.leave (Op.Canon.note .runSector h e))
    · exact .next h.haltSector.takeFault
    next e => exact .next (Op.Canon.trapIn .runSector h e).haltSector.takeFault
    · exact .fault

theorem State.Canon.runRecord {n : Nat} {r : BitVec 512} {s : State} (h : s.Canon) : (runRecord n r s).Canon := by
  unfold Machine.runRecord
  split
  · exact h.runSectors
  · exact .next h.mapCpy
  · exact .next h.mapCpy.mapChan

theorem State.Canon.execChainRecordRun {n : BitVec 3} {s : State} (h : s.Canon) : (execChainRecordRun n s).Canon := by
  unfold Machine.execChainRecordRun
  refine .ite (.next h) (.ite ?_ ?_)
  · split
    next e => exact .next (Op.Canon.ok .startChain h e)
    next e => exact .next (h.leave (Op.Canon.note .startChain h e))
    · exact .next h.mapChan.takeFault
    next e => exact .next (Op.Canon.trapIn .startChain h e).mapChan.takeFault
    · exact .fault
  · split
    next e => exact (Op.Canon.ok .readXferRecord h e).runRecord
    next e => exact .next (h.leave (Op.Canon.note .readXferRecord h e))
    · exact .next h.haltSector.takeFault
    next e => exact .next (Op.Canon.trapIn .readXferRecord h e).haltSector.takeFault
    · exact .fault

/-! #### Collectives -/

theorem State.Canon.breakParts {s : State} {c : Coll} (h : s.Canon) : (s.breakParts c).Canon :=
  State.Canon.of_mem (h.foldl fun _ _ ht => ht.onCore (fun _ hu => hu.dropXfer.stopCore)) rfl

theorem State.Canon.coll {sc : BitVec 3} {u : BitVec 2} {a : BitVec 5} {ev : BitVec 14} {s : State} (h : s.Canon) :
    (coll sc u a ev s).Canon := by
  unfold Machine.coll
  refine Op.Canon.op64 (.get fun s0 h0 => .bind .rdS fun _ => .bind .trapIf fun _ => .bind .scopeOk fun _ =>
    .bind .countFlags fun _ => .bind .needAlign fun _ => .bind .trapIf fun _ => .bind .trapIf fun _ =>
    .guard .trapWith fun _ => .bind .place fun _ => .bind .takeSource fun _ => .bind .readNow fun _ =>
    .guard .trapWith fun _ => .guard .trapWith fun _ => .bind .sourceSpan fun _ => .bind .destSpan fun _ =>
    .guard (.throw ?_) fun _ => .get fun _ _ => .bind .pushXfer fun _ => .modify fun t ht => ?_) h
  · change State.Canon _
    split
    · exact h0.breakParts
    · exact h0
  · have hu := ht.mapTask (f := fun t => { t with collseq := t.collseq + 1 })
    dsimp only
    split
    · exact hu.of_mem rfl
    · exact hu.of_mem rfl

theorem State.Canon.readPart {s : State} {p : Nat × Nat} (h : s.Canon) : (s.readPart p).1.Canon := by
  unfold State.readPart
  split
  · exact h
  · split
    next e => exact (State.Canon.of_fst e h.focus.readSpans).mapXfer.focus

theorem State.Canon.reportLost {s : State} {x : Xfer} {lost : List Nat} (h : s.Canon) : (s.reportLost x lost).Canon := by
  unfold State.reportLost
  split
  · exact h
  · exact h.stopCore
  · exact h.reportBad

theorem State.Canon.endPart {s : State} {x : Xfer} (h : s.Canon) : (s.endPart x).Canon := h.dropXfer.addEvent.addEvent

theorem State.Canon.finishPart {s : State} {ps : List CollPart} {p : Nat × Nat} (h : s.Canon) : (s.finishPart ps p).Canon := by
  unfold State.finishPart
  split
  · exact h
  · refine h.onCore (fun _ ht => ?_)
    extract_lets
    split
    next e => exact (State.Canon.of_fst e ht.writeSpans).endPart.addFails.reportLost.applyAdds

theorem State.Canon.cutPart {s : State} {dead : Bool} {p : Nat × Nat} (h : s.Canon) : (s.cutPart dead p).Canon := by
  unfold State.cutPart
  split
  · exact h
  · exact h.onCore (fun _ ht => State.Canon.applyAdds (State.Canon.ite ht.endPart.stopCore ht.endPart))

theorem State.Canon.dropColl {s : State} {c : Coll} (h : s.Canon) : (s.dropColl c).Canon := h

theorem State.Canon.doneColl {s : State} {c : Coll} (h : s.Canon) : (s.doneColl c).Canon := h

theorem State.Canon.execCollectiveRun {k : BitVec 8} {remote : List RemotePart} {dead : Bool} {s : State} (h : s.Canon) :
    (execCollectiveRun k remote dead s).Canon := by
  unfold Machine.execCollectiveRun
  split
  · exact .next h
  · refine .ite (.next h) (.ite (.next (h.dropColl.foldl fun _ _ ht => ht.cutPart)) (.ite (.next h.breakParts) (.ite (.next h)
      (.ite (.next (h.doneColl.foldl fun _ _ hu => hu.cutPart)) ?_))))
    split
    next e =>
      refine .next ((State.Canon.doneColl (State.Canon.of_fst e (h.foldl_fst fun _ _ hv => ?_))).foldl fun _ _ hw =>
        hw.finishPart)
      split
      next e' => exact State.Canon.of_fst e' hv.readPart

/-! #### Deadlock -/

theorem State.Canon.noteStuck {s : State} (h : s.Canon) : s.noteStuck.Canon := h.mapCore

theorem State.Canon.execDeadlock {s : State} (h : s.Canon) : (execDeadlock s).Canon :=
  .next (State.Canon.ite h.mapCore.stopCore h)

/-! #### Tiles -/

theorem Op.Canon.tileShape {d : BitVec 128} {code : Nat} : (tileShape d code).Canon :=
  .get fun _ _ => .bind .trapIf fun _ => .guard .trapWith fun _ => .pure

theorem Op.Canon.tileBounds {k : AK} {d : BitVec 128} {t : Tile} : (tileBounds k d t).Canon := by
  unfold Machine.tileBounds
  refine .get fun _ _ => ?_
  split
  · exact .trapIf
  · exact .pure
  · exact .bind .trapIf fun _ => .guard .trapWith fun _ => .guard .trapWith fun _ => .trapIf

theorem Op.Canon.locateTile {k : AK} {d : BitVec 128} {t : Tile} : (locateTile k d t).Canon := by
  unfold Machine.locateTile
  refine .get fun _ _ => ?_
  split
  · exact .pure
  · refine .bind .locate fun _ => ?_
    split
    · exact .pure
    · exact .pure
  · exact .pure

theorem Op.Canon.classTile {k : AK} {t : Tile} : (classTile k t).Canon := by
  unfold Machine.classTile
  refine .bind (.mapM (fun _ => ?_) _) fun _ => .pure
  split
  · exact .bind .checkClass fun _ => .pure
  · exact .pure

theorem Op.Canon.locateTiles {k : AK} {l : List (BitVec 128 × Tile)} : (locateTiles k l).Canon := by
  unfold Machine.locateTiles
  refine .bind (.forM (fun _ => ?_) _) fun _ => .mapM (fun _ => ?_) _
  · split
    · exact .tileBounds
  · split
    · exact .locateTile

theorem Op.Canon.tagCode {d : BitVec 128} : (tagCode d).Canon := by
  unfold Machine.tagCode
  refine .get fun _ _ => .bind .trapIf fun _ => .bind .locate fun _ => ?_
  split
  · exact .trapWith
  · refine .bind .tileShape fun _ => .bind .locate fun _ => ?_
    extract_lets lines
    split
    · exact .trapWith
    · exact .pure

theorem Op.Canon.openTile {d : BitVec 128} : (openTile d).Canon :=
  .ite (.bind .tagCode fun _ => .tileShape) (.bind .pure fun _ => .tileShape)

theorem Op.Canon.tagScales {d : BitVec 128} {t : Tile} {isA : Bool} : (tagScales d t isA).Canon := by
  unfold Machine.tagScales
  refine .get fun _ _ => .guard .trapWith fun _ => .bind (.flatMapM (fun _ => .mapM (fun _ => ?_) _) _) fun _ => .pure
  split
  · exact .trapWith
  · split
    · exact .trapWith
    · exact .guard .trapWith fun _ => .pure

theorem Op.Canon.holdTiles {ts : List Tile} {accs : List Nat} : (holdTiles ts accs).Canon := .get fun _ _ => .trapIf

theorem State.Canon.readTile {s : State} {t : Tile} (h : s.Canon) : (s.readTile t).1.Canon := h.readSpans

/-! #### Matrix words -/

theorem Op.Canon.shapeFault {α : Type} {m n k : Nat} : (shapeFault m n k : Op α).Canon := .throw trivial

theorem Op.Canon.mtxRoom : mtxRoom.Canon := .queueRoom

theorem Op.Canon.pushMCmd {stamped : Bool} {m : MCmd} : (pushMCmd stamped m).Canon :=
  .bind .nextSeq fun _ => .modify fun _ ht => ht.mapMtx

theorem Op.Canon.mtxDraw {draws : Bool} : (mtxDraw draws).Canon := .get fun _ ht => .guard (.set ht.mapStrm) fun _ => .pure

theorem Op.Canon.openScale {opd : BitVec 128} {t : Tile} {n : BitVec 4} {isA : Bool} : (openScale opd t n isA).Canon :=
  .ite (.bind .locateTile fun _ => .tagScales) (.get fun _ _ => .bind .openTile fun _ => .bind .trapIf fun _ => .pure)

theorem Op.Canon.locateOperands {dA dB : BitVec 128} {a b : Tile} {scales : Option (BitVec 4 × BitVec 4 × Tile × Tile)} :
    (locateOperands dA dB a b scales).Canon :=
  .get fun _ _ => .bind .locateTiles fun _ => .pure

theorem State.Canon.mm {i : Instr} {acc da db : BitVec 4} {scl : Option (BitVec 4 × BitVec 4)} {int joint : Bool} {init : Init}
    {mode : BitVec 3} {ksel rel : BitVec 1} {stamp : Option (BitVec 20)} {s : State} (h : s.Canon) :
    (mm i acc da db scl int joint init mode ksel rel stamp s).Canon := by
  unfold Machine.mm
  refine Op.Canon.op64 (.bind .mtxRoom fun _ => .bind .trapIf fun _ => .get fun _ _ => .bind .openTile fun _ =>
    .bind .openTile fun _ => .guard .shapeFault fun _ => .bind .trapIf fun _ => ?_) h
  extract_lets -underBinder scaled
  have hscaled (sc : _) : (scaled sc).Canon := by
    refine .bind .trapIf fun _ => .bind .trapIf fun _ => .bind .trapIf fun _ => .bind .drawKey fun _ =>
      .bind .locateOperands fun operands => ?_
    obtain ⟨ta, tb, sc⟩ := operands
    exact .bind (.forM (fun _ => .bind .classTile fun _ => .pure) _) fun _ => .guard .holdTiles fun _ =>
      .bind .readable fun _ => .bind .record fun _ => .get fun _ _ => .bind .mtxDraw fun _ => .pushMCmd
  cases scl with
  | none => exact .bind .pure hscaled
  | some _ => exact .bind .openScale fun _ => .bind .openScale fun _ => .guard .shapeFault fun _ => .bind .pure hscaled

theorem Op.Canon.setTile {n : BitVec 4} {v : BitVec 128} : (setTile n v).Canon :=
  .bind .trapIf fun _ => .modify fun _ ht => ht.mapMtx

theorem State.Canon.execMtile {d : BitVec 4} {a b : BitVec 5} {s : State} (h : s.Canon) : (execMtile d a b s).Canon :=
  Op.Canon.op64 (.bind .rdS fun _ => .bind .rdS fun _ => .setTile) h

theorem State.Canon.execMtileAddr {d : BitVec 4} {a : BitVec 5} {s : State} (h : s.Canon) : (execMtileAddr d a s).Canon :=
  Op.Canon.op64 (.bind .rdS fun _ => .bind .trapIf fun _ => .get fun _ _ => .setTile) h

theorem State.Canon.execMtileAdd {d : BitVec 4} {a : BitVec 5} {s : State} (h : s.Canon) : (execMtileAdd d a s).Canon :=
  Op.Canon.op64 (.bind .rdS fun _ => .get fun _ _ => .setTile) h

theorem State.Canon.execMtileLd {d : BitVec 4} {a : BitVec 5} {o : BitVec 16} {s : State} (h : s.Canon) :
    (execMtileLd d a o s).Canon :=
  Op.Canon.op64 (.bind .rdS fun _ => .bind .needAlign fun _ => .bind .place fun _ => .get fun _ _ => .bind .stallIf fun _ =>
    .bind .readPlace fun _ => .setTile) h

theorem State.Canon.execAzero {n c : BitVec 4} {s : State} (h : s.Canon) : (execAzero n c s).Canon :=
  Op.Canon.op64 (.bind .mtxRoom fun _ => .bind .trapIf fun _ => .bind .holdTiles fun _ => .pushMCmd) h

theorem State.Canon.execAfade {n : BitVec 4} {a : BitVec 5} {sat flush : BitVec 1} {s : State} (h : s.Canon) :
    (execAfade n a sat flush s).Canon :=
  Op.Canon.op64 (.bind .mtxRoom fun _ => .bind .rdS fun _ => .bind .holdTiles fun _ => .pushMCmd) h

theorem State.Canon.execAld {n ds : BitVec 4} {flush ia : BitVec 1} {s : State} (h : s.Canon) : (execAld n ds flush ia s).Canon :=
  Op.Canon.op64 (.bind .mtxRoom fun _ => .get fun _ _ => .bind .openTile fun _ => .bind .trapIf fun _ => .bind .trapIf fun _ =>
    .bind .locateTiles fun _ => .bind .classTile fun _ => .bind .holdTiles fun _ => .bind .readable fun _ =>
    .bind .record fun _ => .bind .mtxDraw fun _ => .pushMCmd) h

theorem State.Canon.execAst {n ds : BitVec 4} {mode : BitVec 3} {sat flush ksel ia : BitVec 1} {s : State} (h : s.Canon) :
    (execAst n ds mode sat flush ksel ia s).Canon :=
  Op.Canon.op64 (.bind .mtxRoom fun _ => .get fun _ _ => .bind .trapIf fun _ => .bind .openTile fun _ => .bind .trapIf fun _ =>
    .ite (.bind .drawKey fun _ => .bind .locateTiles fun _ => .bind .classTile fun _ => .bind .holdTiles fun _ =>
    .bind .record fun _ => .bind .mtxDraw fun _ => .pushMCmd) (.bind .pure fun _ => .bind .locateTiles fun _ =>
    .bind .classTile fun _ => .bind .holdTiles fun _ => .bind .record fun _ => .bind .mtxDraw fun _ => .pushMCmd)) h

theorem Op.Canon.imageSpan {k : AK} {n : BitVec 4} {va : Word} : (imageSpan k n va).Canon :=
  .get fun _ _ => .bind .trapIf fun _ => .bind .needAlign fun _ => .bind .trapIf fun _ => .bind .place fun _ =>
    .bind .holdTiles fun _ => .pure

theorem State.Canon.execAspill {n : BitVec 4} {a : BitVec 5} {s : State} (h : s.Canon) : (execAspill n a s).Canon :=
  Op.Canon.op64 (.bind .mtxRoom fun _ => .bind .rdS fun _ => .bind .imageSpan fun _ => .bind .record fun _ => .pushMCmd) h

theorem State.Canon.execAfill {n : BitVec 4} {a : BitVec 5} {s : State} (h : s.Canon) : (execAfill n a s).Canon :=
  Op.Canon.op64 (.bind .mtxRoom fun _ => .bind .rdS fun _ => .bind .imageSpan fun _ => .bind .readable fun _ =>
    .bind .record fun _ => .bind .mtxDraw fun _ => .pushMCmd) h

theorem State.Canon.setAcc {s : State} {n : Nat} {v : AccImg} (h : s.Canon) : (s.setAcc n v).Canon := h.mapCore

theorem State.Canon.readTiles {s : State} {ts : List Tile} (h : s.Canon) : (s.readTiles ts).1.Canon := by
  unfold State.readTiles
  refine h.foldl_fst fun _ _ ht => ?_
  split
  next e => exact State.Canon.of_fst e ht.readTile

theorem State.Canon.dropMCmd {s : State} {m : MCmd} (h : s.Canon) : (s.dropMCmd m).Canon := h.mapMtx

theorem State.Canon.mtxLost {s : State} {m : MCmd} {va : Nat} (h : s.Canon) : (s.mtxLost m va).Canon := h.mapMtx.mapCore.stopCore

theorem State.Canon.runMm {s : State} {m : MCmd} {n : Nat} {x : MmCtl} (h : s.Canon) : (s.runMm m n x).Canon := by
  unfold State.runMm
  split
  · extract_lets sc
    clear_value sc
    split
    next e =>
      have ht := State.Canon.of_fst e h.readTiles
      split
      · exact ht.mtxLost
      · exact ht.setAcc
  · exact h

theorem State.Canon.runAld {s : State} {m : MCmd} {t : Tile} {n : Nat} {ia flush : Bool} (h : s.Canon) :
    (s.runAld m t n ia flush).Canon := by
  unfold State.runAld
  split
  next e =>
    have ht := State.Canon.of_fst e h.readTile
    split
    · exact ht.mtxLost
    · exact ht.setAcc

theorem State.Canon.runAst {s : State} {m : MCmd} {t : Tile} {n mode : Nat} {sat flush ia : Bool} (h : s.Canon) :
    (s.runAst m t n mode sat flush ia).Canon := by
  unfold State.runAst
  extract_lets a draws row
  split
  next e => exact (State.Canon.of_fst e h.writeSpans).addFails

theorem State.Canon.runMCmd {s : State} {m : MCmd} (h : s.Canon) : (s.runMCmd m).Canon := by
  unfold State.runMCmd
  split
  · exact h.foldl fun _ _ ht => ht.setAcc
  · exact h.setAcc
  · split
    · exact h.runAld
    · exact h
  · split
    · exact h.runAst
    · exact h
  · split
    · split
      next e => exact (State.Canon.of_fst e h.writeSpans).addFails
    · exact h
  · split
    · split
      next e =>
        have hu := State.Canon.of_fst e h.readSpans
        split
        · exact hu.mtxLost
        · exact hu.setAcc
    · exact h
  · split
    · exact h.runMm
    · exact h

theorem State.Canon.mmLand {s : State} {m : MCmd} (h : s.Canon) : (s.mmLand m).Canon := h.setAcc.mapMtx

theorem State.Canon.execMatrixCommandRun {sib : Bool} {s : State} (h : s.Canon) : (execMatrixCommandRun sib s).Canon := by
  unfold Machine.execMatrixCommandRun
  split
  · exact .next (State.Canon.ite h h.mmLand.applyAdds)
  · exact .next h
  · exact .next (State.Canon.ite h h.dropMCmd.runMCmd.applyAdds)

/-! #### Stamped commands -/

theorem State.Canon.issueCopy {s : State} {x : Xfer} (h : s.Canon) : (s.issueCopy x).Canon := by
  unfold State.issueCopy
  split
  · exact h.mapCpy.stopCore
  · exact h.mapCpy

theorem State.Canon.issueMm {s : State} {m : MCmd} (h : s.Canon) : (s.issueMm m).Canon := by
  unfold State.issueMm
  split
  · exact h.mapMtx.stopCore
  · exact h.mapMtx

theorem State.Canon.execStampedIssue {e : Eng64} {k : BitVec 8} {s : State} (h : s.Canon) : (execStampedIssue e k s).Canon := by
  unfold Machine.execStampedIssue
  split
  · split
    · exact .next (State.Canon.ite h.issueCopy h)
    · exact .next h
  · split
    · exact .next (State.Canon.ite h.issueMm h)
    · exact .next h

/-! #### Amplitudes -/

theorem State.Canon.readAmps {s : State} {q : QState} {offs : List Nat} (h : s.Canon) : (s.readAmps q offs).1.Canon := by
  unfold State.readAmps
  refine h.foldl_fst fun _ _ ht => ?_
  split
  next e => exact State.Canon.of_fst e ht.readSpan

theorem State.Canon.writeAmps {s : State} {q : QState} {refused : List (Nat × Nat)} {l : List (Nat × Amp)} (h : s.Canon) :
    (s.writeAmps q refused l).Canon := by
  unfold State.writeAmps
  refine h.foldl fun _ _ ht => ?_
  extract_lets
  split
  next e => exact (State.Canon.of_fst e ht.writeSpan).addFails

theorem Op.Canon.shareAccess {q : QState} {rd wr : Bool} {offs : List Nat} : (shareAccess q rd wr offs).Canon :=
  .foldlM (fun _ => fun _ => .ite (.bind .place fun _ => .bind .readable fun _ => .bind .record fun _ =>
    .ite (.bind .place fun _ => .bind .record fun _ => .pure) .pure) (.ite (.bind .place fun _ => .bind .record fun _ =>
    .pure) .pure)) _

theorem State.Canon.astroLost {s : State} {bad : List (Nat × Nat)} (h : s.Canon) : (s.astroLost bad).Canon := by
  unfold State.astroLost
  split
  · exact h
  · exact h.stopAstro

theorem Op.Canon.gateCheck {q : QState} {g : Gate} {tv cm : Word} : (gateCheck q g tv cm).Canon :=
  .bind .trapIf fun _ => .bind .trapIf fun _ => .bind .trapIf fun _ => .pure

/-! #### The Astrolabe -/

theorem Op.Canon.openQ : openQ.Canon := by
  unfold Machine.openQ
  refine .get fun _ _ => ?_
  split
  · exact .pure
  · exact .trap

theorem Op.Canon.astroEa {ea : Word} {n : Nat} : (astroEa ea n).Canon := .bind .needAlign fun _ => .trapIf

theorem State.Canon.execQmap {a : BitVec 5} {s : State} (h : s.Canon) : (execQmap a s).Canon :=
  Op.Canon.op64 (.bind .openQ fun _ => .bind .rdS fun _ => .bind .astroEa fun _ => .bind .place fun _ =>
    .bind .readPlace fun _ => .bind .trapIf fun _ => .modify fun _ ht => ht.mapAstro) h

theorem Op.Canon.storeMap {q : QState} {ea : Word} : (storeMap q ea).Canon :=
  .bind .astroEa fun _ => .bind .place fun _ => .writePlace

theorem State.Canon.execQmapSt {a : BitVec 5} {s : State} (h : s.Canon) : (execQmapSt a s).Canon :=
  Op.Canon.op64 (.bind .openQ fun _ => .bind .rdS fun _ => .storeMap) h

theorem State.Canon.execQswap {a b : BitVec 5} {s : State} (h : s.Canon) : (execQswap a b s).Canon :=
  Op.Canon.op64 (.bind .openQ fun _ => .bind .rdS fun _ => .bind .rdS fun _ => .bind .trapIf fun _ => .modify fun _ ht =>
    ht.mapAstro) h

theorem State.Canon.execQldg {g : BitVec 3} {a : BitVec 5} {k : BitVec 2} {ty : BitVec 1} {s : State} (h : s.Canon) :
    (execQldg g a k ty s).Canon :=
  Op.Canon.op64 (.bind .rdS fun _ => .bind .trapIf fun _ => .bind .astroEa fun _ => .bind .place fun _ =>
    .bind .readPlace fun _ => .modify fun _ ht => ht.mapAstro) h

theorem Op.Canon.localOp {q : QState} {offs : List Nat} {f : List (Nat × Amp) → List (Nat × Amp)} : (localOp q offs f).Canon := by
  unfold Machine.localOp
  refine .bind .shareAccess fun _ => .modify fun _ ht => ?_
  split
  next e => exact (State.Canon.of_fst e ht.readAmps).writeAmps.astroLost

theorem State.Canon.execQdiag {g : BitVec 3} {a b : BitVec 5} {s : State} (h : s.Canon) : (execQdiag g a b s).Canon :=
  Op.Canon.op64 (.bind .openQ fun _ => .get fun _ _ => .bind .rdS fun _ => .bind .rdS fun _ => .bind .gateCheck fun _ =>
    .localOp) h

theorem State.Canon.execQscale {a : BitVec 5} {s : State} (h : s.Canon) : (execQscale a s).Canon :=
  Op.Canon.op64 (.bind .openQ fun _ => .bind .rdS fun _ => .localOp) h

theorem State.Canon.breakMates {s : State} {l : List (Nat × Nat × AWait)} (h : s.Canon) : (s.breakMates l).Canon :=
  h.foldl fun _ _ ht => State.Canon.ite ht (ht.onCore (fun _ hu => hu.stopAstro.mapAstro))

theorem Op.Canon.gather {i : Instr} {group : Word} {ops : List Word} {key : List Nat} {refused : List (Nat × Nat)}
    {store : Option Span} : (gather i group ops key refused store).Canon :=
  .get fun _ ht => .guard (.throw ht.breakMates) fun _ => .set ht.mapAstro

theorem State.Canon.execQinit {a b c : BitVec 5} {n : BitVec 6} {ndb : BitVec 2} {npb : BitVec 4} {ty z : BitVec 1} {s : State}
    (h : s.Canon) : (execQinit a b c n ndb npb ty z s).Canon :=
  Op.Canon.runOp (.get fun _ _ => .bind .trapIf fun _ => .bind .rdS fun _ => .bind .rdS fun _ => .bind .rdS fun _ =>
    .bind .trapIf fun _ => .guard .trapWith fun _ => .bind .trapIf fun _ => .ite (.bind .shareAccess fun _ =>
    .gather) (.bind .pure fun _ => .gather)) h

theorem State.Canon.execQgate {g : BitVec 3} {a b : BitVec 5} {s : State} (h : s.Canon) : (execQgate g a b s).Canon :=
  Op.Canon.runOp (.bind .openQ fun _ => .get fun _ _ => .bind .rdS fun _ => .bind .rdS fun _ => .bind .gateCheck fun _ =>
    .ite (.bind .localOp fun _ => .modify fun _ ht => ht.mapStrm) (.bind .shareAccess fun _ => .bind .shareAccess fun _ =>
    .gather)) h

theorem State.Canon.execQperm {a : BitVec 5} {s : State} (h : s.Canon) : (execQperm a s).Canon :=
  Op.Canon.runOp (.bind .openQ fun _ => .bind .rdS fun _ => .bind .trapIf fun _ => .bind .place fun _ =>
    .bind .readPlace fun _ => .bind .trapIf fun _ => .bind .shareAccess fun _ => .gather) h

theorem Op.Canon.resultPlace {c : BitVec 5} : (resultPlace c).Canon :=
  .ite .pure (.bind .rdS fun _ => .bind .astroEa fun _ => .bind .place fun _ => .bind .record fun _ => .pure)

theorem Op.Canon.reduceOp {i : Instr} {major : Nat} {q : QState} {m v : Word} {c : BitVec 5} {reads : Nat → Bool} :
    (reduceOp i major q m v c reads).Canon :=
  .bind .resultPlace fun _ => .bind .shareAccess fun _ => .gather

theorem State.Canon.execQprob {d a b c : BitVec 5} {s : State} (h : s.Canon) : (execQprob d a b c s).Canon :=
  Op.Canon.runOp (.bind .openQ fun _ => .bind .rdS fun _ => .bind .rdS fun _ => .bind .trapIf fun _ => .bind .trapIf fun _ =>
    .reduceOp) h

theorem State.Canon.execQnorm {d c : BitVec 5} {s : State} (h : s.Canon) : (execQnorm d c s).Canon :=
  Op.Canon.runOp (.bind .openQ fun _ => .reduceOp) h

theorem State.Canon.execQsample {d a c : BitVec 5} {s : State} (h : s.Canon) : (execQsample d a c s).Canon :=
  Op.Canon.runOp (.bind .openQ fun _ => .bind .rdS fun _ => .bind .trapIf fun _ => .bind .trapIf fun _ => .get fun _ _ =>
    .bind .trapIf fun _ => .reduceOp) h

theorem State.Canon.execQsync {s : State} (h : s.Canon) : (execQsync s).Canon := Op.Canon.runOp (.bind .openQ fun _ => .gather) h

theorem State.Canon.execScalRend {e : Strm64} {s : State} (h : s.Canon) : (execScalRend e s).Canon := by
  unfold Machine.execScalRend
  refine Op.Canon.op64 (.get fun _ _ => .ite ?_ (.modify fun _ hu => hu.mapStrm)) h
  split
  · exact .guard .storeMap fun _ => .bind (.modify fun _ hv => hv.mapAstro) fun _ => .modify fun _ hw => hw.mapStrm
  · exact .bind (.modify fun _ hx => hx.mapAstro) fun _ => .modify fun _ hy => hy.mapStrm

theorem State.Canon.endGather {s : State} {w : AWait} {q : QState} {result : Option Word} (h : s.Canon) :
    (s.endGather w q result).Canon := by
  unfold State.endGather
  extract_lets init t
  have ht : t.Canon := h.mapAstro
  clear_value t
  split
  · split
    next e => exact (State.Canon.of_fst e ht.writeSpan).addFails
  · exact ht

theorem State.Canon.readMoves {s : State} {l : List Share} {old new : List Nat} (h : s.Canon) :
    (s.readMoves l old new).1.Canon := by
  unfold State.readMoves
  refine h.foldl_fst fun _ _ ht => ?_
  split
  next e => exact (State.Canon.of_fst e ht.focus.readAmps).focus

theorem State.Canon.writeMoves {s : State} {p : Share} {old new : List Nat} {got : List (Nat × Amp)} {remote : List RemoteShare}
    {dead : Bool} (h : s.Canon) : (s.writeMoves p old new got remote dead).Canon :=
  State.Canon.of_mem h.focus.writeAmps rfl

theorem State.Canon.onShares {s : State} {l : List Share} {f : Share → State → State} (h : s.Canon)
    (hf : ∀ (x : Share) (t : State), t.Canon → (f x t).Canon) : (s.onShares l f).Canon :=
  h.foldl fun _ _ ht => ht.onCore (fun _ hu => hf _ _ hu)

theorem State.Canon.endQgate {s : State} {p : Share} {new : List Nat} {bad : List (Nat × Nat)} {g : BitVec 3} (h : s.Canon) :
    (s.endQgate p new bad g).Canon := by
  unfold State.endQgate
  extract_lets
  split
  next e => exact (State.Canon.of_fst e h.readAmps).writeAmps.endGather.astroLost

theorem State.Canon.runMoves {s : State} {l : List Share} {w : AWait} {q : QState} {remote : List RemoteShare} (h : s.Canon) :
    (s.runMoves l w q remote).Canon := by
  unfold State.runMoves
  extract_lets
  split
  next e =>
    have ht := State.Canon.of_fst e h.readMoves
    refine ((ht.foldl fun _ _ hu => hu.writeMoves).focus).onShares (fun _ => fun _ hv => ?_)
    split
    · exact hv.endQgate
    · exact hv.endGather.astroLost

theorem State.Canon.astroDead {s : State} (h : s.Canon) : s.astroDead.Canon := h.stopAstro

theorem State.Canon.runDead {s : State} {l : List Share} {w : AWait} {q : QState} {remote : List RemoteShare} (h : s.Canon) :
    (s.runDead l w q remote).Canon := by
  unfold State.runDead
  extract_lets
  split
  next e =>
    have ht := State.Canon.of_fst e h.readMoves
    exact ((ht.foldl fun _ _ hu => hu.writeMoves).focus).onShares (fun _ => fun _ hv =>
      State.Canon.astroDead (State.Canon.endGather hv))

theorem State.Canon.runReduce {s : State} {l : List Share} {w : AWait} {q : QState} {remote : List RemoteShare} (h : s.Canon) :
    (s.runReduce l w q remote).Canon := by
  unfold State.runReduce
  refine State.Canon.onShares (h.foldl_fst fun _ _ ht => ?_) (fun _ => fun _ hu => hu.endGather.astroLost)
  split
  next e => exact (State.Canon.of_fst e ht.focus.readAmps).focus

theorem State.Canon.runAstro {s : State} {l : List Share} {w : AWait} {q : QState} {remote : List RemoteShare} (h : s.Canon) :
    (s.runAstro l w q remote).Canon := by
  unfold State.runAstro
  generalize w.i = i
  cases i with
  | qinit => exact h.onShares fun _ _ ht => State.Canon.endGather (.ite ht.writeAmps ht)
  | qsync => exact h.onShares fun _ _ ht => ht.endGather
  | qprob | qnorm | qsample => exact h.runReduce
  | _ => exact h.runMoves

theorem State.Canon.execAstroCollectiveRun {die : BitVec 2} {remote : List RemoteShare} {dead : Bool} {s : State} (h : s.Canon) :
    (execAstroCollectiveRun die remote dead s).Canon := by
  unfold Machine.execAstroCollectiveRun
  extract_lets a
  cases a.core with
  | none => exact .next h
  | some n => cases a.wait with
    | none => exact .next h
    | some w => cases a.part with
      | none => exact .next h
      | some q =>
        have ht := h.focus (n := n)
        exact .ite (.next h) <| .ite (.next ht.endGather.focus) <| .ite (.next ht.breakMates.focus) <|
          .ite (.next h) (.next (State.Canon.focus (.ite ht.runDead ht.runAstro)))

theorem State.Canon.writeAframe {s : State} (h : s.Canon) : s.writeAframe.Canon := by
  unfold State.writeAframe
  have hw := @State.Canon.physWrite
  generalize @State.physWrite = write at hw ⊢
  as_aux_lemma =>
    split
    · exact h
    · exact State.Canon.mapAstro (.of_mem (hw h) rfl)

theorem State.Canon.execFaultFrameWrite {s : State} (h : s.Canon) : (execFaultFrameWrite s).Canon := by
  unfold Machine.execFaultFrameWrite
  split
  · exact .ite (.next h.writeFrame) (.ite (.next h.writeAframe) (.next h))
  · exact .ite (.next h.writeAframe) (.next h)

theorem State.Canon.execAresume {die : BitVec 2} {s : State} (h : s.Canon) : (execAresume die s).Canon := by
  unfold Machine.execAresume
  have hr := @State.Canon.physRead
  generalize @State.physRead = read at hr ⊢
  as_aux_lemma =>
    extract_lets d
    split
    · exact .next h
    · exact .next (State.Canon.mapDie (hr h))

/-! #### Near-memory commands -/

theorem Op.Canon.nmCheck {c dst src prm : Word} : (nmCheck c dst src prm).Canon :=
  .bind .trapIf fun _ => .bind .trapIf fun _ => .bind .trapIf fun _ => .bind .trapIf fun _ => .bind .trapIf fun _ =>
    .bind .trapIf fun _ => .get fun _ _ => .bind .trapIf fun _ => .bind .needAlign fun _ => .ite .needAlign .pure

theorem Op.Canon.nmRecord {c dst src prm : Word} : (nmRecord c dst src prm).Canon :=
  .ite (.bind .needAlign fun _ => .bind .place fun _ => .get fun _ _ => .guard .trapWith fun _ => .guard .stall fun _ =>
    .bind .readPlace fun _ => .bind .trapIf fun _ => .bind .trapIf fun _ => .bind .trapIf fun _ => .bind .needAlign fun _ =>
    .pure) .pure

theorem Op.Canon.nmRange {k : AK} {c ea : Word} {n : Nat} : (nmRange k c ea n).Canon := by
  unfold Machine.nmRange
  refine .ite .pure (.bind .trapIf fun _ => .bind .place fun _ => ?_)
  split
  · exact .pure
  · exact .trap

theorem Op.Canon.nmDst {c ea : Word} : (nmDst c ea).Canon := by
  unfold Machine.nmDst
  refine .get fun _ _ => ?_
  split
  · exact .trapWith
  · exact .nmRange

theorem State.Canon.nmc {d a b c : BitVec 6} {s : State} (h : s.Canon) : (nmc d a b c s).Canon := by
  unfold Machine.nmc
  refine Op.Canon.runCtl (.bind .needX fun _ => .get fun _ _ => .bind .nmCheck fun _ => .bind .nmRecord fun _ =>
    .bind .nmDst fun _ => ?_) h
  split
  · refine .bind .nmRange fun _ => ?_
    split
    · refine .bind .nmRange fun _ => ?_
      split
      · exact .bind .nextSeq fun _ => .get fun _ _ => .bind .stallIf fun _ => .bind .record fun _ => .bind .record fun _ =>
          .bind .record fun _ => .modify fun _ hu => hu.mapCore

theorem State.Canon.nmRead {s : State} {a : Agent} {kind q : Nat} {l : List Seg} (h : s.Canon) :
    (s.nmRead a kind q l).1.Canon := by
  unfold State.nmRead
  refine h.foldl_fst fun _ _ ht => ?_
  split
  · refine State.Canon.ite_fst ht ?_
    split
    next e =>
      have hu := State.Canon.of_fst e ht.physRead
      exact State.Canon.ite hu.ckptMark hu

theorem State.Canon.nmSectorOut {s : State} {a : Agent} {whole : Bool} {bad : List (Nat × Nat)} {tags : List Nat} {d : List Byte}
    {p : Nat} {g : Seg} {sa : Nat} (h : s.Canon) : (s.nmSectorOut a whole bad tags d p g sa).1.Canon := by
  unfold State.nmSectorOut
  refine State.Canon.ite_fst ?_ ?_
  · split
    next e => exact State.Canon.of_fst e h.physWrite
  · extract_lets
    split
    next e' => exact State.Canon.of_fst e' h.physWrite

theorem State.Canon.nmWrite {s : State} {a : Agent} {q : Nat} {refused bad : List (Nat × Nat)} {tags : List Nat} {d : List Byte}
    {l : List Seg} (h : s.Canon) : (s.nmWrite a q refused bad tags d l).1.Canon := by
  unfold State.nmWrite
  split
  next e =>
    refine State.Canon.of_fst e (.foldl_fst h fun q g hq => ?_)
    split
    split
    · exact hq
    · split
      · exact hq
      · split
        next e =>
          refine State.Canon.of_fst e (.foldl_fst (p := (_, false, [])) hq fun y sa hy => ?_)
          split
          next e => exact State.Canon.of_fst e hy.nmSectorOut

theorem State.Canon.nmElements {s : State} {m : NmCmd} {p : Nat} {g : Seg} (h : s.Canon) : (s.nmElements m p g).1.Canon := by
  unfold State.nmElements
  extract_lets
  split
  next e =>
    have h₁ := State.Canon.of_fst e (State.Canon.ite_fst h h.nmRead)
    split
    next e =>
      have h₂ := State.Canon.of_fst e h₁.nmRead
      split
      next e =>
        have h₃ := State.Canon.of_fst e h₂.nmRead
        split
        next e =>
          have h₄ := State.Canon.of_fst e h₃.nmRead
          extract_lets
          exact h₄.nmWrite.nmWrite.nmWrite

theorem State.Canon.nmCopyPiece {s : State} {m : NmCmd} {p : Nat} {g : Seg} (h : s.Canon) : (s.nmCopyPiece m p g).1.Canon := by
  unfold State.nmCopyPiece
  extract_lets a
  generalize (if nmCode m.ctl = 0x0D then 3 else 1) = kind
  split
  next e =>
    have ht := State.Canon.of_fst e h.nmRead
    split
    next e => exact State.Canon.of_fst e ht.nmWrite

theorem State.Canon.nmSectorRead {s : State} {m : NmCmd} {a : Agent} {sa : Nat} (h : s.Canon) :
    (s.nmSectorRead m a sa).1.Canon := by
  unfold State.nmSectorRead
  split
  next e => exact State.Canon.of_fst e h.routeRead
  next e =>
    have ht := State.Canon.of_fst e h.routeRead
    extract_lets
    split
    next e' =>
      have hu := State.Canon.of_fst e' ht.readSector
      exact State.Canon.ite_fst hu (State.Canon.ite_fst hu.writeSector hu)

theorem State.Canon.nmQuiet {s : State} {m : NmCmd} {g : Seg} (h : s.Canon) : (s.nmQuiet m g).1.Canon := by
  refine State.Canon.ite_fst h ?_
  extract_lets a t
  have ht : t.Canon := h.settle
  split
  next e =>
    have hu := State.Canon.of_fst e (ht.foldl_fst fun _ _ hq => hq.nmSectorRead)
    exact .ite hu.visitAt hu

theorem State.Canon.nmPiece {s : State} {m : NmCmd} {p : Nat} {g : Seg} (h : s.Canon) : (s.nmPiece m p g).1.Canon :=
  State.Canon.ite_fst h (State.Canon.ite_fst h.nmQuiet (State.Canon.ite_fst h.nmCopyPiece h.nmElements))

theorem State.Canon.nmRun {s : State} {m : NmCmd} (h : s.Canon) : (s.nmRun m).1.Canon := by
  unfold State.nmRun
  split
  next e =>
    refine State.Canon.of_fst e (h.foldl_fst fun _ _ ht => ?_)
    split
    next e' => exact State.Canon.of_fst e' ht.nmPiece

theorem State.Canon.execNmComplete {s : State} (h : s.Canon) : (execNmComplete s).Canon := by
  unfold Machine.execNmComplete
  split
  · split
    · exact .next h
    · exact .next (State.Canon.nmRun h)
  · split
    next e =>
      have ht := State.Canon.of_fst e h.nmRun
      exact .next (State.Canon.applyAdds (State.Canon.ite ht.mapCore.mapTask.addCount ht.mapCore.mapTask))

/-! #### The host, the management port, resets, registers -/

theorem State.Canon.hostRecord {s : State} {x : Space} {va : Nat} (h : s.Canon) : (s.hostRecord x va).1.Canon := by
  unfold State.hostRecord
  extract_lets u
  have hu : u.Canon := State.Canon.jobWalks (r := 0) h
  clear_value u
  split
  · exact hu
  · split
    next e =>
      refine State.Canon.of_fst e (.foldl_fst hu fun y g hy => ?_)
      split
      next e => exact State.Canon.of_fst e hy.physRead

theorem State.Canon.dropSubmission {s : State} (h : s.Canon) : s.dropSubmission.Canon := h

theorem State.Canon.execHostSubmit {recva : BitVec 42} {sasid : BitVec 16} {s : State} (h : s.Canon) :
    (execHostSubmit recva sasid s).Canon := by
  unfold Machine.execHostSubmit
  refine .next (.ite h ?_)
  split
  · exact h.dropSubmission
  · extract_lets va
    split
    next e =>
      have ht := State.Canon.of_fst e h.hostRecord
      split
      · exact ht.dropSubmission
      · extract_lets sub j u
        have hu : u.Canon := ht
        exact .ite ht.dropSubmission (.ite hu hu.endJob)

theorem State.Canon.execHostRead {pa : BitVec 40} {s : State} (h : s.Canon) : (execHostRead pa s).Canon :=
  .next (State.Canon.ite h h.physRead.ckptMark)

theorem State.Canon.maskedWrite {s : State} {sa : Nat} {a : Agent} {mask : BitVec 64} {data : BitVec 512} (h : s.Canon) :
    (s.maskedWrite sa a mask data).Canon := by
  unfold State.maskedWrite
  extract_lets
  split
  next e => exact State.Canon.of_fst e h.settle.routeWrite
  next e => exact (State.Canon.of_fst e h.settle.routeWrite).writeSector

theorem State.Canon.execHostWrite {pa : BitVec 40} {mask : BitVec 64} {data : BitVec 512} {s : State} (h : s.Canon) :
    (execHostWrite pa mask data s).Canon :=
  .next (State.Canon.ite h h.maskedWrite)

theorem State.Canon.mapHost {s : State} {f : HostIf → HostIf} (h : s.Canon) : (s.mapHost f).Canon := h

theorem State.Canon.execMailboxAttest {op : BitVec 8} {s : State} (h : s.Canon) : (execMailboxAttest op s).Canon :=
  .next (State.Canon.ite h h.mapHost)

theorem State.Canon.execMailboxResponse {s : State} (h : s.Canon) : (execMailboxResponse s).Canon :=
  .next (State.Canon.ite h h.mapHost)

theorem State.Canon.execHostBarrierArrive {slot : BitVec 4} {s : State} (h : s.Canon) : (execHostBarrierArrive slot s).Canon := by
  unfold Machine.execHostBarrierArrive
  refine .next ?_
  split
  · exact h
  · exact State.Canon.ite h h.mapHost

theorem State.Canon.mapMgmt {s : State} {f : Mgmt → Mgmt} (h : s.Canon) : (s.mapMgmt f).Canon := h

theorem State.Canon.answer {s : State} {l : List MFrame} (h : s.Canon) : (s.answer l).Canon := h.mapMgmt

theorem State.Canon.request {s : State} {ty : BitVec 8} {q : BitVec 32} {rom : Bool} {f : State → State} (h : s.Canon)
    (hf : ∀ t : State, t.Canon → (f t).Canon) : (s.request ty q rom f).Canon :=
  State.Canon.ite h (State.Canon.ite h.answer (State.Canon.ite h.answer (hf _ h)))

theorem State.Canon.execImageChunk {q : BitVec 32} {off : BitVec 64} {b : List Byte} {s : State} (h : s.Canon) :
    (execImageChunk q off b s).Canon :=
  .next (h.request (fun _ ht => State.Canon.ite ht.answer ht.mapMgmt.answer))

theorem State.Canon.bare {s : State} (h : s.Canon) : s.bare.Canon := Mem.wf_filter _ h

theorem State.Canon.train {s : State} {failed : BitVec 256} (h : s.Canon) : (s.train failed).Canon := State.Canon.ite h h

theorem State.Canon.boot {s : State} (h : s.Canon) : s.boot.Canon := State.Canon.train (State.Canon.of_mem h.bare rfl)

theorem State.Canon.execColdReset {failed : BitVec 256} {s : State} (h : s.Canon) : (execColdReset failed s).Canon :=
  .next (State.Canon.ite (State.Canon.boot (State.Canon.of_mem h.bare rfl)) (State.Canon.of_mem h.bare rfl))

theorem State.Canon.execImageCommit {q : BitVec 32} {s : State} (h : s.Canon) : (execImageCommit q s).Canon := by
  refine .next (h.request fun t ht => ?_)
  extract_lets m u v _ w
  have hu : u.Canon := ht.mapMgmt
  have hv : v.Canon := hu
  clear_value u v
  have hw : w.Canon := .ite (hv.boot.of_mem rfl) hv
  exact .ite hw.answer hu.answer

theorem State.Canon.execAttestationRequest {q : BitVec 32} {nonce : BitVec 512} {s : State} (h : s.Canon) :
    (execAttestationRequest q nonce s).Canon :=
  .next (h.request (fun _ ht => ht.answer))

theorem State.Canon.execTelemetryRequest {q : BitVec 32} {s : State} (h : s.Canon) : (execTelemetryRequest q s).Canon :=
  .next (h.request (fun _ ht => ht.answer))

theorem State.Canon.execPodMembership {q : BitVec 32} {group : BitVec 16} {members : List (BitVec 12)} {s : State} (h : s.Canon) :
    (execPodMembership q group members s).Canon :=
  .next (h.request (fun _ ht => State.Canon.answer ht))

theorem State.Canon.execStatusRequest {q : BitVec 32} {s : State} (h : s.Canon) : (execStatusRequest q s).Canon :=
  .next (h.request (fun _ ht => ht.answer))

theorem State.Canon.mapPort {s : State} {p : Nat} {f : Port → Port} (h : s.Canon) : (s.mapPort p f).Canon := by
  unfold State.mapPort
  split
  · exact h
  · exact h

theorem State.Canon.execChronAlign {b : BitVec 4} {c : BitVec 64} {s : State} (h : s.Canon) : (execChronAlign b c s).Canon :=
  .next h

theorem State.Canon.portRed {s : State} {ga : Nat} {group : BitVec 16} {key : BitVec 8} {op : BitVec 3} {ty : BitVec 4}
    {val : Word} (h : s.Canon) : (s.portRed ga group key op ty val).Canon := by
  unfold State.portRed
  split
  · exact h
  · exact h

theorem State.Canon.execFlitReceive {port : BitVec 4} {body : FlitBody} {crcOk : Bool} {fec : BitVec 32} {s : State} (h : s.Canon)
    : (execFlitReceive port body crcOk fec s).Canon := by
  unfold Machine.execFlitReceive
  split
  · exact .next h
  · refine .ite (.next h) (.ite (.next h.mapPort) ?_)
    split
    · exact h.mapPort.execVotePacket
    · exact h.mapPort.execDecisionPacket
    · exact h.mapPort.execChronAlign
    · exact .next (State.Canon.ite h.mapPort.maskedWrite h.mapPort)
    · exact .next (State.Canon.ite h.mapPort.portRed h.mapPort)

theorem State.Canon.execPortDead {port : BitVec 4} {s : State} (h : s.Canon) : (execPortDead port s).Canon := .next h.mapPort

theorem State.Canon.execPortTrained {port : BitVec 4} {peer : BitVec 12} {s : State} (h : s.Canon) :
    (execPortTrained port peer s).Canon :=
  .next (State.Canon.ite h h.mapPort)

theorem State.Canon.endAll {s : State} {st : Nat} (h : s.Canon) : (s.endAll st).Canon := by
  unfold State.endAll
  refine (h.foldl fun _ _ ht => ?_).foldl fun _ _ hu => ?_
  · split
    · exact State.Canon.ite ht ht.endJob
    · exact ht
  · split
    · exact hu.applyDecision
    · exact hu

theorem State.Canon.execWarmReset {failed : BitVec 256} {s : State} (h : s.Canon) : (execWarmReset failed s).Canon := by
  refine .next (.ite h ?_)
  extract_lets t u v
  have hu : u.Canon := .foldl (h.endAll.of_mem rfl) fun _ _ h => h.nmRun
  have hv : v.Canon := by
    unfold v
    split
    next e => exact hu.execScrubPeriodEnd.of_next e
    · exact hu
  exact State.Canon.train hv

theorem State.Canon.machineCheck {s : State} {n code : Nat} (h : s.Canon) : (s.machineCheck n code).Canon := by
  unfold State.machineCheck
  refine h.onCore (fun _ ht => ?_)
  extract_lets
  split
  · exact ht.stopCore.writeFrame.mapCore
  · exact ht.stopCore

theorem State.Canon.poisonAt {s : State} {sa : Nat} (h : s.Canon) : (s.poisonAt sa).Canon := by
  unfold State.poisonAt
  split
  next e => exact State.Canon.of_fst e h.routeRead
  next e => exact (State.Canon.of_fst e h.routeRead).putSector

theorem State.Canon.poisonLine {s : State} {ga : Nat} (h : s.Canon) : (s.poisonLine ga).Canon :=
  State.Canon.ite h (State.Canon.ite h.poisonAt.poisonAt h)

theorem State.Canon.execSramError {x : SramPlace} {s : State} (h : s.Canon) : (execSramError x s).Canon := by
  unfold Machine.execSramError
  refine .next ?_
  split
  · exact h
  · exact h
  · exact h.mapCoreAt
  · exact h.mapCoreAt
  · exact h.mapDie
  · exact h.poisonLine
  · exact h.machineCheck
  · exact h.machineCheck
  · exact h.machineCheck
  · exact h.machineCheck
  · exact h.machineCheck
  · exact h.foldl fun _ _ ht => ht.machineCheck
  · exact h.foldl fun _ _ hu => hu.machineCheck

theorem State.Canon.execThermalThrottle {s : State} (h : s.Canon) : (execThermalThrottle s).Canon := .next h

theorem State.Canon.execFallBelowLimits {s : State} (h : s.Canon) : (execFallBelowLimits s).Canon := .next h

theorem State.Canon.execThermalShutdown {s : State} (h : s.Canon) : (execThermalShutdown s).Canon :=
  .next (State.Canon.of_mem h.endAll rfl)

theorem State.Canon.execPowerLoss {flashWrite : Bool} {s : State} (h : s.Canon) : (execPowerLoss flashWrite s).Canon :=
  .next (State.Canon.of_mem h.bare rfl)

theorem State.Canon.regionWrite {s : State} {v i : Nat} {w : Word} (h : s.Canon) : (s.regionWrite v i w).Canon := by
  unfold State.regionWrite
  extract_lets vv k set
  have hset {t : State} (ht : t.Canon) : (set t).Canon := ht.mapRegion
  split
  · split
    · exact h.execRegionDeclare
    · split
      · split
        next e => exact .next (hset (h.execRegionRetire.of_next e))
        · exact h.execRegionRetire
      · exact .next (hset h)
  · exact .next (.ite h h.mapRegion)
  · exact .next (.ite h h.mapRegion)
  · exact .next h

theorem State.Canon.commonWrite {s : State} {off : Nat} {v : Word} (h : s.Canon) : (s.commonWrite off v).Canon :=
  .ite (.next h) (.ite (.next h) (.ite (.next h) (.ite h.execKeySlotWrite (.ite (.next h) (.ite h.regionWrite .fault)))))

theorem State.Canon.fwWrite {s : State} {n i : Nat} {v : Word} (h : s.Canon) : (s.fwWrite n i v).Canon := by
  unfold State.fwWrite
  split
  · exact .next h.mapCoreAt
  · exact .next h.mapCoreAt
  · exact .next h.mapCoreAt
  · exact .ite h.execFirmwareStart (.next h)

theorem State.Canon.osWrite {s : State} {off : Nat} {v : Word} (h : s.Canon) : (s.osWrite off v).Canon :=
  .ite (.next h.writeOsArea) (.ite h.execResume (.ite h.execAresume (.ite (.next h) .fault)))

theorem State.Canon.execAreaLimitWrite {off : BitVec 12} {v : Word} {s : State} (h : s.Canon) :
    (execAreaLimitWrite off v s).Canon :=
  .ite h.osWrite .fault

theorem State.Canon.barWrite {s : State} {off : Nat} {v : Word} (h : s.Canon) : (s.barWrite off v).Canon := by
  unfold State.barWrite
  refine .ite (.next h) (.ite h.execHostSubmit (.ite (.next h) (.ite ?_ (.ite (.ite h.execMailboxAttest (.next h.mapHost)) (.ite
    (.next h) (.ite (.next h.mapHost) (.ite (.next h) .fault)))))))
  split
  · exact .ite h.execHostBarrierArrive (.next h)
  · refine .next ?_
    split
    · exact h.mapHost
    · exact h
  · exact .next h

theorem State.Canon.execRegisterWrite {off : BitVec 41} {v : BitVec 64} {s : State} (h : s.Canon) :
    (execRegisterWrite off v s).Canon :=
  .ite h.barWrite <| .ite h.osWrite <| .ite h.fwWrite <| .ite h.commonWrite <| .ite (.next h) <| .ite (.next h) <|
    .ite (.next h) <| .ite (.next h) .fault

/-! #### Every instruction -/

theorem State.Canon.exec {i : Instr} {s : State} (h : s.Canon) : Out.Canon (exec i s) := by
  unfold Machine.exec
  cases i with
  | add | sub | mul | mulhI64 | mulhN64 | divI64 | divN64 | remI64 | remN64 | and | or | xor | andn | shl | shr | sar | rol
  | minI64 | minN64 | maxI64 | maxN64 => exact h.alu3
  | clz | ctz | popc | addImm | mulImm | andImm | orImm | xorImm | shlImm | shrImm | sarImm | rolImm => exact h.alu2
  | movXP | sel | li | lih | fstat | winq => exact h.aluOp
  | movPX => exact h.execMovPX
  | cmp => exact h.execCmp
  | cmpImm => exact h.execCmpImm
  | bfx | bfi | fsh => exact h.fieldOp
  | br => exact h.execBr
  | call => exact h.execCall
  | bc => exact h.execBc
  | loop => exact h.execLoop
  | ret => exact h.execRet
  | ld => exact h.execLd
  | ldIndex => exact h.execLdIndex
  | st => exact h.execSt
  | stIndex => exact h.execStIndex
  | redAdd | redMin | redMax | redAnd | redOr | redXor => exact h.red
  | fork => exact h.execFork
  | addf => exact h.execAddf
  | addfImm => exact h.execAddfImm
  | give => exact h.execGive
  | giveAcc => exact h.execGiveAcc
  | waitf => exact h.execWaitf
  | waitfImm => exact h.execWaitfImm
  | flagcfg => exact h.execFlagcfg
  | ssync => exact h.execSsync
  | tokpass => exact h.execTokpass
  | mfence => exact h.execMfence
  | chron => exact h.execChron
  | ipf => exact h.execIpf
  | ipin => exact h.execIpin
  | iunpin => exact h.execIunpin
  | csrr => exact h.execCsrr
  | csrw | rkeyWrite | nfdWrite => exact h.csrWrite
  | trap => exact h.execTrap
  | launch => exact h.execLaunch
  | wincfg => exact h.execWincfg
  | winoff => exact h.execWinoff
  | tlbinv => exact h.execTlbinv
  | tlbinvr => exact h.execTlbinvr
  | pgsplit => exact h.execPgsplit
  | pgdup => exact h.execPgdup
  | pgcoll => exact h.execPgcoll
  | pgmove => exact h.execPgmove
  | pgprot => exact h.execPgprot
  | walkstat => exact h.execWalkstat
  | keyret => exact h.execKeyret
  | publish => exact h.execPublish
  | pubwait => exact h.execPubwait
  | reftag => exact h.execReftag
  | stref => exact h.execStref
  | refclr => exact h.execRefclr
  | objinit => exact h.execObjinit
  | retract => exact h.execRetract
  | txvote => exact h.execTxvote
  | txwait => exact h.execTxwait
  | txstat | txkey | txseqStep | txseqCbase | txseqQbase | txseqCount => exact h.txRead
  | nmSgdf | nmMom | nmAdamw | nmAxpy | nmScale | nmFill | nmCopy | nmCast | nmClamp | nmRecode | nmScrub | nmFold | nmCkpt
    => exact h.nmc
  | nmfence => exact h.execNmfence
  | nmfenceArray => exact h.execNmfenceArray
  | pfxRnd | pfxMsk => exact h.prefixWord
  | vadd | vsub | vmul | vdiv | vsqrt | vrcp | vexp2 | vlog2 | vfma | vfms | vnfma => exact h.fpOp
  | vmin | vmax | vcps | vabs | vneg => exact h.fpExact
  | vcmp | vcmpInt => exact h.elementMask
  | vsel => exact h.execVsel
  | viadd | visub | vimul | vshl | vshr | vsar | vand | vor | vxor | vpopc | vclz | vimad => exact h.intOp
  | vbfx => exact h.execVbfx
  | vbfi => exact h.execVbfi
  | vfsh => exact h.execVfsh
  | vcvt => exact h.execVcvt
  | vredsum => exact h.execVredsum
  | vredmax | vredmin => exact h.redBest
  | vmov => exact h.execVmov
  | vbcast => exact h.execVbcast
  | vtrans | vrotRow | vrotCol => exact h.vecLayout
  | vperm => exact h.execVperm
  | vbcastImm => exact h.execVbcastImm
  | vshapeset => exact h.execVshapeset
  | bnet => exact h.execBnet
  | bnload => exact h.execBnload
  | vld => exact h.execVld
  | vst => exact h.execVst
  | vlda => exact h.execVlda
  | vsta => exact h.execVsta
  | vrand | vrandF => exact h.vecDrawOp
  | vmaskp => exact h.execVmaskp
  | mand | mor | mxor | mnot => exact h.maskOp
  | mpopc | mfirst => exact h.maskScalar
  | vqskip => exact h.execVqskip
  | vecAddf => exact h.execVecAddf
  | vecAddfImm => exact h.execVecAddfImm
  | vecWaitf => exact h.execVecWaitf
  | vecWaitfImm => exact h.execVecWaitfImm
  | vecGive => exact h.execVecGive
  | vecGiveAcc => exact h.execVecGiveAcc
  | vscalLi | vscalLi64 | vscalAdd | vscalAddImm | vscalSub | vscalSubImm | vscalShl | vscalShlImm | vscalAnd | vscalAndImm
    => exact h.vscal
  | vscalCmp | vscalCmpImm => exact h.vscalCompare
  | vscalBr => exact h.execVscalBr
  | vscalBc => exact h.execVscalBc
  | vscalLoop => exact h.execVscalLoop
  | vscalRend => exact h.execVscalRend
  | vscalNop => exact h.execVscalNop
  | cpy => exact h.execCpy
  | cpys => exact h.execCpys
  | chain => exact h.execChain
  | chstop => exact h.execChstop
  | gather => exact h.execGather
  | scatter => exact h.execScatter
  | bind => exact h.execBind
  | collAllReduce | collAllGather | collReduceScatter => exact h.coll
  | nmirror => exact h.execNmirror
  | addf64 => exact h.execAddf64
  | waitf64 => exact h.execWaitf64
  | give64 => exact h.execGive64
  | scalLi | scalAdd | scalSub | scalShl | scalAnd => exact h.scal64
  | scalCmp => exact h.execScalCmp
  | scalBr => exact h.execScalBr
  | scalBc => exact h.execScalBc
  | scalLoop => exact h.execScalLoop
  | scalRend => exact h.execScalRend
  | scalNop => exact h.execScalNop
  | mma | mmas | mmai | mmaj => exact h.mm
  | mtile => exact h.execMtile
  | mtileAddr => exact h.execMtileAddr
  | mtileAdd => exact h.execMtileAdd
  | mtileLd => exact h.execMtileLd
  | azero => exact h.execAzero
  | afade => exact h.execAfade
  | ald => exact h.execAld
  | ast => exact h.execAst
  | aspill => exact h.execAspill
  | afill => exact h.execAfill
  | qinit => exact h.execQinit
  | qmap => exact h.execQmap
  | qmapSt => exact h.execQmapSt
  | qldg => exact h.execQldg
  | qgate => exact h.execQgate
  | qdiag => exact h.execQdiag
  | qswap => exact h.execQswap
  | qperm => exact h.execQperm
  | qprob => exact h.execQprob
  | qnorm => exact h.execQnorm
  | qsample => exact h.execQsample
  | qscale => exact h.execQscale
  | join => exact h.execJoin
  | rend => exact h.execRend
  | eret => exact h.execEret
  | txopen => exact h.execTxopen
  | txclose => exact h.execTxclose
  | qsync => exact h.execQsync
  | pageWalk => exact h.execPageWalk
  | reachWalkComplete => exact h.execReachWalkComplete
  | nmComplete => exact h.execNmComplete
  | chainRecordRun => exact h.execChainRecordRun
  | copyRelease => exact h.execCopyRelease
  | copyDelivery => exact h.execCopyDelivery
  | streamEntryArrival => exact h.execStreamEntryArrival
  | stampedIssue => exact h.execStampedIssue
  | collectiveRun => exact h.execCollectiveRun
  | matrixCommandRun => exact h.execMatrixCommandRun
  | astroCollectiveRun => exact h.execAstroCollectiveRun
  | hostSubmit => exact h.execHostSubmit
  | jobAdmission => exact h.execJobAdmission
  | barrierRelease => exact h.execBarrierRelease
  | exchangeEnd => exact h.execExchangeEnd
  | preemptRequest => exact h.execPreemptRequest
  | preemptTimeout => exact h.execPreemptTimeout
  | spilledJobResume => exact h.execSpilledJobResume
  | timeLimit => exact h.execTimeLimit
  | deadlock => exact h.execDeadlock
  | faultFrameWrite => exact h.execFaultFrameWrite
  | resume => exact h.execResume
  | aresume => exact h.execAresume
  | areaLimitWrite => exact h.execAreaLimitWrite
  | firmwareStart => exact h.execFirmwareStart
  | redApply => exact h.execRedApply
  | chronAlign => exact h.execChronAlign
  | carafeRead => exact h.execCarafeRead
  | carafeWrite => exact h.execCarafeWrite
  | writeReachesArray => exact h.execWriteReachesArray
  | scrubPeriodEnd => exact h.execScrubPeriodEnd
  | patrolRead => exact h.execPatrolRead
  | keySlotWrite => exact h.execKeySlotWrite
  | regionDeclare => exact h.execRegionDeclare
  | regionRetire => exact h.execRegionRetire
  | versionPassEnd => exact h.execVersionPassEnd
  | forcedPass => exact h.execForcedPass
  | packageVote => exact h.execPackageVote
  | votePacket => exact h.execVotePacket
  | rootTimeout => exact h.execRootTimeout
  | decisionPacket => exact h.execDecisionPacket
  | decisionApply => exact h.execDecisionApply
  | hostRead => exact h.execHostRead
  | hostWrite => exact h.execHostWrite
  | mailboxAttest => exact h.execMailboxAttest
  | mailboxResponse => exact h.execMailboxResponse
  | hostBarrierArrive => exact h.execHostBarrierArrive
  | imageChunk => exact h.execImageChunk
  | imageCommit => exact h.execImageCommit
  | attestationRequest => exact h.execAttestationRequest
  | telemetryRequest => exact h.execTelemetryRequest
  | podMembership => exact h.execPodMembership
  | statusRequest => exact h.execStatusRequest
  | flitReceive => exact h.execFlitReceive
  | portDead => exact h.execPortDead
  | coldReset => exact h.execColdReset
  | warmReset => exact h.execWarmReset
  | sramError => exact h.execSramError
  | thermalThrottle => exact h.execThermalThrottle
  | thermalShutdown => exact h.execThermalShutdown
  | registerWrite => exact h.execRegisterWrite
  | codeFetch => exact h.execCodeFetch
  | loadDataReturn => exact h.execLoadDataReturn
  | writeCompletesAtHome => exact h.execWriteCompletesAtHome
  | vectorCompletion => exact h.execVectorCompletion
  | commandCycle => exact h.execCommandCycle
  | endedByTheOs => exact h.execEndedByTheOs
  | fencingOffOfACore => exact h.execFencingOffOfACore
  | portTrained => exact h.execPortTrained
  | powerLoss => exact h.execPowerLoss
  | fallBelowLimits => exact h.execFallBelowLimits

/-! #### The turn of a stream -/

theorem State.Canon.beginTurn {s : State} {k : Strm} (h : s.Canon) : (s.beginTurn k).Canon := h

theorem State.Canon.rotate {s : State} (h : s.Canon) : s.rotate.Canon := State.Canon.of_mem h.noteStuck.focus rfl

theorem State.Canon.runStamp {s : State} {e : StampEv} (h : s.Canon) : (s.runStamp e).Canon := by
  unfold State.runStamp
  refine h.onCore (fun _ ht => ?_)
  split
  · split
    · exact State.Canon.ite ht.landCopy ht.issueCopy
    · exact ht
  · split
    · exact State.Canon.ite ht.mmLand.applyAdds ht.issueMm
    · exact ht

/-! #### A step -/

/-! The events that come due inside the package. -/

theorem OptOutCanon.changed {s : State} {o : Out} (h : o.Canon) : OptOutCanon (s.changed o) := by
  unfold State.changed
  split
  · exact .ite .none (.some h)
  · exact .some h

theorem State.Canon.copyNext {s : State} (h : s.Canon) : OptOutCanon s.copyNext := by
  unfold State.copyNext
  extract_lets q first
  split
  · exact .some h.execCopyDelivery
  · split
    · exact .some h.execCopyRelease
    · refine .orElse ?_ (.findSome fun _ => .ite (.changed h.execChainRecordRun) .none)
      split
      · exact .changed h.execStreamEntryArrival
      · exact .none

theorem State.Canon.coreNext {s : State} (h : s.Canon) : OptOutCanon s.coreNext :=
  .ite (.some h.execLoadDataReturn) <| .ite (.some h.execVectorCompletion) <| .ite (.some h.execWriteCompletesAtHome) <|
  .ite (.some h.execMatrixCommandRun) <| .ite (.some h.execNmComplete) <|
  .orElse h.copyNext (.ite (.changed h.execReachWalkComplete) .none)

theorem State.Canon.sharedNext {s : State} (h : s.Canon) : OptOutCanon s.sharedNext := by
  refine .orElse (.findSome fun d => ?_) (.orElse (.ite (.changed h.execRedApply) .none) (.orElse
    (.findSome fun _ => .changed h.execCollectiveRun)
    (.findSome fun _ => .ite (.changed (State.Canon.execAstroCollectiveRun h)) .none)))
  split
  · exact .none
  · exact .some h.execPageWalk

theorem State.Canon.syncNext {s : State} (h : s.Canon) : OptOutCanon s.syncNext := by
  refine .orElse ?_ (.orElse (.ite (.some h.execExchangeEnd) .none) (.orElse (.findSome fun j =>
    .ite (.some h.execPackageVote) (.ite (.some h.execRootTimeout) (.ite (.some h.execDecisionApply) .none)))
    (.findSome fun v => .findSome fun k => .ite (.some h.execVersionPassEnd) (.ite (.some h.execForcedPass) .none))))
  split
  · exact .some h.execBarrierRelease
  · exact .none

theorem State.Canon.hubNext {s : State} (h : s.Canon) : OptOutCanon s.hubNext :=
  .orElse (.findSome fun _ => .ite (.some h.execPreemptTimeout) (.ite (.some h.execTimeLimit) .none)) <|
  .orElse (.mapState h.hubTurn fun _ ht => .next ht) <|
  .orElse (.ite (.some h.execNmComplete) .none) <|
  .orElse (.ite (.some h.execDeadlock) .none) <|
  .orElse (.ite (.some h.execScrubPeriodEnd) .none) <|
  .orElse (.findSome fun _ => .ite (.some h.execPatrolRead) (.ite (.some h.execWriteReachesArray) .none))
    (.ite (.some h.execMailboxResponse) .none)

theorem State.Canon.frameNext {s : State} (h : s.Canon) : OptOutCanon s.frameNext :=
  .ite (.some h.execFaultFrameWrite) (.ite (.some (.next h.writeAframe)) .none)

theorem State.Canon.nextInternal {s : State} (h : s.Canon) : OptOutCanon (nextInternal s) :=
  .ite .none <| .orElse (.map fun _ => .next h.runStamp) <| .orElse h.coreNext <| .orElse h.sharedNext <| .orElse h.syncNext <|
    .orElse h.hubNext h.frameNext

theorem State.Canon.turnStep {k : Strm} {s : State} (h : s.Canon) : Out.Canon (turnStep k s) := by
  unfold Machine.turnStep
  refine .ite (.ite (.next h.configStep) ?_) (.next h)
  split
  next i t e =>
    have hexec : Out.Canon (Machine.exec i t) := (h.nextWord.of_word e).exec
    split
    next e => exact .next (State.Canon.keepWord (hexec.of_next e))
    · exact hexec
  next e => exact .next (h.nextWord.of_stop e)

theorem State.Canon.step {s : State} (h : s.Canon) : Out.Canon (step s) := by
  unfold Machine.step
  split
  · exact State.Canon.exec h
  · split
    next e => exact State.Canon.nextInternal h _ e
    · split
      · exact State.Canon.turnStep (State.Canon.beginTurn h)
      · exact .next (State.Canon.rotate h)

/-- Settles O5: every function of the model that answers with a state keeps memory canonical, so a step does. -/
theorem memoryStaysCanonical : Obligations.MemoryStaysCanonical :=
  fun _ _ h e => (State.Canon.step h).of_next e

end Sys2Proof.Machine
